-- ==== Sys2Proof/Word.lean ====
section
/-! DEFINITION. The word types of the J12's registers, memories and messages, and nothing else. -/
namespace Sys2Proof

/-- A byte (spec 00: all multi-byte quantities are made of bytes). -/
abbrev Byte := BitVec 8
/-- A 16-bit field. -/
abbrev Half := BitVec 16
/-- A 32-bit word: a tack, a counter, an FP32 bit pattern. -/
abbrev Word := BitVec 32
/-- A 64-bit word: WS, JS, an address register. -/
abbrev DWord := BitVec 64
/-- An FP32 bit pattern (R85). -/
abbrev F32 := BitVec 32
/-- A long sum: a 128-bit two's complement integer (R71). -/
abbrev LongSum := BitVec 128

end Sys2Proof
end

