-- ==== Sys2Proof/Schedule.lean ====
section
/-! DEFINITION. The schedule of a last's tile code as plain data. The manual fixes what a tile does at each job
stitch but no encoding of the tile's program (06 Table 6.5: the loader copies it unchanged), so the model takes the
program's meaning beside its bytes: the actions of each tile of each step variant, in the manual's own terms
(log entry 5, DESIGN CHOICE). Addresses are offsets from the job's insole, HBM and tack bases. -/
namespace Sys2Proof

/-- The operand formats of R52 and Table 3.2. -/
inductive Fmt where
  | int8 | e4m3 | e5m2 | b8 | b6 | b4 | w8 | w4 | bf16 | fp16
  deriving DecidableEq, Repr

/-- The formats a task may store (R96, R107, R108); fp32 is no requantisation. -/
inductive OutFmt where
  | b8 | b6 | b4 | bf16 | fp16 | e4m3 | e5m2 | int8
  deriving DecidableEq, Repr

/-- One matrix operand: `shift` is the per-K-channel shift of R90 and `scale` the per-K-channel factor of Table 4.2;
empty where the prologue is not used. `addr` is an insole offset, `stride` the bytes from a row to the next. -/
structure MatOperand where
  fmt : Fmt
  addr : Nat
  stride : Nat
  shift : List Int
  scale : List F32
  deriving DecidableEq, Repr

/-- A per-channel constant: one FP32 in the last, or an array in the insole (R91). -/
inductive EpiArg where
  | const (f : F32)
  | at (addr : Nat)
  deriving DecidableEq, Repr

/-- The operations of a task's list (R86, R91 to R96, R517). Row partials lie at `out`, `mAddr`, `sAddr`, 8 bytes a row
(R93). -/
inductive EpiOp where
  | round
  | scale (c : EpiArg)
  | bias (c : EpiArg)
  | residual (addr : Nat) (bf16 : Bool)
  | geluTanh
  | silu
  | siluGated (addr : Nat) (bf16 : Bool)
  | reluSq
  | rmsPartial (out : Nat)
  | rmsApply (sAddr : Nat) (invN eps : F32) (g : EpiArg)
  | softmaxMax (out : Nat)
  | softmaxSum (mAddr out : Nat)
  | softmaxNorm (mAddr sAddr : Nat)
  | combineAdd (addr : Nat)
  | combineMax (addr : Nat)
  | requant (f : OutFmt) (t : Int)
  deriving DecidableEq, Repr

/-- A fused or vector-only task (04, 4.1). `rows` is M, `k` the depth, `width` the outputs of a row (64 in a fused
task), `live` the outputs present in a row, `blocksLoaded` the stationary blocks this task loads, `addFrom` the partial
long sums it accumulates, `partialOut` whether its outputs are partial long sums or partial tree nodes (R87). -/
structure Task where
  fused : Bool
  rows : Nat
  k : Nat
  width : Nat
  live : Nat
  a : MatOperand
  b : MatOperand
  blocksLoaded : Nat
  addFrom : List Nat
  partialOut : Bool
  inAddr : Nat
  inBf16 : Bool
  ops : List EpiOp
  outAddr : Nat
  outStride : Nat
  stall : Nat
  deriving DecidableEq, Repr

/-- The two tile queues that scheduled actions fill (Table 7.2). -/
inductive TileQueue where
  | input | vector
  deriving DecidableEq, Repr

/-- A service request that a tile posts (07 R149, 11 R268): the words of its header that the tile fixes, where its data
lies or goes in the tile's insole, where its result record goes, and the tack it adds to on completion. -/
structure PostSpec where
  op : Nat
  dest : Nat
  target : Nat
  tile : Nat
  jobTag : Nat
  addr : Nat
  length : Nat
  valiant : Bool
  spread : Bool
  fence : Bool
  skive : Bool
  mcast : Nat
  mask : Nat
  arg : Nat
  dataAddr : Nat
  resultAddr : Nat
  tack : Option Nat
  deriving DecidableEq, Repr

/-- What one scheduled action does. Times inside an action are job stitches counted from the action's own: `latency` is
the declared latency of a mesh transfer (R64), `useAfter` the stitch at which its receiver uses it, `doneAfter` the
stitch at which an HBM request has completed (R296). -/
inductive Act where
  | task (t : Task)
  | insole (readGranules writeGranules : Nat)
  | enqueue (q : TileQueue) (toTile : Nat)
  | dequeue (q : TileQueue)
  | mesh (toTile bytes latency useAfter fromAddr toAddr : Nat)
  | hbmRead (hbmAddr bytes toAddr doneAfter : Nat)
  | hbmWrite (hbmAddr bytes fromAddr doneAfter : Nat)
  | post (p : PostSpec)
  | tackAdd (tack value : Nat)
  | tackWait (tack : Nat)
  deriving DecidableEq, Repr

/-- One scheduled action of a logical tile; `offset` is its byte offset in the tile code section (07 Table 7.4 TASK). -/
structure TileAction where
  tile : Nat
  js : Nat
  offset : Nat
  act : Act
  deriving DecidableEq, Repr

/-- The schedule of one step variant: its actions, and where the leader finds the logits of a batch slot: logical tile
and insole offset of V FP32 values (R173). -/
structure VariantSchedule where
  variant : Nat
  actions : List TileAction
  logits : List (Nat × Nat × Nat)
  deriving DecidableEq, Repr

/-- The schedule of a span build. -/
structure Schedule where
  variants : List VariantSchedule
  deriving DecidableEq, Repr

end Sys2Proof
end

