-- ==== Sys2Proof/Types/Desc.lean ====
section
/-! DEFINITION. A submission descriptor, the operand of the host commands (15.5). -/
namespace Sys2Proof.Machine

/-- A submission descriptor as read from its ring: ring, slot, the 64 bytes (R370). -/
structure Desc where
  ring : Nat
  slot : Nat
  bytes : List Byte
  deriving DecidableEq, Repr

end Sys2Proof.Machine
end

