-- ==== Sys2Proof/Syntax.lean ====
section
/-! DEFINITION. The commands of the block: one constructor per row of spec/opcode_table.json, in the table's order, with
the row's operands. `Desc` is a submission descriptor as read from its ring; the lists beside it are the host bytes the
descriptor's addresses name (log entry 4); `item` is a link item of 32 or 256 bytes; `msg` an Apbel message. -/
namespace Sys2Proof
open Sys2Proof.Machine (Desc)

/-- The commands (spec 95 and the rule named at each). -/
inductive Instr where
  /-- GENERATOR_LOCK, R26. -/
  | generatorLock
  /-- COLD_COMPLETE, R486. -/
  | coldComplete (xlat : List Nat) (firmware : Option Nat) (damaged : List Nat)
  /-- FUNCTION_LEVEL_RESET, R392. -/
  | functionLevelReset
  /-- CONVENTIONAL_RESET, R393. -/
  | conventionalReset
  /-- DEVICE_FAULT, R390. -/
  | deviceFault (cause : Nat)
  /-- REFERENCE_LOST, R28. -/
  | referenceLost
  /-- REFERENCE_RELOCK, R28. -/
  | referenceRelock
  /-- STITCH_BOUNDARY, R30. -/
  | stitchBoundary (late : List Nat)
  /-- PACE_SLEW_END, R37. -/
  | paceSlewEnd
  /-- LATE_UNIT_DEPART, R195. -/
  | lateUnitDepart (eyelet lace unit : Nat)
  /-- HANDSHAKE_ACK, R39. -/
  | handshakeAck (region ecc addr : Nat)
  /-- SLIP_POINT_ALIGN, R41. -/
  | slipPointAlign
  /-- STEP_CONTROL_LOST, R400. -/
  | stepControlLost
  /-- SLIP_ANNOUNCE, R212. -/
  | slipAnnounce
  /-- RESUME_RELEASE, R214. -/
  | resumeRelease
  /-- MARGIN_WINDOW_END, R46. -/
  | marginWindowEnd (loops : List (List Int))
  /-- PACE_CHANGE_OUTSIDE_JOB, R38. -/
  | paceChangeOutsideJob
  /-- GOVERNOR_PERIOD_START, R318. -/
  | governorPeriodStart (temps : List Int) (halfAmps : List Nat)
  /-- GOVERNOR_APPLY, R323. -/
  | governorApply (status : Nat)
  /-- THROTTLE_BEGIN, R339. -/
  | throttleBegin (region : Nat)
  /-- COOLANT_VALUES_RECEIVED, R319. -/
  | coolantValuesReceived (inlet : Int) (flow : Nat)
  /-- COOLANT_STALE, R319. -/
  | coolantStale
  /-- COBBLER_HOLD, R340. -/
  | cobblerHold
  /-- COBBLER_HOLD_RELEASE, R340. -/
  | cobblerHoldRelease
  /-- CAP_UPDATE, R327. -/
  | capUpdate (powerCap paceCap : Nat)
  /-- POWER_STOP, R424. -/
  | powerStop
  /-- POWER_STOP_TIMEOUT, R424. -/
  | powerStopTimeout
  /-- WAKE_ORDER, R408. -/
  | wakeOrder (source : Nat)
  /-- PME_SENT, R408. -/
  | pmeSent
  /-- HBM_PATROL_SCRUB, R294. -/
  | hbmPatrolScrub (page : Nat)
  /-- REFRESH_DUE, R299. -/
  | refreshDue (bank : Nat)
  /-- PAGE_RETIRE_COPY_DONE, R295. -/
  | pageRetireCopyDone
  /-- CONGESTION_WINDOW_END, R286. -/
  | congestionWindowEnd
  /-- HEALTH_RECORD_WRITE, R477. -/
  | healthRecordWrite
  /-- DOORBELL_POLL, R367. -/
  | doorbellPoll
  /-- DOORBELL_READ_COMPLETE, R364. -/
  | doorbellReadComplete (words : List Byte)
  /-- HOST_DMA_FAULT, R389. -/
  | hostDmaFault (kind ring index addr : Nat) (desc : List Byte)
  /-- DEFERRED_COMPLETION_WRITE, R379. -/
  | deferredCompletionWrite (ring : Nat)
  /-- EVT_OVERRUN, R380. -/
  | evtOverrun (ring : Nat)
  /-- MSIX_MOD_TIMEOUT, R385. -/
  | msixModTimeout (vector : Nat)
  /-- MSIX_UNMASK, R385. -/
  | msixUnmask (vector : Nat)
  /-- NOP, R362. -/
  | nop (d : Desc)
  /-- QUERY, R372. -/
  | query (d : Desc)
  /-- LOAD_LAST, R139. -/
  | loadLast (d : Desc) (image arr : List Byte) (sched : Schedule)
  /-- LOAD_WEIGHTS, R131. -/
  | loadWeights (d : Desc) (blob siblings : List Byte)
  /-- UNLOAD, R396. -/
  | unload (d : Desc)
  /-- JOB_OPEN, R300. -/
  | jobOpen (d : Desc)
  /-- JOB_START, R206. -/
  | jobStart (d : Desc)
  /-- BARRIER_READY, R206. -/
  | barrierReady
  /-- JS0_RELEASE, R209. -/
  | js0Release
  /-- BARRIER_TIMEOUT, R211. -/
  | barrierTimeout
  /-- BARRIER_SELF_END, R211. -/
  | barrierSelfEnd
  /-- JOB_DRAIN, R399. -/
  | jobDrain (d : Desc)
  /-- JOB_DRAIN_COMPLETE, R399. -/
  | jobDrainComplete
  /-- JOB_CLOSE, R394. -/
  | jobClose (d : Desc)
  /-- JOB_CHECKPOINT, R403. -/
  | jobCheckpoint (d : Desc)
  /-- CHECKPOINT_IMAGE_WRITE, R404. -/
  | checkpointImageWrite (reqs : List Byte)
  /-- JOB_RELAST, R142. -/
  | jobRelast (d : Desc) (image arr ckpt : List Byte) (sched : Schedule)
  /-- SET_BUDGET, R326. -/
  | setBudget (d : Desc)
  /-- SET_PACE_LIMIT, R326. -/
  | setPaceLimit (d : Desc)
  /-- TILE_RETIRE, R471. -/
  | tileRetire (d : Desc)
  /-- LINK_RETRAIN, R231. -/
  | linkRetrain (d : Desc)
  /-- PAGE_RETIRE, R295. -/
  | pageRetire (d : Desc)
  /-- TABLE_LOAD_ROUTING, R282. -/
  | tableLoadRouting (d : Desc) (image : List Byte)
  /-- TABLE_LOAD_PEER, R312. -/
  | tableLoadPeer (d : Desc) (image : List Byte)
  /-- TABLE_LOAD_TEMPLATE, R345. -/
  | tableLoadTemplate (d : Desc) (image : List Byte)
  /-- TEMPLATE_LOAD_COMPLETE, R345. -/
  | templateLoadComplete
  /-- TABLE_LOAD_KEY, R373. -/
  | tableLoadKey (d : Desc) (image : List Byte)
  /-- LOG_READ, R480. -/
  | logRead (d : Desc)
  /-- REQ, R171. -/
  | req (d : Desc) (input : List Byte)
  /-- SOLVE, R350. -/
  | solve (d : Desc) (problems : List Byte)
  /-- SHANK_PROBLEM_DONE, R352. -/
  | shankProblemDone
  /-- XFER_WRITE, R375. -/
  | xferWrite (d : Desc) (data mask : List Byte)
  /-- XFER_READ, R375. -/
  | xferRead (d : Desc)
  /-- XFER_TACK_ADD, R375. -/
  | xferTackAdd (d : Desc) (mask : List Byte)
  /-- INTERRUPT_MODERATION_APPLY, R495. -/
  | interruptModerationApply (value : Word)
  /-- DOORBELL_APPLY, R494. -/
  | doorbellApply (value : Word)
  /-- DOORBELL_APPLY_EFFECT, R495. -/
  | doorbellApplyEffect
  /-- RING_APPLY, R366. -/
  | ringApply (mask : DWord)
  /-- RING_APPLY_EFFECT, R366. -/
  | ringApplyEffect (ring : Nat)
  /-- PACE_APPLY, R505. -/
  | paceApply (value : Word)
  /-- MARGIN_APPLY, R506. -/
  | marginApply (value : Word)
  /-- MARGIN_APPLY_EFFECT, R495. -/
  | marginApplyEffect
  /-- APPLY_ERR_CLEAR, R492. -/
  | applyErrClear (offset : Nat)
  /-- RING_APPLY_ERR_CLEAR, R502. -/
  | ringApplyErrClear (mask : DWord)
  /-- DEBUG_LOCK, R511. -/
  | debugLock
  /-- POLICY_LOCK, R511. -/
  | policyLock
  /-- SIG_POLICY_WRITE, R511. -/
  | sigPolicyWrite (value : Word)
  /-- GRACE_MS_WRITE, R504. -/
  | graceMsWrite (eyelet ms : Nat)
  /-- COMPL_TIMEOUT_WRITE, R507. -/
  | complTimeoutWrite (ms : Nat)
  /-- REGISTER_WRITE, R488. -/
  | registerWrite (offset size value : Nat)
  /-- LOW_WORD_READ_LATCH, R490. -/
  | lowWordReadLatch (offset : Nat)
  /-- CONGESTION_SNAPSHOT_READ, R509. -/
  | congestionSnapshotRead
  /-- RECENT_SNAPSHOT_READ, R510. -/
  | recentSnapshotRead (entry : Nat)
  /-- BUS_MASTER_ENABLE, R358. -/
  | busMasterEnable (on : Bool)
  /-- POWERSTATE_D3HOT, R391. -/
  | powerstateD3hot (pmcsr : Nat)
  /-- POWERSTATE_D0, R407. -/
  | powerstateD0 (pmcsr : Nat)
  /-- TRAINING_SEQUENCE, R227. -/
  | trainingSequence (eyelet : Nat) (lanes : List (List Byte)) (sustained : Bool) (ownOk : Nat)
  /-- TRAINING_STATE_TIMEOUT, R228. -/
  | trainingStateTimeout (eyelet : Nat)
  /-- CODEWORD_LOCK, R228. -/
  | codewordLock (eyelet : Nat)
  /-- BACKOFF_EXPIRY, R229. -/
  | backoffExpiry (eyelet : Nat)
  /-- CODEWORD_RECEIVED, R223. -/
  | codewordReceived (eyelet marker data symbolErrors : Nat)
  /-- MARKER_LOSS, R228. -/
  | markerLoss (eyelet lane : Nat)
  /-- EXCHANGE, R232. -/
  | exchange (eyelet : Nat) (item : List Byte)
  /-- EXCHANGE_RESEND, R232. -/
  | exchangeResend (eyelet : Nat)
  /-- LAT_PROBE_SEND, R233. -/
  | latProbeSend (eyelet : Nat)
  /-- LAT_PROBE, R233. -/
  | latProbe (eyelet : Nat) (item : List Byte) (turn : Nat)
  /-- LAT_ECHO, R233. -/
  | latEcho (eyelet : Nat) (item : List Byte) (round : Nat)
  /-- CREDIT_INIT, R246. -/
  | creditInit (eyelet : Nat) (item : List Byte)
  /-- WELT_UNIT_RECEIVED, R240. -/
  | weltUnitReceived (eyelet : Nat) (item : List Byte)
  /-- ACK, R239. -/
  | ack (eyelet : Nat) (item : List Byte)
  /-- NAK, R243. -/
  | nak (eyelet : Nat) (item : List Byte)
  /-- ACK_DUE, R241. -/
  | ackDue (eyelet : Nat)
  /-- RESEND_TIMEOUT, R243. -/
  | resendTimeout (eyelet : Nat)
  /-- TONGUE_RESEND_TIMEOUT, R249. -/
  | tongueResendTimeout (eyelet : Nat)
  /-- CREDIT_REPORT_SEND, R247. -/
  | creditReportSend (eyelet : Nat)
  /-- CREDIT_REPORT, R247. -/
  | creditReport (eyelet : Nat) (item : List Byte)
  /-- DOWN_NOTICE, R253. -/
  | downNotice (eyelet : Nat) (item : List Byte)
  /-- IDLE, R237. -/
  | idle (eyelet : Nat) (item : List Byte)
  /-- GRACE_EXPIRY, R255. -/
  | graceExpiry (eyelet : Nat)
  /-- OFFER, R206. -/
  | offer (eyelet : Nat) (item : List Byte)
  /-- OFFER_PART, R251. -/
  | offerPart (eyelet : Nat) (item : List Byte)
  /-- READY, R209. -/
  | ready (eyelet : Nat) (item : List Byte)
  /-- START, R209. -/
  | start (eyelet : Nat) (item : List Byte)
  /-- ABORT, R211. -/
  | abort (eyelet : Nat) (item : List Byte)
  /-- SLIP, R213. -/
  | slip (eyelet : Nat) (item : List Byte)
  /-- SLIP_READY, R214. -/
  | slipReady (eyelet : Nat) (item : List Byte)
  /-- RESUME, R214. -/
  | resume (eyelet : Nat) (item : List Byte)
  /-- STOP, R216. -/
  | stop (eyelet : Nat) (item : List Byte)
  /-- PACE, R36. -/
  | pace (eyelet : Nat) (item : List Byte)
  /-- SERVICE_HEADER_ROUTE, R274. -/
  | serviceHeaderRoute (eyelet vc : Nat)
  /-- WRITE, R265. -/
  | write (eyelet vc : Nat)
  /-- READ, R266. -/
  | read (eyelet vc : Nat)
  /-- TACK_ADD, R265. -/
  | tackAdd (eyelet vc : Nat)
  /-- WRITE_DONE, R268. -/
  | writeDone (eyelet vc : Nat)
  /-- READ_DATA, R268. -/
  | readData (eyelet vc : Nat)
  /-- TACK_DONE, R268. -/
  | tackDone (eyelet vc : Nat)
  /-- COMPLETION_TIMEOUT, R269. -/
  | completionTimeout (txn : Nat)
  /-- FETCH_TIMEOUT, R315. -/
  | fetchTimeout (tack : Nat)
  /-- SLED_INSERTION, R413. -/
  | sledInsertion
  /-- PRESENCE_BREAK, R414. -/
  | presenceBreak
  /-- MAIN_LOST, R420. -/
  | mainLost (centivolts : Nat)
  /-- CELL_SAMPLE, R421. -/
  | cellSample (centivolts mainUs : Nat)
  /-- POWER_REMOVAL, R424. -/
  | powerRemoval (position : Nat) (reported : Bool)
  /-- SLED_RESTART, R422. -/
  | sledRestart
  /-- RAIL_GOOD, R415. -/
  | railGood (position : Nat)
  /-- RAIL_FAULT, R416. -/
  | railFault (position rail : Nat)
  /-- CELL_READY, R417. -/
  | cellReady
  /-- CELL_FULL, R417. -/
  | cellFull
  /-- CELL_INSERTED, R443. -/
  | cellInserted (centivolts : Nat)
  /-- CELL_CAPACITANCE_CHECK, R444. -/
  | cellCapacitanceCheck (millifarads : Nat)
  /-- COOLANT_CONDITION, R426. -/
  | coolantCondition (condition : Nat)
  /-- COOLANT_CONDITION_CLEAR, R426. -/
  | coolantConditionClear (condition : Nat)
  /-- COOLANT_UPDATE, R426. -/
  | coolantUpdate (inlet outlet : Int) (flow wet : Nat)
  /-- LEAK, R426. -/
  | leak (zone : Nat)
  /-- FW_ROLLBACK, R436. -/
  | fwRollback
  /-- EVENT_RESEND, R440. -/
  | eventResend (seq : Nat)
  /-- SLED_PRESENT, R440. -/
  | sledPresent
  /-- IDENTIFY, R440. -/
  | identify (src : Nat) (msg : List Byte)
  /-- SET_ADDRESS, R438. -/
  | setAddress (src : Nat) (msg : List Byte)
  /-- SET_COORD, R434. -/
  | setCoord (src : Nat) (msg : List Byte)
  /-- EYELET_CTRL, R434. -/
  | eyeletCtrl (src : Nat) (msg : List Byte)
  /-- SET_CAPS, R435. -/
  | setCaps (src : Nat) (msg : List Byte)
  /-- APBEL_HOLD, R340. -/
  | apbelHold (src : Nat) (msg : List Byte)
  /-- APBEL_RELEASE, R441. -/
  | apbelRelease (src : Nat) (msg : List Byte)
  /-- WAKE, R408. -/
  | wake (src : Nat) (msg : List Byte)
  /-- SENSORS, R438. -/
  | sensors (src : Nat) (msg : List Byte)
  /-- CHIP_POWER_ON, R415. -/
  | chipPowerOn (src : Nat) (msg : List Byte)
  /-- CHIP_POWER_OFF, R424. -/
  | chipPowerOff (src : Nat) (msg : List Byte)
  /-- SLED_POWER_ON, R441. -/
  | sledPowerOn (src : Nat) (msg : List Byte)
  /-- SLED_POWER_OFF, R424. -/
  | sledPowerOff (src : Nat) (msg : List Byte)
  /-- SWAP_PREPARE, R442. -/
  | swapPrepare (src : Nat) (msg : List Byte)
  /-- CELL_PREPARE, R443. -/
  | cellPrepare (src : Nat) (msg : List Byte)
  /-- CLEAR_LEAK, R427. -/
  | clearLeak (src : Nat) (msg : List Byte)
  /-- FW_WRITE, R436. -/
  | fwWrite (src : Nat) (msg : List Byte)
  /-- FW_ACTIVATE, R436. -/
  | fwActivate (src : Nat) (msg : List Byte)
  /-- APBEL_LOG_READ, R438. -/
  | apbelLogRead (src : Nat) (msg : List Byte)
  /-- EVENT_ACK, R440. -/
  | eventAck (src : Nat) (msg : List Byte)
  /-- CONFIGURE, R452. -/
  | configure (src : Nat) (msg : List Byte)
  /-- CAL_WRITE, R456. -/
  | calWrite (src : Nat) (msg : List Byte)
  /-- STREAM_START, R467. -/
  | streamStart (src : Nat) (msg : List Byte)
  /-- STREAM_STOP, R467. -/
  | streamStop (src : Nat) (msg : List Byte)
  /-- TEMPLATE_DATA, R464. -/
  | templateData (src : Nat) (msg : List Byte)
  /-- TEMPLATE_COMMIT, R464. -/
  | templateCommit (src : Nat) (msg : List Byte)
  /-- TEMPLATE_CLEAR, R467. -/
  | templateClear (src : Nat) (msg : List Byte)
  /-- ACOUSTIC_STATUS, R467. -/
  | acousticStatus (src : Nat) (msg : List Byte)
  /-- MONITOR_START, R458. -/
  | monitorStart
  /-- MONITOR_SETTLED, R458. -/
  | monitorSettled
  /-- ACOUSTIC_FRAME_BOUNDARY, R452. -/
  | acousticFrameBoundary (samples : List (List (Int × Bool)))
  /-- ENERGY_BLOCK, R460. -/
  | energyBlock (channel : Nat) (samples : List Int)
  /-- FEATURE_VECTOR, R463. -/
  | featureVector (vector : List Nat) (usable : Bool)
  /-- MIC_FAULT, R455. -/
  | micFault (channel : Nat)
  /-- MIC_RECOVERY, R455. -/
  | micRecovery (channel : Nat)
  /-- AUTO_ACTIVE_TIMEOUT, R458. -/
  | autoActiveTimeout
  /-- ENERGY_REARM_TIMEOUT, R461. -/
  | energyRearmTimeout (channel : Nat)
  /-- VALVE_QUIET_END, R463. -/
  | valveQuietEnd
  /-- UNIT_OPPORTUNITY, R188. -/
  | unitOpportunity (eyelet : Nat)
  /-- COBBLER_BOOT, R413. -/
  | cobblerBoot
  /-- FLOW_LEAK_CHECK_END, R442. -/
  | flowLeakCheckEnd (ok : Bool)
  /-- COBBLER_RESTART_COMPLETE, R437. -/
  | cobblerRestartComplete (healthy : Bool)
  /-- VAUX_33_LOST, R458. -/
  | vaux33Lost
  deriving DecidableEq, Repr

end Sys2Proof
end

