-- ==== Sys2Proof/Config.lean ====
section
/-! DEFINITION. What an implementation fixes and the spec leaves open, as constants without a body (log entry 11): no
proof can see their values. The first argument of a fresh value is the state's counter `freeCtr`. -/
namespace Sys2Proof.Config

/-- A fresh value: the Valiant intermediate (R275), the device state of a neighbour chip (Table 17.10), and so on. -/
opaque free : Nat → Nat → Nat
/-- Whether the cable of an eyelet is an active one (Table 10.1 class A): the spec gives the chip no rule to tell. -/
opaque activeCable : Nat → Bool
/-- Whether a Cobbler image carries a good signature (17 R436): the spec gives neither the key nor the image's layout. -/
opaque imageSigned : List Byte → Bool

/-- What an apply writes for an element that is present where its row's root reads as absent: the spec states the result
only where every element of the row is masked (4.7.1). -/
opaque noRoot : F32 → F32
/-- A row's softmax sum where elements are present and the row maximum it is given is absent (R94). -/
opaque noMax : List (Option F32) → F32

/-- The width code that the J12's Skive-L encoder uses where no request names one (R117), modulo 3. -/
opaque skiveWidth : Nat
/-- The DELTA that it uses there. -/
opaque skiveDelta : Bool

end Sys2Proof.Config
end

