-- ==== Sys2Proof/Machine/Flags.lean ====
section
/-! DEFINITION. The codes the block reports: completion statuses (15 Table 15.11) and BAD_STATE sub-codes (16 Table
16.6). The block has no arithmetic flags. -/
namespace Sys2Proof.Machine

def stDone : Nat := 0x00
def stBadDescriptor : Nat := 0x10
def stBadState : Nat := 0x11
def stBadAddress : Nat := 0x12
def stQuarantined : Nat := 0x13
def stLinkLost : Nat := 0x20
def stPartial : Nat := 0x21
def stFlushed : Nat := 0x22
def stAwlFault : Nat := 0x30
def stLongSum : Nat := 0x31
def stSolverCap : Nat := 0x40
def stSolverPivot : Nat := 0x41
def stPowerAbort : Nat := 0x50
def stHostDma : Nat := 0x60
def stInternal : Nat := 0x7F

end Sys2Proof.Machine
end

