-- ==== Sys2Proof/Machine/Bytes.lean ====
section
/-! DEFINITION. Byte order, bit fields and list helpers used by every other file of the machine.
Multi-byte quantities are little-endian unless their rule says otherwise (00 R4). -/
namespace Sys2Proof.Machine

/-- The least significant byte of a number. -/
def byteOf (n : Nat) : Byte := BitVec.ofNat 8 n

/-- `n` as `k` bytes, least significant first. -/
def leBytes : Nat → Nat → List Byte
  | 0, _ => []
  | k + 1, n => byteOf n :: leBytes k (n / 256)

/-- The number a little-endian byte list stands for. -/
def leNat : List Byte → Nat
  | [] => 0
  | b :: bs => b.toNat + 256 * leNat bs

/-- `n` as `k` bytes, most significant first. -/
def beBytes (k n : Nat) : List Byte := (leBytes k n).reverse

/-- The number a big-endian byte list stands for. -/
def beNat (bs : List Byte) : Nat := leNat bs.reverse

/-- `k` bytes of `bs` from offset `o`. -/
def slice (bs : List Byte) (o k : Nat) : List Byte := (bs.drop o).take k

/-- The little-endian number in `k` bytes at offset `o`. -/
def leAt (bs : List Byte) (o k : Nat) : Nat := leNat (slice bs o k)

/-- The byte at offset `o`, or 0 past the end. -/
def byteAt (bs : List Byte) (o : Nat) : Byte := bs.getD o 0

/-- Bits `lo + w - 1 : lo` of `n`. -/
def bitsOf (n lo w : Nat) : Nat := (n >>> lo) % 2 ^ w

/-- Bit `i` of `n`. -/
def bitOf (n i : Nat) : Bool := Nat.testBit n i

/-- `n` zero bytes. -/
def zeros (n : Nat) : List Byte := List.replicate n 0

/-- `bs` padded with zeros, or cut, to `n` bytes. -/
def padTo (n : Nat) (bs : List Byte) : List Byte := (bs ++ zeros (n - bs.length)).take n

/-- `bs` with `new` written over it from offset `o` (R56 without a mask: every byte given is written). -/
def overlay (bs : List Byte) (o : Nat) (new : List Byte) : List Byte :=
  padTo o bs ++ new ++ bs.drop (o + new.length)

/-- The two's complement value of the low `w` bits of `n`. -/
def signedOf (w n : Nat) : Int :=
  let m := n % 2 ^ w
  if 2 ^ w ≤ 2 * m then (m : Int) - (2 ^ w : Nat) else m

/-- An integer as a `w`-bit two's complement field. -/
def fieldOf (w : Nat) (i : Int) : Nat := (i % ((2 ^ w : Nat) : Int)).toNat

/-- `⌈a / b⌉`. -/
def ceilDiv (a b : Nat) : Nat := (a + b - 1) / b

/-- The number of bits of `n`: 0 for 0. -/
def bitLen (n : Nat) : Nat := if n = 0 then 0 else Nat.log2 n + 1

/-- A Boolean as a bit. -/
def bit01 (b : Bool) : Nat := if b then 1 else 0

/-- Split a list into groups of `k` elements; the last may be shorter. -/
def chunksAux {α : Type} (k : Nat) : Nat → List α → List (List α)
  | 0, _ => []
  | _ + 1, [] => []
  | fuel + 1, x :: xs => ((x :: xs).take k) :: chunksAux k fuel ((x :: xs).drop k)

/-- Groups of `k` elements of a list. -/
def chunks {α : Type} (k : Nat) (xs : List α) : List (List α) := chunksAux k xs.length xs

/-- The list with position `i` replaced; unchanged where `i` is past the end. -/
def setAt {α : Type} (xs : List α) (i : Nat) (x : α) : List α := xs.set i x

/-- The list with position `i` mapped by `f`; unchanged where `i` is past the end. -/
def mapAt {α : Type} (xs : List α) (i : Nat) (f : α → α) : List α := xs.modify i f

/-- The value kept under key `k` in an association list. -/
def assoc {α β : Type} [DecidableEq α] (k : α) : List (α × β) → Option β
  | [] => none
  | (a, b) :: rest => if a = k then some b else assoc k rest

/-- Put `v` under key `k`: replaces in place, else appends. -/
def assocSet {α β : Type} [DecidableEq α] (k : α) (v : β) : List (α × β) → List (α × β)
  | [] => [(k, v)]
  | (a, b) :: rest => if a = k then (k, v) :: rest else (a, b) :: assocSet k v rest

/-- Remove key `k`. -/
def assocErase {α β : Type} [DecidableEq α] (k : α) (xs : List (α × β)) : List (α × β) :=
  xs.filter (fun p => decide (p.1 ≠ k))

/-- The list without `x`, the rest in order. -/
def without {α : Type} [DecidableEq α] (x : α) (xs : List α) : List α := xs.filter (fun y => decide (y ≠ x))

/-- `x` added at the end unless it is there. -/
def insertOnce {α : Type} [DecidableEq α] (x : α) (xs : List α) : List α := if x ∈ xs then xs else xs ++ [x]

end Sys2Proof.Machine
end

