-- ==== Sys2Proof/Machine/Float.lean ====
section
/-! DEFINITION. FP32 arithmetic (R85, R80, R78, R83), the five primitives of R88, fmax32, the conversions of R96
and long-sum rounding (R77), each as a function of bit patterns. Every operation converts to exact integers, computes,
and rounds once, to nearest with ties to even. -/
namespace Sys2Proof.Machine

/-- A binary floating-point layout: `p` significand bits, `emin` the least normal exponent, `w` exponent bits. -/
structure FloatFmt where
  p : Nat
  emin : Int
  w : Nat
  deriving DecidableEq, Repr

def fmt32 : FloatFmt := ⟨24, -126, 8⟩
def fmt16 : FloatFmt := ⟨11, -14, 5⟩
def fmtBf16 : FloatFmt := ⟨8, -126, 8⟩
def fmtE4M3 : FloatFmt := ⟨4, -6, 4⟩
def fmtE5M2 : FloatFmt := ⟨3, -14, 5⟩

/-- A decoded value: ± m × 2^e exactly, an infinity, or a NaN. -/
inductive FVal where
  | num (neg : Bool) (m : Nat) (e : Int)
  | inf (neg : Bool)
  | nan
  deriving DecidableEq, Repr

/-- The integer nearest to (m + ε) × 2^(-sh), ties to even, where 0 < ε < 1 when `sticky`. -/
def roundShift (m : Nat) (sh : Int) (sticky : Bool) : Nat :=
  if sh ≤ 0 then m <<< sh.natAbs
  else
    let k := sh.natAbs
    let q := m >>> k
    let rem := m % 2 ^ k
    let half := 2 ^ (k - 1)
    if half < rem ∨ (rem = half ∧ (sticky ∨ q % 2 = 1)) then q + 1 else q

/-- The magnitude pattern nearest to (m + ε) × 2^e in a layout, before any overflow rule. -/
def roundMag (f : FloatFmt) (m : Nat) (e : Int) (sticky : Bool) : Nat :=
  if m = 0 then 0
  else
    let qmin : Int := f.emin - (f.p - 1 : Nat)
    let top : Int := (bitLen m : Int) - 1 + e
    let q := max (top - (f.p - 1 : Nat)) qmin
    (((q - qmin).toNat) <<< (f.p - 1)) + roundShift m (q - e) sticky

/-- The pattern of infinity, without its sign, in an IEEE layout. -/
def infMag (f : FloatFmt) : Nat := (2 ^ f.w - 1) <<< (f.p - 1)

/-- Round to an IEEE layout: overflow goes to infinity. -/
def roundIeee (f : FloatFmt) (neg : Bool) (m : Nat) (e : Int) (sticky : Bool) : Nat :=
  let r := roundMag f m e sticky
  (bit01 neg <<< (f.w + f.p - 1)) + (if infMag f ≤ r then infMag f else r)

/-- Decode an IEEE pattern. -/
def decodeIeee (f : FloatFmt) (x : Nat) : FVal :=
  let neg := bitOf x (f.w + f.p - 1)
  let ex := bitsOf x (f.p - 1) f.w
  let fr := x % 2 ^ (f.p - 1)
  if ex = 2 ^ f.w - 1 then (if fr = 0 then .inf neg else .nan)
  else if ex = 0 then .num neg fr (f.emin - (f.p - 1 : Nat))
  else .num neg (fr + 2 ^ (f.p - 1)) (f.emin - (f.p - 1 : Nat) + (ex - 1 : Nat))

/-- The canonical quiet NaN (R80). -/
def canonNaN : F32 := 0x7FC00000#32

def f32Val (x : F32) : FVal := decodeIeee fmt32 x.toNat
def f32Round (neg : Bool) (m : Nat) (e : Int) (sticky : Bool := false) : F32 :=
  BitVec.ofNat 32 (roundIeee fmt32 neg m e sticky)
def f32Inf (neg : Bool) : F32 := if neg then 0xFF800000#32 else 0x7F800000#32
def f32Zero (neg : Bool) : F32 := if neg then 0x80000000#32 else 0#32
def f32One (neg : Bool) : F32 := if neg then 0xBF800000#32 else 0x3F800000#32
def f32Half : F32 := 0x3F000000#32
def isNaN32 (x : F32) : Bool := decide (f32Val x = .nan)

/-- An exact signed sum of two values on a common exponent. -/
def alignInt (neg : Bool) (m : Nat) (e : Int) (lo : Int) : Int :=
  let v : Int := ((m <<< (e - lo).toNat : Nat) : Int)
  if neg then -v else v

/-- R85: FP32 addition. -/
def fadd32 (a b : F32) : F32 :=
  match f32Val a, f32Val b with
  | .nan, _ => canonNaN
  | _, .nan => canonNaN
  | .inf s, .inf t => if s = t then f32Inf s else canonNaN
  | .inf s, .num .. => f32Inf s
  | .num .., .inf t => f32Inf t
  | .num s m e, .num t n g =>
    let lo := min e g
    let sum := alignInt s m e lo + alignInt t n g lo
    if sum = 0 then f32Zero (s && t) else f32Round (decide (sum < 0)) sum.natAbs lo

/-- Negation of a pattern's sign bit. -/
def fneg32 (a : F32) : F32 := a ^^^ 0x80000000#32

/-- R85: FP32 subtraction. -/
def fsub32 (a b : F32) : F32 := if isNaN32 b then canonNaN else fadd32 a (fneg32 b)

/-- R85: FP32 multiplication. -/
def fmul32 (a b : F32) : F32 :=
  match f32Val a, f32Val b with
  | .nan, _ => canonNaN
  | _, .nan => canonNaN
  | .inf s, .inf t => f32Inf (s != t)
  | .inf s, .num t n _ => if n = 0 then canonNaN else f32Inf (s != t)
  | .num s m _, .inf t => if m = 0 then canonNaN else f32Inf (s != t)
  | .num s m e, .num t n g => if m * n = 0 then f32Zero (s != t) else f32Round (s != t) (m * n) (e + g)

/-- The exact order of two patterns that are not NaN: a ≥ b. -/
def fge32 (a b : F32) : Bool :=
  match f32Val a, f32Val b with
  | .nan, _ => false
  | _, .nan => false
  | .inf s, .inf t => !s || t
  | .inf s, .num .. => !s
  | .num .., .inf t => t
  | .num s m e, .num t n g =>
    let lo := min e g
    decide (alignInt t n g lo ≤ alignInt s m e lo)

/-- FP32 equality as numbers: both zeros are equal, a NaN equals nothing. -/
def feq32 (a b : F32) : Bool := fge32 a b && fge32 b a

def isZero32 (x : F32) : Bool := decide (x = 0#32) || decide (x = 0x80000000#32)

/-- 04, 4.2.2: fmax32. -/
def fmax32 (a b : F32) : F32 :=
  if isNaN32 a || isNaN32 b then canonNaN
  else if isZero32 a && isZero32 b then 0#32
  else if fge32 a b then a else b

/-- The minimum that mirrors fmax32 (used by the shank's clamp). -/
def fabs32 (a : F32) : F32 := a &&& 0x7FFFFFFF#32

/-- The integer square root, by bits from the top. -/
def isqrtAux : Nat → Nat → Nat → Nat
  | 0, _, r => r
  | k + 1, n, r =>
    let t := r + 2 ^ k
    isqrtAux k n (if t * t ≤ n then t else r)

def isqrt (n : Nat) : Nat := isqrtAux (bitLen n / 2 + 1) n 0

/-- R88: rsqrt_rn. The quotient and its root are exact integers with a sticky bit. -/
def rsqrtRn (x : F32) : F32 :=
  match f32Val x with
  | .nan => canonNaN
  | .inf s => if s then canonNaN else 0#32
  | .num s m e =>
    if m = 0 then f32Inf s
    else if s then canonNaN
    else
      let m' := if e % 2 = 0 then m else 2 * m
      let e' := if e % 2 = 0 then e else e - 1
      let r := isqrt (2 ^ 160 / m')
      f32Round false r (-80 - e' / 2) (decide (r * r * m' ≠ 2 ^ 160))

/-- R88: recip_rn. -/
def recipRn (x : F32) : F32 :=
  match f32Val x with
  | .nan => canonNaN
  | .inf s => f32Zero s
  | .num s m e =>
    if m = 0 then f32Inf s
    else f32Round s (2 ^ 100 / m) (-100 - e) (decide (2 ^ 100 % m ≠ 0))

/-- Fraction bits of the fixed-point arithmetic behind exp_rn, tanh_rn and sigm_rn (log entry 12). -/
def expFrac : Nat := 384

/-- The Taylor sum of e^y for a fixed-point y below 2^-4, `k` terms still to add. -/
def expSeries (y : Nat) : Nat → Nat → Nat → Nat → Nat
  | 0, _, _, acc => acc
  | k + 1, i, term, acc =>
    let t := (term * y) >>> expFrac
    let t := t / i
    expSeries y k (i + 1) t (acc + t)

/-- `k` squarings in fixed point. -/
def squareFix : Nat → Nat → Nat
  | 0, v => v
  | k + 1, v => squareFix k ((v * v) >>> expFrac)

/-- e^v in fixed point, for a fixed-point v from 0 to 128. -/
def expFix (v : Nat) : Nat :=
  squareFix 11 (expSeries (v >>> 11) 70 1 (2 ^ expFrac) (2 ^ expFrac))

/-- A magnitude m × 2^e in fixed point. -/
def toFix (m : Nat) (e : Int) : Nat :=
  let k := e + (expFrac : Nat)
  if 0 ≤ k then m <<< k.toNat else m >>> k.natAbs

/-- The quotient of two fixed-point numbers, rounded to FP32. -/
def fixQuot (neg : Bool) (a b : Nat) : F32 := f32Round neg ((a <<< expFrac) / b) (-(expFrac : Int)) true

/-- R88: exp_rn. -/
def expRn (x : F32) : F32 :=
  match f32Val x with
  | .nan => canonNaN
  | .inf s => if s then 0#32 else f32Inf false
  | .num s m e =>
    if m = 0 then f32One false
    else
      let v := toFix m e
      if (128 : Nat) <<< expFrac ≤ v then (if s then 0#32 else f32Inf false)
      else
        let E := expFix v
        if s then fixQuot false (2 ^ expFrac) E else f32Round false E (-(expFrac : Int)) true

/-- R88: tanh_rn. -/
def tanhRn (x : F32) : F32 :=
  match f32Val x with
  | .nan => canonNaN
  | .inf s => f32One s
  | .num s m e =>
    if m = 0 then f32Zero s
    else
      let v := toFix m e
      if (32 : Nat) <<< expFrac ≤ v then f32One s
      else
        let E := expFix (2 * v)
        fixQuot s (E - 2 ^ expFrac) (E + 2 ^ expFrac)

/-- R88: sigm_rn. -/
def sigmRn (x : F32) : F32 :=
  match f32Val x with
  | .nan => canonNaN
  | .inf s => if s then 0#32 else f32One false
  | .num s m e =>
    if m = 0 then f32Half
    else
      let v := toFix m e
      if (128 : Nat) <<< expFrac ≤ v then (if s then 0#32 else f32One false)
      else
        let E := expFix v
        if s then fixQuot false (2 ^ expFrac) (E + 2 ^ expFrac) else fixQuot false E (E + 2 ^ expFrac)

/-- R91: BF16 widened to FP32, bit for bit. -/
def widenBf16 (h : Half) : F32 := h ++ (0#16)

/-- R96: FP32 to BF16. -/
def toBf16 (x : F32) : Half :=
  match f32Val x with
  | .nan => 0x7FC0#16
  | .inf s => if s then 0xFF80#16 else 0x7F80#16
  | .num s m e => BitVec.ofNat 16 (roundIeee fmtBf16 s m e false)

/-- R96: FP32 to FP16. -/
def toFp16 (x : F32) : Half :=
  match f32Val x with
  | .nan => 0x7E00#16
  | .inf s => if s then 0xFC00#16 else 0x7C00#16
  | .num s m e => BitVec.ofNat 16 (roundIeee fmt16 s m e false)

/-- An OFP8 saturating conversion with greatest magnitude pattern `mx`; none is a domain failure (R96). -/
def toOfp8 (f : FloatFmt) (mx : Nat) (x : F32) : Option Byte :=
  match f32Val x with
  | .nan => none
  | .inf s => some (BitVec.ofNat 8 (bit01 s * 128 + mx))
  | .num s m e => some (BitVec.ofNat 8 (bit01 s * 128 + min mx (roundMag f m e false)))

def toE4M3 (x : F32) : Option Byte := toOfp8 fmtE4M3 0x7E x
def toE5M2 (x : F32) : Option Byte := toOfp8 fmtE5M2 0x7B x

/-- The integer nearest to the rational n / d, ties to even. -/
def roundDiv (n d : Nat) : Nat :=
  let q := n / d
  let r := n % d
  if d < 2 * r ∨ (2 * r = d ∧ q % 2 = 1) then q + 1 else q

/-- `round_even(v × 2^k)` clamped to −lo … hi, for a value that may be infinite (R96, R107). -/
def roundClamp (v : FVal) (k : Int) (lo hi : Nat) : Option Int :=
  match v with
  | .nan => none
  | .inf s => some (if s then -(lo : Int) else hi)
  | .num s m e =>
    let r := roundShift m (-(e + k)) false
    some (if s then -((min lo r : Nat) : Int) else (min hi r : Nat))

/-- R96: FP32 to INT8 with the last's shift t; none is a domain failure. -/
def toInt8 (t : Int) (x : F32) : Option Byte :=
  (roundClamp (f32Val x) (-t) 128 127).map (fun i => BitVec.ofInt 8 i)

/-- R77: round a long sum to FP32, once. -/
def roundLongSum (L : LongSum) : F32 :=
  if L = 0#128 then 0#32
  else f32Round L.msb L.toInt.natAbs (-64)

/-- R92 constants. -/
def geluC0 : F32 := 0x3F4C422A#32
def geluC1 : F32 := 0x3D372713#32

/-- R92: GELU-tanh. -/
def geluTanh (x : F32) : F32 :=
  let x2 := fmul32 x x
  let x3 := fmul32 x2 x
  let u := fmul32 geluC0 (fadd32 x (fmul32 geluC1 x3))
  fmul32 (fmul32 f32Half x) (fadd32 (f32One false) (tanhRn u))

/-- R92: SiLU. -/
def silu (x : F32) : F32 := fmul32 x (sigmRn x)

/-- R92: gated SiLU. -/
def siluGated (a b : F32) : F32 := fmul32 (silu a) b

/-- R92: squared ReLU. -/
def reluSq (x : F32) : F32 :=
  let r := fmax32 x 0#32
  fmul32 r r

/-- One node of a canonical tree: an absent child passes its sibling up (R78, R93). -/
def nodeWith (f : F32 → F32 → F32) : Option F32 → Option F32 → Option F32
  | none, r => r
  | l, none => l
  | some l, some r => some (f l r)

/-- One level of a canonical tree. -/
def treeLevel (f : F32 → F32 → F32) : List (Option F32) → List (Option F32)
  | l :: r :: rest => nodeWith f l r :: treeLevel f rest
  | [l] => [l]
  | [] => []

/-- The canonical tree over leaf positions, `k` levels (R78, R83, R93). -/
def canonTreeAux (f : F32 → F32 → F32) : Nat → List (Option F32) → Option F32
  | 0, v => (v.head?).join
  | k + 1, v => canonTreeAux f k (treeLevel f v)

/-- R78: the root of the canonical FP32 tree; a position past the end is an absent leaf. -/
def canonTree (v : List (Option F32)) : Option F32 := canonTreeAux fadd32 (bitLen (v.length - 1)) v

/-- R83: the canonical reduction tree over slice values. -/
def reduceSlices (v : List F32) : Option F32 := canonTree (v.map some)

/-- R94: the softmax max partial. -/
def maxPartial (v : List (Option F32)) : Option F32 :=
  v.foldl (fun acc x => nodeWith fmax32 acc x) none

/-- R93: the 8-byte form of a row partial or node. -/
def encodePartial (v : Option F32) : List Byte :=
  match v with
  | none => zeros 8
  | some x => leBytes 4 x.toNat ++ [1, 0, 0, 0]

/-- R93: the value an 8-byte partial holds. -/
def decodePartial (bs : List Byte) : Option F32 :=
  if bitOf (byteAt bs 4).toNat 0 then some (BitVec.ofNat 32 (leAt bs 0 4)) else none

/-- R94: RMSNorm partial of the present leaves. -/
def rmsPartial (v : List (Option F32)) : Option F32 := canonTree (v.map (fun o => o.map (fun x => fmul32 x x)))

/-- R94: softmax sum partial against the row maximum m. -/
def softmaxSumPartial (m : F32) (v : List (Option F32)) : Option F32 :=
  canonTree (v.map (fun o => o.map (fun x => expRn (fsub32 x m))))

/-- R95: RMSNorm apply for one element. -/
def rmsApply (S invN eps g x : F32) : F32 :=
  fmul32 (fmul32 x (rsqrtRn (fadd32 (fmul32 S invN) eps))) g

/-- R95: softmax normalise for one element; a masked element, or a row with no present element, gives +0.0 (4.7.1). With one
of the two roots alone the result is open (log entry 11). -/
def softmaxNormalise (m S : Option F32) (x : Option F32) : F32 :=
  match m, S, x with
  | some m, some S, some x => fmul32 (expRn (fsub32 x m)) (recipRn S)
  | _, _, none => 0#32
  | none, none, some _ => 0#32
  | _, _, some x => Config.noRoot x

end Sys2Proof.Machine
end

