-- ==== Sys2Proof/Machine/Shank.lean ====
section
/-! DEFINITION. The shank (14): the front stage (R344), the interior-point method (R346 to R349) bit for bit, problem and
result records (R351 to R354), template images (R345). Every value is formed by the FP32 operations of R85 and R88 in the
order the rules give (R343). -/
namespace Sys2Proof.Machine

abbrev Vec := List F32
abbrev Mat := List (List F32)

/-- A quadratic program (R342): the full symmetric Q. -/
structure QP where
  n : Nat
  m : Nat
  Q : Mat
  c : Vec
  G : Mat
  h : Vec
  deriving DecidableEq, Repr

/-- A bind entry of a template (Table 14.1). -/
structure Bind where
  target : Nat
  param : Nat
  row : Nat
  col : Nat
  coef : F32
  deriving DecidableEq, Repr

/-- A template held in a slot (R345). -/
structure Template where
  n : Nat
  m : Nat
  p : Nat
  data : Vec
  binds : List Bind
  deriving DecidableEq, Repr

def vget (v : Vec) (i : Nat) : F32 := v.getD i 0#32
def mget (M : Mat) (i j : Nat) : F32 := vget (M.getD i []) j

/-- R343: a sum starts from its first term and adds the rest in ascending order. -/
def fsum : Vec → F32
  | [] => 0#32
  | t :: ts => ts.foldl fadd32 t

def dotF (a b : Vec) : F32 := fsum (List.zipWith fmul32 a b)
def matVec (M : Mat) (v : Vec) : Vec := M.map (fun row => dotF row v)
def tMatVec (n : Nat) (G : Mat) (v : Vec) : Vec :=
  (List.range n).map (fun i => fsum (G.mapIdx (fun l row => fmul32 (vget row i) (vget v l))))
def vadd (a b : Vec) : Vec := List.zipWith fadd32 a b
def vsub (a b : Vec) : Vec := List.zipWith fsub32 a b
def fdiv (a b : F32) : F32 := fmul32 a (recipRn b)

/-- The largest magnitude; a NaN element makes it NaN, as fmax32 does. -/
def normInf (v : Vec) : F32 := v.foldl (fun acc x => fmax32 acc (fabs32 x)) 0#32

/-- FP32 order on numbers; false with a NaN. -/
def fle32 (a b : F32) : Bool := fge32 b a
def flt32 (a b : F32) : Bool := fge32 b a && !fge32 a b

def isFinite32 (x : F32) : Bool := match f32Val x with | .num .. => true | _ => false

/-- An integer as FP32, exactly for the sizes used here. -/
def natToF32 (n : Nat) : F32 := if n = 0 then 0#32 else f32Round false n 0

/-- 2^k for the constants of the rules. -/
def f32Pow2 (k : Int) : F32 := f32Round false 1 k

/-- The mode of R348. -/
inductive PivotMode where
  | nan | regularise
  deriving DecidableEq, Repr

/-- The factors: L by columns, D, and the pivots replaced (R348). -/
structure Factors where
  L : Mat
  D : Vec
  reg : Nat
  deriving DecidableEq, Repr

/-- L[i][k] with L kept by columns. -/
def lget (L : Mat) (i k : Nat) : F32 := mget L k i

/-- The running subtraction of R348 for entry (i, j) over the first j columns. -/
def ldlDot (L : Mat) (D : Vec) (i j : Nat) (start : F32) : F32 :=
  (List.range j).foldl (fun d k => fsub32 d (fmul32 (fmul32 (lget L i k) (lget L j k)) (vget D k))) start

/-- One column of ldlt(); none is a tiny pivot in NaN mode. -/
def ldlColumn (n : Nat) (K : Mat) (mode : PivotMode) (dmax : F32) (F : Factors) (j : Nat) : Option Factors :=
  let d := ldlDot F.L F.D j j (mget K j j)
  let tiny := isNaN32 d || fle32 d (fmul32 (f32Pow2 (-20)) dmax)
  let finish (d : F32) (reg : Nat) : Factors :=
    let col := (List.range n).map (fun i =>
      if i ≤ j then 0#32 else fdiv (ldlDot F.L F.D i j (mget K i j)) d)
    ⟨F.L ++ [col], F.D ++ [d], reg⟩
  if tiny then
    match mode with
    | .nan => none
    | .regularise => some (finish (fmul32 (f32Pow2 (-12)) dmax) (F.reg + 1))
  else some (finish d F.reg)

/-- R348: columns j, j + 1, … of ldlt(). -/
def ldlColumns (n : Nat) (K : Mat) (mode : PivotMode) (dmax : F32) : List Nat → Factors → Option Factors
  | [], F => some F
  | j :: js, F =>
    match ldlColumn n K mode dmax F j with
    | none => none
    | some F' => ldlColumns n K mode dmax js F'

/-- R348: ldlt(). -/
def ldlt (n : Nat) (K : Mat) (mode : PivotMode) : Option Factors :=
  let dm := normInf ((List.range n).map (fun j => mget K j j))
  let dmax := if isZero32 dm then f32One false else dm
  ldlColumns n K mode dmax (List.range n) ⟨[], [], 0⟩

/-- R347: forward substitution with L, element by element. -/
def forwardSub (L : Mat) (r : Vec) : Vec :=
  (r.mapIdx (fun i x => (i, x))).foldl (fun y p =>
    y ++ [(List.range p.1).foldl (fun t k => fsub32 t (fmul32 (lget L p.1 k) (vget y k))) p.2]) []

/-- R347: back substitution with the transpose, from the last element. `xs` holds elements i + 1, i + 2, …. -/
def backSub (L : Mat) (n : Nat) (v : Vec) : Vec :=
  (List.range n).foldl (fun xs d =>
    let i := n - 1 - d
    ((List.range (n - 1 - i)).foldl (fun t j => fsub32 t (fmul32 (lget L (i + 1 + j) i) (vget xs j))) (vget v i)) :: xs) []

/-- R347: ldl_solve. -/
def ldlSolve (n : Nat) (F : Factors) (r : Vec) : Vec :=
  backSub F.L n (List.zipWith fdiv (forwardSub F.L r) F.D)

/-- R347: up to `k` refinement steps. -/
def refineSteps (n : Nat) (F : Factors) (K : Mat) (r : Vec) : Nat → Vec → Vec
  | 0, y => y
  | k + 1, y =>
    let e := vsub r (matVec K y)
    if fle32 (normInf e) (fmul32 (f32Pow2 (-20)) (normInf r)) then y
    else refineSteps n F K r k (vadd y (ldlSolve n F e))

/-- R347: form_K. -/
def formK (p : QP) (w : Vec) : Mat :=
  let up (i j : Nat) : F32 :=
    (List.range p.m).foldl (fun t l => fadd32 t (fmul32 (fmul32 (mget p.G l i) (vget w l)) (mget p.G l j))) (mget p.Q i j)
  (List.range p.n).map (fun i => (List.range p.n).map (fun j => if i ≤ j then up i j else up j i))

/-- A Newton direction. -/
structure Direction where
  dx : Vec
  ds : Vec
  dz : Vec
  deriving DecidableEq, Repr

/-- R347: direction(). -/
def direction (p : QP) (F : Factors) (K : Mat) (s w rd rp rc : Vec) : Direction :=
  let t := List.zipWith fadd32 (List.zipWith fdiv rc s) (List.zipWith fmul32 w rp)
  let r := (vadd rd (tMatVec p.n p.G t)).map fneg32
  let dx := refineSteps p.n F K r 3 (ldlSolve p.n F r)
  let g := matVec p.G dx
  ⟨dx, (vadd rp g).map fneg32, List.zipWith fadd32 t (List.zipWith fmul32 w g)⟩

/-- R346: max_step over s then z. -/
def maxStep (s ds z dz : Vec) : F32 :=
  (List.zip (s ++ z) (ds ++ dz)).foldl (fun a v =>
    if flt32 v.2 0#32 then
      let q := fdiv (fneg32 v.1) v.2
      if flt32 q a then q else a
    else a) (f32One false)

/-- R346: v + a × dv. -/
def vstep (v dv : Vec) (a : F32) : Vec := List.zipWith (fun x d => fadd32 x (fmul32 a d)) v dv

/-- The tolerances of R349. -/
structure Tol where
  stat : F32
  feas : F32
  comp : F32
  deriving DecidableEq, Repr

/-- The iterate and the record of the last residual test. -/
structure Iterate where
  x : Vec
  s : Vec
  z : Vec
  k : Nat
  reg : Nat
  resStat : F32
  resFeas : F32
  mu : F32
  deriving DecidableEq, Repr

/-- Table 14.2. -/
inductive SolveEnd where
  | done | cap | pivot1 | pivot2
  deriving DecidableEq, Repr

def qpStart (p : QP) : Iterate :=
  ⟨List.replicate p.n 0#32, p.h.map (fun v => if fge32 v (f32One false) then v else f32One false),
   List.replicate p.m (f32One false), 0, 0, 0#32, 0#32, 0#32⟩

def resD (p : QP) (t : Iterate) : Vec := vadd (vadd (matVec p.Q t.x) p.c) (tMatVec p.n p.G t.z)
def resP (p : QP) (t : Iterate) : Vec := vsub (vadd (matVec p.G t.x) t.s) p.h
def gapMu (p : QP) (t : Iterate) : F32 := fmul32 (dotF t.s t.z) (recipRn (natToF32 p.m))

/-- R349: the residual test. -/
def converged (p : QP) (tol : Tol) (t : Iterate) : Bool :=
  fle32 (normInf (resD p t)) (fmul32 tol.stat (fadd32 (f32One false) (normInf p.c))) &&
  fle32 (normInf (resP p t)) (fmul32 tol.feas (fadd32 (f32One false) (normInf p.h))) &&
  fle32 (gapMu p t) tol.comp

/-- R346: the body of one iteration after a test that failed. Where it ends the problem, the pivots replaced in it are counted
(R348). -/
def qpIterate (p : QP) (mode : PivotMode) (t : Iterate) : Except (SolveEnd × Nat) Iterate :=
  let rd := resD p t
  let rp := resP p t
  let mu := gapMu p t
  let rm := recipRn (natToF32 p.m)
  let w := List.zipWith fdiv t.z t.s
  let K := formK p w
  match ldlt p.n K mode with
  | none => .error (.pivot1, 0)
  | some F =>
    let rc := (List.zipWith fmul32 t.s t.z).map fneg32
    let d := direction p F K t.s w rd rp rc
    let aa := maxStep t.s d.ds t.z d.dz
    let mua := fmul32 (dotF (vstep t.s d.ds aa) (vstep t.z d.dz aa)) rm
    let q := fdiv mua mu
    let sig := fmul32 (fmul32 q q) q
    let rc2 := List.zipWith (fun r dd => fadd32 (fsub32 r dd) (fmul32 sig mu)) rc (List.zipWith fmul32 d.ds d.dz)
    let e := direction p F K t.s w rd rp rc2
    let a := fmul32 0x3F7D70A4#32 (maxStep t.s e.ds t.z e.dz)
    let t' : Iterate := ⟨vstep t.x e.dx a, vstep t.s e.ds a, vstep t.z e.dz a, t.k + 1, t.reg + F.reg,
      t.resStat, t.resFeas, t.mu⟩
    if (t'.x ++ t'.s ++ t'.z).all isFinite32 then .ok t' else .error (.pivot2, F.reg)

/-- R346: solve() with `fuel` iterations left; the iterate carries the last test's residuals. -/
def qpLoop (p : QP) (mode : PivotMode) (tol : Tol) : Nat → Iterate → SolveEnd × Iterate
  | fuel, t0 =>
    let t : Iterate := { t0 with resStat := normInf (resD p t0), resFeas := normInf (resP p t0), mu := gapMu p t0 }
    if converged p tol t then (.done, t)
    else
      match fuel with
      | 0 => (.cap, t)
      | k + 1 =>
        match qpIterate p mode t with
        | .error (e, n) => (e, { t with reg := t.reg + n })
        | .ok t' => qpLoop p mode tol k t'

/-- R346: solve(). -/
def qpSolve (p : QP) (mode : PivotMode) (tol : Tol) : SolveEnd × Iterate := qpLoop p mode tol 24 (qpStart p)

/-- Split a flat data block into the parts of a problem: Q's upper triangle by rows, c, G, h (Table 14.4). -/
def triIndex (n i j : Nat) : Nat := i * n - i * (i - 1) / 2 + (j - i)
def qpOfData (n m : Nat) (d : Vec) : QP :=
  let tri := n * (n + 1) / 2
  ⟨n, m, (List.range n).map (fun i => (List.range n).map (fun j => vget d (if i ≤ j then triIndex n i j else triIndex n j i))),
   (d.drop tri).take n, (List.range m).map (fun i => (d.drop (tri + n + i * n)).take n), (d.drop (tri + n + m * n)).take m⟩

def dataWords (n m : Nat) : Nat := n * (n + 1) / 2 + n + m * n + m

/-- The place of a bind's element in the data block. -/
def bindIndex (n m : Nat) (b : Bind) : Nat :=
  let tri := n * (n + 1) / 2
  match b.target with
  | 0 => triIndex n b.row b.col
  | 1 => tri + b.row
  | 2 => tri + n + b.row * n + b.col
  | _ => tri + n + m * n + b.row

/-- R344: the front stage on the data block. -/
def applyBinds (t : Template) (theta : Vec) : Vec :=
  t.binds.foldl (fun d b => mapAt d (bindIndex t.n t.m b) (fun x => fadd32 x (fmul32 b.coef (vget theta b.param)))) t.data

/-- `k` FP32 values from bytes. -/
def f32List (bs : List Byte) (k : Nat) : Vec := (List.range k).map (fun i => BitVec.ofNat 32 (leAt bs (4 * i) 4))

/-- Does a range of bytes hold only zeros? -/
def zeroRange (bs : List Byte) (o k : Nat) : Bool := (slice bs o k).all (fun b => decide (b = 0#8))

/-- A bind entry's limits (Table 14.1). -/
def bindLegal (n m p : Nat) (b : Bind) : Bool :=
  decide (b.param < p) && isFinite32 b.coef &&
  (match b.target with
   | 0 => decide (b.row ≤ b.col ∧ b.col < n)
   | 1 => decide (b.row < n ∧ b.col = 0)
   | 2 => decide (b.row < m ∧ b.col < n)
   | 3 => decide (b.row < m ∧ b.col = 0)
   | _ => false)

/-- R345: a template image; none breaks Table 14.1. -/
def parseTemplate (bs : List Byte) : Option Template :=
  let n := (byteAt bs 4).toNat
  let m := (byteAt bs 5).toNat
  let p := (byteAt bs 6).toNat
  let k := leAt bs 8 2
  let words := dataWords n m
  let dataLen := ceilDiv (4 * words) 64 * 64
  let data := f32List (bs.drop 64) words
  let binds := (List.range k).map (fun i =>
    let o := 64 + dataLen + 8 * i
    (⟨(byteAt bs o).toNat, (byteAt bs (o + 1)).toNat, (byteAt bs (o + 2)).toNat, (byteAt bs (o + 3)).toNat,
      BitVec.ofNat 32 (leAt bs (o + 4) 4)⟩ : Bind))
  if leAt bs 0 4 = 0x4B4E4853 ∧ 1 ≤ n ∧ n ≤ 32 ∧ 1 ≤ m ∧ m ≤ 64 ∧ 1 ≤ p ∧ p ≤ 64 ∧ byteAt bs 7 = 0#8 ∧ k ≤ 512 ∧
      zeroRange bs 10 54 = true ∧ bs.length = 64 + dataLen + 8 * k ∧ data.all isFinite32 = true ∧
      zeroRange bs (64 + 4 * words) (dataLen - 4 * words) = true ∧ binds.all (bindLegal n m p) = true
  then some ⟨n, m, p, data, binds⟩ else none

/-- A problem read from its record, or the sub-code of R353. -/
def parseProblem (slots : List (Option Template)) (bs : List Byte) : Except Nat QP :=
  let n := (byteAt bs 4).toNat
  let m := (byteAt bs 5).toNat
  let form := bitsOf (byteAt bs 6).toNat 0 1
  let slot := (byteAt bs 7).toNat % 16
  let p := (byteAt bs 8).toNat
  let words := if form = 0 then dataWords n m else p
  let len := ceilDiv (64 + 4 * words) 64 * 64
  if n < 1 ∨ 32 < n ∨ m < 1 ∨ 64 < m ∨ 2 ≤ (byteAt bs 6).toNat ∨ 16 ≤ (byteAt bs 7).toNat ∨
      zeroRange bs 9 7 = false ∨ zeroRange bs 20 44 = false ∨ (form = 0 ∧ (p ≠ 0 ∨ slot ≠ 0)) ∨
      (form = 1 ∧ (p < 1 ∨ 64 < p)) then .error 0x29
  else if leAt bs 0 4 ≠ len then .error 0x2C
  else
    let vals := f32List (bs.drop 64) words
    if form = 0 then
      if vals.all isFinite32 then .ok (qpOfData n m vals) else .error 0x2A
    else
      match slots.getD slot none with
      | none => .error 0x2B
      | some t =>
        if t.n ≠ n ∨ t.m ≠ m ∨ t.p ≠ p then .error 0x2B
        else
          let d := applyBinds t vals
          if vals.all isFinite32 && d.all isFinite32 then .ok (qpOfData n m d) else .error 0x2A

/-- R352: the bytes of a result record. -/
def resultRecord (status sub reg iter regCount index tag : Nat) (obj rs rf mu : F32) (x z : Vec) : List Byte :=
  [byteOf status, byteOf sub, byteOf reg, byteOf iter] ++ leBytes 2 (min regCount 0xFFFF) ++ leBytes 2 index ++
  leBytes 4 tag ++ leBytes 4 obj.toNat ++ leBytes 4 rs.toNat ++ leBytes 4 rf.toNat ++ leBytes 4 mu.toNat ++ zeros 36 ++
  padTo 128 (x.flatMap (fun v => leBytes 4 v.toNat)) ++ padTo 256 (z.flatMap (fun v => leBytes 4 v.toNat)) ++ zeros 64

/-- The objective of Table 14.5. -/
def objective (p : QP) (x : Vec) : F32 := fadd32 (fmul32 f32Half (dotF x (matVec p.Q x))) (dotF p.c x)

/-- The result record of a problem that was read: status codes of Table 15.11 as arguments' names there. -/
def solveRecord (done cap pivot : Nat) (p : QP) (mode : PivotMode) (tol : Tol) (index tag : Nat) : List Byte :=
  let r := qpSolve p mode tol
  let t := r.2
  let reg := if t.reg = 0 then 0 else 1
  let nans (k : Nat) : Vec := List.replicate k canonNaN
  match r.1 with
  | .done => resultRecord done 0 reg t.k t.reg index tag (objective p t.x) t.resStat t.resFeas t.mu t.x t.z
  | .cap => resultRecord cap 0 reg 24 t.reg index tag (objective p t.x) t.resStat t.resFeas t.mu t.x t.z
  | .pivot1 => resultRecord pivot 1 reg t.k t.reg index tag canonNaN t.resStat t.resFeas t.mu (nans p.n) (nans p.m)
  | .pivot2 => resultRecord pivot 2 reg t.k t.reg index tag canonNaN t.resStat t.resFeas t.mu (nans p.n) (nans p.m)

/-- A result record that carries only a status (Table 14.2). -/
def emptyRecord (status sub index tag : Nat) : List Byte :=
  resultRecord status sub 0 0 0 index tag 0#32 0#32 0#32 0#32 [] []

end Sys2Proof.Machine
end

