-- ==== Sys2Proof/Types/Heel.lean ====
section
/-! DEFINITION. The heel (13) and the shank's batches (14). -/
namespace Sys2Proof.Machine

/-- A host order or Cobbler cap that waits for the next governor period (R328). -/
inductive Order where
  | powerW (v : Nat) | thermal (v : Nat) | prefillRun (v : Nat) | paceMax (v : Nat)
  | powerCap (v : Nat) | paceCap (v : Nat)
  deriving DecidableEq, Repr

/-- One mailbox entry as the leader has followed it (R332): the last value read, periods since it changed, written. -/
structure MailSeen where
  entry : Nat
  age : Nat
  written : Bool
  deriving DecidableEq, Repr

/-- The heel. Flow is in 0.01 L/min and inlet in 0.1 C (R319); temperatures in 0.25 C. -/
structure Heel where
  periods : Nat
  rails : List Nat
  proposal : Nat
  grant : Nat
  fallback : Bool
  throttle : Bool
  coolPeriods : Nat
  powerW : Nat
  thermal : Nat
  prefillRun : Nat
  paceMax : Nat
  powerCap : Nat
  paceCap : Nat
  orders : List (Nat × Order)
  inlet : Int
  flow : Nat
  stale : Bool
  mail : List MailSeen
  jobGrant : Nat
  jobCap : Nat
  cMins : List Nat
  paceWish : Option Nat
  deriving DecidableEq, Repr

/-- The host SOLVE batch in progress (14 R350 to R355): the problem records still to be solved, the next problem's number,
and whether the next record can no longer be found (R353). -/
structure Batch where
  ring : Nat
  slot : Nat
  resultAddr : Nat
  count : Nat
  mode : PivotMode
  tol : Tol
  left : List Byte
  next : Nat
  lost : Bool
  deriving DecidableEq, Repr

/-- The shank's slots and batches. -/
structure ShankState where
  slots : List (Option Template)
  loading : List (Nat × Template × Nat × Nat)
  batch : Option Batch
  rotation : Nat
  deriving DecidableEq, Repr

end Sys2Proof.Machine
end

