-- ==== Sys2Proof/Types/Host.lean ====
section
/-! DEFINITION. What the host interface of a chip holds (15, 20): rings, positions, vectors, set-up registers, logs, and
the model's own record of what left the chip towards the host (log entry 4). -/
namespace Sys2Proof.Machine

/-- What leaves the chip over PCIe (R358, R359): reads issued, writes, messages, register read data. `undef` marks
host bytes that the spec leaves undefined (R376, R387): it names the range and no contents. -/
inductive HostOut where
  | read (addr len : Nat)
  | write (addr : Nat) (bytes : List Byte)
  | undef (addr len : Nat)
  | msix (vector : Nat)
  | pme
  | readData (offset : Nat) (bytes : List Byte)
  deriving DecidableEq, Repr

/-- A descriptor that has been read and has not ended (R365, R366). `phase` is 0 while it waits on its tack (R383), 1 once
the wait has ended, 2 once it has started; `signal` is the tack of its SIGNAL. -/
structure Outst where
  slot : Nat
  opcode : Nat
  tag : Nat
  irq : Bool
  signal : Option Nat
  phase : Nat
  deriving DecidableEq, Repr

/-- A completion entry without its PHASE, and the marks that go with its writing (R378, R379, R385). `answers` is false
for the RING_QUARANTINED completion, which answers no descriptor (R388). -/
structure Cpl where
  status : Nat
  sub : Nat
  final : Bool
  flags : Nat
  opcode : Nat
  index : Nat
  tag : Nat
  result : List Byte
  irq : Bool
  answers : Bool
  signal : Option Nat
  deriving DecidableEq, Repr

/-- The running part of one ring (15.4, R364 to R366, R379, R380, R388). `c g` is the read position, `w gw` the write
position, `q gq` the CQ_CONS pair last judged, `reading` the slots whose descriptor read is outstanding, `running` the
descriptors read and not ended, `held` the completions that wait for space, `captured` a pending RING_APPLY capture. -/
structure Ring where
  c : Nat
  g : Nat
  w : Nat
  gw : Nat
  q : Nat
  gq : Nat
  started : Bool
  reading : List Nat
  running : List Outst
  held : List Cpl
  qcause : Nat
  drops : Nat
  firstDrop : Nat
  overrun : Bool
  captured : Option (List Word)
  applyErr : Bool
  applyCause : Nat
  deriving DecidableEq, Repr

/-- One MSI-X vector (R385): its table entry's address and data, its mask bit, its pending bit, the entries pending and when the first was written. -/
structure Vector where
  addr : Nat
  data : Nat
  masked : Bool
  pba : Bool
  count : Nat
  since : Nat
  urgent : Bool
  deriving DecidableEq, Repr

/-- The status register of a staged block (R492). -/
structure BlockStatus where
  err : Bool
  cause : Nat
  deriving DecidableEq, Repr

/-- The set-up registers of BAR0 with state of their own (20). Staged copies keep every bit written, reserved bits
included, since the checks are made at the capture (R494). -/
structure Regs where
  modStaged : List Half
  modActive : List Half
  modStatus : BlockStatus
  dbBase : Nat
  dbCtl : Word
  dbActiveBase : Nat
  dbActiveCtl : Word
  dbCaptured : Option (Nat × Word)
  dbStatus : BlockStatus
  ringStaged : List Word
  ringActive : List Word
  ringSel : Nat
  paceStaged : Nat
  paceActive : Nat
  paceStatus : BlockStatus
  marginStaged : Word
  marginActive : Word
  marginCaptured : Option Word
  marginStatus : BlockStatus
  complTimeout : Nat
  graceMs : List Nat
  debugLock : Bool
  policyLock : Bool
  requireSigned : Bool
  latched : List (Nat × Nat)
  congSnap : Option (List Byte)
  recentSnap : List (Nat × List Byte)
  deriving DecidableEq, Repr

/-- One event of the event log: code, SEQ, WS and the payload of 48 or, for a fault record, 96 bytes (Table 15.9). -/
structure Event where
  code : Nat
  seq : Nat
  ws : Nat
  payload : List Byte
  deriving DecidableEq, Repr

/-- A rate-limited record (R387, R256): its key, when it was last written, occurrences since. -/
structure Rate where
  key : Nat × Nat
  last : Nat
  count : Nat
  deriving DecidableEq, Repr

/-- Everything else the host interface of the chip holds. -/
structure HostIf where
  busMaster : Bool
  d3hot : Bool
  pmeEn : Bool
  pmeStatus : Bool
  dbOutstanding : Bool
  dbDue : Bool
  rings : List Ring
  vectors : List Vector
  heldWrites : List HostOut
  out : List HostOut
  rates : List Rate
  nextSeq : Nat
  eventLog : List Event
  faultLog : List (List Byte)
  faultIndex : Nat
  lastFault : List Byte
  faultTotal : Nat
  recent : List (List Byte)
  recentHead : Nat
  deriving DecidableEq, Repr

end Sys2Proof.Machine
end

