-- ==== Sys2Proof/Machine/Crypto.lean ====
section
/-! DEFINITION. The published algorithms of Table 0.5 that the J12's data goes through: CRC-32C (RFC 3720 B.4),
SHA-256 and SHA-384 (FIPS 180-4), ECDSA over P-384 (FIPS 186-5), Philox4x32-10, and from them the weight tree (R178),
the stamp (R181), the draw (R172) and the sampler (R173). -/
namespace Sys2Proof.Machine

/-- One byte of a reflected CRC, `k` bits still to go. -/
def crcBits : Nat → Nat → Nat
  | 0, c => c
  | k + 1, c => crcBits k (if c % 2 = 1 then (c / 2) ^^^ 0x82F63B78 else c / 2)

/-- CRC-32C (Table 0.5): polynomial 0x1EDC6F41 reflected, initial value and final XOR all ones. -/
def crc32c (bs : List Byte) : Nat :=
  (bs.foldl (fun c b => crcBits 8 (c ^^^ b.toNat)) 0xFFFFFFFF) ^^^ 0xFFFFFFFF

/-- FIPS 180-4 constants. -/
def sha256K : List Nat := [
0x428A2F98, 0x71374491, 0xB5C0FBCF, 0xE9B5DBA5, 0x3956C25B, 0x59F111F1, 0x923F82A4, 0xAB1C5ED5,
  0xD807AA98, 0x12835B01, 0x243185BE, 0x550C7DC3, 0x72BE5D74, 0x80DEB1FE, 0x9BDC06A7, 0xC19BF174,
  0xE49B69C1, 0xEFBE4786, 0x0FC19DC6, 0x240CA1CC, 0x2DE92C6F, 0x4A7484AA, 0x5CB0A9DC, 0x76F988DA,
  0x983E5152, 0xA831C66D, 0xB00327C8, 0xBF597FC7, 0xC6E00BF3, 0xD5A79147, 0x06CA6351, 0x14292967] ++ [
0x27B70A85, 0x2E1B2138, 0x4D2C6DFC, 0x53380D13, 0x650A7354, 0x766A0ABB, 0x81C2C92E, 0x92722C85,
  0xA2BFE8A1, 0xA81A664B, 0xC24B8B70, 0xC76C51A3, 0xD192E819, 0xD6990624, 0xF40E3585, 0x106AA070,
  0x19A4C116, 0x1E376C08, 0x2748774C, 0x34B0BCB5, 0x391C0CB3, 0x4ED8AA4A, 0x5B9CCA4F, 0x682E6FF3,
  0x748F82EE, 0x78A5636F, 0x84C87814, 0x8CC70208, 0x90BEFFFA, 0xA4506CEB, 0xBEF9A3F7, 0xC67178F2]

def sha512K : List Nat := [
0x428A2F98D728AE22, 0x7137449123EF65CD, 0xB5C0FBCFEC4D3B2F, 0xE9B5DBA58189DBBC,
  0x3956C25BF348B538, 0x59F111F1B605D019, 0x923F82A4AF194F9B, 0xAB1C5ED5DA6D8118,
  0xD807AA98A3030242, 0x12835B0145706FBE, 0x243185BE4EE4B28C, 0x550C7DC3D5FFB4E2,
  0x72BE5D74F27B896F, 0x80DEB1FE3B1696B1, 0x9BDC06A725C71235, 0xC19BF174CF692694,
  0xE49B69C19EF14AD2, 0xEFBE4786384F25E3, 0x0FC19DC68B8CD5B5, 0x240CA1CC77AC9C65,
  0x2DE92C6F592B0275, 0x4A7484AA6EA6E483, 0x5CB0A9DCBD41FBD4, 0x76F988DA831153B5,
  0x983E5152EE66DFAB, 0xA831C66D2DB43210, 0xB00327C898FB213F, 0xBF597FC7BEEF0EE4,
  0xC6E00BF33DA88FC2, 0xD5A79147930AA725, 0x06CA6351E003826F, 0x142929670A0E6E70,
  0x27B70A8546D22FFC, 0x2E1B21385C26C926, 0x4D2C6DFC5AC42AED, 0x53380D139D95B3DF,
  0x650A73548BAF63DE, 0x766A0ABB3C77B2A8, 0x81C2C92E47EDAEE6, 0x92722C851482353B] ++ [
0xA2BFE8A14CF10364, 0xA81A664BBC423001, 0xC24B8B70D0F89791, 0xC76C51A30654BE30,
  0xD192E819D6EF5218, 0xD69906245565A910, 0xF40E35855771202A, 0x106AA07032BBD1B8,
  0x19A4C116B8D2D0C8, 0x1E376C085141AB53, 0x2748774CDF8EEB99, 0x34B0BCB5E19B48A8,
  0x391C0CB3C5C95A63, 0x4ED8AA4AE3418ACB, 0x5B9CCA4F7763E373, 0x682E6FF3D6B2B8A3,
  0x748F82EE5DEFB2FC, 0x78A5636F43172F60, 0x84C87814A1F0AB72, 0x8CC702081A6439EC,
  0x90BEFFFA23631E28, 0xA4506CEBDE82BDE9, 0xBEF9A3F7B2C67915, 0xC67178F2E372532B,
  0xCA273ECEEA26619C, 0xD186B8C721C0C207, 0xEADA7DD6CDE0EB1E, 0xF57D4F7FEE6ED178,
  0x06F067AA72176FBA, 0x0A637DC5A2C898A6, 0x113F9804BEF90DAE, 0x1B710B35131C471B,
  0x28DB77F523047D84, 0x32CAAB7B40C72493, 0x3C9EBE0A15C9BEBC, 0x431D67C49C100D4C,
  0x4CC5D4BECB3E42B6, 0x597F299CFC657E2A, 0x5FCB6FAB3AD6FAEC, 0x6C44198C4A475817]

def sha256Init : List Nat := [
0x6A09E667, 0xBB67AE85, 0x3C6EF372, 0xA54FF53A, 0x510E527F, 0x9B05688C, 0x1F83D9AB, 0x5BE0CD19]

def sha384Init : List Nat := [
0xCBBB9D5DC1059ED8, 0x629A292A367CD507, 0x9159015A3070DD17, 0x152FECD8F70E5939,
  0x67332667FFC00B31, 0x8EB44A8768581511, 0xDB0C2E0D64F98FA7, 0x47B5481DBEFA4FA4]

/-- The parameters of the 64-bit hash: word bits, big and small sigma amounts, constants. -/
structure ShaParams where
  w : Nat
  S0 : Nat × Nat × Nat
  S1 : Nat × Nat × Nat
  s0 : Nat × Nat × Nat
  s1 : Nat × Nat × Nat
  K : List Nat
  deriving DecidableEq, Repr

def sha512P : ShaParams := ⟨64, (28, 34, 39), (14, 18, 41), (1, 8, 7), (19, 61, 6), sha512K⟩

/-- Rotate right in w bits. -/
def rotr (w n x : Nat) : Nat := (x >>> n) ||| ((x <<< (w - n)) % 2 ^ w)

def bigSigma (w : Nat) (t : Nat × Nat × Nat) (x : Nat) : Nat := rotr w t.1 x ^^^ rotr w t.2.1 x ^^^ rotr w t.2.2 x
def smallSigma (w : Nat) (t : Nat × Nat × Nat) (x : Nat) : Nat := rotr w t.1 x ^^^ rotr w t.2.1 x ^^^ (x >>> t.2.2)

/-- The eight working variables. -/
structure ShaVars where
  a : Nat
  b : Nat
  c : Nat
  d : Nat
  e : Nat
  f : Nat
  g : Nat
  h : Nat
  deriving DecidableEq, Repr

/-- The rounds of one block over the constants; `win` holds the next sixteen schedule words. -/
def shaRounds (P : ShaParams) : List Nat → List Nat → ShaVars → ShaVars
  | [], _, v => v
  | k :: ks, win, v =>
    let m := 2 ^ P.w
    let w0 := win.getD 0 0
    let t1 := (v.h + bigSigma P.w P.S1 v.e + ((v.e &&& v.f) ^^^ ((m - 1 - v.e) &&& v.g)) + k + w0) % m
    let t2 := (bigSigma P.w P.S0 v.a + ((v.a &&& v.b) ^^^ (v.a &&& v.c) ^^^ (v.b &&& v.c))) % m
    let nw := (smallSigma P.w P.s1 (win.getD 14 0) + win.getD 9 0 + smallSigma P.w P.s0 (win.getD 1 0) + w0) % m
    shaRounds P ks (win.drop 1 ++ [nw]) ⟨(t1 + t2) % m, v.a, v.b, v.c, (v.d + t1) % m, v.e, v.f, v.g⟩

/-- One block. -/
def shaBlock (P : ShaParams) (st : List Nat) (block : List Byte) : List Nat :=
  let win := (chunks (P.w / 8) block).map beNat
  let g := fun i => st.getD i 0
  let v := shaRounds P P.K win ⟨g 0, g 1, g 2, g 3, g 4, g 5, g 6, g 7⟩
  let m := 2 ^ P.w
  [(g 0 + v.a) % m, (g 1 + v.b) % m, (g 2 + v.c) % m, (g 3 + v.d) % m,
   (g 4 + v.e) % m, (g 5 + v.f) % m, (g 6 + v.g) % m, (g 7 + v.h) % m]

/-- The padded message, for a hash of w-bit words. -/
def shaPad (w : Nat) (bs : List Byte) : List Byte :=
  let blk := 2 * w
  let lenBytes := w / 4
  let used := (bs.length + 1 + lenBytes) % blk
  bs ++ [0x80#8] ++ zeros ((blk - used) % blk) ++ beBytes lenBytes (8 * bs.length)

/-- The hash as words. -/
def shaWords (P : ShaParams) (init : List Nat) (bs : List Byte) : List Nat :=
  (chunks (2 * P.w) (shaPad P.w bs)).foldl (shaBlock P) init

/-- SHA-256 sigma functions; `x` is a 32-bit word, doubled so that a shift is a rotation. -/
def rot32 (n x : Nat) : Nat := (x * 0x100000001) >>> n % 0x100000000
def bigS0 (x : Nat) : Nat := rot32 2 x ^^^ rot32 13 x ^^^ rot32 22 x
def bigS1 (x : Nat) : Nat := rot32 6 x ^^^ rot32 11 x ^^^ rot32 25 x
def smallS0 (x : Nat) : Nat := rot32 7 x ^^^ rot32 18 x ^^^ (x >>> 3)
def smallS1 (x : Nat) : Nat := rot32 17 x ^^^ rot32 19 x ^^^ (x >>> 10)

/-- The message schedule: `n` words beyond the sixteen of the window. -/
def sha256Sched : Nat → List Nat → List Nat
  | n + 1, w0 :: w1 :: w2 :: w3 :: w4 :: w5 :: w6 :: w7 :: w8 :: w9 :: w10 :: w11 :: w12 :: w13 :: w14 :: w15 :: _ =>
    w0 :: sha256Sched n [w1, w2, w3, w4, w5, w6, w7, w8, w9, w10, w11, w12, w13, w14, w15,
      (smallS1 w14 + w9 + smallS0 w1 + w0) % 0x100000000]
  | _, win => win

/-- The rounds over constants and schedule words. -/
def sha256Rounds : List Nat → List Nat → Nat → Nat → Nat → Nat → Nat → Nat → Nat → Nat → List Nat
  | k :: ks, w :: ws, a, b, c, d, e, f, g, h =>
    let t1 := h + bigS1 e + ((e &&& f) ^^^ ((0xFFFFFFFF - e) &&& g)) + k + w
    sha256Rounds ks ws ((t1 + bigS0 a + ((a &&& b) ^^^ (a &&& c) ^^^ (b &&& c))) % 0x100000000) a b c
      ((d + t1) % 0x100000000) e f g
  | _, _, a, b, c, d, e, f, g, h => [a, b, c, d, e, f, g, h]

/-- One block of SHA-256. -/
def sha256Block (st : List Nat) (block : List Byte) : List Nat :=
  match st with
  | [a, b, c, d, e, f, g, h] =>
    List.zipWith (fun x y => (x + y) % 0x100000000) st
      (sha256Rounds sha256K (sha256Sched 48 ((chunks 4 block).map beNat)) a b c d e f g h)
  | _ => st

/-- SHA-256: 32 bytes in digest order (00, 0.4.2). -/
def sha256 (bs : List Byte) : List Byte :=
  ((chunks 64 (shaPad 32 bs)).foldl sha256Block sha256Init).flatMap (beBytes 4)
/-- SHA-384: 48 bytes in digest order. -/
def sha384 (bs : List Byte) : List Byte := ((shaWords sha512P sha384Init bs).flatMap (beBytes 8)).take 48

/-- R178: a leaf of the weight tree. -/
def weightLeaf (blob : List Byte) : List Byte := sha256 (0#8 :: blob)
/-- R178: an inner node. -/
def weightNode (l r : List Byte) : List Byte := sha256 (1#8 :: (l ++ r))

/-- One level of the weight tree. -/
def weightLevel : List (List Byte) → List (List Byte)
  | l :: r :: rest => weightNode l r :: weightLevel rest
  | xs => xs

/-- R178: the root over 2^k leaves. -/
def weightRoot : Nat → List (List Byte) → List Byte
  | 0, xs => xs.headD []
  | k + 1, xs => weightRoot k (weightLevel xs)

/-- R179: the weight digest from node (m, b) and the siblings in ascending level. -/
def weightClimb : Nat → List Byte → List (List Byte) → List Byte
  | _, node, [] => node
  | b, node, s :: rest => weightClimb (b / 2) (if b % 2 = 0 then weightNode node s else weightNode s node) rest

/-- R176: the mode word. -/
def modeWord (relaxed : Bool) : Nat := 0x0000000000010001 + 256 * bit01 relaxed

/-- R181: the stamp. -/
def stampOf (lastDigest weightDigest inputDigest : List Byte) (relaxed : Bool) : List Byte :=
  sha256 (lastDigest ++ weightDigest ++ inputDigest ++ leBytes 8 (modeWord relaxed))

/-- R172: one round's key step. -/
def philoxBump (k : Nat × Nat) : Nat × Nat := ((k.1 + 0x9E3779B9) % 2 ^ 32, (k.2 + 0xBB67AE85) % 2 ^ 32)

/-- R172: one round. -/
def philoxRound (c : Nat × Nat × Nat × Nat) (k : Nat × Nat) : Nat × Nat × Nat × Nat :=
  let p0 := 0xD2511F53 * c.1
  let p1 := 0xCD9E8D57 * c.2.2.1
  ((p1 >>> 32) ^^^ c.2.1 ^^^ k.1, p1 % 2 ^ 32, (p0 >>> 32) ^^^ c.2.2.2 ^^^ k.2, p0 % 2 ^ 32)

/-- R172: `n` rounds, the key stepping after each. -/
def philoxRounds : Nat → Nat × Nat × Nat × Nat → Nat × Nat → Nat × Nat × Nat × Nat
  | 0, c, _ => c
  | n + 1, c, k => philoxRounds n (philoxRound c k) (philoxBump k)

/-- R172: philox4x32_10. -/
def philox (c : Nat × Nat × Nat × Nat) (k : Nat × Nat) : Nat × Nat × Nat × Nat := philoxRounds 10 c k

/-- R172: u for a seed and a position. -/
def drawU (seed p : Nat) : F32 :=
  let r := (philox (p % 2 ^ 32, 0, 0, 0) (seed % 2 ^ 32, (seed >>> 32) % 2 ^ 32)).1
  if r >>> 8 = 0 then 0#32 else f32Round false (r >>> 8) (-24)

/-- R173: candidate order: larger value first, then lower token id. -/
def candBefore (a b : Nat × F32) : Bool :=
  (fge32 a.2 b.2 && !fge32 b.2 a.2) || (feq32 a.2 b.2 && decide (a.1 < b.1))

/-- Insert into a list kept in candidate order. -/
def candInsert (x : Nat × F32) : List (Nat × F32) → List (Nat × F32)
  | [] => [x]
  | y :: ys => if candBefore x y then x :: y :: ys else y :: candInsert x ys

/-- R173: the candidates in order. -/
def candidates (z : List F32) : List (Nat × F32) :=
  ((z.mapIdx (fun i x => (i, x))).filter
    (fun p => !isNaN32 p.2 && !decide (p.2 = f32Inf true))).foldr candInsert []

/-- R173: the running sums. -/
def runningSums : F32 → List F32 → List F32
  | _, [] => []
  | acc, w :: ws =>
    let a := fadd32 acc w
    a :: runningSums a ws

/-- The first position whose element satisfies p, or the length. -/
def firstIdx {α : Type} (p : α → Bool) : List α → Nat
  | [] => 0
  | x :: xs => if p x then 0 else firstIdx p xs + 1

/-- R173: sample(); none is NO_CANDIDATE. -/
def sampleToken (z : List F32) (T : F32) (topK : Nat) (topP : F32) (seed p : Nat) : Option Nat :=
  match candidates z with
  | [] => none
  | first :: rest =>
    if T = 0#32 ∨ first.2 = f32Inf false then some first.1
    else
      let all := first :: rest
      let cand := if topK = 0 then all else all.take topK
      let it := recipRn T
      let w := cand.map (fun v => expRn (fmul32 (fsub32 v.2 first.2) it))
      let c := runningSums 0#32 w
      let total := c.getLastD 0#32
      let J := if topP = f32One false then w.length
        else 1 + firstIdx (fun x => fge32 x (fmul32 topP total)) c
      let t := fmul32 (drawU seed p) (c.getD (J - 1) 0#32)
      let j := firstIdx (fun x => fge32 x t && !fge32 t x) (c.take J)
      some ((cand.getD (min j (J - 1)) first).1)

/-! ### ECDSA over P-384 (R121, R475). -/

def p384P : Nat := 2 ^ 384 - 2 ^ 128 - 2 ^ 96 + 2 ^ 32 - 1
def p384N : Nat := 0xFFFFFFFFFFFFFFFFFFFFFFFFFFFFFFFFFFFFFFFFFFFFFFFFC7634D81F4372DDF581A0DB248B0A77AECEC196ACCC52973
def p384B : Nat := 0xB3312FA7E23EE7E4988E056BE3F82D19181D9C6EFE8141120314088F5013875AC656398D8A2ED19D2A85C8EDD3EC2AEF
def p384Gx : Nat := 0xAA87CA22BE8B05378EB1C71EF320AD746E1D3B628BA79B9859F741E082542A385502F25DBF55296C3A545E3872760AB7
def p384Gy : Nat := 0x3617DE4A96262C6F5D9E98BF9292DC29F8F41DBD289A147CE9DA3113B5F0B8C00A60B1CE1D7E819D7A431D7C90EA0E5F

/-- a^e mod m by squaring; `k` bits of e are left. -/
def powMod (m : Nat) : Nat → Nat → Nat → Nat
  | 0, _, _ => 1 % m
  | k + 1, a, e =>
    let r := powMod m k (a * a % m) (e / 2)
    if e % 2 = 1 then r * a % m else r

/-- The inverse modulo a prime. -/
def invMod (m a : Nat) : Nat := powMod m 384 (a % m) (m - 2)

/-- A point of the curve in Jacobian form; Z = 0 is the point at infinity. -/
structure JPoint where
  X : Nat
  Y : Nat
  Z : Nat
  deriving DecidableEq, Repr

def subMod (m a b : Nat) : Nat := (a + (m - b % m)) % m

/-- Doubling with a = −3. -/
def jDouble (p : JPoint) : JPoint :=
  let m := p384P
  if p.Z = 0 ∨ p.Y = 0 then ⟨1, 1, 0⟩
  else
    let zz := p.Z * p.Z % m
    let M := 3 * (subMod m p.X zz * ((p.X + zz) % m) % m) % m
    let yy := p.Y * p.Y % m
    let S := 4 * (p.X * yy % m) % m
    let X3 := subMod m (M * M % m) (2 * S)
    ⟨X3, subMod m (M * subMod m S X3 % m) (8 * (yy * yy % m)), 2 * (p.Y * p.Z % m) % m⟩

/-- Addition. -/
def jAdd (p q : JPoint) : JPoint :=
  let m := p384P
  if p.Z = 0 then q
  else if q.Z = 0 then p
  else
    let z1 := p.Z * p.Z % m
    let z2 := q.Z * q.Z % m
    let u1 := p.X * z2 % m
    let u2 := q.X * z1 % m
    let s1 := p.Y * (z2 * q.Z % m) % m
    let s2 := q.Y * (z1 * p.Z % m) % m
    if u1 = u2 then (if s1 = s2 then jDouble p else ⟨1, 1, 0⟩)
    else
      let H := subMod m u2 u1
      let r := subMod m s2 s1
      let h2 := H * H % m
      let h3 := h2 * H % m
      let v := u1 * h2 % m
      let X3 := subMod m (r * r % m) (h3 + 2 * v)
      ⟨X3, subMod m (r * subMod m v X3 % m) (s1 * h3), H * (p.Z * q.Z % m) % m⟩

/-- Scalar multiplication over the low `k` bits of n. -/
def jMul : Nat → Nat → JPoint → JPoint
  | 0, _, _ => ⟨1, 1, 0⟩
  | k + 1, n, p =>
    let r := jDouble (jMul k (n / 2) p)
    if n % 2 = 1 then jAdd r p else r

def onP384 (x y : Nat) : Bool :=
  decide (x < p384P) && decide (y < p384P) &&
  decide (y * y % p384P = (x * x % p384P * x + (p384P - 3) * x + p384B) % p384P)

/-- FIPS 186-5 verification of (r, s) over a 384-bit hash value with public key (x, y). -/
def ecdsaVerify (x y hash r s : Nat) : Bool :=
  if r = 0 ∨ p384N ≤ r ∨ s = 0 ∨ p384N ≤ s ∨ onP384 x y = false then false
  else
    let w := invMod p384N s
    let P := jAdd (jMul 384 (hash % p384N * w % p384N) ⟨p384Gx, p384Gy, 1⟩) (jMul 384 (r * w % p384N) ⟨x, y, 1⟩)
    if P.Z = 0 then false
    else
      let zi := invMod p384P P.Z
      decide ((P.X * (zi * zi % p384P) % p384P) % p384N = r)

end Sys2Proof.Machine
end

