-- ==== Sys2Proof/Machine/Operands.lean ====
section
/-! DEFINITION. Every operand form of the tile: engine operands and their domain (R70 to R76, R90), the skive formats
and their encoders (R101 to R110), tasks and what they compute (R86 to R96), and their costs (R97 to R99). -/
namespace Sys2Proof.Machine

/-- A domain failure of R515, as Table 7.8 classes it. -/
structure DomainFail where
  cls : Nat
  limit : Int
  observed : Int
  deriving DecidableEq, Repr

/-- R515: DECLARED of a domain failure. -/
def DomainFail.declared (f : DomainFail) : Nat := f.cls * 2 ^ 56 + fieldOf 56 f.limit
/-- R515: OBSERVED of a domain failure. -/
def DomainFail.observedField (f : DomainFail) : Nat := fieldOf 64 f.observed

/-- An engine operand: q × 2^e (R70). -/
structure EngineOp where
  q : Int
  e : Int
  deriving DecidableEq, Repr

def is8bit : Fmt → Bool
  | .bf16 | .fp16 => false
  | _ => true

/-- R90: channel shifts lie in −8 … +8. -/
def shiftOk (t : Int) : Bool := decide (-8 ≤ t ∧ t ≤ 8)

/-- R70, E4M3. -/
def opE4M3 (b : Byte) (t : Int) : Except DomainFail EngineOp :=
  let n := b.toNat
  if n % 128 = 127 then .error ⟨3, 0x7E, n⟩
  else
    let E := bitsOf n 3 4
    let m := n % 8
    let q : Int := if E = 0 then (m : Int) else ((8 + m : Nat) : Int)
    .ok ⟨if bitOf n 7 then -q else q, (if E = 0 then -9 else (E : Int) - 10) + t⟩

/-- R70, E5M2. -/
def opE5M2 (b : Byte) (t : Int) : Except DomainFail EngineOp :=
  let n := b.toNat
  let E := bitsOf n 2 5
  let m := n % 4
  if E = 31 then .error ⟨4, 30, 31⟩
  else
    let q : Int := if E = 0 then (m : Int) else ((4 + m : Nat) : Int)
    .ok ⟨if bitOf n 7 then -q else q, (if E = 0 then -16 else (E : Int) - 17) + t⟩

/-- R70, R90: a B8 element with shared exponent s and channel shift t. -/
def opB8 (s : Int) (m : Int) (t : Int) : Except DomainFail EngineOp :=
  if s + t < -16 then .error ⟨1, -16, s + t⟩
  else if 15 < s + t then .error ⟨1, 15, s + t⟩
  else .ok ⟨m, s - 6 + t⟩

/-- R70: σ and s of an FP16 scale; none where the scale is not finite. -/
def fp16Scale (d : Nat) : Option (Int × Int) :=
  let E := bitsOf d 10 5
  let f := d % 1024
  if E = 31 then none
  else
    let sg : Int := if E = 0 then (f : Int) else ((f + 1024 : Nat) : Int)
    some (if bitOf d 15 then -sg else sg, if E = 0 then -14 else (E : Int) - 15)

/-- R70: an element with an FP16 scale. -/
def opScaled (d : Nat) (m : Int) (t : Int) : Except DomainFail EngineOp :=
  match fp16Scale d with
  | none => .error ⟨2, 30, 31⟩
  | some (sg, s) => .ok ⟨m * sg, s - 10 + t⟩

/-- Bytes of one block and elements of one block of a stored row format (Table 5.1); one element a block otherwise. -/
def blockBytes : Fmt → Nat
  | .b8 => 33 | .b6 => 50 | .b4 => 34 | .bf16 | .fp16 => 2 | .w8 => 4352 | .w4 => 2304 | _ => 1
def blockElems : Fmt → Nat
  | .b8 => 32 | .b6 | .b4 => 64 | .w8 | .w4 => 4096 | _ => 1

/-- Bytes of a row of k elements. -/
def rowBytes (f : Fmt) (k : Nat) : Nat := ceilDiv k (blockElems f) * blockBytes f

/-- The mantissa of element i in a bit field of w-bit elements (R103, R104). -/
def mantAt (bs : List Byte) (w i : Nat) : Int :=
  signedOf w (leAt bs (w * i / 8) 2 >>> (w * i % 8))

/-- Element k of a stored row, as an engine operand (R70, R102, R103). Weights are read by `weightOp`. -/
def rowOp (f : Fmt) (bs : List Byte) (k : Nat) (t : Int) : Except DomainFail EngineOp :=
  match f with
  | .int8 => .ok ⟨signedOf 8 (byteAt bs k).toNat, t⟩
  | .e4m3 => opE4M3 (byteAt bs k) t
  | .e5m2 => opE5M2 (byteAt bs k) t
  | .b8 =>
    let o := 33 * (k / 32)
    opB8 (signedOf 8 (byteAt bs o).toNat) (signedOf 8 (byteAt bs (o + 1 + k % 32)).toNat) t
  | .b6 =>
    let o := 50 * (k / 64)
    opScaled (leAt bs o 2) (mantAt (slice bs (o + 2) 48) 6 (k % 64)) t
  | .b4 =>
    let o := 34 * (k / 64)
    opScaled (leAt bs o 2) (mantAt (slice bs (o + 2) 32) 4 (k % 64)) t
  | .w8 | .w4 | .bf16 | .fp16 => .ok ⟨0, 0⟩

/-- R104: weight (k, n) of a 64 × 64 block. -/
def weightOp (w4 : Bool) (block : List Byte) (k n : Nat) (t : Int) : Except DomainFail EngineOp :=
  let planes := if w4 then 2048 else 4096
  let d := leAt block (planes + 2 * (2 * n + k / 32)) 2
  let j := 64 * n + k
  let m := if w4 then signedOf 4 ((byteAt block (j / 2)).toNat >>> (4 * (j % 2))) else signedOf 8 (byteAt block j).toNat
  opScaled d m t

/-- Element k of output column n of a matrix operand's bytes. `row` is row n of a row format, and all blocks of a weight
format. -/
def stationaryOp (f : Fmt) (row : List Byte) (k n : Nat) (t : Int) : Except DomainFail EngineOp :=
  match f with
  | .w8 => weightOp false (slice row (4352 * (k / 64)) 4352) (k % 64) n t
  | .w4 => weightOp true (slice row (2304 * (k / 64)) 2304) (k % 64) n t
  | _ => rowOp f row k t

/-- R72: one product, at its place in a long sum. -/
def productTerm (a b : EngineOp) : LongSum := BitVec.ofInt 128 (a.q * b.q * (2 ^ (a.e + b.e + 64).toNat : Nat))

/-- R72: a dot product as a long sum. -/
def dotLong : List EngineOp → List EngineOp → LongSum
  | a :: as, b :: bs => productTerm a b + dotLong as bs
  | _, _ => 0#128

/-- R76: the magnitude check made when a long sum is rounded. -/
def checkMagnitude (L : LongSum) : Except DomainFail Unit :=
  if (2 : Nat) ^ 126 < L.toInt.natAbs then .error ⟨6, 62, (bitLen L.toInt.natAbs : Int) - 64⟩ else .ok ()

/-- R77 with R76. -/
def roundChecked (L : LongSum) : Except DomainFail F32 :=
  match checkMagnitude L with
  | .error e => .error e
  | .ok _ => .ok (roundLongSum L)

/-- An FP16 pattern widened to FP32, exactly. -/
def widenFp16 (h : Nat) : F32 :=
  match decodeIeee fmt16 h with
  | .nan => canonNaN
  | .inf s => f32Inf s
  | .num s m e => if m = 0 then f32Zero s else f32Round s m e

/-- Table 4.2, channel scale: fl(x × f) in the operand's own format. -/
def channelScale (f : Fmt) (x : Nat) (c : F32) : Nat :=
  let v := match f with | .fp16 => decodeIeee fmt16 x | _ => decodeIeee fmtBf16 x
  let lay := match f with | .fp16 => fmt16 | _ => fmtBf16
  let nan := match f with | .fp16 => 0x7E00 | _ => 0x7FC0
  match v, f32Val c with
  | .nan, _ => nan
  | _, .nan => nan
  | .inf s, .inf t => bit01 (s != t) <<< 15 ||| infMag lay
  | .inf s, .num t n _ => if n = 0 then nan else bit01 (s != t) <<< 15 ||| infMag lay
  | .num s m _, .inf t => if m = 0 then nan else bit01 (s != t) <<< 15 ||| infMag lay
  | .num s m e, .num t n g => if m * n = 0 then bit01 (s != t) <<< 15 else roundIeee lay (s != t) (m * n) (e + g) false

/-- Element k of a BF16 or FP16 row as an FP32 value, after any channel scale. -/
def half32 (op : MatOperand) (row : List Byte) (k : Nat) : F32 :=
  let x := leAt row (2 * k) 2
  let x := match op.scale with
    | [] => x
    | cs => channelScale op.fmt x (cs.getD k (f32One false))
  match op.fmt with
  | .fp16 => widenFp16 x
  | _ => widenBf16 (BitVec.ofNat 16 x)

/-- Sequence a list of checked values; the first failure wins. -/
def allOk {α : Type} : List (Except DomainFail α) → Except DomainFail (List α)
  | [] => .ok []
  | .error e :: _ => .error e
  | .ok x :: rest =>
    match allOk rest with
    | .error e => .error e
    | .ok xs => .ok (x :: xs)

/-- R107: does shared exponent s hold the largest magnitude? -/
def b8Fits (amax : FVal) (s : Int) : Bool :=
  match amax with
  | .num _ m e => decide (roundShift m (-(e + 6 - s)) false ≤ 127)
  | _ => false

/-- R107: the loop over s, with `fuel` exponents left above s. -/
def b8Exp (amax : FVal) : Nat → Int → Int
  | 0, s => s
  | k + 1, s => if b8Fits amax s then s else b8Exp amax k (s + 1)

/-- The largest magnitude of a list of patterns. -/
def amaxOf (xs : List F32) : FVal :=
  f32Val (xs.foldl (fun acc x => if fge32 (fabs32 x) acc then fabs32 x else acc) 0#32)

/-- R107: enc_b8 of 32 FP32 values. -/
def encB8 (xs : List F32) : Except DomainFail (List Byte) :=
  if xs.any isNaN32 then .error ⟨5, 254, 255⟩
  else
    let s := b8Exp (amaxOf xs) 31 (-16)
    .ok (byteOf (fieldOf 8 s) ::
      xs.map (fun x => BitVec.ofInt 8 ((roundClamp (f32Val x) (6 - s) 127 127).getD 0)))

/-- m × 2^e < n × 2^g. -/
def magLt (m : Nat) (e : Int) (n : Nat) (g : Int) : Bool :=
  let lo := min e g
  decide (m <<< (e - lo).toNat < n <<< (g - lo).toNat)

/-- Q × value(d) < amax, for a positive finite FP16 pattern d. -/
def scaleBelow (Q d : Nat) (amax : FVal) : Bool :=
  match decodeIeee fmt16 d, amax with
  | .num _ m e, .num _ n g => magLt (Q * m) e n g
  | .num .., .inf _ => true
  | _, _ => false

/-- The largest pattern below 0x7C00 whose scaled value is below amax, by bits from the top (R108 asks for the next). -/
def scaleSearch (Q : Nat) (amax : FVal) : Nat → Nat → Nat
  | 0, r => r
  | k + 1, r =>
    let t := r + 2 ^ k
    scaleSearch Q amax k (if t < 0x7C00 ∧ scaleBelow Q t amax then t else r)

/-- R108: scale16. -/
def scale16 (amax : FVal) (Q : Nat) : Nat :=
  match amax with
  | .num _ 0 _ => 0
  | _ => min 0x7BFF (scaleSearch Q amax 15 0 + 1)

/-- R108: one mantissa. -/
def scaledMant (d Q : Nat) (x : F32) : Int :=
  match decodeIeee fmt16 d, f32Val x with
  | .num _ 0 _, _ => 0
  | .num .., .inf s => if s then -(Q : Int) else Q
  | .num _ n g, .num s m e =>
    let lo := min e g
    let r := min Q (roundDiv (m <<< (e - lo).toNat) (n <<< (g - lo).toNat))
    if s then -(r : Int) else r
  | _, _ => 0

/-- Pack signed mantissas of w bits, element 0 in the lowest bits. -/
def packMants (w : Nat) (ms : List Int) : Nat := ms.foldr (fun m acc => fieldOf w m + acc * 2 ^ w) 0

/-- R108: enc_scaled to B6 (w = 6) or B4 (w = 4) over 64 values. -/
def encScaled (w : Nat) (xs : List F32) : Except DomainFail (List Byte) :=
  if xs.any isNaN32 then .error ⟨5, 254, 255⟩
  else
    let Q := 2 ^ (w - 1) - 1
    let d := scale16 (amaxOf xs) Q
    .ok (leBytes 2 d ++ leBytes (8 * w) (packMants w (xs.map (scaledMant d Q))))

/-- R110: encode a row in blocks of `n` elements; elements past the row's end count as +0.0. -/
def encRow (n : Nat) (f : List F32 → Except DomainFail (List Byte)) (xs : List F32) :
    Except DomainFail (List Byte) :=
  match allOk ((chunks n xs).map (fun c => f (c ++ List.replicate (n - c.length) 0#32))) with
  | .error e => .error e
  | .ok bs => .ok bs.flatten

/-- R96: requantise a row. -/
def requantRow (f : OutFmt) (t : Int) (xs : List F32) : Except DomainFail (List Byte) :=
  let nanFail {α : Type} (o : Option α) : Except DomainFail α :=
    match o with | some v => .ok v | none => .error ⟨5, 254, 255⟩
  match f with
  | .b8 => encRow 32 encB8 xs
  | .b6 => encRow 64 (encScaled 6) xs
  | .b4 => encRow 64 (encScaled 4) xs
  | .bf16 => .ok (xs.flatMap (fun x => leBytes 2 (toBf16 x).toNat))
  | .fp16 => .ok (xs.flatMap (fun x => leBytes 2 (toFp16 x).toNat))
  | .e4m3 => allOk (xs.map (fun x => nanFail (toE4M3 x)))
  | .e5m2 => allOk (xs.map (fun x => nanFail (toE5M2 x)))
  | .int8 => allOk (xs.map (fun x => nanFail (toInt8 t x)))

/-- A tile's insole as a task reads it: bytes from an insole offset. -/
abbrev TileRead := Nat → Nat → List Byte

/-- A row in flight: presence and value of each element (R93). -/
abbrev Row := List (Option F32)

/-- R91: a per-channel constant for column c. -/
def argAt (rd : TileRead) (a : EpiArg) (c : Nat) : F32 :=
  match a with
  | .const f => f
  | .at addr => BitVec.ofNat 32 (leNat (rd (addr + 4 * c) 4))

/-- An FP32 or BF16 stream element (R91). -/
def streamAt (rd : TileRead) (addr : Nat) (bf16 : Bool) (i : Nat) : F32 :=
  if bf16 then widenBf16 (BitVec.ofNat 16 (leNat (rd (addr + 2 * i) 2)))
  else BitVec.ofNat 32 (leNat (rd (addr + 4 * i) 4))

/-- The row partial of row r at an array of 8-byte partials. -/
def partialAt (rd : TileRead) (addr r : Nat) : Option F32 := decodePartial (rd (addr + 8 * r) 8)

/-- Map the present elements with their column number. -/
def mapRow (row : Row) (f : Nat → F32 → F32) : Row := row.mapIdx (fun c o => o.map (f c))

/-- One operation on row r: the new row, and a write of a row partial where the operation makes one. -/
def applyOp (rd : TileRead) (width r : Nat) (op : EpiOp) (row : Row) : Row × List (Nat × List Byte) :=
  match op with
  | .round => (row, [])
  | .scale a => (mapRow row (fun c x => fmul32 x (argAt rd a c)), [])
  | .bias a => (mapRow row (fun c x => fadd32 x (argAt rd a c)), [])
  | .residual addr bf => (mapRow row (fun c x => fadd32 x (streamAt rd addr bf (r * width + c))), [])
  | .geluTanh => (mapRow row (fun _ x => geluTanh x), [])
  | .silu => (mapRow row (fun _ x => silu x), [])
  | .siluGated addr bf => (mapRow row (fun c x => siluGated x (streamAt rd addr bf (r * width + c))), [])
  | .reluSq => (mapRow row (fun _ x => reluSq x), [])
  | .rmsPartial out => (row, [(out + 8 * r, encodePartial (rmsPartial row))])
  | .rmsApply sAddr invN eps g =>
    (match partialAt rd sAddr r with
     | some S => mapRow row (fun c x => rmsApply S invN eps (argAt rd g c) x)
     | none => mapRow row (fun _ x => Config.noRoot x), [])
  | .softmaxMax out => (row, [(out + 8 * r, encodePartial (maxPartial row))])
  | .softmaxSum mAddr out =>
    (row, [(out + 8 * r, encodePartial (match partialAt rd mAddr r with
      | some m => softmaxSumPartial m row
      | none => if row.any Option.isSome then some (Config.noMax row) else none))])
  | .softmaxNorm mAddr sAddr =>
    (row.map (fun o => some (softmaxNormalise (partialAt rd mAddr r) (partialAt rd sAddr r) o)), [])
  | .combineAdd addr => (row.mapIdx (fun c o => nodeWith fadd32 o (partialAt rd (addr + 8 * r * width) c)), [])
  | .combineMax addr => (row.mapIdx (fun c o => nodeWith fmax32 o (partialAt rd (addr + 8 * r * width) c)), [])
  | .requant _ _ => (row, [])

/-- All operations of a list on one row, in order. -/
def applyOps (rd : TileRead) (width r : Nat) : List EpiOp → Row → Row × List (Nat × List Byte)
  | [], row => (row, [])
  | op :: ops, row =>
    let p := applyOp rd width r op row
    let q := applyOps rd width r ops p.1
    (q.1, p.2 ++ q.2)

/-- The requantisation a list ends with, if any (R86). -/
def requantOf (ops : List EpiOp) : Option (OutFmt × Int) :=
  match ops.getLast? with
  | some (.requant f t) => some (f, t)
  | _ => none

/-- The bytes a finished row is stored as. -/
def rowOut (ops : List EpiOp) (row : Row) : Except DomainFail (List Byte) :=
  let xs := row.map (fun o => o.getD 0#32)
  match requantOf ops with
  | some (f, t) => requantRow f t xs
  | none => .ok (xs.flatMap (fun x => leBytes 4 x.toNat))

/-- Row r of a matrix operand (R55 reads), and the blocks of a weight operand. -/
def operandRow (rd : TileRead) (op : MatOperand) (k r : Nat) : List Byte :=
  match op.fmt with
  | .w8 | .w4 => rd op.addr (ceilDiv k 64 * blockBytes op.fmt)
  | _ => rd (op.addr + r * op.stride) (rowBytes op.fmt k)

def shiftAt (op : MatOperand) (k : Nat) : Int := op.shift.getD k 0

/-- The engine operands of a streamed row. -/
def rowOps (op : MatOperand) (bs : List Byte) (k : Nat) : Except DomainFail (List EngineOp) :=
  allOk ((List.range k).map (fun i => rowOp op.fmt bs i (shiftAt op i)))

/-- The engine operands of output column n. -/
def colOps (rd : TileRead) (op : MatOperand) (k n : Nat) : Except DomainFail (List EngineOp) :=
  let bs := operandRow rd op k n
  allOk ((List.range k).map (fun i => stationaryOp op.fmt bs i n (shiftAt op i)))

/-- R72: the partial long sums a task adds into output (r, c). -/
def addPartials (rd : TileRead) (addrs : List Nat) (r c : Nat) (L : LongSum) : LongSum :=
  addrs.foldl (fun acc a => acc + BitVec.ofNat 128 (leNat (rd (a + 16 * (64 * r + c)) 16))) L

/-- The long sums of row r of an 8-bit class fused task. -/
def longRow (rd : TileRead) (t : Task) (r : Nat) : Except DomainFail (List LongSum) :=
  match rowOps t.a (operandRow rd t.a t.k r) t.k with
  | .error e => .error e
  | .ok xs =>
    allOk ((List.range t.live).map (fun c =>
      match colOps rd t.b t.k c with
      | .error e => .error e
      | .ok ys => .ok (addPartials rd t.addFrom r c (dotLong xs ys))))

/-- The canonical tree roots of row r of a BF16 or FP16 fused task (R78). -/
def treeRow (rd : TileRead) (t : Task) (r : Nat) : Row :=
  let x := operandRow rd t.a t.k r
  (List.range t.live).map (fun c =>
    let y := operandRow rd t.b t.k c
    canonTree ((List.range t.k).map (fun i => some (fmul32 (half32 t.a x i) (half32 t.b y i)))))

/-- What a task writes for row r: insole offsets and bytes, or the domain failure that stops the job (R76). -/
def taskRow (rd : TileRead) (t : Task) (r : Nat) : Except DomainFail (List (Nat × List Byte)) :=
  let pad (row : Row) : Row := row ++ List.replicate (t.width - row.length) none
  let finish (row : Row) : Except DomainFail (List (Nat × List Byte)) :=
    let p := applyOps rd t.width r t.ops (pad row)
    match rowOut t.ops p.1 with
    | .error e => .error e
    | .ok bs => .ok (p.2 ++ [(t.outAddr + r * t.outStride, bs)])
  if t.fused then
    if is8bit t.a.fmt then
      match longRow rd t r with
      | .error e => .error e
      | .ok ls =>
        if t.partialOut then .ok [(t.outAddr + r * t.outStride, ls.flatMap (fun L => leBytes 16 L.toNat))]
        else
          match allOk (ls.map roundChecked) with
          | .error e => .error e
          | .ok xs => finish (xs.map some)
    else if t.partialOut then .ok [(t.outAddr + r * t.outStride, (treeRow rd t r).flatMap encodePartial)]
    else finish (treeRow rd t r)
  else finish ((List.range t.live).map (fun c => some (streamAt rd t.inAddr t.inBf16 (r * t.width + c))))

/-- Everything a task writes, row by row. -/
def taskWrites (rd : TileRead) (t : Task) : Except DomainFail (List (Nat × List Byte)) :=
  match allOk ((List.range t.rows).map (taskRow rd t)) with
  | .error e => .error e
  | .ok ws => .ok ws.flatten

/-- Table 4.3: decoding 64 stored elements. -/
def decodeCost : Fmt → Nat
  | .b8 => 16 | .b6 => 24 | .b4 => 8 | .w4 => 8 | .w8 => 16 | _ => 0

/-- Table 4.3: prologue lane-stitches per 64 elements of an operand. -/
def prologueCost (op : MatOperand) : Nat :=
  decodeCost op.fmt + (if op.shift.isEmpty then 0 else 8) + (if op.scale.isEmpty then 0 else 64)

/-- Table 4.3: lane-stitches per 64 outputs and per row. -/
def opCost : EpiOp → Nat × Nat
  | .round => (64, 0)
  | .scale _ | .bias _ | .residual .. => (64, 0)
  | .geluTanh => (768, 0)
  | .silu => (320, 0)
  | .siluGated .. => (384, 0)
  | .reluSq => (128, 0)
  | .rmsPartial _ => (128, 0)
  | .rmsApply .. => (128, 4)
  | .softmaxMax _ => (64, 0)
  | .softmaxSum .. => (384, 0)
  | .softmaxNorm .. => (384, 4)
  | .combineAdd _ | .combineMax _ => (64, 0)
  | .requant .b8 _ => (96, 0)
  | .requant .b6 _ | .requant .b4 _ => (128, 0)
  | .requant _ _ => (64, 0)

/-- R97: the cost C of a task in lane-stitches. -/
def taskCost (t : Task) : Nat :=
  let groups := ceilDiv t.width 64
  let epi := t.ops.foldl (fun acc op => acc + t.rows * (groups * (opCost op).1 + (opCost op).2)) 0
  if t.fused then
    t.blocksLoaded * 64 * prologueCost t.b + t.rows * ceilDiv t.k 64 * prologueCost t.a + epi
  else epi

/-- R98. -/
def tMat (t : Task) : Nat := (if is8bit t.a.fmt then 1 else 4) * t.rows * ceilDiv t.k 64
def tVec (t : Task) : Nat := ceilDiv (taskCost t) 128
def taskStall (t : Task) : Nat := tVec t - tMat t

def isRound : EpiOp → Bool | .round => true | _ => false
def isRequant : EpiOp → Bool | .requant .. => true | _ => false
def isActivation : EpiOp → Bool
  | .geluTanh | .silu | .siluGated .. | .reluSq => true
  | _ => false

/-- R86: the limits of a task list. -/
def opsLegal (t : Task) : Bool :=
  decide (t.ops.length ≤ 6) &&
  decide ((t.ops.filter isActivation).length ≤ 1) &&
  !(t.ops.dropLast.any isRequant) &&
  (if t.fused && is8bit t.a.fmt && !t.partialOut then
     (match t.ops with | op :: rest => isRound op && !(rest.any isRound) | [] => false)
   else !(t.ops.any isRound))

/-- R87: no epilogue on a partial; R52: the operand pair; R90: shifts in range. -/
def taskLegal (t : Task) : Bool :=
  opsLegal t && (!t.partialOut || t.ops.isEmpty) &&
  (!t.fused || ((is8bit t.a.fmt && is8bit t.b.fmt) || (decide (t.a.fmt = .bf16) && decide (t.b.fmt = .bf16)) ||
    (decide (t.a.fmt = .fp16) && decide (t.b.fmt = .fp16)))) &&
  t.a.shift.all shiftOk && t.b.shift.all shiftOk

/-- Bytes of one stored output row. -/
def outRowBytes (t : Task) : Nat :=
  if t.partialOut then (if is8bit t.a.fmt then 16 * t.live else 8 * t.live)
  else match requantOf t.ops with
    | some (.b8, _) => 33 * ceilDiv t.width 32
    | some (.b6, _) => 50 * ceilDiv t.width 64
    | some (.b4, _) => 34 * ceilDiv t.width 64
    | some (.bf16, _) | some (.fp16, _) => 2 * t.width
    | some (_, _) => t.width
    | none => 4 * t.width

/-- The insole ranges a task writes: offset and length (R514). -/
def outRanges (t : Task) : List (Nat × Nat) :=
  ((List.range t.rows).map (fun r => (t.outAddr + r * t.outStride, outRowBytes t))) ++
  t.ops.filterMap (fun op => match op with
    | .rmsPartial out | .softmaxMax out | .softmaxSum _ out => some (out, 8 * t.rows)
    | _ => none)

end Sys2Proof.Machine
end

