-- ==== Sys2Proof/Machine/Last.lean ====
section
/-! DEFINITION. Last images and arrangements as bytes, and the loader's checks in the order of Table 6.10 (06): each
check is a function that answers the refusal it raises. -/
namespace Sys2Proof.Machine

/-- A pod coordinate (01 R13). -/
structure Coord where
  x : Nat
  y : Nat
  z : Nat
  deriving DecidableEq, Repr

/-- x[4:0], y[9:5], z[13:10]: the 16-bit field of Tables 6.9, 7.4 and 11.1. -/
def Coord.field (c : Coord) : Nat := c.x + 32 * c.y + 1024 * c.z
def Coord.ofField (n : Nat) : Coord := ⟨n % 32, n / 32 % 32, n / 1024 % 16⟩

/-- The pod shape (R13): X and Y even from 2 to 16, Z from 2 to 8, at most 1,024 chips. -/
def shapeOk (s : Coord) : Bool :=
  decide (s.x % 2 = 0 ∧ 2 ≤ s.x ∧ s.x ≤ 16 ∧ s.y % 2 = 0 ∧ 2 ≤ s.y ∧ s.y ≤ 16 ∧ 2 ≤ s.z ∧ s.z ≤ 8 ∧ s.x * s.y * s.z ≤ 1024)
def inShape (s c : Coord) : Bool := decide (c.x < s.x ∧ c.y < s.y ∧ c.z < s.z)

/-- A present span build (Table 6.3). -/
structure SpanBuild where
  ltiles : Nat
  variants : Nat
  insoleBytes : Nat
  weightBytes : Nat
  tacks : Nat
  hbmBytes : Nat
  deriving DecidableEq, Repr

/-- A directory entry (Table 6.4). -/
structure DirEntry where
  type : Nat
  span : Nat
  inst : Nat
  offset : Nat
  length : Nat
  digest : List Byte
  rsvOk : Bool
  deriving DecidableEq, Repr

/-- A step-variant entry (Table 6.6). -/
structure Variant where
  id : Nat
  kind : Nat
  size : Nat
  lengthJs : Nat
  energyUj : Nat
  peakW : Nat
  entry : Nat
  laceEntry : Nat
  rsvOk : Bool
  deriving DecidableEq, Repr

/-- A lacing-table row (Table 9.2). -/
structure LaceRow where
  jsOffset : Nat
  action : Nat
  eyelet : Nat
  outA : Nat
  outB : Nat
  units : Nat
  ltile : Nat
  lace : Nat
  addr : Nat
  rsvOk : Bool
  deriving DecidableEq, Repr

/-- A lacing section (R138, R190, R191). -/
structure Lacing where
  expects : List (Nat × Nat)
  laceCount : Nat
  statsOffset : Nat
  flight : List Nat
  rows : List LaceRow
  deriving DecidableEq, Repr

/-- A chip of an arrangement (Table 6.9). -/
structure ArrChip where
  coord : Coord
  eyelets : List Nat
  tiles : List Nat
  deriving DecidableEq, Repr

/-- An arrangement record (R136). -/
structure Arrangement where
  span : Nat
  leader : Nat
  dateline : Coord
  hasMaps : Bool
  chips : List ArrChip
  digest : List Byte
  deriving DecidableEq, Repr

/-- An extent of the weight manifest (R129). -/
structure Extent where
  w4 : Bool
  blocks : Nat
  deriving DecidableEq, Repr

/-- A weight placement entry (R130). -/
structure Placement where
  slot : Nat
  ltile : Nat
  blobOffset : Nat
  length : Nat
  tileOffset : Nat
  deriving DecidableEq, Repr

/-- A chip constants record (R126). -/
structure ConstRecord where
  ltile : Nat
  offset : Nat
  bytes : List Byte
  deriving DecidableEq, Repr

/-- A loaded last (06 R141): everything the job reads of it. `slices` holds the placed slices with their leaves; `closed`
whether JOB_CLOSE has freed its allocations and its lacing bank (R192). -/
structure LoadedLast where
  digest : List Byte
  log2L : Nat
  retryAllow : Nat
  vocab : Nat
  context : Nat
  lockstepOk : Bool
  relaxedOk : Bool
  pinned : List Byte
  xlat : List Nat
  span : Nat
  build : SpanBuild
  variants : List Variant
  lacing : Lacing
  code : List (List Byte)
  consts : List ConstRecord
  manifest : List (List Extent)
  placement : List Placement
  arr : Arrangement
  lchip : Nat
  tileMap : List Nat
  insoleBase : Nat
  hbmBase : Nat
  tackBase : Nat
  schedule : Schedule
  slices : List (Nat × List Byte)
  siblings : Option (List (List Byte))
  weightDigest : Option (List Byte)
  closed : Bool
  deriving DecidableEq, Repr

/-- A refusal of the loader (R140). -/
structure LastRefusal where
  sub : Nat
  entry : Nat
  offset : Nat
  digest : List Byte
  deriving DecidableEq, Repr

/-- What one eyelet's training taught (R138). -/
structure PartnerInfo where
  up : Bool
  coord : Nat
  eyelet : Nat
  deriving DecidableEq, Repr

/-- The last-signing keys of R121. -/
structure LastKey where
  id : Nat
  x : Nat
  y : Nat
  deriving DecidableEq, Repr

/-- What the loader asks of the chip. Allocations are (base, length) pairs in use. -/
structure LoadEnv where
  stepping : Nat
  enabled : List Nat
  xlatCal : List Nat
  keys : List LastKey
  requireSigned : Bool
  shape : Coord
  coord : Coord
  partners : List PartnerInfo
  insoleUsed : List (Nat × Nat)
  hbmUsed : List (Nat × Nat)
  tacksUsed : List (Nat × Nat)
  deriving DecidableEq, Repr

abbrev Img := List Byte

def allZero (bs : List Byte) : Bool := bs.all (fun b => decide (b = 0#8))
def zeroAt (img : Img) (o k : Nat) : Bool := allZero (slice img o k)

/-! A check answers the byte offset concerned (R140): none where the check passes. The first that fails in the order of
the bytes is the one reported (log entry 91). -/

/-- The first offset among several. -/
def firstOf (xs : List (Option Nat)) : Option Nat := xs.findSome? id

/-- An offset, unless what stands there is well formed. -/
def faultUnless (ok : Bool) (o : Nat) : Option Nat := if ok then none else some o

/-- The first of k bytes that is not 0. -/
def nonZeroAt (img : Img) (o k : Nat) : Option Nat :=
  ((List.range k).find? (fun i => decide (byteAt img (o + i) ≠ 0#8))).map (o + ·)

/-- The first of n records of k bytes from offset o that a test rejects. -/
def firstRecord (o k n : Nat) (ok : Nat → Bool) : Option Nat :=
  ((List.range n).find? (fun i => !ok i)).map (fun i => o + k * i)

def imgSections (img : Img) : Nat := leAt img 12 4
def imgDirEnd (img : Img) : Nat := 1024 + 64 * imgSections img
def imgDigestOff (img : Img) : Nat := leAt img 24 8
def imgLog2L (img : Img) : Nat := (byteAt img 8).toNat
def imgSigned (img : Img) : Bool := bitOf (byteAt img 7).toNat 0

/-- Span table entry m, if present (R124). -/
def spanEntry (img : Img) (m : Nat) : Option SpanBuild :=
  let o := 256 + 32 * m
  if m < 13 ∧ byteAt img o = 1#8 then
    some ⟨(byteAt img (o + 1)).toNat, leAt img (o + 2) 2, leAt img (o + 4) 4, leAt img (o + 8) 4, leAt img (o + 12) 4,
      leAt img (o + 16) 8⟩
  else none

/-- R124: an entry's rules. -/
def spanFault (img : Img) (m : Nat) : Option Nat :=
  let o := 256 + 32 * m
  if byteAt img o = 0#8 then nonZeroAt img o 32
  else
    match spanEntry img m with
    | none => some o
    | some b => firstOf [
        faultUnless (decide (m ≤ imgLog2L img ∧ 2 ^ imgLog2L img / 2 ^ m ≤ 1024)) o,
        faultUnless (decide (b.ltiles = 112 ∨ b.ltiles = 128)) (o + 1),
        faultUnless (decide (1 ≤ b.variants ∧ b.variants ≤ 64)) (o + 2),
        faultUnless (decide (b.insoleBytes % 64 = 0 ∧ b.insoleBytes ≤ 16777216)) (o + 4),
        faultUnless (decide (b.weightBytes % 64 = 0 ∧ b.weightBytes ≤ b.insoleBytes)) (o + 8),
        faultUnless (decide (b.tacks ≤ 131072)) (o + 12),
        faultUnless (decide (b.hbmBytes % 4096 = 0)) (o + 16),
        nonZeroAt img (o + 24) 8]

/-- Check 2 (R122, R124). -/
def headerFault (img : Img) : Option Nat :=
  let n := imgSections img
  let retry := leAt img 10 2
  let vocab := leAt img 148 4
  let ctx := leAt img 152 4
  let dig := imgDigestOff img
  firstOf [
    faultUnless (decide ((byteAt img 7).toNat < 8)) 7,
    faultUnless (decide (6 ≤ imgLog2L img ∧ imgLog2L img ≤ 12)) 8,
    faultUnless (decide ((byteAt img 9).toNat ≤ 1)) 9,
    faultUnless (decide (128 ≤ retry ∧ retry ≤ 4096)) 10,
    faultUnless (decide (1 ≤ n ∧ n ≤ 65535)) 12,
    faultUnless (decide (leAt img 16 8 % 64 = 0 ∧ leAt img 16 8 = img.length)) 16,
    faultUnless (decide (dig + 160 = img.length)) 24,
    firstRecord 32 1 80 (fun i => decide (2 ≤ (byteAt img (32 + i)).toNat ∧ (byteAt img (32 + i)).toNat ≤ 6)),
    faultUnless (decide (2 ≤ vocab ∧ vocab ≤ 16777216)) 148,
    faultUnless (decide (ctx % 64 = 0 ∧ 64 ≤ ctx ∧ ctx ≤ 1114112)) 152,
    nonZeroAt img 156 100,
    (List.range 13).findSome? (spanFault img),
    faultUnless ((List.range 13).any (fun m => (spanEntry img m).isSome)) 256,
    nonZeroAt img 672 352,
    (if imgSigned img then none else nonZeroAt img (dig + 32) 104),
    nonZeroAt img (dig + 136) 24]

/-- Directory entry n (Table 6.4). -/
def dirEntry (img : Img) (n : Nat) : DirEntry :=
  let o := 1024 + 64 * n
  ⟨leAt img o 2, (byteAt img (o + 2)).toNat, leAt img (o + 4) 2, leAt img (o + 8) 8, leAt img (o + 16) 8,
   slice img (o + 32) 32,
   decide (byteAt img (o + 3) = 0#8) && zeroAt img (o + 6) 2 && zeroAt img (o + 24) 8⟩

def dirEntries (img : Img) : List DirEntry := (List.range (imgSections img)).map (dirEntry img)

/-- R126: an entry's type, span, instance, place and length. -/
def entryOk (img : Img) (e : DirEntry) : Bool :=
  e.rsvOk && decide (e.offset % 64 = 0 ∧ imgDirEnd img ≤ e.offset ∧ e.offset + e.length ≤ imgDigestOff img) &&
  (if e.type = 5 then decide (e.span = 0xFF ∧ e.inst = 0xFFFF)
   else
     match spanEntry img e.span with
     | none => false
     | some b =>
       let N := 2 ^ imgLog2L img / 2 ^ e.span
       match e.type with
       | 1 => decide (e.inst < b.ltiles ∧ e.length ≤ 131072)
       | 2 => decide (e.inst < N)
       | 3 => decide (e.inst < N)
       | 4 => decide (e.inst = 0xFFFF)
       | 6 => decide (e.inst = 0xFFFF)
       | 7 => decide (e.inst = 0xFFFF)
       | 8 => decide (e.inst = 0xFFFF)
       | _ => false)

/-- The sections a build requires (R126). -/
def requiredCount (img : Img) : Nat :=
  1 + ((List.range 13).filterMap (spanEntry img)).foldl (fun a b => a + b.ltiles + 4) 0 +
  ((List.range 13).filter (fun m => (spanEntry img m).isSome)).foldl (fun a m => a + 2 * (2 ^ imgLog2L img / 2 ^ m)) 0

def entryKey (e : DirEntry) : Nat := (e.type * 256 + e.span) * 65536 + e.inst

def entriesClash (a b : DirEntry) : Bool :=
  decide (entryKey a = entryKey b) ||
  (decide (0 < a.length ∧ 0 < b.length) && decide (a.offset < b.offset + b.length ∧ b.offset < a.offset + a.length))

/-- The first entry that clashes with an earlier one. -/
def firstClash : Nat → List DirEntry → List DirEntry → Option Nat
  | _, _, [] => none
  | n, seen, e :: rest => if seen.any (entriesClash e) then some n else firstClash (n + 1) (e :: seen) rest

/-- Check 4 (R125, R126): the directory entry and the offset concerned, 0xFFFF_FFFF where neither is. -/
def dirFault (img : Img) : Option (Nat × Nat) :=
  let es := dirEntries img
  if imgDigestOff img < imgDirEnd img then some (0xFFFFFFFF, 12)
  else
    let bad := firstIdx (fun e => !entryOk img e) es
    if bad < es.length then some (bad, 1024 + 64 * bad)
    else
      match firstClash 0 [] es with
      | some n => some (n, 1024 + 64 * n)
      | none => if es.length = requiredCount img then none else some (0xFFFFFFFF, 0xFFFFFFFF)

/-- The last digest (R120). -/
def lastDigest (img : Img) : List Byte := sha256 (img.take (imgDirEnd img))

/-- Check 6 (R121): the sub-code it refuses with, and the offset concerned. -/
def signatureFault (env : LoadEnv) (img : Img) (dig : List Byte) : Option (Nat × Nat) :=
  if imgSigned img then
    let o := imgDigestOff img
    match env.keys.find? (fun k => decide (k.id = leAt img (o + 32) 8)) with
    | none => some (7, o + 32)
    | some k =>
      if ecdsaVerify k.x k.y (beNat (sha384 dig)) (beNat (slice img (o + 40) 48)) (beNat (slice img (o + 88) 48)) then none
      else some (7, o + 40)
  else if env.requireSigned then some (6, 7) else none

/-- Nibble k of an eyelet map. -/
def nibble (bs : List Byte) (k : Nat) : Nat := (byteAt bs (k / 2)).toNat >>> (4 * (k % 2)) % 16

def isPerm16 (xs : List Nat) : Bool := decide (xs.length = 16) && (List.range 16).all (fun i => xs.contains i)

/-- Is a list free of repeats? -/
def nodupNat : List Nat → Bool
  | [] => true
  | x :: xs => !xs.contains x && nodupNat xs

/-- R136: read an arrangement record. -/
def parseArr (bs : List Byte) : Arrangement :=
  let n := leAt bs 6 2
  let maps := bitOf (byteAt bs 5).toNat 0
  ⟨(byteAt bs 4).toNat, leAt bs 8 2, ⟨(byteAt bs 10).toNat, (byteAt bs 11).toNat, (byteAt bs 12).toNat⟩, maps,
   (List.range n).map (fun j =>
     let o := 64 + 32 * j
     ⟨Coord.ofField (leAt bs o 2), (List.range 16).map (nibble (slice bs (o + 4) 8)),
      if maps then (slice bs (64 + 32 * n + 128 * j) 128).map (·.toNat) else []⟩),
   sha256 bs⟩

/-- Check 7 (R136, R137). -/
def arrOk (env : LoadEnv) (img : Img) (dig arr : List Byte) : Bool :=
  let a := parseArr arr
  let n := leAt arr 6 2
  match spanEntry img a.span with
  | none => false
  | some b =>
    decide (leAt arr 0 4 = 0x4E525241 ∧ (byteAt arr 5).toNat < 2 ∧ n = 2 ^ imgLog2L img / 2 ^ a.span ∧
      arr.length = 64 + 32 * n + (if a.hasMaps then 128 * n else 0) ∧ slice arr 16 32 = dig ∧ a.leader < n) &&
    zeroAt arr 13 3 && zeroAt arr 48 16 &&
    (List.range n).all (fun j => decide (leAt arr (64 + 32 * j) 2 < 16384) && zeroAt arr (64 + 32 * j + 2) 2 &&
      zeroAt arr (64 + 32 * j + 12) 20) &&
    a.chips.all (fun c => inShape env.shape c.coord && isPerm16 c.eyelets &&
      (!a.hasMaps || (c.tiles.drop b.ltiles).all (fun t => decide (t = 0xFF)))) &&
    nodupNat (a.chips.map (fun c => c.coord.field)) && (a.chips.map (·.coord)).contains env.coord &&
    inShape env.shape a.dateline

/-- Check 9 (R68): the tile map, or none where it fails. -/
def tileMapOf (env : LoadEnv) (b : SpanBuild) (a : Arrangement) (lchip : Nat) : Option (List Nat) :=
  if a.hasMaps then
    let t := ((a.chips.getD lchip ⟨⟨0, 0, 0⟩, [], []⟩).tiles).take b.ltiles
    if decide (t.length = b.ltiles) && nodupNat t && t.all (fun i => env.enabled.contains i) then some t else none
  else if b.ltiles ≤ env.enabled.length then some (env.enabled.take b.ltiles) else none

/-- A section's bytes. -/
def sectionBytes (img : Img) (e : DirEntry) : List Byte := slice img e.offset e.length

/-- Find a section. -/
def findSection (img : Img) (type span inst : Nat) : Option (Nat × DirEntry) :=
  ((dirEntries img).mapIdx (fun i e => (i, e))).find? (fun p => decide (p.2.type = type ∧ p.2.span = span ∧ p.2.inst = inst))

def sectionOf (img : Img) (type span inst : Nat) : List Byte :=
  match findSection img type span inst with
  | some p => sectionBytes img p.2
  | none => []

/-- The sections the loading chip reads (06, 6.1). -/
def readsSection (span lchip : Nat) (e : DirEntry) : Bool :=
  if e.type = 5 then true
  else decide (e.span = span) && (!(decide (e.type = 2) || decide (e.type = 3)) || decide (e.inst = lchip))

/-- Check 11, digests: the first section read whose digest fails. -/
def digestFault (img : Img) (span lchip : Nat) : Option Nat :=
  let es := dirEntries img
  let bad := firstIdx (fun e => readsSection span lchip e && !decide (sha256 (sectionBytes img e) = e.digest)) es
  if bad < es.length then some bad else none

/-- A lacing row (Table 9.2). -/
def parseRow (bs : List Byte) (o : Nat) : LaceRow :=
  let b4 := (byteAt bs (o + 4)).toNat
  let b5 := (byteAt bs (o + 5)).toNat
  let l := leAt bs (o + 8) 4
  let a := leAt bs (o + 12) 4
  ⟨leAt bs o 4, b4 % 16, b4 / 16, b5 % 16, b5 / 16, (byteAt bs (o + 6)).toNat, (byteAt bs (o + 7)).toNat, l % 2 ^ 20,
   a % 2 ^ 24, decide (l < 2 ^ 20) && decide (a < 2 ^ 24)⟩

/-- A lacing section read as fields (R138, R190, R191). -/
def parseLacing (bs : List Byte) : Lacing :=
  ⟨(List.range 16).map (fun k => (leAt bs (8 * k) 2, (byteAt bs (8 * k + 2)).toNat)),
   leAt bs 132 4, leAt bs 136 8, (List.range 16).map (fun k => leAt bs (144 + 2 * k) 2),
   (List.range (leAt bs 128 4)).map (fun r => parseRow bs (192 + 16 * r))⟩

def Lacing.used (l : Lacing) (k : Nat) : Bool := decide ((l.expects.getD k (0xFFFF, 0)).1 ≠ 0xFFFF)

/-- R191: one row's rules; an END row holds no lace and its UNITS is not judged (log entry 34). -/
def rowOk (l : Lacing) (ltiles : Nat) (r : LaceRow) : Bool :=
  r.rsvOk && decide (r.action = 0xF ∨ r.units ≠ 0) && (decide (r.action = 0xF ∨ r.outB = 0xF) || l.used r.outB) &&
  (match r.action with
   | 1 => decide (r.jsOffset % 2 = 0 ∧ r.outA = 0 ∧ r.ltile < ltiles) && l.used r.eyelet
   | 2 => decide (r.outA = 0 ∧ r.ltile < ltiles) && l.used r.eyelet
   | 3 => decide (r.jsOffset % 2 = 0 ∧ r.ltile = 0) && l.used r.eyelet && l.used r.outA
   | 4 => decide (r.jsOffset % 2 = 0 ∧ r.ltile < ltiles) && l.used r.eyelet && l.used r.outA
   | 0xF => decide (r.outA = 0 ∧ r.ltile = 0)
   | _ => false)

/-- A variant's rows run in ascending JS_OFFSET to an END row (R191): the first row, from number i, that breaks this. -/
def runFault : Nat → Nat → List LaceRow → Option Nat
  | i, _, [] => some i
  | i, prev, r :: rest =>
    if r.jsOffset < prev then some i else if r.action = 0xF then none else runFault (i + 1) r.jsOffset rest

/-- The rows of a variant, up to its END row. -/
def variantRows (l : Lacing) (v : Variant) : List LaceRow :=
  (l.rows.drop ((v.laceEntry - 192) / 16)).takeWhile (fun r => decide (r.action ≠ 0xF))

def laceEntryOk (l : Lacing) (v : Variant) : Bool :=
  decide (192 ≤ v.laceEntry ∧ (v.laceEntry - 192) % 16 = 0 ∧ (v.laceEntry - 192) / 16 < l.rows.length)

/-- Check 11, the lacing section's format: the offset in the section. -/
def lacingFault (bs : List Byte) (l : Lacing) (N ltiles : Nat) (vs : List Variant) : Option Nat :=
  let rows := leAt bs 128 4
  firstOf [
    faultUnless (decide (192 ≤ bs.length)) 0,
    firstRecord 0 8 16 (fun k =>
      let p := l.expects.getD k (0, 0)
      zeroAt bs (8 * k + 3) 5 && (if p.1 = 0xFFFF then decide (p.2 = 0) else decide (p.1 < N ∧ p.2 < 16))),
    faultUnless (decide (1 ≤ rows ∧ rows ≤ 524288 ∧ bs.length = 192 + 16 * rows)) 128,
    faultUnless (decide (1 ≤ l.laceCount ∧ l.laceCount ≤ 1048576)) 132,
    faultUnless (decide (l.statsOffset % 64 = 0)) 136,
    firstRecord 144 2 16 (fun k =>
      let f := l.flight.getD k 0
      if l.used k then decide (16 ≤ f ∧ f ≤ 4095) else decide (f = 0)),
    nonZeroAt bs 176 16,
    firstRecord 192 16 l.rows.length (fun i => match l.rows[i]? with | some r => rowOk l ltiles r | none => true),
    vs.findSome? (fun v =>
      let i := (v.laceEntry - 192) / 16
      if laceEntryOk l v then (runFault i 0 (l.rows.drop i)).map (192 + 16 * ·) else none)]

/-- R126: chip constants records from offset `o` of the section; or the offset of the first that breaks the rules. -/
def parseConsts (ltiles insoleBytes : Nat) : Nat → Nat → List Byte → Except Nat (List ConstRecord)
  | _, _, [] => .ok []
  | 0, o, _ => .error o
  | fuel + 1, o, bs =>
    let n := leAt bs 8 4
    let used := 16 + ceilDiv n 64 * 64
    let t := (byteAt bs 0).toNat
    let a := leAt bs 4 4
    if bs.length < used ∨ zeroAt bs 1 3 = false ∨ zeroAt bs 12 4 = false ∨ ltiles ≤ t ∨ insoleBytes < a + n then .error o
    else
      match parseConsts ltiles insoleBytes fuel (o + used) (bs.drop used) with
      | .error e => .error e
      | .ok rs => .ok (⟨t, a, slice bs 16 n⟩ :: rs)

/-- A step-variant entry (Table 6.6). -/
def parseVariant (bs : List Byte) (i : Nat) : Variant :=
  let o := 32 * i
  ⟨(byteAt bs o).toNat, (byteAt bs (o + 1)).toNat, leAt bs (o + 2) 2, leAt bs (o + 8) 8, leAt bs (o + 16) 4,
   leAt bs (o + 20) 2, leAt bs (o + 24) 4, leAt bs (o + 28) 4, zeroAt bs (o + 4) 4 && zeroAt bs (o + 22) 2⟩

/-- Check 12 (R127, R128): the offset in the section. -/
def variantsFault (bs : List Byte) (b : SpanBuild) (vs : List Variant) (l : Lacing) (codeLens : List Nat) : Option Nat :=
  let before (i : Nat) : List Variant := vs.take i
  firstOf [
    faultUnless (decide (bs.length = 32 * b.variants)) 0,
    firstRecord 0 32 vs.length (fun i => match vs[i]? with
      | none => true
      | some v =>
        !(before i).any (fun u => decide (u.id = v.id ∨ u.kind = v.kind ∧ u.size = v.size)) &&
        v.rsvOk && decide (v.id ≤ 63 ∧ 0 < v.lengthJs ∧ v.lengthJs % 4096 = 0 ∧ v.peakW ≤ 900) &&
        (match v.kind with
         | 1 => [512, 2048, 8192].contains v.size
         | 2 => [8, 16, 32, 64, 128, 256].contains v.size
         | _ => false) &&
        codeLens.all (fun n => decide (v.entry < n)) && laceEntryOk l v),
    faultUnless (vs.any (fun v => decide (v.kind = 2))) 0]

/-- The region of a physical tile (R29). -/
def tileRegion (t : Nat) : Nat := 4 * (t / 12 / 3) + t % 12 / 3

/-- The declared latency of a hop from region a to region b, by R123's numbering; 1 inside a region (R63). -/
def hopLatency (xlat : List Nat) (a b : Nat) : Nat :=
  if a = b then 1
  else if b = a + 1 then xlat.getD (4 * a) 0
  else if a = b + 1 then xlat.getD (4 * a + 1) 0
  else if b = a + 4 then xlat.getD (4 * a + 2) 0
  else xlat.getD (4 * a + 3) 0

/-- The tiles of a walk of `k` hops from t by `step` (a signed step on row-major tile numbers). -/
def walk : Nat → Nat → Int → List Nat
  | 0, t, _ => [t]
  | k + 1, t, step => t :: walk k ((t : Int) + step).toNat step

/-- R63: the physical route, along the row and then the column. -/
def meshRoute (src dst : Nat) : List Nat :=
  let c := src % 12
  let c' := dst % 12
  let r := src / 12
  let r' := dst / 12
  let row := if c ≤ c' then walk (c' - c) src 1 else walk (c - c') src (-1)
  let turn := 12 * r + c'
  row.dropLast ++ (if r ≤ r' then walk (r' - r) turn 12 else walk (r - r') turn (-12))

def routeLatency (xlat : List Nat) : List Nat → Nat
  | a :: b :: rest => hopLatency xlat (tileRegion a) (tileRegion b) + routeLatency xlat (b :: rest)
  | _ => 0

/-- R63: when a transfer lands in full, from its release. -/
def meshLatency (xlat : List Nat) (src dst bytes : Nat) : Nat :=
  routeLatency xlat (meshRoute src dst) + (ceilDiv bytes 256 - 1)

/-- All actions of a schedule. -/
def scheduleActs (s : Schedule) : List TileAction := s.variants.flatMap (·.actions)

/-- Where a loader check points: a section's type and instance, and an offset in the section. -/
structure LoadPlace where
  type : Nat
  inst : Nat
  offset : Nat
  deriving DecidableEq, Repr

/-- The instruction of an action, in its tile code section. -/
def actPlace (a : TileAction) : LoadPlace := ⟨1, a.tile, a.offset⟩

/-- Check 13, task lists (R86, R87). -/
def taskFault (s : Schedule) : Option LoadPlace :=
  ((scheduleActs s).find? (fun a => match a.act with | .task t => !taskLegal t | _ => false)).map actPlace

/-- Does [o, o + n) meet the first w bytes? -/
def meetsWeights (w : Nat) (r : Nat × Nat) : Bool := decide (0 < r.2 ∧ r.1 < w)

/-- A relocation symbol (R132). -/
structure Symbol where
  type : Nat
  index : Nat
  rsvOk : Bool
  deriving DecidableEq, Repr

/-- A patch entry (R133). -/
structure Patch where
  sect : Nat
  width : Nat
  bit : Nat
  byte : Nat
  symbol : Nat
  addend : Int
  rsvOk : Bool
  deriving DecidableEq, Repr

def parseSymbols (bs : List Byte) : List Symbol :=
  (List.range (bs.length / 8)).map (fun i =>
    let o := 8 * i
    ⟨(byteAt bs o).toNat, leAt bs (o + 2) 2, decide (byteAt bs (o + 1) = 0#8) && zeroAt bs (o + 4) 4⟩)

def parsePatches (bs : List Byte) : List Patch :=
  (List.range (bs.length / 16)).map (fun i =>
    let o := 16 * i
    ⟨leAt bs o 2, (byteAt bs (o + 2)).toNat, (byteAt bs (o + 3)).toNat, leAt bs (o + 4) 4, leAt bs (o + 8) 2,
     signedOf 32 (leAt bs (o + 12) 4), zeroAt bs (o + 10) 2⟩)

/-- The bases a placement gives; none where no placement fits (R513). -/
structure Bases where
  insole : Option Nat
  hbm : Option Nat
  tack : Option Nat
  deriving DecidableEq, Repr

/-- Table 6.8: the value of a symbol; none where it depends on an allocation that has no placement. -/
def symbolValue (a : Arrangement) (lchip : Nat) (tileMap : List Nat) (b : Bases) (s : Symbol) : Option Nat :=
  let me := a.chips.getD lchip ⟨⟨0, 0, 0⟩, [], []⟩
  match s.type with
  | 1 => some ((a.chips.getD s.index ⟨⟨0, 0, 0⟩, [], []⟩).coord.field)
  | 2 => some (tileMap.getD s.index 0)
  | 3 => b.hbm
  | 4 => b.insole
  | 5 => b.tack
  | 6 => some (me.eyelets.getD s.index 0)
  | _ => some (match s.index with | 0 => a.dateline.x | 1 => a.dateline.y | _ => a.dateline.z)

def symbolOk (a : Arrangement) (ltiles : Nat) (s : Symbol) : Bool :=
  s.rsvOk && (match s.type with
    | 1 => decide (s.index < a.chips.length)
    | 2 => decide (s.index < ltiles)
    | 3 => decide (s.index = 0)
    | 4 => decide (s.index = 0)
    | 5 => decide (s.index = 0)
    | 6 => decide (s.index < 16)
    | 7 => decide (s.index < 3)
    | _ => false)

/-- R133: write v into WIDTH bits from bit BIT of byte BYTE. -/
def applyPatchBytes (p : Patch) (v : Nat) (bs : List Byte) : List Byte :=
  let k := ceilDiv (p.bit + p.width) 8
  let old := leAt bs p.byte k
  let mask := (2 ^ p.width - 1) <<< p.bit
  let new := (old ^^^ (old &&& mask)) ||| (v <<< p.bit)
  overlay bs p.byte (leBytes k new)

def patchesMeet (p q : Patch) : Bool :=
  decide (p.sect = q.sect ∧ 8 * p.byte + p.bit < 8 * q.byte + q.bit + q.width ∧ 8 * q.byte + q.bit < 8 * p.byte + p.bit + p.width)

/-- R133, R134: a patch's own rules. -/
def patchOk (img : Img) (span lchip : Nat) (syms : List Symbol) (value : Symbol → Option Nat) (p : Patch) : Bool :=
  match (dirEntries img)[p.sect]?, syms[p.symbol]? with
  | some e, some s =>
    p.rsvOk && decide (1 ≤ p.width ∧ p.width ≤ 64 ∧ p.bit ≤ 7 ∧ 1 ≤ e.type ∧ e.type ≤ 3 ∧ e.span = span ∧
      8 * p.byte + p.bit + p.width ≤ 8 * e.length) &&
    (!readsSection span lchip e ||
      (match value s with
       | none => true
       | some v => decide (0 ≤ (v : Int) + p.addend ∧ (v : Int) + p.addend < (2 ^ p.width : Nat))))
  | _, _ => false

/-- Check 15 (R132 to R134): where in the relocation table or the patch list. -/
def patchFault (img : Img) (span lchip ltiles : Nat) (a : Arrangement) (symBytes patchBytes : List Byte)
    (value : Symbol → Option Nat) : Option LoadPlace :=
  let syms := parseSymbols symBytes
  let ps := parsePatches patchBytes
  match firstOf [faultUnless (decide (symBytes.length % 8 = 0)) 0,
      firstRecord 0 8 syms.length (fun i => (syms[i]?).all (symbolOk a ltiles))] with
  | some o => some ⟨7, 0xFFFF, o⟩
  | none =>
    (firstOf [faultUnless (decide (patchBytes.length % 16 = 0)) 0,
      firstRecord 0 16 ps.length (fun i => (ps[i]?).all (patchOk img span lchip syms value)),
      firstRecord 0 16 ps.length (fun i => (ps[i]?).all (fun p => !(ps.take i).any (patchesMeet p)))]).map
      (fun o => ⟨8, 0xFFFF, o⟩)

/-- A section's loaded copy: its bytes with its patches applied. -/
def patchedSection (img : Img) (type span inst : Nat) (syms : List Symbol) (ps : List Patch)
    (value : Symbol → Option Nat) : List Byte :=
  match findSection img type span inst with
  | none => []
  | some (n, e) =>
    (ps.filter (fun p => decide (p.sect = n))).foldl (fun bs p =>
      applyPatchBytes p (((((syms[p.symbol]?).bind value).getD 0 : Nat) : Int) + p.addend).toNat bs) (sectionBytes img e)

/-- R129: bytes of an extent. -/
def extentBytes (x : Extent) : Nat := x.blocks * (if x.w4 then 2304 else 4352)
def blobBytes (xs : List Extent) : Nat := (xs.map extentBytes).sum

/-- R129: the manifest, slice by slice; or the offset in the section of what breaks its format. -/
def parseManifest (bs : List Byte) (L : Nat) : Except Nat (List (List Extent)) :=
  let k := (bs.length - 8 * L) / 16
  let ext (i : Nat) : Extent := ⟨decide (byteAt bs (8 * L + 16 * i + 2) = 1#8), leAt bs (8 * L + 16 * i + 8) 4⟩
  match firstOf [
    faultUnless (decide (8 * L ≤ bs.length ∧ (bs.length - 8 * L) % 16 = 0)) 0,
    firstRecord 0 8 L (fun s => decide (leAt bs (8 * s) 4 + leAt bs (8 * s + 4) 4 ≤ k)),
    firstRecord (8 * L) 16 k (fun i => decide ((byteAt bs (8 * L + 16 * i + 2)).toNat ≤ 1) &&
      zeroAt bs (8 * L + 16 * i + 3) 1 && zeroAt bs (8 * L + 16 * i + 12) 4)] with
  | some o => .error o
  | none => .ok ((List.range L).map (fun s => (List.range (leAt bs (8 * s + 4) 4)).map (fun j => ext (leAt bs (8 * s) 4 + j))))

def parsePlacement (bs : List Byte) : List (Placement × Bool) :=
  (List.range (bs.length / 16)).map (fun i =>
    let o := 16 * i
    (⟨leAt bs o 2, (byteAt bs (o + 2)).toNat, leAt bs (o + 4) 4, leAt bs (o + 8) 4, leAt bs (o + 12) 4⟩,
     decide (byteAt bs (o + 3) = 0#8)))

/-- How far the bytes from p are covered, by `fuel` extensions. -/
def coverTo (ps : List Placement) : Nat → Nat → Nat
  | 0, p => p
  | fuel + 1, p =>
    let q := ps.foldl (fun m e => if e.blobOffset ≤ p ∧ m < e.blobOffset + e.length then e.blobOffset + e.length else m) p
    if q = p then p else coverTo ps fuel q

def placementsMeet (p q : Placement) : Bool :=
  decide (p.ltile = q.ltile ∧ 0 < p.length ∧ 0 < q.length ∧ p.tileOffset < q.tileOffset + q.length ∧
    q.tileOffset < p.tileOffset + p.length)

/-- Check 16 (R130) against the blobs of the chip's own slices: the offset in the section. -/
def placementFault (bs : List Byte) (b : SpanBuild) (span : Nat) (blobLens : List Nat) : Option Nat :=
  let ps := parsePlacement bs
  let es := ps.map (·.1)
  firstOf [
    faultUnless (decide (bs.length % 16 = 0)) 0,
    firstRecord 0 16 ps.length (fun i => match ps[i]? with
      | none => true
      | some (e, rsv) =>
        rsv && decide (e.slot < 2 ^ span ∧ e.ltile < b.ltiles ∧ e.blobOffset % 64 = 0 ∧ e.length % 64 = 0 ∧
          e.tileOffset % 64 = 0 ∧ e.tileOffset + e.length ≤ b.weightBytes ∧
          e.blobOffset + e.length ≤ blobLens.getD e.slot 0) && !(es.take i).any (placementsMeet e)),
    faultUnless ((blobLens.mapIdx (fun s n =>
      decide (n ≤ coverTo (es.filter (fun e => decide (e.slot = s))) (es.length + 1) 0))).all id) 0]

/-- The lowest position, a multiple of `step` and at or after `p`, at which n are free below `limit` (R513): past each
interval in the way, at most once an interval. -/
def lowestFit (used : List (Nat × Nat)) (step limit n : Nat) : Nat → Nat → Option Nat
  | 0, _ => none
  | fuel + 1, p =>
    match used.find? (fun u => decide (0 < u.2 ∧ u.1 < p + n ∧ p < u.1 + u.2)) with
    | none => if p + n ≤ limit then some p else none
    | some u => lowestFit used step limit n fuel (ceilDiv (u.1 + u.2) step * step)

/-- R513. -/
def placeAll (env : LoadEnv) (b : SpanBuild) : Bases :=
  ⟨lowestFit env.insoleUsed 64 16777216 b.insoleBytes (env.insoleUsed.length + 1) 0,
   lowestFit env.hbmUsed 2048 0x2400000000 b.hbmBytes (env.hbmUsed.length + 1) 0,
   lowestFit env.tacksUsed 1 131056 b.tacks (env.tacksUsed.length + 1) 0⟩

/-- Check 20 (R138): the expectation that fails. -/
def expectFault (env : LoadEnv) (a : Arrangement) (lchip : Nat) (l : Lacing) : Option LoadPlace :=
  let me := a.chips.getD lchip ⟨⟨0, 0, 0⟩, [], []⟩
  (firstRecord 0 8 16 (fun k =>
    let p := l.expects.getD k (0xFFFF, 0)
    if p.1 = 0xFFFF then true
    else
      let i := env.partners.getD (me.eyelets.getD k 0) ⟨false, 0, 0⟩
      let other := a.chips.getD p.1 ⟨⟨0, 0, 0⟩, [], []⟩
      i.up && decide (i.coord = other.coord.field ∧ i.eyelet = other.eyelets.getD p.2 0))).map (fun o => ⟨2, lchip, o⟩)

/-- The sections and values the later checks share. -/
structure LoadCtx where
  dig : List Byte
  a : Arrangement
  b : SpanBuild
  lchip : Nat
  lacing : Lacing
  variants : List Variant
  deriving DecidableEq, Repr

def refuse (sub : Nat) (dig : List Byte) (entry : Nat := 0xFFFFFFFF) (offset : Nat := 0xFFFFFFFF) : LastRefusal :=
  ⟨sub, entry, offset, dig⟩

/-- A refusal that a section causes: its directory entry, and the byte of the image (R140). -/
def refuseAt (sub : Nat) (dig : List Byte) (img : Img) (span : Nat) (p : LoadPlace) : LastRefusal :=
  match findSection img p.type (if p.type = 5 then 0xFF else span) p.inst with
  | some (n, e) => refuse sub dig n (e.offset + p.offset)
  | none => refuse sub dig

/-- Checks 1 to 7 (Table 6.10). -/
def loadHead (env : LoadEnv) (img arr : List Byte) : Except LastRefusal LoadCtx :=
  let none32 := zeros 32
  let no := 0xFFFFFFFF
  match firstOf [faultUnless (decide (leAt img 0 4 = 0x5453414C)) 0, faultUnless (decide (leAt img 4 2 = 1)) 4] with
  | some o => .error (refuse 0x01 none32 no o)
  | none =>
  match headerFault img with
  | some o => .error (refuse 0x02 none32 no o)
  | none =>
  if env.stepping < (byteAt img 6).toNat then .error (refuse 0x08 none32 no 6)
  else
    match dirFault img with
    | some (n, o) => .error (refuse 0x03 none32 n o)
    | none =>
      let dig := lastDigest img
      if slice img (imgDigestOff img) 32 ≠ dig then .error (refuse 0x05 dig no (imgDigestOff img))
      else
        match signatureFault env img dig with
        | some (s, o) => .error (refuse s dig no o)
        | none =>
          if arrOk env img dig arr = false then .error (refuse 0x12 dig)
          else
            let a := parseArr arr
            let lchip := firstIdx (fun c => decide (c.coord = env.coord)) a.chips
            let vs := sectionOf img 4 a.span 0xFFFF
            .ok ⟨dig, a, (spanEntry img a.span).getD ⟨0, 0, 0, 0, 0, 0⟩, lchip, parseLacing (sectionOf img 2 a.span lchip),
              (List.range (vs.length / 32)).map (parseVariant vs)⟩

/-- The bytes of the lengths of the tile code sections. -/
def codeLens (img : Img) (c : LoadCtx) : List Nat :=
  (List.range c.b.ltiles).map (fun i => (sectionOf img 1 c.a.span i).length)

/-- Check 13, the weight region (R58, R514), with the insole base taken as 0: the first task, lacing row or constants record
that would write into it. -/
def weightFault (img : Img) (c : LoadCtx) (sch : Schedule) (consts : List ConstRecord) (tileMap : List Nat) : Option LoadPlace :=
  let syms := parseSymbols (sectionOf img 7 c.a.span 0xFFFF)
  let ps := parsePatches (sectionOf img 8 c.a.span 0xFFFF)
  let value := symbolValue c.a c.lchip tileMap ⟨some 0, some 0, some 0⟩
  let rows := (parseLacing (patchedSection img 2 c.a.span c.lchip syms ps value)).rows
  let task := (scheduleActs sch).find? (fun a => match a.act with
    | .task t => (outRanges t).any (meetsWeights c.b.weightBytes)
    | _ => false)
  let row := firstRecord 192 16 rows.length (fun i => (rows[i]?).all (fun r =>
    !((decide (r.action = 2) || decide (r.action = 4)) && meetsWeights c.b.weightBytes (r.addr, 240 * r.units))))
  let used := consts.map (fun r => 16 + ceilDiv r.bytes.length 64 * 64)
  let rec_ := (List.range consts.length).find? (fun i => (consts[i]?).any (fun r =>
    meetsWeights c.b.weightBytes (r.offset, r.bytes.length)))
  match task, row, rec_ with
  | some a, _, _ => some (actPlace a)
  | none, some o, _ => some ⟨2, c.lchip, o⟩
  | none, none, some i => some ⟨3, c.lchip, (used.take i).sum⟩
  | none, none, none => none

/-- Check 14 (R64). -/
def meshFault (xlat tileMap : List Nat) (sch : Schedule) : Option LoadPlace :=
  ((scheduleActs sch).find? (fun a => match a.act with
    | .mesh dst bytes lat _ _ _ => decide (lat < meshLatency xlat (tileMap.getD a.tile 0) (tileMap.getD dst 0) bytes)
    | _ => false)).map actPlace

/-- Checks 11 to 16 with their sub-codes, in order; the first that fails refuses. -/
def sectionFaults (img : Img) (sch : Schedule) (c : LoadCtx) (tiles : List Nat) (bases : Bases) (consts : List ConstRecord)
    (man : Except Nat (List (List Extent))) : List (Nat × Option LoadPlace) :=
  let xlat := (slice img 32 80).map (·.toNat)
  let m := match man with | .ok m => m | .error _ => []
  let lens := (List.range (2 ^ c.a.span)).map (fun s => blobBytes (m.getD (c.lchip * 2 ^ c.a.span + s) []))
  [(0x17, (variantsFault (sectionOf img 4 c.a.span 0xFFFF) c.b c.variants c.lacing (codeLens img c)).map (⟨4, 0xFFFF, ·⟩)),
   (0x0E, taskFault sch),
   (0x0E, weightFault img c sch consts tiles),
   (0x0D, meshFault xlat tiles sch),
   (0x15, patchFault img c.a.span c.lchip c.b.ltiles c.a (sectionOf img 7 c.a.span 0xFFFF) (sectionOf img 8 c.a.span 0xFFFF)
     (symbolValue c.a c.lchip tiles bases)),
   (0x16, match man with | .error o => some ⟨5, 0xFFFF, o⟩ | .ok _ => none),
   (0x16, (placementFault (sectionOf img 6 c.a.span 0xFFFF) c.b c.a.span lens).map (⟨6, 0xFFFF, ·⟩))]

/-- The loaded last (R141). -/
def loadedLast (img : Img) (sch : Schedule) (c : LoadCtx) (tiles : List Nat) (bases : Bases) (consts : List ConstRecord)
    (man : List (List Extent)) (ib hb tb : Nat) : LoadedLast :=
  let syms := parseSymbols (sectionOf img 7 c.a.span 0xFFFF)
  let ps := parsePatches (sectionOf img 8 c.a.span 0xFFFF)
  let value := symbolValue c.a c.lchip tiles bases
  let pcb := patchedSection img 3 c.a.span c.lchip syms ps value
  { digest := c.dig, log2L := imgLog2L img,
    retryAllow := leAt img 10 2, vocab := leAt img 148 4, context := leAt img 152 4,
    lockstepOk := bitOf (byteAt img 7).toNat 1, relaxedOk := bitOf (byteAt img 7).toNat 2,
    pinned := slice img 112 32, xlat := (slice img 32 80).map (·.toNat), span := c.a.span, build := c.b,
    variants := c.variants,
    lacing := parseLacing (patchedSection img 2 c.a.span c.lchip syms ps value),
    code := (List.range c.b.ltiles).map (fun i => patchedSection img 1 c.a.span i syms ps value),
    consts := (match parseConsts c.b.ltiles c.b.insoleBytes pcb.length 0 pcb with | .ok rs => rs | .error _ => consts),
    manifest := man, placement := (parsePlacement (sectionOf img 6 c.a.span 0xFFFF)).map (·.1), arr := c.a, lchip := c.lchip,
    tileMap := tiles, insoleBase := ib, hbmBase := hb, tackBase := tb, schedule := sch,
    slices := [], siblings := none, weightDigest := none, closed := false }

/-- Checks 8 to 20, and the loaded last (R139, R141). -/
def loadTail (env : LoadEnv) (img : Img) (sch : Schedule) (c : LoadCtx) : Except LastRefusal LoadedLast :=
  let ref (sub : Nat) : Except LastRefusal LoadedLast := .error (refuse sub c.dig)
  let refAt (sub : Nat) (p : LoadPlace) : Except LastRefusal LoadedLast := .error (refuseAt sub c.dig img c.a.span p)
  if env.enabled.length < c.b.ltiles ∨ env.enabled.length < 112 then ref 0x0A
  else
    match tileMapOf env c.b c.a c.lchip with
    | none => ref 0x0B
    | some tiles =>
      match firstRecord 32 1 80 (fun i => decide (env.xlatCal.getD i 0 ≤ (byteAt img (32 + i)).toNat)) with
      | some o => .error (refuse 0x0C c.dig 0xFFFFFFFF o)
      | none =>
      match digestFault img c.a.span c.lchip with
      | some n => .error (refuse 0x04 c.dig n (dirEntry img n).offset)
      | none =>
      match lacingFault (sectionOf img 2 c.a.span c.lchip) c.lacing c.a.chips.length c.b.ltiles c.variants with
      | some o => refAt 0x03 ⟨2, c.lchip, o⟩
      | none =>
      let cb := sectionOf img 3 c.a.span c.lchip
      match parseConsts c.b.ltiles c.b.insoleBytes cb.length 0 cb with
      | .error o => refAt 0x03 ⟨3, c.lchip, o⟩
      | .ok consts =>
        let bases := placeAll env c.b
        let man := parseManifest (sectionOf img 5 0xFF 0xFFFF) (2 ^ imgLog2L img)
        match (sectionFaults img sch c tiles bases consts man).findSome? (fun x => x.2.map (fun p => (x.1, p))), man with
        | some (sub, p), _ => refAt sub p
        | none, .error o => refAt 0x16 ⟨5, 0xFFFF, o⟩
        | none, .ok m =>
          match bases.insole, bases.hbm, bases.tack with
          | none, _, _ => ref 0x0F
          | _, none, _ => ref 0x10
          | _, _, none => ref 0x11
          | some ib, some hb, some tb =>
            match expectFault env c.a c.lchip c.lacing with
            | some p => refAt 0x13 p
            | none => .ok (loadedLast img sch c tiles bases consts m ib hb tb)

/-- R139: the loader. -/
def loadLast (env : LoadEnv) (img arr : List Byte) (sch : Schedule) : Except LastRefusal LoadedLast :=
  match loadHead env img arr with
  | .error r => .error r
  | .ok c => loadTail env img sch c

end Sys2Proof.Machine
end

