-- ==== Sys2Proof/Types/Job.lean ====
section
/-! DEFINITION. Time, regions and the job of the chip (02, 07, 09, 12, 16). -/
namespace Sys2Proof.Machine

/-- Why a region holds (R39, R49, R157, R339, R340, R383). A hold for data not there yet (R39, R155, R202) is not listed: the
region keeps its work and tries it again at each boundary. -/
inductive Hold where
  | handshake
  | margin (good : Nat)
  | throttle
  | cobbler
  | interlock (check left : Nat)
  | tackWait (tack : Nat)
  deriving DecidableEq, Repr

/-- One item of a region's scheduled work: an action of a tile, or unit `k` of a lacing row (R195, R196). -/
inductive Work where
  | act (a : TileAction)
  | depart (r : LaceRow) (k : Nat)
  | forward (r : LaceRow) (k : Nat)
  | land (r : LaceRow) (k : Nat)
  deriving DecidableEq, Repr

/-- One of the twenty clock regions (R29, R39, R46 to R49). `due` says that the work of its local JS has not begun, `todo`
is the rest of that work, and `counted` that the awl has judged the first item of `todo` already. -/
structure Region where
  js : Nat
  due : Bool
  todo : List Work
  counted : Bool
  holds : List Hold
  margin : Int
  lowMargin : Int
  warned : Bool
  temp : Int
  deriving DecidableEq, Repr

/-- The clock of the chip (02). -/
structure Clock where
  ws : Nat
  locked : Bool
  holdover : Bool
  pace : Nat
  oldPace : Nat
  slewLeft : Nat
  nextOutside : Option (Nat × Nat)
  nextInside : Option (Nat × Nat)
  armed : Option Nat
  xlat : List Nat
  regions : List Region
  deriving DecidableEq, Repr

/-- The job states of Table 16.3. -/
inductive JobState where
  | none | opened | starting | running | draining | paused | stopped
  deriving DecidableEq, Repr

/-- The JOB_STATE code of Table 16.3. -/
def JobState.code : JobState → Nat
  | .none => 0 | .opened => 1 | .starting => 2 | .running => 3 | .draining => 4 | .paused => 5 | .stopped => 6

/-- A request of the leader (R398, Table 16.8 request entries). `phase` is 1 waiting, 2 prefilling, 3 decoding; `planPos`
counts the positions written once every decided step is complete, `donePos` those written; `fetch` is the fetch it waits
for, and `planned` whether a fetch has been planned for it. -/
structure Request where
  rid : Nat
  ring : Nat
  slot : Nat
  tag : Nat
  irq : Bool
  input : List Byte
  outAddr : Nat
  outLen : Nat
  phase : Nat
  bslot : Nat
  planPos : Nat
  donePos : Nat
  tokens : List Nat
  reported : Nat
  hit : Nat
  stamp : List Byte
  keys : List (List Byte)
  fetch : Option Nat
  planned : Bool
  deriving DecidableEq, Repr

/-- The frame states of R306; an unlisted frame is FREE. -/
inductive FrameState where
  | priv (bslot page : Nat)
  | published (dirslot refs : Nat)
  | fetching (fid page : Nat)
  deriving DecidableEq, Repr

/-- One page of a fetch on this chip (R315). -/
structure FetchPage where
  page : Nat
  frame : Nat
  dirslot : Nat
  key : List Byte
  deriving DecidableEq, Repr

/-- One page's part from one peer chip: first reading (FRAME, GEN, when), bytes still to come, checked. -/
structure FetchPart where
  page : Nat
  peerChip : Nat
  entry : Option (Nat × Nat × Nat × Nat)
  left : Nat
  good : Bool
  deriving DecidableEq, Repr

/-- A fetch of this chip (R315): peer entry it started with, pages, parts, deadline, the tack value to report. -/
structure Fetch where
  fid : Nat
  peer : Nat × Nat × List Nat
  deadline : Nat
  pages : List FetchPage
  descs : List (Nat × Nat × Nat × Nat × Nat)
  parts : List FetchPart
  report : Option Nat
  reported : Bool
  deriving DecidableEq, Repr

/-- A fetch being planned by the leader for request `rid` (R314): the peer now read, the keys `h` to `cap` asked of it, its
directory (address, entries) once its descriptor is in, the keys answered, and whether the plan is made. -/
structure Plan where
  rid : Nat
  peer : Nat
  h : Nat
  cap : Nat
  dir : Option (Nat × Nat)
  found : List (Nat × Bool)
  ready : Bool
  deriving DecidableEq, Repr

/-- A prefix peer (Table 12.5): tag, span, coordinates. -/
structure Peer where
  tag : Nat
  span : Nat
  leader : Nat
  coords : List Nat
  deriving DecidableEq, Repr

/-- A READY counted by the leader (R208, R209). -/
structure ReadyMsg where
  lchip : Nat
  flags : Nat
  eyelet : Nat
  code : Nat
  lat : Nat
  deriving DecidableEq, Repr

/-- The barrier and slip side of a job (09). Tags of waiting host descriptors are (ring, slot). -/
structure Barrier where
  startDesc : Option (Nat × Nat)
  startAt : Nat
  startCode : Nat
  attempt : Nat
  offerAt : Option Nat
  offer : Option (Nat × List Byte)
  answered : Option Nat
  readies : List ReadyMsg
  delay : Nat
  startPace : Nat
  releaseAt : Option Nat
  slipHeld : List Nat
  slipMine : List Nat
  slipFrom : List (Nat × Nat)
  slipReady : List (Nat × Nat)
  slipReadySent : List Nat
  resumeAt : Option (Nat × Nat)
  resumed : List (Nat × Nat)
  pauseFrom : Option Nat
  stops : List (Nat × Nat × Nat)
  deriving DecidableEq, Repr

/-- What the awl counts (07): queue occupancies by physical tile or pseudo-channel, the JS to which each matrix engine is
taken, mesh links taken by (link, JS), the packets of each tile's service injection queue, its posts of this slip
interval and those that wait for the next (R149), the departures of each eyelet in this window (R151), the checks
already said in this step, and whether check 0x11 is being waited out (R516). -/
structure Awl where
  tileInput : List (Nat × Nat)
  vectorQ : List (Nat × Nat)
  hbmQ : List (Nat × Nat)
  matBusy : List (Nat × Nat)
  links : List (Nat × Nat)
  posts : List (Nat × Nat)
  postCount : List (Nat × Nat)
  laterPosts : List (Nat × Nat × PostSpec)
  departs : List (Nat × Nat)
  said : List Nat
  residue : Bool
  deriving DecidableEq, Repr

/-- A mesh transfer on its way (R64): the tile and local JS that released it, where it lands, and the wall stitch. -/
structure Arrival where
  fromTile : Nat
  js : Nat
  tile : Nat
  addr : Nat
  bytes : List Byte
  ws : Nat
  deriving DecidableEq, Repr

/-- What a region does later in its own JS: a task's outputs (R99), the completion of an HBM request (R296). -/
inductive Later where
  | write (tile addr : Nat) (bytes : List Byte)
  | hbmRead (channel hbmAddr bytes tile toAddr : Nat)
  | hbmWrite (channel hbmAddr bytes tile fromAddr : Nat)
  deriving DecidableEq, Repr

/-- A JOB_CHECKPOINT that waits for its image to be written (R403). -/
structure Ckpt where
  ring : Nat
  slot : Nat
  addr : Nat
  len : Nat
  skive : Bool
  deriving DecidableEq, Repr

/-- The open job of the chip (16). `boundary` is the step boundary at which the running step began, `released` the last slip
point that has been released: regions run up to the next one and wait there (R41). `running` and `decided` are the requests
of the running and of the decided step, with their positions after it; `fullPages` the pages, by request, that the step
just ended has completed; `later` lists (region, JS, what); `slipTotal` counts the slip stitches up to the anchor and
`slipSeen` those up to the last slip point released; `endingSlots` the batch slots whose RELEASE is due;
`imaged` bounds the request numbers that the last checkpoint image holds. -/
structure Job where
  tag : Nat
  relaxed : Bool
  frames : Nat
  sliceBytes : Nat
  fetchTimeout : Nat
  last : List Byte
  state : JobState
  before : JobState
  drain : Bool
  boundary : Nat
  nextBoundary : Nat
  released : Nat
  variant : Nat
  stepCount : Nat
  decisions : Nat
  anchorWs : Nat
  anchorJs : Nat
  slipTotal : Nat
  slipSeen : Nat
  choice : Nat
  interlocks : List Nat
  faultSaid : Bool
  barrier : Barrier
  awl : Awl
  requests : List Request
  running : List (Nat × Nat)
  decided : List (Nat × Nat)
  fullPages : List (Nat × Nat)
  arrivals : List Arrival
  later : List (Nat × Nat × Later)
  endingSlots : List Nat
  frameStates : List (Nat × FrameState)
  fetches : List Fetch
  peers : List Peer
  nextPeers : Option (List Peer)
  plans : List Plan
  nextRid : Nat
  imaged : Nat
  drainDescs : List (Nat × Nat)
  ckptDescs : List Ckpt
  pauseOrdered : Bool
  block : List Byte
  energy : Int
  since : Nat
  deriving DecidableEq, Repr

end Sys2Proof.Machine
end

