-- ==== Sys2Proof/Types/Mem.lean ====
section
/-! DEFINITION. The memories of the chip and their health (03, 12, 15.8, 19). A memory is a list of (address, byte) pairs
in one canonical form: addresses strictly rising, and no byte equal to 0, which is what an unlisted address reads as
(12 R289, 19 R512). -/
namespace Sys2Proof.Machine

/-- A byte memory. -/
abbrev Memory := List Host.Cell

/-- The health record of one physical tile (Table 19.4, R470). `state` is 0 ENABLED, 1 SPARE, 2 RETIRED, 3 FACTORY_OFF. -/
structure TileHealth where
  state : Nat
  candidate : Bool
  pending : Bool
  corrected : Nat
  uncorrectable : Nat
  wsChange : Nat
  causes : List Nat
  correctedAt : List Nat
  deriving DecidableEq, Repr

/-- One entry of the HBM retirement map (Table 19.5, R294, R295). `kind` 1 remapped, 2 excluded, 3 candidate. -/
structure RetireEntry where
  addr : Nat
  kind : Nat
  spare : Nat
  corrected : Nat
  deriving DecidableEq, Repr

/-- The memories. `insole` is keyed tile * 2^24 + address; `insoleBad` lists 64-bit insole words (key / 8) and `hbmBad`
HBM words (address / 32) marked uncorrectable (R61, R291). -/
structure Mem where
  insole : Memory
  hbm : Memory
  tacks : List (Nat × Word)
  tackWaits : List (Nat × List (Nat × Nat))
  insoleBad : List Nat
  hbmBad : List Nat
  tiles : List TileHealth
  retired : List RetireEntry
  pageCorrected : List (Nat × Nat × List Nat)
  copying : List (Nat × Nat × Nat × Nat)
  deriving DecidableEq, Repr

end Sys2Proof.Machine
end

