-- ==== Sys2Proof/Types/Link.lean ====
section
/-! DEFINITION. What one eyelet holds (09, 10, 20 Table 20.7). Times are in 1/16 ns (log entry 2). Link items are raw
bytes: 32 for a mini-unit, 256 for a welt unit. -/
namespace Sys2Proof.Machine

/-- The states of Table 10.4. -/
inductive LinkState where
  | held | detect | equalise | lock | exchange | credit | up | down | relay
  deriving DecidableEq, Repr

/-- The STATE code of Table 20.7. -/
def LinkState.code : LinkState → Nat
  | .held => 0 | .detect => 1 | .equalise => 2 | .lock => 3 | .exchange => 4
  | .credit => 5 | .up => 6 | .down => 7 | .relay => 8

/-- One service-plane unit inside the chip (R235, R259), with the header of its packet. `ingress` is the eyelet it came
in on (16: injected here, 17: the turn buffer) and `kind` the credit it was sent against: 0 to 3 the reserve of its VC,
4 shared, 5 none. `len` is LEN. -/
structure SvcUnit where
  first : Bool
  last : Bool
  trunc : Bool
  len : Nat
  payload : List Byte
  ingress : Nat
  kind : Nat
  hdr : List Byte
  deriving DecidableEq, Repr

/-- The route of a packet in progress (R274): its egress eyelet (16 here, 17 turn buffer, 18 multicast buffer,
19 discarded), the VC there and the header it goes on with. -/
structure SvcRoute where
  egress : Nat
  vc : Nat
  hdr : List Byte
  deriving DecidableEq, Repr

/-- A unit of the replay buffer (R239, R243): its bytes as first sent, how often and when last sent; for a service unit
the VC and the unit itself (R252). -/
structure ReplayUnit where
  seq : Nat
  bytes : List Byte
  sends : Nat
  sentAt : Nat
  svc : Option (Nat × SvcUnit)
  deriving DecidableEq, Repr

/-- A tongue mini-unit not yet acknowledged (R249). -/
structure TongueUnit where
  tseq : Nat
  bytes : List Byte
  sends : Nat
  sentAt : Nat
  deriving DecidableEq, Repr

/-- A scheduled departure queued at an eyelet (R187, R194, R195): its slot JS, and its payload once ready. -/
structure SchedUnit where
  lace : Nat
  unit : Nat
  dep : Nat
  late : Bool
  payload : Option (List Byte)
  deriving DecidableEq, Repr

/-- A unit of the landing buffer (R196, R197): `uses` counts the deliveries and forwarded copies made of it so far. -/
structure Landed where
  lace : Nat
  unit : Nat
  dep : Nat
  uses : Nat
  payload : List Byte
  deriving DecidableEq, Repr

/-- A partner's CREDIT_INIT (R246): reserves of Q0, Q1, P0, P1, the shared pool and the tongue pool. -/
structure Advert where
  res : List Nat
  shared : Nat
  tongue : Nat
  deriving DecidableEq, Repr

/-- An OFFER group in assembly (R251): the OFFER item and the DATA of its parts so far. -/
structure OfferAsm where
  item : List Byte
  parts : List (List Byte)
  deriving DecidableEq, Repr

/-- One eyelet. `credits`, `returnable`, `returned`, `gotBack`, `leaks` hold six counts each: Q0, Q1, P0, P1, shared,
tongue (R244 to R248). -/
structure Eyelet where
  state : LinkState
  -- training (R227 to R231)
  lanes : List Nat
  slow : Bool
  slowNext : Bool
  widthCap : Nat
  speedPin : Bool
  laneRetire : Nat
  laneOk : Nat
  bridgePeer : Option Nat
  overClass : Bool
  partnerActive : Bool
  partnerLocked : Bool
  hopLocked : Bool
  restarts : List Nat
  backoff : Nat
  upAt : Nat
  trainFailAt : Option Nat
  -- exchange (R232, R233)
  identityOk : Bool
  identitySent : Bool
  partnerCoord : Nat
  partnerEyelet : Nat
  partnerValid : Bool
  partnerRxNext : Option Nat
  probesSent : Nat
  probesAnswered : List Nat
  latMax : Nat
  hopLat : Nat
  -- codewords and counters (R223 to R225, Table 20.7)
  badRun : Nat
  partialItem : List Byte
  rxItems : List (List Byte)
  violations : Nat
  trainings : Nat
  uncorrected : Nat
  resends : Nat
  -- sequence and replay (R238 to R243)
  sendSeq : Nat
  replay : List ReplayUnit
  ackAdvanceAt : Nat
  expect : Nat
  reorder : List (Nat × List Byte)
  nakAt : List (Nat × Nat)
  rangeNakAt : Option Nat
  unechoed : Nat
  resendQ : List Nat
  -- credits (R244 to R248)
  advert : Advert
  credits : List Nat
  occupied : List Nat
  returnable : List Nat
  returned : List (Nat × List Nat)
  gotBack : List Nat
  leaks : List Nat
  -- tongue (R249 to R251)
  tSend : Nat
  tUnacked : List TongueUnit
  tExpect : Nat
  tResendQ : List Nat
  offerAsm : Option OfferAsm
  -- transmit queues (R188, R241)
  txTongue : List (List Byte)
  txCtl : List (List Byte)
  ackDue : Bool
  txSched : List SchedUnit
  txResume : List (Nat × SvcUnit)
  txSvc : List (List SvcUnit)
  -- landing (R196 to R202)
  landing : List Landed
  lateSaid : Bool
  -- service units received and not yet routed, and the route of the packet in progress, per VC
  rxSvc : List (List SvcUnit)
  routes : List (Option SvcRoute)
  -- link down (R253 to R255), violations (R256, R258)
  graceUntil : Option Nat
  violTimes : List Nat
  out : List (List Byte)
  deriving DecidableEq, Repr

end Sys2Proof.Machine
end

