-- ==== Sys2Proof/Types/Service.lean ====
section
/-! DEFINITION. What the service plane of the chip holds (11, 12.9, 15.5.3, 19 R482). -/
namespace Sys2Proof.Machine

/-- Who injected a packet (R271): one tile, one ring, or the chip itself. -/
inductive Owner where
  | tile (ptile : Nat) | ring (r : Nat) | chip
  deriving DecidableEq, Repr

/-- What ends with a transaction (R268, R330, R376, R400, R314, R315). -/
inductive OnDone where
  | post (ptile dataAddr resultAddr : Nat) (tack : Option Nat)
  | piece (ring slot index : Nat)
  | stepBlock (k mask : Nat)
  | mailbox
  | planDesc (rid peer : Nat)
  | planDir (rid peer key : Nat)
  | fetchDesc (fid peerChip : Nat)
  | fetchDir (fid page peerChip : Nat)
  | fetchData (fid page peerChip offset : Nat)
  | fetchCheck (fid page peerChip : Nat)
  | fetchTack (fid : Nat)
  deriving DecidableEq, Repr

/-- An outstanding transaction (R267 to R269, R281). Destinations are linear indices; `waiting` are those unanswered,
`answers` the status and sub-code of the others, `unsure` those of R255. -/
structure Txn where
  id : Nat
  owner : Owner
  deadline : Nat
  spread : Bool
  mcast : Bool
  read : Bool
  waiting : List Nat
  answers : List (Nat × Nat × Nat)
  unsure : List Nat
  arg : Nat
  data : List Byte
  onDone : OnDone
  deriving DecidableEq, Repr

/-- What a request header is built from. -/
structure Hdr where
  op : Nat
  spread : Bool
  valiant : Bool
  fence : Bool
  skive : Bool
  mcast : Nat
  dest : Nat
  jobTag : Nat
  target : Nat
  tile : Nat
  addr : Nat
  length : Nat
  arg : Nat
  mask : Nat
  deriving DecidableEq, Repr

/-- A request that waits for a free transaction (R267). -/
structure WaitReq where
  owner : Owner
  hdr : Hdr
  data : List Byte
  onDone : OnDone
  deriving DecidableEq, Repr

/-- A packet (R259): its 240-byte header and its payload. -/
structure Pkt where
  hdr : List Byte
  data : List Byte
  deriving DecidableEq, Repr

/-- A packet waiting to be injected by this chip, in injection order (R271, R282). -/
structure Inject where
  owner : Owner
  pkt : Pkt
  deriving DecidableEq, Repr

/-- A packet being received whole: at its target, for the turn buffer or for the multicast buffer (R275, R280). -/
structure Assembly where
  ingress : Nat
  vc : Nat
  pkt : Pkt
  deriving DecidableEq, Repr

/-- A whole packet waiting to be performed here, by the eyelet (16: own) and VC it came in on. -/
structure LocalPkt where
  ingress : Nat
  vc : Nat
  pkt : Pkt
  deriving DecidableEq, Repr

/-- The answer of one piece of a host transfer: status and sub-code, the data read, and for a multicast the destinations
not done and unconfirmed (R376, R377). -/
structure Piece where
  status : Option (Nat × Nat)
  data : List Byte
  undelivered : List Nat
  unsure : List Nat
  deriving DecidableEq, Repr

/-- A host transfer in progress (R375 to R377): where its host data goes, and the answers of its pieces. -/
structure Xfer where
  ring : Nat
  slot : Nat
  xop : Nat
  length : Nat
  hostAddr : Nat
  skiveOut : Bool
  mcast : Bool
  dests : List Nat
  reportAddr : Nat
  arg : Nat
  pieces : List Piece
  deriving DecidableEq, Repr

/-- A routing table bank (R272): dateline, the sixteen eyelet bytes, the entries (ORD, ESC, SPREAD). -/
structure RouteTable where
  shape : List Nat
  dateline : List Nat
  eyelets : List Nat
  entries : List (Nat × Nat × Nat)
  deriving DecidableEq, Repr

/-- The service plane. `asm` holds packets in assembly, `here` whole packets for this chip, `turn` the turn buffer of 64
units, `blocked` the 34 blocked counts of R286. -/
structure Svc where
  txns : List Txn
  nextTxn : Nat
  waiting : List WaitReq
  timedOut : List (Nat × Nat)
  inject : List Inject
  asm : List Assembly
  here : List LocalPkt
  turn : List Pkt
  xfers : List Xfer
  banks : List (Option RouteTable)
  activeBank : Nat
  handledAt : List (Option Nat)
  blocked : List Nat
  movedNow : List Nat
  recentMap : List Byte
  previousMap : List Byte
  floodSeen : List ((Nat × Nat × Nat × Nat) × Nat)
  foreignAt : Option Nat
  deriving DecidableEq, Repr

end Sys2Proof.Machine
end

