-- ==== Sys2Proof/Types/Sled.lean ====
section
/-! DEFINITION. The Cobbler of the sled and its acoustic monitor (17, 18, 19.5). Voltages are in 10 mV, temperatures in
0.1 C, flow in 0.01 L/min, times in 1/16 ns. -/
namespace Sys2Proof.Machine

/-- What the Cobbler sends to the J12 at a sled position (17.7): each order has a row of its own on the chip's side. -/
inductive CobOrder where
  | hold | release
  | caps (power pace : Nat)
  | powerStop
  | wake (source : Nat)
  | coolant (inlet : Int) (flow : Nat)
  | event (entry : List Byte)
  deriving DecidableEq, Repr

/-- What leaves the sled's management port: a message to the source `src` of a request, to the address of the last
IDENTIFY, or to all nodes (R438 to R440). -/
inductive ApbelDest where
  | source (src : Nat) | manager | allNodes
  deriving DecidableEq, Repr

/-- The power of one sled position (R415, R416, R424). `rail` is the highest order of Table 17.1 that is good: 1 with
only the shared VAUX_33, 8 with the reference enabled. -/
structure ChipPower where
  rail : Nat
  starting : Bool
  stopAt : Option Nat
  deriving DecidableEq, Repr

/-- The cell module (17.4). -/
structure Cell where
  present : Bool
  isolated : Bool
  volts : Nat
  farads : Nat
  ready : Bool
  charging : Bool
  deriving DecidableEq, Repr

/-- A kept reply (R439). -/
structure KeptReply where
  seq : Nat
  at_ : Nat
  bytes : List Byte
  deriving DecidableEq, Repr

/-- An EVENT message not yet acknowledged (R440). -/
structure SledEvent where
  seq : Nat
  entry : List Byte
  sentAt : Nat
  deriving DecidableEq, Repr

/-- A wake order whose answers are awaited (R408, R466): its origin (none: the pod manager's request), the chips, the
answers so far. -/
structure WakeWait where
  request : Option (Nat × Nat)
  origin : Nat
  chips : Nat
  answers : List (Option Nat)
  deriving DecidableEq, Repr

/-- One of the four records that the Cobbler keeps of a J12 (R477). -/
inductive ChipRecord where
  | tiles (xs : List TileHealth)
  | map (xs : List RetireEntry)
  | masks (xs : List Nat)
  | faults (xs : List (List Byte))
  deriving DecidableEq, Repr

/-- A record in sled flash: the chip's serial, the record's number (0 tile health, 1 HBM retirement map, 2 lane masks,
3 fault records), its two copies and which is the newer (R477). -/
structure FlashRecord where
  serial : List Byte
  kind : Nat
  copies : List (Option ChipRecord)
  newest : Nat
  deriving DecidableEq, Repr

/-- The Cobbler. `logged` counts the bytes written to the sled log partition, `logToday` those since `logDay` (R484).
`lastCache` holds last images by last digest, `checkpoints` checkpoint metadata by JOB_TAG and JS (R433; log entry 83). -/
structure Cobbler where
  seated : Bool
  precharged : Bool
  booted : Bool
  vaux : Bool
  mainPresent : Bool
  mainVolts : Nat
  onCell : Bool
  rideFrom : Nat
  latched : Bool
  commitAt : Option Nat
  stopped : Nat
  cell : Cell
  chips : List ChipPower
  powerWhenReady : Bool
  checking : Bool
  inlet : Int
  outlet : Int
  flow : Nat
  wet : Nat
  conditions : List Nat
  valvesOpen : Bool
  leakLatched : Bool
  setCaps : List (Nat × Nat)
  sentCaps : List (Nat × Nat)
  pmHold : List Bool
  released : List Nat
  coords : List (Option Nat)
  shape : List Nat
  images : List (List Byte)
  versions : List Nat
  running : Nat
  newFrom : Option Nat
  restarting : Bool
  address : List Byte
  identified : Bool
  serial : List Byte
  replies : List KeptReply
  wakes : List WakeWait
  events : List SledEvent
  nextSeq : Nat
  sledLog : List (List Byte)
  logged : Nat
  logDay : Nat
  logToday : Nat
  badMessages : Nat
  swapLamp : Bool
  flash : List FlashRecord
  lastCache : List (List Byte × List Byte)
  checkpoints : List (Nat × Nat × List Byte)
  deriving DecidableEq, Repr

/-- A CONFIGURE body (Table 18.8). -/
structure MonCfg where
  rate : Nat
  active : Bool
  autoActive : Bool
  energyEn : Bool
  sigEn : Bool
  energyWake : Bool
  channels : Nat
  featureCh : Nat
  gainShift : Nat
  holdBlocks : Nat
  threshold : Int
  attack : Int
  decay : Int
  wakeChips : Nat
  deriving DecidableEq, Repr

/-- One microphone's channel (R454 to R461, R468). Levels are in 1/64 dB; `clips` holds the clipped samples of the frames of
the last second, with the end of each frame. -/
structure MonChan where
  gain : Nat
  delay : Int
  calValid : Bool
  invalid : Nat
  fault : Bool
  floor : Option Int
  level : Option Int
  armed : Bool
  loudRun : Nat
  disarmedAt : Nat
  clips : List (Nat × Nat)
  deriving DecidableEq, Repr

/-- A committed template (R464). -/
structure MonTemplate where
  n : Nat
  cls : Nat
  levelFree : Bool
  threshold : Nat
  chips : Nat
  bytes : List Nat
  deriving DecidableEq, Repr

/-- One template slot: the data held, the template in force, the one that replaces it at the next vector, the running
costs in 1/1600 of a 0.5 dB unit (`none` stands for plus infinity), the end of the refractory time, the last distance. -/
structure MonSlot where
  held : List Byte
  tmpl : Option MonTemplate
  next : Option MonTemplate
  costs : List (Option Nat)
  quietUntil : Nat
  lastDist : Option Nat
  deriving DecidableEq, Repr

/-- The states of Table 18.6. -/
inductive MonState where
  | off | settling | listening | active
  deriving DecidableEq, Repr

/-- The acoustic monitor (18). -/
structure Monitor where
  state : MonState
  auto : Bool
  autoSince : Nat
  cfg : MonCfg
  clockActive : Bool
  wantActive : Option Bool
  pendingCfg : Option MonCfg
  pendingCal : List (Nat × Nat × Int)
  stored : MonCfg
  gen : Nat
  chans : List MonChan
  featInvalid : Nat
  slots : List MonSlot
  quiet : Bool
  stream : Option Nat
  frameSeq : Nat
  sampleIndex : Nat
  frameAt : Nat
  rates : List (Nat × Nat × Nat)
  deriving DecidableEq, Repr

end Sys2Proof.Machine
end

