-- ==== Sys2Proof/Machine/State.lean ====
section
/-! DEFINITION. The state of the block: one J12 at a sled position, the Cobbler and the acoustic monitor of its sled, the
records of what left them, and the queue of commands (INVENTORY.md lists each piece with its rule). -/
namespace Sys2Proof.Machine

/-- No command of the table stops the block: the manual turns every error into a state, a status or an event
(19 Table 19.2). Nothing raises a fault. -/
inductive Fault where
  deriving DecidableEq, Repr

/-- The reasons a command can have no meaning here. -/
inductive Refusal where
  /-- A row of the table that this model does not give a meaning yet; raised by Dispatch only. Safe. -/
  | notModelled (mnemonic : String)
  deriving DecidableEq, Repr

/-- The device states of Table 16.1. -/
inductive DevState where
  | off | cold | setup | ready | loaded | running | draining | held | faulted | idleLp
  deriving DecidableEq, Repr

/-- The code QUERY reports (Table 16.1); OFF has none. -/
def DevState.code : DevState → Nat
  | .off => 0 | .cold => 1 | .setup => 2 | .ready => 3 | .loaded => 4 | .running => 5
  | .draining => 6 | .held => 7 | .faulted => 8 | .idleLp => 9

/-- The device and its identity (16, 20 Table 20.3). `under` is the state kept under HELD and IDLE_LP, `wakes` counts the
wake orders that await PM_PME, `warm` says that COLD was entered by a conventional reset. -/
structure Dev where
  state : DevState
  under : DevState
  calFault : Bool
  held : Bool
  stopOrdered : Option Nat
  wakes : Nat
  grade : Nat
  serial : List Byte
  fwVersion : Nat
  coord : Nat
  coordValid : Bool
  shape : List Nat
  warm : Bool
  deriving DecidableEq, Repr

/-- The state. `now` counts 1/16 ns (log entry 2); `freeCtr` numbers free values (log entry 11) and no rule reads it. -/
structure State where
  now : Nat
  freeCtr : Nat
  position : Nat
  dev : Dev
  clk : Clock
  regs : Regs
  host : HostIf
  eyelets : List Eyelet
  svc : Svc
  mem : Mem
  lasts : List LoadedLast
  keys : List (Option LastKey)
  job : Option Job
  heel : Heel
  shank : ShankState
  held : List (Nat × Instr)
  ready : List Instr
  cob : Cobbler
  cobOut : List (Nat × CobOrder)
  apbelOut : List (ApbelDest × List Byte)
  mon : Monitor
  pending : List Instr
  deriving DecidableEq, Repr

/-- A ring after reset: disabled, positions (0, 0) (15 R364, R366). -/
def Ring.fresh : Ring :=
  { c := 0, g := 0, w := 0, gw := 0, q := 0, gq := 0, started := false, reading := [], running := [], held := [],
    qcause := 0, drops := 0, firstDrop := 0, overrun := false, captured := none, applyErr := false, applyCause := 0 }

/-- A vector after reset: masked, nothing pending (log entry 10, PRESUMED). -/
def Vector.fresh : Vector := { addr := 0, data := 0, masked := true, pba := false, count := 0, since := 0, urgent := false }

/-- The set-up registers at their "At reset" values (20). -/
def Regs.fresh : Regs :=
  { modStaged := List.replicate 32 0, modActive := List.replicate 32 0, modStatus := ⟨false, 0⟩,
    dbBase := 0, dbCtl := 20, dbActiveBase := 0, dbActiveCtl := 20, dbCaptured := none, dbStatus := ⟨false, 0⟩,
    ringStaged := List.replicate 512 0, ringActive := List.replicate 512 0, ringSel := 0,
    paceStaged := 24, paceActive := 24, paceStatus := ⟨false, 0⟩,
    marginStaged := 0x0208, marginActive := 0x0208, marginCaptured := none, marginStatus := ⟨false, 0⟩,
    complTimeout := 2000, graceMs := List.replicate 16 50, debugLock := false, policyLock := false,
    requireSigned := false, latched := [], congSnap := none, recentSnap := [] }

/-- The host interface after a cold start (15, 20; log entries 6 and 10). -/
def HostIf.fresh : HostIf :=
  { busMaster := false, d3hot := false, pmeEn := false, pmeStatus := false, dbOutstanding := false, dbDue := false,
    rings := List.replicate 64 Ring.fresh, vectors := List.replicate 32 Vector.fresh, heldWrites := [], out := [],
    rates := [], nextSeq := 0, eventLog := [], faultLog := [], faultIndex := 0, lastFault := zeros 64, faultTotal := 0,
    recent := List.replicate 32 (zeros 64), recentHead := 0 }

/-- A region after reset: JS 0, no hold, nothing measured (20 Table 20.9). -/
def Region.fresh : Region := { js := 0, due := false, todo := [], counted := false, holds := [], margin := 0, lowMargin := 127, warned := false, temp := 0 }

/-- The clock right after the generators lock: wall stitch 0, pace code 0 (R26); crossings at 6 st (log entry 7). -/
def Clock.fresh : Clock :=
  { ws := 0, locked := true, holdover := false, pace := 0, oldPace := 0, slewLeft := 0, nextOutside := none,
    nextInside := none, armed := none, xlat := List.replicate 80 6, regions := List.replicate 20 Region.fresh }

/-- An eyelet at cold start: HELD (R228), every count 0 (Table 20.7). -/
def Eyelet.fresh : Eyelet :=
  { state := .held, lanes := [], slow := false, slowNext := false, widthCap := 8, speedPin := false, laneRetire := 0,
    laneOk := 0, bridgePeer := none, overClass := false, partnerActive := false, partnerLocked := false, hopLocked := false, restarts := [],
    backoff := 1, upAt := 0, trainFailAt := none, identityOk := false, identitySent := false, partnerCoord := 0,
    partnerEyelet := 0, partnerValid := false, partnerRxNext := none, probesSent := 0, probesAnswered := [], latMax := 0,
    hopLat := 0, badRun := 0, partialItem := [], rxItems := [], violations := 0, trainings := 0,
    uncorrected := 0, resends := 0, sendSeq := 0, replay := [], ackAdvanceAt := 0, expect := 0, reorder := [],
    nakAt := [], rangeNakAt := none, unechoed := 0, resendQ := [], advert := ⟨[0, 0, 0, 0], 0, 0⟩,
    credits := [0, 0, 0, 0, 0, 0], occupied := [0, 0, 0, 0, 0, 0], returnable := [0, 0, 0, 0, 0, 0], returned := [],
    gotBack := [0, 0, 0, 0, 0, 0], leaks := [0, 0, 0, 0, 0, 0], tSend := 0, tUnacked := [], tExpect := 0,
    tResendQ := [], offerAsm := none, txTongue := [], txCtl := [], ackDue := false, txSched := [],
    txResume := [], txSvc := [[], [], [], []], landing := [], lateSaid := false,
    rxSvc := [[], [], [], []], routes := [none, none, none, none], graceUntil := none, violTimes := [], out := [] }

/-- A congestion map before the first window completes (Table 11.8). -/
def freshMap : List Byte := List.replicate 8 0xFF ++ zeros 56

/-- The service plane with nothing in flight and both banks empty. -/
def Svc.fresh : Svc :=
  { txns := [], nextTxn := 0, waiting := [], timedOut := [], inject := [], asm := [], here := [], turn := [],
    xfers := [], banks := [none, none], activeBank := 0, handledAt := [none, none], blocked := List.replicate 34 0,
    movedNow := [], recentMap := freshMap, previousMap := freshMap, floodSeen := [], foreignAt := none }

/-- The health of tile `t` from the factory (log entry 8): tiles 0 to 127 enabled, the others spare. -/
def TileHealth.factory (t : Nat) : TileHealth :=
  { state := if t < 128 then 0 else 1, candidate := false, pending := false, corrected := 0, uncorrectable := 0,
    wsChange := 0, causes := [], correctedAt := [] }

/-- The memories after COLD: every byte 0 (R512), no tack set (R382), nothing retired. -/
def Mem.fresh : Mem :=
  { insole := [], hbm := [], tacks := [], tackWaits := [], insoleBad := [], hbmBad := [],
    tiles := (List.range 144).map TileHealth.factory, retired := [], pageCorrected := [],
    copying := [] }

/-- The heel at reset (Tables 13.3 and 20.9; coolant by log entry 10). -/
def Heel.fresh : Heel :=
  { periods := 0, rails := [140, 140, 140, 140], proposal := 0, grant := 0, fallback := false,
    throttle := false, coolPeriods := 0, powerW := 780, thermal := 95, prefillRun := 1, paceMax := 24, powerCap := 900,
    paceCap := 32, orders := [], inlet := 250, flow := 1200, stale := false, mail := [], jobGrant := 0, jobCap := 0,
    cMins := [], paceWish := none }

/-- The shank with empty slots and no batch. -/
def ShankState.fresh : ShankState :=
  { slots := List.replicate 16 none, loading := [], batch := none, rotation := 63 }

/-- The device right after COLD (16 Table 16.2, 20 Table 20.3; grade, serial and firmware by log entry 9). -/
def Dev.fresh : Dev :=
  { state := .setup, under := .setup, calFault := false, held := false, stopOrdered := none, wakes := 0,
    grade := 0, serial := [1, 0, 0, 0, 0, 0, 0, 0], fwVersion := 1, coord := 0, coordValid := false, shape := [0, 0, 0],
    warm := false }

/-- The Cobbler of a sled that has been inserted, checked and powered (log entries 6 and 10). -/
def Cobbler.fresh : Cobbler :=
  { seated := true, precharged := true, booted := true, vaux := true, mainPresent := true, mainVolts := 5400,
    onCell := false, rideFrom := 0, latched := false, commitAt := none, stopped := 0,
    cell := { present := true, isolated := false, volts := 5000, farads := 400, ready := true, charging := false },
    chips := List.replicate 4 { rail := 8, starting := false, stopAt := none }, powerWhenReady := false,
    checking := false, inlet := 250, outlet := 320, flow := 1200, wet := 0, conditions := [], valvesOpen := true,
    leakLatched := false, setCaps := List.replicate 4 (900, 32), sentCaps := List.replicate 4 (900, 32),
    pmHold := List.replicate 4 false, released := List.replicate 4 0, coords := List.replicate 4 none,
    shape := [0, 0, 0], images := [[], []], versions := [1, 1], running := 0, newFrom := none, restarting := false,
    address := zeros 16, identified := false, serial := zeros 16, replies := [], wakes := [], events := [],
    nextSeq := 0, sledLog := [], logged := 0, logDay := 0, logToday := 0, badMessages := 0, swapLamp := false, flash := [], lastCache := [], checkpoints := [] }

/-- The configuration of Table 18.8 at reset. -/
def MonCfg.fresh : MonCfg :=
  { rate := 3, active := false, autoActive := false, energyEn := true, sigEn := true, energyWake := false,
    channels := 0xF, featureCh := 1, gainShift := 0, holdBlocks := 3, threshold := 768, attack := 4, decay := 64,
    wakeChips := 0xF }

/-- A microphone's channel at start (18; calibration by log entry 10). -/
def MonChan.fresh : MonChan :=
  { gain := 0x8000, delay := 0, calValid := true, invalid := 0, fault := false, floor := none, level := none,
    armed := true, loudRun := 0, disarmedAt := 0, clips := [] }

/-- An empty template slot. -/
def MonSlot.fresh : MonSlot :=
  { held := [], tmpl := none, next := none, costs := [], quietUntil := 0, lastDist := none }

/-- The monitor of a sled whose start has settled (log entry 6). -/
def Monitor.fresh : Monitor :=
  { state := .listening, auto := false, autoSince := 0, cfg := MonCfg.fresh, clockActive := false, wantActive := none,
    pendingCfg := none, pendingCal := [], stored := MonCfg.fresh, gen := 0, chans := List.replicate 4 MonChan.fresh,
    featInvalid := 0, slots := List.replicate 8 MonSlot.fresh, quiet := false, stream := none, frameSeq := 0,
    sampleIndex := 0, frameAt := 0, rates := [] }

/-- The block right after reset: the chip has left COLD and stands in SETUP (16 Table 16.2), with every register at its
"At reset" value, memories 0, eyelets HELD and no command waiting (log entry 6). -/
def State.reset : State :=
  { now := 0, freeCtr := 0, position := 0, dev := Dev.fresh, clk := Clock.fresh, regs := Regs.fresh,
    host := HostIf.fresh, eyelets := List.replicate 16 Eyelet.fresh, svc := Svc.fresh, mem := Mem.fresh, lasts := [],
    keys := List.replicate 4 none, job := none, heel := Heel.fresh, shank := ShankState.fresh, held := [], ready := [],
    cob := Cobbler.fresh, cobOut := [], apbelOut := [], mon := Monitor.fresh, pending := [] }

end Sys2Proof.Machine
end

