-- ==== Sys2Proof/Machine/Ops.lean ====
section
/-! DEFINITION. The named operations over memories, tacks, positions, completions, events and interrupts that every
family shares (03, 12, 15). -/
namespace Sys2Proof.Machine

/-! ### Byte memories -/

/-- The byte at an address; an unlisted address reads 0 (12 R289, 19 R512). -/
def memGet : Memory → Nat → Byte
  | [], _ => 0
  | (k, b) :: r, a => if k = a then b else if a < k then 0 else memGet r a

/-- Write one byte, keeping the canonical form. -/
def memPut : Memory → Nat → Byte → Memory
  | [], a, b => if b = 0 then [] else [(a, b)]
  | (k, v) :: r, a, b =>
    if a < k then (if b = 0 then (k, v) :: r else (a, b) :: (k, v) :: r)
    else if a = k then (if b = 0 then r else (a, b) :: r)
    else (k, v) :: memPut r a b

/-- `n` bytes from an address. -/
def memRead (m : Memory) (a n : Nat) : List Byte := (List.range n).map (fun i => memGet m (a + i))

/-- Write bytes from an address. -/
def memWrite : Memory → Nat → List Byte → Memory
  | m, _, [] => m
  | m, a, b :: bs => memWrite (memPut m a b) (a + 1) bs

/-- The canonical form: addresses strictly rising from `lo`, no byte 0. -/
def memWfFrom : Nat → Memory → Bool
  | _, [] => true
  | lo, (k, b) :: r => decide (lo ≤ k) && decide (b ≠ 0) && memWfFrom (k + 1) r

/-- The canonical form of a memory. -/
def Memory.wf (m : Memory) : Bool := memWfFrom 0 m

/-- The key of a tile's insole byte (03 R55). -/
def insoleKey (tile a : Nat) : Nat := tile * 2 ^ 24 + a

/-- Bytes of a tile's insole. -/
def insoleRead (s : State) (tile a n : Nat) : List Byte := memRead s.mem.insole (insoleKey tile a) n

/-- A write of a whole 64-bit word clears its uncorrectable mark; a part of one leaves it (R56, R61). -/
def insoleWrite (s : State) (tile a : Nat) (bs : List Byte) : State :=
  let k := insoleKey tile a
  { s with
    mem.insole := memWrite s.mem.insole k bs
    mem.insoleBad := s.mem.insoleBad.filter (fun g => ! decide (k ≤ 8 * g ∧ 8 * g + 8 ≤ k + bs.length)) }

/-- Bytes of HBM. -/
def hbmRead (s : State) (a n : Nat) : List Byte := memRead s.mem.hbm a n

/-- A write of a whole 32-byte word clears its mark; a part of one leaves it (R291). -/
def hbmWrite (s : State) (a : Nat) (bs : List Byte) : State :=
  { s with
    mem.hbm := memWrite s.mem.hbm a bs
    mem.hbmBad := s.mem.hbmBad.filter (fun w => ! decide (a ≤ 32 * w ∧ 32 * w + 32 ≤ a + bs.length)) }

/-- The lowest marked HBM word in a range (R293). -/
def hbmBadIn (s : State) (a n : Nat) : Option Nat :=
  (s.mem.hbmBad.filter (fun w => decide (32 * w < a + n ∧ a < 32 * w + 32))).min?

/-- The lowest marked insole word in a range (R61). -/
def insoleBadIn (s : State) (tile a n : Nat) : Option Nat :=
  (s.mem.insoleBad.filter (fun g => decide (8 * g < insoleKey tile a + n ∧ insoleKey tile a < 8 * g + 8))).min?

/-- The end of the HBM address space (R289). -/
def hbmEnd : Nat := 0x2400000000
/-- The number of tacks (R382). -/
def tackCount : Nat := 131072

/-! ### Rings and vectors -/

/-- The active attributes of ring `r` (Table 20.5). -/
structure RingAttr where
  sqBase : Nat
  cqBase : Nat
  type : Nat
  sqLog : Nat
  cqLog : Nat
  vector : Nat
  classes : Nat
  deriving DecidableEq, Repr

/-- The attributes that the eight words of a ring table entry hold. -/
def ringAttr (ws : List Word) : RingAttr :=
  let w (i : Nat) : Nat := (ws.getD i 0).toNat
  { sqBase := w 0 + 2 ^ 32 * w 1, cqBase := w 2 + 2 ^ 32 * w 3, type := bitsOf (w 4) 0 3, sqLog := bitsOf (w 4) 8 4,
    cqLog := bitsOf (w 4) 16 4, vector := bitsOf (w 4) 24 5, classes := bitsOf (w 5) 0 8 }

/-- The eight words of entry `r` of a ring table copy. -/
def ringEntry (tbl : List Word) (r : Nat) : List Word := (tbl.drop (8 * r)).take 8

/-- The active attributes of ring `r`. -/
def State.attr (s : State) (r : Nat) : RingAttr := ringAttr (ringEntry s.regs.ringActive r)

/-- The running part of ring `r`. -/
def State.ring (s : State) (r : Nat) : Ring := s.host.rings.getD r Ring.fresh

/-- Change the running part of ring `r`. -/
def setRing (s : State) (r : Nat) (f : Ring → Ring) : State := { s with host.rings := mapAt s.host.rings r f }

/-- Host writes are held while Bus Master Enable is 0 (R358) and in D3hot (16.1). -/
def hostClosed (s : State) : Bool := !s.host.busMaster || s.host.d3hot

/-- The occupancy of a ring by R364's formulas, position (p, g) behind (c, g'): `none` where they are inconsistent. -/
def occupied (size p g c gc : Nat) : Option Nat :=
  if g = gc then (if c ≤ p ∧ p < size then some (p - c) else none)
  else if p ≤ c then some (size - c + p) else none

/-- Free entries of ring `r`'s completion or event ring, against the CQ_CONS last judged (R364). -/
def freeSpace (s : State) (r : Nat) : Nat :=
  let x := s.ring r
  let size := 2 ^ (s.attr r).cqLog
  size - (occupied size x.w x.gw x.q x.gq).getD 0

/-- Put a host access on the way, or hold it (R358). Writes go in requests of at most 512 B (R359). -/
def hostPut (s : State) (xs : List HostOut) : State :=
  if hostClosed s then { s with host.heldWrites := s.host.heldWrites ++ xs } else { s with host.out := s.host.out ++ xs }

/-- Write a data buffer in host memory. -/
def hostWrite (s : State) (addr : Nat) (bs : List Byte) : State :=
  hostPut s ((chunks 512 bs).mapIdx (fun i c => .write (addr + 512 * i) c))

/-- MOD_COUNT of vector `v` (R499). -/
def modCount (s : State) (v : Nat) : Nat := bitsOf (s.regs.modActive.getD v 0).toNat 0 8 + 1
/-- MOD_TIME of vector `v` in 1/16 ns (R499). -/
def modTime (s : State) (v : Nat) : Nat := 4 * bitsOf (s.regs.modActive.getD v 0).toNat 8 8 * 16000

/-- Whether a vector's message is due (R385). -/
def vectorDue (s : State) (v : Nat) (x : Vector) : Bool :=
  decide (0 < x.count) && (x.urgent || decide (modCount s v ≤ x.count) || decide (x.since + modTime s v ≤ s.now))

/-- Send vector `v`'s message where it is due; a masked vector sets its pending bit (R385). -/
def vectorCheck (s : State) (v : Nat) : State :=
  match s.host.vectors[v]? with
  | none => s
  | some x =>
    if vectorDue s v x then
      if x.masked || hostClosed s then { s with host.vectors := setAt s.host.vectors v { x with pba := true } }
      else
        { s with
          host.vectors := setAt s.host.vectors v { x with pba := false, count := 0, urgent := false }
          host.out := s.host.out ++ [.msix v] }
    else s

/-- Count one written entry against a vector (R385). -/
def vectorNote (s : State) (v : Nat) (urgent : Bool) : State :=
  match s.host.vectors[v]? with
  | none => s
  | some x =>
    let x' := { x with count := x.count + 1, since := if x.count = 0 then s.now else x.since,
                       urgent := x.urgent || urgent }
    vectorCheck { s with host.vectors := setAt s.host.vectors v x' } v

/-- Advance the write position of ring `r` by one entry (R364). -/
def advanceW (size : Nat) (x : Ring) : Ring :=
  if x.w + 1 = size then { x with w := 0, gw := 1 - x.gw } else { x with w := x.w + 1 }

/-- Write one 64-byte entry at ring `r`'s write position, its PHASE in byte 2 bit 0 (R378). -/
def putEntry (s : State) (r : Nat) (e : List Byte) : State :=
  let x := s.ring r
  let a := s.attr r
  let e' := overlay e 2 [byteOf ((byteAt e 2).toNat / 2 * 2 + (1 - x.gw))]
  setRing { s with host.out := s.host.out ++ [.write (a.cqBase + 64 * x.w) e'] } r (advanceW (2 ^ a.cqLog))

/-! ### Tacks (R382, R383) -/

/-- The value of a tack. -/
def tackGet (s : State) (t : Nat) : Word := (assoc t s.mem.tacks).getD 0

/-- Set a tack; a tack at 0 is not listed. -/
def tackSet (s : State) (t : Nat) (v : Word) : State :=
  { s with mem.tacks := if v = 0 then assocErase t s.mem.tacks else assocSet t v s.mem.tacks }

/-- The wait list of a tack, oldest first. An entry is (0, 65536 × ring + slot) for a descriptor and (1, region) for tile code. -/
def tackWaiters (s : State) (t : Nat) : List (Nat × Nat) := (assoc t s.mem.tackWaits).getD []

/-- Set a wait list; an empty one is not listed. -/
def setWaiters (s : State) (t : Nat) (ws : List (Nat × Nat)) : State :=
  { s with mem.tackWaits := if ws.isEmpty then assocErase t s.mem.tackWaits else assocSet t ws s.mem.tackWaits }

/-- A wait that has ended: the descriptor may start, or the region goes on (R383). -/
def releaseWait (s : State) (t : Nat) (w : Nat × Nat) : State :=
  if w.1 = 0 then
    let s := setRing s (w.2 / 65536) (fun x =>
      { x with running := x.running.map (fun o => if o.slot = w.2 % 65536 ∧ o.phase = 0 then { o with phase := 1 } else o) })
    { s with
      ready := s.ready ++ (s.held.filter (fun h => decide (h.1 = w.2))).map (·.2)
      held := s.held.filter (fun h => decide (h.1 ≠ w.2)) }
  else
    { s with clk.regions := mapAt s.clk.regions w.2 (fun g => { g with holds := without (.tackWait t) g.holds }) }

/-- Release waits from the head of the list while the value is not 0 (R382). -/
def releaseWaits (t : Nat) : Nat → State → State
  | 0, s => s
  | fuel + 1, s =>
    match tackWaiters s t with
    | [] => s
    | w :: ws =>
      if tackGet s t = 0 then s
      else releaseWaits t fuel (releaseWait (setWaiters (tackSet s t (tackGet s t - 1)) t ws) t w)

/-- add(a) (R382). -/
def tackAdd (s : State) (t : Nat) (a : Word) : State :=
  let s := tackSet s t (tackGet s t + a)
  releaseWaits t (tackWaiters s t).length s

/-- signal (R382). -/
abbrev tackSignal (s : State) (t : Nat) : State := tackAdd s t 1

/-- Place a wait: `true` where it completes at once, else it joins the list (R382). -/
def tackWait (s : State) (t : Nat) (w : Nat × Nat) : State × Bool :=
  if tackGet s t ≠ 0 then (tackSet s t (tackGet s t - 1), true) else (setWaiters s t (tackWaiters s t ++ [w]), false)

/-! ### Completions (15.6) -/

/-- The 64 bytes of a completion entry, its PHASE left 0 (Table 15.6). -/
def Cpl.bytes (c : Cpl) : List Byte :=
  [byteOf c.status, byteOf c.sub, byteOf (2 * bit01 c.final + c.flags), byteOf c.opcode] ++ leBytes 2 c.index
    ++ leBytes 2 c.tag ++ padTo 56 c.result

/-- The final completion of a descriptor has been written, or cannot be: the descriptor has ended (R366, R388). -/
def endOutst (s : State) (r : Nat) (c : Cpl) : State :=
  if c.final && c.answers then
    let s := setRing s r (fun x => { x with running := x.running.filter (fun o => decide (o.slot ≠ c.index)) })
    match c.signal with
    | some t => tackSignal s t
    | none => s
  else s

/-- Whether a completion can be written into ring `r` now (R358, R366, R388). -/
def canWrite (s : State) (r : Nat) : Bool :=
  (s.ring r).started && !hostClosed s && decide (0 < freeSpace s r)

/-- A quarantine of cause 0x03 to 0x05 writes no completion (R388). -/
def mute (s : State) (r : Nat) : Bool := decide (3 ≤ (s.ring r).qcause)

/-- Write one completion entry. -/
def writeCpl (s : State) (r : Nat) (c : Cpl) : State :=
  endOutst (vectorNote (putEntry s r c.bytes) (s.attr r).vector (c.irq || !c.answers)) r c

/-- Merge a later report of a request into the one held (R379). -/
def mergeCpl (old new : Cpl) : Cpl :=
  { new with result := overlay new.result 4 (leBytes 2 (leAt old.result 4 2 + leAt new.result 4 2)) }

/-- Hold a completion until space frees; a request keeps one (R379). -/
def holdCpl (x : Ring) (c : Cpl) : Ring :=
  if c.opcode = 0x80 ∧ x.held.any (fun h => decide (h.opcode = 0x80 ∧ h.index = c.index ∧ h.answers)) then
    { x with held := x.held.map (fun h => if h.opcode = 0x80 ∧ h.index = c.index ∧ h.answers then mergeCpl h c else h) }
  else { x with held := x.held ++ [c] }

/-- Write a completion, hold it, or drop it with its ring (R378, R379, R388). -/
def postCpl (s : State) (r : Nat) (c : Cpl) : State :=
  if mute s r then endOutst s r c
  else if canWrite s r && (s.ring r).held.isEmpty then writeCpl s r c
  else setRing s r (holdCpl · c)

/-- The outstanding descriptor of a slot. -/
def outstOf (s : State) (r slot : Nat) : Option Outst := (s.ring r).running.find? (fun o => decide (o.slot = slot))

/-- Complete the descriptor of a slot with FINAL = 1; a REQ that ends here ends with END = 3 (Table 15.7). -/
def complete (s : State) (r slot status sub : Nat) (result : List Byte := []) (flags : Nat := 0) : State :=
  match outstOf s r slot with
  | none => s
  | some o =>
    let c : Cpl := { status := status, sub := sub, final := true, flags := flags, opcode := o.opcode, index := slot,
                     tag := o.tag, result := if o.opcode = 0x80 ∧ result.isEmpty then zeros 7 ++ [3] else result,
                     irq := o.irq, answers := true, signal := o.signal }
    postCpl s r c

/-! ### Events (R380, R381, R387) -/

/-- The 64-byte entries of an event record: one, or two for a payload of 96 bytes (Table 15.9). -/
def eventEntries (e : Event) : List (List Byte) :=
  let two := decide (48 < e.payload.length)
  let entry (part : Nat) (more : Bool) : List Byte :=
    leBytes 2 e.code ++ [byteOf (2 * bit01 more), byteOf part] ++ leBytes 4 e.seq ++ leBytes 8 e.ws
      ++ padTo 48 (e.payload.drop (48 * part))
  if two then [entry 0 true, entry 1 false] else [entry 0 false]

/-- The entries of an EVT_OVERRUN for ring `r` (R380). -/
def overrunEvent (s : State) (x : Ring) : Event :=
  { code := 0x1040, seq := x.firstDrop, ws := s.clk.ws, payload := leBytes 8 x.drops ++ leBytes 8 x.firstDrop }

/-- Write consecutive entries into an event ring and count them against its vector. -/
def putRecord (s : State) (r : Nat) (es : List (List Byte)) (urgent : Bool) : State :=
  es.foldl (fun s e => vectorNote (putEntry s r e) (s.attr r).vector urgent) s

/-- Whether an event ring can take `n` entries now. -/
def evtRoom (s : State) (r n : Nat) : Bool :=
  (s.ring r).started && decide ((s.ring r).qcause = 0) && !hostClosed s && decide (n ≤ freeSpace s r)

/-- Deliver an event to event ring `r`: written whole, behind a pending EVT_OVERRUN, or dropped and counted (R380). -/
def deliverEvent (e : Event) (urgent : Bool) (s : State) (r : Nat) : State :=
  let a := s.attr r
  if a.type = 5 ∧ bitOf a.classes (e.code / 0x1000) then
    let es := eventEntries e
    let x := s.ring r
    if evtRoom s r (es.length + bit01 x.overrun) then
      let s := if x.overrun then
          setRing (putRecord s r (eventEntries (overrunEvent s x)) false) r
            (fun x => { x with overrun := false, drops := 0, firstDrop := 0 })
        else s
      putRecord s r es urgent
    else
      setRing s r (fun x =>
        { x with drops := min (x.drops + 1) 0xFFFFFFFF, firstDrop := if x.overrun then x.firstDrop else e.seq,
                 overrun := true })
  else s

/-- Enter an event in the logs and deliver it to every event ring that selects its class (R380, R510). -/
def recordRaw (s : State) (code : Nat) (payload : List Byte) (urgent : Bool) : State :=
  let e : Event := { code, seq := s.host.nextSeq, ws := s.clk.ws, payload }
  let recent := (eventEntries e).foldl (fun (p : List (List Byte) × Nat) x => (setAt p.1 p.2 x, (p.2 + 1) % 32))
    (s.host.recent, s.host.recentHead)
  let s := { s with
    host.nextSeq := (s.host.nextSeq + 1) % 2 ^ 32
    host.eventLog := (s.host.eventLog ++ [e]).drop (s.host.eventLog.length + 1 - 65536)
    host.recent := recent.1
    host.recentHead := recent.2 }
  (List.range 64).foldl (deliverEvent e urgent) s

/-- Record an event with its payload values, one 8-byte slot each (R381). -/
def event (s : State) (code : Nat) (slots : List Nat := []) : State :=
  recordRaw s code (padTo 48 (slots.flatMap (leBytes 8))) false

/-- The record of a rate-limited event: last time written and occurrences since. -/
def rateOf (s : State) (key : Nat × Nat) : Option Rate := s.host.rates.find? (fun x => decide (x.key = key))

/-- Replace the rate record of a key. -/
def setRate (s : State) (x : Rate) : State :=
  { s with host.rates := s.host.rates.filter (fun y => decide (y.key ≠ x.key)) ++ [x] }

/-- Record an event at most once per `period` for a key; `slots` is given the occurrences since the last record, this
one included (R387, R292). -/
def eventLimited (s : State) (code sub period : Nat) (slots : Nat → List Nat) : State :=
  match rateOf s (code, sub) with
  | some x =>
    if s.now < x.last + period then setRate s { x with count := x.count + 1 }
    else event (setRate s { key := (code, sub), last := s.now, count := 0 }) code (slots (x.count + 1))
  | none => event (setRate s { key := (code, sub), last := s.now, count := 0 }) code (slots 1)

/-- One millisecond in 1/16 ns (log entry 2). -/
def msTicks : Nat := 16000000
/-- One nanosecond. -/
def nsTicks : Nat := 16

/-- DESCRIPTOR_REFUSED for the descriptor of a slot (R387). -/
def noteRefusal (s : State) (r slot status sub : Nat) : State :=
  eventLimited s 0x1010 r msTicks (fun n => [r, slot, status, sub, n])

/-- Complete the descriptor of a slot with BAD_DESCRIPTOR or BAD_STATE, and record it (R387). -/
def refuseSlot (s : State) (r slot status sub : Nat) (result : List Byte := []) : State :=
  complete (noteRefusal s r slot status sub) r slot status sub result

/-- A signed payload value as an 8-byte slot (R381, two's complement). -/
def slotOf (i : Int) : Nat := fieldOf 64 i

/-- A fresh free value (log entry 11). -/
def freshFree (s : State) (k : Nat) : Nat := Config.free s.freeCtr k

/-- The counter moves past the values used. -/
def bumpFree (s : State) : State := { s with freeCtr := s.freeCtr + 1 }

/-! ### Shared orders -/

/-- A pace ordered outside a job: it takes effect at the second WS multiple of 65,536 from now; a later order replaces the
code and keeps the boundary (R38). -/
def orderPace (s : State) (code : Nat) : State :=
  match s.clk.nextOutside with
  | some (_, b) => { s with clk.nextOutside := some (code, b) }
  | none =>
    if code = s.clk.pace then s else { s with clk.nextOutside := some (code, (s.clk.ws / 65536 + 2) * 65536) }

/-- The pace outside a job (R334): the lesser of PACE_TARGET and the chip's own proposal. -/
def outsidePace (s : State) : Nat := min s.regs.paceActive s.heel.proposal

/-- The pace outside a job, and code 0 in IDLE_LP where no wake has begun (R334, R407, R408). -/
def restPace (s : State) : Nat := if s.dev.state = .idleLp ∧ s.dev.wakes = 0 then 0 else outsidePace s

/-- Whether BAR0 answers: the chip has power and has left COLD (19 R486). -/
def barAlive (s : State) : Bool := decide (s.dev.state ≠ .off ∧ s.dev.state ≠ .cold)

/-- Issue a doorbell read, or note that one is due (R367). -/
def issuePoll (s : State) : State :=
  if s.host.dbOutstanding then { s with host.dbDue := true }
  else { s with host.dbOutstanding := true, host.dbDue := false,
                host.out := s.host.out ++ [.read s.regs.dbActiveBase 512] }

/-- DB_ENABLE of the active doorbell block (Table 20.4). -/
def dbEnabled (s : State) : Bool := bitOf s.regs.dbActiveCtl.toNat 8

/-- The device leaves SETUP once the doorbell block polls and Bus Master Enable is 1 (Table 16.2). -/
def leaveSetup (s : State) : State :=
  if dbEnabled s && s.host.busMaster then
    match s.dev.state with
    | .setup => { s with dev.state := .ready }
    | _ => s
  else s

/-- Write the completions of ring `r` that space allows, oldest first (R379). -/
def drainRing (r : Nat) : Nat → State → State
  | 0, s => s
  | fuel + 1, s =>
    match (s.ring r).held with
    | [] => s
    | c :: rest =>
      if canWrite s r then drainRing r fuel (writeCpl (setRing s r (fun x => { x with held := rest })) r c) else s

/-- Everything held for the host goes out, tokens before completions (R358, 15.12.8). -/
def reopenHost (s : State) : State :=
  if hostClosed s then s
  else
    let s := { s with host.out := s.host.out ++ s.host.heldWrites, host.heldWrites := [] }
    let s := (List.range 64).foldl (fun s r => drainRing r (s.ring r).held.length s) s
    (List.range 32).foldl vectorCheck s

end Sys2Proof.Machine
end

