-- ==== Sys2Proof/Machine/Bar0.lean ====
section
/-! DEFINITION. What a read of BAR0 returns (20): every register's present value, word by word, and the latches and
snapshots of R490, R509 and R510. -/
namespace Sys2Proof.Machine

/-- The number of ENABLED tiles (R66, R69). -/
def enabledTiles (s : State) : List Nat := (List.range 144).filter (fun t => decide ((s.mem.tiles.getD t (TileHealth.factory 143)).state = 0))

/-- The number of SPARE tiles. -/
def spareTiles (s : State) : List Nat := (List.range 144).filter (fun t => decide ((s.mem.tiles.getD t (TileHealth.factory 0)).state = 1))

/-- A list of Booleans as a bit mask, bit 0 first. -/
def maskOf (bs : List Bool) : Nat := bs.foldr (fun b n => bit01 b + 2 * n) 0

/-- The chip's JS: the lowest local JS of its regions (2.3). -/
def lowJs (s : State) : Nat := ((s.clk.regions.map (·.js)).min?).getD 0

/-- The lag of the chip since its anchor (9.6.1); none while the job does not step. -/
def lag (s : State) (j : Job) : Nat :=
  if j.state = .running ∨ j.state = .draining then (s.clk.ws - j.anchorWs) - (lowJs s - j.anchorJs) else 0

/-- The slip-total counter (R32). -/
def slipTotal (s : State) (j : Job) : Nat := j.slipTotal + lag s j

/-- Blocks excluded, block 9,215 not counted (R295). -/
def excludedBlocks (s : State) : List Nat := (s.mem.retired.filter (fun e => decide (e.kind = 2))).map (fun e => e.addr / 2 ^ 24)

/-- The effective power budget (R327). -/
def effPower (s : State) : Nat := min s.heel.powerW s.heel.powerCap
/-- The effective pace limit (R327). -/
def effPace (s : State) : Nat := min s.heel.paceMax s.heel.paceCap

/-- Whether the job of the chip is running: STARTING, RUNNING or DRAINING (Table 16.1). -/
def jobLive (s : State) : Bool :=
  match s.job with
  | some j => decide (j.state = .starting ∨ j.state = .running ∨ j.state = .draining)
  | none => false

/-- Whether any unit of a packet of bank `b` is held on the chip (R284). -/
def bankHeld (s : State) (b : Nat) : Bool :=
  let u (x : SvcUnit) : Bool := decide (bit01 (bitOf (byteAt x.hdr 1).toNat 3) = b)
  let p (x : Pkt) : Bool := decide (bit01 (bitOf (byteAt x.hdr 1).toNat 3) = b)
  s.eyelets.any (fun e => e.txSvc.any (·.any u) || e.rxSvc.any (·.any u) || e.txResume.any (fun x => u x.2)
      || e.replay.any (fun r => match r.svc with | some v => u v.2 | none => false))
    || s.svc.asm.any (fun a => p a.pkt) || s.svc.here.any (fun a => p a.pkt) || s.svc.turn.any p

/-- Quietness of bank `b` (R284). -/
def bankQuiet (s : State) (b : Nat) : Bool :=
  !bankHeld s b && (match s.svc.handledAt.getD b none with | some t => decide (t + 10 * msTicks ≤ s.now) | none => true)

/-- The two congestion maps, recent first (R509). -/
def liveMaps (s : State) : List Byte := s.svc.recentMap ++ s.svc.previousMap

/-- The status word of a staged block (R492). -/
def statusWord (b : BlockStatus) (pending : Bool) : Nat := bit01 pending + 2 * bit01 b.err + 256 * b.cause

/-- Half `h` of a 64-bit value. -/
def half (n : Nat) (hi : Bool) : Nat := if hi then n / 2 ^ 32 % 2 ^ 32 else n % 2 ^ 32

/-- Little-endian word at offset `o` of bytes. -/
def wordIn (bs : List Byte) (o : Nat) : Nat := leAt bs o 4

/-- The identity block (Table 20.3). -/
def identityBytes (s : State) : List Byte :=
  leBytes 2 0x1F8A ++ [0, byteOf (enabledTiles s).length, byteOf s.dev.grade, byteOf (spareTiles s).length, 0, 0]
    ++ padTo 8 s.dev.serial
    ++ leBytes 20 (((enabledTiles s).map (fun t => 2 ^ t)).sum) ++ zeros 4
    ++ leBytes 4 s.dev.fwVersion ++ zeros 4
    ++ leBytes 2 (s.dev.coord % 2 ^ 14 + 2 ^ 15 * bit01 s.dev.coordValid) ++ zeros 2
    ++ (s.dev.shape.map byteOf) ++ zeros 1 ++ [byteOf s.dev.state.code]

/-- Ring control (Table 20.6), word at offset `o` from 0x1400. -/
def ringCtlWord (s : State) (o : Nat) : Nat :=
  let rs := s.host.rings
  let sel := s.ring s.regs.ringSel
  match o with
  | 0x08 => half (maskOf (rs.map (·.captured.isSome))) false
  | 0x0C => half (maskOf (rs.map (·.captured.isSome))) true
  | 0x10 => half (maskOf (rs.map (·.applyErr))) false
  | 0x14 => half (maskOf (rs.map (·.applyErr))) true
  | 0x18 => half (maskOf (rs.map (fun r => decide (r.qcause ≠ 0)))) false
  | 0x1C => half (maskOf (rs.map (fun r => decide (r.qcause ≠ 0)))) true
  | 0x60 => s.regs.ringSel
  | 0x64 => sel.drops
  | 0x68 => sel.c + 2 ^ 16 * sel.g
  | 0x6C => sel.w + 2 ^ 16 * sel.gw
  | 0x70 => sel.applyCause
  | _ => if 0x20 ≤ o ∧ o < 0x60 then wordIn (rs.map (fun r => byteOf r.qcause)) (o - 0x20) else 0

/-- EFF_WINDOW: the advertised POOL less leaked reserve and shared credits (Table 20.7). -/
def effWindow (e : Eyelet) : Nat := 512 - (e.leaks.take 5).sum

/-- An eyelet block (Table 20.7), word at offset `o`. -/
def eyeletWord (s : State) (k o : Nat) : Nat :=
  match s.eyelets[k]? with
  | none => 0
  | some e =>
    match o with
    | 0x00 => e.state.code + 16 * e.lanes.length + 256 * bit01 e.slow + 512 * bit01 e.bridgePeer.isSome
        + 1024 * bit01 e.overClass + 2048 * bit01 e.partnerActive
    | 0x04 => e.laneOk + 256 * e.laneRetire
    | 0x08 => e.partnerCoord + 2 ^ 16 * e.partnerEyelet + 2 ^ 20 * bit01 e.partnerValid
    | 0x0C => e.hopLat % 2 ^ 24
    | 0x10 => s.regs.graceMs.getD k 50
    | 0x14 => leNat ((e.leaks.take 4).map (fun n => byteOf (min n 255)))
    | 0x18 => min (e.leaks.getD 4 0) 0xFFFF + 2 ^ 16 * min (e.leaks.getD 5 0) 255
    | 0x1C => effWindow e
    | 0x20 => e.violations
    | 0x24 => e.trainings
    | 0x28 => e.uncorrected
    | 0x2C => e.resends
    | _ => 0

/-- The pace code that is armed or pending (Table 20.8). -/
def paceNext (s : State) : Option Nat :=
  match s.clk.armed with
  | some c => some c
  | none =>
    match s.clk.nextInside with
    | some (c, _) => some c
    | none => s.clk.nextOutside.map (·.1)

/-- Pace and crossings (Table 20.8), word at offset `o` from 0x4000. -/
def paceWord (s : State) (o : Nat) : Nat :=
  let slip := match s.job with | some j => slipTotal s j | none => 0
  match o with
  | 0x00 => s.regs.paceStaged
  | 0x04 => s.regs.paceActive
  | 0x0C => statusWord s.regs.paceStatus false
  | 0x10 => s.clk.pace + 256 * (paceNext s).getD 0 + 2 ^ 15 * bit01 (paceNext s).isSome
  | 0x18 => half s.clk.ws false
  | 0x1C => half s.clk.ws true
  | 0x20 => half (lowJs s) false
  | 0x24 => half (lowJs s) true
  | 0x28 => half slip false
  | 0x2C => half slip true
  | _ => if 0x40 ≤ o ∧ o < 0x90 then wordIn (s.clk.xlat.map byteOf) (o - 0x40) else 0

/-- Margin and heel (Table 20.9), word at offset `o` from 0x4100. -/
def marginWord (s : State) (o : Nat) : Nat :=
  match o with
  | 0x00 => s.regs.marginStaged.toNat % 2 ^ 16
  | 0x04 => s.regs.marginActive.toNat % 2 ^ 16
  | 0x0C => statusWord s.regs.marginStatus s.regs.marginCaptured.isSome
  | 0x10 => leNat (s.heel.rails.map byteOf)
  | 0x14 => s.heel.proposal + 256 * bit01 s.heel.throttle + 512 * bit01 s.dev.held + 1024 * bit01 s.heel.fallback
  | 0x18 => s.heel.grant % 2 ^ 32
  | 0x1C => effPower s + 2 ^ 16 * effPace s
  | _ =>
    if 0x20 ≤ o ∧ o < 0x34 then wordIn (s.clk.regions.map (fun r => byteOf (fieldOf 8 r.margin))) (o - 0x20)
    else if 0x40 ≤ o ∧ o < 0x68 then wordIn (s.clk.regions.flatMap (fun r => leBytes 2 (fieldOf 16 r.temp))) (o - 0x40)
    else 0

/-- HBM and routing (Table 20.10), word at offset `o` from 0x4200. -/
def hbmWord (s : State) (o : Nat) : Nat :=
  let count (k : Nat) : Nat := (s.mem.retired.filter (fun e => decide (e.kind = k))).length
  match o with
  | 0x00 => count 2
  | 0x04 => count 1
  | 0x08 => count 3
  | 0x10 => s.svc.activeBank + 2 * maskOf (s.svc.banks.map Option.isSome) + 8 * maskOf [bankQuiet s 0, bankQuiet s 1]
      + 32 * (if jobLive s then 2 ^ s.svc.activeBank else 0)
  | 0x20 => s.regs.complTimeout
  | _ => 0

/-- Awl (Table 20.11), word at offset `o` from 0x4300. -/
def awlWord (s : State) (o : Nat) : Nat :=
  match s.job with
  | none => if o = 0 then 0xFFFF0000 else 0
  | some j =>
    match o with
    | 0x00 => bit01 j.relaxed + 2 + 2 ^ 16 * j.tag
    | 0x08 => half j.choice false
    | 0x0C => half j.choice true
    | _ => if 0x40 ≤ o ∧ o < 0x84 then j.interlocks.getD ((o - 0x40) / 4) 0 else 0

/-- Error logs (Table 20.12), word at offset `o` from 0x5000; RECENT entries by their snapshots (R510). -/
def logWord (s : State) (o : Nat) : Nat :=
  if o < 0x40 then wordIn s.host.lastFault o
  else if o = 0x40 then s.host.faultTotal
  else if o = 0x44 then s.host.nextSeq
  else if o = 0x48 then s.host.recentHead
  else if 0x100 ≤ o ∧ o < 0x900 then
    let j := (o - 0x100) / 64
    let live := s.host.recent.getD j (zeros 64)
    wordIn (if o % 64 = 0 then live else (assoc j s.regs.recentSnap).getD live) (o % 64)
  else 0

/-- The word a naturally aligned 4-byte read of BAR0 returns (R489: RSV reads 0). -/
def bar0Word (s : State) (off : Nat) : Nat :=
  if off < 0x100 then wordIn (identityBytes s) off
  else if off < 0x140 then wordIn (s.regs.modStaged.flatMap (fun h => leBytes 2 h.toNat)) (off - 0x100)
  else if off < 0x180 then wordIn (s.regs.modActive.flatMap (fun h => leBytes 2 h.toNat)) (off - 0x140)
  else if off = 0x1F4 then statusWord s.regs.modStatus false
  else if off = 0x200 then half s.regs.dbBase false
  else if off = 0x204 then half s.regs.dbBase true
  else if off = 0x208 then s.regs.dbCtl.toNat % 2 ^ 9
  else if off = 0x240 then half s.regs.dbActiveBase false
  else if off = 0x244 then half s.regs.dbActiveBase true
  else if off = 0x248 then s.regs.dbActiveCtl.toNat % 2 ^ 9
  else if off = 0x2F4 then statusWord s.regs.dbStatus s.regs.dbCaptured.isSome
  else if 0x400 ≤ off ∧ off < 0xC00 then (s.regs.ringStaged.getD ((off - 0x400) / 4) 0).toNat &&& (ringWordMask off)
  else if 0xC00 ≤ off ∧ off < 0x1400 then (s.regs.ringActive.getD ((off - 0xC00) / 4) 0).toNat &&& (ringWordMask off)
  else if 0x1400 ≤ off ∧ off < 0x1500 then ringCtlWord s (off - 0x1400)
  else if 0x2000 ≤ off ∧ off < 0x2200 then
    match s.host.vectors[(off - 0x2000) / 16]? with
    | none => 0
    | some v =>
      if off % 16 = 0 then half v.addr false else if off % 16 = 4 then half v.addr true
      else if off % 16 = 8 then v.data else bit01 v.masked
  else if off = 0x2200 then maskOf (s.host.vectors.map (·.pba))
  else if 0x3000 ≤ off ∧ off < 0x4000 then eyeletWord s ((off - 0x3000) / 256) (off % 256)
  else if 0x4000 ≤ off ∧ off < 0x4100 then paceWord s (off - 0x4000)
  else if 0x4100 ≤ off ∧ off < 0x4200 then marginWord s (off - 0x4100)
  else if 0x4200 ≤ off ∧ off < 0x4300 then hbmWord s (off - 0x4200)
  else if 0x4300 ≤ off ∧ off < 0x4400 then awlWord s (off - 0x4300)
  else if 0x4400 ≤ off ∧ off < 0x4480 then
    wordIn (if off = 0x4400 then liveMaps s else s.regs.congSnap.getD (liveMaps s)) (off - 0x4400)
  else if 0x5000 ≤ off ∧ off < 0x6000 then logWord s (off - 0x5000)
  else if off = 0xF000 then bit01 s.regs.debugLock + 2 * bit01 s.regs.policyLock
  else if off = 0xF004 then bit01 s.regs.requireSigned
  else 0
where
  /-- The bits of a ring entry's word that are not RSV (Table 20.5). -/
  ringWordMask (off : Nat) : Nat :=
    match off % 32 with
    | 16 => 0x1F0F0F07
    | 20 => 0xFE
    | 24 => 0
    | 28 => 0
    | _ => 0xFFFFFFFF

/-- Whether `off` is the low word of a 64-bit RO register (R490). -/
def isRo64 (off : Nat) : Bool :=
  [0x0008, 0x0240, 0x1408, 0x1418, 0x4018, 0x4020, 0x4028, 0x4308].contains off
    || decide (0xC00 ≤ off ∧ off < 0x1400 ∧ (off % 32 = 0 ∨ off % 32 = 8))

/-- An aligned 4-byte read at `off` with its latch (R490) or the snapshot it takes (R509, R510): the word returned and the
state after. -/
def readWord (s : State) (off : Nat) : Nat × State :=
  if off = 0x4400 then (bar0Word s off, { s with regs.congSnap := some (liveMaps s) })
  else if 0x5100 ≤ off ∧ off < 0x5900 ∧ off % 64 = 0 then
    (bar0Word s off, match s.host.recent[(off - 0x5100) / 64]? with
      | some e => { s with regs.recentSnap := assocSet ((off - 0x5100) / 64) e s.regs.recentSnap }
      | none => s)
  else if isRo64 off then
    (bar0Word s off, { s with regs.latched := assocSet off (bar0Word s (off + 4)) s.regs.latched })
  else if off % 8 = 4 ∧ isRo64 (off - 4) then
    match assoc (off - 4) s.regs.latched with
    | some w => (w, { s with regs.latched := assocErase (off - 4) s.regs.latched })
    | none => (bar0Word s off, s)
  else (bar0Word s off, s)

/-- What the host reads goes out as read data. -/
def answerRead (s : State) (off : Nat) (bs : List Byte) : State := { s with host.out := s.host.out ++ [.readData off bs] }

end Sys2Proof.Machine
end

