-- ==== Sys2Proof/Machine/SledOps.lean ====
section
/-! DEFINITION. The shared operations of the sled: power, caps, holds, orders to the chips, sled events, Apbel messages
(17). Position `s.position` is the modelled chip. -/
namespace Sys2Proof.Machine

/-! ### Messages and events -/

/-- An Apbel message (Table 17.9). -/
def apbelMsg (type : Nat) (reply : Bool) (status seq : Nat) (body : List Byte) : List Byte :=
  leBytes 4 0x4C425041 ++ [1, byteOf type, byteOf (bit01 reply), byteOf status] ++ leBytes 4 seq
    ++ leBytes 2 body.length ++ [0, 0] ++ body

/-- Send an Apbel message. -/
def sendApbel (s : State) (dst : ApbelDest) (m : List Byte) : State := { s with apbelOut := s.apbelOut ++ [(dst, m)] }

/-- The power of a position. -/
def chipAt (s : State) (p : Nat) : ChipPower := s.cob.chips.getD p { rail := 0, starting := false, stopAt := none }

/-- Whether a position's chip has every rail and its reference (Table 17.1). -/
def chipOn (s : State) (p : Nat) : Bool := decide ((chipAt s p).rail = 8)

/-- The four positions. -/
def positions : List Nat := [0, 1, 2, 3]

/-- The CHIPS mask of the powered chips. -/
def poweredMask (s : State) : Nat := maskOf (positions.map (chipOn s))

/-- Send an order to a powered position. -/
def orderChip (o : CobOrder) (s : State) (p : Nat) : State :=
  if chipOn s p then { s with cobOut := s.cobOut ++ [(p, o)] } else s

/-- The 64-byte entry of a sled event, in the format of Table 15.9; the Cobbler has no WS (log entry 15). -/
def sledEntry (code seq : Nat) (slots : List Nat) : List Byte :=
  (eventEntries { code, seq, ws := 0, payload := padTo 48 (slots.flatMap (leBytes 8)) }).headD []

/-- Record a sled event: in the sled log, at every powered J12, and to the pod manager (R433, R440, R445). With 256
unacknowledged ones held, the new one stays in the sled log only (19 R481, Table 19.6). -/
def sledEvent (s : State) (code : Nat) (slots : List Nat) : State :=
  let seq := s.cob.nextSeq
  let entry := sledEntry code seq slots
  let s := { s with cob.nextSeq := (seq + 1) % 2 ^ 32, cob.sledLog := s.cob.sledLog ++ [entry] }
  let s := if s.cob.events.length < 256 then
      { s with cob.events := s.cob.events ++ [{ seq, entry, sentAt := s.now }] } else s
  let s := if s.cob.identified && !s.cob.restarting then
      sendApbel s .manager (apbelMsg 0x40 false 0 seq entry) else s
  let s := (positions.filter (fun p => decide (p ≠ s.position))).foldl (orderChip (.event entry)) s
  if chipOn s s.position && barAlive s then event s code slots else s

/-! ### Caps and holds -/

/-- Whether a coolant condition of Table 17.4 is in force (1 hot cap, 2 hot HOLD, 3 flow cap, 4 flow HOLD). -/
def inForce (s : State) (c : Nat) : Bool := s.cob.conditions.contains c

/-- The protective POWER_CAP (R417, R435, Table 17.4). -/
def protectiveCap (s : State) : Nat :=
  min (if inForce s 1 || inForce s 3 then 600 else 900) (if s.cob.cell.charging then 825 else 900)

/-- The effective caps of a position (R435). -/
def effCaps (s : State) (p : Nat) : Nat × Nat :=
  let c := s.cob.setCaps.getD p (900, 32)
  (min c.1 (protectiveCap s), min c.2 32)

/-- Send the powered chips the caps that have changed (R435). -/
def sendCaps (s : State) : State :=
  positions.foldl (fun s p =>
    if !chipOn s p ∨ effCaps s p = s.cob.sentCaps.getD p (900, 32) then s
    else orderChip (.caps (effCaps s p).1 (effCaps s p).2) { s with cob.sentCaps := setAt s.cob.sentCaps p (effCaps s p) } p) s

/-- A coolant HOLD is in force (Table 17.4). -/
def coolantHold (s : State) : Bool := inForce s 2 || inForce s 4

/-- Whether a position is under HOLD (R340, R441). -/
def heldAt (s : State) (p : Nat) : Bool := coolantHold s || s.cob.pmHold.getD p false

/-- Send HOLD or its release to each position where it changed between two states. -/
def sendHolds (before s : State) : State :=
  positions.foldl (fun t p =>
    if heldAt s p && !heldAt before p then orderChip .hold t p
    else if heldAt before p && !heldAt s p then orderChip .release t p
    else t) s

/-- What is in force goes to a chip that comes up: the caps where they differ from those at reset, and HOLD (R327, R340, R435;
log entry 87). -/
def sendInForce (s : State) (p : Nat) : State :=
  let s := sendCaps s
  if heldAt s p then orderChip .hold s p else s

/-! ### Power -/

/-- The modelled chip without power: nothing is kept on the chip; what has left it stays on record. -/
def chipOff (s : State) : State :=
  { State.reset with
    now := s.now, freeCtr := s.freeCtr, position := s.position, cob := s.cob, cobOut := s.cobOut,
    apbelOut := s.apbelOut, mon := s.mon, pending := s.pending, dev.state := .off, clk.locked := false,
    dev.grade := s.dev.grade, dev.serial := s.dev.serial, host.out := s.host.out,
    eyelets := s.eyelets.map (fun e => { Eyelet.fresh with out := e.out }) }

/-- Take power from a position, reference first (R415); its coordinate and releases go with its state (R434). -/
def powerOff (s : State) (p : Nat) : State :=
  if (chipAt s p).rail ≤ 1 ∧ !(chipAt s p).starting then s
  else
    let s := { s with
      cob.chips := setAt s.cob.chips p { rail := 1, starting := false, stopAt := none }
      cob.released := setAt s.cob.released p 0
      cob.coords := setAt s.cob.coords p none
      cob.sentCaps := setAt s.cob.sentCaps p (900, 32) }
    if p = s.position then chipOff s else s

/-- Start the rails of a position (R415). -/
def powerOn (s : State) (p : Nat) : State :=
  if chipOn s p then s
  else { s with cob.chips := mapAt s.cob.chips p (fun c => { c with starting := true }) }

/-- A safety action keeps the chips without power (R414, R441): a leak, a commit, or the broken presence contact. -/
def keptOff (s : State) : Bool := s.cob.leakLatched || s.cob.latched || !s.cob.seated

/-- A power stop order (R424); a chip still coming up is powered down at once. -/
def powerStopChip (s : State) (p : Nat) : State :=
  if chipOn s p then
    if (chipAt s p).stopAt.isSome then s
    else orderChip .powerStop { s with cob.chips := mapAt s.cob.chips p (fun c => { c with stopAt := some s.now }) } p
  else powerOff s p

/-- A power stop to every chip of the sled. -/
def powerStopAll (s : State) : State := positions.foldl powerStopChip s

/-- The leak response (R426, R427, R465): valves closed, power stop to every chip, the latch; a start under way ends. A moving
valve quiets the monitor (R463). -/
def leakResponse (s : State) (zones : Nat) (acoustic : Bool) : State :=
  let s := { s with cob.valvesOpen := false, cob.leakLatched := true, cob.checking := false, cob.powerWhenReady := false,
                    mon.quiet := true }
  powerStopAll (sledEvent s 0x6023 [zones, bit01 acoustic])

/-- Command the valves; their movement quiets the monitor until VALVE_QUIET_END (R463). -/
def moveValves (s : State) (toOpen : Bool) : State :=
  if s.cob.valvesOpen = toOpen then s else { s with cob.valvesOpen := toOpen, mon.quiet := true }

/-! ### Wake orders (R408, R466) -/

/-- The four answers packed two bits each, position p in bits 2p + 1 : 2p. -/
def packAnswers (xs : List (Option Nat)) : Nat := xs.foldr (fun a n => a.getD 1 % 4 + 4 * n) 0

/-- Keep a reply among the last 64 (R439). -/
def keep (ks : List KeptReply) (k : KeptReply) : List KeptReply := (ks ++ [k]).drop (ks.length + 1 - 64)

/-- Close a wake whose four answers are in: the pod manager's reply, or event 0x7021. -/
def finishWake (s : State) (w : WakeWait) : State :=
  match w.request with
  | some (src, seq) =>
    let m := apbelMsg 0x07 true 0 seq (w.answers.map (fun a => byteOf (a.getD 1)))
    let s := { s with cob.replies := keep s.cob.replies { seq := seq, at_ := s.now, bytes := m } }
    if s.cob.restarting then s else sendApbel s (.source src) m
  | none => sledEvent s 0x7021 [w.origin, packAnswers w.answers]

/-- Order a wake to the chips of a mask (R408). A chip without power gets none and counts as NOT_IDLE (R466); what
another powered chip answers is free (log entry 11). -/
def orderWake (s : State) (request : Option (Nat × Nat)) (origin mask : Nat) : State :=
  let answers := positions.map (fun p =>
    if bitOf mask p && chipOn s p then
      (if p = s.position then (none : Option Nat) else some (freshFree s p % 4))
    else some 1)
  let w : WakeWait := { request, origin, chips := mask, answers }
  let s := bumpFree ((positions.filter (bitOf mask)).foldl (orderChip (.wake origin)) s)
  if answers.all Option.isSome then finishWake s w else { s with cob.wakes := s.cob.wakes ++ [w] }

/-- The modelled chip's answer to the oldest wake that awaits it. -/
def wakeAnswer (s : State) (a : Nat) : State :=
  match s.cob.wakes with
  | [] => s
  | w :: rest =>
    finishWake { s with cob.wakes := rest } { w with answers := w.answers.map (fun x => some (x.getD a)) }

/-! ### Requests (R438, R439) -/

/-- The Cobbler answers: it has its supply, has booted and is not restarting (R437). -/
def cobAnswers (s : State) : Bool := s.cob.vaux && s.cob.booted && !s.cob.restarting

/-- The header of a request of a type (Table 17.9). -/
def apbelHeaderOk (type : Nat) (m : List Byte) : Bool :=
  decide (16 ≤ m.length ∧ leAt m 0 4 = 0x4C425041 ∧ leAt m 4 1 = 1 ∧ leAt m 5 1 = type ∧ leAt m 6 2 = 0
    ∧ leAt m 12 2 = m.length - 16 ∧ leAt m 12 2 ≤ 1200 ∧ leAt m 14 2 = 0)

/-- Reply, and keep the reply for 10 s among the last 64 (R439). -/
def replyTo (s : State) (src type seq status : Nat) (body : List Byte) : State :=
  let m := apbelMsg type true status seq body
  let s := { s with cob.replies := keep s.cob.replies { seq := seq, at_ := s.now, bytes := m } }
  sendApbel s (.source src) m

/-- A kept reply to a SEQ, at most 10 s old. -/
def keptReply (s : State) (seq : Nat) : Option KeptReply :=
  s.cob.replies.find? (fun k => decide (k.seq = seq ∧ s.now ≤ k.at_ + 10000 * msTicks))

/-- What handling a request gives: the state, and the reply's status and body, or none where the reply comes later. -/
abbrev Handled := State × Option (Nat × List Byte)

/-- Handle a request: a broken header is discarded and counted, a repeated SEQ gets the kept reply. -/
def onRequest (s : State) (src type : Nat) (msg : List Byte) (f : State → List Byte → Nat → Handled) : State :=
  if !cobAnswers s then s
  else if !apbelHeaderOk type msg then { s with cob.badMessages := s.cob.badMessages + 1 }
  else
    let seq := leAt msg 8 4
    match keptReply s seq with
    | some k => sendApbel s (.source src) k.bytes
    | none =>
      match f s (msg.drop 16) seq with
      | (s, some (status, body)) => replyTo s src type seq status body
      | (s, none) => s

/-- Statuses of Table 17.9. -/
def apOk : Nat := 0
def apBadMessage : Nat := 1
def apBadState : Nat := 2
def apRefusedSafety : Nat := 3

/-- A plain acceptance. -/
def accepted (s : State) (body : List Byte := []) : Handled := (s, some (apOk, body))
/-- A refusal that changes nothing. -/
def refusedWith (s : State) (status : Nat) : Handled := (s, some (status, []))

end Sys2Proof.Machine
end

