-- ==== Sys2Proof/Machine/Acoustic.lean ====
section
/-! DEFINITION. The acoustic condition monitor (18). Its analogue front and its filters are outside the model: a command
carries the samples of a frame, the 8 kHz samples of an energy block, or the 40 bands of a feature vector (log entry 16). -/
namespace Sys2Proof.Machine
open Host

/-! ### Configuration (R452 to R454, Table 18.8) -/

/-- The configuration a CONFIGURE body names, or none where the body breaks Table 18.8 (R467). -/
def parseCfg (b : List Byte) : Option MonCfg :=
  let n (i : Nat) : Nat := leAt b i 1
  let c : MonCfg :=
    { rate := n 1, active := bitOf (n 2) 0, autoActive := bitOf (n 2) 1, energyEn := bitOf (n 2) 2, sigEn := bitOf (n 2) 3,
      energyWake := bitOf (n 2) 4, channels := n 3 % 16, featureCh := n 3 / 16 % 4, gainShift := n 4, holdBlocks := n 5,
      threshold := leAt b 6 2, attack := n 8, decay := n 9, wakeChips := n 10 % 16 }
  if decide (b.length = 11 ∧ n 2 / 32 = 0 ∧ n 3 / 64 = 0 ∧ n 10 / 16 = 0 ∧ c.rate ≤ 3 ∧ (c.active ∨ c.rate = 3)
      ∧ c.channels ≠ 0 ∧ bitOf c.channels c.featureCh ∧ c.gainShift ≤ 4 ∧ 1 ≤ c.holdBlocks ∧ c.holdBlocks ≤ 16
      ∧ 192 ≤ c.threshold ∧ c.threshold ≤ 3840 ∧ 1 ≤ c.attack ∧ 1 ≤ c.decay)
  then some c else none

/-- The body of Table 18.8 after its OP byte. -/
def cfgBytes (c : MonCfg) : List Byte :=
  [byteOf c.rate, byteOf (maskOf [c.active, c.autoActive, c.energyEn, c.sigEn, c.energyWake]),
   byteOf (c.channels + 16 * c.featureCh), byteOf c.gainShift, byteOf c.holdBlocks] ++ leBytes 2 c.threshold.toNat
    ++ [byteOf c.attack.toNat, byteOf c.decay.toNat, byteOf c.wakeChips]

/-- The invalid count of a clock change from listening to active, by RATE (Table 18.5). -/
def clockUpCount (rate : Nat) : Nat := [520, 280, 200, 120].getD rate 120
/-- The invalid count of the monitor's start. -/
def startCount (rate : Nat) (active : Bool) : Nat := if active then [1000, 520, 360, 200].getD rate 200 else 200

/-- Raise a channel's remaining invalid count (R454). -/
def raiseInvalid (n : Nat) (c : MonChan) : MonChan := { c with invalid := max c.invalid n }

/-- The count that a change of configuration puts on channel `i` (Table 18.5). -/
def changeCount (o n : MonCfg) (was now : Bool) (i : Nat) : Nat :=
  let clock := if was = now then 0 else if now then clockUpCount n.rate else 120
  let rate := if o.rate = n.rate then 0 else 40
  let gain := if o.gainShift = n.gainShift then 0 else 16
  let en := if bitOf n.channels i && !bitOf o.channels i then 40 else 0
  max (max clock rate) (max gain en)

/-- The same for the feature chain, which runs at 8 kHz whatever the RATE. -/
def featCount (o n : MonCfg) (was now : Bool) : Nat :=
  max (if was = now then 0 else 120) (max (if o.gainShift = n.gainShift then 0 else 16) (if o.featureCh = n.featureCh then 0 else 40))

/-- Apply a calibration record at a boundary (R456): GAIN 0 makes it invalid, and 0x8000 and 0 are used. -/
def applyCal (m : Monitor) (c : Nat × Nat × Int) : Monitor :=
  let bad := decide (c.2.1 = 0)
  let gain := if bad then 0x8000 else c.2.1
  let delay := if bad then 0 else c.2.2
  match m.chans[c.1]? with
  | none => m
  | some x =>
    let n := max (if x.gain = gain then 0 else 16) (if x.delay = delay then 0 else 8)
    { m with
      chans := setAt m.chans c.1 (raiseInvalid n { x with gain := gain, delay := delay, calValid := !bad })
      featInvalid := if c.1 = m.cfg.featureCh then max m.featInvalid n else m.featInvalid }

/-- Everything pending applies at a frame boundary; CONFIG_GEN moves once where anything changed (R452, Table 18.6). -/
def applyPending (m : Monitor) (now : Nat) : Monitor :=
  let cfg := m.pendingCfg.getD m.cfg
  let clock := match m.pendingCfg with
    | some c => c.active
    | none => m.wantActive.getD m.clockActive
  let changed := m.pendingCfg.isSome || !m.pendingCal.isEmpty
  let state := match m.pendingCfg with
    | some c => if m.state = .listening ∨ m.state = .active then (if c.active then MonState.active else .listening) else m.state
    | none => m.state
  let m1 : Monitor := { m with
    state := state
    auto := if m.pendingCfg.isSome then false else m.auto
    cfg := cfg
    stored := m.pendingCfg.getD m.stored
    clockActive := clock
    wantActive := none
    pendingCfg := none
    pendingCal := []
    gen := if changed then (m.gen + 1) % 2 ^ 32 else m.gen
    chans := m.chans.mapIdx (fun i c => raiseInvalid (changeCount m.cfg cfg m.clockActive clock i) c)
    featInvalid := max m.featInvalid (featCount m.cfg cfg m.clockActive clock)
    frameAt := now }
  m.pendingCal.foldl applyCal m1

/-- Rate limit of Table 18.9: once per second per code and channel or slot (R468). -/
def monEvent (s : State) (code key : Nat) (slots : List Nat) : State :=
  if s.mon.rates.any (fun r => decide (r.1 = code ∧ r.2.1 = key ∧ s.now < r.2.2 + 1000 * msTicks)) then s
  else
    sledEvent { s with mon.rates := s.mon.rates.filter (fun r => !decide (r.1 = code ∧ r.2.1 = key)) ++ [(code, key, s.now)] }
      code slots

/-! ### Stream frames (R453) -/

/-- The enabled microphones in ascending order. -/
def enabledMics (c : MonCfg) : List Nat := positions.filter (bitOf c.channels)

/-- The sample word of microphone `i` in period `k` (Table 18.4). -/
def sampleWord (m : Monitor) (i k : Nat) (x : Int × Bool) : List Byte :=
  let c := m.chans.getD i MonChan.fresh
  let valid := decide (c.invalid ≤ k) && !c.fault
  leBytes 4 ((if valid then fieldOf 24 x.1 else 0) + 2 ^ 24 * bit01 valid + 2 ^ 25 * bit01 x.2 + 2 ^ 26 * bit01 c.fault)

/-- The body of a stream frame (Table 18.3). -/
def streamBody (m : Monitor) (samples : List (List (Int × Bool))) : List Byte :=
  let mics := enabledMics m.cfg
  [0x80, byteOf m.cfg.rate, byteOf (bit01 m.clockActive + 2 * bit01 m.quiet), byteOf m.cfg.channels]
    ++ leBytes 4 m.frameSeq ++ leBytes 8 m.sampleIndex ++ leBytes 4 m.gen ++ leBytes 2 64 ++ [0, 0]
    ++ leBytes 8 (m.frameAt / 16000)
    ++ (List.range 64).flatMap (fun k =>
        (List.range mics.length).flatMap (fun j => sampleWord m (mics.getD j 0) k ((samples.getD k []).getD j (0, false))))

/-- The clipped samples of enabled channel `j` in a frame. -/
def clipsIn (samples : List (List (Int × Bool))) (j : Nat) : Nat :=
  (samples.filter (fun p => (p.getD j (0, false)).2)).length

/-- Record `n` clipped samples of a microphone: event CLIP carries those of the last second (Table 18.9). -/
def noteClips (s : State) (i n : Nat) : State :=
  if n = 0 then s
  else
    let c := s.mon.chans.getD i MonChan.fresh
    let clips := c.clips.filter (fun p => decide (s.now < p.1 + 1000 * msTicks)) ++ [(s.now, n)]
    monEvent { s with mon.chans := setAt s.mon.chans i { c with clips := clips } } 0x7003 i [i, (clips.map Prod.snd).sum]

/-- ACOUSTIC_FRAME_BOUNDARY (R452, R453): the frame that ends is streamed, its 64 periods count against the invalid
counts, and what is pending applies. -/
def execAcousticFrameBoundary (samples : List (List (Int × Bool))) (s : State) : Outcome State Fault Refusal :=
  .next (if s.mon.state = .off then s
    else
      let m := s.mon
      let s := match m.stream with
        | some src =>
          if cobAnswers s then
            let t := sendApbel s (.source src) (apbelMsg 0x11 false 0 0 (streamBody m samples))
            { t with
              mon.frameSeq := (m.frameSeq + 1) % 2 ^ 32, mon.sampleIndex := (m.sampleIndex + 64) % 2 ^ 64 }
          else { s with mon.sampleIndex := (m.sampleIndex + 64) % 2 ^ 64 }
        | none => s
      let s := (enabledMics m.cfg).zipIdx.foldl (fun s (p : Nat × Nat) =>
        noteClips s p.1 (clipsIn samples p.2)) s
      let s := { s with mon.chans := s.mon.chans.map (fun (c : MonChan) => { c with invalid := c.invalid - 64 }) }
      { s with mon := applyPending s.mon s.now })

/-! ### Energy (R460, R461) -/

/-- Whether L is at least -k/64 dBFS for mean square num / den: 10^(-k/640) ≤ num / den, in whole numbers. -/
def levelAtLeast (num den k : Nat) : Bool := decide (den ^ 640 ≤ num ^ 640 * 10 ^ k)

/-- The least k in [lo, hi] with `levelAtLeast`, which rises with k. -/
def levelSearch (num den : Nat) : Nat → Nat → Nat → Nat
  | 0, _, hi => hi
  | fuel + 1, lo, hi =>
    if hi ≤ lo then hi
    else
      let mid := (lo + hi) / 2
      if levelAtLeast num den mid then levelSearch num den fuel lo mid else levelSearch num den fuel (mid + 1) hi

/-- The level of a block of Q1.23 samples in 1/64 dB, quantised down and clamped at -127 dBFS (R460). -/
def levelOf (xs : List Int) : Int :=
  let num := (xs.map (fun x => (x * x).toNat)).sum
  if num = 0 ∨ xs.isEmpty then -8128 else -(levelSearch num (xs.length * 2 ^ 46) 14 0 8128 : Nat)

/-- The floor after a block while the channel is armed. -/
def floorAfter (c : MonCfg) (f l : Int) : Int := if f ≤ l then f + min (l - f) c.attack else f - min (f - l) c.decay

/-- What an energy trigger does (R461, R465, Table 18.6). -/
def energyTrigger (s : State) (ch : Nat) (l f : Int) : State :=
  let s := monEvent s 0x7010 ch [ch, slotOf l, slotOf f]
  let s := if s.mon.cfg.energyWake then orderWake s none 0 s.mon.cfg.wakeChips else s
  if s.mon.state = .listening ∧ s.mon.cfg.autoActive then
    { s with mon.state := .active, mon.auto := true, mon.autoSince := s.now, mon.wantActive := some true }
  else if s.mon.auto then { s with mon.autoSince := s.now }
  else s

/-- Whether the monitor has settled (Table 18.6). -/
def settled (m : Monitor) : Bool := decide (m.state = .listening ∨ m.state = .active)

/-- Whether the monitor decides: it has settled, and no valve moves (R463). -/
def deciding (m : Monitor) : Bool := settled m && !m.quiet

/-- ENERGY_BLOCK (R460, R461). While a valve moves the level alone is taken (R463). -/
def execEnergyBlock (channel : Nat) (samples : List Int) (s : State) : Outcome State Fault Refusal :=
  .next (match s.mon.chans[channel]? with
    | none => s
    | some c =>
      if !settled s.mon || !s.mon.cfg.energyEn || !bitOf s.mon.cfg.channels channel || c.fault || decide (0 < c.invalid) then s
      else
        let l := levelOf samples
        let f := c.floor.getD l
        let put (x : MonChan) : State := { s with mon.chans := setAt s.mon.chans channel { x with level := some l } }
        if s.mon.quiet then put c
        else if c.armed then
          if f + s.mon.cfg.threshold ≤ l then
            if s.mon.cfg.holdBlocks ≤ c.loudRun + 1 then
              energyTrigger (put { c with floor := some f, armed := false, loudRun := 0, disarmedAt := s.now }) channel l f
            else put { c with floor := some (floorAfter s.mon.cfg f l), loudRun := c.loudRun + 1 }
          else put { c with floor := some (floorAfter s.mon.cfg f l), loudRun := 0 }
        else put { c with armed := decide (l < f + s.mon.cfg.threshold - 192), loudRun := 0 })

/-- ENERGY_REARM_TIMEOUT (R461): 60 s disarmed; not while a valve moves (R463). -/
def execEnergyRearmTimeout (channel : Nat) (s : State) : Outcome State Fault Refusal :=
  .next (match s.mon.chans[channel]? with
    | none => s
    | some c =>
      if !c.armed && !s.mon.quiet && decide (c.disarmedAt + 60000 * msTicks ≤ s.now) then
        { s with mon.chans := setAt s.mon.chans channel { c with armed := true, floor := c.level, loudRun := 0 } }
      else s)

/-! ### Signatures (R462 to R465) -/

/-- The distance of two 40-band vectors in 1/1600 of a 0.5 dB unit: the mean absolute difference, each band less its
vector's own mean where LEVEL_FREE is set (R462, R463). -/
def bandCost (levelFree : Bool) (x t : List Nat) : Nat :=
  let sx : Int := (x.sum : Nat)
  let st : Int := (t.sum : Nat)
  ((List.range 40).map (fun b =>
    let d : Int := ((x.getD b 0 : Nat) : Int) - ((t.getD b 0 : Nat) : Int)
    (if levelFree then 40 * d - (sx - st) else 40 * d).natAbs)).sum

/-- The lesser of two costs, `none` being plus infinity. -/
def minCost : Option Nat → Option Nat → Option Nat
  | none, b => b
  | a, none => a
  | some a, some b => some (min a b)

/-- The costs D[j..n] of R463 from the costs of the vector before and D[j - 1]. -/
def costRow (t : MonTemplate) (x : List Nat) (prev : List (Option Nat)) : Nat → Nat → Option Nat → List (Option Nat)
  | 0, _, _ => []
  | k + 1, j, left =>
    let c := bandCost t.levelFree x ((t.bytes.drop (40 * (j - 1))).take 40)
    let best := minCost (minCost (prev.getD (j - 1) none) (prev.getD j none)) left
    let d := best.map (· + c)
    d :: costRow t x prev k (j + 1) d

/-- One update of a slot's running costs. -/
def updateCosts (t : MonTemplate) (x : List Nat) (prev : List (Option Nat)) : List (Option Nat) :=
  some 0 :: costRow t x prev t.n 1 (some 0)

/-- Costs at plus infinity. -/
def infCosts (t : MonTemplate) : List (Option Nat) := List.replicate (t.n + 1) none

/-- A committed template takes the slot at a vector; the refractory time was its predecessor's. -/
def promote (k : MonSlot) : MonSlot :=
  match k.next with
  | some t => { k with tmpl := some t, next := none, costs := infCosts t, lastDist := none, quietUntil := 0 }
  | none => k

/-- A slot after a usable vector. -/
def slotStep (x : List Nat) (k : MonSlot) : MonSlot :=
  match k.tmpl with
  | none => k
  | some t =>
    let d := updateCosts t x k.costs
    { k with costs := d, lastDist := d.getD t.n none }

/-- A slot after an unusable vector. -/
def slotReset (k : MonSlot) : MonSlot :=
  match k.tmpl with
  | none => k
  | some t => { k with costs := infCosts t }

/-- A slot matches: its distance is at most its THRESHOLD, and 2 s have passed since its last match. -/
def slotMatches (now : Nat) (k : MonSlot) : Bool :=
  match k.tmpl, k.lastDist with
  | some t, some d => decide (d ≤ 100 * t.n * t.threshold) && decide (k.quietUntil ≤ now)
  | _, _ => false

/-- The event of a match, and its refractory time (R463, R465). -/
def noteMatch (s : State) (i : Nat) (k : MonSlot) : State :=
  match k.tmpl with
  | none => s
  | some t =>
    let s := { s with mon.slots := setAt s.mon.slots i { k with quietUntil := s.now + 2000 * msTicks } }
    sledEvent s 0x7020 [i, t.cls, k.lastDist.getD 0 / (100 * t.n), s.mon.cfg.featureCh]

/-- The actions of the matches of one vector: a leak overrides every wake (R465, R466). -/
def matchActions (s : State) (ms : List (Nat × MonSlot)) : State :=
  let cls (k : MonSlot) : Nat := (k.tmpl.map (·.cls)).getD 0
  if ms.any (fun p => decide (cls p.2 = 2)) then leakResponse s 0 true
  else
    (ms.filter (fun p => decide (cls p.2 = 1))).foldl
      (fun s p => orderWake s none (p.1 + 1) ((p.2.tmpl.map (·.chips)).getD 0)) s

/-- FEATURE_VECTOR (R463): `usable` is false where the vector holds an invalid or faulty sample. While a valve moves the costs
are kept and nothing matches. -/
def execFeatureVector (vector : List Nat) (usable : Bool) (s : State) : Outcome State Fault Refusal :=
  .next (
    let m := s.mon
    let ok := usable && decide (m.featInvalid = 0) && !(m.chans.getD m.cfg.featureCh MonChan.fresh).fault
    let s := { s with mon.featInvalid := m.featInvalid - 80, mon.slots := m.slots.map promote }
    if !settled m || !m.cfg.sigEn then s
    else if !ok then { s with mon.slots := s.mon.slots.map slotReset }
    else
      let slots := s.mon.slots.map (slotStep vector)
      let s := { s with mon.slots := slots }
      if m.quiet then s
      else
      let ms := (slots.zipIdx.filter (fun p => slotMatches s.now p.1)).map (fun p => (p.2, p.1))
      matchActions (ms.foldl (fun s p => noteMatch s p.1 p.2) s) ms)

/-! ### States and faults (R455, R458) -/

/-- MONITOR_START (Table 18.6): VAUX_33 is good; clock and configuration as stored; CAL_INVALID for each invalid record (R456). -/
def execMonitorStart (s : State) : Outcome State Fault Refusal :=
  .next (if s.mon.state = .off then
      let m := s.mon
      let n := startCount m.stored.rate m.stored.active
      let s := { s with cob.vaux := true, mon := { m with
        state := .settling, auto := false, cfg := m.stored, clockActive := m.stored.active, wantActive := none,
        pendingCfg := none, pendingCal := [], featInvalid := max m.featInvalid 200, frameAt := s.now,
        chans := m.chans.map (fun c => raiseInvalid n { c with floor := none, level := none, armed := true, loudRun := 0 }) } }
      positions.foldl (fun s i =>
        if (s.mon.chans.getD i MonChan.fresh).calValid then s else monEvent s 0x7001 i [i]) s
    else s)

/-- MONITOR_SETTLED (Table 18.6): decisions begin; the samples of the present frame keep their counts (R454). -/
def execMonitorSettled (s : State) : Outcome State Fault Refusal :=
  .next (if s.mon.state = .settling then
      { s with mon.state := if s.mon.cfg.active then .active else .listening }
    else s)

/-- VAUX_33_LOST (Table 18.6): the monitor is OFF, and the Cobbler is without its supply; after its next boot it has had no
IDENTIFY (R440). -/
def execVaux33Lost (s : State) : Outcome State Fault Refusal :=
  .next { s with mon.state := .off, mon.auto := false, mon.stream := none, cob.vaux := false, cob.booted := false,
                 cob.identified := false }

/-- MIC_FAULT (R455). -/
def execMicFault (channel : Nat) (s : State) : Outcome State Fault Refusal :=
  .next (match s.mon.chans[channel]? with
    | none => s
    | some c =>
      if c.fault || decide (s.mon.state = .off) then s
      else monEvent { s with mon.chans := setAt s.mon.chans channel { c with fault := true, loudRun := 0 } } 0x7002 channel [channel])

/-- MIC_RECOVERY (R455): the invalid count of an enabled channel applies, to the feature chain too where it is its microphone. -/
def execMicRecovery (channel : Nat) (s : State) : Outcome State Fault Refusal :=
  .next (match s.mon.chans[channel]? with
    | none => s
    | some c =>
      if c.fault then
        { s with mon.chans := setAt s.mon.chans channel (raiseInvalid 40 { c with fault := false }),
                 mon.featInvalid := if channel = s.mon.cfg.featureCh then max s.mon.featInvalid 40 else s.mon.featInvalid }
      else s)

/-- AUTO_ACTIVE_TIMEOUT (R458): 60 s without a trigger; the clock falls at the next boundary. -/
def execAutoActiveTimeout (s : State) : Outcome State Fault Refusal :=
  .next (if s.mon.state = .active ∧ s.mon.auto ∧ s.mon.autoSince + 60000 * msTicks ≤ s.now then
      { s with mon.state := .listening, mon.auto := false, mon.wantActive := some false, mon.cfg.rate := 3 }
    else s)

/-- VALVE_QUIET_END (R463). -/
def execValveQuietEnd (s : State) : Outcome State Fault Refusal := .next { s with mon.quiet := false }

/-! ### ACOUSTIC requests (R467) -/

/-- A request of one ACOUSTIC operation. -/
def onAcoustic (s : State) (src op : Nat) (msg : List Byte) (f : State → List Byte → Handled) : State :=
  onRequest s src 0x11 msg (fun s b _ => if leAt b 0 1 = op ∧ b ≠ [] then f s b else refusedWith s apBadMessage)

/-- CONFIGURE (R452): the reply names the CONFIG_GEN at which it will apply. -/
def execConfigure (src : Nat) (msg : List Byte) (s : State) : Outcome State Fault Refusal :=
  .next (onAcoustic s src 0x01 msg (fun s b =>
    match parseCfg b with
    | none => refusedWith s apBadMessage
    | some c => accepted { s with mon.pendingCfg := some c } (leBytes 4 ((s.mon.gen + 1) % 2 ^ 32))))

/-- CAL_WRITE (R456): the last of each microphone within a frame governs (R452). -/
def execCalWrite (src : Nat) (msg : List Byte) (s : State) : Outcome State Fault Refusal :=
  .next (onAcoustic s src 0x02 msg (fun s b =>
    if b.length ≠ 5 || !decide (leAt b 1 1 < 4) then refusedWith s apBadMessage
    else
      let mic := leAt b 1 1
      accepted { s with mon.pendingCal := s.mon.pendingCal.filter (fun c => decide (c.1 ≠ mic))
                          ++ [(mic, leAt b 2 2, signedOf 8 (leAt b 4 1))] }))

/-- STREAM_START (R467): frames go to this source; the counts start afresh. -/
def execStreamStart (src : Nat) (msg : List Byte) (s : State) : Outcome State Fault Refusal :=
  .next (onAcoustic s src 0x03 msg (fun s b =>
    if b.length ≠ 1 then refusedWith s apBadMessage
    else accepted { s with mon.stream := some src, mon.frameSeq := 0, mon.sampleIndex := 0 }))

/-- STREAM_STOP. -/
def execStreamStop (src : Nat) (msg : List Byte) (s : State) : Outcome State Fault Refusal :=
  .next (onAcoustic s src 0x04 msg (fun s b =>
    if b.length ≠ 1 then refusedWith s apBadMessage else accepted { s with mon.stream := none }))

/-- TEMPLATE_DATA (R464). -/
def execTemplateData (src : Nat) (msg : List Byte) (s : State) : Outcome State Fault Refusal :=
  .next (onAcoustic s src 0x05 msg (fun s b =>
    let slot := leAt b 1 1
    let off := leAt b 2 2
    let len := leAt b 4 2
    if slot ≤ 7 ∧ 1 ≤ len ∧ len ≤ 1024 ∧ b.length = 6 + len ∧ off + len ≤ 6000 then
      accepted { s with mon.slots := mapAt s.mon.slots slot (fun k => { k with held := overlay k.held off (b.drop 6) }) }
    else refusedWith s apBadMessage))

/-- The template that a 32-byte header and the data held make, where they agree (R464). -/
def parseTemplateHeader (h held : List Byte) : Option MonTemplate :=
  let n := leAt h 0 2
  if decide (1 ≤ n ∧ n ≤ 150 ∧ leAt h 2 1 ≤ 2 ∧ leAt h 3 1 ≤ 1 ∧ leAt h 6 1 < 16 ∧ held.length = 40 * n
      ∧ leAt h 28 4 = crc32c held) && (slice h 7 21).all (fun b => decide (b = 0)) then
    some { n := n, cls := leAt h 2 1, levelFree := bitOf (leAt h 3 1) 0, threshold := leAt h 4 2, chips := leAt h 6 1,
           bytes := held.map (·.toNat) }
  else none

/-- TEMPLATE_COMMIT (R464): from the next feature vector. -/
def execTemplateCommit (src : Nat) (msg : List Byte) (s : State) : Outcome State Fault Refusal :=
  .next (onAcoustic s src 0x06 msg (fun s b =>
    match s.mon.slots[leAt b 33 1]? with
    | none => refusedWith s apBadMessage
    | some k =>
      match if b.length = 34 then parseTemplateHeader (slice b 1 32) k.held else none with
      | none => refusedWith s apBadMessage
      | some t => accepted { s with mon.slots := setAt s.mon.slots (leAt b 33 1) { k with next := some t } }))

/-- TEMPLATE_CLEAR. -/
def execTemplateClear (src : Nat) (msg : List Byte) (s : State) : Outcome State Fault Refusal :=
  .next (onAcoustic s src 0x07 msg (fun s b =>
    if b.length = 2 ∧ leAt b 1 1 ≤ 7 then accepted { s with mon.slots := setAt s.mon.slots (leAt b 1 1) MonSlot.fresh }
    else refusedWith s apBadMessage))

/-- ACOUSTIC_STATUS (Table 18.7): state, configuration, CONFIG_GEN, F, L and FAULT of each channel, the loaded slots, the
last distances; a level or distance not yet formed reads 0x8000 or 0xFFFF (log entry 16). -/
def execAcousticStatus (src : Nat) (msg : List Byte) (s : State) : Outcome State Fault Refusal :=
  .next (onAcoustic s src 0x08 msg (fun s b =>
    if b.length ≠ 1 then refusedWith s apBadMessage
    else
      let m := s.mon
      let code := match m.state with | .off => 0 | .settling => 1 | .listening => 2 | .active => 3
      let lev (l : Option Int) : List Byte := leBytes 2 (match l with | some v => fieldOf 16 v | none => 0x8000)
      accepted s ([byteOf code] ++ cfgBytes m.cfg ++ leBytes 4 m.gen
        ++ m.chans.flatMap (fun c => lev c.floor ++ lev c.level ++ [byteOf (bit01 c.fault)])
        ++ [byteOf (maskOf (m.slots.map (·.tmpl.isSome)))]
        ++ m.slots.flatMap (fun k => leBytes 2 (match k.tmpl, k.lastDist with
            | some t, some d => min (d / (100 * t.n)) 0xFFFE
            | _, _ => 0xFFFF)))))

end Sys2Proof.Machine
end

