-- ==== Sys2Proof/Machine/TongueOps.lean ====
section
/-! DEFINITION. Mini-units and the flooding of tongue messages (09 R203, 10 R237, R249 to R251). -/
namespace Sys2Proof.Machine

/-- Eyelet `k`. -/
def State.eyelet (s : State) (k : Nat) : Eyelet := s.eyelets.getD k Eyelet.fresh

/-- Change eyelet `k`. -/
def setEyelet (s : State) (k : Nat) (f : Eyelet → Eyelet) : State := { s with eyelets := mapAt s.eyelets k f }

/-- A mini-unit of these first 28 bytes, with its CRC (R237). -/
def miniUnit (b : List Byte) : List Byte := padTo 28 b ++ leBytes 4 (crc32c (padTo 28 b))

/-- A mini-unit that is whole and whose CRC holds. -/
def miniOk (item : List Byte) : Bool :=
  decide (item.length = 32) && decide (leAt item 28 4 = crc32c (item.take 28))

/-- Put an item on the line at once (the training exchange and DOWN_NOTICE have no rivals). -/
def sendNow (s : State) (k : Nat) (item : List Byte) : State := setEyelet s k (fun e => { e with out := e.out ++ [item] })

/-- The eyelets that are UP. -/
def upEyelets (s : State) : List Nat := (List.range 16).filter (fun k => decide ((s.eyelet k).state = .up))

/-- Queue tongue mini-units on an eyelet; T_SEQ and CRC are filled in as each leaves (R249). -/
def sendTongue (s : State) (k : Nat) (ms : List (List Byte)) : State :=
  setEyelet s k (fun e => { e with txTongue := e.txTongue ++ ms })

/-- The fields of a tongue message (Table 10.9). -/
structure Tongue where
  type : Nat
  tag : Nat
  origin : Nat
  lchip : Nat
  lat : Nat
  arg8 : Nat
  jsf : Nat
  arg64 : Nat
  deriving DecidableEq, Repr

/-- Read the fields of a tongue mini-unit. -/
def Tongue.parse (b : List Byte) : Tongue :=
  { type := leAt b 0 1, tag := leAt b 2 2, origin := leAt b 4 2, lchip := leAt b 6 2, lat := leAt b 8 3,
    arg8 := leAt b 11 1, jsf := leAt b 12 8, arg64 := leAt b 20 8 }

/-- The mini-unit of a message, T_SEQ and CRC left 0. -/
def Tongue.bytes (m : Tongue) : List Byte :=
  [byteOf m.type, 0] ++ leBytes 2 m.tag ++ leBytes 2 m.origin ++ leBytes 2 m.lchip ++ leBytes 3 (min m.lat 0xFFFFFF)
    ++ [byteOf m.arg8] ++ leBytes 8 m.jsf ++ leBytes 8 m.arg64 ++ zeros 4

/-- The duplicate key of R203. -/
def Tongue.key (m : Tongue) : Nat × Nat × Nat × Nat := (m.tag, m.type, m.origin, m.jsf)

/-- The keys seen in the last millisecond, with this one seen now (R203). -/
def noteFlood (s : State) (m : Tongue) : State :=
  { s with svc.floodSeen := (s.svc.floodSeen.filter (fun x => decide (x.1 ≠ m.key ∧ s.now < x.2 + msTicks)))
      ++ [(m.key, s.now)] }

/-- Whether a copy of this message was seen within the last millisecond. -/
def floodDup (s : State) (m : Tongue) : Bool :=
  s.svc.floodSeen.any (fun x => decide (x.1 = m.key ∧ s.now ≤ x.2 + msTicks))

/-- Send a message, with the parts that follow it, on every UP eyelet but one (R203). -/
def floodOut (s : State) (m : Tongue) (parts : List (List Byte)) (skip : Option Nat) : State :=
  ((upEyelets s).filter (fun k => decide (some k ≠ skip))).foldl (fun s k => sendTongue s k (m.bytes :: parts))
    (noteFlood s m)

/-- Originate a message on every UP eyelet. -/
def originate (s : State) (m : Tongue) (parts : List (List Byte) := []) : State := floodOut s m parts none

/-- The part mini-units of an OFFER: arrangement digest, weight digest, 8 zero bytes (R251). -/
def offerParts (digests : List Byte) : List (List Byte) :=
  [0, 1, 2].map (fun i => padTo 32 ([0x11, 0, byteOf i, 0] ++ padTo 24 (digests.drop (24 * i))))

end Sys2Proof.Machine
end

