-- ==== Sys2Proof/Machine/JobOps.lean ====
section
/-! DEFINITION. The job of the chip: its last, its requests' completions, and how it stops (09 R216 to R219, 15 R379, 16). -/
namespace Sys2Proof.Machine

/-! ### The job and its last -/

/-- The loaded last with this digest. -/
def lastWith (s : State) (digest : List Byte) : Option LoadedLast := s.lasts.find? (fun l => decide (l.digest = digest))

/-- The job's last. -/
def jobLast (s : State) : Option LoadedLast := s.job.bind (fun j => lastWith s j.last)

/-- Change the job. -/
def setJob (s : State) (f : Job → Job) : State := { s with job := s.job.map f }

/-- The chips of an arrangement entry. -/
def LoadedLast.chip (l : LoadedLast) (n : Nat) : ArrChip := l.arr.chips.getD n ⟨⟨0, 0, 0⟩, [], []⟩

/-- Whether this chip leads the job (R397). -/
def isLeader (s : State) : Bool := match jobLast s with | some l => decide (l.arr.leader = l.lchip) | none => false

/-- The number of chips of the job. -/
def jobChips (s : State) : Nat := match jobLast s with | some l => l.arr.chips.length | none => 0

/-- The physical eyelet of a logical one (R136). -/
def LoadedLast.phys (l : LoadedLast) (e : Nat) : Nat := (l.chip l.lchip).eyelets.getD e e

/-- The logical eyelet of a physical one. -/
def LoadedLast.logical (l : LoadedLast) (k : Nat) : Nat := firstIdx (fun x => decide (x = k)) (l.chip l.lchip).eyelets

/-- The physical eyelets that the job's lacing uses (R190). -/
def lacingEyelets (s : State) : List Nat :=
  match jobLast s with
  | some l => ((List.range 16).filter l.lacing.used).map l.phys
  | none => []

/-- Whether the job's lacing uses eyelet `k`. -/
def lacingUses (s : State) (k : Nat) : Bool := (lacingEyelets s).contains k

/-- Whether a coordinate is that of a chip of the job's arrangement (R204). -/
def ofJob (s : State) (coord : Nat) : Bool :=
  match jobLast s with | some l => l.arr.chips.any (fun c => decide (c.coord.field = coord)) | none => false

/-- The coordinate of the job's leader. -/
def leaderCoord (s : State) : Nat :=
  match jobLast s with | some l => (l.chip l.arr.leader).coord.field | none => 0

/-- The logical number of this chip in its job, 0xFFFF for none. -/
def myLchip (s : State) : Nat := match jobLast s with | some l => l.lchip | none => 0xFFFF

/-- A message of this chip's job. -/
def jobMsg (s : State) (type arg8 jsf arg64 : Nat) : Tongue :=
  { type, tag := match s.job with | some j => j.tag | none => 0xFFFF, origin := s.dev.coord, lchip := myLchip s, lat := 0,
    arg8, jsf, arg64 }

/-! ### Device and job state together (Table 16.2) -/

/-- The device state that the job gives a chip with a last loaded. -/
def stateOfJob (j : Option Job) : DevState :=
  match j with
  | none => .loaded
  | some j =>
    match j.state with
    | .starting => .running
    | .running => .running
    | .draining => .draining
    | _ => .loaded

/-- The states that follow the job. -/
def followsJob (d : DevState) : Bool := decide (d = .loaded ∨ d = .running ∨ d = .draining)

/-- Bring the device state, or the one kept under HELD, in line with the job (Table 16.2). -/
def syncDev (s : State) : State :=
  if s.dev.state = .held then
    (if followsJob s.dev.under then { s with dev.under := stateOfJob s.job } else s)
  else if followsJob s.dev.state then { s with dev.state := stateOfJob s.job } else s

/-- Put the job into a state. -/
def setJobState (s : State) (x : JobState) : State := syncDev (setJob s (fun j => { j with state := x }))

/-! ### Requests (R379, Table 15.7) -/

/-- The RESULT of a request's completion. -/
def reqResult (q : Request) (report endCode choice : Nat) : List Byte :=
  leBytes 4 q.tokens.length ++ leBytes 2 (q.tokens.length - q.reported) ++ [byteOf report, byteOf endCode]
    ++ leBytes 6 choice ++ zeros 2 ++ padTo 32 q.stamp ++ leBytes 4 q.hit

/-- Post one completion of a request. -/
def postReq (s : State) (q : Request) (status sub report endCode choice : Nat) : State :=
  postCpl s q.ring
    { status, sub, final := decide (endCode ≠ 0), flags := 0, opcode := 0x80, index := q.slot, tag := q.tag,
      result := reqResult q report endCode choice, irq := q.irq, answers := true,
      signal := (outstOf s q.ring q.slot).bind (·.signal) }

/-- Take an ended request off the leader's lists; the RELEASE of an admitted one is due (R311). -/
def dropRequest (s : State) (q : Request) : State :=
  setJob s (fun j =>
    { j with
      requests := j.requests.filter (fun r => decide (r.rid ≠ q.rid))
      plans := j.plans.filter (fun p => decide (p.rid ≠ q.rid))
      endingSlots := if q.phase = 1 then j.endingSlots else j.endingSlots ++ [q.bslot] })

/-- End a request with a status and END = 3 (R156, R379); a refusal is recorded (R387). -/
def failRequest (status sub : Nat) (s : State) (q : Request) : State :=
  let s := if status = stBadState ∨ status = stBadDescriptor then noteRefusal s q.ring q.slot status sub else s
  let choice := match s.job with | some j => j.choice | none => 0
  dropRequest (postReq s q status sub (if q.phase = 1 then 0 else 1) 3 choice) q

/-! ### Stopping (R156, R216 to R219) -/

/-- The barrier with nothing pending; the attempt number stays (R208). -/
def Barrier.clear (b : Barrier) : Barrier :=
  { b with startDesc := none, offerAt := none, offer := none, answered := none, readies := [], releaseAt := none,
           slipHeld := [], slipMine := [], slipFrom := [], slipReady := [], slipReadySent := [], resumeAt := none, resumed := [],
           pauseFrom := none }

/-- An awl with empty queues. -/
def Awl.fresh : Awl :=
  { tileInput := [], vectorQ := [], hbmQ := [], matBusy := [], links := [], posts := [], postCount := [], laterPosts := [],
    departs := [], said := [], residue := false }

/-- The holds that end with the job's work; margin, throttle and Cobbler holds stay. -/
def keepsAfterStop : Hold → Bool
  | .margin _ => true
  | .throttle => true
  | .cobbler => true
  | _ => false

/-- Count the lag up to now and set the anchor at `js` (R32, R214). -/
def anchorAt (s : State) (ws js : Nat) : State :=
  setJob s (fun j =>
    { j with slipTotal := j.slipTotal + (if j.state = .running ∨ j.state = .draining then (ws - j.anchorWs) - (js - j.anchorJs) else 0),
             anchorWs := ws, anchorJs := js })

/-- A region without the work of the job: its local JS stays. -/
def Region.idle (g : Region) : Region :=
  { g with due := false, todo := [], counted := false, holds := g.holds.filter keepsAfterStop }

/-- Drop what the job's scheduled work holds on the chip: landed and queued units, transfers on their way, waits, holds, a
pace to come. -/
def dropWork (s : State) : State :=
  let s := setJob s (fun j => { j with arrivals := [], later := [] })
  { s with
    clk.nextInside := none
    clk.armed := none
    clk.regions := s.clk.regions.map Region.idle
    mem.tackWaits := (s.mem.tackWaits.map (fun w => (w.1, w.2.filter (fun x => decide (x.1 = 0))))).filter
      (fun w => !w.2.isEmpty)
    eyelets := s.eyelets.map (fun e => { e with landing := [], txSched := [] }) }

/-- BAD_STATE sub-code for a descriptor that waits on a job that has stopped (R399, Table 16.10). -/
def stoppedSub (status : Nat) : Nat := if status = stPowerAbort then 0x12 else 0x05

/-- Complete everything that waits on the job: requests with the stop's status (R156), JOB_START with it (a power stop:
0x12), JOB_DRAIN and JOB_CHECKPOINT with 0x05 (Table 16.10; R399). -/
def completePending (s : State) (status : Nat) : State :=
  match s.job with
  | none => s
  | some j =>
    let s := j.requests.foldl (failRequest status 0) s
    let s := match j.barrier.startDesc with
      | some d => if status = stPowerAbort then refuseSlot s d.1 d.2 stBadState 0x12 else complete s d.1 d.2 status 0
      | none => s
    let s := j.drainDescs.foldl (fun s d => refuseSlot s d.1 d.2 stBadState 0x05) s
    j.ckptDescs.foldl (fun s c => refuseSlot s c.ring c.slot stBadState (stoppedSub status)) s

/-- The job stops on this chip: no further scheduled work, pending responses completed, STOPPED (R216). -/
def enterStopped (s : State) (status : Nat) : State :=
  let s := completePending s status
  let s := dropWork (setJob s (fun j => { j with slipTotal := slipTotal s j }))
  setJobState (setJob s (fun j =>
    { j with barrier := j.barrier.clear, awl := Awl.fresh, requests := [], drainDescs := [],
             ckptDescs := [], fetches := [], plans := [], pauseOrdered := false, endingSlots := [] })) .stopped

/-- Whether the job is in a state that a stop ends (Table 16.3). -/
def stoppable (j : Job) : Bool := decide (j.state = .starting ∨ j.state = .running ∨ j.state = .draining)

/-- The governing STOP: the smallest boundary, then the lowest logical chip (R216). -/
def governing (xs : List (Nat × Nat × Nat)) : Option (Nat × Nat × Nat) :=
  xs.foldl (fun m x => match m with
    | none => some x
    | some y => if x.1 < y.1 ∨ (x.1 = y.1 ∧ x.2.1 < y.2.1) then some x else some y) none

/-- The status of the governing STOP. -/
def governingStatus (j : Job) (dflt : Nat) : Nat := match governing j.barrier.stops with | some x => x.2.2 | none => dflt

/-- The step boundary at which the job stands stopped: the governing one (R216). -/
def stopBoundary (j : Job) : Nat := match governing j.barrier.stops with | some x => x.1 | none => j.boundary

/-- This chip stops its job: it floods STOP with its last completed step boundary and the status (R216). -/
def stopJob (s : State) (status : Nat) : State :=
  match s.job with
  | none => s
  | some j =>
    if stoppable j then
      let s := originate s (jobMsg s 0x18 status j.boundary 0)
      let s := setJob s (fun j =>
        { j with barrier.stops := j.barrier.stops ++ [(j.boundary, myLchip s, status)] })
      enterStopped s (match s.job with | some j => governingStatus j status | none => status)
    else s

/-- A lacing eyelet has gone down (R218, R395): the event, and a stop with LINK_LOST where the job runs. -/
def laceLinkDown (s : State) (k : Nat) : State :=
  match s.job with
  | none => s
  | some j => if lacingUses s k ∧ j.state ≠ .none then stopJob (event s 0x2120 [k]) stLinkLost else s

end Sys2Proof.Machine
end

