-- ==== Sys2Proof/Machine/Awl.lean ====
section
/-! DEFINITION. What a failed awl check does: the fault record, the stop, the interlock (07 R154 to R160, 08 R183). -/
namespace Sys2Proof.Machine

/-- What a check found (Tables 7.4 to 7.6): the tile as (logical, physical), the site as in Table 7.5, the task's offset. -/
structure Finding where
  check : Nat
  tile : Option (Nat × Nat)
  site : Option Nat
  task : Option Nat
  js : Nat
  declared : Nat
  observed : Nat
  deriving DecidableEq, Repr

/-- A SITE (Table 7.5). -/
def siteOf (kind index : Nat) : Nat := kind * 2 ^ 28 + index % 2 ^ 28

/-- The fault record of a finding (R159). -/
def faultRecord (s : State) (f : Finding) (first : Bool) : List Byte :=
  let t := f.tile.getD (0xFF, 0xFF)
  let relaxed := match s.job with | some j => j.relaxed | none => false
  let variant := match s.job with | some j => j.variant | none => 0
  let last := jobLast s
  leBytes 2 f.check
    ++ [byteOf (bit01 relaxed),
        byteOf (maskOf [f.tile.isSome, f.site.isSome, f.task.isSome, first])]
    ++ leBytes 2 s.dev.coord ++ [byteOf t.1, byteOf t.2] ++ leBytes 8 f.js ++ leBytes 8 s.clk.ws
    ++ leBytes 4 (f.site.getD 0) ++ leBytes 4 (f.task.getD 0) ++ leBytes 8 f.declared ++ leBytes 8 f.observed
    ++ [byteOf variant, byteOf (match last with | some l => l.span | none => 0)] ++ leBytes 2 (myLchip s) ++ zeros 4
    ++ padTo 8 (match s.job with | some j => j.last | none => [])

/-- Record one fault: its event, the last-fault registers, and the FIRST one of the job in the fault log (R160). -/
def recordFault (s : State) (f : Finding) (first : Bool) : State :=
  let rec' := faultRecord s f first
  let s := recordRaw s (0x3000 + f.check) rec' first
  { s with
    host.lastFault := rec'
    host.faultIndex := if first then (s.host.faultIndex + 1) % 2 ^ 32 else s.host.faultIndex
    host.faultTotal := min (s.host.faultTotal + 1) 0xFFFFFFFF
    host.faultLog := if first then (s.host.faultLog ++ [rec']).drop (s.host.faultLog.length + 1 - 1024)
      else s.host.faultLog }

/-- Whether one finding comes before another: ascending CHECK, then ascending SITE (R160). -/
def findingBefore (a b : Finding) : Bool :=
  decide (a.check < b.check ∨ (a.check = b.check ∧ a.site.getD 0 ≤ b.site.getD 0))

/-- Insert a finding in order. -/
def insertFinding (f : Finding) : List Finding → List Finding
  | [] => [f]
  | g :: gs => if findingBefore g f then g :: insertFinding f gs else f :: g :: gs

/-- The status that pending responses take (Table 7.3). -/
def faultStatus (f : Finding) : Nat := if f.check = 0x0D then stLongSum else stAwlFault

/-- Faults of one stitch: every record in order, FIRST on the earliest, one stop (R156, R160). -/
def awlFaults (s : State) (fs : List Finding) : State :=
  match fs.foldr insertFinding [] with
  | [] => s
  | f :: rest =>
    match s.job with
    | none => s
    | some j =>
      if stoppable j then
        let s := recordFault s f (!j.faultSaid)
        let s := rest.foldl (fun s g => recordFault s g false) s
        stopJob (setJob s (fun j => { j with faultSaid := true })) (faultStatus f)
      else s

/-- The choice counter grows by one and saturates at 48 bits (R183). -/
def choose (s : State) : State := setJob s (fun j => { j with choice := min (j.choice + 1) (2 ^ 48 - 1) })

/-- An interlock is counted in its check's counter and in the choice counter, and its first in a step is an event (R157). -/
def interlock (s : State) (f : Finding) : State :=
  match s.job with
  | none => s
  | some j =>
    let said := j.awl.said.contains f.check
    let s := choose (setJob s (fun j =>
      { j with
        interlocks := mapAt j.interlocks (f.check - 1) (fun n => min (n + 1) 0xFFFFFFFF)
        awl.said := insertOnce f.check j.awl.said }))
    if said then s else recordRaw s (0x3000 + f.check) (faultRecord s f false) false

/-- Whether the job runs relaxed. -/
def isRelaxed (s : State) : Bool := match s.job with | some j => j.relaxed | none => false

end Sys2Proof.Machine
end

