-- ==== Sys2Proof/Machine/SkiveL.lean ====
section
/-! DEFINITION. Skive-L frames (R115 to R119): decoding, which rejects by R118, and the encoder of R117. -/
namespace Sys2Proof.Machine

/-- R116: decode a body to elements. `fuel` bounds the operations, `left` is the elements still to produce. -/
def skiveBody (w : Nat) : Nat → Nat → List Byte → Option (List Nat)
  | _, 0, [] => some []
  | 0, _, _ => none
  | _ + 1, _, [] => none
  | fuel + 1, left, c :: rest =>
    let n := c.toNat
    if n < 0x80 then
      let k := n + 1
      if left < k ∨ rest.length < k * w then none
      else
        match skiveBody w fuel (left - k) (rest.drop (k * w)) with
        | none => none
        | some xs => some ((chunks w (rest.take (k * w))).map leNat ++ xs)
    else
      let z := if n = 0xFF then leAt rest 0 2 + 1 else n - 0x7F
      let used := if n = 0xFF then 2 else 0
      if left < z ∨ rest.length < used then none
      else
        match skiveBody w fuel (left - z) (rest.drop used) with
        | none => none
        | some xs => some (List.replicate z 0 ++ xs)

/-- R116: undo differences. -/
def undoDelta (w : Nat) : Nat → List Nat → List Nat
  | _, [] => []
  | prev, d :: ds =>
    let x := (prev + d) % 2 ^ (8 * w)
    x :: undoDelta w x ds

/-- R118: decode a frame whose original length may be at most `limit`; none is a decode failure. -/
def skiveDecode (limit : Nat) (f : List Byte) : Option (List Byte) :=
  let n := leAt f 0 4
  let b4 := (byteAt f 4).toNat
  let w := 2 ^ (b4 % 4)
  if f.length < 12 ∨ byteAt f 5 ≠ 1#8 ∨ 8 ≤ b4 ∨ leAt f 6 2 ≠ 0 ∨ b4 % 4 = 3 ∨ n = 0 ∨ n % w ≠ 0 ∨ limit < n then none
  else
    let body := slice f 8 (f.length - 12)
    match skiveBody w body.length (n / w) body with
    | none => none
    | some ds =>
      let xs := if bitOf b4 2 then undoDelta w 0 ds else ds
      let out := xs.flatMap (leBytes w)
      if crc32c out = leAt f (f.length - 4) 4 then some out else none

/-- R117: differences. -/
def toDelta (w : Nat) : Nat → List Nat → List Nat
  | _, [] => []
  | prev, x :: xs => (x + 2 ^ (8 * w) - prev) % 2 ^ (8 * w) :: toDelta w x xs

/-- The zeros at the head of a list. -/
def zeroHead : List Nat → Nat
  | 0 :: xs => zeroHead xs + 1
  | _ => 0

/-- R117: the operations of a run of k zeros. -/
def zeroRuns : Nat → Nat → List Byte
  | 0, _ => []
  | fuel + 1, k =>
    if k = 0 then []
    else if k ≤ 127 then [byteOf (0x7F + k)]
    else
      let r := min k 65536
      (0xFF#8 :: leBytes 2 (r - 1)) ++ zeroRuns fuel (k - r)

/-- The literals at the head of a list: up to the next zero run of two or more. -/
def litHead : List Nat → Nat
  | [] => 0
  | [_] => 1
  | 0 :: 0 :: _ => 0
  | _ :: y :: xs => litHead (y :: xs) + 1

/-- R117: the operations of a run of literals. -/
def litRuns (w : Nat) (xs : List Nat) : List Byte :=
  (chunks 128 xs).flatMap (fun c => byteOf (c.length - 1) :: c.flatMap (leBytes w))

/-- R117: the body. -/
def skiveOps (w : Nat) : Nat → List Nat → List Byte
  | 0, _ => []
  | _ + 1, [] => []
  | fuel + 1, x :: xs =>
    let z := zeroHead (x :: xs)
    if 2 ≤ z then zeroRuns (z + 1) z ++ skiveOps w fuel ((x :: xs).drop z)
    else
      let k := max 1 (litHead (x :: xs))
      litRuns w ((x :: xs).take k) ++ skiveOps w fuel ((x :: xs).drop k)

/-- R117: the J12's encoder, for a width code and DELTA that the request names. -/
def skiveEncode (width : Nat) (delta : Bool) (bs : List Byte) : List Byte :=
  let w := 2 ^ width
  let xs := (chunks w bs).map leNat
  let ds := if delta then toDelta w 0 xs else xs
  leBytes 4 bs.length ++ [byteOf (width + 4 * bit01 delta), 1#8, 0#8, 0#8] ++ skiveOps w ds.length ds ++ leBytes 4 (crc32c bs)

end Sys2Proof.Machine
end

