-- ==== Sys2Proof/Machine/ServiceOps.lean ====
section
/-! DEFINITION. The service plane's packets, transactions, routing and flushing (11, 10 R254 and R255, 19 R482). -/
namespace Sys2Proof.Machine

/-! ### Headers (Table 11.1) -/

/-- OPCODE. -/
def hOp (h : List Byte) : Nat := leAt h 0 1
/-- CHANNEL. -/
def hSpread (h : List Byte) : Bool := bitOf (leAt h 1 1) 0
/-- VALIANT. -/
def hValiant (h : List Byte) : Bool := bitOf (leAt h 1 1) 1
/-- PHASE. -/
def hPhase (h : List Byte) : Bool := bitOf (leAt h 1 1) 2
/-- EPOCH. -/
def hEpoch (h : List Byte) : Nat := bitsOf (leAt h 1 1) 3 1
/-- FENCE. -/
def hFence (h : List Byte) : Bool := bitOf (leAt h 1 1) 4
/-- SKIVE_L. -/
def hSkive (h : List Byte) : Bool := bitOf (leAt h 1 1) 5
/-- MCAST. -/
def hMcast (h : List Byte) : Nat := bitsOf (leAt h 1 1) 6 2
/-- DEST. -/
def hDest (h : List Byte) : Nat := leAt h 2 2
/-- SRC. -/
def hSrc (h : List Byte) : Nat := leAt h 4 2
/-- VIA. -/
def hVia (h : List Byte) : Nat := leAt h 6 2
/-- LENGTH. -/
def hLength (h : List Byte) : Nat := leAt h 20 2
/-- TXN. -/
def hTxn (h : List Byte) : Nat := leAt h 22 2
/-- MASK. -/
def hMask (h : List Byte) : Nat := leAt h 48 128
/-- Whether the packet is a reply. -/
def hReply (h : List Byte) : Bool := decide (0x80 ≤ hOp h)

/-- The 240 bytes of a header; EPOCH is stamped at injection (R282). -/
def hdrBytes (src via txn status sub : Nat) (h : Hdr) : List Byte :=
  let phase := !h.valiant || decide (via = src ∨ via = h.dest)
  [byteOf h.op, byteOf (maskOf [h.spread, h.valiant, phase, false, h.fence, h.skive] + 64 * h.mcast)]
    ++ leBytes 2 h.dest ++ leBytes 2 src ++ leBytes 2 (if h.valiant then via else 0) ++ leBytes 2 h.jobTag
    ++ [byteOf h.target, byteOf h.tile] ++ leBytes 5 h.addr ++ zeros 3 ++ leBytes 2 h.length ++ leBytes 2 txn
    ++ [byteOf status, byteOf sub] ++ zeros 2 ++ leBytes 4 h.arg ++ zeros 16 ++ leBytes 128 h.mask ++ zeros 64

/-- The shape as a coordinate. -/
def shapeOf (s : State) : Coord := ⟨s.dev.shape.getD 0 0, s.dev.shape.getD 1 0, s.dev.shape.getD 2 0⟩

/-- Whether a COORD field lies in the pod shape, its bits 15:14 0 (R13). -/
def inPod (s : State) (field : Nat) : Bool := decide (field < 16384) && inShape (shapeOf s) (Coord.ofField field)

/-- The linear index of a coordinate (R276). -/
def linear (s : State) (field : Nat) : Nat :=
  let c := Coord.ofField field
  let p := shapeOf s
  c.x + p.x * c.y + p.x * p.y * c.z

/-- The coordinate of a linear index. -/
def coordAt (s : State) (l : Nat) : Nat :=
  let p := shapeOf s
  (Coord.mk (l % p.x) (l / p.x % p.y) (l / (p.x * p.y))).field

/-- The chips of the pod. -/
def podSize (s : State) : Nat := let p := shapeOf s; p.x * p.y * p.z

/-- The indices of a mask's 1 bits, below the pod's size. -/
def maskList (s : State) (m : Nat) : List Nat := (List.range (podSize s)).filter (fun i => bitOf m i)

/-- The mask of a list of indices. -/
def listMask (ls : List Nat) : Nat := ls.foldl (fun m i => if bitOf m i then m else m + 2 ^ i) 0

/-- The destinations of a multicast (R280). -/
def mcastDests (s : State) (mcast src mask : Nat) : List Nat :=
  let c := Coord.ofField src
  (List.range (podSize s)).filter (fun l =>
    let d := Coord.ofField (coordAt s l)
    match mcast with
    | 1 => decide (d.y = c.y ∧ d.z = c.z ∧ d.x ≠ c.x)
    | 2 => decide (d.x = c.x ∧ d.z = c.z ∧ d.y ≠ c.y)
    | _ => bitOf mask l)

/-- A header that breaks Table 11.1 (R266, R275, R280); reserved bits are ignored (00 R9). -/
def hdrBad (h : List Byte) : Bool :=
  let t := leAt h 10 1
  let req := decide (hOp h = 1 ∨ hOp h = 2 ∨ hOp h = 3)
  !(req || decide (hOp h = 0x81 ∨ hOp h = 0x82 ∨ hOp h = 0x83))
    || (hValiant h && !hSpread h) || (!hValiant h && !hPhase h) || decide (3840 < hLength h)
    || (decide (hMcast h ≠ 0) && (hSpread h || decide (hOp h ≠ 1 ∧ hOp h ≠ 3)))
    || (req && (decide (t = 0 ∨ 5 < t) || decide ((hOp h = 3) ≠ (t = 4))))

/-! ### Packets and units (R259, R260) -/

/-- The payload units that a header announces (R259). -/
def payloadUnits (h : List Byte) : Nat := if hOp h = 1 ∨ hOp h = 0x82 then ceilDiv (hLength h) 240 else 0

/-- The units of a packet. -/
def pktUnits (ingress : Nat) (p : Pkt) : List SvcUnit :=
  let cs := chunks 240 p.data
  let n := cs.length
  ({ first := true, last := decide (n = 0), trunc := false, len := 239, payload := p.hdr, ingress, kind := 5,
     hdr := p.hdr } : SvcUnit)
    :: cs.mapIdx (fun i c => { first := false, last := decide (i + 1 = n), trunc := false, len := c.length - 1,
                               payload := padTo 240 c, ingress, kind := 5, hdr := p.hdr })

/-- The channel of a unit: 0 ordered, 1 spread. -/
def SvcUnit.channel (u : SvcUnit) : Nat := bit01 (hSpread u.hdr)

/-- A bank's packet has been handled now (R284). -/
def touchBank (s : State) (epoch : Nat) : State := { s with svc.handledAt := setAt s.svc.handledAt epoch (some s.now) }

/-- A credit of ingress eyelet `k` becomes returnable (R245); an ACK is then due. -/
def credBack (s : State) (k kind : Nat) : State :=
  if k < 16 ∧ kind < 6 then
    setEyelet s k (fun e => { e with returnable := mapAt e.returnable kind (· + 1) })
  else s

/-- A unit of channel `c` has left by output `o` in this stitch (R286). -/
def moved (s : State) (o c : Nat) : State := { s with svc.movedNow := insertOnce (2 * o + c) s.svc.movedNow }

/-- Queue a unit for an eyelet on a VC. -/
def queueUnit (s : State) (k vc : Nat) (u : SvcUnit) : State :=
  setEyelet s k (fun e => { e with txSvc := mapAt e.txSvc vc (· ++ [u]) })

/-! ### Transactions (R267 to R269, R482) -/

/-- Whether a TXN value may be used now (R482). -/
def txnFree (s : State) (v : Nat) : Bool :=
  !s.svc.txns.any (fun t => decide (t.id = v))
    && !s.svc.timedOut.any (fun x => decide (x.1 = v ∧ s.now < x.2 + 2 * s.regs.complTimeout * msTicks))

/-- The first usable TXN from `v` on. -/
def findTxn (s : State) : Nat → Nat → Option Nat
  | 0, _ => none
  | fuel + 1, v => if txnFree s v then some v else findTxn s fuel ((v + 1) % 65536)

/-- The next TXN, where fewer than 4,096 transactions are outstanding (R267). -/
def nextTxn (s : State) : Option Nat := if s.svc.txns.length < 4096 then findTxn s 65536 s.svc.nextTxn else none

/-- Whether another transaction can be issued. -/
def canIssue (s : State) : Bool := (nextTxn s).isSome

/-- Issue a request: its transaction, and its packet for injection. Unchanged where no transaction is free. -/
def issueNow (s : State) (owner : Owner) (h : Hdr) (data : List Byte) (onDone : OnDone) : State :=
  match nextTxn s with
  | none => s
  | some id =>
    let via := coordAt s (freshFree s 0 % max 1 (podSize s))
    let s := if h.valiant then bumpFree s else s
    let dests := if h.mcast = 0 then [linear s h.dest] else mcastDests s h.mcast s.dev.coord h.mask
    let t : Txn := { id, owner, deadline := s.now + s.regs.complTimeout * msTicks, spread := h.spread,
                     mcast := decide (h.mcast ≠ 0), read := decide (h.op = 2), waiting := dests, answers := [], unsure := [],
                     arg := 0, data := [], onDone }
    { s with
      svc.txns := s.svc.txns ++ [t]
      svc.nextTxn := (id + 1) % 65536
      svc.inject := s.svc.inject ++ [{ owner, pkt := ⟨hdrBytes s.dev.coord via id 0 0 h, data⟩ }] }

/-- Issue the requests that wait, oldest first, while transactions are free (R267). -/
def pumpIssue : Nat → State → State
  | 0, s => s
  | fuel + 1, s =>
    match s.svc.waiting with
    | [] => s
    | w :: rest =>
      if canIssue s then pumpIssue fuel (issueNow { s with svc.waiting := rest } w.owner w.hdr w.data w.onDone) else s

/-- Issue a request of the chip or of a host transfer, now or once a transaction is free (R267). -/
def issue (s : State) (owner : Owner) (h : Hdr) (data : List Byte) (onDone : OnDone) : State :=
  pumpIssue (s.svc.waiting.length + 1) { s with svc.waiting := s.svc.waiting ++ [⟨owner, h, data, onDone⟩] }

/-- The reply to a request (R266), with `mask` for a multicast. -/
def replyPkt (s : State) (h : List Byte) (status sub arg mask : Nat) (skive : Bool) (data : List Byte) : Pkt :=
  ⟨hdrBytes s.dev.coord 0 (hTxn h) status sub
    { op := hOp h + 0x80, spread := hSpread h, valiant := false, fence := false, skive, mcast := 0, dest := hSrc h,
      jobTag := 0xFFFF, target := 0, tile := 0, addr := 0, length := data.length, arg, mask }, data⟩

/-- Put a reply into the injection queue. -/
def sendReply (s : State) (h : List Byte) (status sub arg mask : Nat) (skive : Bool) (data : List Byte) : State :=
  { s with svc.inject := s.svc.inject ++ [{ owner := .chip, pkt := replyPkt s h status sub arg mask skive data }] }

/-- Answer a request that cannot go on: its own bit, or the group's, in MASK (R281). -/
def refusePkt (s : State) (h : List Byte) (status sub : Nat) : State :=
  if hReply h then s
  else sendReply s h status sub 0
    (if hMcast h = 0 then 0 else listMask (mcastDests s (hMcast h) (hSrc h) (hMask h))) false []

/-! ### Routing (R274 to R278) -/

/-- Where a packet goes. -/
inductive Way where
  | out (egress vc : Nat)
  | local | turn | wait | discard
  deriving DecidableEq, Repr

/-- DIM of an eyelet byte (Table 11.5). -/
def eyeDim (b : Nat) : Nat := b % 4
/-- CROSS of an eyelet byte. -/
def eyeCross (b : Nat) : Bool := bitOf b 3

/-- The VC base of a packet: requests 0, replies 2. -/
def vcBase (h : List Byte) : Nat := if hReply h then 2 else 0

/-- The VC of an ordered hop (R278): index 1 across the dateline, and on to the end of the dimension. -/
def orderedVc (b : RouteTable) (h : List Byte) (ingress vcIn egress : Nat) : Nat :=
  let out := b.eyelets.getD egress 3
  let same := decide (ingress < 16 ∧ eyeDim (b.eyelets.getD ingress 3) = eyeDim out)
  vcBase h + (if eyeCross out || (same && decide (vcIn % 2 = 1)) then 1 else 0)

/-- Whether an eyelet holds a receiver credit for a VC. -/
def hasCredit (e : Eyelet) (vc : Nat) : Bool := decide (0 < e.credits.getD vc 0 ∨ 0 < e.credits.getD 4 0)

/-- The adaptive egress: UP, with a credit, the fewest units queued, the lowest number (R274). -/
def adaptive (s : State) (mask vc : Nat) : Option Nat :=
  ((List.range 16).filter (fun k => bitOf mask k && decide ((s.eyelet k).state = .up) && hasCredit (s.eyelet k) vc)).foldl
    (fun m k =>
      let q (k : Nat) : Nat := ((s.eyelet k).txSvc.getD vc []).length
      match m with
      | none => some k
      | some j => if q k < q j then some k else some j) none

/-- The way of a unicast packet that came in on `ingress` and VC `vcIn` (R274, R275, R278). An adaptive packet that
arrives on index 0 has taken its escape hop. -/
def wayOf (s : State) (b : RouteTable) (h : List Byte) (ingress vcIn : Nat) : Way :=
  let toVia := hValiant h && !hPhase h
  let dest := if toVia then hVia h else hDest h
  if dest = s.dev.coord then (if toVia then .turn else .local)
  else
    let e := b.entries.getD (linear s dest) (0xF, 0xF, 0)
    if !hSpread h then .out e.1 (orderedVc b h ingress vcIn e.1)
    else
      let esc := Way.out e.2.1 (vcBase h)
      let escaped := decide (ingress < 16 ∧ vcIn % 2 = 0)
      if escaped then esc
      else
        match adaptive s e.2.2 (vcBase h + 1) with
        | some k => .out k (vcBase h + 1)
        | none =>
          if hasCredit (s.eyelet e.2.1) (vcBase h) then esc
          else if (s.eyelet e.2.1).state ≠ .up ∧
              (List.range 16).all (fun k => !bitOf e.2.2 k || decide ((s.eyelet k).state ≠ .up)) then esc
          else .wait

/-- The groups of a multicast by egress, this chip's own index as 16 (R280). -/
def mcastGroups (s : State) (b : RouteTable) (dests : List Nat) : List (Nat × List Nat) :=
  let me := linear s s.dev.coord
  dests.foldl (fun gs l =>
    let k := if l = me then 16 else (b.entries.getD l (0xF, 0xF, 0)).1
    assocSet k ((assoc k gs).getD [] ++ [l]) gs) []

/-- A header with MCAST = 3 and this mask. -/
def withMask (h : List Byte) (dests : List Nat) : List Byte :=
  overlay (overlay h 1 [byteOf (leAt h 1 1 % 64 + 192)]) 48 (leBytes 128 (listMask dests))

/-- An eyelet that is down with its grace period over holds nothing: what goes to it is flushed at once (R254, R255; log
entry 26). -/
def egressDead (s : State) (k : Nat) : Bool := decide ((s.eyelet k).state ≠ .up) && (s.eyelet k).graceUntil.isNone

/-- Send the copies of a whole multicast packet (R280). -/
def spreadCopies (s : State) (b : RouteTable) (ingress vcIn : Nat) (p : Pkt) (gs : List (Nat × List Nat)) : State :=
  gs.foldl (fun s g =>
    let p' : Pkt := ⟨withMask p.hdr g.2, p.data⟩
    if g.1 = 16 then { s with svc.here := s.svc.here ++ [⟨ingress, vcIn, p'⟩] }
    else if egressDead s g.1 then refusePkt s p'.hdr stFlushed 0
    else (pktUnits 16 p').foldl (fun s u => queueUnit s g.1 (orderedVc b p.hdr ingress vcIn g.1) u) s) s

/-- Units held in the turn buffer, packets still coming in included. -/
def turnUnits (s : State) : Nat :=
  (s.svc.turn.map (fun p => 1 + payloadUnits p.hdr)).sum
    + ((s.svc.asm.filter (fun a =>
        match (s.eyelet a.ingress).routes.getD a.vc none with | some r => decide (r.egress = 17) | none => false)).map
        (fun a => 1 + payloadUnits a.pkt.hdr)).sum

/-- Whether a packet is being stored in the multicast buffer. -/
def mcastTaken (s : State) : Bool :=
  s.svc.asm.any (fun a => match (s.eyelet a.ingress).routes.getD a.vc none with
    | some r => decide (r.egress = 18) | none => false)

/-- A request of this chip on the ordered channel. -/
def reqHdr (op dest target addr length arg : Nat) : Hdr :=
  { op, spread := false, valiant := false, fence := false, skive := false, mcast := 0, dest, jobTag := 0xFFFF, target,
    tile := 0, addr, length, arg, mask := 0 }

/-- The routing bank of a packet. -/
def bankOf (s : State) (h : List Byte) : Option RouteTable := s.svc.banks.getD (hEpoch h) none

/-- A packet stored whole moves on: performed here, turned, or copied (R275, R280). -/
def storedWhole (s : State) (egress ingress vc : Nat) (p : Pkt) : State :=
  match egress with
  | 16 => { s with svc.here := s.svc.here ++ [⟨ingress, vc, p⟩] }
  | 17 => { s with svc.turn := s.svc.turn ++ [⟨overlay p.hdr 1 [byteOf (leAt p.hdr 1 1 ||| 4)], p.data⟩] }
  | 18 =>
    match bankOf s p.hdr with
    | some b => spreadCopies s b ingress vc p
        (mcastGroups s b (mcastDests s (hMcast p.hdr) (hSrc p.hdr) (hMask p.hdr)))
    | none => s
  | _ => s

/-- Pass one unit along its packet's route; at the last the route ends. A unit marked TRUNC ends the packet unused. -/
def passUnit (s : State) (k vc : Nat) (r : SvcRoute) (u : SvcUnit) : State :=
  let s := if r.egress < 16 then
      queueUnit s r.egress r.vc { u with hdr := r.hdr, payload := if u.first then r.hdr else u.payload }
    else
      let s := credBack s k u.kind
      let old := (s.svc.asm.find? (fun a => decide (a.ingress = k ∧ a.vc = vc))).map (·.pkt)
      let p : Pkt := match old with
        | some p => ⟨p.hdr, p.data ++ u.payload.take (u.len + 1)⟩
        | none => ⟨r.hdr, []⟩
      let rest := s.svc.asm.filter (fun a => decide (a.ingress ≠ k ∨ a.vc ≠ vc))
      if u.last then
        let s := { s with svc.asm := rest }
        if u.trunc then s else storedWhole s r.egress k vc p
      else { s with svc.asm := rest ++ [⟨k, vc, p⟩] }
  setEyelet s k (fun e => { e with routes := setAt e.routes vc (if u.last then none else some r) })

/-- Pass the units of eyelet `k` on a VC along the route in progress, up to the packet's end. -/
def drainVc (k vc : Nat) : Nat → State → State
  | 0, s => s
  | fuel + 1, s =>
    match (s.eyelet k).routes.getD vc none, (s.eyelet k).rxSvc.getD vc [] with
    | some r, u :: rest =>
      drainVc k vc fuel (passUnit (setEyelet s k (fun e => { e with rxSvc := setAt e.rxSvc vc rest })) k vc r u)
    | _, _ => s

/-- Start a packet of eyelet `k` on a route, and pass what has arrived of it. -/
def startRoute (s : State) (k vc : Nat) (r : SvcRoute) : State :=
  let n := ((s.eyelet k).rxSvc.getD vc []).length
  drainVc k vc n (setEyelet s k (fun e => { e with routes := setAt e.routes vc (some r) }))

/-- A delivered service unit passes to the router (R240, R277): it follows its packet's route, or waits for one. -/
def svcArrive (s : State) (k vc : Nat) (u : SvcUnit) : State :=
  let e := s.eyelet k
  let q := e.rxSvc.getD vc []
  let hdr := if u.first then u.payload
    else match q.getLast? with
      | some p => p.hdr
      | none => match e.routes.getD vc none with | some r => r.hdr | none => []
  let s := setEyelet (touchBank s (hEpoch hdr)) k
    (fun e => { e with rxSvc := setAt e.rxSvc vc (q ++ [{ u with hdr }]) })
  drainVc k vc (q.length + 1) s

/-! ### Flush (R255) -/

/-- The packets of a list of units, once each, with whether a unit of it was in the replay buffer. -/
def packetsOf (us : List (Bool × SvcUnit)) : List (List Byte × Bool) :=
  us.foldl (fun ps u => assocSet u.2.hdr ((assoc u.2.hdr ps).getD false || u.1) ps) []

/-- SUB of a SERVICE_FLUSHED reply: 1 where delivery is unconfirmed, 0 where nothing was delivered (log entry 20). -/
def flushSub (sent : Bool) : Nat := if sent then 1 else 0

/-- The units of whole packets; those of a packet still coming in are dropped. -/
def wholePackets (us : List SvcUnit) : List SvcUnit := (us.reverse.dropWhile (fun u => !u.last)).reverse

/-- Flush the held service traffic of eyelet `k`: the initiators are answered, routes into the eyelet discard what still
comes, and packets it was bringing in end downstream with TRUNC (R255). -/
def flushEyelet (s : State) (k : Nat) : State :=
  let e := s.eyelet k
  let sent := e.replay.filterMap (fun r => r.svc.map (fun v => (true, v.2)))
  let queued := (e.txResume.map (fun x => (false, x.2))) ++ (e.txSvc.flatMap (fun q => q.map (fun u => (false, u))))
  let packets := packetsOf (sent ++ queued)
  let s := setEyelet s k (fun e => { e with replay := e.replay.filter (fun r => r.svc.isNone), txResume := [],
                                            txSvc := [[], [], [], []], graceUntil := none })
  let s := queued.foldl (fun s u => credBack s u.2.ingress u.2.kind) s
  let s := { s with eyelets := s.eyelets.map (fun x => { x with
    routes := x.routes.map (fun r => match r with
      | some r => if r.egress = k then some { r with egress := 19 } else some r
      | none => none) }) }
  let s := packets.foldl (fun s p => refusePkt s p.1 stFlushed (flushSub p.2)) s
  (List.range 4).foldl (fun s vc =>
    let e := s.eyelet k
    let s := match e.routes.getD vc none with
      | some r => if r.egress < 16 then
          queueUnit s r.egress r.vc { first := false, last := true, trunc := true, len := 0, payload := zeros 240,
                                      ingress := 16, kind := 5, hdr := r.hdr }
        else s
      | none => s
    { (setEyelet s k (fun e => { e with routes := setAt e.routes vc none, rxSvc := mapAt e.rxSvc vc wholePackets })) with
      svc.asm := s.svc.asm.filter (fun a => decide (a.ingress ≠ k ∨ a.vc ≠ vc)) }) s

end Sys2Proof.Machine
end

