-- ==== Sys2Proof/Machine/LinkOps.lean ====
section
/-! DEFINITION. The shared operations of an eyelet: leaving and entering UP, violations, re-sends, acknowledgements,
credits, the training mini-units (10). An event of an eyelet carries the eyelet first (log entry 21). -/
namespace Sys2Proof.Machine

/-! ### Times and events -/

/-- 2 × hop latency plus `ns` nanoseconds, in 1/16 ns. -/
def roundTrip (e : Eyelet) (ns : Nat) : Nat := 2 * e.hopLat + ns * nsTicks

/-- A counter of Table 20.7 saturates. -/
def satUp (n : Nat) : Nat := min (n + 1) 0xFFFFFFFF

/-- Training failed: event 0x2203 (Table 10.4). -/
def trainFail (s : State) (k : Nat) : State := event s 0x2203 [k]

/-! ### Leaving UP (R253, R254) -/

/-- Enter DOWN or HELD with nothing of the link in hand but what R254 holds. -/
def dropLink (e : Eyelet) (next : LinkState) : Eyelet :=
  { e with
    state := next, lanes := [], hopLocked := false, partnerActive := false, credits := [0, 0, 0, 0, 0, 0],
    badRun := 0, partialItem := [], rxItems := [], replay := e.replay.filter (fun r => r.svc.isSome), reorder := [],
    nakAt := [], rangeNakAt := none, unechoed := 0, resendQ := [], tResendQ := [], offerAsm := none, txCtl := [],
    ackDue := false, txSched := [], landing := [], violTimes := [] }

/-- The back-off returns to 1 ms after 10 s in UP (R229). -/
def settleBackoff (now : Nat) (e : Eyelet) : Eyelet :=
  if e.state = .up ∧ e.upAt + 10000 * msTicks ≤ now then { e with backoff := 1 } else e

/-- The link-down actions on leaving UP (R253): DOWN_NOTICE where ordered, credits and scheduled units dropped, service
traffic held for the grace period (R254), the job stopped where its lacing uses the eyelet (R218). -/
def leaveUp (s : State) (k cause : Nat) (notice : Bool) (next : LinkState) : State :=
  let s := if notice then sendNow s k (miniUnit [0x08, byteOf cause]) else s
  let s := setEyelet s k (fun e =>
    { dropLink (settleBackoff s.now e) next with
      graceUntil := some (s.now + s.regs.graceMs.getD k 50 * msTicks) })
  let s := event s 0x2202 [k, cause]
  laceLinkDown (event s 0x2208 [k]) k

/-- Both hops of a bridge go DOWN (R234). -/
def bridgeDown (s : State) (k code : Nat) : State :=
  match (s.eyelet k).bridgePeer with
  | none => s
  | some p => event (setEyelet (setEyelet s k (dropLink · .down)) p (dropLink · .down)) code [k, p]

/-- An eyelet leaves whatever state it is in for DOWN or HELD: the link-down actions from UP, both hops from RELAY. -/
def takeDown (s : State) (k cause : Nat) (notice : Bool) (next : LinkState) : State :=
  match (s.eyelet k).state with
  | .up => leaveUp s k cause notice next
  | .relay => setEyelet (bridgeDown s k 0x220B) k (fun e => { e with state := next })
  | _ => setEyelet s k (dropLink · next)

/-- Enter DETECT with the settings in force (Table 10.4); TRAININGS counts it. -/
def enterDetect (s : State) (k : Nat) : State :=
  setEyelet s k (fun e =>
    { e with state := .detect, lanes := [], slow := false, laneOk := 0, trainings := satUp e.trainings,
             identityOk := false, identitySent := false, partnerRxNext := none, probesSent := 0, probesAnswered := [],
             latMax := 0, hopLocked := false, partnerActive := false })

/-- The eyelets of this chip that the Cobbler has been ordered to release leave HELD once the chip has reached SETUP and
its coordinate is set (R434). -/
def applyReleases (s : State) : State :=
  if s.dev.state = .off ∨ s.dev.state = .cold ∨ s.dev.state = .faulted ∨ !s.dev.coordValid then s
  else (List.range 16).foldl (fun s k =>
    if bitOf (s.cob.released.getD s.position 0) k ∧ (s.eyelet k).state = .held then enterDetect s k else s) s

/-! ### Violations (R256 to R258) -/

/-- Count a violation: its event at most once per ms per eyelet and code, and the 16th within 1 ms retrains. -/
def violation (s : State) (k code what : Nat) : State :=
  let s := setEyelet s k (fun e =>
    { e with violations := satUp e.violations,
             violTimes := e.violTimes.filter (fun t => decide (s.now < t + msTicks)) ++ [s.now] })
  let s := eventLimited s code k msTicks (fun _ => [k, what])
  if 16 ≤ (s.eyelet k).violTimes.length ∧ (s.eyelet k).state = .up then
    leaveUp (event s 0x221A [k]) k 0x1A true .down
  else s

/-- A welt number counted since UP as it goes on the link. -/
def seq12 (n : Nat) : Nat := n % 4096

/-- How far `x` lies behind the `n` numbers sent so far, and whether it was sent at all (R256). -/
def behind (n modulus x : Nat) : Option Nat :=
  let d := (n % modulus + modulus - 1 + (modulus - x % modulus)) % modulus
  if d < min (modulus / 2) n then some d else none

/-! ### Re-sends (R242, R243, R249) -/

/-- The retry limit: event 0x2205 and DOWN (Table 10.4). -/
def retryLimit (s : State) (k : Nat) : State := leaveUp (event s 0x2205 [k]) k 0x05 true .down

/-- Queue a re-send of the unit with sequence `q`, unless it is queued; a ninth sending meets the retry limit (log entry
22). `fresh` asks for R243's rule that a unit re-sent just now is not re-sent. -/
def askResend (s : State) (k q : Nat) (fresh : Bool) : State :=
  let e := s.eyelet k
  match e.replay.find? (fun r => decide (r.seq = q)) with
  | none => s
  | some r =>
    if e.state ≠ .up ∨ q ∈ e.resendQ ∨ (fresh ∧ 2 ≤ r.sends ∧ s.now < r.sentAt + roundTrip e 64) then s
    else if 8 ≤ r.sends then retryLimit s k
    else setEyelet s k (fun e => { e with resendQ := e.resendQ ++ [q] })

/-- Re-send tongue mini-units in order from T_SEQ `t` on (R249). -/
def askTongue (s : State) (k t : Nat) : State :=
  let e := s.eyelet k
  let us := e.tUnacked.dropWhile (fun u => decide (u.tseq ≠ t))
  if e.state ≠ .up then s
  else if us.any (fun u => decide (8 ≤ u.sends)) then retryLimit s k
  else setEyelet s k (fun e => { e with tResendQ := us.map (·.tseq) })

/-- Queue a NAK (Table 10.8). -/
def queueNak (s : State) (k seq : Nat) (range tongue : Bool) : State :=
  setEyelet s k (fun e =>
    { e with txCtl := e.txCtl ++ [miniUnit ([0x02, 0] ++ leBytes 2 (seq + 4096 * bit01 range + 8192 * bit01 tongue))] })

/-- NAK one number, unless it was NAKed within 2 × hop latency + 64 ns (R242). -/
def nakSeq (s : State) (k seq : Nat) : State :=
  let e := s.eyelet k
  let live := e.nakAt.filter (fun x => decide (s.now < x.2 + roundTrip e 64))
  if live.any (fun x => decide (x.1 = seq)) then s
  else queueNak (setEyelet s k (fun e => { e with nakAt := live ++ [(seq, s.now)] })) k seq false false

/-- A unit that fails its CRC: NAK of E (R242). -/
def nakExpected (s : State) (k : Nat) : State := nakSeq s k (seq12 (s.eyelet k).expect)

/-! ### Acknowledgements and credits -/

/-- The partner has received every unit up to ECHO (R239); a number never sent is a BAD_ACK (R256). -/
def takeEcho (s : State) (k echo what : Nat) : State :=
  let e := s.eyelet k
  match behind e.sendSeq 4096 echo with
  | none => violation s k 0x2216 what
  | some _ =>
    let keep := e.replay.filter (fun r => decide (1023 < (echo + 4096 - r.seq) % 4096))
    setEyelet s k (fun e =>
      { e with
        replay := keep
        resendQ := e.resendQ.filter (fun q => keep.any (fun r => decide (r.seq = q)))
        ackAdvanceAt := if keep.length < e.replay.length then s.now else e.ackAdvanceAt })

/-- The same for the tongue's T_ECHO (R249). -/
def takeTongueEcho (s : State) (k echo what : Nat) : State :=
  let e := s.eyelet k
  match behind e.tSend 256 echo with
  | none => violation s k 0x2216 what
  | some _ =>
    let keep := e.tUnacked.filter (fun u => decide (127 < (echo + 256 - u.tseq) % 256))
    setEyelet s k (fun e =>
      { e with tUnacked := keep, tResendQ := e.tResendQ.filter (fun t => keep.any (fun u => decide (u.tseq = t))) })

/-- What the partner advertised of each kind (R246). -/
def Advert.kinds (a : Advert) : List Nat := padKinds a.res ++ [a.shared, a.tongue]
where
  /-- The four reserves. -/
  padKinds (r : List Nat) : List Nat := (r ++ [0, 0, 0, 0]).take 4

/-- `n` credits of a kind come back (R245); more than are outstanding is a BAD_ACK, and the field is ignored (R256). -/
def takeReturn (s : State) (k kind n : Nat) : State :=
  let e := s.eyelet k
  if n = 0 then s
  else if e.advert.kinds.getD kind 0 < e.credits.getD kind 0 + n then violation s k 0x2216 0x01
  else setEyelet s k (fun e =>
    { e with credits := mapAt e.credits kind (· + n), gotBack := mapAt e.gotBack kind (fun x => (x + n) % 65536) })

/-- The credits of each kind that this J12 advertises (R244). -/
def ownPool : List Nat := [16, 16, 16, 16, 448, 16]

/-- The ACK to send now: echoes and every returnable credit (Table 10.8). -/
def ackItem (e : Eyelet) : List Byte :=
  let r (i : Nat) : Nat := e.returnable.getD i 0
  let some16 := decide (0 < e.expect)
  let someT := decide (0 < e.tExpect)
  miniUnit ([0x01, 0] ++ leBytes 2 (seq12 (e.expect + 4095) + 4096 * bit01 some16) ++ [byteOf (e.tExpect + 255),
    byteOf (bit01 someT), 0, 0, byteOf (min (r 0) 255), byteOf (min (r 1) 255), byteOf (min (r 2) 255),
    byteOf (min (r 3) 255)] ++ leBytes 2 (r 4) ++ [byteOf (min (r 5) 255)])

/-- What the sending of that ACK leaves (R241, R245, R247). -/
def ackSent (now : Nat) (e : Eyelet) : Eyelet :=
  let gave := e.returnable.mapIdx (fun i n => if i = 4 then n else min n 255)
  let total := (List.range 6).map (fun i => ((e.returned.getLast?.map (·.2)).getD []).getD i 0 + gave.getD i 0)
  { e with
    returnable := e.returnable.mapIdx (fun i n => n - gave.getD i 0)
    occupied := e.occupied.mapIdx (fun i n => n - gave.getD i 0)
    returned := e.returned ++ [(now, total)]
    unechoed := 0, ackDue := false }

/-- Whether an ACK has anything to say. -/
def ackWorth (e : Eyelet) : Bool := decide (0 < e.unechoed) || e.returnable.any (fun n => decide (0 < n))

/-! ### Exchange (R232, R233) and CREDIT (R244) -/

/-- The EXCHANGE mini-unit (Table 10.5). -/
def exchangeItem (s : State) (k : Nat) : List Byte :=
  let e := s.eyelet k
  let held := e.graceUntil.isSome
  miniUnit ([0x06, 0x01] ++ leBytes 2 s.dev.coord ++ [byteOf (k + 16 * bit01 s.dev.coordValid), 0]
    ++ leBytes 2 (if held then seq12 e.expect + 32768 else 0))

/-- The CREDIT_INIT mini-unit (R244); LANDING 256 in its byte (log entry 23). -/
def creditInitItem : List Byte :=
  miniUnit ([0x07, 0] ++ leBytes 2 512 ++ [16, 16, 16, 16] ++ leBytes 2 448 ++ [16, byteOf 256])

/-- The hop latency limit of the eyelet's class in 1/16 ns (Tables 1.4 and 10.1). -/
def classLimit (position k : Nat) : Nat :=
  let board := match position with
    | 0 => [0, 1, 4, 5] | 1 => [2, 3, 4, 5] | 2 => [0, 1, 6, 7] | _ => [2, 3, 6, 7]
  16 * (if board.contains k then 60 else if Config.activeCable k then 96 else 70)

/-- EXCHANGE ends once both identities are in and 64 probes are answered: the latency is frozen, CREDIT_INIT goes out. -/
def exchangeDone (s : State) (k : Nat) : State :=
  let e := s.eyelet k
  if e.state = .exchange ∧ e.identityOk ∧ e.identitySent ∧ 64 ≤ e.probesAnswered.length then
    sendNow (setEyelet s k (fun e =>
      { e with state := .credit, hopLat := e.latMax,
               overClass := decide (classLimit s.position k < e.latMax) })) k creditInitItem
  else s

/-- Enter EXCHANGE and send the first EXCHANGE. -/
def enterExchange (s : State) (k : Nat) : State :=
  let s := setEyelet s k (fun e => { e with state := .exchange, identitySent := s.dev.coordValid })
  sendNow s k (exchangeItem s k)

/-! ### Entering UP (R252) -/

/-- Enter UP with the partner's advertisement: numbers start at 0, what was held resumes or is flushed (R252). -/
def enterUp (s : State) (k : Nat) (a : Advert) : State :=
  let e := s.eyelet k
  let s := match e.graceUntil, e.partnerRxNext with
    | some _, none => flushEyelet (event s 0x2209 [k]) k
    | _, _ => s
  let e := s.eyelet k
  let left : List ReplayUnit := match e.partnerRxNext with
    | some rx => e.replay.filter (fun r => decide (1024 < (rx + 4096 - r.seq) % 4096 ∨ rx = r.seq))
    | none => []
  let again := left.filterMap (·.svc)
  let s := setEyelet s k (fun e =>
    { e with
      state := .up, advert := a, credits := a.kinds, occupied := [0, 0, 0, 0, 0, 0], returnable := [0, 0, 0, 0, 0, 0],
      returned := [], gotBack := [0, 0, 0, 0, 0, 0], leaks := [0, 0, 0, 0, 0, 0], sendSeq := 0, expect := 0, replay := [],
      reorder := [], resendQ := [], nakAt := [], rangeNakAt := none, unechoed := 0, ackDue := false,
      txResume := again.map (fun x => (x.1, { x.2 with ingress := 16, kind := 5 })) ++ e.txResume, tSend := 0, tExpect := 0,
      txTongue := e.tUnacked.map (·.bytes) ++ e.txTongue, tUnacked := [], tResendQ := [], graceUntil := none,
      violTimes := [], upAt := s.now, badRun := 0, partialItem := [] })
  event s 0x2201 [k]

end Sys2Proof.Machine
end

