-- ==== Sys2Proof/Machine/Ecc.lean ====
section
/-! DEFINITION. What an ECC finding does: the insole (03 R59 to R61, 19 R470) and HBM (12 R291 to R294). -/
namespace Sys2Proof.Machine

/-- 24 h in governor periods (R294, R470). -/
def dayPeriods : Nat := 86400000

/-- The local JS of the region of physical tile `t`. -/
def tileJs (s : State) (t : Nat) : Nat := (s.clk.regions.getD (tileRegion t) Region.fresh).js

/-- Change a tile's health record; a change of state or flag takes the WS (Table 19.4). -/
def setTile (s : State) (t : Nat) (f : TileHealth → TileHealth) : State :=
  { s with
    mem.tiles := mapAt s.mem.tiles t (fun h =>
      let g := f h
      if g.state = h.state ∧ g.candidate = h.candidate ∧ g.pending = h.pending then g
      else { g with wsChange := s.clk.ws }) }

/-- A cause makes a tile a retirement candidate: event 0x4012 once for each cause (R470). -/
def noteTileCause (s : State) (t cause : Nat) : State :=
  match s.mem.tiles[t]? with
  | none => s
  | some h =>
    if h.causes.contains cause then s
    else event (setTile s t (fun h => { h with candidate := true, causes := h.causes ++ [cause] })) 0x4012 [t, cause]

/-- A correctable insole error (R60); the 16th within 24 h makes the tile a candidate (R470). -/
def insoleCorrected (s : State) (t a : Nat) : State :=
  let s := event s 0x4010 [t, a]
  let s := setTile s t (fun h =>
    let live := (h.correctedAt.filter (fun p => decide (s.heel.periods < p + dayPeriods))) ++ [s.heel.periods]
    { h with correctedAt := live, corrected := min live.length 0xFFFF })
  if 16 ≤ ((s.mem.tiles[t]?.map (·.correctedAt)).getD []).length then noteTileCause s t 2 else s

/-- An uncorrectable insole error found by a read (R61): the event, the candidate, the job stops with INTERNAL. -/
def insoleUncorrected (s : State) (t a : Nat) : State :=
  let s := event s 0x4011 [t, a, tileJs s t]
  let s := setTile s t (fun h => { h with uncorrectable := min (h.uncorrectable + 1) 0xFFFFFFFF })
  stopJob (noteTileCause s t 1) stInternal

/-- Apply the retirement of a tile (R472): RETIRED, flags clear, and the lowest SPARE is enabled. -/
def retireTile (s : State) (t : Nat) : State :=
  let s := setTile s t (fun h => { h with state := 2, candidate := false, pending := false, causes := [] })
  let spare := (spareTiles s).head?
  let s := match spare with
    | some p => setTile s p (fun h => { h with state := 0 })
    | none => s
  event s 0x4013 [t, spare.getD 0xFF, (enabledTiles s).length]

/-- Apply every pending retirement (R471). -/
def applyPendingTiles (s : State) : State :=
  ((List.range 144).filter (fun t => (s.mem.tiles.getD t (TileHealth.factory 0)).pending)).foldl retireTile s

/-- Stack and pseudo-channel of an HBM address, as one number (Table 12.1). -/
def hbmChannel (a : Nat) : Nat := a / 2048 % 128
/-- Bank of an HBM address. -/
def hbmBank (a : Nat) : Nat := a / 2 ^ 18 % 64
/-- Block of an HBM address. -/
def hbmBlock (a : Nat) : Nat := a / 2 ^ 24
/-- First byte of the HBM page of an address. -/
def hbmPage (a : Nat) : Nat := a / 2048 * 2048

/-- The corrected errors counted against a page. -/
def pageTotal (s : State) (page : Nat) : Nat := ((assoc page s.mem.pageCorrected).map (·.1)).getD 0

/-- Mark an HBM page as a retirement candidate, once (R294). -/
def hbmCandidate (s : State) (a : Nat) : State :=
  let p := hbmPage a
  if s.mem.retired.any (fun e => decide (e.addr = p ∧ e.kind = 3)) then s
  else event
    { s with
        mem.retired := s.mem.retired ++ [{ addr := p, kind := 3, spare := 0, corrected := pageTotal s p }] } 0x4022 [a]

/-- A correctable HBM error (R292, R294): event 0x4020 at most once per ms and pseudo-channel, 8 within 24 h make a
candidate. -/
def hbmCorrected (s : State) (a : Nat) : State :=
  let s := eventLimited s 0x4020 (hbmChannel a) msTicks (fun n => [a, n])
  let p := hbmPage a
  let old := (assoc p s.mem.pageCorrected).getD (0, [])
  let live := (old.2.filter (fun t => decide (s.heel.periods < t + dayPeriods))) ++ [s.heel.periods]
  let s := { s with
    mem.pageCorrected := assocSet p (min (old.1 + 1) 0xFFFFFFFF, live) s.mem.pageCorrected
    mem.retired := s.mem.retired.map (fun e =>
      if e.addr = p ∧ e.kind ≠ 2 then { e with corrected := min (e.corrected + 1) 0xFFFFFFFF } else e) }
  if 8 ≤ live.length then hbmCandidate s a else s

/-- An uncorrectable HBM error (R293, R294): event 0x4021 with the address and the JS, and a candidate. -/
def hbmUncorrected (s : State) (a : Nat) : State := hbmCandidate (event s 0x4021 [a, lowJs s]) a

end Sys2Proof.Machine
end

