-- ==== Sys2Proof/Machine/PrefixOps.lean ====
section
/-! DEFINITION. The prefix store of a job (12.5 to 12.8): its layout, keys, directory and update records. -/
namespace Sys2Proof.Machine

/-! ### Layout (R300 to R302) -/

/-- Where a job's prefix store lies on this chip. `slices` is 2^m, `stride` T, `dirSize` D. -/
structure Store where
  base : Nat
  ptPages : Nat
  slots : Nat
  dir : Nat
  dirSize : Nat
  frame0 : Nat
  frames : Nat
  stride : Nat
  size : Nat
  deriving DecidableEq, Repr

/-- The smallest power of two not less than `n`, of at most `fuel` doublings. -/
def pow2From : Nat → Nat → Nat → Nat
  | 0, p, _ => p
  | fuel + 1, p, n => if n ≤ p then p else pow2From fuel (2 * p) n

/-- The largest decode SIZE of a build (R301). -/
def maxBatch (l : LoadedLast) : Nat := (l.variants.filter (fun v => decide (v.kind = 2))).foldl (fun m v => max m v.size) 0

/-- The layout of R301 for F frames of S bytes a slice. -/
def storeFor (l : LoadedLast) (f sliceBytes : Nat) : Store :=
  let base := l.hbmBase + l.build.hbmBytes
  let pt := ceilDiv l.context 64
  let dir := base + ceilDiv (maxBatch l * pt * 8) 2048 * 2048
  let d := if f = 0 then 0 else pow2From 24 1 (2 * f)
  let frame0 := dir + 32 * d
  let t := ceilDiv (2 ^ l.span * sliceBytes) 2048 * 2048
  { base, ptPages := pt, slots := maxBatch l, dir, dirSize := d, frame0, frames := f, stride := t,
    size := frame0 + f * t - base }

/-- The prefix store of the open job. -/
def jobStore (s : State) : Option Store :=
  match s.job, jobLast s with
  | some j, some l => some (storeFor l j.frames j.sliceBytes)
  | _, _ => none

/-- The address of frame `f`. -/
def Store.frame (t : Store) (f : Nat) : Nat := t.frame0 + f * t.stride
/-- The address of the page-table entry (slot, j). -/
def Store.entry (t : Store) (slot j : Nat) : Nat := t.base + 8 * (slot * t.ptPages + j)

/-- Set a page-table entry: to a frame, or `none` for the slot's own area (R302). -/
def setPage (s : State) (t : Store) (slot j : Nat) (f : Option Nat) : State :=
  hbmWrite s (t.entry slot j) (leBytes 8 (match f with | some f => t.frame f | none => 2 ^ 64 - 1))

/-- Clear the page table of a slot: every page in the slot's own area (R307). -/
def clearPages (s : State) (t : Store) (slot : Nat) : State :=
  hbmWrite s (t.entry slot 0) (List.replicate (8 * t.ptPages) 0xFF)

/-! ### Keys (R304) and the directory (R305) -/

/-- The chain of prefix keys. -/
def keyChain : List Byte → List (List Nat) → List (List Byte)
  | _, [] => []
  | h, b :: bs => let h := sha256 (h ++ b.flatMap (leBytes 4)); h.take 16 :: keyChain h bs

/-- prefix_keys of R304: the keys of the full blocks of 64 tokens. -/
def prefixKeys (lastDigest weightDigest : List Byte) (tokens : List Nat) : List (List Byte) :=
  keyChain (sha256 (0x50#8 :: (lastDigest ++ weightDigest))) ((chunks 64 tokens).filter (fun c => decide (c.length = 64)))

/-- Directory entry `i`. -/
def dirAt (s : State) (t : Store) (i : Nat) : List Byte := hbmRead s (t.dir + 32 * i) 32

/-- The eight slots of a key (R305). -/
def keySlots (t : Store) (key : List Byte) : List Nat :=
  if t.dirSize = 0 then [] else (List.range 8).map (fun i => (leAt key 0 4 + i) % t.dirSize)

/-- Whether an entry is published under a key. -/
def entryHas (e key : List Byte) : Bool := decide (e.take 16 = key ∧ leAt e 19 1 = 1)

/-- The slot in which a key is present. -/
def lookup (s : State) (t : Store) (key : List Byte) : Option Nat :=
  (keySlots t key).find? (fun i => entryHas (dirAt s t i) key)

/-- The first empty slot of a key. -/
def emptySlot (s : State) (t : Store) (key : List Byte) : Option Nat :=
  (keySlots t key).find? (fun i => decide (leAt (dirAt s t i) 19 1 = 0))

/-- FRAME of an entry. -/
def entryFrame (e : List Byte) : Nat := leAt e 16 3 % 2 ^ 20
/-- GEN of an entry. -/
def entryGen (e : List Byte) : Nat := leAt e 20 2
/-- REFS of an entry. -/
def entryRefs (e : List Byte) : Nat := leAt e 22 2
/-- LAST_USE of an entry. -/
def entryUse (e : List Byte) : Nat := leAt e 24 8

/-- Write a published entry, GEN one up. -/
def publishAt (s : State) (t : Store) (i frame refs use : Nat) (key : List Byte) : State :=
  let gen := entryGen (dirAt s t i) + 1
  hbmWrite s (t.dir + 32 * i)
    (padTo 16 key ++ leBytes 3 frame ++ [1] ++ leBytes 2 gen ++ leBytes 2 refs ++ leBytes 8 use)

/-- Empty an entry, GEN one up (R307). -/
def emptyAt (s : State) (t : Store) (i : Nat) : State :=
  let gen := entryGen (dirAt s t i) + 1
  hbmWrite s (t.dir + 32 * i) (zeros 20 ++ leBytes 2 gen ++ zeros 10)

/-- Set REFS, and LAST_USE where given; GEN stays (R307 HIT and RELEASE). -/
def touchAt (s : State) (t : Store) (i refs : Nat) (use : Option Nat) : State :=
  let s := hbmWrite s (t.dir + 32 * i + 22) (leBytes 2 refs)
  match use with | some u => hbmWrite s (t.dir + 32 * i + 24) (leBytes 8 u) | none => s

/-! ### Frames -/

/-- The state of a frame; `none` is FREE (R306). -/
def frameOf (j : Job) (f : Nat) : Option FrameState := assoc f j.frameStates

/-- Set or free a frame. -/
def setFrame (s : State) (f : Nat) (x : Option FrameState) : State :=
  setJob s (fun j => { j with frameStates := match x with
    | some x => assocSet f x j.frameStates
    | none => assocErase f j.frameStates })

/-- A directory update record (Table 12.4). -/
structure Rec where
  op : Nat
  peer : Nat
  fail : Bool
  slot : Nat
  page : Nat
  frame : Nat
  dirslot : Nat
  key : List Byte
  deriving DecidableEq, Repr

/-- A record with only the fields most operations use. -/
def Rec.mk4 (op slot page frame : Nat) : Rec :=
  { op, peer := 0, fail := false, slot, page, frame, dirslot := 0, key := zeros 16 }

/-- The 32 bytes of a record. -/
def Rec.bytes (r : Rec) : List Byte :=
  [byteOf r.op, byteOf (r.peer % 4 + 4 * bit01 r.fail)] ++ leBytes 2 r.slot ++ leBytes 4 r.page ++ leBytes 4 r.frame
    ++ leBytes 4 r.dirslot ++ padTo 16 r.key

/-- Read a record. -/
def Rec.parse (b : List Byte) : Rec :=
  { op := leAt b 0 1, peer := leAt b 1 1 % 4, fail := bitOf (leAt b 1 1) 2, slot := leAt b 2 2, page := leAt b 4 4,
    frame := leAt b 8 4, dirslot := leAt b 12 4, key := slice b 16 16 }

/-- The frames that a slot's page table names. -/
def slotFrames (s : State) (t : Store) (slot : Nat) : List Nat :=
  (List.range t.ptPages).filterMap (fun p =>
    let a := leNat (hbmRead s (t.entry slot p) 8)
    if a < 2 ^ 40 ∧ t.frame0 ≤ a ∧ 0 < t.stride then some ((a - t.frame0) / t.stride) else none)

/-- RELEASE: give up one frame of the slot. -/
def releaseFrame (t : Store) (s : State) (f : Nat) : State :=
  match s.job.bind (fun j => frameOf j f) with
  | some (.published i refs) => touchAt (setFrame s f (some (.published i (refs - 1)))) t i (refs - 1) none
  | some (.priv _ _) => setFrame s f none
  | _ => s

/-- The peer entry of a FETCH. The table is the leader's (R312); the spec gives no way in which its entry reaches the job's
other chips, so there it is a free value (log entry 28). -/
def fetchPeer (s : State) (j : Job) (n : Nat) : Peer :=
  if isLeader s then j.peers.getD n ⟨0, 0, 0, []⟩
  else
    { tag := freshFree s 0 % 65536, span := freshFree s 1 % 11, leader := freshFree s 2 % 1024,
      coords := (List.range 1024).map (fun i => freshFree s (i + 3) % 16384) }

/-- Whether a fetch still has a frame in FETCHING. -/
def fetchLive (j : Job) (f : Fetch) : Bool :=
  f.pages.any (fun p => match frameOf j p.frame with | some (.fetching id _) => decide (id = f.fid) | _ => false)

/-- Forget the fetches whose frames have all left FETCHING: their ids are free again (R316). -/
def dropEndedFetches (s : State) : State := setJob s (fun j => { j with fetches := j.fetches.filter (fetchLive j) })

/-- Apply one record (R307). A FETCH leaves its page on the fetch of its id; the fetch itself starts in 12.9. -/
def applyRec (t : Store) (s : State) (r : Rec) : State :=
  match s.job with
  | none => s
  | some j =>
    match r.op with
    | 1 => clearPages ((slotFrames s t r.slot).foldl (releaseFrame t) s) t r.slot
    | 2 => publishAt (setFrame s r.frame (some (.published r.dirslot 1))) t r.dirslot r.frame 1 j.stepCount r.key
    | 3 =>
      let page := (j.fetches.find? (fun f => decide (f.fid = r.slot))).bind
        (fun f => f.pages.find? (fun p => decide (p.frame = r.frame)))
      dropEndedFetches (match r.fail, page with
        | false, some p =>
          if (lookup s t p.key).isSome then setFrame s r.frame none
          else publishAt (setFrame s r.frame (some (.published p.dirslot 0))) t p.dirslot r.frame 0 j.stepCount p.key
        | _, _ => setFrame s r.frame none)
    | 4 =>
      match frameOf j r.frame with
      | some (.published i refs) =>
        setPage (touchAt (setFrame s r.frame (some (.published i (refs + 1)))) t i (refs + 1) (some j.stepCount)) t r.slot
          r.page (some r.frame)
      | _ => s
    | 5 =>
      match frameOf j r.frame with
      | some (.published i _) => setFrame (emptyAt s t i) r.frame none
      | _ => s
    | 6 => setPage (setFrame s r.frame (some (.priv r.slot r.page))) t r.slot r.page (some r.frame)
    | 7 =>
      let s := setFrame s r.frame (some (.fetching r.slot r.page))
      setJob (if isLeader s then s else bumpFree s) (fun j =>
        let pg : FetchPage := { page := r.page, frame := r.frame, dirslot := r.dirslot, key := r.key }
        if j.fetches.any (fun f => decide (f.fid = r.slot)) then
          { j with fetches := j.fetches.map (fun f => if f.fid = r.slot then { f with pages := f.pages ++ [pg] } else f) }
        else
          let p := fetchPeer s j r.peer
          let ft : Fetch :=
            { fid := r.slot, peer := (p.tag, p.span, p.coords), deadline := s.now + j.fetchTimeout * msTicks,
              pages := [pg], descs := [], parts := [], report := none, reported := false }
          { j with fetches := j.fetches ++ [ft] })
    | _ => s

/-- Apply the records of a boundary in order. -/
def applyRecs (s : State) (rs : List Rec) : State :=
  match jobStore s with
  | some t => rs.foldl (applyRec t) s
  | none => s

/-- The prefix descriptor (Table 12.6). -/
def prefixDescriptor (s : State) : List Byte :=
  match s.job, jobLast s, jobStore s with
  | some j, some l, some t =>
    leBytes 2 j.tag ++ [byteOf l.span, 0] ++ leBytes 2 l.lchip ++ zeros 2 ++ leBytes 4 j.frames ++ leBytes 4 j.sliceBytes
      ++ leBytes 4 t.stride ++ leBytes 4 t.dirSize ++ leBytes 8 t.dir ++ leBytes 8 t.frame0 ++ zeros 24
  | _, _, _ => leBytes 2 0xFFFF ++ zeros 62

end Sys2Proof.Machine
end

