-- ==== Sys2Proof/Machine/Target.lean ====
section
/-! DEFINITION. Requests performed on this chip, for a service packet or for a local transfer alike (11 R261 to R265,
R293, 15 R375). -/
namespace Sys2Proof.Machine

/-- Where a request lands. -/
inductive Place where
  | insole (tile addr : Nat)
  | hbm (addr : Nat)
  | tack (n : Nat)
  | control (off : Nat)
  deriving DecidableEq, Repr

/-- Whether a physical tile is ENABLED. -/
def tileEnabled (s : State) (t : Nat) : Bool := (enabledTiles s).contains t

/-- The physical tile of a logical tile of the open job (R261). -/
def logicalTile (s : State) (jobTag tile : Nat) : Option Nat :=
  match s.job, jobLast s with
  | some j, some l => if j.tag = jobTag ∧ tile < l.build.ltiles then l.tileMap[tile]? else none
  | _, _ => none

/-- Resolve a target (Table 11.3); `none` is R261's refusal. -/
def resolve (s : State) (target tile jobTag addr len : Nat) : Option Place :=
  let insole (t : Nat) : Option Place :=
    if tileEnabled s t ∧ addr < 2 ^ 24 ∧ addr + len ≤ 2 ^ 24 then some (.insole t addr) else none
  match target with
  | 1 => insole tile
  | 2 => (logicalTile s jobTag tile).bind insole
  | 3 => if addr + len ≤ hbmEnd then some (.hbm addr) else none
  | 4 => if addr < tackCount ∧ len = 0 then some (.tack addr) else none
  | 5 => if addr + len ≤ 0x10000 then some (.control addr) else none
  | _ => none

/-- The lowest address at which a write meets the weight region of the open job (R2, R263). -/
def weightHit (s : State) (tile a n : Nat) : Option Nat :=
  match s.job, jobLast s with
  | some _, some l =>
    let lo := max a l.insoleBase
    let hi := min (a + n) (l.insoleBase + l.build.weightBytes)
    if (l.tileMap.take l.build.ltiles).contains tile ∧ lo < hi then some lo else none
  | _, _ => none

/-- A place that holds its requests for now: the insole under a HOLD (R340), a page being copied (R295). -/
def placeWaits (s : State) (p : Place) (n : Nat) : Bool :=
  match p with
  | .insole _ _ => s.dev.held
  | .hbm a => s.mem.copying.any (fun c => decide (c.2.2.1 < a + n ∧ a < c.2.2.1 + 2048))
  | _ => false

/-- The bytes of the control window that answer reads (R262). -/
def controlByte (s : State) (off : Nat) : Option Byte :=
  if 0x1000 ≤ off ∧ off < 0x1080 then some (byteAt (liveMaps s) (off - 0x1000))
  else if 0x1100 ≤ off ∧ off < 0x1140 then some (byteAt (prefixDescriptor s) (off - 0x1100))
  else none

/-- A write to the control window (R262): always refused. -/
def controlWrite (s : State) (src off n : Nat) : State × Nat × Nat :=
  if (List.range n).any (fun i => (controlByte s (off + i)).isSome) then
    (eventLimited s 0x2304 src (1000 * msTicks) (fun _ => [src, off]), stBadAddress, 0x07)
  else (s, stBadAddress, 0x08)

/-- Perform a WRITE of `data` (R261 to R265): the state, the status and the sub-code. -/
def performWrite (s : State) (src target tile jobTag addr : Nat) (data : List Byte) : State × Nat × Nat :=
  match resolve s target tile jobTag addr data.length with
  | none => (s, stBadAddress, 0)
  | some (.insole t a) =>
    match weightHit s t a data.length with
    | some w => (event s 0x2303 [src, w], stBadAddress, 0x01)
    | none => (insoleWrite s t a data, stDone, 0)
  | some (.hbm a) => (hbmWrite s a data, stDone, 0)
  | some (.control off) => controlWrite s src off data.length
  | some (.tack _) => (s, stBadDescriptor, 0x02)

/-- Perform a READ of `n` bytes (R261, R262, R293, R61): the state, the status, the sub-code and the data. -/
def performRead (s : State) (target tile jobTag addr n : Nat) : State × Nat × Nat × List Byte :=
  match resolve s target tile jobTag addr n with
  | none => (s, stBadAddress, 0, [])
  | some (.insole t a) =>
    match insoleBadIn s t a n with
    | some w => (insoleUncorrected s t (8 * w - insoleKey t 0), stInternal, 0, [])
    | none => (s, stDone, 0, insoleRead s t a n)
  | some (.hbm a) =>
    match hbmBadIn s a n with
    | some w => (hbmUncorrected s (32 * w), stInternal, 0x06, [])
    | none => (s, stDone, 0, hbmRead s a n)
  | some (.control off) =>
    let bs := (List.range n).map (fun i => controlByte s (off + i))
    if bs.all Option.isSome ∧ (controlByte s off).isSome then (s, stDone, 0, bs.filterMap id)
    else (s, stBadAddress, 0x08, [])
  | some (.tack _) => (s, stBadDescriptor, 0x02, [])

/-- Perform a TACK_ADD (R265): the state, the status, the sub-code and the prior value. -/
def performTack (s : State) (target addr addend : Nat) : State × Nat × Nat × Nat :=
  match resolve s target 0 0 addr 0 with
  | some (.tack t) => (tackAdd s t (BitVec.ofNat 32 addend), stDone, 0, (tackGet s t).toNat)
  | some _ => (s, stBadDescriptor, 0x02, 0)
  | none => (s, stBadAddress, 0, 0)

/-- A READ's data as a frame, where one fits a packet and pays (R117, R264). -/
def asFrame (data : List Byte) : Option (List Byte) :=
  let w := Config.skiveWidth % 3
  let f := skiveEncode w Config.skiveDelta data
  if 0 < data.length ∧ data.length % 2 ^ w = 0 ∧ data.length ≤ 16384 ∧ f.length ≤ 3840 then some f else none

end Sys2Proof.Machine
end

