-- ==== Sys2Proof/Machine/Prefix.lean ====
section
/-! DEFINITION. Fetching prefix pages from another job: the leader's plans and each chip's part (12.9, 19 R483). -/
namespace Sys2Proof.Machine
open Host

/-- JOB_TAG of a prefix descriptor. -/
def pdTag (d : List Byte) : Nat := leAt d 0 2
/-- SLICE_PAGE_BYTES of a prefix descriptor. -/
def pdSlice (d : List Byte) : Nat := leAt d 12 4

/-- The entry that has `key` among those a directory READ from slot `i` returned, by its slot (log entry 27: slots past
the directory's end are not read). -/
def keyIn (dirSize i : Nat) (key data : List Byte) : Option (Nat × List Byte) :=
  (((chunks 32 data).mapIdx (fun n e => (i + n, e))).filter (fun x => decide (x.1 < dirSize))).find?
    (fun x => entryHas x.2 key)

/-- READ a peer's directory slots of a key. -/
def readSlots (s : State) (coord dirAddr dirSize : Nat) (key : List Byte) (onDone : OnDone) : State :=
  issue s .chip (reqHdr 2 coord 3 (dirAddr + 32 * (leAt key 0 4 % dirSize)) 256 0) [] onDone

/-! ### The leader's plans (R314) -/

/-- Change the plan of request `rid`. -/
def setPlan (s : State) (rid : Nat) (f : Plan → Plan) : State :=
  setJob s (fun j => { j with plans := j.plans.map (fun p => if p.rid = rid then f p else p) })

/-- The plan of request `rid`. -/
def planOf (s : State) (rid : Nat) : Option Plan := s.job.bind (fun j => j.plans.find? (fun p => decide (p.rid = rid)))

/-- Ask the descriptor of the plan's peer, or end the plan without one. -/
def askPeer (s : State) (rid : Nat) : State :=
  match s.job, planOf s rid with
  | some j, some p =>
    match j.peers[p.peer]? with
    | some q => issue s .chip (reqHdr 2 (q.coords.getD q.leader 0) 5 0x1100 64 0) [] (.planDesc rid p.peer)
    | none => setPlan s rid (fun p => { p with found := [], ready := true })
  | _, _ => s

/-- Go on to the next peer. -/
def nextPeer (s : State) (rid : Nat) : State :=
  askPeer (setPlan s rid (fun p => { p with peer := p.peer + 1, dir := none, found := [] })) rid

/-- Start a plan for the keys `h` to `cap` of a request. -/
def startPlan (s : State) (rid h cap : Nat) : State :=
  askPeer (setJob s (fun j => { j with plans := j.plans ++ [{ rid, peer := 0, h, cap, dir := none, found := [], ready := false }] }))
    rid

/-- The keys of a request. -/
def requestKeys (s : State) (rid : Nat) : List (List Byte) :=
  match s.job with
  | some j => ((j.requests.find? (fun q => decide (q.rid = rid))).map (·.keys)).getD []
  | none => []

/-- A peer leader's descriptor is in. -/
def planDescIn (s : State) (rid peer status : Nat) (d : List Byte) : State :=
  match s.job, planOf s rid with
  | some j, some p =>
    if p.peer ≠ peer ∨ p.ready then s
    else
      match j.peers[peer]? with
      | none => s
      | some q =>
        if status ≠ stDone then nextPeer s rid
        else if pdTag d ≠ q.tag ∨ pdSlice d ≠ j.sliceBytes then
          nextPeer (event s 0x4042 [pdTag d, j.sliceBytes, pdSlice d]) rid
        else if leAt d 20 4 = 0 then nextPeer s rid
        else
          let s := setPlan s rid (fun p => { p with dir := some (leAt d 24 8, leAt d 20 4) })
          let ks := requestKeys s rid
          (List.range (p.cap - p.h)).foldl (fun s i =>
            readSlots s (q.coords.getD q.leader 0) (leAt d 24 8) (leAt d 20 4) (ks.getD (p.h + i) [])
              (.planDir rid peer (p.h + i))) s
  | _, _ => s

/-- The length of the run of keys found from h on. -/
def planRun (p : Plan) : Nat :=
  ((List.range (p.cap - p.h)).takeWhile (fun i => (assoc (p.h + i) p.found).getD false)).length

/-- The directory slots of one key are in; with the last of them the peer is judged. -/
def planDirIn (s : State) (rid peer key status : Nat) (d : List Byte) : State :=
  match planOf s rid with
  | some p =>
    match p.dir with
    | some (_, size) =>
      if p.peer ≠ peer ∨ p.ready then s
      else
        let k := (requestKeys s rid).getD key []
        let hit := decide (status = stDone) && (keyIn size (leAt k 0 4 % size) k d).isSome
        let p := { p with found := assocSet key hit p.found }
        let s := setPlan s rid (fun _ => p)
        if p.found.length < p.cap - p.h then s
        else if 0 < planRun p then setPlan s rid (fun p => { p with ready := true })
        else nextPeer s rid
    | none => s
  | none => s

/-! ### A chip's part of a fetch (R315) -/

/-- Change fetch `fid`. -/
def setFetch (s : State) (fid : Nat) (f : Fetch → Fetch) : State :=
  setJob s (fun j => { j with fetches := j.fetches.map (fun x => if x.fid = fid then f x else x) })

/-- The fetch of an id that has not reported yet. -/
def liveFetch (s : State) (fid : Nat) : Option Fetch :=
  s.job.bind (fun j => j.fetches.find? (fun f => decide (f.fid = fid ∧ f.report = none)))

/-- The tack to which fetch `fid` is reported. -/
def fetchTackNo (fid : Nat) : Nat := 131056 + fid

/-- Send the report of a fetch to the leader's tack. -/
def reportFetch (s : State) (fid : Nat) : State :=
  match s.job.bind (fun j => j.fetches.find? (fun f => decide (f.fid = fid))) with
  | some f =>
    match f.report with
    | some v => issue s .chip (reqHdr 3 (leaderCoord s) 4 (fetchTackNo fid) 0 v) [] (.fetchTack fid)
    | none => s
  | none => s

/-- The chip's part has failed (R315). -/
def failFetch (s : State) (fid : Nat) : State :=
  match liveFetch s fid with
  | some _ => reportFetch (event (setFetch s fid (fun f => { f with report := some 0x10000 })) 0x4040) fid
  | none => s

/-- The chip's slots whose slices one peer chip holds, as (own slot, peer slot). -/
def slotsAt (s : State) (span peerChip : Nat) : List (Nat × Nat) :=
  match jobLast s with
  | some l =>
    ((List.range (2 ^ l.span)).map (fun k => (k, l.lchip * 2 ^ l.span + k))).filterMap (fun x =>
      if x.2 / 2 ^ span = peerChip then some (x.1, x.2 % 2 ^ span) else none)
  | none => []

/-- The peer chips a fetch uses. -/
def peerChips (s : State) (span : Nat) : List Nat :=
  match jobLast s with
  | some l => ((List.range (2 ^ l.span)).map (fun k => (l.lchip * 2 ^ l.span + k) / 2 ^ span)).eraseDups
  | none => []

/-- Start this chip's part of a fetch: one part for each page and peer chip, and each peer chip's descriptor (step 1). -/
def beginFetch (s : State) (fid : Nat) : State :=
  match s.job, liveFetch s fid with
  | some j, some f =>
    let span := f.peer.2.1
    let cs := peerChips s span
    let parts : List FetchPart := f.pages.flatMap (fun p => cs.map (fun c =>
      { page := p.page, peerChip := c, entry := none, left := (slotsAt s span c).length * ceilDiv j.sliceBytes 3840,
        good := false }))
    cs.foldl (fun s c => issue s .chip (reqHdr 2 (f.peer.2.2.getD c 0) 5 0x1100 64 0) [] (.fetchDesc fid c))
      (setFetch s fid (fun f => { f with parts }))
  | _, _ => s

/-- A peer chip's descriptor is in. -/
def fetchDescIn (s : State) (fid chip status : Nat) (d : List Byte) : State :=
  match s.job, liveFetch s fid with
  | some j, some f =>
    if status ≠ stDone ∨ pdTag d ≠ f.peer.1 ∨ pdSlice d ≠ j.sliceBytes ∨ leAt d 20 4 = 0 then failFetch s fid
    else
      let desc := (chip, leAt d 24 8, leAt d 20 4, leAt d 32 8, leAt d 16 4)
      f.pages.foldl (fun s p =>
        readSlots s (f.peer.2.2.getD chip 0) (leAt d 24 8) (leAt d 20 4) p.key (.fetchDir fid p.page chip))
        (setFetch s fid (fun f => { f with descs := f.descs ++ [desc] }))
  | _, _ => s

/-- A page's directory slots are in: its data is read, and then its entry again (steps 2 and 3). -/
def fetchDirIn (s : State) (fid page chip status : Nat) (d : List Byte) : State :=
  match s.job, liveFetch s fid with
  | some j, some f =>
    match f.pages.find? (fun p => decide (p.page = page)), f.descs.find? (fun x => decide (x.1 = chip)) with
    | some p, some (_, dirAddr, size, frame0, stride) =>
      match (if status = stDone then keyIn size (leAt p.key 0 4 % size) p.key d else none) with
      | none => failFetch s fid
      | some (i, e) =>
        let coord := f.peer.2.2.getD chip 0
        let s := setFetch s fid (fun f =>
          { f with parts := f.parts.map (fun x =>
              if x.page = page ∧ x.peerChip = chip then { x with entry := some (i, entryFrame e, entryGen e, s.now) } else x) })
        let s := (slotsAt s f.peer.2.1 chip).foldl (fun s k =>
          (List.range (ceilDiv j.sliceBytes 3840)).foldl (fun s n =>
            issue s .chip (reqHdr 2 coord 3 (frame0 + entryFrame e * stride + k.2 * j.sliceBytes + 3840 * n)
              (min 3840 (j.sliceBytes - 3840 * n)) 0) [] (.fetchData fid page chip (k.1 * j.sliceBytes + 3840 * n))) s) s
        issue s .chip (reqHdr 2 coord 3 (dirAddr + 32 * i) 32 0) [] (.fetchCheck fid page chip)
    | _, _ => s
  | _, _ => s

/-- A part of a page's data is in: it goes into the chip's own frame. -/
def fetchDataIn (s : State) (fid page chip offset status : Nat) (d : List Byte) : State :=
  match liveFetch s fid, jobStore s with
  | some f, some t =>
    match f.pages.find? (fun p => decide (p.page = page)) with
    | some p =>
      if status ≠ stDone then failFetch s fid
      else setFetch (hbmWrite s (t.frame p.frame + offset) d) fid (fun f =>
        { f with parts := f.parts.map (fun x =>
            if x.page = page ∧ x.peerChip = chip then { x with left := x.left - 1 } else x) })
    | none => s
  | _, _ => s

/-- The second reading of a peer entry (R315 step 3, R483: at most 64 ms after the first). -/
def fetchCheckIn (s : State) (fid page chip status : Nat) (d : List Byte) : State :=
  match liveFetch s fid with
  | some f =>
    match f.pages.find? (fun p => decide (p.page = page)),
        f.parts.find? (fun x => decide (x.page = page ∧ x.peerChip = chip)) with
    | some p, some x =>
      match x.entry with
      | some (_, _, gen, at_) =>
        if status = stDone ∧ entryHas d p.key ∧ entryGen d = gen ∧ s.now ≤ at_ + 64 * msTicks ∧ x.left = 0 then
          let parts := f.parts.map (fun y => if y.page = page ∧ y.peerChip = chip then { y with good := true } else y)
          let s := setFetch s fid (fun f => { f with parts })
          if parts.all (·.good) then reportFetch (setFetch s fid (fun f => { f with report := some 1 })) fid else s
        else failFetch s fid
      | none => failFetch s fid
    | _, _ => s
  | none => s

/-- The report was answered: repeated until it is DONE (R315). -/
def fetchTackIn (s : State) (fid status : Nat) : State :=
  if status = stDone then setFetch s fid (fun f => { f with reported := true }) else reportFetch s fid

/-- FETCH_TIMEOUT (R315): the fetch that reports to this tack has run out of time. -/
def execFetchTimeout (tack : Nat) (s : State) : Outcome State Fault Refusal :=
  .next (if 131056 ≤ tack then failFetch s (tack - 131056) else s)

end Sys2Proof.Machine
end

