-- ==== Sys2Proof/Machine/Service.lean ====
section
/-! DEFINITION. The commands of the service plane: routing, requests performed, replies, timeouts (11, 15.5.3). -/
namespace Sys2Proof.Machine
open Host

/-! ### The end of a transaction (R268, R269, R281, R376, R377) -/

/-- What a transaction came to. `undelivered` and `unsure` are destinations of a multicast. -/
structure TxnEnd where
  status : Nat
  sub : Nat
  arg : Nat
  data : List Byte
  undelivered : List Nat
  unsure : List Nat
  deriving DecidableEq, Repr

/-- Insert an answer by ascending index. -/
def insertAnswer (a : Nat × Nat × Nat) : List (Nat × Nat × Nat) → List (Nat × Nat × Nat)
  | [] => [a]
  | b :: bs => if a.1 ≤ b.1 then a :: b :: bs else b :: insertAnswer a bs

/-- The answers of a transaction that did not say DONE, by ascending index. -/
def notDone (t : Txn) : List (Nat × Nat × Nat) :=
  (t.answers.filter (fun a => decide (a.2.1 ≠ stDone))).foldr insertAnswer []

/-- The end of a transaction with all its answers in. -/
def txnEnd (t : Txn) : TxnEnd :=
  match notDone t with
  | [] => { status := stDone, sub := 0, arg := t.arg, data := t.data, undelivered := [], unsure := [] }
  | a :: rest =>
    { status := if t.mcast then stPartial else a.2.1, sub := a.2.2, arg := t.arg, data := t.data,
      undelivered := (a :: rest).map (·.1), unsure := t.unsure }

/-- The result record (Table 11.4). A multicast has no one prior value, and its ARG is 0 as R376's is. -/
def txnRecord (t : Txn) (e : TxnEnd) : List Byte :=
  [byteOf e.status, byteOf e.sub] ++ leBytes 2 t.id ++ leBytes 4 (if t.mcast then 0 else e.arg)
    ++ (if t.mcast then
          leBytes 2 (t.answers.length - e.undelivered.length) ++ zeros 54 ++ leBytes 128 (listMask e.undelivered)
            ++ leBytes 128 (listMask e.unsure)
        else zeros 8)

/-- A write into a tile's own insole for its post (R268); the weight region refuses it (R58). -/
def postWrite (s : State) (tile a : Nat) (bs : List Byte) : State :=
  match weightHit s tile a bs.length with
  | some _ => s
  | none => insoleWrite s tile a bs

/-- Whether every piece of a transfer has been answered. -/
def xferAnswered (x : Xfer) : Bool := x.pieces.all (fun p => p.status.isSome)

/-- A piece that answered DONE. -/
def pieceDone (p : Piece) : Bool := decide (p.status = some (stDone, 0))

/-- The bytes of the run of pieces, from the first, that all answered DONE (R376). -/
def xferRun (x : Xfer) : Nat :=
  if x.xop = 3 then 0 else min x.length (3840 * (x.pieces.takeWhile pieceDone).length)

/-- Frames of at most 16,777,216 decoded bytes (R371). -/
def skiveStream (data : List Byte) : List Byte :=
  (chunks 16777216 data).flatMap (fun c =>
    let w := Config.skiveWidth % 3
    skiveEncode (if c.length % 2 ^ w = 0 then w else 0) Config.skiveDelta c)

/-- The host data of a READ: the run that is DONE, what follows it undefined (R375, R376). -/
def xferHostData (s : State) (x : Xfer) : State × Nat :=
  let run := xferRun x
  let data := ((x.pieces.takeWhile pieceDone).flatMap (·.data)).take run
  if x.xop ≠ 2 then (s, run)
  else if x.skiveOut then
    if run = x.length then (hostWrite s x.hostAddr (skiveStream data), (skiveStream data).length)
    else (hostPut s [.undef x.hostAddr x.length], run)
  else
    let s := hostWrite s x.hostAddr data
    (if run < x.length then hostPut s [.undef (x.hostAddr + run) (x.length - run)] else s, run)

/-- Complete an XFER (R376, R377). -/
def finishXfer (s : State) (x : Xfer) : State :=
  let s := { s with svc.xfers := s.svc.xfers.filter (fun y => decide (y.ring ≠ x.ring ∨ y.slot ≠ x.slot)) }
  let bad := x.pieces.find? (fun p => !pieceDone p)
  let missed := (x.dests.filter (fun l => x.pieces.any (fun p => p.undelivered.contains l)))
  let unsure := (x.dests.filter (fun l => x.pieces.any (fun p => p.unsure.contains l)))
  let out := xferHostData s x
  let s := out.1
  let s := if x.mcast ∧ bad.isSome then
      hostWrite s x.reportAddr (leBytes 128 (listMask missed) ++ leBytes 128 (listMask unsure)) else s
  let st := match bad with
    | none => (stDone, 0)
    | some p => if x.mcast then (stPartial, (p.status.getD (0, 0)).2) else p.status.getD (0, 0)
  complete s x.ring x.slot st.1 st.2
    (leBytes 8 out.2 ++ leBytes 4 (if x.xop = 3 ∧ !x.mcast then x.arg else 0)
      ++ leBytes 2 (if x.mcast then x.dests.length - missed.length else 0) ++ zeros 2 ++ leBytes 4 x.pieces.length)

/-- Record the answer of one piece of a transfer; the last completes it. -/
def pieceIn (s : State) (ring slot index : Nat) (e : TxnEnd) : State :=
  let f (x : Xfer) : Xfer :=
    { x with
      arg := e.arg
      pieces := mapAt x.pieces index (fun (p : Piece) =>
        { p with status := some (e.status, e.sub), data := e.data, undelivered := e.undelivered, unsure := e.unsure }) }
  let s := { s with svc.xfers := s.svc.xfers.map (fun x => if x.ring = ring ∧ x.slot = slot then f x else x) }
  match s.svc.xfers.find? (fun x => decide (x.ring = ring ∧ x.slot = slot)) with
  | some x => if xferAnswered x then finishXfer s x else s
  | none => s

/-- The buffer of step control block k (R400). -/
def blockAddr (k : Nat) : Nat := 0x23FF100000 + 0x100000 * (k % 2)

/-- Send a step control block to the chips of a mask: the body first, the 64-byte header last (R400). -/
def sendBlock (s : State) (k mask : Nat) (block : List Byte) : State :=
  let hdr (off : Nat) (data : List Byte) : Hdr :=
    { reqHdr 1 0 3 (blockAddr k + off) data.length 0 with mcast := 3, mask }
  let body : List (Nat × List Byte) := (chunks 3840 (block.drop 64)).mapIdx (fun i c => (64 + 3840 * i, c))
  (body ++ [(0, block.take 64)]).foldl (fun (s : State) (p : Nat × List Byte) => issue s .chip (hdr p.1 p.2) p.2 (.stepBlock k mask)) s

/-- A packet of a block has its answers: on PARTIAL_MULTICAST the block goes again to the undelivered mask (R400). -/
def blockIn (s : State) (k : Nat) (e : TxnEnd) : State :=
  match s.job with
  | some j =>
    if e.status = stDone ∨ !jobLive s ∨ j.decisions ≠ k + 1 then s
    else sendBlock s k (listMask e.undelivered) j.block
  | none => s

/-- What ends with a transaction. -/
def onTxnEnd (s : State) (t : Txn) (e : TxnEnd) : State :=
  match t.onDone with
  | .post tile dataAddr resultAddr tack =>
    let s := if t.read ∧ e.status = stDone then postWrite s tile dataAddr e.data else s
    let s := postWrite s tile resultAddr (txnRecord t e)
    match tack with | some n => tackSignal s n | none => s
  | .piece ring slot index => pieceIn s ring slot index e
  | .stepBlock k _ => blockIn s k e
  | .mailbox => if e.status = stDone then s else eventLimited s 0x5032 0 (1000 * msTicks) (fun _ => [])
  | .planDesc rid peer => planDescIn s rid peer e.status e.data
  | .planDir rid peer key => planDirIn s rid peer key e.status e.data
  | .fetchDesc fid c => fetchDescIn s fid c e.status e.data
  | .fetchDir fid p c => fetchDirIn s fid p c e.status e.data
  | .fetchData fid p c o => fetchDataIn s fid p c o e.status e.data
  | .fetchCheck fid p c => fetchCheckIn s fid p c e.status e.data
  | .fetchTack fid => fetchTackIn s fid e.status

/-- A transaction has ended in `e`: its event, what waited on it, and the next request that waits for a transaction
(R267). -/
def endTxnAs (s : State) (t : Txn) (e : TxnEnd) : State :=
  let s := { s with svc.txns := s.svc.txns.filter (fun x => decide (x.id ≠ t.id)) }
  let s := if e.status = stPartial then event s 0x2330 [] else s
  let s := onTxnEnd s t e
  pumpIssue s.svc.waiting.length s

/-- A transaction has all its answers. -/
def endTxn (s : State) (t : Txn) : State := endTxnAs s t (txnEnd t)

/-- COMPLETION_TIMEOUT (R269, R482): SERVICE_FLUSHED, SUB 0x03, with every destination unanswered undelivered. -/
def execCompletionTimeout (txn : Nat) (s : State) : Outcome State Fault Refusal :=
  .next (match s.svc.txns.find? (fun t => decide (t.id = txn)) with
    | none => s
    | some t =>
      let t' := { t with waiting := [], answers := t.answers ++ t.waiting.map (fun l => (l, stFlushed, 0x03)) }
      let live := s.svc.timedOut.filter (fun x => decide (s.now < x.2 + 2 * s.regs.complTimeout * msTicks))
      endTxnAs { s with svc.timedOut := live ++ [(txn, s.now)] } t'
        { txnEnd t' with status := stFlushed, sub := 0x03 })

/-! ### Routing (R274 to R282) -/

/-- A malformed header (R266): event 0x2310, and the answer where SRC can be answered. -/
def malformed (s : State) (h : List Byte) : State :=
  let s := event s 0x2310 []
  if inPod s (hSrc h) then refusePkt s h stBadDescriptor 0x02 else s

/-- An unroutable packet (R276): event 0x2301, and the answer to a request. -/
def unroutable (s : State) (h : List Byte) (sub : Nat) : State := refusePkt (event s 0x2301 []) h stBadAddress sub

/-- Where a packet's header goes at this chip. -/
inductive Judged where
  | malformed
  | unroutable (sub : Nat)
  | keep (egress : Nat)
  | out (egress vc : Nat) (hdr : List Byte)
  | copies
  | wait
  | drop
  deriving DecidableEq, Repr

/-- Judge a packet's header (R266, R274, R275, R276, R280). A reply for this chip is delivered whatever its bank holds
(R266 gives every request its reply). -/
def judgeHeader (s : State) (h : List Byte) (ingress vcIn : Nat) : Judged :=
  if hdrBad h then .malformed
  else if hReply h ∧ hDest h = s.dev.coord then .keep 16
  else
    match bankOf s h with
    | none => .unroutable 0x05
    | some b =>
      if hMcast h ≠ 0 then
        match mcastGroups s b (mcastDests s (hMcast h) (hSrc h) (hMask h)) with
        | [] => .drop
        | [(k, ds)] => if k = 16 then .keep 16 else .out k (orderedVc b h ingress vcIn k) (withMask h ds)
        | _ => if mcastTaken s then .wait else .copies
      else if !inPod s (hDest h) || (hValiant h && !inPod s (hVia h)) then .unroutable 0x04
      else
        match wayOf s b h ingress vcIn with
        | .out k vc => .out k vc h
        | .local => .keep 16
        | .turn => if turnUnits s + 1 + payloadUnits h ≤ 64 then .keep 17 else .wait
        | .wait => .wait
        | .discard => .drop

/-- A routed packet of the running job on the spread channel with more than one eligible output counts as a choice
(R183). -/
def countSpread (s : State) (h : List Byte) : State :=
  match s.job, bankOf s h with
  | some j, some b =>
    let dest := if hValiant h && !hPhase h then hVia h else hDest h
    let e := b.entries.getD (linear s dest) (0, 0, 0)
    let ok := (List.range 16).filter (fun k =>
      bitOf e.2.2 k && decide ((s.eyelet k).state = .up) && hasCredit (s.eyelet k) (vcBase h + 1))
    if jobLive s ∧ leAt h 8 2 = j.tag ∧ hSpread h ∧ hMcast h = 0 ∧ 1 < ok.length then choose s else s
  | _, _ => s

/-- Route the packet at the head of eyelet `k`'s queue of a VC. -/
def routeEyelet (s : State) (k vc : Nat) : State :=
  match (s.eyelet k).routes.getD vc none, (s.eyelet k).rxSvc.getD vc [] with
  | none, u :: rest =>
    if !u.first then
      credBack (setEyelet s k (fun e => { e with rxSvc := setAt e.rxSvc vc rest })) k u.kind
    else
      let h := u.payload
      let s := touchBank s (hEpoch h)
      let discard (s : State) : State := startRoute s k vc ⟨19, 0, h⟩
      match judgeHeader s h k vc with
      | .malformed => discard (malformed s h)
      | .unroutable sub => discard (unroutable s h sub)
      | .keep e => startRoute s k vc ⟨e, 0, h⟩
      | .out e v h' =>
        if egressDead s e then discard (refusePkt s h' stFlushed 0) else startRoute (countSpread s h) k vc ⟨e, v, h'⟩
      | .copies => startRoute s k vc ⟨18, 0, h⟩
      | .wait => s
      | .drop => discard s
  | _, _ => s

/-- Route a whole packet of this chip: injected here (16) or from the turn buffer (17). `taken` is the state without it. -/
def routeWhole (s taken : State) (ingress cls : Nat) (p : Pkt) : State :=
  let send (s : State) (k vc : Nat) (p : Pkt) : State := (pktUnits 16 p).foldl (fun s u => queueUnit s k vc u) s
  let t := touchBank taken (hEpoch p.hdr)
  match judgeHeader s p.hdr ingress 1 with
  | .malformed => malformed t p.hdr
  | .unroutable sub => unroutable t p.hdr sub
  | .keep _ => { t with svc.here := t.svc.here ++ [⟨16, cls, p⟩] }
  | .out k vc h =>
    if egressDead s k then refusePkt t h stFlushed 0
    else
      let t := countSpread t p.hdr
      send t k vc ⟨h, p.data⟩
  | .copies =>
    match bankOf s p.hdr with
    | some b => spreadCopies t b 16 cls p (mcastGroups s b (mcastDests s (hMcast p.hdr) (hSrc p.hdr) (hMask p.hdr)))
    | none => t
  | .wait => s
  | .drop =>
    match t.svc.txns.find? (fun x => decide (x.id = hTxn p.hdr ∧ x.waiting = [])) with
    | some x => endTxn t x
    | none => t

/-- The class of an injected packet: 0 ordered request, 1 spread request, 2 ordered reply, 3 spread reply. -/
def classOf (h : List Byte) : Nat := bit01 (hSpread h) + 2 * bit01 (hReply h)

/-- Whether a FENCE still holds a packet: an earlier spread packet of its initiator has not completed (R271). -/
def fenced (s : State) (x : Inject) : Bool :=
  hFence x.pkt.hdr && (s.svc.txns.takeWhile (fun t => decide (t.id ≠ hTxn x.pkt.hdr))).any
    (fun t => t.spread && decide (t.owner = x.owner))

/-- The next packet of a class to inject; what a fence holds holds its initiator's later packets (R271). -/
def nextInject (s : State) (cls : Nat) : List Owner → List Inject → Option Inject
  | _, [] => none
  | blocked, x :: rest =>
    if blocked.contains x.owner ∧ !hReply x.pkt.hdr then nextInject s cls blocked rest
    else if fenced s x then nextInject s cls (x.owner :: blocked) rest
    else if classOf x.pkt.hdr = cls then some x
    else nextInject s cls blocked rest

/-- The injection-queue entry of a tile's packet becomes free (R149). -/
def freePost (s : State) (o : Owner) : State :=
  match o with
  | .tile t => setJob s (fun j => { j with awl.posts := j.awl.posts.map (fun p => if p.1 = t then (p.1, p.2 - 1) else p) })
  | _ => s

/-- SERVICE_HEADER_ROUTE (R274 to R282): the packet whose header stands at the head of this queue is routed. -/
def execServiceHeaderRoute (eyelet vc : Nat) (s : State) : Outcome State Fault Refusal :=
  .next (
    if eyelet < 16 then routeEyelet s eyelet vc
    else if eyelet = 16 then
      match nextInject s vc [] s.svc.inject with
      | none => s
      | some x =>
        let b1 := leAt x.pkt.hdr 1 1
        let p : Pkt := ⟨overlay x.pkt.hdr 1 [byteOf (b1 - b1 / 8 % 2 * 8 + 8 * s.svc.activeBank)], x.pkt.data⟩
        routeWhole s (freePost { s with svc.inject := s.svc.inject.erase x } x.owner) 16 vc p
    else
      match s.svc.turn with
      | p :: rest => routeWhole s { s with svc.turn := rest } 17 1 p
      | [] => s)

/-! ### Requests performed here (R261 to R266) -/

/-- The first packet held here for a queue, where its opcode is `op`, with the state without it. -/
def takeHere (s : State) (k vc op : Nat) : Option (Pkt × State) :=
  match s.svc.here.find? (fun p => decide (p.ingress = k ∧ p.vc = vc)) with
  | some p =>
    if hOp p.pkt.hdr = op then
      some (p.pkt, moved { s with svc.here := s.svc.here.erase p } 16 (bit01 (hSpread p.pkt.hdr)))
    else none
  | none => none

/-- This chip's bit in MASK, for a multicast. -/
def ownMask (s : State) (h : List Byte) : Nat := if hMcast h = 0 then 0 else 2 ^ linear s s.dev.coord

/-- TARGET, TILE, JOB_TAG and ADDR of a header. -/
def hTarget (h : List Byte) : Nat := leAt h 10 1
def hTile (h : List Byte) : Nat := leAt h 11 1
def hJobTag (h : List Byte) : Nat := leAt h 8 2
def hAddr (h : List Byte) : Nat := leAt h 12 5

/-- Whether the place of a request holds it for now. -/
def requestWaits (s : State) (h : List Byte) (n : Nat) : Bool :=
  match resolve s (hTarget h) (hTile h) (hJobTag h) (hAddr h) n with
  | some p => placeWaits s p n
  | none => false

/-- WRITE (R261 to R266, R119). -/
def execWrite (eyelet vc : Nat) (s : State) : Outcome State Fault Refusal :=
  .next (match takeHere s eyelet vc 0x01 with
    | none => s
    | some (p, t) =>
      let h := p.hdr
      let data := if hSkive h then skiveDecode 16384 p.data else some p.data
      if p.data.length ≠ hLength h then malformed t h
      else
        match data with
        | none => sendReply (event t 0x2051 []) h stInternal 0 0 (ownMask s h) false []
        | some d =>
          if requestWaits s h d.length then s
          else
            let r := performWrite t (hSrc h) (hTarget h) (hTile h) (hJobTag h) (hAddr h) d
            sendReply r.1 h r.2.1 r.2.2 0 (ownMask s h) false [])

/-- READ (R261, R262, R264, R266, R293). -/
def execRead (eyelet vc : Nat) (s : State) : Outcome State Fault Refusal :=
  .next (match takeHere s eyelet vc 0x02 with
    | none => s
    | some (p, t) =>
      let h := p.hdr
      if requestWaits s h (hLength h) then s
      else
        let r := performRead t (hTarget h) (hTile h) (hJobTag h) (hAddr h) (hLength h)
        match (if hSkive h then asFrame r.2.2.2 else none) with
        | some f => sendReply r.1 h r.2.1 r.2.2.1 0 0 true f
        | none => sendReply r.1 h r.2.1 r.2.2.1 0 0 false r.2.2.2)

/-- TACK_ADD (R265, R266). -/
def execTackAdd (eyelet vc : Nat) (s : State) : Outcome State Fault Refusal :=
  .next (match takeHere s eyelet vc 0x03 with
    | none => s
    | some (p, t) =>
      let h := p.hdr
      if hLength h ≠ 0 then sendReply t h stBadAddress 0 0 (ownMask s h) false []
      else
        let r := performTack t (hTarget h) (hAddr h) (leAt h 28 4)
        sendReply r.1 h r.2.1 r.2.2.1 r.2.2.2 (ownMask s h) false [])

/-! ### Replies (R268, R269, R281) -/

/-- Whether a reply's opcode answers a transaction. -/
def answersTxn (t : Txn) (op : Nat) : Bool := decide ((op = 0x82) = t.read)

/-- The data of a reply: decoded where it is a frame; `none` where that fails (R119). -/
def replyData (p : Pkt) : Option (List Byte) := if hSkive p.hdr then skiveDecode 16384 p.data else some p.data

/-- Take a reply into its transaction: every destination it answers, once. -/
def takeReply (s : State) (op : Nat) (p : Pkt) : State :=
  let h := p.hdr
  match s.svc.txns.find? (fun t => decide (t.id = hTxn h)) with
  | none => event s 0x2340 []
  | some t =>
    if !answersTxn t op then malformed s h
    else
      let who := if t.mcast then t.waiting.filter (fun l => bitOf (hMask h) l) else t.waiting
      let s := if (replyData p).isNone then event s 0x2051 [] else s
      let st := if (replyData p).isNone then stInternal else leAt h 24 1
      let sub := if (replyData p).isNone then 0 else leAt h 25 1
      let t' := { t with
        waiting := t.waiting.filter (fun l => !who.contains l)
        answers := t.answers ++ who.map (fun l => (l, st, sub))
        unsure := if st = stFlushed ∧ sub = 1 then t.unsure ++ who else t.unsure
        arg := leAt h 28 4
        data := (replyData p).getD [] }
      if t'.waiting.isEmpty then endTxn s t'
      else { s with svc.txns := s.svc.txns.map (fun x => if x.id = t.id then t' else x) }

/-- WRITE_DONE (R268, R269, R281, R376, R377, R400). -/
def execWriteDone (eyelet vc : Nat) (s : State) : Outcome State Fault Refusal :=
  .next (match takeHere s eyelet vc 0x81 with
    | none => s
    | some (p, t) => takeReply t 0x81 p)

/-- READ_DATA (R268, R269, R314, R315, R376, R483). -/
def execReadData (eyelet vc : Nat) (s : State) : Outcome State Fault Refusal :=
  .next (match takeHere s eyelet vc 0x82 with
    | none => s
    | some (p, t) => takeReply t 0x82 p)

/-- TACK_DONE (R268, R269, R281, R315, R376, R377). -/
def execTackDone (eyelet vc : Nat) (s : State) : Outcome State Fault Refusal :=
  .next (match takeHere s eyelet vc 0x83 with
    | none => s
    | some (p, t) => takeReply t 0x83 p)

end Sys2Proof.Machine
end

