-- ==== Sys2Proof/Machine/DescOps.lean ====
section
/-! DEFINITION. What the descriptor commands share: the fields of a descriptor, its checks, how it starts, host buffers,
and the legality of a command by device and job state (15.5, 15.8, 15.11, 16.3). -/
namespace Sys2Proof.Machine
open Host

/-! ### Fields (Tables 15.4 and 15.5) -/

/-- OPCODE. -/
def Desc.op (d : Desc) : Nat := leAt d.bytes 0 1
/-- A flag of byte 1. -/
def Desc.flag (d : Desc) (i : Nat) : Bool := bitOf (leAt d.bytes 1 1) i
/-- TAG. -/
def Desc.tag (d : Desc) : Nat := leAt d.bytes 2 2
/-- TACK. -/
def Desc.tack (d : Desc) : Nat := leAt d.bytes 4 4 % 2 ^ 17
/-- A field of the body: `n` bytes at offset `o`. -/
def Desc.at (d : Desc) (o n : Nat) : Nat := leAt d.bytes o n

/-- The opcodes of Table 15.10. -/
def opcodes : List Nat :=
  [0x01, 0x02, 0x10, 0x11, 0x12, 0x20, 0x21, 0x22, 0x23, 0x24, 0x25, 0x30, 0x31, 0x40, 0x41, 0x42, 0x50, 0x60, 0x70, 0x80,
    0x90]

/-- Whether a ring type accepts an opcode (Table 15.10). -/
def ringAccepts (type op : Nat) : Bool :=
  match type with
  | 1 => op != 0x10 && op != 0x11 && op != 0x80 && op != 0x90
  | 2 => [0x01, 0x10, 0x11, 0x50, 0x60].contains op
  | 3 => op == 0x80
  | 4 => op == 0x90
  | _ => false

/-- The fields a body names, as (byte, bit, width in bits). -/
def bodyFields (op : Nat) : List (Nat × Nat × Nat) :=
  match op with
  | 0x02 => [(8, 0, 8), (12, 0, 17)]
  | 0x10 => [(8, 0, 64), (16, 0, 64), (24, 0, 64), (32, 0, 32)]
  | 0x11 => [(8, 0, 64), (16, 0, 16), (18, 0, 1), (24, 0, 64), (32, 0, 64), (40, 0, 64)]
  | 0x12 => [(8, 0, 64)]
  | 0x20 => [(8, 0, 64), (16, 0, 16), (18, 0, 1), (20, 0, 20), (24, 0, 32), (28, 0, 8)]
  | 0x21 => [(8, 0, 16), (10, 0, 8)]
  | 0x22 => [(8, 0, 16)]
  | 0x23 => [(8, 0, 16), (16, 0, 64)]
  | 0x24 => [(8, 0, 16), (16, 0, 64), (24, 0, 64)]
  | 0x25 => [(8, 0, 64), (16, 0, 64), (24, 0, 64), (32, 0, 32), (36, 0, 16), (40, 0, 64), (48, 0, 64)]
  | 0x30 => [(8, 0, 16), (10, 0, 8), (11, 0, 8), (12, 0, 3)]
  | 0x31 => [(8, 0, 8)]
  | 0x40 => [(8, 0, 8)]
  | 0x41 => [(8, 0, 8), (9, 0, 8), (10, 0, 1), (11, 0, 8), (12, 0, 1), (13, 0, 8)]
  | 0x42 => [(8, 0, 64)]
  | 0x50 => [(8, 0, 8), (9, 0, 6), (10, 0, 16), (12, 0, 8), (13, 0, 8), (14, 0, 16), (16, 0, 64), (24, 0, 64), (32, 0, 32),
             (36, 0, 32), (40, 0, 64), (48, 0, 64)]
  | 0x60 => [(8, 0, 8), (9, 0, 8), (10, 0, 1), (12, 0, 16), (16, 0, 64), (24, 0, 32)]
  | 0x70 => [(8, 0, 8), (12, 0, 32), (16, 0, 32), (24, 0, 64), (32, 0, 32)]
  | 0x80 => [(8, 0, 16), (16, 0, 64), (24, 0, 32), (32, 0, 64), (40, 0, 32)]
  | 0x90 => [(8, 0, 448)]
  | _ => []

/-- The bits that the header and the body name. -/
def fieldBits (op : Nat) : Nat :=
  ((([(0, 0, 8), (1, 0, 5), (2, 0, 16), (4, 0, 17)] : List (Nat × Nat × Nat)) ++ bodyFields op).map
    (fun f => (2 ^ f.2.2 - 1) * 2 ^ (8 * f.1 + f.2.1))).sum

/-- Whether every reserved bit is 0 (R7). -/
def reservedClear (op : Nat) (bytes : List Byte) : Bool :=
  decide ((leNat bytes ^^^ (leNat bytes &&& fieldBits op)) = 0)

/-- The first check that fails. -/
def firstFail : List (Bool × Nat) → Option Nat
  | [] => none
  | (ok, sub) :: rest => if ok then firstFail rest else some sub

/-- `a → b`. -/
def implies' (a b : Bool) : Bool := !a || b

/-- A multiple of `n`. -/
def aligned (a n : Nat) : Bool := decide (a % n = 0)

/-- R350: Table 14.3. -/
def solveBodyOk (d : Desc) : Bool :=
  let tolOk (o : Nat) : Bool := let f : F32 := BitVec.ofNat 32 (d.at o 4); isFinite32 f && (!bitOf (d.at o 4) 31 || decide (d.at o 4 = 0x80000000))
  aligned (d.at 8 8) 64 && aligned (d.at 16 8) 64 && decide (1 ≤ d.at 24 2 ∧ d.at 24 2 ≤ 256 ∧ d.at 26 1 ≤ 1 ∧ d.at 27 1 = 0)
    && tolOk 28 && tolOk 32 && tolOk 36 && aligned (d.at 40 4) 64 && decide (d.at 40 4 ≤ 4194304)
    && zeroRange d.bytes 44 20

/-- R375: XFER fields that do not combine. -/
def xferCombines (d : Desc) : Bool :=
  let xop := d.at 8 1
  let f := d.at 9 1
  let mcast := bitsOf f 4 2
  decide (1 ≤ xop ∧ xop ≤ 3) && decide ((xop = 3) = (d.at 32 4 = 0)) && decide ((xop = 3) = (d.at 12 1 = 4))
    && implies' (bitOf f 1) (bitOf f 0) && implies' (decide (mcast ≠ 0)) (decide (xop ≠ 2) && !bitOf f 0)
    && implies' (decide (mcast ≠ 0)) (decide (d.at 10 2 = 0))

/-- The range and alignment checks of a body, each with its sub-code (R372, Table 15.5). -/
def bodyChecks (d : Desc) : List (Bool × Nat) :=
  let al (o : Nat) : Bool × Nat := (aligned (d.at o 8) 64, 0x33)
  let zeroUnless (c : Bool) (o n : Nat) : Bool × Nat := (c || decide (d.at o n = 0), 0x32)
  match d.op with
  | 0x02 => [(decide (d.at 8 1 ≤ 1), 0x32)]
  | 0x10 => [al 8, al 24]
  | 0x11 => [zeroUnless (bitOf (d.at 18 1) 0) 40 8, al 24, al 40]
  | 0x20 => [(decide (d.at 16 2 ≠ 0xFFFF), 0x32), (aligned (d.at 24 4) 16 && decide (16 ≤ d.at 24 4 ∧ d.at 24 4 ≤ 16777216), 0x32),
             (decide (d.at 28 1 ≤ 100), 0x32)]
  | 0x21 => [(decide (d.at 10 1 ≤ 32), 0x32)]
  | 0x23 => [al 16]
  | 0x24 => [al 16]
  | 0x25 => [al 8, al 24, al 40]
  | 0x30 =>
    let m := d.at 12 1
    [(decide (m ≠ 0), 0x32), zeroUnless (bitOf m 0) 8 2, zeroUnless (bitOf m 1) 10 1, zeroUnless (bitOf m 2) 11 1,
     (implies' (bitOf m 0) (decide (150 ≤ d.at 8 2 ∧ d.at 8 2 ≤ 900)), 0x32),
     (implies' (bitOf m 1) (decide (70 ≤ d.at 10 1 ∧ d.at 10 1 ≤ 95)), 0x32),
     (implies' (bitOf m 2) (decide (1 ≤ d.at 11 1 ∧ d.at 11 1 ≤ 8)), 0x32)]
  | 0x31 => [(decide (d.at 8 1 ≤ 32), 0x32)]
  | 0x40 => [(decide (d.at 8 1 < 144), 0x32)]
  | 0x41 => [(decide (d.at 8 1 < 16), 0x32), ([8, 6, 4].contains (d.at 9 1), 0x32),
             (decide (d.at 13 1 < 16), 0x32), zeroUnless (bitOf (d.at 12 1) 0) 13 1,
             (implies' (bitOf (d.at 12 1) 0) (decide (d.at 13 1 ≠ d.at 8 1)), 0x32)]
  | 0x50 => [(xferCombines d, 0x38), (decide (1 ≤ d.at 12 1 ∧ d.at 12 1 ≤ 5), 0x32),
             (decide (d.at 12 1 = 2) || decide (d.at 14 2 = 0xFFFF), 0x32),
             (decide (d.at 12 1 ≤ 2) || decide (d.at 13 1 = 0), 0x32), (decide (d.at 16 8 < 2 ^ 40), 0x32),
             (decide (d.at 32 4 ≤ 16777216), 0x32), zeroUnless (decide (d.at 8 1 = 3)) 36 4,
             zeroUnless (decide (bitsOf (d.at 9 1) 4 2 = 3)) 40 8, zeroUnless (decide (bitsOf (d.at 9 1) 4 2 ≠ 0)) 48 8,
             (aligned (d.at 24 8) 4, 0x33), al 40, al 48]
  | 0x60 =>
    let k := d.at 8 1
    let top : Nat := match k with | 1 => 2 | 3 => 16 | 4 => 4 | _ => 1
    [(decide (1 ≤ k ∧ k ≤ 4), 0x32), (decide (d.at 9 1 < top), 0x32), zeroUnless (decide (k = 1)) 10 1,
     (decide (k = 2) || decide (d.at 12 2 = 0xFFFF), 0x32), al 16]
  | 0x70 => [(decide (d.at 8 1 ≤ 3), 0x32), (decide (1 ≤ d.at 16 4 ∧ d.at 16 4 ≤ 65536), 0x32), al 24]
  | 0x80 => [(aligned (d.at 16 8) 4, 0x33), (aligned (d.at 32 8) 4, 0x33)]
  | 0x90 => [(solveBodyOk d, 0x28)]
  | _ => []

/-- The checks of a descriptor read from its ring, in the order of log entry 29; `none` where it is well formed. -/
def descCheck (s : State) (d : Desc) : Option Nat :=
  let outOk := [0x24, 0x70].contains d.op || (decide (d.op = 0x50) && decide (d.at 8 1 = 2))
  firstFail ([(opcodes.contains d.op, 0x30), (ringAccepts (s.attr d.ring).type d.op, 0x34),
    (reservedClear d.op d.bytes, 0x31), (implies' (d.flag 4) outOk, 0x32),
    (d.flag 1 || d.flag 2 || decide (d.tack = 0), 0x32)] ++ bodyChecks d)

/-! ### Ends (R387) -/

/-- Refuse a descriptor: its completion, and DESCRIPTOR_REFUSED (R387). -/
def refuseDesc (s : State) (d : Desc) (status sub : Nat) (result : List Byte := []) : State :=
  refuseSlot s d.ring d.slot status sub result

/-- BAD_DESCRIPTOR. -/
def badDesc (s : State) (d : Desc) (sub : Nat) : State := refuseDesc s d stBadDescriptor sub
/-- BAD_STATE. -/
def badState (s : State) (d : Desc) (sub : Nat) : State := refuseDesc s d stBadState sub

/-- Complete a descriptor with DONE. -/
def doneDesc (s : State) (d : Desc) (result : List Byte := []) (flags : Nat := 0) : State :=
  complete s d.ring d.slot stDone 0 result flags

/-- A Skive-L frame of a host buffer fails to decode (R119). -/
def badFrame (s : State) (d : Desc) : State :=
  badDesc (eventLimited s 0x1051 d.ring msTicks (fun n => [n])) d 0x37

/-! ### Legality (Tables 16.4 and 16.5) -/

/-- BAD_STATE sub-code of a job command by job state; `none` where it is legal. The states are in the order of Table
16.3. -/
def jobLegal (op : Nat) (j : JobState) : Option Nat :=
  let ok (legal : List JobState) (none' other : Nat) : Option Nat :=
    if legal.contains j then none else some (if j = .none then none' else other)
  match op with
  | 0x20 => ok [.none] 0x04 0x04
  | 0x21 => ok [.opened, .paused] 0x03 0x05
  | 0x22 => ok [.running, .draining] 0x03 0x05
  | 0x24 => ok [.running, .draining, .paused] 0x03 0x05
  | 0x25 => ok [.none, .paused, .stopped] 0x05 0x05
  | 0x23 => ok [.opened, .paused, .stopped] 0x03 0x05
  | 0x80 => if j = .draining then some 0x18 else ok [.opened, .starting, .running, .paused] 0x03 0x05
  | 0x11 => ok [.none, .opened, .paused] 0x05 0x05
  | _ => none

/-- The state of the chip's job. -/
def jobState (s : State) : JobState := match s.job with | some j => j.state | none => .none

/-- BAD_STATE sub-code of a command by device state and job state (R396). SETUP and IDLE_LP start no descriptor; one read
before follows READY or LOADED. -/
def legality (s : State) (op : Nat) : Option Nat :=
  let dev := if s.dev.state = .idleLp then s.dev.under else s.dev.state
  let jobOp := [0x20, 0x21, 0x22, 0x23, 0x24, 0x80, 0x11].contains op
  match dev with
  | .faulted => if op = 0x02 ∨ op = 0x70 then none else some 0x13
  | .held =>
    if op = 0x23 ∨ op = 0x80 then jobLegal op (jobState s)
    else if jobOp || [0x10, 0x12, 0x25, 0x30, 0x31, 0x40, 0x41].contains op then some 0x12
    else none
  | .ready => if jobOp ∨ op = 0x12 then some 0x01 else jobLegal op (jobState s)
  | _ => jobLegal op (jobState s)

/-- Whether a JOB_TAG names the chip's job. -/
def namesJob (s : State) (tag : Nat) : Bool := match s.job with | some j => decide (j.tag = tag) | none => false

/-! ### The life of a descriptor (R362, R365, R383, R396) -/

/-- Start a descriptor: legal in the present state, it acts; else BAD_STATE. -/
def startDesc (s : State) (d : Desc) (run : State → Desc → State) : State :=
  let s := setRing s d.ring (fun x =>
    { x with running := x.running.map (fun o => if o.slot = d.slot then { o with phase := 2 } else o) })
  match legality s d.op with
  | some sub => badState s d sub
  | none => run s d

/-- A descriptor that a ring has read: it is checked, waits on its tack where WAIT is 1, and starts. -/
def readDesc (s : State) (d : Desc) (i : Instr) (run : State → Desc → State) : State :=
  let o : Outst := { slot := d.slot, opcode := d.op, tag := d.tag, irq := d.flag 0,
                     signal := if d.flag 2 then some d.tack else none, phase := 0 }
  let s := setRing s d.ring (fun x => { x with reading := without d.slot x.reading, running := x.running ++ [o] })
  match descCheck s d with
  | some sub => badDesc s d sub
  | none =>
    if d.flag 1 then
      match tackWait s d.tack (0, 65536 * d.ring + d.slot) with
      | (s, true) => startDesc s d run
      | (s, false) => { s with held := s.held ++ [(65536 * d.ring + d.slot, i)] }
    else startDesc s d run

/-- Whether it is a slot's turn: of what its ring has read it comes next, and none before it still waits (R362, R383). -/
def inTurn (x : Ring) (slot : Nat) : Bool :=
  decide (x.reading.head? = some slot) && x.running.all (fun o => decide (o.phase = 2))

/-- A descriptor command: it acts where its ring has read its slot and its turn has come, or where its wait has ended (log
entry 3). -/
def onDesc (s : State) (d : Desc) (i : Instr) (mine : Bool) (run : State → Desc → State) : State :=
  if !mine ∨ d.bytes.length ≠ 64 then s
  else if (s.ring d.ring).reading.contains d.slot then (if inTurn (s.ring d.ring) d.slot then readDesc s d i run else s)
  else
    match outstOf s d.ring d.slot with
    | some o => if o.phase = 1 then startDesc s d run else s
    | none => s

/-! ### Host buffers (R371) -/

/-- R116: decode a body to elements, with the bytes that follow it. -/
def skiveTake (w : Nat) : Nat → Nat → List Byte → Option (List Nat × List Byte)
  | _, 0, rest => some ([], rest)
  | 0, _, _ => none
  | _ + 1, _, [] => none
  | fuel + 1, left, c :: rest =>
    let n := c.toNat
    let k := if n < 0x80 then n + 1 else if n = 0xFF then leAt rest 0 2 + 1 else n - 0x7F
    let used := if n < 0x80 then k * w else if n = 0xFF then 2 else 0
    if left < k ∨ rest.length < used then none
    else
      match skiveTake w fuel (left - k) (rest.drop used) with
      | none => none
      | some (xs, more) =>
        some ((if n < 0x80 then (chunks w (rest.take used)).map leNat else List.replicate k 0) ++ xs, more)

/-- The frames of a host buffer, decoded and joined; `none` where one fails (R118, R371). -/
def decodeFrames : Nat → List Byte → Option (List Byte)
  | _, [] => some []
  | 0, _ => none
  | fuel + 1, bs =>
    let n := leAt bs 0 4
    let w := 2 ^ (leAt bs 4 1 % 4)
    if bs.length < 12 ∨ w = 8 then none
    else
      match skiveTake w bs.length (n / w) (bs.drop 8) with
      | none => none
      | some (_, more) =>
        let f := bs.take (bs.length - more.length + 4)
        match skiveDecode 16777216 f, decodeFrames fuel (more.drop 4) with
        | some out, some rest => some (out ++ rest)
        | _, _ => none

/-- The content of a host buffer that the descriptor reads. -/
def hostData (d : Desc) (bytes : List Byte) : Option (List Byte) :=
  if d.flag 3 then decodeFrames bytes.length bytes else some bytes

end Sys2Proof.Machine
end

