-- ==== Sys2Proof/Machine/Rings.lean ====
section
/-! DEFINITION. The doorbell page, ring positions, quarantine and host DMA faults (15.4, 15.11). -/
namespace Sys2Proof.Machine
open Host

/-! ### Polling (R367, R368) -/

/-- Whether the chip polls in its state (Table 16.1): from READY on, not in IDLE_LP. -/
def polls (s : State) : Bool :=
  dbEnabled s && s.host.busMaster && !s.host.d3hot
    && !decide (s.dev.state = .off ∨ s.dev.state = .cold ∨ s.dev.state = .setup ∨ s.dev.state = .idleLp)

/-- DOORBELL_POLL (R367): a poll falls due. -/
def execDoorbellPoll (s : State) : Outcome State Fault Refusal := .next (if polls s then issuePoll s else s)

/-! ### Quarantine (R387, R388) -/

/-- A doorbell word of the page that was read (Table 15.3). -/
def bellWord (page : List Byte) (r : Nat) : Nat := leAt page (8 * r) 8

/-- Quarantine ring `r` with the two positions of the event. For causes 0x01 and 0x02 one completion that answers no
descriptor; for the others what is held for the ring is not written. -/
def quarantine (s : State) (r cause a b : Nat) : State :=
  let s := eventLimited s 0x1020 r msTicks (fun n => [r, cause, a, b, n])
  let x := s.ring r
  let s := setRing s r (fun x => { x with qcause := cause })
  if cause ≤ 2 then
    postCpl s r { status := stQuarantined, sub := cause, final := true, flags := 0, opcode := 0, index := x.c, tag := 0,
                  result := [], irq := false, answers := false, signal := none }
  else x.held.foldl (fun s c => endOutst s r c) (setRing s r (fun x => { x with held := [] }))

/-! ### A doorbell page read (R364, R366, R369) -/

/-- Judge SQ_PROD and SQ_GEN of a submission ring: the descriptors posted and unread, or the cause. -/
def judgeSq (s : State) (r w : Nat) : Except Nat Nat :=
  let x := s.ring r
  let size := 2 ^ (s.attr r).sqLog
  let p := bitsOf w 0 16
  if size ≤ p then .error 1
  else
    match occupied size p (bitsOf w 16 1) x.c x.g with
    | some n => .ok n
    | none => .error 2

/-- Judge CQ_CONS and CQ_GEN, and take them. -/
def judgeCq (s : State) (r w : Nat) : State :=
  let x := s.ring r
  let size := 2 ^ (s.attr r).cqLog
  let q := bitsOf w 32 16
  let g := bitsOf w 48 1
  if size ≤ q then quarantine s r 3 x.w q
  else
    match occupied size x.w x.gw q g with
    | some _ =>
      let s := setRing s r (fun x => { x with q := q, gq := g })
      drainRing r (s.ring r).held.length s
    | none => quarantine s r 4 x.w q

/-- A pending EVT_OVERRUN is written once there is room (R380). -/
def flushOverrun (s : State) (r : Nat) : State :=
  let x := s.ring r
  if (s.attr r).type = 5 ∧ x.overrun ∧ evtRoom s r 1 then
    setRing (putRecord s r (eventEntries (overrunEvent s x)) false) r
      (fun x => { x with overrun := false, drops := 0, firstDrop := 0 })
  else s

/-- Judge one ring against its word. A ring that has not started starts on a word of 0 (R366). -/
def judgeRing (page : List Byte) (s : State) (r : Nat) : State :=
  let w := bellWord page r
  if (s.attr r).type = 0 ∨ 3 ≤ (s.ring r).qcause then s
  else if !(s.ring r).started then
    (if w = 0 ∧ (s.ring r).captured.isNone then setRing s r (fun x => { x with started := true }) else s)
  else
    let s :=
      if (s.attr r).type ≠ 5 ∧ (s.ring r).captured.isNone ∧ (s.ring r).qcause = 0 then
        (match judgeSq s r w with
         | .ok _ => s
         | .error cause => quarantine s r cause (s.ring r).c (bitsOf w 0 16))
      else s
    flushOverrun (judgeCq s r w) r

/-- Read `n` descriptors from a ring: their slots are outstanding and the read position moves on (R364). -/
def readSlotsOf (r : Nat) : Nat → State → State
  | 0, s => s
  | n + 1, s =>
    let x := s.ring r
    let a := s.attr r
    let s := { s with host.out := s.host.out ++ [.read (a.sqBase + 64 * x.c) 64] }
    readSlotsOf r n (setRing s r (fun x =>
      if x.c + 1 = 2 ^ a.sqLog then { x with reading := x.reading ++ [x.c], c := 0, g := 1 - x.g }
      else { x with reading := x.reading ++ [x.c], c := x.c + 1 }))

/-- Whether a ring has no descriptor outstanding. -/
def ringIdle (x : Ring) : Bool := x.reading.isEmpty && x.running.isEmpty

/-- Descriptors posted and unread that may be read now: none where the completion ring is full, the ring waits, or the host is
closed to reads (R358). -/
def readable (page : List Byte) (s : State) (r : Nat) : Nat :=
  let x := s.ring r
  if x.started ∧ x.qcause = 0 ∧ x.captured.isNone ∧ 0 < freeSpace s r ∧ !hostClosed s then
    (match judgeSq s r (bellWord page r) with | .ok n => n | .error _ => 0)
  else 0

/-- Read from one ring after a poll (R369). -/
def serveRing (page : List Byte) (s : State) (r : Nat) : State :=
  let n := readable page s r
  match (s.attr r).type with
  | 1 => if ringIdle (s.ring r) then readSlotsOf r (min n 1) s else s
  | 2 => if ringIdle (s.ring r) ∧ s.dev.state ≠ .faulted then readSlotsOf r (min n 1) s else s
  | 3 =>
    if s.dev.state = .faulted ∨ (s.ring r).running.any (fun o => decide (o.phase = 0)) then s
    else readSlotsOf r (min n 32) s
  | _ => s

/-- The SOLVE rings in rotation, starting after the ring last served (R355). -/
def solveOrder (s : State) : List Nat :=
  ((List.range 64).map (fun i => (s.shank.rotation + 1 + i) % 64)).filter (fun r => decide ((s.attr r).type = 4))

/-- With no batch in progress and no SOLVE descriptor outstanding, the next one is read (R355). -/
def serveSolve (page : List Byte) (s : State) : State :=
  if s.shank.batch.isSome ∨ s.dev.state = .faulted ∨ (solveOrder s).any (fun r => !ringIdle (s.ring r)) then s
  else
    match (solveOrder s).find? (fun r => decide (0 < readable page s r)) with
    | some r => readSlotsOf r 1 { s with shank.rotation := r }
    | none => s

/-- DOORBELL_READ_COMPLETE (R364 to R369): every enabled ring is judged, then served, in ascending number; a poll that
fell due meanwhile is issued. -/
def execDoorbellReadComplete (words : List Byte) (s : State) : Outcome State Fault Refusal :=
  .next (
    if !s.host.dbOutstanding ∨ words.length ≠ 512 then s
    else
      let s := { s with host.dbOutstanding := false }
      let s := (List.range 64).foldl (judgeRing words) s
      let s := serveSolve words ((List.range 64).foldl (serveRing words) s)
      if s.host.dbDue ∧ polls s then issuePoll s else { s with host.dbDue := false })

/-! ### Host DMA faults (R354, R387, R389) -/

/-- A completion of a descriptor that could not be read. -/
def unreadable (s : State) (r slot : Nat) : State :=
  let s := setRing s r (fun x => { x with reading := without slot x.reading })
  postCpl s r { status := stHostDma, sub := 0x01, final := true, flags := 0, opcode := 0, index := slot, tag := 0,
                result := [], irq := false, answers := true, signal := none }

/-- The result records of a batch from `i` on carry one status (R353, R354). -/
def restOfBatch (s : State) (b : Batch) (i status sub : Nat) : State :=
  (List.range (b.count - i)).foldl (fun s k =>
    hostWrite s (b.resultAddr + 512 * (i + k)) (emptyRecord status sub (i + k) 0)) s

/-- What a data fault ends: the transfer, batch, checkpoint or request of the descriptor (R389). A write fault leaves the
buffer undefined. -/
def abandon (s : State) (r slot : Nat) (write : Bool) : State :=
  let s := match s.shank.batch with
    | some b =>
      if b.ring = r ∧ b.slot = slot then
        let s := { s with shank.batch := none }
        if write then hostPut s [.undef b.resultAddr (512 * b.count)] else restOfBatch s b b.next stHostDma 0
      else s
    | none => s
  let s := match s.svc.xfers.find? (fun x => decide (x.ring = r ∧ x.slot = slot)) with
    | some x =>
      let s := { s with svc.xfers := s.svc.xfers.filter (fun y => decide (y.ring ≠ r ∨ y.slot ≠ slot)) }
      if write then hostPut s [.undef x.hostAddr x.length] else s
    | none => s
  let s := match s.job.bind (fun j => j.ckptDescs.find? (fun c => decide (c.ring = r ∧ c.slot = slot))) with
    | some c =>
      let s := setJob s (fun j => { j with ckptDescs := j.ckptDescs.filter (fun y => decide (y.ring ≠ r ∨ y.slot ≠ slot)) })
      if write then hostPut s [.undef c.addr c.len] else s
    | none => s
  setJob s (fun j => { j with drainDescs := j.drainDescs.filter (fun y => decide (y ≠ (r, slot))) })

/-- A data fault of a descriptor: one that its ring has read, or is reading (its 64 bytes are then `desc`). -/
def dataFault (s : State) (r slot sub : Nat) (desc : List Byte) : State :=
  let s :=
    if (s.ring r).reading.contains slot ∧ desc.length = 64 then
      let d : Desc := ⟨r, slot, desc⟩
      let o : Outst := { slot, opcode := d.op, tag := d.tag, irq := d.flag 0,
                         signal := if d.flag 2 then some d.tack else none, phase := 2 }
      setRing s r (fun x => { x with reading := without slot x.reading, running := x.running ++ [o] })
    else s
  match s.job.bind (fun j => j.requests.find? (fun q => decide (q.ring = r ∧ q.slot = slot))) with
  | some q => failRequest stHostDma sub s q
  | none => complete (abandon s r slot (decide (sub = 0x03))) r slot stHostDma sub

/-- HOST_DMA_FAULT (R354, R387 to R389). `kind` is 1 descriptor read, 2 data read, 3 data write, 4 completion or event
write, 5 doorbell page read. -/
def execHostDmaFault (kind ring index addr : Nat) (desc : List Byte) (s : State) : Outcome State Fault Refusal :=
  .next (
    let note (s : State) : State := eventLimited s 0x1030 ring msTicks (fun n => [ring, index, addr, n])
    let known := (s.ring ring).reading.contains index || (outstOf s ring index).isSome
    match kind with
    | 1 => if (s.ring ring).reading.contains index then unreadable (note s) ring index else s
    | 2 => if known then dataFault (note s) ring index 0x02 desc else s
    | 3 => if known then dataFault (note s) ring index 0x03 desc else s
    | 4 =>
      if (s.ring ring).started ∧ (s.ring ring).qcause = 0 then quarantine (note s) ring 5 (s.ring ring).w 0 else s
    | 5 =>
      if s.host.dbOutstanding then
        eventLimited { s with host.dbOutstanding := false } 0x1031 0 msTicks (fun n => [n])
      else s
    | _ => s)

end Sys2Proof.Machine
end

