-- ==== Sys2Proof/Machine/Commands.lean ====
section
/-! DEFINITION. The host commands that act outside a job's life: NOP, QUERY, logs, budgets, repairs, tables (15.5, 11.5,
12.2, 12.9, 13.4, 19). -/
namespace Sys2Proof.Machine
open Host

/-! ### NOP and QUERY -/

/-- NOP; an OPCODE outside Table 15.10 is refused here (0x30). -/
def execNop (d : Desc) (s : State) : Outcome State Fault Refusal :=
  .next (onDesc s d (.nop d) (decide (d.op = 0x01) || !opcodes.contains d.op) (fun s d => doneDesc s d))

/-- RESULT of QUERY (Table 15.7). -/
def queryResult (s : State) (d : Desc) : List Byte :=
  if d.at 8 1 = 1 then leBytes 4 (tackGet s (d.at 12 4 % 2 ^ 17)).toNat
  else
    let tag := match s.job with | some j => j.tag | none => 0xFFFF
    [byteOf s.dev.state.code, byteOf s.clk.pace] ++ leBytes 2 tag
      ++ [byteOf (jobState s).code, byteOf (enabledTiles s).length, 0, 0] ++ leBytes 8 s.clk.ws ++ leBytes 8 (lowJs s)

/-- QUERY (Tables 15.5, 15.7). -/
def execQuery (d : Desc) (s : State) : Outcome State Fault Refusal :=
  .next (onDesc s d (.query d) (decide (d.op = 0x02)) (fun s d => doneDesc s d (queryResult s d)))

/-! ### LOG_READ (R480) -/

/-- A tile health entry (Table 19.4). -/
def tileEntry (s : State) (t : Nat) : List Byte :=
  let h := s.mem.tiles.getD t (TileHealth.factory 0)
  let recent := (h.correctedAt.filter (fun p => decide (s.heel.periods < p + dayPeriods))).length
  [byteOf h.state, byteOf (bit01 h.candidate + 2 * bit01 h.pending)] ++ leBytes 2 (min recent 0xFFFF)
    ++ leBytes 4 h.uncorrectable ++ leBytes 8 h.wsChange

/-- A retirement map entry (Table 19.5). -/
def retireEntryBytes (e : RetireEntry) : List Byte :=
  leBytes 5 e.addr ++ [byteOf e.kind, byteOf e.spare, 0] ++ leBytes 4 e.corrected ++ zeros 4

/-- An entry of the event log as a ring entry of PHASE 0. -/
def logEntries (s : State) (log : Nat) : List (List Byte) :=
  match log with
  | 0 => s.host.eventLog.map (fun e => (eventEntries e).flatten)
  | 1 => s.host.faultLog
  | 2 => (List.range 144).map (tileEntry s)
  | _ => s.mem.retired.map retireEntryBytes

/-- The entries to return, and their number's start: `none` where START is not yet written (R480). -/
def logSlice (s : State) (log start count : Nat) : Option (Nat × List (List Byte)) :=
  let es := logEntries s log
  if log < 2 then
    let i := if log = 0 then s.host.nextSeq else s.host.faultIndex
    if (start + 2 ^ 32 - i) % 2 ^ 32 < 2 ^ 31 then none
    else
      let age := (i + 2 ^ 32 - start) % 2 ^ 32
      let skip := es.length - age
      let first := if es.length < age then (i + 2 ^ 32 - es.length) % 2 ^ 32 else start
      some (first, (es.drop skip).take count)
  else if es.length ≤ start then none
  else some (start, (es.drop start).take count)

/-- LOG_READ (R480, R371). -/
def runLogRead (s : State) (d : Desc) : State :=
  let start := d.at 12 4
  match logSlice s (d.at 8 1) start (d.at 16 4) with
  | none => doneDesc s d (leBytes 4 0 ++ leBytes 4 start ++ leBytes 8 0)
  | some (first, es) =>
    let out := if d.flag 4 then skiveStream es.flatten else es.flatten
    if d.at 32 4 < out.length then badDesc s d 0x35
    else
      doneDesc (hostWrite s (d.at 24 8) out) d
        (leBytes 4 es.length ++ leBytes 4 (first + es.length) ++ leBytes 8 out.length)

/-- LOG_READ. -/
def execLogRead (d : Desc) (s : State) : Outcome State Fault Refusal :=
  .next (onDesc s d (.logRead d) (decide (d.op = 0x70)) runLogRead)

/-! ### Budgets (R326 to R329) -/

/-- Record a host order; orders of lower rings come first (R328). -/
def addOrder (s : State) (ring : Nat) (o : Order) : State :=
  let before := s.heel.orders.takeWhile (fun x => decide (x.1 ≤ ring))
  { s with heel.orders := before ++ [(ring, o)] ++ s.heel.orders.drop before.length }

/-- The CAPPED flag of a completion (Table 15.6). -/
def cappedFlag : Nat := 4

/-- SET_BUDGET (R326, R328): recorded for the next period; the completion reports the effective values. -/
def runSetBudget (s : State) (d : Desc) : State :=
  let m := d.at 12 1
  let s := if bitOf m 0 then addOrder s d.ring (.powerW (d.at 8 2)) else s
  let s := if bitOf m 1 then addOrder s d.ring (.thermal (d.at 10 1)) else s
  let s := if bitOf m 2 then addOrder s d.ring (.prefillRun (d.at 11 1)) else s
  let power := if bitOf m 0 then d.at 8 2 else s.heel.powerW
  let capped := bitOf m 0 && decide (s.heel.powerCap < power)
  let s := if capped then event s 0x5060 [] else s
  doneDesc s d
    (leBytes 2 (min power s.heel.powerCap) ++ [byteOf (if bitOf m 1 then d.at 10 1 else s.heel.thermal),
      byteOf (if bitOf m 2 then d.at 11 1 else s.heel.prefillRun)]) (if capped then cappedFlag else 0)

/-- SET_BUDGET. -/
def execSetBudget (d : Desc) (s : State) : Outcome State Fault Refusal :=
  .next (onDesc s d (.setBudget d) (decide (d.op = 0x30)) runSetBudget)

/-- SET_PACE_LIMIT (R326, R328). -/
def runSetPaceLimit (s : State) (d : Desc) : State :=
  let v := d.at 8 1
  let capped := decide (s.heel.paceCap < v)
  let s := addOrder s d.ring (.paceMax v)
  let s := if capped then event s 0x5060 [] else s
  doneDesc s d [byteOf (min v s.heel.paceCap)] (if capped then cappedFlag else 0)

/-- SET_PACE_LIMIT. -/
def execSetPaceLimit (d : Desc) (s : State) : Outcome State Fault Refusal :=
  .next (onDesc s d (.setPaceLimit d) (decide (d.op = 0x31)) runSetPaceLimit)

/-! ### Repairs (R231, R295, R471) -/

/-- TILE_RETIRE (R471). -/
def runTileRetire (s : State) (d : Desc) : State :=
  let t := d.at 8 1
  match s.mem.tiles[t]? with
  | none => badDesc s d 0x32
  | some h =>
    if 2 ≤ h.state then badDesc s d 0x32
    else if h.state = 1 then
      let s := setTile s t (fun h => { h with state := 2, candidate := false, pending := false, causes := [] })
      doneDesc (event s 0x4013 [t, 0xFF, (enabledTiles s).length]) d
    else if s.job.isNone then doneDesc (retireTile s t) d
    else doneDesc (setTile s t (fun h => { h with pending := true })) d

/-- TILE_RETIRE. -/
def execTileRetire (d : Desc) (s : State) : Outcome State Fault Refusal :=
  .next (onDesc s d (.tileRetire d) (decide (d.op = 0x40)) runTileRetire)

/-- The eyelet passes to new settings (R231): down from UP or RELAY, training abandoned, DOWN unchanged. -/
def retrain (s : State) (k : Nat) : State :=
  if (s.eyelet k).state = .down then s else takeDown s k 0x02 true .down

/-- Take eyelet `k` out of its bridge, if it is in one. -/
def unbridge (s : State) (k : Nat) : State :=
  match (s.eyelet k).bridgePeer with
  | none => s
  | some p =>
    setEyelet (setEyelet (retrain s p) p (fun e => { e with bridgePeer := none })) k (fun e => { e with bridgePeer := none })

/-- LINK_RETRAIN (R199, R231, R473). -/
def runLinkRetrain (s : State) (d : Desc) : State :=
  let k := d.at 8 1
  let bridge := bitOf (d.at 12 1) 0
  let peer := d.at 13 1
  if (s.eyelet k).state = .held ∨ (bridge ∧ (s.eyelet peer).state = .held) then badState s d 0x12
  else if bridge ∧ (lacingUses s k ∨ lacingUses s peer) then badState s d 0x0F
  else
    let s := retrain s k
    let s := unbridge s k
    let s := setEyelet s k (fun e =>
      { e with widthCap := d.at 9 1, speedPin := bitOf (d.at 10 1) 0, laneRetire := d.at 11 1 })
    let s := if bridge then
        let s := retrain (unbridge s peer) peer
        setEyelet (setEyelet s k (fun e => { e with bridgePeer := some peer })) peer
          (fun e => { e with bridgePeer := some k })
      else s
    doneDesc s d

/-- LINK_RETRAIN. -/
def execLinkRetrain (d : Desc) (s : State) : Outcome State Fault Refusal :=
  .next (onDesc s d (.linkRetrain d) (decide (d.op = 0x41)) runLinkRetrain)

/-- The EXCLUDED flag of a completion (Table 15.6). -/
def excludedFlag : Nat := 8

/-- The spares of the bank of an address that are taken. -/
def sparesTaken (s : State) (a : Nat) : Nat :=
  let same (b : Nat) : Bool := decide (hbmChannel b = hbmChannel a ∧ hbmBank b = hbmBank a)
  (s.mem.retired.filter (fun e => decide (e.kind = 1) && same e.addr)).length
    + (s.mem.copying.filter (fun c => same c.2.2.1)).length

/-- PAGE_RETIRE (R295). -/
def runPageRetire (s : State) (d : Desc) : State :=
  let a := d.at 8 8
  let blocks := excludedBlocks s
  if hbmEnd ≤ a then complete s d.ring d.slot stBadAddress 0
  else if sparesTaken s a < 2 then
    { s with mem.copying := s.mem.copying ++ [(d.ring, d.slot, hbmPage a, sparesTaken s a)] }
  else if hbmBlock a = 9215 then badState s d 0x11
  else if blocks.contains (hbmBlock a) then doneDesc s d [] excludedFlag
  else if 256 ≤ blocks.length then badState s d 0x10
  else
    let s := { s with
      mem.retired := s.mem.retired ++ [{ addr := hbmBlock a * 2 ^ 24, kind := 2, spare := 0, corrected := 0 }] }
    doneDesc (event s 0x4024 []) d [] excludedFlag

/-- PAGE_RETIRE. -/
def execPageRetire (d : Desc) (s : State) : Outcome State Fault Refusal :=
  .next (onDesc s d (.pageRetire d) (decide (d.op = 0x42)) runPageRetire)

/-- Descriptors put off by a HOLD or a page copy start again. Their keys in `held` lie above those of tack waits. -/
def resumeDeferred (s : State) : State :=
  let ready := s.held.filter (fun h => decide (2 ^ 22 ≤ h.1))
  let s := { s with held := s.held.filter (fun h => decide (h.1 < 2 ^ 22)), ready := s.ready ++ ready.map (·.2) }
  ready.foldl (fun s h =>
    let n := h.1 - 2 ^ 22
    setRing s (n / 65536) (fun x =>
      { x with running := x.running.map (fun o => if o.slot = n % 65536 then { o with phase := 1 } else o) })) s

/-- Put a started descriptor off (R295, R340). -/
def deferDesc (s : State) (d : Desc) (i : Instr) : State :=
  setRing { s with held := s.held ++ [(2 ^ 22 + 65536 * d.ring + d.slot, i)] } d.ring (fun x =>
    { x with running := x.running.map (fun o => if o.slot = d.slot then { o with phase := 0 } else o) })

/-- PAGE_RETIRE_COPY_DONE (R295): the oldest copy is whole; the page is remapped, its data and its marks kept. -/
def execPageRetireCopyDone (s : State) : Outcome State Fault Refusal :=
  .next (match s.mem.copying with
    | [] => s
    | c :: rest =>
      let e : RetireEntry := { addr := c.2.2.1, kind := 1, spare := c.2.2.2, corrected := pageTotal s c.2.2.1 }
      let s := { s with
        mem.copying := rest
        mem.pageCorrected := assocErase c.2.2.1 s.mem.pageCorrected
        mem.retired := s.mem.retired.filter (fun x => decide (x.addr ≠ c.2.2.1 ∨ x.kind ≠ 3)) ++ [e] }
      resumeDeferred (complete (event s 0x4023 []) c.1 c.2.1 stDone 0))

/-! ### TABLE_LOAD (R272 to R284, R312, R345, R373) -/

/-- The header of a routing table image, as R273's sub-code 0x20 judges it. -/
def routingHeaderOk (s : State) (bank : Nat) (b : List Byte) : Bool :=
  let p : Coord := ⟨leAt b 6 1, leAt b 7 1, leAt b 8 1⟩
  let own := Coord.ofField s.dev.coord
  let size (i : Nat) : Nat := leAt b (6 + i) 1
  let line (i : Nat) : Nat := leAt b (9 + i) 1
  let axis (c : Coord) (i : Nat) : Nat := match i with | 0 => c.x | 1 => c.y | _ => c.z
  let crossOk (k : Nat) : Bool :=
    let v := leAt b (12 + k) 1
    let i := v % 4
    let e := s.eyelet k
    let here := axis own i
    let there := if e.partnerValid then axis (Coord.ofField e.partnerCoord) i
      else if bitOf v 2 then (here + size i - 1) % size i else (here + 1) % size i
    let lo := (line i + size i - 1) % size i
    !bitOf v 3 || (decide (i < 3) && ((decide (here = lo) && decide (there = line i)) || (decide (here = line i) && decide (there = lo))))
  decide (leAt b 0 4 = 0x45545552 ∧ leAt b 4 1 = 1 ∧ leAt b 5 1 = bank) && shapeOk p && inShape p own
    && [0, 1, 2].all (fun i => decide (line i < size i)) && zeroRange b 28 36
    && (List.range 16).all (fun k => decide (leAt b (12 + k) 1 < 32) && crossOk k)
    && decide (b.length = 64 + 8 * (p.x * p.y * p.z))

/-- The coordinate of a linear index in a shape (R276). -/
def coordIn (p : Coord) (l : Nat) : Coord := ⟨l % p.x, l / p.x % p.y, l / (p.x * p.y)⟩

/-- An entry, as R273's sub-code 0x21 judges it. -/
def routingEntryOk (s : State) (b : List Byte) (l : Nat) : Bool :=
  let p : Coord := ⟨leAt b 6 1, leAt b 7 1, leAt b 8 1⟩
  let e := leAt b (64 + 8 * l) 8
  let ord := e % 16
  let esc := e / 16 % 16
  let spread := e / 256 % 65536
  let eye (k : Nat) : Nat := leAt b (12 + k) 1
  let own := Coord.ofField s.dev.coord
  let c := coordIn p l
  let low := if c.x ≠ own.x then 0 else if c.y ≠ own.y then 1 else 2
  decide (e < 2 ^ 24) &&
    (if c = own then decide (ord = 0xF ∧ esc = 0xF ∧ spread = 0)
     else bitOf (eye ord) 4 && decide (eye ord % 4 = low) && bitOf (eye esc) 4 && !bitOf (eye esc) 3
       && decide (spread ≠ 0) && (List.range 16).all (fun k => !bitOf spread k || bitOf (eye k) 4))

/-- The bank that an image loads. -/
def parseRouting (b : List Byte) : RouteTable :=
  let n := leAt b 6 1 * leAt b 7 1 * leAt b 8 1
  { shape := [leAt b 6 1, leAt b 7 1, leAt b 8 1], dateline := [leAt b 9 1, leAt b 10 1, leAt b 11 1],
    eyelets := (List.range 16).map (fun k => leAt b (12 + k) 1),
    entries := (List.range n).map (fun l =>
      let e := leAt b (64 + 8 * l) 8
      (e % 16, e / 16 % 16, e / 256 % 65536)) }

/-- TABLE_LOAD of a routing table (R273, R282 to R284): the states first, then the image. -/
def runTableRouting (image : List Byte) (s : State) (d : Desc) : State :=
  let bank := d.at 9 1
  let activate := bitOf (d.at 10 1) 0
  if s.svc.activeBank = bank ∨ (activate ∧ jobLive s) then badState s d 0x0D
  else if !bankQuiet s bank then badState s d 0x0E
  else
    match hostData d image with
    | none => badFrame s d
    | some b =>
      if !routingHeaderOk s bank b then badDesc s d 0x20
      else if !(List.range (leAt b 6 1 * leAt b 7 1 * leAt b 8 1)).all (routingEntryOk s b) then badDesc s d 0x21
      else
        doneDesc { s with
          svc.banks := setAt s.svc.banks bank (some (parseRouting b))
          svc.activeBank := if activate then bank else s.svc.activeBank } d

/-- TABLE_LOAD, kind 1; a KIND outside 1 to 4 is refused here (0x32). -/
def execTableLoadRouting (d : Desc) (image : List Byte) (s : State) : Outcome State Fault Refusal :=
  .next (onDesc s d (.tableLoadRouting d image) (decide (d.op = 0x60) && !decide (2 ≤ d.at 8 1 ∧ d.at 8 1 ≤ 4))
    (runTableRouting image))

/-- One peer of a prefix peer table at an offset, with the offset after it; `none` where R312 refuses it. -/
def parsePeer (log2L : Nat) (b : List Byte) (o : Nat) : Option (Peer × Nat) :=
  let span := leAt b (o + 2) 1
  let n := leAt b (o + 4) 2
  let next := o + 16 + ceilDiv (2 * n) 16 * 16
  if leAt b (o + 3) 1 ≠ 0 ∨ !zeroRange b (o + 8) 8 ∨ log2L < span ∨ n ≠ 2 ^ (log2L - span) ∨ b.length < next
      ∨ !zeroRange b (o + 16 + 2 * n) (next - (o + 16 + 2 * n)) then none
  else some (⟨leAt b o 2, span, leAt b (o + 6) 2, (List.range n).map (fun i => leAt b (o + 16 + 2 * i) 2)⟩, next)

/-- The peers of a table. -/
def parsePeers (log2L : Nat) (b : List Byte) : Nat → Nat → Option (List Peer)
  | 0, o => if o = b.length then some [] else none
  | n + 1, o =>
    match parsePeer log2L b o with
    | none => none
    | some (p, next) => (parsePeers log2L b n next).map (fun ps => p :: ps)

/-- TABLE_LOAD of a prefix peer table (R312). -/
def runTablePeer (image : List Byte) (s : State) (d : Desc) : State :=
  match jobLast s with
  | none => badState s d 0x03
  | some l =>
    if !namesJob s (d.at 12 2) then badState s d 0x03
    else if !isLeader s then badState s d 0x06
    else
      match hostData d image with
      | none => badFrame s d
      | some b =>
        let peers := if leAt b 0 4 = 0x52454550 ∧ leAt b 4 1 ≤ 4 ∧ zeroRange b 5 11 then parsePeers l.log2L b (leAt b 4 1) 16 else none
        match peers with
        | none => badDesc s d 0x22
        | some ps => doneDesc (setJob s (fun j => { j with nextPeers := some ps })) d

/-- TABLE_LOAD, kind 2. -/
def execTableLoadPeer (d : Desc) (image : List Byte) (s : State) : Outcome State Fault Refusal :=
  .next (onDesc s d (.tableLoadPeer d image) (decide (d.op = 0x60 ∧ d.at 8 1 = 2)) (runTablePeer image))

/-- TABLE_LOAD of a shank template (R345): it completes once no batch is in progress. -/
def runTableTemplate (image : List Byte) (s : State) (d : Desc) : State :=
  match hostData d image with
  | none => badFrame s d
  | some b =>
    match parseTemplate b with
    | none => badDesc s d 0x2D
    | some t =>
      if s.shank.batch.isSome then
        { s with shank.loading := s.shank.loading ++ [(d.at 9 1, t, d.ring, d.slot)] }
      else doneDesc { s with shank.slots := setAt s.shank.slots (d.at 9 1) (some t) } d

/-- TABLE_LOAD, kind 3. -/
def execTableLoadTemplate (d : Desc) (image : List Byte) (s : State) : Outcome State Fault Refusal :=
  .next (onDesc s d (.tableLoadTemplate d image) (decide (d.op = 0x60 ∧ d.at 8 1 = 3)) (runTableTemplate image))

/-- TEMPLATE_LOAD_COMPLETE (R345): with no batch in progress the oldest waiting load takes its slot. -/
def execTemplateLoadComplete (s : State) : Outcome State Fault Refusal :=
  .next (match s.shank.batch, s.shank.loading with
    | none, (slot, t, r, i) :: rest =>
      complete { s with shank.loading := rest, shank.slots := setAt s.shank.slots slot (some t) } r i stDone 0
    | _, _ => s)

/-- TABLE_LOAD of a last key (R373); a LEN of 0 empties the slot. -/
def runTableKey (image : List Byte) (s : State) (d : Desc) : State :=
  let slot := d.at 9 1
  if d.at 24 4 = 0 then doneDesc { s with keys := setAt s.keys slot none } d
  else
    match hostData d image with
    | none => badFrame s d
    | some b =>
      let id := leAt b 0 8
      let x := beNat (slice b 8 48)
      let y := beNat (slice b 56 48)
      let taken := (List.range 4).any (fun i =>
        decide (i ≠ slot) && decide (((s.keys.getD i none).map (·.id)) = some id))
      if b.length ≠ 104 ∨ !onP384 x y ∨ id = 0 ∨ taken then badDesc s d 0x36
      else doneDesc { s with keys := setAt s.keys slot (some ⟨id, x, y⟩) } d

/-- TABLE_LOAD, kind 4. -/
def execTableLoadKey (d : Desc) (image : List Byte) (s : State) : Outcome State Fault Refusal :=
  .next (onDesc s d (.tableLoadKey d image) (decide (d.op = 0x60 ∧ d.at 8 1 = 4)) (runTableKey image))

end Sys2Proof.Machine
end

