-- ==== Sys2Proof/Machine/Loading.lean ====
section
/-! DEFINITION. Lasts and weights: LOAD_LAST, LOAD_WEIGHTS, UNLOAD (06 6.6 to 6.9, 08 R178 and R179). -/
namespace Sys2Proof.Machine
open Host

/-! ### The loader's view of the chip (R139, R513) -/

/-- The prefix store region of the open job, as (base, length). -/
def storeUsed (s : State) : List (Nat × Nat) := match jobStore s with | some t => [(t.base, t.size)] | none => []

/-- HBM that no allocation may take: excluded blocks and block 9,215 (R295, R330). -/
def hbmExcluded (s : State) : List (Nat × Nat) := ((excludedBlocks s) ++ [9215]).map (fun u => (u * 2 ^ 24, 2 ^ 24))

/-- What the loader asks of the chip, with the allocations of `lasts` in use. -/
def loadEnv (s : State) (lasts : List LoadedLast) (store : List (Nat × Nat)) : LoadEnv :=
  { stepping := 0, enabled := enabledTiles s, xlatCal := s.clk.xlat, keys := s.keys.filterMap id,
    requireSigned := s.regs.requireSigned, shape := shapeOf s, coord := Coord.ofField s.dev.coord,
    partners := s.eyelets.map (fun e => ⟨decide (e.state = .up), e.partnerCoord, e.partnerEyelet⟩),
    insoleUsed := lasts.map (fun l => (l.insoleBase, l.build.insoleBytes)),
    hbmUsed := lasts.map (fun l => (l.hbmBase, l.build.hbmBytes)) ++ store ++ hbmExcluded s,
    tacksUsed := lasts.map (fun l => (l.tackBase, l.build.tacks)) }

/-- The lasts that hold a lacing bank: JOB_CLOSE frees it (R192, Table 16.3). -/
def openLasts (s : State) : List LoadedLast := s.lasts.filter (fun l => !l.closed)

/-- Refuse a last: the events, and the completion with the entry and the offset (R140, Table 15.7). -/
def refuseLast (s : State) (d : Desc) (r : LastRefusal) : State :=
  refuseDesc (event s (0x3100 + r.sub) [r.sub, r.entry, r.offset, leAt r.digest 0 8]) d stBadDescriptor r.sub
    (leBytes 4 r.entry ++ leBytes 4 r.offset)

/-- Copy the constants of a last into the mapped tiles (R141 step 2). -/
def placeConsts (s : State) (l : LoadedLast) : State :=
  l.consts.foldl (fun s c => insoleWrite s (l.tileMap.getD c.ltile 0) (l.insoleBase + c.offset) c.bytes) s

/-- The device has a last loaded (Table 16.2). -/
def lastLoaded (s : State) : State := if s.dev.state = .ready then { s with dev.state := .loaded } else s

/-! ### LOAD_LAST -/

/-- LOAD_LAST (R139 to R141): what JOB_CLOSE freed gives way to the new last. -/
def runLoadLast (image arr : List Byte) (sched : Schedule) (s : State) (d : Desc) : State :=
  if 2 ≤ (openLasts s).length then badState s d 0x02
  else
    match hostData d image, hostData d arr with
    | some img, some a =>
      match loadLast (loadEnv s (openLasts s) (storeUsed s)) img a sched with
      | .error r => refuseLast s d r
      | .ok l =>
        doneDesc (lastLoaded (placeConsts { s with lasts := openLasts s ++ [l] } l)) d l.digest
    | _, _ => badFrame s d

/-- LOAD_LAST. -/
def execLoadLast (d : Desc) (image arr : List Byte) (sched : Schedule) (s : State) : Outcome State Fault Refusal :=
  .next (onDesc s d (.loadLast d image arr sched) (decide (d.op = 0x10)) (runLoadLast image arr sched))

/-! ### LOAD_WEIGHTS -/

/-- The loaded last of a LAST_PREFIX. -/
def lastNamed (s : State) (pre : Nat) : Option LoadedLast := s.lasts.find? (fun l => decide (leAt l.digest 0 8 = pre))

/-- Replace a loaded last. -/
def setLast (s : State) (digest : List Byte) (f : LoadedLast → LoadedLast) : State :=
  { s with lasts := s.lasts.map (fun l => if l.digest = digest then f l else l) }

/-- Whether every scale of one block is finite (R73). -/
def blockScalesOk (w4 : Bool) (block : List Byte) : Bool :=
  let planes := if w4 then 2048 else 4096
  (List.range 128).all (fun i => (fp16Scale (leAt block (planes + 2 * i) 2)).isSome)

/-- R75 over a blob's extents. -/
def blobScalesOk : List Extent → List Byte → Bool
  | [], _ => true
  | x :: xs, blob =>
    let n := extentBytes x
    (chunks (if x.w4 then 2304 else 4352) (blob.take n)).all (blockScalesOk x.w4) && blobScalesOk xs (blob.drop n)

/-- Place a slice's blob into the tiles (R130). -/
def placeBlob (s : State) (l : LoadedLast) (slot : Nat) (blob : List Byte) : State :=
  (l.placement.filter (fun p => decide (p.slot = slot))).foldl (fun s p =>
    insoleWrite s (l.tileMap.getD p.ltile 0) (l.insoleBase + p.tileOffset) (slice blob p.blobOffset p.length)) s

/-- The weight digest of a chip whose slices are all present (R178, R179). -/
def chipWeights (l : LoadedLast) (slices : List (Nat × List Byte)) (siblings : List (List Byte)) : List Byte :=
  let first := l.lchip * 2 ^ l.span
  let leaves := (List.range (2 ^ l.span)).map (fun i => (assoc (first + i) slices).getD [])
  weightClimb l.lchip (weightRoot l.span leaves) siblings

/-- The last with one more slice, or the refusal of R131. -/
def addSlice (s : State) (d : Desc) (l : LoadedLast) (blob : List Byte) (siblings : Option (List (List Byte))) : State :=
  let sl := d.at 16 2
  let first := l.lchip * 2 ^ l.span
  let slices := l.slices ++ [(sl, weightLeaf blob)]
  let whole := decide (slices.length = 2 ^ l.span)
  let sibs := if l.span = l.log2L then some [] else siblings
  let place (s : State) (digest : Option (List Byte)) : State :=
    placeBlob (setLast s l.digest (fun l => { l with slices := slices, siblings := siblings, weightDigest := digest })) l
      (sl - first) blob
  let result (digest : List Byte) : List Byte := padTo 32 digest ++ leBytes 2 slices.length
  if !whole then doneDesc (place s none) d (result [])
  else
    match sibs with
    | none => badDesc s d 0x16
    | some sibs =>
      let digest := chipWeights l slices sibs
      if !allZero l.pinned ∧ digest ≠ l.pinned then
        badDesc (setLast s l.digest (fun l => { l with slices := [], siblings := siblings, weightDigest := none })) d 0x16
      else doneDesc (place s (some digest)) d (result digest)

/-- LOAD_WEIGHTS (R75, R131). -/
def runLoadWeights (blob siblings : List Byte) (s : State) (d : Desc) : State :=
  match lastNamed s (d.at 8 8) with
  | none => badState s d 0x01
  | some l =>
    let sl := d.at 16 2
    let first := l.lchip * 2 ^ l.span
    if sl < first ∨ first + 2 ^ l.span ≤ sl then badDesc s d 0x16
    else if (assoc sl l.slices).isSome then badState s d 0x15
    else
      match hostData d blob, hostData d siblings with
      | some b, some sb =>
        let man := l.manifest.getD sl []
        if b.length ≠ blobBytes man then badDesc s d 0x16
        else if !blobScalesOk man b then complete s d.ring d.slot stLongSum 0
        else
          addSlice s d l b (if bitOf (d.at 18 1) 0 then some ((chunks 32 sb).take (l.log2L - l.span)) else l.siblings)
      | _, _ => badFrame s d

/-- LOAD_WEIGHTS. -/
def execLoadWeights (d : Desc) (blob siblings : List Byte) (s : State) : Outcome State Fault Refusal :=
  .next (onDesc s d (.loadWeights d blob siblings) (decide (d.op = 0x11)) (runLoadWeights blob siblings))

/-! ### UNLOAD -/

/-- UNLOAD (Tables 15.5, 16.2, 16.6). -/
def runUnload (s : State) (d : Desc) : State :=
  match lastNamed s (d.at 8 8) with
  | none => badState s d 0x01
  | some l =>
    if (match s.job with | some j => decide (j.last = l.digest) | none => false) then badState s d 0x02
    else
      let s := { s with lasts := s.lasts.filter (fun x => decide (x.digest ≠ l.digest)) }
      doneDesc (if s.lasts.isEmpty ∧ s.dev.state = .loaded then { s with dev.state := .ready } else s) d

/-- UNLOAD. -/
def execUnload (d : Desc) (s : State) : Outcome State Fault Refusal :=
  .next (onDesc s d (.unload d) (decide (d.op = 0x12)) runUnload)

end Sys2Proof.Machine
end

