-- ==== Sys2Proof/Machine/Link.lean ====
section
/-! DEFINITION. The commands of the welt link layer: training, items received, timers, the transmitter (09 9.1, 10).
A command whose precondition the state does not show leaves the state unchanged (log entry 3). -/
namespace Sys2Proof.Machine
open Host

/-- An item command takes the item off the eyelet's received stream where it is the next one there (R224). -/
def takeItem (s : State) (k : Nat) (item : List Byte) : State :=
  setEyelet s k (fun e =>
    match e.rxItems with
    | x :: rest => if x = item then { e with rxItems := rest } else e
    | [] => e)

/-! ### Training (R226 to R231) -/

/-- A training sequence with good SYNC and CRC (Table 10.3). -/
def tsOk (b : List Byte) : Bool :=
  decide (b.length = 32 ∧ leAt b 0 4 = 0x0F5AF0A5 ∧ leAt b 28 4 = crc32c (b.take 28))

/-- The lanes of a mask. -/
def laneList (m : Nat) : List Nat := (List.range 8).filter (bitOf m)

/-- The lanes used: all 8, else the lowest six, else the lowest four, within the cap (R230, R231); none below four. -/
def chooseLanes (common cap : Nat) : List Nat :=
  let ls := laneList common
  if ls.length = 8 ∧ cap = 8 then ls
  else if 6 ≤ ls.length ∧ 6 ≤ cap then ls.take 6
  else if 4 ≤ ls.length then ls.take 4
  else []

/-- A restart by the partner (R229): a DETECT TS after it had reached LOCK or sent DOWN_NOTICE. The ninth within 1 s
lengthens the back-off. -/
def noteRestart (s : State) (k : Nat) : State :=
  let e := s.eyelet k
  if e.partnerLocked then
    let rs := e.restarts.filter (fun t => decide (s.now < t + 1000 * msTicks)) ++ [s.now]
    if 8 < rs.length then
      violation (setEyelet s k (fun e =>
        { e with partnerLocked := false, restarts := rs,
                 backoff := if e.backoff < 100 then 100 else min 1600 (2 * e.backoff) })) k 0x220A 0x01
    else setEyelet s k (fun e => { e with partnerLocked := false, restarts := rs })
  else s

/-- EQUALISE meets the partner's EQ_DONE: width, lanes and speed are chosen, or training fails (R230). -/
def equaliseDone (s : State) (k : Nat) (ts : List Byte) (ownOk : Nat) : State :=
  let e := s.eyelet k
  let common := (ownOk &&& leAt ts 6 1) &&& (255 - e.laneRetire)
  let lanes := chooseLanes common e.widthCap
  if lanes.isEmpty then
    trainFail (setEyelet s k (fun e =>
      { e with state := .down, slowNext := e.slowNext || decide ((laneList ownOk).length < 4) })) k
  else
    let s := setEyelet s k (fun e =>
      { e with state := .lock, lanes, laneOk := common,
               slow := e.speedPin || e.slowNext || decide (leAt ts 7 1 % 4 = 1), slowNext := false, hopLocked := false })
    if lanes.length < 8 then event s 0x2204 [k, lanes.length] else s

/-- TRAINING_SEQUENCE (R227 to R230): the sequences received on the lanes, whether at least 10 µs of them have been
valid, and the lanes that have passed equalisation here. -/
def execTrainingSequence (eyelet : Nat) (lanes : List (List Byte)) (sustained : Bool) (ownOk : Nat) (s : State) :
    Outcome State Fault Refusal :=
  .next (
    let good := lanes.filter tsOk
    match good with
    | [] => s
    | ts :: _ =>
      let kind := leAt ts 4 1
      match (s.eyelet eyelet).state with
      | .held => setEyelet s eyelet (fun e => { e with partnerActive := true })
      | .detect =>
        let s := if kind = 1 then noteRestart s eyelet else s
        if 4 ≤ good.length ∧ sustained then setEyelet s eyelet (fun e => { e with state := .equalise }) else s
      | .equalise =>
        let s := if kind = 1 then noteRestart s eyelet else s
        if kind = 3 then equaliseDone s eyelet ts ownOk else s
      | _ => if kind = 1 then noteRestart s eyelet else s)

/-- TRAINING_STATE_TIMEOUT (R228). -/
def execTrainingStateTimeout (eyelet : Nat) (s : State) : Outcome State Fault Refusal :=
  .next (
    let e := s.eyelet eyelet
    let down := trainFail (setEyelet s eyelet (dropLink · .down)) eyelet
    match e.state with
    | .detect =>
      if (match e.trainFailAt with | some t => decide (s.now < t + 10000 * msTicks) | none => false) then s
      else trainFail (setEyelet s eyelet (fun e => { e with trainFailAt := some s.now })) eyelet
    | .equalise => down
    | .lock => down
    | .exchange => down
    | .credit => down
    | _ => s)

/-- CODEWORD_LOCK (R228, R234): EXCHANGE, or on a bridge RELAY once both hops are locked alike. -/
def execCodewordLock (eyelet : Nat) (s : State) : Outcome State Fault Refusal :=
  .next (
    let e := s.eyelet eyelet
    if e.state ≠ .lock then s
    else
      let s := setEyelet s eyelet (fun e => { e with partnerLocked := true, hopLocked := true })
      match e.bridgePeer with
      | none => enterExchange s eyelet
      | some p =>
        let f := s.eyelet p
        if f.state = .lock ∧ f.hopLocked then
          if f.lanes.length = e.lanes.length ∧ f.slow = e.slow then
            setEyelet (setEyelet s eyelet (fun e => { e with state := .relay })) p (fun e => { e with state := .relay })
          else bridgeDown s eyelet 0x220C
        else s)

/-- BACKOFF_EXPIRY (R229). -/
def execBackoffExpiry (eyelet : Nat) (s : State) : Outcome State Fault Refusal :=
  .next (if (s.eyelet eyelet).state = .down then enterDetect s eyelet else s)

/-! ### Codewords (R223 to R225, R234) -/

/-- Whether the eyelet receives codewords in this state. -/
def takesCodewords (x : LinkState) : Bool :=
  decide (x = .lock ∨ x = .exchange ∨ x = .credit ∨ x = .up ∨ x = .relay)

/-- Add one block to the item in assembly: a mini-unit is one block, a unit eight (R224). A broken pattern is a
BAD_ITEM in UP and the unit is treated as failing its CRC (Table 10.12). -/
def takeBlock (k : Nat) (s : State) (blk : Bool × List Byte) : State :=
  let e := s.eyelet k
  let unit (b : List Byte) : Bool := decide (leAt b 0 1 / 16 = 8 ∨ leAt b 0 1 / 16 = 9)
  if blk.1 then
    let s := if e.partialItem.isEmpty ∨ e.state ≠ .up then s else nakExpected (violation s k 0x2215 0) k
    setEyelet s k (fun e =>
      if unit blk.2 then { e with partialItem := blk.2 } else { e with partialItem := [], rxItems := e.rxItems ++ [blk.2] })
  else if e.partialItem.isEmpty then s
  else
    let whole := e.partialItem ++ blk.2
    setEyelet s k (fun e =>
      if 256 ≤ whole.length then { e with partialItem := [], rxItems := e.rxItems ++ [whole] }
      else { e with partialItem := whole })

/-- The blocks of a data codeword with their start bits (R224). -/
def codewordBlocks (data : Nat) : List (Bool × List Byte) :=
  (List.range 20).map (fun j => (bitOf data j, leBytes 32 (bitsOf data (20 + 256 * j) 256)))

/-- CODEWORD_RECEIVED (R223 to R225, R228, R234): up to 15 symbol errors are corrected; eight uncorrectable codewords in
a row take the eyelet down; a bridge relays every block. -/
def execCodewordReceived (eyelet marker data symbolErrors : Nat) (s : State) : Outcome State Fault Refusal :=
  .next (
    let e := s.eyelet eyelet
    if !takesCodewords e.state then s
    else
      let bad := decide (15 < symbolErrors)
      let s := setEyelet s eyelet (fun e =>
        if bad then { e with uncorrected := satUp e.uncorrected, badRun := e.badRun + 1 } else { e with badRun := 0 })
      if 8 ≤ (s.eyelet eyelet).badRun then
        match e.state with
        | .up => leaveUp s eyelet 0x02 true .down
        | .relay => bridgeDown s eyelet 0x220B
        | _ => s
      else if marker ≠ 0 then s
      else
        match e.state, e.bridgePeer with
        | .relay, some p => setEyelet s p (fun f => { f with out := f.out ++ (codewordBlocks data).map (·.2) })
        | .relay, none => s
        | .lock, _ => s
        | _, _ => (codewordBlocks data).foldl (takeBlock eyelet) s)

/-- MARKER_LOSS (R225, R228): a trained lane has missed its marker for four marker periods. -/
def execMarkerLoss (eyelet lane : Nat) (s : State) : Outcome State Fault Refusal :=
  .next (
    let e := s.eyelet eyelet
    if !e.lanes.contains lane then s
    else
      match e.state with
      | .up => leaveUp s eyelet 0x02 true .down
      | .relay => bridgeDown s eyelet 0x220B
      | _ => s)

/-! ### Exchange and credit (R232, R233, R246) -/

/-- EXCHANGE (R232). -/
def execExchange (eyelet : Nat) (item : List Byte) (s : State) : Outcome State Fault Refusal :=
  .next (
    let s := takeItem s eyelet item
    let b4 := leAt item 4 1
    let rx := leAt item 6 2
    if (s.eyelet eyelet).state ≠ .exchange ∨ !miniOk item ∨ leAt item 0 1 ≠ 0x06 then s
    else if leAt item 1 1 = 1 ∧ bitOf b4 4 ∧ inPod s (leAt item 2 2) then
      exchangeDone (setEyelet s eyelet (fun e =>
        { e with identityOk := true, partnerCoord := leAt item 2 2, partnerEyelet := b4 % 16, partnerValid := true,
                 partnerRxNext := if bitOf rx 15 then some (rx % 4096) else none })) eyelet
    else trainFail (setEyelet s eyelet (dropLink · .down)) eyelet)

/-- EXCHANGE_RESEND (R232): every 10 µs until the partner's has come. -/
def execExchangeResend (eyelet : Nat) (s : State) : Outcome State Fault Refusal :=
  .next (
    let e := s.eyelet eyelet
    if e.state = .exchange ∧ !e.identityOk then
      sendNow (setEyelet s eyelet (fun e => { e with identitySent := s.dev.coordValid })) eyelet (exchangeItem s eyelet)
    else s)

/-- LAT_PROBE_SEND (R233): 64 probes, numbered from 0. -/
def execLatProbeSend (eyelet : Nat) (s : State) : Outcome State Fault Refusal :=
  .next (
    let e := s.eyelet eyelet
    if e.state = .exchange ∧ e.probesSent < 64 then
      sendNow (setEyelet s eyelet (fun e => { e with probesSent := e.probesSent + 1 })) eyelet
        (miniUnit [0x04, byteOf e.probesSent])
    else s)

/-- LAT_PROBE (R233): answered with its PROBE_ID and the turnaround time. -/
def execLatProbe (eyelet : Nat) (item : List Byte) (turn : Nat) (s : State) : Outcome State Fault Refusal :=
  .next (
    let s := takeItem s eyelet item
    let e := s.eyelet eyelet
    if (e.state = .exchange ∨ e.state = .credit) ∧ miniOk item ∧ leAt item 0 1 = 0x04 then
      sendNow s eyelet (miniUnit ([0x05, byteAt item 1] ++ leBytes 2 turn))
    else s)

/-- LAT_ECHO (R222, R233): one sample, (round trip - TURN) / 2 in 1/16 ns; the largest of the 64 is the hop latency. -/
def execLatEcho (eyelet : Nat) (item : List Byte) (round : Nat) (s : State) : Outcome State Fault Refusal :=
  .next (
    let s := takeItem s eyelet item
    let e := s.eyelet eyelet
    let id := leAt item 1 1
    if e.state = .exchange ∧ miniOk item ∧ leAt item 0 1 = 0x05 ∧ id < e.probesSent ∧ id ∉ e.probesAnswered then
      exchangeDone (setEyelet s eyelet (fun e =>
        { e with probesAnswered := e.probesAnswered ++ [id], latMax := max e.latMax ((round - leAt item 2 2) / 2) })) eyelet
    else s)

/-- The advertisement of a CREDIT_INIT, where it is valid (R246). -/
def parseAdvert (item : List Byte) : Option Advert :=
  let res := (List.range 4).map (fun i => leAt item (4 + i) 1)
  let shared := leAt item 8 2
  let t := leAt item 10 1
  if res.all (fun r => decide (1 ≤ r)) ∧ shared ≤ 4095 ∧ 2 ≤ t ∧ t ≤ 64 ∧ byteAt item 11 = byteOf 256
      ∧ leAt item 2 2 = res.sum + shared then some ⟨res, shared, t⟩ else none

/-- CREDIT_INIT (R246, R252): UP, or DOWN where it is invalid. -/
def execCreditInit (eyelet : Nat) (item : List Byte) (s : State) : Outcome State Fault Refusal :=
  .next (
    let s := takeItem s eyelet item
    if (s.eyelet eyelet).state ≠ .credit ∨ !miniOk item ∨ leAt item 0 1 ≠ 0x07 then s
    else
      match parseAdvert item with
      | some a => enterUp s eyelet a
      | none => trainFail (setEyelet s eyelet (dropLink · .down)) eyelet)

/-! ### Welt units received (R200, R201, R240 to R242) -/

/-- The fields of a welt unit's header (Table 10.6). -/
def unitSeq (item : List Byte) : Nat := bitsOf (leAt item 0 8) 8 12

/-- A unit whose aglet's CRC holds (R236). -/
def unitCrcOk (item : List Byte) : Bool := decide (leAt item 252 4 = crc32c (item.take 252))

/-- A class or LEN that Table 10.12 calls BAD_ITEM. -/
def unitBad (item : List Byte) : Bool :=
  let c := leAt item 0 1 / 16
  !(decide (c = 8) || (decide (c = 9) && decide (leAt item 3 1 ≤ 239)))

/-- The local JS of the region of eyelet `k`: EE (18) for e0 to e7, EW (19) for the others (Table 2.1). -/
def eyeletJs (s : State) (k : Nat) : Nat := (s.clk.regions.getD (if k < 8 then 18 else 19) Region.fresh).js

/-- The departure JS with these low 16 bits that lies nearest a local JS (R194). -/
def fullDeparture (low js : Nat) : Nat :=
  let base := js / 65536 * 65536 + low
  if js + 32768 < base ∧ 65536 ≤ base then base - 65536
  else if base + 32768 < js then base + 65536 else base

/-- The rows of the chip's lacing for a variant. -/
def rowsOf (l : LoadedLast) (variant : Nat) : List LaceRow :=
  match l.variants.find? (fun v => decide (v.id = variant)) with
  | some v => variantRows l.lacing v
  | none => []

/-- The rows by which a lace comes in on eyelet `k`: in the running variant, or in any where the unit's landing lies
past the step's end (R256, Table 10.12). -/
def landingRows (s : State) (k lace landJs : Nat) : List LaceRow :=
  match s.job, jobLast s with
  | some j, some l =>
    let rs := if landJs < j.nextBoundary then rowsOf l j.variant else l.variants.flatMap (fun v => rowsOf l v.id)
    rs.filter (fun r => decide (r.lace = lace ∧ 2 ≤ r.action ∧ r.action ≤ 4 ∧ l.phys r.eyelet = k))
  | _, _ => []

/-- The declared flight into eyelet `k` (R190). -/
def flightOf (s : State) (k : Nat) : Nat :=
  match jobLast s with | some l => l.lacing.flight.getD (l.logical k) 0 | none => 0

/-- Whether the landing of this unit breaks check 0x01 (R148, R200): the buffer is full of units whose scheduled landing
is no later than this unit's. -/
def landingOverfilled (s : State) (k dep : Nat) : Bool :=
  let e := s.eyelet k
  decide (256 ≤ e.landing.length) && e.landing.all (fun u => decide (u.dep ≤ dep))

/-- The finding of check 0x01. -/
def landingFinding (s : State) (k : Nat) : Finding :=
  { check := 0x01, tile := none, site := some (siteOf 1 k), task := none, js := eyeletJs s k, declared := 256, observed := 257 }

/-- The copies a row sends on (R196). -/
def LaceRow.copies (r : LaceRow) : Nat := if r.outB = 0xF then 1 else 2

/-- The uses that the running variant makes of a unit of a lace landed on eyelet `k` (R197). -/
def laceUses (s : State) (k lace : Nat) : Nat :=
  match s.job, jobLast s with
  | some j, some l =>
    (rowsOf l j.variant).foldl (fun n r =>
      if r.lace = lace ∧ l.phys r.eyelet = k then
        match r.action with
        | 2 => n + 1
        | 3 => n + r.copies
        | 4 => n + 1 + r.copies
        | _ => n
      else n) 0
  | _, _ => 0

/-- Count `n` uses of the oldest landed unit of a name; its entry is free after its last use (R197). -/
def useLanded (s : State) (k lace unit n : Nat) : State :=
  match (s.eyelet k).landing.find? (fun u => decide (u.lace = lace ∧ u.unit = unit)) with
  | none => s
  | some u =>
    let total := laceUses s k lace
    setEyelet s k (fun e =>
      { e with landing := if total ≤ u.uses + n then e.landing.erase u
                          else e.landing.map (fun x => if x = u then { u with uses := u.uses + n } else x) })

/-- Whether a late forward waits for this unit. -/
def awaits (lace unit : Nat) (x : SchedUnit) : Bool := decide (x.lace = lace ∧ x.unit = unit) && x.payload.isNone

/-- Land a scheduled unit (R196, R200, R201): late forwards that wait for it get its payload, each one a use. -/
def landUnit (s : State) (k lace unit dep : Nat) (payload : List Byte) : State :=
  let n := (s.eyelets.map (fun e => (e.txSched.filter (awaits lace unit)).length)).sum
  let s := setEyelet s k (fun e => { e with landing := e.landing ++ [⟨lace, unit, dep, 0, payload⟩] })
  let s := { s with eyelets := s.eyelets.map (fun e => { e with
    txSched := e.txSched.map (fun x => if awaits lace unit x then { x with payload := some payload } else x) }) }
  if n = 0 then s else useLanded s k lace unit n

/-- The credit kind of a service unit (R245). -/
def unitKind (item : List Byte) : Nat := if bitOf (leAt item 0 1) 2 then 4 else leAt item 0 1 % 4

/-- Deliver one unit in sequence (R240): `true` where it was taken, `false` where the landing buffer refuses it (R201). -/
def deliverUnit (s : State) (k : Nat) (item : List Byte) : State × Bool :=
  let h := leAt item 0 8
  if unitBad item then (if bitsOf h 4 4 = 9 then credBack s k (unitKind item) else s, true)
  else if bitsOf h 4 4 = 8 then
    let lace := bitsOf h 20 20
    let unit := bitsOf h 40 8
    let dep := fullDeparture (bitsOf h 48 16) (eyeletJs s k)
    let stopped := match s.job with | some j => decide (j.state = .stopped) | none => false
    if (landingRows s k lace (dep + flightOf s k)).isEmpty ∨ !lacingUses s k then
      (if stopped && lacingUses s k then s else violation s k 0x2212 (unitSeq item), true)
    else if stopped then (s, true)
    else if 256 ≤ (s.eyelet k).landing.length then
      (if landingOverfilled s k dep then
        (if isRelaxed s then interlock s (landingFinding s k) else awlFaults s [landingFinding s k])
      else s, false)
    else (landUnit s k lace unit dep (slice item 8 240), true)
  else
    let vc := bitsOf h 0 2
    (svcArrive s k vc { first := bitOf h 20, last := bitOf h 21, trunc := bitOf (leAt item 250 1) 2, len := bitsOf h 24 8,
                        payload := slice item 8 240, ingress := k, kind := unitKind item, hdr := [] }, true)

/-- Deliver a unit and count it (R241). -/
def deliverCounted (s : State) (k : Nat) (item : List Byte) : State × Bool :=
  match deliverUnit s k item with
  | (s, true) =>
    (setEyelet s k (fun e =>
      { e with expect := e.expect + 1, unechoed := e.unechoed + 1, ackDue := e.ackDue || decide (16 ≤ e.unechoed + 1) }), true)
  | (s, false) => (s, false)

/-- Deliver the consecutive units that the reorder window holds (R240). -/
def deliverHeld (k : Nat) : Nat → State → State
  | 0, s => s
  | fuel + 1, s =>
    let q := seq12 (s.eyelet k).expect
    match assoc q (s.eyelet k).reorder with
    | none => s
    | some item =>
      let s := setEyelet s k (fun e => { e with reorder := assocErase q e.reorder })
      match deliverCounted s k item with
      | (s, true) => deliverHeld k fuel s
      | (s, false) => nakSeq s k q

/-- A service unit that finds no room of its kind (R256 CREDIT_OVERRUN). -/
def overruns (e : Eyelet) (item : List Byte) : Bool :=
  decide (leAt item 0 1 / 16 = 9) && decide (ownPool.getD (unitKind item) 0 ≤ e.occupied.getD (unitKind item) 0)

/-- A service unit takes its credit's buffer (R245). -/
def occupy (s : State) (k : Nat) (item : List Byte) : State :=
  if leAt item 0 1 / 16 = 9 then
    setEyelet s k (fun e => { e with occupied := mapAt e.occupied (unitKind item) (· + 1) }) else s

/-- NAK the numbers missing between E and a unit that lies `d` past it, up to four (R242). -/
def nakMissing (s : State) (k d : Nat) : State :=
  let e := s.eyelet k
  let qs := ((List.range d).map (fun i => seq12 (e.expect + i))).filter (fun q => (assoc q e.reorder).isNone)
  (qs.take 4).foldl (fun s q => nakSeq s k q) s

/-- A unit of good CRC meets the receive window (R240). -/
def windowUnit (s : State) (k : Nat) (item : List Byte) : State :=
  let e := s.eyelet k
  let q := unitSeq item
  let d := (q + 4096 - seq12 e.expect) % 4096
  if d < 64 then
    if (assoc q e.reorder).isSome then s
    else if overruns e item then nakExpected (violation s k 0x2210 q) k
    else
      let s := if unitBad item then violation s k 0x2215 q else s
      if d = 0 then
        match deliverCounted s k item with
        | (s, true) => deliverHeld k 64 (occupy s k item)
        | (s, false) => nakExpected s k
      else nakMissing (occupy (setEyelet s k (fun e => { e with reorder := e.reorder ++ [(q, item)] })) k item) k d
  else if d < 1024 then
    if (match e.rangeNakAt with | some t => decide (s.now < t + roundTrip e 64) | none => false) then s
    else queueNak (setEyelet s k (fun e => { e with rangeNakAt := some s.now })) k (seq12 (e.expect + 64)) true false
  else if d < 3072 then violation s k 0x2211 q
  else s

/-- WELT_UNIT_RECEIVED (R201, R236, R240 to R242, R256, R258). -/
def execWeltUnitReceived (eyelet : Nat) (item : List Byte) (s : State) : Outcome State Fault Refusal :=
  .next (
    let s := takeItem s eyelet item
    if item.length ≠ 256 then s
    else
      match (s.eyelet eyelet).state with
      | .up =>
        if !unitCrcOk item then nakExpected s eyelet
        else
          let echo := leAt item 248 2
          let s := if bitOf echo 12 then takeEcho s eyelet (echo % 4096) (unitSeq item) else s
          if (s.eyelet eyelet).state = .up then windowUnit s eyelet item else s
      | .held => s
      | .relay => s
      | _ => violation s eyelet 0x2219 (unitSeq item))

/-! ### Link-control mini-units received (R237 to R243, R247, R253) -/

/-- ACK (R239, R245, R249). -/
def execAck (eyelet : Nat) (item : List Byte) (s : State) : Outcome State Fault Refusal :=
  .next (
    let s := takeItem s eyelet item
    if (s.eyelet eyelet).state ≠ .up ∨ !miniOk item ∨ leAt item 0 1 ≠ 0x01 then s
    else
      let echo := leAt item 2 2
      let s := if bitOf echo 12 then takeEcho s eyelet (echo % 4096) 0x01 else s
      let s := if bitOf (leAt item 5 1) 0 then takeTongueEcho s eyelet (leAt item 4 1) 0x01 else s
      let s := (List.range 4).foldl (fun s i => takeReturn s eyelet i (leAt item (8 + i) 1)) s
      takeReturn (takeReturn s eyelet 4 (leAt item 12 2)) eyelet 5 (leAt item 14 1))

/-- NAK (R243, R249): the named unit, every unit from it on, or the tongue from the named number on. -/
def execNak (eyelet : Nat) (item : List Byte) (s : State) : Outcome State Fault Refusal :=
  .next (
    let s := takeItem s eyelet item
    let e := s.eyelet eyelet
    if e.state ≠ .up ∨ !miniOk item ∨ leAt item 0 1 ≠ 0x02 then s
    else
      let f := leAt item 2 2
      let q := f % 4096
      if bitOf f 13 then
        if e.tUnacked.any (fun u => decide (u.tseq = q % 256)) then askTongue s eyelet (q % 256)
        else if (behind e.tSend 256 (q % 256)).isSome then s
        else violation s eyelet 0x2217 0x02
      else if e.replay.any (fun r => decide (r.seq = q)) then
        if bitOf f 12 then
          ((e.replay.dropWhile (fun r => decide (r.seq ≠ q))).map (·.seq)).foldl (fun s x => askResend s eyelet x false) s
        else askResend s eyelet q true
      else if (behind e.sendSeq 4096 q).isSome then s
      else violation s eyelet 0x2217 0x02)

/-- ACK_DUE (R241, R245): 256 ns after an unechoed delivery or a returnable credit. -/
def execAckDue (eyelet : Nat) (s : State) : Outcome State Fault Refusal :=
  .next (
    let e := s.eyelet eyelet
    if e.state = .up ∧ ackWorth e then setEyelet s eyelet (fun e => { e with ackDue := true }) else s)

/-- RESEND_TIMEOUT (R243): no acknowledgement has advanced; the oldest unit is re-sent. -/
def execResendTimeout (eyelet : Nat) (s : State) : Outcome State Fault Refusal :=
  .next (
    let e := s.eyelet eyelet
    match e.state, e.replay with
    | .up, r :: _ => askResend s eyelet r.seq false
    | _, _ => s)

/-- TONGUE_RESEND_TIMEOUT (R249): every unacknowledged tongue mini-unit is re-sent, from the oldest. -/
def execTongueResendTimeout (eyelet : Nat) (s : State) : Outcome State Fault Refusal :=
  .next (
    let e := s.eyelet eyelet
    match e.state, e.tUnacked with
    | .up, u :: _ => askTongue s eyelet u.tseq
    | _, _ => s)

/-- CREDIT_REPORT_SEND (R247). -/
def execCreditReportSend (eyelet : Nat) (s : State) : Outcome State Fault Refusal :=
  .next (
    let e := s.eyelet eyelet
    if e.state = .up then
      setEyelet s eyelet (fun e =>
        { e with txCtl := e.txCtl ++ [miniUnit ([0x03, 0] ++ e.gotBack.flatMap (leBytes 2))] })
    else s)

/-- One kind of a credit report: a leak that has grown is an event (R247), a reserve leaked to 0 another (R248). -/
def judgeLeak (k : Nat) (reported due : List Nat) (s : State) (kind : Nat) : State :=
  let leak := (due.getD kind 0 + 65536 - reported.getD kind 0) % 65536
  let old := (s.eyelet k).leaks.getD kind 0
  if leak < 32768 ∧ old < leak then
    let s := setEyelet s k (fun e => { e with leaks := setAt e.leaks kind leak })
    let s := event s 0x2206 [k, kind, leak, effWindow (s.eyelet k)]
    if kind < 4 ∧ old < 16 ∧ 16 ≤ leak then event s 0x2207 [k, kind] else s
  else s

/-- CREDIT_REPORT (R247, R248): each total is compared with what was returned earlier than 2 × hop latency + 64 ns ago; a
lost reserve takes the eyelet down unless a running job's lacing uses it. -/
def execCreditReport (eyelet : Nat) (item : List Byte) (s : State) : Outcome State Fault Refusal :=
  .next (
    let s := takeItem s eyelet item
    let e := s.eyelet eyelet
    if e.state ≠ .up ∨ !miniOk item ∨ leAt item 0 1 ≠ 0x03 then s
    else
      let early := e.returned.filter (fun x => decide (x.1 + roundTrip e 64 < s.now))
      let due := (early.getLast?.map (·.2)).getD []
      let reported := (List.range 6).map (fun i => leAt item (2 + 2 * i) 2)
      let s := setEyelet s eyelet (fun e =>
        { e with returned := early.drop (early.length - 1) ++ e.returned.drop early.length })
      let s := (List.range 6).foldl (judgeLeak eyelet reported due) s
      let lost := (List.range 4).any (fun i => decide (16 ≤ (s.eyelet eyelet).leaks.getD i 0))
      if lost && !(jobLive s && lacingUses s eyelet) then leaveUp s eyelet 0x07 true .down else s)

/-- DOWN_NOTICE (R228, R253). -/
def execDownNotice (eyelet : Nat) (item : List Byte) (s : State) : Outcome State Fault Refusal :=
  .next (
    let s := takeItem s eyelet item
    if !miniOk item ∨ leAt item 0 1 ≠ 0x08 then s
    else
      let s := setEyelet s eyelet (fun e => if e.state = .held then e else { e with partnerLocked := true })
      if (s.eyelet eyelet).state = .up then leaveUp s eyelet (leAt item 1 1) false .down else s)

/-- Whether a mini-unit of good CRC has a CLASS or TYPE that Table 10.12 calls BAD_ITEM. -/
def miniBad (item : List Byte) : Bool :=
  let t := leAt item 0 1
  decide (8 < t ∧ t < 16) || decide (32 ≤ t)

/-- IDLE (R237): filler. A mini-unit of another CLASS or of no known TYPE that comes here is a BAD_ITEM (R256). -/
def execIdle (eyelet : Nat) (item : List Byte) (s : State) : Outcome State Fault Refusal :=
  .next (
    let s := takeItem s eyelet item
    if (s.eyelet eyelet).state = .up ∧ miniOk item ∧ miniBad item then violation s eyelet 0x2215 (leAt item 0 1) else s)

/-- GRACE_EXPIRY (R255): the held service traffic is flushed. -/
def execGraceExpiry (eyelet : Nat) (s : State) : Outcome State Fault Refusal :=
  .next (
    let e := s.eyelet eyelet
    if e.graceUntil.isSome ∧ e.state ≠ .up then flushEyelet (event s 0x2209 [eyelet]) eyelet else s)

/-! ### The transmitter (R187, R188, R238, R239, R241, R245) -/

/-- A unit's bytes with a fresh aglet: ECHO, LATE, RESEND, TRUNC and the CRC (Table 10.7). -/
def stampUnit (e : Eyelet) (body : List Byte) (flags : Nat) : List Byte :=
  let b := padTo 248 body ++ leBytes 2 (seq12 (e.expect + 4095) + 4096 * bit01 (decide (0 < e.expect)))
    ++ [byteOf flags, 0]
  b ++ leBytes 4 (crc32c b)

/-- A unit that carries the ECHO has left (R241). -/
def echoSent (e : Eyelet) : Eyelet := { e with unechoed := 0, ackDue := e.ackDue && e.returnable.any (fun n => decide (0 < n)) }

/-- Re-send a unit of the replay buffer (R243). -/
def resendUnit (s : State) (k : Nat) (r : ReplayUnit) : State :=
  let item := stampUnit (s.eyelet k) r.bytes (leAt r.bytes 250 1 ||| 2)
  let s := setEyelet s k (fun e => echoSent
    { e with
      resendQ := e.resendQ.filter (fun q => decide (q ≠ r.seq))
      replay := e.replay.map (fun x => if x.seq = r.seq then { x with sends := x.sends + 1, sentAt := s.now } else x)
      resends := satUp e.resends
      out := e.out ++ [item] })
  match r.svc with
  | some v => moved s k v.2.channel
  | none => s

/-- Send a new unit with the next sequence number (R238, R239). -/
def sendUnit (s : State) (k : Nat) (low fields flags : Nat) (payload : List Byte) (svc : Option (Nat × SvcUnit)) : State :=
  let e := s.eyelet k
  let q := seq12 e.sendSeq
  let item := stampUnit e (leBytes 8 (low + 256 * q + fields) ++ padTo 240 payload) flags
  setEyelet s k (fun e => echoSent
    { e with sendSeq := e.sendSeq + 1, replay := e.replay ++ [⟨q, item, 1, s.now, svc⟩],
             ackAdvanceAt := if e.replay.isEmpty then s.now else e.ackAdvanceAt, out := e.out ++ [item] })

/-- The next tongue mini-unit: a re-send, or a new one against a tongue credit (R188, R249). -/
def oppTongue (s : State) (k : Nat) : Option State :=
  let e := s.eyelet k
  match e.tResendQ with
  | t :: rest =>
    match e.tUnacked.find? (fun u => decide (u.tseq = t)) with
    | some u => some (setEyelet s k (fun e =>
        { e with tResendQ := rest, out := e.out ++ [u.bytes],
                 tUnacked := e.tUnacked.map (fun x => if x.tseq = t then { x with sends := x.sends + 1, sentAt := s.now } else x) }))
    | none => none
  | [] =>
    match e.txTongue with
    | m :: rest =>
      if e.credits.getD 5 0 = 0 then none
      else
        let t := e.tSend % 256
        let item := miniUnit ((overlay m 1 [byteOf t]).take 28)
        some (setEyelet s k (fun e =>
          { e with txTongue := rest, tSend := e.tSend + 1, credits := mapAt e.credits 5 (· - 1),
                   tUnacked := e.tUnacked ++ [⟨t, item, 1, s.now⟩], out := e.out ++ [item] }))
    | [] => none

/-- The first queued re-send of a plane (R188, R241). -/
def oppResend (s : State) (k : Nat) (service : Bool) : Option State :=
  let e := s.eyelet k
  let us := e.resendQ.filterMap (fun q => e.replay.find? (fun r => decide (r.seq = q)))
  (us.find? (fun r => decide (r.svc.isSome = service))).map (resendUnit s k)

/-- Scheduled order: departure JS, then lace, then unit (R188). -/
def schedBefore (a b : SchedUnit) : Bool :=
  decide (a.dep < b.dep ∨ (a.dep = b.dep ∧ (a.lace < b.lace ∨ (a.lace = b.lace ∧ a.unit < b.unit))))

/-- The first ready scheduled unit, on time or late. -/
def oppSched (s : State) (k : Nat) (late : Bool) : Option State :=
  let e := s.eyelet k
  let ready := e.txSched.filter (fun u => u.payload.isSome && decide (u.late = late))
  match ready.foldl (fun (m : Option SchedUnit) u => match m with
      | none => some u | some v => if schedBefore u v then some u else some v) none with
  | none => none
  | some u =>
    if 1024 ≤ e.replay.length then none
    else
      let s := setEyelet s k (fun e => { e with txSched := e.txSched.erase u })
      some (sendUnit s k 0x80 (u.lace * 2 ^ 20 + u.unit * 2 ^ 40 + u.dep % 65536 * 2 ^ 48) (bit01 u.late)
        (u.payload.getD []) none)

/-- The next link-control mini-unit: NAK, a due ACK, CREDIT_REPORT (R241). -/
def oppCtl (s : State) (k : Nat) : Option State :=
  let e := s.eyelet k
  match e.txCtl.find? (fun m => decide (leAt m 0 1 = 0x02)) with
  | some m => some (setEyelet s k (fun e => { e with txCtl := e.txCtl.erase m, out := e.out ++ [m] }))
  | none =>
    if e.ackDue then some (setEyelet s k (fun e => { ackSent s.now e with out := e.out ++ [ackItem e] }))
    else
      match e.txCtl with
      | m :: rest => some (setEyelet s k (fun e => { e with txCtl := rest, out := e.out ++ [m] }))
      | [] => none

/-- The first VC with a unit to send and a credit for it: units held over a training first, then Q0, Q1, P0, P1 (log
entry 24). -/
def nextSvc (e : Eyelet) : Option (Nat × SvcUnit × Bool) :=
  match e.txResume with
  | (vc, u) :: _ => if hasCredit e vc then some (vc, u, true) else none
  | [] => (List.range 4).findSome? (fun vc =>
      match e.txSvc.getD vc [] with
      | u :: _ => if hasCredit e vc then some (vc, u, false) else none
      | [] => none)

/-- Send the next service unit: on the VC's reserve first, on a shared credit while that is exhausted (R278). -/
def oppSvc (s : State) (k : Nat) : Option State :=
  let e := s.eyelet k
  match nextSvc e with
  | none => none
  | some (vc, u, resumed) =>
    if 1024 ≤ e.replay.length then none
    else
      let kind := if 0 < e.credits.getD vc 0 then vc else 4
      let s := setEyelet s k (fun e =>
        { e with credits := mapAt e.credits kind (· - 1),
                 txResume := if resumed then e.txResume.drop 1 else e.txResume,
                 txSvc := if resumed then e.txSvc else mapAt e.txSvc vc (·.drop 1) })
      let s := sendUnit s k (0x90 + vc + 4 * bit01 (decide (kind = 4)))
        (bit01 u.first * 2 ^ 20 + bit01 u.last * 2 ^ 21 + u.len * 2 ^ 24) (4 * bit01 u.trunc) u.payload (some (vc, u))
      some (moved (touchBank (credBack s u.ingress u.kind) (hEpoch u.hdr)) k u.channel)

/-- Whether a full replay buffer holds a unit back (R239). -/
def replayBlocks (e : Eyelet) : Bool :=
  decide (1024 ≤ e.replay.length) && (e.txSched.any (fun u => u.payload.isSome) || (nextSvc e).isSome)

/-- UNIT_OPPORTUNITY (R188, R239, R241): the first eligible item leaves, or IDLE. -/
def execUnitOpportunity (eyelet : Nat) (s : State) : Outcome State Fault Refusal :=
  .next (
    let filler := sendNow s eyelet (miniUnit [0x00])
    match (s.eyelet eyelet).state with
    | .up =>
      let s := if replayBlocks (s.eyelet eyelet) then eventLimited s 0x2220 eyelet msTicks (fun _ => [eyelet]) else s
      ((((((((oppTongue s eyelet).orElse fun _ => oppResend s eyelet false).orElse fun _ => oppSched s eyelet false).orElse
        fun _ => oppSched s eyelet true).orElse fun _ => oppCtl s eyelet).orElse fun _ => oppResend s eyelet true).orElse
        fun _ => oppSvc s eyelet).getD (sendNow s eyelet (miniUnit [0x00])))
    | .lock => filler
    | .exchange => filler
    | .credit => filler
    | _ => s)

end Sys2Proof.Machine
end

