-- ==== Sys2Proof/Machine/Tongue.lean ====
section
/-! DEFINITION. The tongue: the messages received, the start barrier and the announcement of slips (09 9.5 and 9.6, 10.7). -/
namespace Sys2Proof.Machine
open Host

/-! ### Reception (R203, R249 to R251, R256) -/

/-- The ARG8 range of a message (Table 10.10). -/
def argOk (m : Tongue) : Bool :=
  match m.type with
  | 0x10 => decide (m.arg8 = 3)
  | 0x12 => decide (m.arg8 < 8)
  | 0x13 => decide (m.arg8 ≤ 32)
  | 0x14 => decide (1 ≤ m.arg8 ∧ m.arg8 ≤ 4)
  | 0x18 => [0x20, 0x30, 0x31, 0x50, 0x7F].contains m.arg8
  | 0x19 => decide (m.arg8 ≤ 32)
  | _ => decide (m.arg8 = 0)

/-- The message kinds of Table 10.10. -/
def tongueTypes : List Nat := [0x10, 0x12, 0x13, 0x14, 0x15, 0x16, 0x17, 0x18, 0x19]

/-- A message that Table 10.12 calls BAD_TONGUE. -/
def tongueBad (s : State) (m : Tongue) : Bool := !(tongueTypes.contains m.type && argOk m && inPod s m.origin)

/-- Accept a tongue mini-unit at tongue level (R249): `true` where it is the one expected. Its buffer is freed at once. -/
def acceptTongue (s : State) (k : Nat) (item : List Byte) : State × Bool :=
  let s := takeItem s k item
  let e := s.eyelet k
  let t := leAt item 1 1
  let want := e.tExpect % 256
  let nak (s : State) : State := queueNak s k want false true
  if !miniOk item then (s, false)
  else
    match e.state with
    | .up =>
      if 16 ≤ e.occupied.getD 5 0 then (nak (violation s k 0x2210 (leAt item 0 1)), false)
      else if t = want then
        (setEyelet s k (fun e =>
          { e with tExpect := e.tExpect + 1, occupied := mapAt e.occupied 5 (· + 1),
                   returnable := mapAt e.returnable 5 (· + 1), unechoed := e.unechoed + 1 }), true)
      else if (want + 256 - t) % 256 ≤ 16 then (nak s, false)
      else (violation s k 0x2211 (leAt item 0 1), false)
    | .held => (s, false)
    | .relay => (s, false)
    | _ => (violation s k 0x2219 (leAt item 0 1), false)

/-- An OFFER group that another item interrupts is a BAD_TONGUE and is discarded whole (R251, R256). -/
def breakOffer (s : State) (k : Nat) : State :=
  if (s.eyelet k).offerAsm.isSome then
    violation (setEyelet s k (fun e => { e with offerAsm := none })) k 0x2213 0x10 else s

/-- Forward a message once, with the hop's latency and 24 ns added (R203); `true` where it was not seen before. -/
def forward (s : State) (k : Nat) (m : Tongue) (parts : List (List Byte)) : State × Bool :=
  if floodDup s m then (s, false)
  else (floodOut s { m with lat := m.lat + (s.eyelet k).hopLat + 24 * nsTicks } parts (some k), true)

/-- Whether a message acts on this chip's job (R204): the job's tag, from one of its chips, or from its leader where the
kind asks for that. Its tag from anyone else is a FOREIGN_TAG. -/
def actsOn (s : State) (m : Tongue) : Bool :=
  match s.job with
  | none => false
  | some j =>
    decide (m.tag = j.tag) && ofJob s m.origin
      && (!([0x10, 0x13, 0x14, 0x17, 0x19].contains m.type) || decide (m.origin = leaderCoord s))

/-- Record a foreign message, at most once a second (R204). -/
def foreign (s : State) (m : Tongue) : State :=
  match s.job with
  | none => s
  | some j =>
    let due : Bool := match s.svc.foreignAt with | some t => decide (t + 1000 * msTicks ≤ s.now) | none => true
    if m.tag = j.tag ∧ !actsOn s m ∧ due then
      event { s with svc.foreignAt := some s.now } 0x2113 [m.origin] else s

/-- The reception shared by the messages of one mini-unit: accepted, judged, forwarded once, and handed to `act` with the
accumulated latency at this chip (log entry 25) where it is of this type and acts on the job. -/
def tongueIn (s : State) (k : Nat) (item : List Byte) (type : Nat) (act : State → Tongue → Nat → State) : State :=
  let m := Tongue.parse item
  if tongueTypes.contains m.type ∧ m.type ≠ type then s
  else
    match acceptTongue s k item with
    | (s, false) => s
    | (s, true) =>
      let s := breakOffer s k
      if tongueBad s m then violation s k 0x2213 m.type
      else
        let hop := (s.eyelet k).hopLat
        match forward s k m [] with
        | (s, false) => s
        | (s, true) => if actsOn s m then act s m (m.lat + hop) else foreign s m

/-! ### The barrier (R206 to R211) -/

/-- Change the barrier of the job. -/
def setBarrier (s : State) (f : Barrier → Barrier) : State := setJob s (fun j => { j with barrier := f j.barrier })

/-- The barrier is refused or ends (R207, R211): JOB_START completes with the reason's sub-code, the event, the former
state, the pace of R334. -/
def refuseBarrier (s : State) (reason : Nat) : State :=
  match s.job with
  | none => s
  | some j =>
    if j.state = .starting then
      let s := match j.barrier.startDesc with
        | some d => refuseSlot s d.1 d.2 stBadState (7 + reason)
        | none => s
      let s := event s 0x2110 [reason]
      let s := setJobState (setBarrier s Barrier.clear) j.before
      orderPace s (outsidePace s)
    else s

/-- The leader refuses the barrier: ABORT with the reason, the chip and the eyelet reported (Table 10.10). -/
def abortBarrier (s : State) (reason lchip eyelet : Nat) : State :=
  match s.job with
  | none => s
  | some j =>
    refuseBarrier (originate s (jobMsg s 0x14 reason j.barrier.attempt (lchip + 65536 * eyelet))) reason

/-- The lowest logical chip among READY messages that a flag refuses. -/
def lowestWithout (rs : List ReadyMsg) (bit : Nat) : Option ReadyMsg :=
  (rs.filter (fun r => !bitOf r.flags bit)).foldl (fun m r => match m with
    | none => some r | some x => if r.lchip < x.lchip then some r else some x) none

/-- The leader judges the READY messages it holds: ABORT on a failed flag, START once all chips are ready (R209, R211). -/
def judgeReady (s : State) : State :=
  match s.job with
  | none => s
  | some j =>
    let rs := j.barrier.readies
    match lowestWithout rs 0, lowestWithout rs 1, lowestWithout rs 2 with
    | some r, _, _ => abortBarrier s 1 r.lchip 0
    | _, some r, _ => abortBarrier s 2 r.lchip 0
    | _, _, some r => abortBarrier s 3 r.lchip r.eyelet
    | none, none, none =>
      if rs.length < jobChips s then s
      else
        let worst := rs.foldl (fun m r => max m r.lat) 0
        let d := ceilDiv worst (4 * nsTicks) * 4 + 24
        let code := rs.foldl (fun m r => min m r.code) 32
        let s := originate s (jobMsg s 0x13 code j.barrier.attempt d)
        setBarrier s (fun b => { b with delay := d, startPace := code, releaseAt := some (s.now + d * nsTicks) })

/-- The leader counts a READY, each logical chip once. -/
def countReady (s : State) (r : ReadyMsg) : State :=
  match s.job with
  | none => s
  | some j =>
    if j.state ≠ .starting ∨ j.barrier.releaseAt.isSome ∨ jobChips s ≤ r.lchip
        ∨ j.barrier.readies.any (fun x => decide (x.lchip = r.lchip)) then s
    else judgeReady (setBarrier s (fun b => { b with readies := b.readies ++ [r] }))

/-- The measured flight of eyelet `k` at pace code 32 (R233). -/
def flightSt (hopLat : Nat) : Nat := ceilDiv (hopLat * 1400 + 28672) 16000 + 2

/-- Whether logical eyelet `l` stands as the last and the arrangement expect (R138, R189, R206). -/
def eyeletReady (s : State) (last : LoadedLast) (l : Nat) : Bool :=
  let e := s.eyelet (last.phys l)
  let p := last.lacing.expects.getD l (0xFFFF, 0)
  let other := last.chip p.1
  decide (e.state = .up ∧ e.lanes.length = 8) && !e.slow
    && decide (e.partnerCoord = other.coord.field ∧ e.partnerEyelet = other.eyelets.getD p.2 0)
    && decide (flightSt e.hopLat ≤ last.lacing.flight.getD l 0)

/-- The first used logical eyelet that is not ready. -/
def failingEyelet (s : State) (last : LoadedLast) : Option Nat :=
  (List.range 16).find? (fun l => last.lacing.used l && !eyeletReady s last l)

/-- BARRIER_READY (R206, R207): JOB_START and OFFER held and the start code in force, READY goes out. -/
def execBarrierReady (s : State) : Outcome State Fault Refusal :=
  .next (match s.job, jobLast s with
    | some j, some last =>
      match j.barrier.offer with
      | some (attempt, digests) =>
        if j.state = .starting ∧ j.barrier.answered ≠ some attempt ∧ s.clk.pace = j.barrier.startCode then
          let fail := failingEyelet s last
          let flags := maskOf [decide (last.arr.digest = digests.take 32),
            decide (last.weightDigest = some (slice digests 32 32)), fail.isNone]
          let s := setBarrier s (fun b => { b with answered := some attempt })
          let s := originate s (jobMsg s 0x12 flags attempt (fail.getD 0xF + 256 * j.barrier.startCode))
          if isLeader s then countReady s ⟨last.lchip, flags, fail.getD 0xF, j.barrier.startCode, 0⟩ else s
        else s
      | none => s
    | _, _ => s)

/-- BARRIER_TIMEOUT (R211): 100 ms after OFFER the leader floods ABORT, reason 4. -/
def execBarrierTimeout (s : State) : Outcome State Fault Refusal :=
  .next (match s.job with
    | some j =>
      if isLeader s ∧ j.state = .starting ∧ j.barrier.offerAt.isSome ∧ j.barrier.releaseAt.isNone then
        let missing := ((List.range (jobChips s)).find? (fun c =>
          !j.barrier.readies.any (fun r => decide (r.lchip = c)))).getD 0xFFFF
        abortBarrier s 4 missing 0
      else s
    | none => s)

/-- BARRIER_SELF_END (R211): 200 ms after JOB_START without START or ABORT. -/
def execBarrierSelfEnd (s : State) : Outcome State Fault Refusal :=
  .next (match s.job with
    | some j => if j.state = .starting ∧ j.barrier.releaseAt.isNone then refuseBarrier s 4 else s
    | none => s)

/-- OFFER (R206, R251): the first of the group's four mini-units. -/
def execOffer (eyelet : Nat) (item : List Byte) (s : State) : Outcome State Fault Refusal :=
  .next (
    let m := Tongue.parse item
    if tongueTypes.contains m.type ∧ m.type ≠ 0x10 then s
    else
      match acceptTongue s eyelet item with
      | (s, false) => s
      | (s, true) =>
        let s := breakOffer s eyelet
        if tongueBad s m then violation s eyelet 0x2213 m.type
        else setEyelet s eyelet (fun e => { e with offerAsm := some ⟨item, []⟩ }))

/-- A whole OFFER group: forwarded once, and held as the offer of the job (R206, R208). -/
def offerWhole (s : State) (k : Nat) (m : Tongue) (parts : List (List Byte)) : State :=
  match forward s k m parts with
  | (s, false) => s
  | (s, true) =>
    if actsOn s m then
      setBarrier s (fun b => { b with offer := some (m.jsf, (parts.flatMap (fun p => slice p 4 24)).take 64) })
    else foreign s m

/-- OFFER_PART (R251): parts 0, 1, 2 in order. -/
def execOfferPart (eyelet : Nat) (item : List Byte) (s : State) : Outcome State Fault Refusal :=
  .next (
    if leAt item 0 1 ≠ 0x11 then s
    else
      match acceptTongue s eyelet item with
      | (s, false) => s
      | (s, true) =>
        match (s.eyelet eyelet).offerAsm with
        | none => violation s eyelet 0x2213 0x11
        | some a =>
          if leAt item 2 1 ≠ a.parts.length then breakOffer s eyelet
          else if a.parts.length < 2 then
            setEyelet s eyelet (fun e => { e with offerAsm := some ⟨a.item, a.parts ++ [item]⟩ })
          else offerWhole (setEyelet s eyelet (fun e => { e with offerAsm := none })) eyelet (Tongue.parse a.item)
            (a.parts ++ [item]))

/-- READY (R208, R209): counted by the leader where it carries the current attempt. -/
def execReady (eyelet : Nat) (item : List Byte) (s : State) : Outcome State Fault Refusal :=
  .next (tongueIn s eyelet item 0x12 (fun s m a =>
    match s.job with
    | some j =>
      if isLeader s ∧ m.jsf = j.barrier.attempt then
        countReady s ⟨m.lchip, m.arg8, bitsOf m.arg64 0 4, bitsOf m.arg64 8 6, a⟩ else s
    | none => s))

/-- The attempt whose START and ABORT this chip acts on: that of the OFFER it last answered, before any that of the latest OFFER
it holds (R208). -/
def actsOnAttempt (j : Job) : Option Nat :=
  match j.barrier.answered with
  | some n => some n
  | none => j.barrier.offer.map (·.1)

/-- START (R208 to R210): JS 0 is released D - a after receipt. -/
def execStart (eyelet : Nat) (item : List Byte) (s : State) : Outcome State Fault Refusal :=
  .next (tongueIn s eyelet item 0x13 (fun s m a =>
    match s.job with
    | some j =>
      if j.state = .starting ∧ actsOnAttempt j = some m.jsf ∧ !isLeader s then
        let d := bitsOf m.arg64 0 32
        let s := if d * nsTicks < a then event s 0x2111 [] else s
        setBarrier s (fun b =>
          { b with delay := d, startPace := m.arg8, releaseAt := some (s.now + (d * nsTicks - a)) })
      else s
    | none => s))

/-- ABORT (R208, R211). -/
def execAbort (eyelet : Nat) (item : List Byte) (s : State) : Outcome State Fault Refusal :=
  .next (tongueIn s eyelet item 0x14 (fun s m _ =>
    match s.job with
    | some j => if actsOnAttempt j = some m.jsf ∧ !isLeader s then refuseBarrier s m.arg8 else s
    | none => s))

/-! ### Slips (R212 to R215) -/

/-- Whether the job runs: RUNNING or DRAINING. -/
def jobRuns (s : State) : Bool :=
  match s.job with | some j => decide (j.state = .running ∨ j.state = .draining) | none => false

/-- The leader notes who announced a slip point (R214). -/
def noteAnnouncer (s : State) (lchip slip : Nat) : State :=
  if isLeader s then setBarrier s (fun b => { b with slipFrom := insertOnce (lchip, slip) b.slipFrom }) else s

/-- Whether the chip stands aligned at slip point `p`, not released (R213). -/
def pausedAt (s : State) (p : Nat) : Bool :=
  match s.job with
  | some j => decide (j.barrier.pauseFrom.isSome ∧ j.released + 4096 = p)
  | none => false

/-- The leader floods RESUME for a slip point once it has reached it and every announcer is ready (R214); one that it has passed
it does not release again (R215). -/
def judgeSlip (s : State) (p : Nat) : State :=
  match s.job with
  | none => s
  | some j =>
    let b := j.barrier
    let from' := (b.slipFrom.filter (fun x => decide (x.2 = p))).map (·.1)
    let ready := (b.slipReady.filter (fun x => decide (x.2 = p))).map (·.1)
    if isLeader s ∧ pausedAt s p ∧ from'.all (fun c => ready.contains c) ∧ b.resumeAt = none then
      let s := originate s (jobMsg s 0x17 0 p b.delay)
      setBarrier s (fun b => { b with resumeAt := some (p, s.now + b.delay * nsTicks) })
    else if isLeader s ∧ p ≤ j.released ∧ from' ≠ [] ∧ from'.all (fun c => ready.contains c) then
      setBarrier (originate s (jobMsg s 0x17 0 p b.delay)) (fun b =>
        { b with slipFrom := b.slipFrom.filter (fun x => decide (x.2 ≠ p)), slipReady := b.slipReady.filter (fun x => decide (x.2 ≠ p)) })
    else s

/-- The target of an announcement: the first slip point at or after `js` + 3,584 (R212). -/
def slipTarget (js : Nat) : Nat := ceilDiv (js + 3584) 4096 * 4096

/-- SLIP_ANNOUNCE (R212): at a lag of ⌈A/4⌉ the chip floods SLIP, once per target. -/
def execSlipAnnounce (s : State) : Outcome State Fault Refusal :=
  .next (match s.job, jobLast s with
    | some j, some last =>
      let p := slipTarget (j.anchorJs + (s.clk.ws - j.anchorWs))
      if jobRuns s ∧ ceilDiv last.retryAllow 4 ≤ lag s j ∧ p ∉ j.barrier.slipMine then
        let s := originate s (jobMsg s 0x15 0 p 0)
        let s := noteAnnouncer s last.lchip p
        event (setBarrier s (fun b =>
          { b with slipHeld := insertOnce p b.slipHeld, slipMine := b.slipMine ++ [p] })) 0x2102 [p]
      else s
    | _, _ => s)

/-- SLIP (R213 to R215): the chip will pause at the target, or has passed it; the leader notes the announcer in either case. -/
def execSlip (eyelet : Nat) (item : List Byte) (s : State) : Outcome State Fault Refusal :=
  .next (tongueIn s eyelet item 0x15 (fun s m _ =>
    match s.job with
    | some j =>
      if !jobRuns s then s
      else if m.jsf ≤ j.released then noteAnnouncer (event s 0x2104 []) m.lchip m.jsf
      else noteAnnouncer (setBarrier s (fun b => { b with slipHeld := insertOnce m.jsf b.slipHeld })) m.lchip m.jsf
    | none => s))

/-- SLIP_READY (R214). -/
def execSlipReady (eyelet : Nat) (item : List Byte) (s : State) : Outcome State Fault Refusal :=
  .next (tongueIn s eyelet item 0x16 (fun s m _ =>
    if isLeader s then
      judgeSlip (setBarrier s (fun b => { b with slipReady := insertOnce (m.lchip, m.jsf) b.slipReady })) m.jsf
    else s))

/-- RESUME (R214, R215): JS s is released D - a after receipt. -/
def execResume (eyelet : Nat) (item : List Byte) (s : State) : Outcome State Fault Refusal :=
  .next (tongueIn s eyelet item 0x17 (fun s m a =>
    match s.job with
    | some j =>
      if jobRuns s ∧ j.released < m.jsf ∧ m.jsf ∈ j.barrier.slipHeld ∧ !isLeader s then
        setBarrier s (fun b => { b with resumeAt := some (m.jsf, s.now + (bitsOf m.arg64 0 32 * nsTicks - a)) })
      else s
    | none => s))

/-! ### Stops and pace (R216, R217, R35, R36) -/

/-- STOP (R216, R217): no further scheduled work; the job stops at the smallest boundary held. -/
def execStop (eyelet : Nat) (item : List Byte) (s : State) : Outcome State Fault Refusal :=
  .next (tongueIn s eyelet item 0x18 (fun s m _ =>
    match s.job with
    | some j =>
      if stoppable j ∨ j.state = .stopped then
        let s := event (setBarrier s (fun b => { b with stops := b.stops ++ [(m.jsf, m.lchip, m.arg8)] })) 0x2112 []
        if stoppable j then
          enterStopped s (match s.job with | some j => governingStatus j m.arg8 | none => m.arg8)
        else s
      else s
    | none => s))

/-- PACE (R35, R36): pending for its boundary, or, after b - 4,096, for the first pace boundary at least 4,096 JS off. -/
def execPace (eyelet : Nat) (item : List Byte) (s : State) : Outcome State Fault Refusal :=
  .next (tongueIn s eyelet item 0x19 (fun s m _ =>
    match s.job with
    | some j =>
      if !jobRuns s then s
      else if m.jsf ≤ j.released + 4096 then
        let b := ceilDiv (lowJs s + 4096) 65536 * 65536
        event { s with clk.nextInside := some (m.arg8, b) } 0x5011 []
      else { s with clk.nextInside := some (m.arg8, m.jsf) }
    | none => s))

end Sys2Proof.Machine
end

