-- ==== Sys2Proof/Machine/Jobs.lean ====
section
/-! DEFINITION. The life of a job on its chip: open, start, drain, close, and its requests (16.2 to 16.5, 09 9.5). -/
namespace Sys2Proof.Machine
open Host

/-! ### Shared -/

/-- Set `n` bytes of HBM to 0; whole words lose their uncorrectable mark (R291). -/
def hbmClear (s : State) (a n : Nat) : State :=
  { s with
    mem.hbm := s.mem.hbm.filter (fun c => !decide (a ≤ c.1 ∧ c.1 < a + n))
    mem.hbmBad := s.mem.hbmBad.filter (fun w => !decide (a ≤ 32 * w ∧ 32 * w + 32 ≤ a + n)) }

/-- The directory and the page tables of a prefix store with nothing in it (R302, R305). -/
def freshStore (s : State) (t : Store) : State :=
  let s := hbmClear s t.dir (32 * t.dirSize)
  (List.range t.slots).foldl (fun s slot => clearPages s t slot) s

/-- Whether a prefix store fits the chip's HBM (R301). -/
def storeFits (s : State) (l : LoadedLast) (t : Store) : Bool :=
  let others := (openLasts s).filter (fun x => decide (x.digest ≠ l.digest))
  let used := others.map (fun x => (x.hbmBase, x.build.hbmBytes)) ++ hbmExcluded s
  decide (t.base + t.size ≤ hbmEnd) &&
    used.all (fun u => !decide (0 < u.2 ∧ u.1 < t.base + t.size ∧ t.base < u.1 + u.2))

/-- A barrier with nothing pending, no attempt made. -/
def Barrier.fresh : Barrier :=
  { startDesc := none, startAt := 0, startCode := 0, attempt := 0, offerAt := none, offer := none, answered := none,
    readies := [], delay := 0, startPace := 0, releaseAt := none, slipHeld := [], slipMine := [], slipFrom := [],
    slipReady := [], slipReadySent := [], resumeAt := none, resumed := [], pauseFrom := none, stops := [] }

/-- A job as it is opened on a chip. -/
def openJob (tag : Nat) (relaxed : Bool) (frames sliceBytes timeout : Nat) (last : List Byte) : Job :=
  { tag, relaxed, frames, sliceBytes, fetchTimeout := if timeout = 0 then 10 else timeout, last, state := .opened,
    before := .none, drain := false, boundary := 0, nextBoundary := 0, released := 0, variant := 0xFF, stepCount := 0,
    decisions := 0, anchorWs := 0, anchorJs := 0, slipTotal := 0, slipSeen := 0, choice := 0,
    interlocks := List.replicate 17 0, faultSaid := false, barrier := Barrier.fresh, awl := Awl.fresh, requests := [],
    running := [], decided := [], fullPages := [], arrivals := [], later := [], endingSlots := [], frameStates := [],
    fetches := [], peers := [], nextPeers := none, plans := [], nextRid := 0, imaged := 0,
    drainDescs := [], ckptDescs := [], pauseOrdered := false, block := [], energy := 0, since := 0 }

/-! ### JOB_OPEN (R153, R158, R184, R193, R300, R301, R384) -/

/-- JOB_OPEN: the prefix store allocated, tacks and late counts zeroed. -/
def runJobOpen (s : State) (d : Desc) : State :=
  match lastNamed s (d.at 8 8) with
  | none => badState s d 0x01
  | some l =>
    let relaxed := bitOf (d.at 18 1) 0
    let t := storeFor l (d.at 20 4) (d.at 24 4)
    if !(if relaxed then l.relaxedOk else l.lockstepOk) then badDesc s d 0x18
    else if !storeFits s l t then badDesc s d 0x10
    else
      let s := setLast s l.digest (fun l => { l with closed := false })
      let s := { s with
        job := some (openJob (d.at 16 2) relaxed (d.at 20 4) (d.at 24 4) (d.at 28 1) l.digest)
        clk.regions := s.clk.regions.map (fun g => { g with js := 0 })
        mem.tacks := s.mem.tacks.filter (fun x => !decide (l.tackBase ≤ x.1 ∧ x.1 < l.tackBase + l.build.tacks)) }
      let s := hbmClear (freshStore s t) (l.hbmBase + l.lacing.statsOffset) (4 * l.lacing.laceCount)
      doneDesc s d

/-- JOB_OPEN. -/
def execJobOpen (d : Desc) (s : State) : Outcome State Fault Refusal :=
  .next (onDesc s d (.jobOpen d) (decide (d.op = 0x20)) runJobOpen)

/-! ### JOB_START (R206 to R208, R283, R330, R335) -/

/-- Whether the active routing bank carries the arrangement's dateline (R283). -/
def datelineOk (s : State) (l : LoadedLast) : Bool :=
  match s.svc.banks.getD s.svc.activeBank none with
  | some b => decide (b.dateline = [l.arr.dateline.x, l.arr.dateline.y, l.arr.dateline.z])
  | none => false

/-- What the leader does at JOB_START: the mailbox zeroed, the energy account full, OFFER flooded (R206, R330, R335). -/
def leaderStart (s : State) (l : LoadedLast) : State :=
  let s := hbmClear s 0x23FF000000 8192
  let s := { s with heel.mail := [], heel.jobGrant := s.heel.grant, heel.jobCap := effPower s, heel.cMins := [],
                    heel.paceWish := none }
  let digests := l.arr.digest ++ l.weightDigest.getD (zeros 32)
  let s := setJob s (fun j => { j with energy := 8 * (s.heel.grant : Int), since := 0 })
  let n := match s.job with | some j => j.barrier.attempt + 1 | none => 0
  let s := setBarrier s (fun b => { b with attempt := n, offerAt := some s.now, offer := some (n, digests) })
  originate s (jobMsg s 0x10 3 n 0) (offerParts digests)

/-- JOB_START accepted: the barrier begins. -/
def runJobStart (s : State) (d : Desc) : State :=
  match s.job, jobLast s with
  | some _, some l =>
    if !namesJob s (d.at 8 2) then badState s d 0x03
    else if s.dev.stopOrdered.isSome then badState s d 0x12
    else if l.weightDigest.isNone then badState s d 0x07
    else if !datelineOk s l then badState s d 0x0C
    else
      let code := min (d.at 10 1) (effPace s)
      let s := setJob s (fun j =>
        let b := { j.barrier.clear with offer := j.barrier.offer, startDesc := some (d.ring, d.slot), startAt := s.now,
                                        startCode := code, stops := [] }
        { j with before := j.state, awl := Awl.fresh, barrier := b })
      let s := orderPace (setJobState s .starting) code
      if isLeader s then leaderStart s l else s
  | _, _ => badState s d 0x03

/-- JOB_START. -/
def execJobStart (d : Desc) (s : State) : Outcome State Fault Refusal :=
  .next (onDesc s d (.jobStart d) (decide (d.op = 0x21)) runJobStart)

/-! ### JOB_DRAIN (R399) -/

/-- Requests that have been admitted and not ended. -/
def admitted (j : Job) : List Request := j.requests.filter (fun q => decide (q.phase ≠ 1))

/-- End a waiting request with BAD_STATE 0x18. -/
def endWaiting (s : State) (q : Request) : State := if q.phase = 1 then failRequest stBadState 0x18 s q else s

/-- Whether an earlier JOB_CHECKPOINT, from a ring of no higher number, pauses the leader's job at the boundary at which a
JOB_DRAIN from `ring` would act: there the job is PAUSED and the drain illegal (R410, Table 16.10; log entry 17). -/
def pausedFirst (j : Job) (ring : Nat) : Bool := j.pauseOrdered && j.ckptDescs.any (fun c => decide (c.ring ≤ ring))

/-- JOB_DRAIN: on the leader the job drains; on every chip the command waits for PAUSED. -/
def runJobDrain (s : State) (d : Desc) : State :=
  match s.job with
  | some j =>
    if !namesJob s (d.at 8 2) then badState s d 0x03
    else if isLeader s && pausedFirst j d.ring then badState s d 0x14
    else
      let s := setJob s (fun j => { j with drainDescs := j.drainDescs ++ [(d.ring, d.slot)] })
      if isLeader s then
        let s := j.requests.foldl endWaiting s
        let s := setJob s (fun j => { j with drain := true })
        if j.state = .running then setJobState s .draining else s
      else s
  | none => badState s d 0x03

/-- JOB_DRAIN. -/
def execJobDrain (d : Desc) (s : State) : Outcome State Fault Refusal :=
  .next (onDesc s d (.jobDrain d) (decide (d.op = 0x22)) runJobDrain)

/-- Every JOB_DRAIN that waits completes with DONE. -/
def completeDrains (s : State) : State :=
  match s.job with
  | none => s
  | some j =>
    j.drainDescs.foldl (fun s d => complete s d.1 d.2 stDone 0) (setJob s (fun j => { j with drainDescs := [] }))

/-- JOB_DRAIN_COMPLETE (R399, Table 16.3): the job stands paused and no admitted request remains; the drain is over and its
JOB_DRAIN commands complete. -/
def execJobDrainComplete (s : State) : Outcome State Fault Refusal :=
  .next (match s.job with
    | some j =>
      if j.state = .paused ∧ j.drain ∧ (admitted j).isEmpty then
        completeDrains (setJob s (fun j => { j with drain := false }))
      else s
    | none => s)

/-! ### JOB_CLOSE (Tables 15.7, 15.8, 16.3; R158, R184, R192, R472) -/

/-- The close report (Table 15.8). -/
def closeReport (j : Job) (js : Nat) : List Byte :=
  (padTo 68 (j.interlocks.flatMap (leBytes 4))) ++ zeros 4 ++ leBytes 6 j.choice ++ zeros 2 ++ leBytes 8 j.slipTotal
    ++ leBytes 8 js ++ zeros 32

/-- The JS of the step boundary at which the job stands. -/
def standingJs (j : Job) : Nat := if j.state = .stopped then stopBoundary j else j.boundary

/-- The job is gone: its waiting requests and commands end, its allocations and its lacing bank are free, pending tile
retirements are applied. -/
def closeJob (s : State) : State :=
  match s.job with
  | none => s
  | some j =>
    let s := j.requests.foldl (failRequest stBadState 0x05) s
    let s := j.drainDescs.foldl (fun s d => refuseSlot s d.1 d.2 stBadState 0x05) s
    let s := j.ckptDescs.foldl (fun s c => refuseSlot s c.ring c.slot stBadState 0x05) s
    let s := setLast (dropWork s) j.last (fun l => { l with closed := true })
    applyPendingTiles (syncDev { s with job := none })

/-- JOB_CLOSE: the report and the completion carry what the job ends with. -/
def runJobClose (s : State) (d : Desc) : State :=
  match s.job with
  | some j =>
    if !namesJob s (d.at 8 2) then badState s d 0x03
    else
      let js := standingJs j
      let s := closeJob s
      let s := if d.at 16 8 = 0 then s else hostWrite s (d.at 16 8) (closeReport j js)
      doneDesc s d (leBytes 8 js ++ leBytes 6 j.choice ++ zeros 2 ++ leBytes 8 j.slipTotal)
  | none => badState s d 0x03

/-- JOB_CLOSE. -/
def execJobClose (d : Desc) (s : State) : Outcome State Fault Refusal :=
  .next (onDesc s d (.jobClose d) (decide (d.op = 0x23)) runJobClose)

/-! ### REQ (R23, R170, R379, R398) -/

/-- REQ: the request joins the waiting list; its record is judged at admission (R171). -/
def runReq (input : List Byte) (s : State) (d : Desc) : State :=
  if !namesJob s (d.at 8 2) then badState s d 0x03
  else if !isLeader s then badState s d 0x06
  else
    match hostData d input with
    | none => badFrame s d
    | some bs =>
      setJob s (fun j =>
        let q : Request :=
          { rid := j.nextRid, ring := d.ring, slot := d.slot, tag := d.tag, irq := d.flag 0, input := bs,
            outAddr := d.at 32 8, outLen := d.at 40 4, phase := 1, bslot := 0, planPos := 0, donePos := 0, tokens := [],
            reported := 0, hit := 0, stamp := [], keys := [], fetch := none, planned := false }
        { j with requests := j.requests ++ [q], nextRid := j.nextRid + 1 })

/-- REQ. -/
def execReq (d : Desc) (input : List Byte) (s : State) : Outcome State Fault Refusal :=
  .next (onDesc s d (.req d input) (decide (d.op = 0x80)) (runReq input))

end Sys2Proof.Machine
end

