-- ==== Sys2Proof/Machine/Ckpt.lean ====
section
/-! DEFINITION. Checkpoint images and re-lasting (16.5.2, 16.5.3, 06 6.10). -/
namespace Sys2Proof.Machine
open Host

/-! ### The request section (R404) -/

/-- A request entry of a checkpoint with its data areas. -/
structure CkptReq where
  state : Nat
  bslot : Nat
  tag : Nat
  ring : Nat
  outAddr : Nat
  outLen : Nat
  donePos : Nat
  reported : Nat
  hit : Nat
  stamp : List Byte
  input : List Byte
  tokens : List Nat
  pages : List Nat
  deriving DecidableEq, Repr

/-- A frame entry of a checkpoint. `state` is 1 private, 2 published. -/
structure CkptFrame where
  frame : Nat
  state : Nat
  dirslot : Nat
  key : List Byte
  deriving DecidableEq, Repr

/-- The next multiple of 64. -/
def align64 (n : Nat) : Nat := ceilDiv n 64 * 64

/-- Insert by ascending number. -/
def insertNat (a : Nat) : List Nat → List Nat
  | [] => [a]
  | b :: bs => if a ≤ b then a :: b :: bs else b :: insertNat a bs

/-- The kept frames, in ascending number: PRIVATE, or with REFS above 0. -/
def keptFrames (s : State) (j : Job) (t : Store) : List CkptFrame :=
  let ns := (j.frameStates.filterMap (fun x => match x.2 with
    | .priv _ _ => some x.1
    | .published _ refs => if 0 < refs then some x.1 else none
    | .fetching _ _ => none)).foldr insertNat []
  ns.filterMap (fun f => match frameOf j f with
    | some (.priv b p) =>
      let key := ((j.requests.find? (fun q => decide (q.phase ≠ 1 ∧ q.bslot = b))).bind (fun q => q.keys[p]?)).getD (zeros 16)
      some ⟨f, 1, 0, key⟩
    | some (.published i _) => some ⟨f, 2, i, (dirAt s t i).take 16⟩
    | _ => none)

/-- The page table of a request as a checkpoint carries it: frame numbers, 0xFFFFFFFF for the slot's own pages. -/
def ckptPages (s : State) (t : Store) (bslot donePos : Nat) : List Nat :=
  (List.range (ceilDiv donePos 64)).map (fun p =>
    let a := leNat (hbmRead s (t.entry bslot p) 8)
    if a < 2 ^ 40 ∧ t.frame0 ≤ a ∧ 0 < t.stride then (a - t.frame0) / t.stride else 0xFFFFFFFF)

/-- The entry of one request of the leader. -/
def ckptOf (s : State) (t : Store) (q : Request) : CkptReq :=
  { state := q.phase, bslot := if q.phase = 1 then 0xFFFF else q.bslot, tag := q.tag, ring := q.ring, outAddr := q.outAddr,
    outLen := q.outLen, donePos := q.donePos, reported := q.reported, hit := q.hit, stamp := q.stamp, input := q.input,
    tokens := q.tokens, pages := if q.phase = 1 then [] else ckptPages s t q.bslot q.donePos }

/-- The data areas of one request: input record, tokens, page table. -/
def CkptReq.areas (q : CkptReq) : List (List Byte) := [q.input, q.tokens.flatMap (leBytes 4), q.pages.flatMap (leBytes 4)]

/-- The 128 bytes of a request entry whose data areas begin at `o`. -/
def CkptReq.bytes (q : CkptReq) (o : Nat) : List Byte :=
  let a := q.areas
  let n (i : Nat) : Nat := align64 (a.getD i []).length
  [byteOf q.state, 0] ++ leBytes 2 q.bslot ++ leBytes 2 q.tag ++ [byteOf q.ring, 0] ++ leBytes 8 q.outAddr
    ++ leBytes 4 q.outLen ++ leBytes 4 q.donePos ++ leBytes 4 q.tokens.length ++ leBytes 4 q.reported ++ leBytes 4 q.hit
    ++ leBytes 4 q.input.length ++ leBytes 8 o ++ leBytes 8 (o + n 0) ++ leBytes 8 (o + n 0 + n 1) ++ padTo 32 q.stamp
    ++ zeros 32

/-- The 32 bytes of a frame entry. -/
def CkptFrame.bytes (f : CkptFrame) : List Byte :=
  leBytes 4 f.frame ++ [byteOf f.state, 0, 0, 0] ++ leBytes 4 f.dirslot ++ zeros 4 ++ padTo 16 f.key

/-- The bytes of the data areas of a request, each padded to 64. -/
def CkptReq.data (q : CkptReq) : List Byte := q.areas.flatMap (fun a => padTo (align64 a.length) a)

/-- Request entries, each at its offset. -/
def ckptEntries : Nat → List CkptReq → List Byte
  | _, [] => []
  | o, q :: qs => q.bytes o ++ ckptEntries (o + q.data.length) qs

/-- The request section. Offsets count from its first byte. -/
def ckptSection (qs : List CkptReq) (fs : List CkptFrame) : List Byte :=
  padTo 64 (leBytes 4 qs.length ++ leBytes 4 fs.length)
    ++ ckptEntries (64 + align64 (128 * qs.length + 32 * fs.length)) qs
    ++ padTo (align64 (128 * qs.length + 32 * fs.length) - 128 * qs.length) (fs.flatMap CkptFrame.bytes)
    ++ qs.flatMap CkptReq.data

/-- The request entry at `o` of a section; `none` where it names bytes outside the section, or an unknown state. -/
def parseCkptReq (b : List Byte) (o : Nat) : Option CkptReq :=
  let at' (i n : Nat) : Nat := leAt b (o + i) n
  let gen := at' 24 4
  let np := if at' 0 1 = 1 then 0 else ceilDiv (at' 20 4) 64
  if at' 0 1 < 1 ∨ 3 < at' 0 1 ∨ b.length < at' 40 8 + at' 36 4 ∨ b.length < at' 48 8 + 4 * gen
      ∨ b.length < at' 56 8 + 4 * np ∨ (at' 0 1 = 1) ≠ (at' 2 2 = 0xFFFF) then none
  else some
    { state := at' 0 1, bslot := at' 2 2, tag := at' 4 2, ring := at' 6 1 % 64, outAddr := at' 8 8, outLen := at' 16 4,
      donePos := at' 20 4, reported := at' 28 4, hit := at' 32 4, stamp := slice b (o + 64) 32,
      input := slice b (at' 40 8) (at' 36 4), tokens := (List.range gen).map (fun i => leAt b (at' 48 8 + 4 * i) 4),
      pages := (List.range np).map (fun i => leAt b (at' 56 8 + 4 * i) 4) }

/-- Read a whole list of options. -/
def allSome {α : Type} : List (Option α) → Option (List α)
  | [] => some []
  | none :: _ => none
  | some x :: xs => (allSome xs).map (fun ys => x :: ys)

/-- A request section, read. -/
def parseSection (b : List Byte) : Option (List CkptReq × List CkptFrame) :=
  let r := leAt b 0 4
  let k := leAt b 4 4
  if b.length < 64 + 128 * r + 32 * k ∨ !zeroRange b 8 56 then none
  else
    let fs := (List.range k).map (fun i =>
      let o := 64 + 128 * r + 32 * i
      (⟨leAt b o 4, leAt b (o + 4) 1, leAt b (o + 8) 4, slice b (o + 16) 16⟩ : CkptFrame))
    (allSome ((List.range r).map (fun i => parseCkptReq b (64 + 128 * i)))).map (fun qs => (qs, fs))

/-! ### The image (R404) -/

/-- The slot-area pages of a request, as page numbers. -/
def ownPages (q : CkptReq) : List Nat := (List.range q.pages.length).filter (fun p => decide (q.pages.getD p 0 = 0xFFFFFFFF))

/-- The HBM address of a batch slot's own page (R401). -/
def slotPage (l : LoadedLast) (t : Store) (bslot page : Nat) : Nat := l.hbmBase + (bslot * t.ptPages + page) * t.stride

/-- The HBM pages that a slice section holds, by the address of the whole frame. -/
def keptPages (l : LoadedLast) (t : Store) (qs : List CkptReq) (fs : List CkptFrame) : List Nat :=
  fs.map (fun f => t.frame f.frame) ++ qs.flatMap (fun q => (ownPages q).map (slotPage l t q.bslot))

/-- The length of a slice section. -/
def sliceLen (pages sliceBytes : Nat) : Nat := align64 (64 + pages * sliceBytes)

/-- The section of the chip's slice `k`. -/
def sliceSection (s : State) (j : Job) (l : LoadedLast) (pages : List Nat) (k : Nat) : List Byte :=
  padTo (sliceLen pages.length j.sliceBytes)
    (padTo 64 (leBytes 4 (l.lchip * 2 ^ l.span + k)) ++ pages.flatMap (fun a => hbmRead s (a + k * j.sliceBytes) j.sliceBytes))

/-- The checkpoint header (Table 16.8). -/
def ckptHeader (j : Job) (l : LoadedLast) (sliceBytes reqBytes : Nat) : List Byte :=
  leBytes 4 0x54504B43 ++ leBytes 2 1 ++ [byteOf (maskOf [j.relaxed, j.drain]), byteOf j.fetchTimeout] ++ padTo 32 l.digest
    ++ padTo 32 (l.weightDigest.getD []) ++ leBytes 8 j.boundary ++ leBytes 2 j.tag ++ leBytes 2 (l.lchip * 2 ^ l.span)
    ++ leBytes 2 (2 ^ l.span) ++ zeros 2 ++ leBytes 4 j.frames ++ leBytes 4 j.sliceBytes ++ leBytes 8 sliceBytes
    ++ leBytes 8 reqBytes ++ zeros 16

/-- Write the image of one JOB_CHECKPOINT (R403, R404). -/
def writeImage (s : State) (j : Job) (l : LoadedLast) (t : Store) (reqs : List Byte) (qs : List CkptReq)
    (fs : List CkptFrame) (c : Ckpt) : State :=
  let pages := keptPages l t qs fs
  let bad := (pages.filterMap (fun a => hbmBadIn s a (2 ^ l.span * j.sliceBytes))).head?
  match bad with
  | some w => complete (hbmUncorrected s (32 * w)) c.ring c.slot stHostDma 0x06
  | none =>
    let body := (List.range (2 ^ l.span)).flatMap (sliceSection s j l pages)
    let image := ckptHeader j l (sliceLen pages.length j.sliceBytes) reqs.length ++ reqs ++ body
    let out := if c.skive then skiveStream image else image
    if c.len < out.length then refuseSlot s c.ring c.slot stBadDescriptor 0x35
    else
      complete (hostWrite s c.addr out) c.ring c.slot stDone 0
        (leBytes 8 j.boundary ++ leBytes 6 j.choice ++ zeros 2 ++ leBytes 8 out.length)

/-- CHECKPOINT_IMAGE_WRITE (R403, R404): the job is PAUSED and a JOB_CHECKPOINT is present. The request section is the
leader's own; on any other chip `reqs` is the copy of it that the chip writes (log entry 30). -/
def execCheckpointImageWrite (reqs : List Byte) (s : State) : Outcome State Fault Refusal :=
  .next (match s.job, jobLast s, jobStore s with
    | some j, some l, some t =>
      match j.ckptDescs with
      | [] => s
      | c :: rest =>
        if j.state ≠ .paused then s
        else
          let qs := j.requests.map (ckptOf s t)
          let sec := if isLeader s then ckptSection qs (keptFrames s j t) else reqs
          match parseSection sec with
          | some (qs, fs) =>
            let s := setJob s (fun j => { j with ckptDescs := rest, imaged := j.nextRid })
            writeImage s j l t sec qs fs c
          | none => s
    | _, _, _ => s)

/-! ### JOB_CHECKPOINT (R403) -/

/-- JOB_CHECKPOINT: it waits for its image; on the leader of a running job the next decision is a PAUSE. -/
def runJobCheckpoint (s : State) (d : Desc) : State :=
  if !namesJob s (d.at 8 2) then badState s d 0x03
  else if s.dev.stopOrdered.isSome then badState s d 0x12
  else
    let lead := isLeader s
    setJob s (fun j =>
      let c : Ckpt := { ring := d.ring, slot := d.slot, addr := d.at 16 8, len := d.at 24 8, skive := d.flag 4 }
      { j with ckptDescs := j.ckptDescs ++ [c], pauseOrdered := j.pauseOrdered || (lead && decide (j.state ≠ .paused)) })

/-- JOB_CHECKPOINT. -/
def execJobCheckpoint (d : Desc) (s : State) : Outcome State Fault Refusal :=
  .next (onDesc s d (.jobCheckpoint d) (decide (d.op = 0x24)) runJobCheckpoint)

/-! ### JOB_RELAST (R142 to R144, R405, R406) -/

/-- Whether a checkpoint is built as R405 requires for this last and chip: its parts read, or `none`. -/
def parseCkpt (l : LoadedLast) (tag : Nat) (b : List Byte) : Option (List CkptReq × List CkptFrame) :=
  let reqBytes := leAt b 104 8
  let sliceBytes := leAt b 96 8
  let n := 2 ^ l.span
  let secs := b.drop (128 + reqBytes)
  if leAt b 6 1 ≥ 4 ∨ !zeroRange b 86 2 ∨ !zeroRange b 112 16 ∨ leAt b 80 2 ≠ tag ∨ leAt b 82 2 ≠ l.lchip * n
      ∨ leAt b 84 2 ≠ n ∨ leAt b 92 4 % 16 ≠ 0 ∨ leAt b 92 4 = 0 ∨ 1048575 < leAt b 88 4 ∨ leAt b 72 8 % 65536 ≠ 0
      ∨ b.length ≠ 128 + reqBytes + n * sliceBytes then none
  else
    match parseSection (slice b 128 reqBytes) with
    | none => none
    | some (qs, fs) =>
      let pages := fs.length + (qs.map (fun q => (ownPages q).length)).sum
      if sliceBytes = sliceLen pages (leAt b 92 4) ∧
          (List.range n).all (fun k => decide (leAt secs (k * sliceBytes) 4 = l.lchip * n + k)) ∧
          fs.all (fun f => decide (f.frame < leAt b 88 4 ∧ 1 ≤ f.state ∧ f.state ≤ 2)) then some (qs, fs)
      else none

/-- Give batch slots to the requests that hold one, lowest first, in entry order (R406). -/
def assignSlots : Nat → List CkptReq → List CkptReq
  | _, [] => []
  | n, q :: qs => if q.state = 1 then q :: assignSlots n qs else { q with bslot := n } :: assignSlots (n + 1) qs

/-- Restore one kept frame: its state, and its directory entry with GEN 1, LAST_USE 0 and the REFS of the page tables. -/
def restoreFrame (t : Store) (qs : List CkptReq) (s : State) (f : CkptFrame) : State :=
  let users := qs.flatMap (fun q => (List.range q.pages.length).filterMap (fun p =>
    if q.pages.getD p 0 = f.frame then some (q.bslot, p) else none))
  if f.state = 1 then
    let u := users.headD (0, 0)
    setFrame s f.frame (some (.priv u.1 u.2))
  else
    hbmWrite (setFrame s f.frame (some (.published f.dirslot users.length))) (t.dir + 32 * f.dirslot)
      (padTo 16 f.key ++ leBytes 3 f.frame ++ [1] ++ leBytes 2 1 ++ leBytes 2 users.length ++ leBytes 8 0)

/-- Restore the page table of a request. -/
def restorePages (t : Store) (s : State) (q : CkptReq) : State :=
  (List.range q.pages.length).foldl (fun s p =>
    let f := q.pages.getD p 0
    setPage s t q.bslot p (if f = 0xFFFFFFFF then none else some f)) s

/-- Write the pages of every slice section to their frames and R401 positions. -/
def restoreSlices (s : State) (l : LoadedLast) (b : List Byte) (pages : List Nat) : State :=
  let sliceBytes := leAt b 96 8
  let S := leAt b 92 4
  let secs := b.drop (128 + leAt b 104 8)
  (List.range (2 ^ l.span)).foldl (fun s k =>
    (pages.mapIdx (fun i a => (i, a))).foldl (fun (s : State) (x : Nat × Nat) =>
      hbmWrite s (x.2 + k * S) (slice secs (k * sliceBytes + 64 + x.1 * S) S)) s) s

/-- The token ids of an input record. -/
def promptOf (input : List Byte) : List Nat := (chunks 4 (input.drop 64)).map leNat

/-- A request of the new leader; its completions carry INDEX 0xFFFF (R406). -/
def restoreRequest (l : LoadedLast) (weightDigest : List Byte) (frames rid : Nat) (q : CkptReq) : Request :=
  { rid, ring := q.ring, slot := 0xFFFF, tag := q.tag, irq := false, input := q.input, outAddr := q.outAddr,
    outLen := q.outLen, phase := q.state, bslot := if q.state = 1 then 0 else q.bslot, planPos := q.donePos,
    donePos := q.donePos, tokens := q.tokens, reported := q.reported, hit := q.hit, stamp := q.stamp,
    keys := if frames = 0 then [] else prefixKeys l.digest weightDigest (promptOf q.input), fetch := none, planned := false }

/-- The old leader's requests leave the chip: those of the image go on at the new leader; a later one stays on a chip that
leads again, and ends with 0x06 elsewhere. -/
def leaveRequests (s : State) (leads : Bool) : State × List Request :=
  match s.job with
  | none => (s, [])
  | some j =>
    let late := j.requests.filter (fun q => decide (j.imaged ≤ q.rid ∧ q.phase = 1))
    let s := (j.requests.filter (fun q => decide (q.rid < j.imaged))).foldl (fun s q =>
      setRing s q.ring (fun x => { x with running := x.running.filter (fun o => decide (o.slot ≠ q.slot)) })) s
    if leads then (s, late) else (late.foldl (failRequest stBadState 0x06) s, [])

/-- Weights that stay move with their allocation (R143). -/
def moveWeights (s : State) (old new : LoadedLast) : State :=
  if old.insoleBase = new.insoleBase then s
  else (new.tileMap.take new.build.ltiles).foldl (fun s t =>
    insoleWrite s t new.insoleBase (insoleRead s t old.insoleBase old.build.weightBytes)) s

/-- Whether the weights stay through a re-last (R143). -/
def keepsWeights (old new : LoadedLast) : Bool :=
  decide (old.digest = new.digest ∧ old.span = new.span ∧ old.lchip = new.lchip ∧ old.tileMap = new.tileMap)

/-- The job of a re-last, PAUSED at the checkpoint's JS (Table 16.3, R144). -/
def relastJob (old : Option Job) (l : LoadedLast) (b : List Byte) : Job :=
  let j := openJob (leAt b 80 2) (bitOf (leAt b 6 1) 0) (leAt b 88 4) (leAt b 92 4) (leAt b 7 1) l.digest
  let j := { j with state := .paused, drain := bitOf (leAt b 6 1) 1, boundary := leAt b 72 8, nextBoundary := leAt b 72 8,
                    released := leAt b 72 8 }
  match old with
  | none => j
  | some o => { j with interlocks := o.interlocks, slipTotal := o.slipTotal, faultSaid := o.faultSaid, peers := o.peers }

/-- The re-last itself, every check passed. -/
def doRelast (s : State) (d : Desc) (old : Option LoadedLast) (others : List LoadedLast) (l : LoadedLast) (b : List Byte)
    (qs : List CkptReq) (fs : List CkptFrame) : State :=
  let keep := match old with | some o => keepsWeights o l | none => false
  let l' : LoadedLast := match old with
    | some o => if keep then { l with slices := o.slices, siblings := o.siblings, weightDigest := o.weightDigest } else l
    | none => l
  let s := match old with | some o => if keep then moveWeights s o l else s | none => s
  let left := leaveRequests s (decide (l.arr.leader = l.lchip))
  let s := left.1
  let js := leAt b 72 8
  let s := { s with
    lasts := others ++ [l']
    job := some (relastJob s.job l' b)
    clk.regions := s.clk.regions.map (fun g => { g with js := js }) }
  let s := placeConsts s l'
  let t := storeFor l (leAt b 88 4) (leAt b 92 4)
  let s := freshStore s t
  let qs := assignSlots 0 qs
  let s := restoreSlices s l b (keptPages l t qs fs)
  let s := fs.foldl (restoreFrame t qs) s
  let s := (qs.filter (fun q => decide (q.state ≠ 1))).foldl (restorePages t) s
  let n := qs.length
  let s := if isLeader s then
      setJob s (fun j =>
        { j with requests := qs.mapIdx (restoreRequest l (slice b 40 32) j.frames)
                   ++ left.2.mapIdx (fun i q => { q with rid := n + i }), nextRid := n + left.2.length, imaged := n })
    else s
  doneDesc (syncDev (lastLoaded s)) d l.digest (if l'.weightDigest.isNone then 16 else 0)

/-- JOB_RELAST: the state checks, the loader, the checkpoint, then the re-last. Retirements that wait are applied first, and
a refusal changes nothing (R139, R142, R471). -/
def runJobRelast (image arr ckpt : List Byte) (sched : Schedule) (s : State) (d : Desc) : State :=
  if s.job.isSome ∧ !namesJob s (d.at 36 2) then badState s d 0x03
  else
    match hostData d image, hostData d arr, hostData d ckpt with
    | some img, some a, some b =>
      let s' := applyPendingTiles s
      let old := match s.job with | some _ => jobLast s | none => s.lasts.find? (fun l => decide (l.digest = lastDigest img))
      let others := (openLasts s).filter (fun l => match old with | some o => decide (l.digest ≠ o.digest) | none => true)
      if 2 ≤ others.length then badState s d 0x02
      else
        match loadLast (loadEnv s' others []) img a sched with
        | .error r => refuseLast s d r
        | .ok l =>
          if b.length < 128 ∨ leAt b 0 4 ≠ 0x54504B43 ∨ leAt b 4 2 ≠ 1 then badDesc s d 0x1B
          else if slice b 8 32 ≠ l.digest then badDesc s d 0x19
          else
            match parseCkpt l (d.at 36 2) b with
            | none => badDesc s d 0x1B
            | some (qs, fs) =>
              if maxBatch l < (qs.filter (fun q => decide (q.state ≠ 1))).length then badState s d 0x16
              else if !storeFits s l (storeFor l (leAt b 88 4) (leAt b 92 4)) then badDesc s d 0x10
              else doRelast s' d old others l b qs fs
    | _, _, _ => badFrame s d

/-- JOB_RELAST. -/
def execJobRelast (d : Desc) (image arr ckpt : List Byte) (sched : Schedule) (s : State) : Outcome State Fault Refusal :=
  .next (onDesc s d (.jobRelast d image arr ckpt sched) (decide (d.op = 0x25)) (runJobRelast image arr ckpt sched))

end Sys2Proof.Machine
end

