-- ==== Sys2Proof/Machine/Registers.lean ====
section
/-! DEFINITION. The set-up registers (20): staged blocks, captures, checks and effects, the registers with a behaviour of
their own, and reads that latch or snapshot. -/
namespace Sys2Proof.Machine
open Host

/-! ### Shared operations -/

/-- A write BAR0 does not take (R488, R511). -/
def ignoreWrite (s : State) (off : Nat) : State := event s 0x1080 [off]

/-- One failing check: cause and offset of the field. -/
abbrev Failure := Nat × Nat

/-- The failure R494 reports: the lowest cause, then the lowest offset. -/
def worst : List Failure → Option Failure
  | [] => none
  | f :: fs =>
    match worst fs with
    | none => some f
    | some g => if f.1 < g.1 ∨ (f.1 = g.1 ∧ f.2 ≤ g.2) then some f else some g

/-- A failure where a condition is broken. -/
def check (ok : Bool) (cause off : Nat) : List Failure := if ok then [] else [(cause, off)]

/-- The event of a refused APPLY (R494). -/
def applyRefused (s : State) (applyOff : Nat) (f : Failure) : State := event s 0x1081 [applyOff, f.1, f.2]

/-- The moderation block's APPLY: checked and active at once (R495, R499). -/
def moderationApply (s : State) : State :=
  let fails := ((List.range 32).map (fun v =>
    check (decide (bitsOf (s.regs.modStaged.getD v 0).toNat 8 8 ≤ 250)) 1 (0x0100 + 2 * v))).flatten
  match worst fails with
  | some f => applyRefused { s with regs.modStatus := ⟨true, f.1⟩ } 0x01F0 f
  | none => (List.range 32).foldl vectorCheck { s with regs.modActive := s.regs.modStaged }

/-- The doorbell block's APPLY: captured and checked (R494, R500). -/
def doorbellApply (s : State) : State :=
  let ctl := s.regs.dbCtl.toNat
  let fails := check (decide (1 ≤ ctl % 256 ∧ ctl % 256 ≤ 200)) 1 0x0208
    ++ check (decide (s.regs.dbBase % 4096 = 0)) 2 0x0200 ++ check (decide (ctl / 512 = 0)) 3 0x0208
  match worst fails with
  | some f => applyRefused { s with regs.dbStatus := ⟨true, f.1⟩ } 0x02F0 f
  | none => { s with regs.dbCaptured := some (s.regs.dbBase, s.regs.dbCtl) }

/-- The checks of a ring's capture (R501). -/
def ringFails (r : Nat) (ws : List Word) : List Failure :=
  let a := ringAttr ws
  let w (i : Nat) : Nat := (ws.getD i 0).toNat
  let o := 0x0400 + 32 * r
  let sub := decide (1 ≤ a.type ∧ a.type ≤ 4)
  let evt := decide (a.type = 5)
  check (decide (a.type ≤ 5)) 1 (o + 16)
    ++ check (!sub || decide (3 ≤ a.sqLog ∧ a.sqLog ≤ 15)) 1 (o + 17)
    ++ check (!(sub || evt) || decide (3 ≤ a.cqLog ∧ a.cqLog ≤ 15)) 1 (o + 18)
    ++ check (!evt || decide (a.sqBase = 0)) 1 o
    ++ check (!evt || decide (a.sqLog = 0)) 1 (o + 17)
    ++ check (!evt || decide (a.classes / 2 ≠ 0)) 1 (o + 20)
    ++ check (!sub || decide (a.sqBase % 4096 = 0)) 2 o
    ++ check (!(sub || evt) || decide (a.cqBase % 4096 = 0)) 2 (o + 8)
    ++ check (decide (w 4 / 8 % 32 = 0)) 3 (o + 16) ++ check (decide (w 4 / 2 ^ 12 % 16 = 0)) 3 (o + 17)
    ++ check (decide (w 4 / 2 ^ 20 % 16 = 0)) 3 (o + 18) ++ check (decide (w 4 / 2 ^ 29 = 0)) 3 (o + 19)
    ++ check (decide (w 5 % 2 = 0)) 3 (o + 20) ++ check (decide (w 5 / 256 = 0 ∧ w 6 = 0 ∧ w 7 = 0)) 3 (o + 21)

/-- RING_APPLY for one named ring: it stops reading, or keeps running with its error set (R366, R501). -/
def ringApplyOne (s : State) (r : Nat) : State :=
  let ws := ringEntry s.regs.ringStaged r
  match worst (ringFails r ws) with
  | some f => applyRefused (setRing s r (fun x => { x with applyErr := true, applyCause := f.1 })) 0x1400 f
  | none => setRing s r (fun x => { x with captured := some ws })

/-- RING_APPLY (R366, R496). -/
def ringApply (s : State) (mask : Nat) : State :=
  ((List.range 64).filter (bitOf mask)).foldl ringApplyOne s

/-- The pace block's APPLY: a code above 32 applies as 32 (R27, R505); outside a job it orders a pace (R38, R334, R407). -/
def paceApply (s : State) : State :=
  let c := s.regs.paceStaged
  let s := { s with regs.paceActive := min c 32 }
  let s := if 32 < c then event s 0x5003 [c] else s
  if jobLive s then s else orderPace s (restPace s)

/-- WARN and CRIT of a margin word as signed bytes (R47, R506). -/
def warnOf (w : Word) : Int := signedOf 8 (w.toNat % 256)
def critOf (w : Word) : Int := signedOf 8 (w.toNat / 256 % 256)

/-- The margin block's APPLY (R47, R506). -/
def marginApply (s : State) : State :=
  let w := s.regs.marginStaged
  match worst (check (decide (critOf w < warnOf w)) 4 0x4100) with
  | some f => applyRefused { s with regs.marginStatus := ⟨true, f.1⟩ } 0x4108 f
  | none => { s with regs.marginCaptured := some w }

/-- Clear APPLY_ERR of the block whose status register is at `off` (R492). -/
def clearApplyErr (s : State) (off : Nat) : State :=
  match off with
  | 0x01F4 => { s with regs.modStatus := { s.regs.modStatus with err := false } }
  | 0x02F4 => { s with regs.dbStatus := { s.regs.dbStatus with err := false } }
  | 0x400C => { s with regs.paceStatus := { s.regs.paceStatus with err := false } }
  | 0x410C => { s with regs.marginStatus := { s.regs.marginStatus with err := false } }
  | _ => s

/-- Clear RING_APPLY_ERR bits (R502). -/
def clearRingErr (s : State) (mask : Nat) : State :=
  ((List.range 64).filter (bitOf mask)).foldl (fun s r => setRing s r (fun x => { x with applyErr := false })) s

/-- GRACE_MS of an eyelet (Table 20.7, R504): a value outside 1 to 1,000 is ignored. -/
def graceWrite (s : State) (k ms : Nat) : State :=
  if 1 ≤ ms ∧ ms ≤ 1000 then { s with regs.graceMs := setAt s.regs.graceMs k ms } else ignoreWrite s (0x3010 + 256 * k)

/-- COMPL_TIMEOUT (R507): a value outside 100 to 10,000 is ignored. -/
def timeoutWrite (s : State) (ms : Nat) : State :=
  if 100 ≤ ms ∧ ms ≤ 10000 then { s with regs.complTimeout := ms } else ignoreWrite s 0x4220

/-- The lock bits (R511): a 1 sets, a 0 does nothing. -/
def lockWrite (s : State) (w : Nat) : State :=
  { s with regs.debugLock := s.regs.debugLock || bitOf w 0, regs.policyLock := s.regs.policyLock || bitOf w 1 }

/-- SIG_POLICY (R511). -/
def policyWrite (s : State) (w : Nat) : State :=
  if s.regs.policyLock then ignoreWrite s 0xF004 else { s with regs.requireSigned := bitOf w 0 }

/-- The mask bit of vector `v` (R385). -/
def maskVector (s : State) (v : Nat) (masked : Bool) : State :=
  let s := { s with host.vectors := mapAt s.host.vectors v (fun x => { x with masked := masked }) }
  if masked then s else vectorCheck s v

/-- Replace one half of a 64-bit value. -/
def withHalf (n : Nat) (hi : Bool) (w : Nat) : Nat := if hi then n % 2 ^ 32 + 2 ^ 32 * w else n / 2 ^ 32 * 2 ^ 32 + w

/-- The effect of a naturally aligned 4-byte write (R5, R488, R489, R492). -/
def writeWord (s : State) (off w : Nat) : State :=
  if 0x100 ≤ off ∧ off < 0x140 then
    let v := (off - 0x100) / 2
    { s with regs.modStaged := setAt (setAt s.regs.modStaged v (BitVec.ofNat 16 w)) (v + 1) (BitVec.ofNat 16 (w / 65536)) }
  else if off = 0x1F0 then (if bitOf w 0 then moderationApply s else s)
  else if off = 0x200 then { s with regs.dbBase := withHalf s.regs.dbBase false w }
  else if off = 0x204 then { s with regs.dbBase := withHalf s.regs.dbBase true w }
  else if off = 0x208 then { s with regs.dbCtl := BitVec.ofNat 32 w }
  else if off = 0x2F0 then (if bitOf w 0 then doorbellApply s else s)
  else if 0x400 ≤ off ∧ off < 0xC00 then
    { s with regs.ringStaged := setAt s.regs.ringStaged ((off - 0x400) / 4) (BitVec.ofNat 32 w) }
  else if off = 0x1400 then ringApply s w
  else if off = 0x1404 then ringApply s (2 ^ 32 * w)
  else if off = 0x1410 then clearRingErr s w
  else if off = 0x1414 then clearRingErr s (2 ^ 32 * w)
  else if off = 0x1460 then { s with regs.ringSel := w % 64 }
  else if 0x2000 ≤ off ∧ off < 0x2200 then
    let v := (off - 0x2000) / 16
    let upd (f : Vector → Vector) : State := { s with host.vectors := mapAt s.host.vectors v f }
    if off % 16 = 0 then upd (fun x => { x with addr := withHalf x.addr false w })
    else if off % 16 = 4 then upd (fun x => { x with addr := withHalf x.addr true w })
    else if off % 16 = 8 then upd (fun x => { x with data := w })
    else maskVector s v (bitOf w 0)
  else if 0x3000 ≤ off ∧ off < 0x4000 ∧ off % 256 = 0x10 then graceWrite s ((off - 0x3000) / 256) (w % 65536)
  else if off = 0x4000 then { s with regs.paceStaged := w % 64 }
  else if off = 0x4008 then (if bitOf w 0 then paceApply s else s)
  else if off = 0x4100 then { s with regs.marginStaged := BitVec.ofNat 32 (w % 65536) }
  else if off = 0x4108 then (if bitOf w 0 then marginApply s else s)
  else if off = 0x4220 then timeoutWrite s (w % 2 ^ 14)
  else if off = 0xF000 then lockWrite s w
  else if off = 0xF004 then policyWrite s w
  else if bitOf w 1 then clearApplyErr s off
  else s

/-- A BAR0 write of `size` bytes at `off` (R488): of 4 or 8 bytes and naturally aligned, else ignored and recorded. -/
def barWrite (s : State) (off size value : Nat) : State :=
  if 0x10000 ≤ off then s
  else if size = 4 ∧ off % 4 = 0 then writeWord s off (value % 2 ^ 32)
  else if size = 8 ∧ off % 8 = 0 then
    if off = 0x1400 then ringApply s (value % 2 ^ 64)
    else writeWord (writeWord s off (value % 2 ^ 32)) (off + 4) (value / 2 ^ 32 % 2 ^ 32)
  else ignoreWrite s off

/-- Run a register command only while BAR0 answers (R486). -/
def onBar (s : State) (f : State → State) : Outcome State Fault Refusal := .next (if barAlive s then f s else s)

/-! ### Commands -/

/-- REGISTER_WRITE (R488). -/
def execRegisterWrite (offset size value : Nat) (s : State) : Outcome State Fault Refusal :=
  onBar s (barWrite · offset size value)

/-- INTERRUPT_MODERATION_APPLY (R495): bit 0 acts. -/
def execInterruptModerationApply (value : Word) (s : State) : Outcome State Fault Refusal :=
  onBar s (fun s => if value.getLsbD 0 then moderationApply s else s)

/-- DOORBELL_APPLY (R494). -/
def execDoorbellApply (value : Word) (s : State) : Outcome State Fault Refusal :=
  onBar s (fun s => if value.getLsbD 0 then doorbellApply s else s)

/-- DOORBELL_APPLY_EFFECT (R495): with no doorbell read outstanding the capture becomes active; where DB_ENABLE becomes 1
and Bus Master Enable is 1, the first poll is issued and the device leaves SETUP. -/
def execDoorbellApplyEffect (s : State) : Outcome State Fault Refusal :=
  onBar s (fun s =>
    match s.regs.dbCaptured with
    | none => s
    | some (base, ctl) =>
      if s.host.dbOutstanding then s
      else
        let was := dbEnabled s
        let s := { s with regs.dbActiveBase := base, regs.dbActiveCtl := ctl, regs.dbCaptured := none }
        let s := leaveSetup s
        if dbEnabled s then (if !was && s.host.busMaster then issuePoll s else s)
        else { s with host.dbDue := false })

/-- RING_APPLY (R366, R501). -/
def execRingApply (mask : DWord) (s : State) : Outcome State Fault Refusal := onBar s (ringApply · mask.toNat)

/-- RING_APPLY_EFFECT (R366): once every descriptor read from the ring has ended, its capture is active at (0, 0). -/
def execRingApplyEffect (ring : Nat) (s : State) : Outcome State Fault Refusal :=
  onBar s (fun s =>
    let x := s.ring ring
    match x.captured with
    | none => s
    | some ws =>
      if x.reading.isEmpty && x.running.isEmpty then
        setRing { s with regs.ringActive := s.regs.ringActive.take (8 * ring) ++ ws ++ s.regs.ringActive.drop (8 * ring + 8) }
          ring (fun x => { Ring.fresh with applyErr := x.applyErr, applyCause := x.applyCause })
      else s)

/-- PACE_APPLY (R505). -/
def execPaceApply (value : Word) (s : State) : Outcome State Fault Refusal :=
  onBar s (fun s => if value.getLsbD 0 then paceApply s else s)

/-- MARGIN_APPLY (R506). -/
def execMarginApply (value : Word) (s : State) : Outcome State Fault Refusal :=
  onBar s (fun s => if value.getLsbD 0 then marginApply s else s)

/-- MARGIN_APPLY_EFFECT (R495): the captured thresholds act, in all twenty regions together. -/
def execMarginApplyEffect (s : State) : Outcome State Fault Refusal :=
  onBar s (fun s =>
    match s.regs.marginCaptured with
    | none => s
    | some w => { s with regs.marginActive := w, regs.marginCaptured := none })

/-- APPLY_ERR_CLEAR (R492): `offset` is that of the block's status register. -/
def execApplyErrClear (offset : Nat) (s : State) : Outcome State Fault Refusal := onBar s (clearApplyErr · offset)

/-- RING_APPLY_ERR_CLEAR (R502). -/
def execRingApplyErrClear (mask : DWord) (s : State) : Outcome State Fault Refusal := onBar s (clearRingErr · mask.toNat)

/-- DEBUG_LOCK (R511). -/
def execDebugLock (s : State) : Outcome State Fault Refusal := onBar s (lockWrite · 1)

/-- POLICY_LOCK (R511). -/
def execPolicyLock (s : State) : Outcome State Fault Refusal := onBar s (lockWrite · 2)

/-- SIG_POLICY_WRITE (R511). -/
def execSigPolicyWrite (value : Word) (s : State) : Outcome State Fault Refusal := onBar s (policyWrite · value.toNat)

/-- GRACE_MS_WRITE (R504). -/
def execGraceMsWrite (eyelet ms : Nat) (s : State) : Outcome State Fault Refusal := onBar s (graceWrite · eyelet ms)

/-- COMPL_TIMEOUT_WRITE (R507). -/
def execComplTimeoutWrite (ms : Nat) (s : State) : Outcome State Fault Refusal := onBar s (timeoutWrite · ms)

/-- LOW_WORD_READ_LATCH (R490): an aligned 4-byte read at `offset`. -/
def execLowWordReadLatch (offset : Nat) (s : State) : Outcome State Fault Refusal :=
  onBar s (fun s =>
    if offset % 4 = 0 then answerRead (readWord s offset).2 offset (leBytes 4 (readWord s offset).1)
    else answerRead s offset (zeros 4))

/-- CONGESTION_SNAPSHOT_READ (R509). -/
def execCongestionSnapshotRead (s : State) : Outcome State Fault Refusal :=
  onBar s (fun s => answerRead { s with regs.congSnap := some (liveMaps s) } 0x4400 ((liveMaps s).take 4))

/-- RECENT_SNAPSHOT_READ (R510): a read of the first word of RECENT entry `entry`. -/
def execRecentSnapshotRead (entry : Nat) (s : State) : Outcome State Fault Refusal :=
  onBar s (fun s =>
    match s.host.recent[entry]? with
    | none => s
    | some e =>
      answerRead { s with regs.recentSnap := assocSet entry e s.regs.recentSnap } (0x5100 + 64 * entry) (e.take 4))

/-- BUS_MASTER_ENABLE (R358): set, it releases what was held and may start polling (Table 16.2); cleared, it holds. -/
def execBusMasterEnable (on : Bool) (s : State) : Outcome State Fault Refusal :=
  onBar s (fun s =>
    if on && !s.host.busMaster then
      let s := leaveSetup { s with host.busMaster := true }
      let s := if dbEnabled s then issuePoll s else s
      reopenHost s
    else { s with host.busMaster := on })

/-- MSIX_MOD_TIMEOUT (R385): MOD_TIME has elapsed since the vector's first pending entry. -/
def execMsixModTimeout (vector : Nat) (s : State) : Outcome State Fault Refusal := onBar s (vectorCheck · vector)

/-- MSIX_UNMASK (R385). -/
def execMsixUnmask (vector : Nat) (s : State) : Outcome State Fault Refusal := onBar s (maskVector · vector false)

/-- DEFERRED_COMPLETION_WRITE (R379): the ring's oldest held completion, where space allows. -/
def execDeferredCompletionWrite (ring : Nat) (s : State) : Outcome State Fault Refusal := onBar s (drainRing ring 1)

/-- EVT_OVERRUN (R380). -/
def execEvtOverrun (ring : Nat) (s : State) : Outcome State Fault Refusal :=
  onBar s (fun s =>
    let x := s.ring ring
    if x.overrun && decide ((s.attr ring).type = 5) && evtRoom s ring 1 then
      setRing (putRecord s ring (eventEntries (overrunEvent s x)) false) ring
        (fun x => { x with overrun := false, drops := 0, firstDrop := 0 })
    else s)

end Sys2Proof.Machine
end

