-- ==== Sys2Proof/Machine/Work.lean ====
section
/-! DEFINITION. The scheduled work of a region: what each action of the tile code and each row of the lacing does at its job
stitch, and the awl checks judged there (03, 04, 07, 09 9.2 to 9.4, 12.3). -/
namespace Sys2Proof.Machine

/-! ### Shared -/

/-- Clock region `r`. -/
def State.region (s : State) (r : Nat) : Region := s.clk.regions.getD r Region.fresh

/-- Change clock region `r`. -/
def setRegion (s : State) (r : Nat) (f : Region → Region) : State := { s with clk.regions := mapAt s.clk.regions r f }

/-- Change the awl's counts. -/
def setAwl (s : State) (f : Awl → Awl) : State := setJob s (fun j => { j with awl := f j.awl })

/-- The awl's counts. -/
def awlOf (s : State) : Awl := match s.job with | some j => j.awl | none => Awl.fresh

/-- A count by key; an unlisted key counts 0. -/
def countOf (k : Nat) (xs : List (Nat × Nat)) : Nat := (assoc k xs).getD 0

/-- One more. -/
def bump (k : Nat) (xs : List (Nat × Nat)) : List (Nat × Nat) := assocSet k (countOf k xs + 1) xs

/-- One fewer. -/
def unbump (k : Nat) (xs : List (Nat × Nat)) : List (Nat × Nat) :=
  if countOf k xs ≤ 1 then assocErase k xs else assocSet k (countOf k xs - 1) xs

/-- The edge region of a physical eyelet (Table 2.1). -/
def eyeletRegion (k : Nat) : Nat := if k < 8 then 18 else 19

/-- The edge region of an HBM pseudo-channel (Table 2.1). -/
def channelRegion (g : Nat) : Nat := if g < 64 then 16 else 17

/-- Whether a region has done the work of `js`. -/
def passed (s : State) (r js : Nat) : Bool :=
  let g := s.region r
  decide (js < g.js) || (decide (js = g.js) && !g.due && g.todo.isEmpty)

/-- What one item of work gives: the state, the faults found, and whether the item could not be done and is tried again. -/
structure Ran where
  s : State
  faults : List Finding
  stay : Bool
  deriving DecidableEq, Repr

/-- The item is done. -/
def ran (s : State) : Ran := ⟨s, [], false⟩
/-- The item waits. -/
def waits (s : State) : Ran := ⟨s, [], true⟩

/-- Where the work is done: the last, the region, its local JS, and whether the awl has judged the item before. -/
structure At where
  l : LoadedLast
  r : Nat
  js : Nat
  counted : Bool
  deriving DecidableEq, Repr

/-- The physical tile of a logical one. -/
def At.phys (c : At) (lt : Nat) : Nat := c.l.tileMap.getD lt 0

/-- A finding at a tile. -/
def At.finding (c : At) (check lt : Nat) (site : Nat) (task : Option Nat) (declared observed : Nat) : Finding :=
  { check, tile := some (lt, c.phys lt), site := some site, task, js := c.js, declared, observed }

/-- A check that faults in lockstep and interlocks in relaxed mode (R154, R157). -/
def judged (s : State) (f : Finding) (relaxed : State → Ran) : Ran :=
  if isRelaxed s then relaxed (interlock s f) else ⟨s, [f], false⟩

/-- The region holds for `n` stitches (R157). -/
def holdFor (s : State) (r check n : Nat) : State :=
  if n = 0 then s else setRegion s r (fun g => { g with holds := g.holds ++ [.interlock check n] })

/-- A full queue (R155, R157): the producer waits while the consumer's region is behind; else the awl judges, once. -/
def fullQueue (s : State) (c : At) (consumer : Nat) (f : Finding) : Ran :=
  if (s.region consumer).js < c.js ∨ c.counted then waits s
  else judged s f (fun s => waits (setRegion s c.r (fun g => { g with counted := true })))

/-- Read insole bytes and go on with them; an uncorrectable word stops the job (R61). -/
def readOr (s : State) (t a n : Nat) (k : List Byte → Ran) : Ran :=
  match insoleBadIn s t a n with
  | some g => ran (insoleUncorrected s t (8 * g - insoleKey t 0))
  | none => k (insoleRead s t a n)

/-- Write insole bytes for logical tile `lt`; a write into the weight region is refused whole (R58). -/
def writeOr (s : State) (c : At) (lt a : Nat) (task : Option Nat) (bs : List Byte) : Ran :=
  match weightHit s (c.phys lt) a bs.length with
  | some x => ⟨s, [c.finding 0x0E lt (siteOf 0xC (x % 2 ^ 24)) task c.l.insoleBase x], false⟩
  | none => ran (insoleWrite s (c.phys lt) a bs)

/-! ### Tasks (04, R76, R98 to R100) -/

/-- The insole ranges of an operand. -/
def operandReads (op : MatOperand) (k rows : Nat) : List (Nat × Nat) :=
  match op.fmt with
  | .w8 => [(op.addr, ceilDiv k 64 * blockBytes op.fmt)]
  | .w4 => [(op.addr, ceilDiv k 64 * blockBytes op.fmt)]
  | _ => (List.range rows).map (fun r => (op.addr + r * op.stride, rowBytes op.fmt k))

/-- The insole range of a per-channel argument. -/
def argReads (width : Nat) : EpiArg → List (Nat × Nat)
  | .const _ => []
  | .at a => [(a, 4 * width)]

/-- The insole ranges an operation reads. -/
def opReads (t : Task) : EpiOp → List (Nat × Nat)
  | .scale c => argReads t.width c
  | .bias c => argReads t.width c
  | .residual a bf => [(a, (if bf then 2 else 4) * t.rows * t.width)]
  | .siluGated a bf => [(a, (if bf then 2 else 4) * t.rows * t.width)]
  | .rmsApply a _ _ g => (a, 8 * t.rows) :: argReads t.width g
  | .softmaxSum a _ => [(a, 8 * t.rows)]
  | .softmaxNorm a b => [(a, 8 * t.rows), (b, 8 * t.rows)]
  | .combineAdd a => [(a, 8 * t.rows * t.width)]
  | .combineMax a => [(a, 8 * t.rows * t.width)]
  | _ => []

/-- The insole ranges a task reads. -/
def taskReads (t : Task) : List (Nat × Nat) :=
  (if t.fused then
    operandReads t.a t.k t.rows ++ operandReads t.b t.k t.live ++ t.addFrom.map (fun a => (a, 16 * 64 * t.rows))
  else [(t.inAddr, (if t.inBf16 then 2 else 4) * t.rows * t.width)]) ++ t.ops.flatMap (opReads t)

/-- The first uncorrectable word among ranges. -/
def badAmong (s : State) (tile base : Nat) (rs : List (Nat × Nat)) : Option Nat :=
  (rs.filterMap (fun x => insoleBadIn s tile (base + x.1) x.2)).min?

/-- Stitches from a task's issue to its outputs (R99). -/
def readyAfter (t : Task) : Nat := (if t.fused then tMat t + taskStall t else tVec t) + 4

/-- Put what a region does later on its list. -/
def addLater (s : State) (r js : Nat) (x : Later) : State := setJob s (fun j => { j with later := j.later ++ [(r, js, x)] })

/-- A task runs (R99): its outputs are in the insole when they are ready. -/
def startTask (s : State) (c : At) (a : TileAction) (t : Task) : Ran :=
  let pt := c.phys a.tile
  match badAmong s pt c.l.insoleBase (taskReads t) with
  | some g => ran (insoleUncorrected s pt (8 * g - insoleKey pt 0))
  | none =>
    match taskWrites (fun o n => insoleRead s pt (c.l.insoleBase + o) n) t with
    | .error e => ⟨s, [c.finding 0x0D a.tile (siteOf 0xB pt) (some a.offset) e.declared (fieldOf 64 e.observed)], false⟩
    | .ok ws =>
      let s := if t.fused then setAwl s (fun w => { w with matBusy := assocSet pt (c.js + tMat t + taskStall t) w.matBusy }) else s
      ran (ws.foldl (fun s w => addLater s c.r (c.js + readyAfter t) (.write a.tile (c.l.insoleBase + w.1) w.2)) s)

/-- The declared stall against the computed one (R100); a relaxed job runs with the computed stall. -/
def judgeStall (s : State) (c : At) (a : TileAction) (t : Task) : Ran :=
  if t.fused ∧ t.stall ≠ taskStall t then
    judged s (c.finding 0x0C a.tile (siteOf 0xB (c.phys a.tile)) (some a.offset) t.stall (taskStall t)) (fun s =>
      startTask (holdFor s c.r 0x0C (taskStall t - t.stall)) c a t)
  else startTask s c a t

/-- Issue a task (R99, R100): the matrix engine must be free. -/
def issueTask (s : State) (c : At) (a : TileAction) (t : Task) : Ran :=
  let until_ := countOf (c.phys a.tile) (awlOf s).matBusy
  if t.fused ∧ c.js < until_ ∧ !c.counted then
    judged s (c.finding 0x10 a.tile (siteOf 0xB (c.phys a.tile)) (some a.offset) 0 (until_ - c.js)) (fun s =>
      waits (setRegion (holdFor s c.r 0x10 (until_ - c.js)) c.r (fun g => { g with counted := true })))
  else judgeStall s c a t

/-! ### Ports, queues and the mesh (R57, R63 to R65, R147, R155) -/

/-- Granules asked of a tile's ports in one stitch (R57). -/
def portAct (s : State) (c : At) (a : TileAction) (rd wr : Nat) : Ran :=
  let one (s : State) (n limit kind : Nat) : Ran :=
    if n ≤ limit then ran s
    else judged s (c.finding 0x07 a.tile (siteOf 7 (256 * kind + c.phys a.tile)) (some a.offset) limit n) (fun s =>
      ran (holdFor s c.r 0x07 (ceilDiv (n - limit) limit)))
  let x := one s rd 12 0
  let y := one x.s wr 6 1
  ⟨y.s, x.faults ++ y.faults, false⟩

/-- Check code, depth and SITE kind of a tile queue (Tables 7.2, 7.5). -/
def queueFacts : TileQueue → Nat × Nat × Nat
  | .input => (0x02, 64, 2)
  | .vector => (0x03, 32, 3)

/-- The counts of a tile queue. -/
def queueOf (q : TileQueue) (w : Awl) : List (Nat × Nat) := match q with | .input => w.tileInput | .vector => w.vectorQ

/-- Change the counts of a tile queue. -/
def setQueue (s : State) (q : TileQueue) (f : List (Nat × Nat) → List (Nat × Nat)) : State :=
  setAwl s (fun w => match q with | .input => { w with tileInput := f w.tileInput } | .vector => { w with vectorQ := f w.vectorQ })

/-- Enqueue into the queue of a tile (R147, R155). -/
def enqueueAct (s : State) (c : At) (a : TileAction) (q : TileQueue) (dst : Nat) : Ran :=
  let (check, depth, kind) := queueFacts q
  let n := countOf (c.phys dst) (queueOf q (awlOf s))
  if n < depth then ran (setQueue s q (bump (c.phys dst)))
  else fullQueue s c (tileRegion (c.phys dst)) (c.finding check dst (siteOf kind (c.phys dst)) (some a.offset) depth (n + 1))

/-- Dequeue from the tile's own queue; an entry not there yet is waited for (R39). -/
def dequeueAct (s : State) (c : At) (a : TileAction) (q : TileQueue) : Ran :=
  if countOf (c.phys a.tile) (queueOf q (awlOf s)) = 0 then waits s else ran (setQueue s q (unbump (c.phys a.tile)))

/-- The direction of a hop (Table 7.5). -/
def hopDir (a b : Nat) : Nat := if b = a + 1 then 0 else if a = b + 1 then 1 else if b = a + 12 then 2 else 3

/-- The links of a route with the stitch at which the first byte enters each (R65). -/
def routeLinks (xlat : List Nat) : Nat → List Nat → List (Nat × Nat)
  | t, a :: b :: rest =>
    (4 * a + hopDir a b, t) :: routeLinks xlat (t + hopLatency xlat (tileRegion a) (tileRegion b)) (b :: rest)
  | _, _ => []

/-- The (link, JS) pairs a transfer takes (R65). -/
def linkUse (c : At) (src dst bytes : Nat) : List (Nat × Nat) :=
  (routeLinks c.l.xlat c.js (meshRoute src dst)).flatMap (fun x =>
    (List.range (max 1 (ceilDiv bytes 256))).map (fun i => (x.1, x.2 + i)))

/-- Release a mesh transfer, landing its latency and `extra` stitches from now (R64). -/
def sendMesh (s : State) (c : At) (a : TileAction) (dst bytes latency fromAddr toAddr extra : Nat) : Ran :=
  let pt := c.phys a.tile
  readOr s pt (c.l.insoleBase + fromAddr) bytes (fun bs =>
    let x : Arrival := { fromTile := pt, js := c.js, tile := dst, addr := c.l.insoleBase + toAddr, bytes := bs,
                         ws := s.clk.ws + latency + extra }
    ran (setJob s (fun j => { j with arrivals := j.arrivals ++ [x] })))

/-- A mesh transfer (R63 to R65): each of its links must be free. -/
def meshAct (s : State) (c : At) (a : TileAction) (dst bytes latency fromAddr toAddr : Nat) : Ran :=
  let use := linkUse c (c.phys a.tile) (c.phys dst) bytes
  let clash := use.find? (fun x => (awlOf s).links.contains x)
  let s := setAwl s (fun w => { w with links := w.links ++ use })
  match clash with
  | none => sendMesh s c a dst bytes latency fromAddr toAddr 0
  | some x =>
    judged s (c.finding 0x08 a.tile (siteOf 8 x.1) (some a.offset) 1 2) (fun s =>
      sendMesh (holdFor s c.r 0x08 1) c a dst bytes latency fromAddr toAddr 1)

/-! ### HBM (R152, R296, R298) -/

/-- Stitches since the refresh slot of pseudo-channel `g` began (R298). -/
def sinceRefresh (g js : Nat) : Nat := (js + 1024 * (8 * g) - 8 * g) % 1024

/-- A scheduled HBM request (R296): refused in a refresh slot in lockstep, queued, and completed later. -/
def hbmAct (s : State) (c : At) (a : TileAction) (addr doneAfter : Nat) (done : Nat → Later) : Ran :=
  let g := hbmChannel addr
  let n := countOf g (awlOf s).hbmQ
  if !isRelaxed s ∧ sinceRefresh g c.js < 128 ∧ !c.counted then
    ⟨s, [c.finding 0x0B a.tile (siteOf 0xA (g / 32 * 2 ^ 24 + g % 32 * 2 ^ 16 + hbmBank addr)) (some a.offset)
      (c.js - sinceRefresh g c.js) c.js], false⟩
  else if n < 128 then
    ran (addLater (setAwl s (fun w => { w with hbmQ := bump g w.hbmQ })) c.r (c.js + doneAfter) (done g))
  else fullQueue s c (channelRegion g) (c.finding 0x04 a.tile (siteOf 4 g) (some a.offset) 128 (n + 1))

/-! ### Posts and tacks (R149, R150, R267, R268, R382) -/

/-- The header of a tile's post. -/
def postHdr (p : PostSpec) (skive : Bool) (length : Nat) : Hdr :=
  { op := p.op, spread := p.spread, valiant := p.valiant, fence := p.fence, skive, mcast := p.mcast, dest := p.dest,
    jobTag := p.jobTag, target := p.target, tile := p.tile, addr := p.addr, length, arg := p.arg, mask := p.mask }

/-- Post a request (R268). A WRITE takes its data from the tile's insole, as a frame where the post asks for one and it is
shorter (R117). -/
def makePost (s : State) (l : LoadedLast) (pt : Nat) (p : PostSpec) : Ran :=
  let s := setAwl s (fun w => { w with posts := bump pt w.posts, postCount := bump pt w.postCount })
  let onDone : OnDone := .post pt (l.insoleBase + p.dataAddr) (l.insoleBase + p.resultAddr) (p.tack.map (l.tackBase + ·))
  if p.op = 1 then
    readOr s pt (l.insoleBase + p.dataAddr) p.length (fun bs =>
      match (if p.skive then asFrame bs else none) with
      | some f =>
        if f.length < bs.length then ran (issue s (.tile pt) (postHdr p true f.length) f onDone)
        else ran (issue s (.tile pt) (postHdr p false bs.length) bs onDone)
      | none => ran (issue s (.tile pt) (postHdr p false bs.length) bs onDone))
  else ran (issue s (.tile pt) (postHdr p p.skive p.length) [] onDone)

/-- Whether a tile can post now: an entry of its injection queue and a transaction are free (R149, R267). -/
def canPost (s : State) (pt : Nat) : Bool := decide (countOf pt (awlOf s).posts < 64) && canIssue s

/-- A scheduled post (R149): the 65th of a slip interval faults, or waits with the later ones for the next interval. -/
def postAct (s : State) (c : At) (a : TileAction) (p : PostSpec) : Ran :=
  let pt := c.phys a.tile
  let w := awlOf s
  let waiting := (w.laterPosts.filter (fun x => decide (x.1 = a.tile))).length
  let n := countOf pt w.postCount + waiting
  let later (s : State) : Ran := ran (setAwl s (fun w => { w with laterPosts := w.laterPosts ++ [(a.tile, a.offset, p)] }))
  if 64 ≤ n then
    if isRelaxed s ∧ 0 < waiting then later s
    else judged s (c.finding 0x05 a.tile (siteOf 5 pt) (some a.offset) 64 (n + 1)) later
  else if canPost s pt then makePost s c.l pt p
  else waits s

/-- A scheduled wait on a tack: never in lockstep, at most 16 outstanding in relaxed mode (R150, R382). -/
def waitAct (s : State) (c : At) (a : TileAction) (tack : Nat) : Ran :=
  let t := c.l.tackBase + tack
  let n := ((tackWaiters s t).filter (fun w => decide (w.1 = 1))).length
  if !isRelaxed s then
    ⟨s, [c.finding 0x0F a.tile (siteOf 6 t) (some a.offset) 0 t], false⟩
  else if tackGet s t = 0 ∧ 16 ≤ n then
    fullQueue s c c.r (c.finding 0x06 a.tile (siteOf 6 t) (some a.offset) 16 (n + 1))
  else
    match tackWait s t (1, c.r) with
    | (s, true) => ran s
    | (s, false) => ran (setRegion s c.r (fun g => { g with holds := g.holds ++ [.tackWait t] }))

/-- One scheduled action of a tile. -/
def runAct (s : State) (c : At) (a : TileAction) : Ran :=
  match a.act with
  | .task t => issueTask s c a t
  | .insole rd wr => portAct s c a rd wr
  | .enqueue q dst => enqueueAct s c a q dst
  | .dequeue q => dequeueAct s c a q
  | .mesh dst bytes latency _ fromAddr toAddr => meshAct s c a dst bytes latency fromAddr toAddr
  | .hbmRead addr bytes dst after =>
    hbmAct s c a (c.l.hbmBase + addr) after (fun g => .hbmRead g (c.l.hbmBase + addr) bytes a.tile (c.l.insoleBase + dst))
  | .hbmWrite addr bytes from_ after =>
    hbmAct s c a (c.l.hbmBase + addr) after (fun g => .hbmWrite g (c.l.hbmBase + addr) bytes a.tile (c.l.insoleBase + from_))
  | .post p => postAct s c a p
  | .tackAdd tack v => ran (tackAdd s (c.l.tackBase + tack) (BitVec.ofNat 32 v))
  | .tackWait tack => waitAct s c a tack

/-! ### Laces (R193 to R202) -/

/-- The finding of check 0x09. -/
def At.laceFinding (c : At) (lace : Nat) : Finding :=
  { check := 0x09, tile := none, site := some (siteOf 9 lace), task := none, js := c.js,
    declared := c.l.lacing.laceCount - 1, observed := lace }

/-- Queue a departure at a physical eyelet and count it in the eyelet's window (R151, R197). -/
def addDeparture (s : State) (k : Nat) (u : SchedUnit) : State :=
  setAwl (setEyelet s k (fun e => { e with txSched := e.txSched ++ [u] })) (fun w => { w with departs := bump k w.departs })

/-- Unit `k` of a DEPART row: on time where its payload is in the insole, else a late unit (R195; log entry 31). -/
def departUnit (s : State) (c : At) (r : LaceRow) (k : Nat) : Ran :=
  let u : SchedUnit := { lace := r.lace, unit := k, dep := c.js, late := false, payload := none }
  if passed s (tileRegion (c.phys r.ltile)) c.js then
    readOr s (c.phys r.ltile) (r.addr + 240 * k) 240 (fun bs =>
      ran (addDeparture s (c.l.phys r.eyelet) { u with payload := some bs }))
  else ran (addDeparture s (c.l.phys r.eyelet) { u with late := true })

/-- The outputs of a forwarding row, as physical eyelets. -/
def At.outs (c : At) (r : LaceRow) : List Nat := c.l.phys r.outA :: (if r.outB = 0xF then [] else [c.l.phys r.outB])

/-- The landed unit of a row. -/
def landedUnit (s : State) (l : LoadedLast) (r : LaceRow) (k : Nat) : Option Landed :=
  (s.eyelet (l.phys r.eyelet)).landing.find? (fun u => decide (u.lace = r.lace ∧ u.unit = k))

/-- Unit `k` of a FORWARD or LAND_FORWARD row: a copy on each output, late where it has not landed (R196). -/
def forwardUnit (s : State) (c : At) (r : LaceRow) (k : Nat) : State :=
  let u : SchedUnit := { lace := r.lace, unit := k, dep := c.js, late := false, payload := none }
  match landedUnit s c.l r k with
  | some x =>
    useLanded ((c.outs r).foldl (fun s o => addDeparture s o { u with payload := some x.payload }) s) (c.l.phys r.eyelet)
      r.lace k r.copies
  | none => (c.outs r).foldl (fun s o => addDeparture s o { u with late := true }) s

/-- Unit `k` of a LAND or LAND_FORWARD row goes into the destination tile's insole (R196, R58). -/
def deliverLanded (s : State) (c : At) (r : LaceRow) (k : Nat) : Ran :=
  match landedUnit s c.l r k with
  | some x =>
    let w := writeOr s c r.ltile (r.addr + 240 * k) none x.payload
    ⟨useLanded w.s (c.l.phys r.eyelet) r.lace k 1, w.faults, false⟩
  | none => ran s

/-- One item of lacing or tile work (check 0x09 first for a lace id out of range). -/
def runItem (s : State) (c : At) (w : Work) : Ran :=
  let lace (r : LaceRow) (k : Nat) (x : Ran) : Ran :=
    if r.lace < c.l.lacing.laceCount then x
    else if k = 0 then ⟨s, [c.laceFinding r.lace], false⟩ else ran s
  match w with
  | .act a => runAct s c a
  | .depart r k => lace r k (departUnit s c r k)
  | .forward r k => lace r k (ran (forwardUnit s c r k))
  | .land r k => lace r k (deliverLanded s c r k)

/-! ### A region's work at its local JS -/

/-- The schedule of a variant. -/
def scheduleOf (l : LoadedLast) (variant : Nat) : List TileAction :=
  match l.schedule.variants.find? (fun v => decide (v.variant = variant)) with | some v => v.actions | none => []

/-- The unit of a row whose turn comes `off` stitches into the step (R195, R196). -/
def unitAt (r : LaceRow) (off : Nat) : Option Nat :=
  if r.jsOffset ≤ off ∧ (off - r.jsOffset) % 2 = 0 ∧ (off - r.jsOffset) / 2 < r.units then some ((off - r.jsOffset) / 2) else none

/-- Whether an action takes entries out of a queue. -/
def isDequeue (a : TileAction) : Bool := match a.act with | .dequeue _ => true | _ => false

/-- The granules an action asks of its tile's ports. -/
def portsOf (a : TileAction) : Nat × Nat := match a.act with | .insole rd wr => (rd, wr) | _ => (0, 0)

/-- Whether an action asks for granules. -/
def isPorts (a : TileAction) : Bool := match a.act with | .insole _ _ => true | _ => false

/-- The port demands of one tile in one stitch taken together, in place of its first (R57). -/
def mergePorts (as : List TileAction) : List TileAction :=
  as.filterMap (fun a =>
    if isPorts a then
      let mine := as.filter (fun b => isPorts b && decide (b.tile = a.tile))
      if mine.head? = some a then
        some { a with act := .insole (mine.map (fun b => (portsOf b).1)).sum (mine.map (fun b => (portsOf b).2)).sum }
      else none
    else some a)

/-- The work of region `r` at local JS `n`: deliveries, dequeues before enqueues (R147), the other actions, departures. -/
def workAt (l : LoadedLast) (j : Job) (r n : Nat) : List Work :=
  let off := n - j.boundary
  let as := (scheduleOf l j.variant).filter (fun a => decide (a.js = off) && decide (tileRegion (l.tileMap.getD a.tile 0) = r))
  let rows := rowsOf l j.variant
  let lands := rows.filterMap (fun x =>
    if (x.action = 2 ∨ x.action = 4) ∧ tileRegion (l.tileMap.getD x.ltile 0) = r then (unitAt x off).map (Work.land x) else none)
  let departs := rows.filterMap (fun x =>
    if x.action = 1 ∧ eyeletRegion (l.phys x.eyelet) = r then (unitAt x off).map (Work.depart x)
    else if (x.action = 3 ∨ x.action = 4) ∧ eyeletRegion (l.phys x.outA) = r then (unitAt x off).map (Work.forward x)
    else none)
  lands ++ ((as.filter isDequeue) ++ mergePorts (as.filter (fun a => !isDequeue a))).map Work.act ++ departs

/-- Whether a mesh transfer has landed: released, and its landing stitch is before `limit`. -/
def meshLanded (s : State) (j : Job) (l : LoadedLast) (a : TileAction) (dst limit : Nat) : Bool :=
  let pt := l.tileMap.getD a.tile 0
  passed s (tileRegion pt) (j.boundary + a.js)
    && j.arrivals.all (fun x => !decide (x.fromTile = pt ∧ x.js = j.boundary + a.js ∧ x.tile = dst) || decide (x.ws < limit))

/-- Whether everything that region `r` uses at local JS `n` is there (R39, R202); `limit` as in `meshLanded`. -/
def usesReady (s : State) (l : LoadedLast) (j : Job) (r n limit : Nat) : Bool :=
  (workAt l j r n).all (fun w => match w with
    | .land x k => (landedUnit s l x k).isSome || decide (l.lacing.laceCount ≤ x.lace)
    | _ => true)
  && (scheduleOf l j.variant).all (fun a => match a.act with
    | .mesh dst _ _ use _ _ =>
      !(decide (0 < use) && decide (tileRegion (l.tileMap.getD dst 0) = r) && decide (j.boundary + a.js + use = n)) || meshLanded s j l a dst limit
    | _ => true)

/-- What has accumulated in a stitch: the state and the faults found. -/
abbrev Acc := State × List Finding

/-- Do items of work in order until one waits; the rest stays with the region. -/
def runItems (l : LoadedLast) (r n : Nat) : List Work → Acc → Acc
  | [], acc => (setRegion acc.1 r (fun g => { g with todo := [] }), acc.2)
  | w :: ws, acc =>
    if !jobRuns acc.1 then acc
    else
      let x := runItem acc.1 ⟨l, r, n, (acc.1.region r).counted⟩ w
      if x.stay then (setRegion x.s r (fun g => { g with todo := w :: ws }), acc.2 ++ x.faults)
      else runItems l r n ws (setRegion x.s r (fun g => { g with counted := false }), acc.2 ++ x.faults)

/-- The lace's count of late units and the first event of each eyelet and step (R193, R202). -/
def noteLate (l : LoadedLast) (n : Nat) (s : State) (w : Work) : State :=
  match w with
  | .land x k =>
    if (landedUnit s l x k).isSome ∨ l.lacing.laceCount ≤ x.lace then s
    else
      let a := l.hbmBase + l.lacing.statsOffset + 4 * x.lace
      let e := l.phys x.eyelet
      let s := hbmWrite s a (leBytes 4 (min (leNat (hbmRead s a 4) + 1) 0xFFFFFFFF))
      if (s.eyelet e).lateSaid then s
      else event (setEyelet s e (fun y => { y with lateSaid := true })) 0x2101 [e, x.lace, k, n]
  | _ => s

/-- One thing a region does later in its JS. -/
def doLater (l : LoadedLast) (r n : Nat) (acc : Acc) (x : Later) : Acc :=
  let c : At := ⟨l, r, n, false⟩
  let freed (s : State) (g : Nat) : State := setAwl s (fun w => { w with hbmQ := unbump g w.hbmQ })
  match x with
  | .write t a bs => let w := writeOr acc.1 c t a none bs; (w.s, acc.2 ++ w.faults)
  | .hbmRead g a bytes t dst =>
    match hbmBadIn acc.1 a bytes with
    | some w => (stopJob (hbmUncorrected (freed acc.1 g) (32 * w)) stInternal, acc.2)
    | none => let w := writeOr (freed acc.1 g) c t dst none (hbmRead acc.1 a bytes); (w.s, acc.2 ++ w.faults)
  | .hbmWrite g a bytes t from_ =>
    let w := readOr (freed acc.1 g) (c.phys t) from_ bytes (fun bs => ran (hbmWrite (freed acc.1 g) a bs))
    (w.s, acc.2)

/-- What a region has put off to local JS `n` or before. -/
def dueLater (l : LoadedLast) (r n : Nat) (acc : Acc) : Acc :=
  match acc.1.job with
  | none => acc
  | some j =>
    let isDue (x : Nat × Nat × Later) : Bool := decide (x.1 = r ∧ x.2.1 ≤ n)
    (j.later.filter isDue).foldl (fun acc x => if jobRuns acc.1 then doLater l r n acc x.2.2 else acc)
      (setJob acc.1 (fun j => { j with later := j.later.filter (fun x => !isDue x) }), acc.2)

/-- Begin the work of a region's local JS where everything it uses is there; else it stays due. -/
def beginWork (l : LoadedLast) (r limit : Nat) (acc : Acc) : Acc :=
  match acc.1.job with
  | none => acc
  | some j =>
    let n := (acc.1.region r).js
    if usesReady acc.1 l j r n limit then
      runItems l r n (workAt l j r n) (setRegion acc.1 r (fun g => { g with due := false }), acc.2)
    else acc

/-- A region's local JS advances (R31, R39, R41): at the next slip point it waits for the others; a late handshake holds it. -/
def advance (l : LoadedLast) (r : Nat) (late : Bool) (acc : Acc) : Acc :=
  match acc.1.job with
  | none => acc
  | some j =>
    let n := (acc.1.region r).js + 1
    let s := setRegion acc.1 r (fun g =>
      { g with js := n, due := true, holds := if late then g.holds ++ [.handshake] else g.holds })
    if n = j.released + 4096 then (s, acc.2)
    else
      let acc := dueLater l r n (s, acc.2)
      let s := (workAt l j r n).foldl (noteLate l n) acc.1
      if late then (s, acc.2) else beginWork l r (s.clk.ws + 1) (s, acc.2)

/-- A hold as the next stitch finds it. -/
def tickHold : Hold → Option Hold
  | .interlock c n => if n ≤ 1 then none else some (.interlock c (n - 1))
  | h => some h

/-- Whether a hold stops this stitch: the throttle lets 16 of every aligned 64 wall stitches pass (R339). -/
def stopsAt (ws : Nat) : Hold → Bool
  | .throttle => decide (16 ≤ ws % 64)
  | _ => true

/-- Whether a region has done all the work of its local JS and nothing holds it. -/
def freeToGo (s : State) (r : Nat) : Bool :=
  let g := s.region r
  !g.due && g.todo.isEmpty && !g.holds.any (stopsAt s.clk.ws)

/-- One stitch of one region of a running job. -/
def stitchRegion (l : LoadedLast) (late : List Nat) (acc : Acc) (r : Nat) : Acc :=
  match acc.1.job with
  | none => acc
  | some j =>
    let g := acc.1.region r
    if !jobRuns acc.1 ∨ g.js = j.released + 4096 then acc
    else if g.holds.any (stopsAt acc.1.clk.ws) then
      (setRegion acc.1 r (fun g => { g with holds := g.holds.filterMap tickHold }), acc.2)
    else
      let acc := if g.due then beginWork l r acc.1.clk.ws acc
        else if g.todo.isEmpty then acc else runItems l r g.js g.todo acc
      if jobRuns acc.1 && freeToGo acc.1 r then advance l r (late.contains r) acc else acc

/-- Mesh transfers that land in this stitch (R64). -/
def landArrivals (l : LoadedLast) (acc : Acc) : Acc :=
  match acc.1.job with
  | none => acc
  | some j =>
    let now := j.arrivals.filter (fun x => decide (x.ws = acc.1.clk.ws))
    let s := setJob acc.1 (fun j => { j with arrivals := j.arrivals.filter (fun x => decide (acc.1.clk.ws ≤ x.ws)) })
    now.foldl (fun acc x =>
      let r := tileRegion (l.tileMap.getD x.tile 0)
      let w := writeOr acc.1 ⟨l, r, (acc.1.region r).js, false⟩ x.tile x.addr none x.bytes
      (w.s, acc.2 ++ w.faults)) (s, acc.2)

end Sys2Proof.Machine
end

