-- ==== Sys2Proof/Machine/Stitch.lean ====
section
/-! DEFINITION. Stitches, paces, late handshakes and margin (02, 09 9.3, 11 R286). -/
namespace Sys2Proof.Machine
open Host

/-! ### The stitch (R30 to R41, R286) -/

/-- Whether a unit of a channel is queued for output `o`: an eyelet, or 16 for local delivery (R286). -/
def queuedFor (s : State) (o c : Nat) : Bool :=
  if o = 16 then s.svc.here.any (fun p => decide (bit01 (hSpread p.pkt.hdr) = c))
  else
    let e := s.eyelet o
    (e.txSvc.flatten ++ e.txResume.map (·.2)).any (fun u => decide (u.channel = c))

/-- Count the outputs and channels at which a unit was queued in the stitch just ended and none left (R286). -/
def countBlocked (s : State) : State :=
  { s with
    svc.blocked := s.svc.blocked.mapIdx (fun i n =>
      if queuedFor s (i / 2) (i % 2) ∧ !s.svc.movedNow.contains i then n + 1 else n)
    svc.movedNow := [] }

/-- STITCH_BOUNDARY: WS advances, and each region of a running job advances, holds, or waits at the slip point. `late` names
the regions in which a handshake used at their next local JS is late (R39). -/
def execStitchBoundary (late : List Nat) (s : State) : Outcome State Fault Refusal :=
  .next (
    if !s.clk.locked ∧ !s.clk.holdover then s
    else
      let s := countBlocked s
      let s := { s with clk.ws := s.clk.ws + 1, clk.slewLeft := s.clk.slewLeft - 1 }
      match jobLast s with
      | none => s
      | some l =>
        if jobRuns s then
          let acc := (List.range 20).foldl (stitchRegion l late) (landArrivals l (s, []))
          awlFaults acc.1 acc.2
        else s)

/-! ### Pace (R33, R34, R37, R38) -/

/-- The generators of every region switch to a code (R33, R37, 2.9.3): logged with old and new code, WS and JS. -/
def switchPace (s : State) (code : Nat) : State :=
  let s := event s 0x5010 [s.clk.pace, code, s.clk.ws, lowJs s]
  { s with
    clk.oldPace := s.clk.pace
    clk.pace := code
    clk.slewLeft := if code = s.clk.pace then 0 else 1024 }

/-- PACE_SLEW_END (R37): from now on each stitch lasts exactly the new duration. -/
def execPaceSlewEnd (s : State) : Outcome State Fault Refusal :=
  .next { s with clk.oldPace := s.clk.pace, clk.slewLeft := 0 }

/-- PACE_CHANGE_OUTSIDE_JOB (R38): the ordered code takes effect. -/
def execPaceChangeOutsideJob (s : State) : Outcome State Fault Refusal :=
  .next (match s.clk.nextOutside with
    | some (code, _) => if jobRuns s then s else switchPace { s with clk.nextOutside := none } code
    | none => s)

/-! ### Late handshakes and late units (R39, R195) -/

/-- What a handshake found when it read: 1 and 2 a correctable and an uncorrectable insole word at tile * 2^24 + address,
3 and 4 the same of HBM (R60, R61, R292, R293). -/
def handshakeEcc (s : State) (ecc addr : Nat) : State :=
  match ecc with
  | 1 => insoleCorrected s (addr / 2 ^ 24) (addr % 2 ^ 24)
  | 2 => insoleUncorrected { s with mem.insoleBad := insertOnce (addr / 8) s.mem.insoleBad } (addr / 2 ^ 24) (addr % 2 ^ 24)
  | 3 => hbmCorrected s addr
  | 4 => stopJob (hbmUncorrected { s with mem.hbmBad := insertOnce (addr / 32) s.mem.hbmBad } addr) stInternal
  | _ => s

/-- HANDSHAKE_ACK (R39, R40): the region's handshake acknowledges; the region goes on at the next stitch boundary. -/
def execHandshakeAck (region ecc addr : Nat) (s : State) : Outcome State Fault Refusal :=
  .next (handshakeEcc (setRegion s region (fun g => { g with holds := without .handshake g.holds })) ecc addr)

/-- The DEPART row of a lace in the running variant. -/
def departRow (s : State) (l : LoadedLast) (lace : Nat) : Option LaceRow :=
  match s.job with
  | some j => (rowsOf l j.variant).find? (fun r => decide (r.action = 1 ∧ r.lace = lace))
  | none => none

/-- LATE_UNIT_DEPART (R195): the payload of a late unit is ready; it leaves at an opportunity for late units. -/
def execLateUnitDepart (eyelet lace unit : Nat) (s : State) : Outcome State Fault Refusal :=
  .next (match jobLast s with
    | none => s
    | some l =>
      match (s.eyelet eyelet).txSched.find? (awaits lace unit), departRow s l lace with
      | some u, some r =>
        let pt := l.tileMap.getD r.ltile 0
        if jobRuns s ∧ passed s (tileRegion pt) u.dep then
          (readOr s pt (r.addr + 240 * unit) 240 (fun bs => ran (setEyelet s eyelet (fun e =>
            { e with txSched := e.txSched.map (fun x => if x = u then { u with payload := some bs } else x) })))).s
        else s
      | _, _ => s)

/-! ### Margin (R46 to R49) -/

/-- An 8-bit two's complement margin, saturated (R46). -/
def clampMargin (x : Int) : Int := max (-128) (min 127 x)

/-- Whether a margin holds the region. -/
def marginHeld (g : Region) : Bool := g.holds.any (fun h => match h with | .margin _ => true | _ => false)

/-- What a window does to a margin hold: it counts windows at or above the warning threshold, and the fourth in a row ends
it (R49). -/
def marginGood (warn m : Int) : Hold → Option Hold
  | .margin n => if m < warn then some (.margin 0) else if n + 1 < 4 then some (.margin (n + 1)) else none
  | h => some h

/-- One region's margin for a window: the lowest of its loops, against both thresholds (R46, R48, R49). -/
def marginWindow (loops : List (List Int)) (s : State) (r : Nat) : State :=
  match (loops.getD r []).map clampMargin |>.min? with
  | none => s
  | some m =>
    let warn := warnOf s.regs.marginActive
    let crit := critOf s.regs.marginActive
    let g := s.region r
    let s := setRegion s r (fun g =>
      { g with margin := m, lowMargin := min g.lowMargin m, holds := g.holds.filterMap (marginGood warn m) })
    let s := if m ≤ warn ∧ !g.warned then
        event (setRegion s r (fun g => { g with warned := true })) 0x5020 [r, slotOf m] else s
    if m ≤ crit ∧ !marginHeld g then
      event (setRegion s r (fun g => { g with holds := g.holds ++ [.margin 0] })) 0x5021 [r, slotOf m, s.clk.ws]
    else s

/-- MARGIN_WINDOW_END: `loops` gives each region's margins, in 1/64 of the stitch. -/
def execMarginWindowEnd (loops : List (List Int)) (s : State) : Outcome State Fault Refusal :=
  .next ((List.range 20).foldl (marginWindow loops) s)

end Sys2Proof.Machine
end

