-- ==== Sys2Proof/Machine/Decision.lean ====
section
/-! DEFINITION. The leader's decision at a step boundary: tokens, admissions, prefix records, the step variant and the step
control block (08, 12.8, 12.9, 13.6, 16.4). -/
namespace Sys2Proof.Machine

/-! ### Requests (Table 8.3) -/

/-- PROMPT_LEN of a request. -/
def Request.prompt (q : Request) : Nat := leAt q.input 8 4
/-- MAX_NEW of a request. -/
def Request.maxNew (q : Request) : Nat := leAt q.input 12 4
/-- An FP32 field of the input record. -/
def Request.f32 (q : Request) (o : Nat) : F32 := BitVec.ofNat 32 (leAt q.input o 4)
/-- The stop ids of a request. -/
def Request.stops (q : Request) : List Nat := (List.range (min 8 (leAt q.input 28 1))).map (fun i => leAt q.input (32 + 4 * i) 4)

/-- Change the request of a number. -/
def setRequest (s : State) (rid : Nat) (f : Request → Request) : State :=
  setJob s (fun j => { j with requests := j.requests.map (fun q => if q.rid = rid then f q else q) })

/-- The request of a number. -/
def requestOf (s : State) (rid : Nat) : Option Request := s.job.bind (fun j => j.requests.find? (fun q => decide (q.rid = rid)))

/-- The sub-code with which an input record is refused at admission (R171; a token area too small for MAX_NEW is 0x35). -/
def inputFault (l : LoadedLast) (q : Request) : Option Nat :=
  let b := q.input
  let n := q.prompt
  let T := q.f32 16
  let P := q.f32 20
  let ok := decide (1 ≤ n ∧ n ≤ 1048576 ∧ 1 ≤ q.maxNew ∧ q.maxNew ≤ 65535)
    && (decide (T = 0#32) || (fge32 T 0x3B800000#32 && fge32 0x43800000#32 T))
    && (fge32 P 0#32 && !fge32 0#32 P && fge32 (f32One false) P)
    && decide (leAt b 24 4 ≤ l.vocab ∧ leAt b 28 1 ≤ 8 ∧ leAt b 29 3 = 0)
    && (List.range 8).all (fun i => if i < leAt b 28 1 then decide (leAt b (32 + 4 * i) 4 < l.vocab)
                                    else decide (leAt b (32 + 4 * i) 4 = 0))
    && (promptOf b).all (fun t => decide (t < l.vocab))
    && decide (n + q.maxNew ≤ l.context ∧ b.length = 64 + 4 * n)
  if b.length < 64 then some 0x35
  else if !ok then some 0x1A
  else if q.outLen < 4 * q.maxNew then some 0x35
  else none

/-! ### Tokens (R172 to R175, R182, R374, R379) -/

/-- The logits of a batch slot (R173), where the schedule of the step's variant places them; elsewhere they are free values
(log entry 5). -/
def logits (s : State) (l : LoadedLast) (variant bslot : Nat) : State × List F32 :=
  let place := (l.schedule.variants.find? (fun v => decide (v.variant = variant))).bind
    (fun v => v.logits.find? (fun x => decide (x.1 = bslot)))
  match place with
  | some x =>
    let t := l.tileMap.getD x.2.1 0
    let a := l.insoleBase + x.2.2
    match insoleBadIn s t a (4 * l.vocab) with
    | some g => (insoleUncorrected s t (8 * g - insoleKey t 0), [])
    | none => (s, f32List (insoleRead s t a (4 * l.vocab)) l.vocab)
  | none => (bumpFree s, (List.range l.vocab).map (fun i => BitVec.ofNat 32 (freshFree s i)))

/-- A token of a request: written, reported, and its end (R174, R374, R379; both ends at once are one of the two, left
open). -/
def giveToken (s : State) (q : Request) (tok : Nat) : State :=
  let s := hostWrite s (q.outAddr + 4 * q.tokens.length) (leBytes 4 tok)
  let q := { q with tokens := q.tokens ++ [tok] }
  let stop := q.stops.contains tok
  let full := decide (q.maxNew ≤ q.tokens.length)
  let s := if stop && full then bumpFree s else s
  let code := if stop && full then 1 + freshFree s 0 % 2 else if stop then 2 else bit01 full
  let s := postReq s q stDone 0 1 code (if code = 0 then 0 else match s.job with | some j => j.choice | none => 0)
  if code = 0 then setRequest s q.rid (fun x => { x with tokens := q.tokens, reported := q.tokens.length, phase := 3 })
  else dropRequest s q

/-- Sample the token at position `p` of a request (R172 to R175). -/
def sampleRequest (s : State) (l : LoadedLast) (variant : Nat) (q : Request) (p : Nat) : State :=
  match logits s l variant q.bslot with
  | (s, z) =>
    if !jobRuns s then s
    else
      match sampleToken z (q.f32 16) (leAt q.input 24 4) (q.f32 20) (leAt q.input 0 8) p with
      | some tok => giveToken s q tok
      | none => failRequest stLongSum 0 (event s 0x3200 [p]) q

/-- One request of the step that ends: its positions are written, its pages that are now full are noted, and with the whole
prompt written a token is sampled. -/
def finishRequest (l : LoadedLast) (variant : Nat) (s : State) (x : Nat × Nat) : State :=
  match requestOf s x.1 with
  | none => s
  | some q =>
    if !jobRuns s then s
    else
      let full := (List.range q.keys.length).filter (fun p => decide (q.donePos < 64 * (p + 1) ∧ 64 * (p + 1) ≤ x.2))
      let s := setJob (setRequest s q.rid (fun q => { q with donePos := x.2 })) (fun j =>
        { j with fullPages := j.fullPages ++ full.map (fun p => (q.rid, p)) })
      if q.prompt ≤ x.2 then sampleRequest s l variant { q with donePos := x.2 } x.2 else s

/-- The step that ends is finished on the leader. -/
def finishStep (s : State) (l : LoadedLast) : State :=
  match s.job with
  | none => s
  | some j => j.running.foldl (finishRequest l j.variant) (setJob s (fun j => { j with running := [] }))

/-! ### Records (R305 to R311, R314 to R316) -/

/-- A decision in the making: the state, the state as its records will leave it, the records, and the fetches to begin. -/
structure Draft where
  s : State
  x : State
  recs : List Rec
  fetches : List (Nat × Nat)
  deriving DecidableEq, Repr

/-- Add a record. -/
def Draft.emit (t : Store) (d : Draft) (r : Rec) : Draft := { d with x := applyRec t d.x r, recs := d.recs ++ [r] }

/-- The directory slots promised to fetches in progress. -/
def promised (s : State) : List Nat :=
  match s.job with | some j => j.fetches.flatMap (fun f => f.pages.map (·.dirslot)) | none => []

/-- The first empty slot of a key that no fetch is promised. -/
def freeSlot (s : State) (t : Store) (key : List Byte) : Option Nat :=
  (keySlots t key).find? (fun i => decide (leAt (dirAt s t i) 19 1 = 0) && !(promised s).contains i)

/-- The private frame of a page. -/
def privateFrame (s : State) (bslot page : Nat) : Option Nat :=
  s.job.bind (fun j => (j.frameStates.find? (fun f => decide (f.2 = .priv bslot page))).map (·.1))

/-- PUBLISH for a page that has just become full (R310). -/
def publishPage (t : Store) (d : Draft) (x : Nat × Nat) : Draft :=
  match requestOf d.s x.1 with
  | none => d
  | some q =>
    let key := q.keys.getD x.2 []
    match privateFrame d.x q.bslot x.2 with
    | none => d
    | some f =>
      if (lookup d.x t key).isSome then d
      else
        match freeSlot d.x t key with
        | none => { d with s := event d.s 0x4041 }
        | some i => d.emit t { Rec.mk4 2 q.bslot x.2 f with dirslot := i, key }

/-- FETCH_END for a fetch whose every chip has reported (R316). -/
def endFetch (t : Store) (n : Nat) (d : Draft) (f : Fetch) : Draft :=
  let v := (tackGet d.s (fetchTackNo f.fid)).toNat
  if v % 65536 + v / 65536 = n then
    let fail := decide (v / 65536 ≠ 0)
    let d := f.pages.foldl (fun d p => d.emit t { Rec.mk4 3 f.fid p.page p.frame with fail }) d
    { d with s := setJob d.s (fun j =>
        { j with requests := j.requests.map (fun q => if q.fetch = some f.fid then { q with fetch := none } else q) }) }
  else d

/-- The frame to evict: PUBLISHED with REFS 0, the least LAST_USE, then the lowest number (R309). -/
def victim (s : State) (t : Store) : Option Nat :=
  match s.job with
  | none => none
  | some j =>
    let cs : List (Nat × Nat) := j.frameStates.filterMap (fun f => match f.2 with
      | .published i 0 => some (entryUse (dirAt s t i), f.1)
      | _ => none)
    (cs.foldl (fun (m : Option (Nat × Nat)) c => match m with
      | none => some c
      | some b => if c.1 < b.1 ∨ (c.1 = b.1 ∧ c.2 < b.2) then some c else some b) none).map (·.2)

/-- The lowest FREE frame. -/
def freeFrame (s : State) (t : Store) : Option Nat :=
  match s.job with
  | some j => (List.range t.frames).find? (fun f => (frameOf j f).isNone)
  | none => none

/-- Take a frame, FREE or evicted, for a record that uses it (R309). -/
def takeFrame (t : Store) (d : Draft) : Option (Nat × Draft) :=
  match freeFrame d.x t with
  | some f => some (f, d)
  | none => (victim d.x t).map (fun f => (f, d.emit t (Rec.mk4 5 0 0 f)))

/-- ALLOC the pages from `p` on while frames can be found (R309). -/
def allocPages (t : Store) (bslot : Nat) : Nat → Nat → Draft → Draft
  | 0, _, d => d
  | k + 1, p, d =>
    match takeFrame t d with
    | some (f, d) => allocPages t bslot k (p + 1) (d.emit t (Rec.mk4 6 bslot p f))
    | none => d

/-- The hit length (R308). -/
def hitLength (s : State) (t : Store) (q : Request) (keys : List (List Byte)) : Nat :=
  min ((q.prompt - 1) / 64) (keys.takeWhile (fun k => (lookup s t k).isSome)).length

/-- The lowest free batch slot. -/
def freeBatchSlot (s : State) (t : Store) : Option Nat :=
  match s.job with
  | some j => (List.range t.slots).find? (fun b => !j.requests.any (fun q => decide (q.phase ≠ 1 ∧ q.bslot = b)))
  | none => none

/-- The records of an admission: HIT, then EVICT and ALLOC (R307 to R309). -/
def admitRecs (t : Store) (d : Draft) (q : Request) (bslot h : Nat) : Draft :=
  let d := (List.range h).foldl (fun d p =>
    match lookup d.x t (q.keys.getD p []) with
    | some i => d.emit t (Rec.mk4 4 bslot p (entryFrame (dirAt d.x t i)))
    | none => d) d
  allocPages t bslot (q.prompt / 64 - h) h d

/-- Admit a request (R181, R308, R379, R398): its slot, its stamp, its first completion. Nothing is admitted where the block
would hold more than 28,000 records (R400). -/
def admitReq (t : Store) (l : LoadedLast) (d : Draft) (q : Request) (bslot : Nat) : Draft :=
  let h := hitLength d.x t q q.keys
  let d' := admitRecs t d q bslot h
  if 28000 < d'.recs.length then d
  else
    let relaxed := isRelaxed d.s
    let stamp := stampOf l.digest (l.weightDigest.getD (zeros 32)) (sha256 q.input) relaxed
    let q' := { q with phase := 2, bslot, planPos := 64 * h, donePos := 64 * h, hit := h, stamp }
    let s := setRequest d'.s q.rid (fun _ => q')
    let s := setJob s (fun j => { j with plans := j.plans.filter (fun p => decide (p.rid ≠ q.rid)) })
    { d' with s := postReq s q' stDone 0 0 0 0 }

/-- The lowest fetch id that is free in the records so far. -/
def freeFid (d : Draft) : Option Nat :=
  match d.x.job with
  | some j => (List.range 16).find? (fun i =>
      !j.fetches.any (fun f => decide (f.fid = i)) && !d.fetches.any (fun f => decide (f.2 = i)))
  | none => none

/-- Refuse a request at admission (R171). -/
def refuseRequest (s : State) (q : Request) (sub : Nat) : State :=
  failRequest stBadDescriptor sub s q

/-- One request of the waiting list (R308, R314, R316, R398). A request waits on a fetch, on a plan, or for a slot; it is
refused, planned for a fetch, set to fetch, or admitted. -/
def considerRequest (t : Store) (l : LoadedLast) (d : Draft) (rid : Nat) : Draft :=
  match requestOf d.s rid, d.s.job with
  | some q, some j =>
    let plan := planOf d.s rid
    let planning : Bool := match plan with | some p => !p.ready | none => false
    if q.phase ≠ 1 ∨ q.fetch.isSome ∨ planning then d
    else
      match freeBatchSlot d.s t with
      | none => d
      | some bslot =>
        match inputFault l q with
        | some sub => { d with s := refuseRequest d.s q sub }
        | none =>
          let keys := if t.frames = 0 then [] else prefixKeys l.digest (l.weightDigest.getD (zeros 32)) (promptOf q.input)
          let q := { q with keys }
          let d := { d with s := setRequest d.s rid (fun _ => q) }
          let h := hitLength d.x t q keys
          let cap := (q.prompt - 1) / 64
          let fetchable := match plan with | some p => decide (0 < planRun p) | none => false
          match (if fetchable && ((freeFrame d.x t).isSome || (victim d.x t).isSome) then freeFid d else none) with
          | some fid => { d with fetches := d.fetches ++ [(rid, fid)] }
          | none =>
            if h < cap ∧ !j.peers.isEmpty ∧ !q.planned then
              { d with s := startPlan (setRequest d.s rid (fun q => { q with planned := true })) rid h cap }
            else admitReq t l d q bslot
  | _, _ => d

/-- FETCH records for the pages of a plan's run, while frames and directory slots can be found (R314). -/
def fetchPages (t : Store) (p : Plan) (keys : List (List Byte)) (fid : Nat) : Nat → Nat → Draft → Draft
  | 0, _, d => d
  | k + 1, page, d =>
    let key := keys.getD page []
    match freeSlot d.x t key with
    | none => d
    | some i =>
      match takeFrame t d with
      | some (f, d) =>
        fetchPages t p keys fid k (page + 1) (d.emit t { Rec.mk4 7 fid page f with peer := p.peer, dirslot := i, key })
      | none => d

/-- Begin one fetch (R314): its tack at 0, its FETCH records; the request waits for it. Where not one page could be taken the
request is admitted without it at the next boundary. -/
def beginPlanned (t : Store) (d : Draft) (x : Nat × Nat) : Draft :=
  match planOf d.s x.1 with
  | none => d
  | some p =>
    let n := d.recs.length
    let d := fetchPages t p (requestKeys d.s x.1) x.2 (min (planRun p) (28000 - n)) p.h d
    let s := setJob d.s (fun j => { j with plans := j.plans.filter (fun p => decide (p.rid ≠ x.1)) })
    if d.recs.any (fun r => decide (r.op = 7 ∧ r.slot = x.2)) then
      { d with s := tackSet (setRequest s x.1 (fun q => { q with fetch := some x.2 })) (fetchTackNo x.2) 0 }
    else { d with s := s }

/-- The records of a decision: RELEASE, PUBLISH, FETCH_END, admissions, FETCH (R307, R398). -/
def decideRecs (t : Store) (l : LoadedLast) (j : Job) (admits : Bool) (d : Draft) : Draft :=
  let d := j.endingSlots.foldl (fun d b => d.emit t (Rec.mk4 1 b 0 0)) d
  let d := j.fullPages.foldl (publishPage t) d
  let d := j.fetches.foldl (endFetch t l.arr.chips.length) d
  let d := { d with s := setJob d.s (fun j => { j with endingSlots := [], fullPages := [] }) }
  let d := if admits then j.requests.foldl (fun d q => considerRequest t l d q.rid) d else d
  d.fetches.foldl (beginPlanned t) d

/-! ### The step variant (R335 to R338) -/

/-- Whether a sequence is generating once every decided step is complete. -/
def generating (q : Request) : Bool :=
  decide (q.phase ≠ 1 ∧ q.prompt ≤ q.planPos ∧ q.planPos + 1 < q.prompt + q.maxNew)

/-- The least-sized variant of a list. -/
def leastSize (vs : List Variant) : Option Variant :=
  vs.foldl (fun m v => match m with | none => some v | some w => if v.size < w.size then some v else some w) none

/-- The largest-sized variant of a list. -/
def mostSize (vs : List Variant) : Option Variant :=
  vs.foldl (fun m v => match m with | none => some v | some w => if w.size < v.size then some v else some w) none

/-- choose() of R336; `budget` is A and cap, or nothing for unbounded ones. None is IDLE. -/
def chooseVariant (vs : List Variant) (budget : Option (Int × Nat)) (rem : Option Nat) (decoding since run : Nat) : Option Variant :=
  let dec := if decoding = 0 then none else leastSize (vs.filter (fun v => decide (v.kind = 2 ∧ decoding ≤ v.size)))
  if 0 < decoding ∧ run ≤ since then dec
  else
    let pre := vs.filter (fun v => decide (v.kind = 1))
    let chunk := match rem with
      | none => none
      | some n =>
        let want := match leastSize (pre.filter (fun v => decide (n ≤ v.size))) with
          | some v => v.size
          | none => match mostSize pre with | some v => v.size | none => 0
        mostSize (pre.filter (fun v => decide (v.size ≤ want) && (match budget with
          | some (A, cap) => decide ((v.energyUj : Int) ≤ A ∧ v.peakW ≤ cap)
          | none => true)))
    match chunk with
    | some v => some v
    | none => dec

/-- The request to prefill next. -/
def prefillHead (j : Job) : Option Request := j.requests.find? (fun q => decide (q.phase ≠ 1 ∧ q.planPos < q.prompt))

/-- A token entry of Table 16.7. -/
def tokenEntry (slot token position : Nat) : List Byte := leBytes 2 slot ++ zeros 2 ++ leBytes 4 token ++ leBytes 4 position ++ zeros 4

/-- What a step does to its requests: (request, position after it, token entries). The token of a decode whose sample is not
yet in is a free value (log entry 32). -/
def stepRequests (s : State) (j : Job) (v : Variant) : List (Nat × Nat × List (List Byte)) :=
  if v.kind = 1 then
    match prefillHead j with
    | some q =>
      let n := min v.size (q.prompt - q.planPos)
      let toks := promptOf q.input
      [(q.rid, q.planPos + n, (List.range n).map (fun i => tokenEntry q.bslot (toks.getD (q.planPos + i) 0) (q.planPos + i)))]
    | none => []
  else
    (j.requests.filter generating).map (fun q =>
      (q.rid, q.planPos + 1,
        [tokenEntry q.bslot (q.tokens.getD (q.planPos - q.prompt) (freshFree s q.rid % 2 ^ 32)) q.planPos]))

/-- A step control block (Table 16.7). -/
def stepBlock (j : Job) (variant : Nat) (limited : Bool) (boundary : Nat) (tokens : List (List Byte)) (recs : List Rec) : List Byte :=
  leBytes 2 j.tag ++ [byteOf variant, byteOf (maskOf [limited, j.drain, j.relaxed])] ++ leBytes 4 j.frames ++ leBytes 8 boundary
    ++ leBytes 4 tokens.length ++ leBytes 4 recs.length ++ zeros 40 ++ tokens.flatten ++ recs.flatMap Rec.bytes

/-- The chips of the job as a destination mask. -/
def jobMask (s : State) (l : LoadedLast) : Nat := listMask (l.arr.chips.map (fun c => linear s c.coord.field))

/-- Send a decision to every chip of the job (R400). -/
def sendDecision (s : State) (l : LoadedLast) (block : List Byte) : State :=
  match s.job with
  | none => s
  | some j =>
    sendBlock (setJob s (fun j => { j with block, decisions := j.decisions + 1 })) j.decisions (jobMask s l) block

/-- Issue a variant: the energy account, the chunk count, the positions after it (R335, R336). -/
def issueVariant (s : State) (v : Variant) (xs : List (Nat × Nat × List (List Byte))) : State :=
  let floor : Int := -(8 * (s.heel.jobGrant : Int))
  setJob s (fun j =>
    { j with
      energy := max floor (j.energy - v.energyUj)
      since := if v.kind = 1 then j.since + 1 else 0
      decided := xs.map (fun x => (x.1, x.2.1))
      requests := j.requests.map (fun q => match xs.find? (fun x => decide (x.1 = q.rid)) with
        | some x => { q with planPos := x.2.1 }
        | none => q) })

/-- Whether the next decision is a PAUSE: a checkpoint asks for it, or a drain has no admitted request left (R399, R403). -/
def pauses (j : Job) : Bool := j.pauseOrdered || (j.drain && (admitted j).isEmpty)

/-- The leader's decision for the step that begins at the next boundary (R398). -/
def decideStep (s : State) (l : LoadedLast) : State :=
  match s.job with
  | none => s
  | some j =>
    let t := storeFor l j.frames j.sliceBytes
    let pause := pauses j
    let d := decideRecs t l j (!pause && !j.drain) ⟨s, s, [], []⟩
    match d.s.job with
    | none => s
    | some j =>
      if pause then
        sendDecision (setJob d.s (fun j => { j with decided := [] })) l (stepBlock j 0xFE false j.nextBoundary [] d.recs)
      else
        let rem := (prefillHead j).map (fun q => q.prompt - q.planPos)
        let decoding := (j.requests.filter generating).length
        let pick (b : Option (Int × Nat)) := chooseVariant l.variants b rem decoding j.since s.heel.prefillRun
        let v := pick (some (j.energy, s.heel.jobCap))
        let limited := decide (v ≠ pick none)
        match v with
        | none =>
          sendDecision (setJob d.s (fun j => { j with decided := [] })) l (stepBlock j 0xFF limited j.nextBoundary [] d.recs)
        | some v =>
          let xs := stepRequests d.s j v
          sendDecision (bumpFree (issueVariant d.s v xs)) l
            (stepBlock j v.id limited j.nextBoundary (xs.flatMap (·.2.2)) d.recs)

end Sys2Proof.Machine
end

