-- ==== Sys2Proof/Machine/Boundary.lean ====
section
/-! DEFINITION. Slip points and step boundaries: the awl's checks there, the step control block on every chip, the release of
job stitches at the start, at a slip point and after a slip (02 R41, 07, 09, 16.4). -/
namespace Sys2Proof.Machine
open Host

/-! ### The awl at a slip point (R151, R516) -/

/-- Departures above 90 % of the window's slots, per eyelet (R151): a fault, or in relaxed mode counted (Table 7.3). -/
def slotFindings (s : State) : List Finding :=
  ((awlOf s).departs.filter (fun x => decide (1843 < x.2))).map (fun x =>
    { check := 0x0A, tile := none, site := none, task := none, js := lowJs s, declared := 1843, observed := x.2 })

/-- A counted check: its event and its interlock counter, no hold and no choice (R154). -/
def countCheck (s : State) (f : Finding) : State :=
  recordRaw
    (setJob s (fun j => { j with interlocks := mapAt j.interlocks (f.check - 1) (fun n => min (n + 1) 0xFFFFFFFF) }))
    (0x3000 + f.check) (faultRecord s f false) false

/-- The landed units of eyelet `k` whose scheduled occupancy began before `p`. -/
def landedBefore (s : State) (p k : Nat) : List Landed :=
  (s.eyelet k).landing.filter (fun u => decide (u.dep + flightOf s k < p))

/-- The entries left in scheduled queues at step boundary `p`, as (SITE, entries), in the order of Table 7.5. -/
def residue (s : State) (p : Nat) : List (Nat × Nat) :=
  let w := awlOf s
  ((List.range 16).map (fun k => (siteOf 1 k, (landedBefore s p k).length))
    ++ w.tileInput.map (fun x => (siteOf 2 x.1, x.2)) ++ w.vectorQ.map (fun x => (siteOf 3 x.1, x.2))
    ++ w.hbmQ.map (fun x => (siteOf 4 x.1, x.2))).filter (fun x => decide (0 < x.2))

/-- The finding of check 0x11. -/
def residueFinding (p : Nat) (xs : List (Nat × Nat)) : Finding :=
  { check := 0x11, tile := none, site := xs.head?.map (·.1), task := none, js := p, declared := 0,
    observed := (xs.map (·.2)).sum }

/-- Whether the ending step's work still awaits something (R516): a late unit not landed, a transfer on the mesh. -/
def awaited (s : State) : Bool :=
  (lacingEyelets s).any (fun k => (s.eyelet k).txSched.any (fun u => u.payload.isNone))
    || (match s.job with | some j => j.arrivals.any (fun x => decide (s.clk.ws < x.ws)) | none => false)

/-- An HBM request that has been put off. -/
def isHbm (x : Nat × Nat × Later) : Bool := match x.2.2 with | .write _ _ _ => false | _ => true

/-- The entries left are discarded; HBM requests complete first (R516). -/
def discardResidue (l : LoadedLast) (p : Nat) (acc : Acc) : Acc :=
  match acc.1.job with
  | none => acc
  | some j =>
    let acc : Acc := (j.later.filter isHbm).foldl (fun acc x => if jobRuns acc.1 then doLater l x.1 p acc x.2.2 else acc)
      (setJob acc.1 (fun j => { j with later := j.later.filter (fun x => !isHbm x) }), acc.2)
    let s := setAwl acc.1 (fun w => { w with tileInput := [], vectorQ := [], hbmQ := [] })
    ((List.range 16).foldl (fun s k =>
      setEyelet s k (fun e => { e with landing := e.landing.filter (fun u => !(landedBefore s p k).contains u) })) s, acc.2)

/-- What a check at a slip point leaves: the state, the faults, and whether the chip holds there. -/
structure SlipCheck where
  acc : Acc
  holds : Bool
  deriving DecidableEq, Repr

/-- Check 0x11 at a step boundary (R516): in relaxed mode an interlock once, held out over later alignments. -/
def judgeResidue (l : LoadedLast) (p : Nat) (acc : Acc) : SlipCheck :=
  let s := acc.1
  let xs := residue s p
  if xs.isEmpty then ⟨acc, false⟩
  else if !isRelaxed s then ⟨(s, acc.2 ++ [residueFinding p xs]), false⟩
  else
    let s := if (awlOf s).residue then s
      else setAwl (interlock s (residueFinding p xs)) (fun w => { w with residue := true })
    if awaited s then ⟨(s, acc.2), true⟩ else ⟨discardResidue l p (s, acc.2), false⟩

/-- The counts of the window that has ended are cleared. -/
def closeWindow (p : Nat) (s : State) : State :=
  setAwl s (fun w => { w with departs := [], postCount := [], links := w.links.filter (fun x => decide (p ≤ x.2)) })

/-- Checks 0x0A and 0x11 at slip point `p`. -/
def judgeSlipPoint (l : LoadedLast) (p : Nat) (boundary : Bool) (acc : Acc) : SlipCheck :=
  let fs := slotFindings acc.1
  let acc : Acc := if isRelaxed acc.1 then (fs.foldl countCheck acc.1, acc.2) else (acc.1, acc.2 ++ fs)
  let acc : Acc := (closeWindow p acc.1, acc.2)
  if boundary then judgeResidue l p acc else ⟨acc, false⟩

/-! ### The step control block on a chip (R400) -/

/-- The block of the step that begins at `p`, where its header has landed. -/
def blockHere (s : State) (p : Nat) : Option (List Byte) :=
  match s.job with
  | none => none
  | some j =>
    let a := blockAddr (if isLeader s then j.decisions - 1 else j.decisions)
    let h := hbmRead s a 64
    if leAt h 0 2 = j.tag ∧ leAt h 8 8 = p then
      some (hbmRead s a (64 + 16 * min (leAt h 16 4) 8448 + 32 * min (leAt h 20 4) 28000))
    else none

/-- The records of a block. -/
def blockRecs (b : List Byte) : List Rec :=
  (List.range (min (leAt b 20 4) 28000)).map (fun i => Rec.parse (slice b (64 + 16 * min (leAt b 16 4) 8448 + 32 * i) 32))

/-- The LENGTH_JS of a variant; IDLE lasts 65,536 JS (R337). -/
def lengthOf (l : LoadedLast) (variant : Nat) : Nat :=
  match l.variants.find? (fun v => decide (v.id = variant)) with | some v => v.lengthJs | none => 65536

/-- The records of a boundary applied, and the fetches that they begin (R307, R315). -/
def applyBlockRecs (s : State) (rs : List Rec) : State :=
  ((rs.filter (fun r => decide (r.op = 7))).map (·.slot)).eraseDups.foldl beginFetch (applyRecs s rs)

/-- Fetches in progress end as failed (R403). -/
def failFetches (s : State) : State :=
  setJob s (fun j =>
    { j with
      frameStates := j.frameStates.filter (fun f => match f.2 with | .fetching _ _ => false | _ => true)
      fetches := []
      plans := []
      requests := j.requests.map (fun q => { q with fetch := none, planned := false }) })

/-- PAUSE at `p` (R399, R403, Table 16.3). -/
def pauseJob (s : State) (p : Nat) : State :=
  let s := dropWork (failFetches s)
  let s := setJob s (fun j =>
    { j with slipTotal := slipTotal s j, barrier := j.barrier.clear, awl := Awl.fresh, pauseOrdered := false, boundary := p,
             nextBoundary := p, released := p, running := [], decided := [] })
  let s := setJobState s .paused
  if isLeader s then s else completeDrains s

/-- The step that begins at `p` (R337). -/
def beginStep (s : State) (l : LoadedLast) (p variant : Nat) : State :=
  let lead := isLeader s
  let s := setJob s (fun j =>
    { j with boundary := p, variant, nextBoundary := p + lengthOf l variant, stepCount := j.stepCount + 1,
             running := j.decided, decisions := if lead then j.decisions else j.decisions + 1,
             awl := { j.awl with said := [], residue := false } })
  let s := { s with eyelets := s.eyelets.map (fun e => { e with lateSaid := false }) }
  if lead then decideStep s l else s

/-- Every chip applies the block of boundary `p` (R307, R338, R398, R400). -/
def applyBlock (s : State) (l : LoadedLast) (p : Nat) (b : List Byte) : State :=
  match s.job with
  | none => s
  | some j =>
    if leAt b 4 4 ≠ j.frames ∨ bitOf (leAt b 3 1) 2 ≠ j.relaxed then stopJob (event s 0x2141) stInternal
    else
      let s := applyBlockRecs s (blockRecs b)
      let s := if bitOf (leAt b 3 1) 0 then choose s else s
      let s := if bitOf (leAt b 3 1) 1 then
          setJobState (setJob s (fun j => { j with drain := true })) (if j.state = .running then .draining else j.state) else s
      let s := setJob s (fun j => { j with peers := j.nextPeers.getD j.peers, nextPeers := none })
      if leAt b 2 1 = 0xFE then pauseJob s p else beginStep s l p (leAt b 2 1)

/-! ### The release of job stitches (R41, R149, R213, R214, R368) -/

/-- The posts that waited for the slip point (R149). -/
def postLater (l : LoadedLast) (s : State) (x : Nat × Nat × PostSpec) : State :=
  let pt := l.tileMap.getD x.1 0
  if canPost s pt then (makePost s l pt x.2.2).s
  else setAwl s (fun w => { w with laterPosts := w.laterPosts ++ [x] })

/-- A region begins the work of the job stitch just released. -/
def startRegion (l : LoadedLast) (acc : Acc) (r : Nat) : Acc :=
  match acc.1.job with
  | none => acc
  | some j =>
    let g := acc.1.region r
    if !jobRuns acc.1 then acc
    else
      let acc := dueLater l r g.js acc
      let acc : Acc := ((workAt l j r g.js).foldl (noteLate l g.js) acc.1, acc.2)
      if g.holds.any (stopsAt acc.1.clk.ws) then acc else beginWork l r (acc.1.clk.ws + 1) acc

/-- Every region begins. -/
def startRegions (l : LoadedLast) (s : State) : State :=
  let acc := (List.range 20).foldl (startRegion l) (s, [])
  awlFaults acc.1 acc.2

/-- The chip releases job stitch `p`: the slip total's growth is a choice (R183), the poll of a step boundary (R368). -/
def releaseSlip (s : State) (l : LoadedLast) (p : Nat) : State :=
  match s.job with
  | none => s
  | some j =>
    let total := slipTotal s j
    let s := if j.slipSeen < total then choose s else s
    let s := if p + 4096 = j.nextBoundary ∧ polls s then issuePoll s else s
    let s := setJob s (fun j => { j with slipSeen := total, released := p })
    let posts := (awlOf s).laterPosts
    let s := posts.foldl (postLater l) (setAwl s (fun w => { w with laterPosts := [] }))
    startRegions l s

/-- A slip point is behind the chip: nothing of its slip is kept. -/
def forgetSlip (s : State) (p : Nat) : State :=
  setBarrier s (fun b =>
    { b with slipHeld := without p b.slipHeld, slipMine := without p b.slipMine, slipReadySent := without p b.slipReadySent,
             slipFrom := b.slipFrom.filter (fun x => decide (x.2 ≠ p)), slipReady := b.slipReady.filter (fun x => decide (x.2 ≠ p)),
             resumed := b.resumed.filter (fun x => decide (x.1 ≠ p)), pauseFrom := none })

/-- Release a slip point after a slip of `n` stitches, the anchor at wall stitch `w` (R213, R214). -/
def endSlip (s : State) (l : LoadedLast) (p w n : Nat) : State :=
  releaseSlip (forgetSlip (anchorAt (event s 0x2103 [p, n]) w p) p) l p

/-- The chip pauses at slip point `p` (R213, R214): an announcer floods SLIP_READY; the leader may resume at once. -/
def pauseSlip (s : State) (l : LoadedLast) (p : Nat) : State :=
  match s.job with
  | none => s
  | some j =>
    let s := setBarrier s (fun b => { b with pauseFrom := some s.clk.ws })
    let s := if p ∈ j.barrier.slipMine then
        setBarrier (originate s (jobMsg s 0x16 0 p 0)) (fun b =>
          { b with slipReadySent := insertOnce p b.slipReadySent, slipReady := insertOnce (l.lchip, p) b.slipReady })
      else s
    judgeSlip s p

/-- Release slip point `p`, or pause there for a job-wide slip (R41, R213, R214). -/
def passSlip (s : State) (l : LoadedLast) (p : Nat) : State :=
  match s.job with
  | none => s
  | some j =>
    if p ∈ j.barrier.slipHeld then
      match assoc p j.barrier.resumed with
      | some w => endSlip s l p w 0
      | none => pauseSlip s l p
    else releaseSlip s l p

/-- The pace at slip point `p`: armed one interval before its boundary, in force from it (R34, R36). -/
def paceAt (s : State) (p : Nat) : State :=
  match s.clk.nextInside with
  | some (code, b) =>
    if b = p then switchPace { s with clk.nextInside := none, clk.armed := none } code
    else if b = p + 4096 then { s with clk.armed := some code }
    else s
  | none => s

/-- The leader announces a pace at a pace boundary, naming the next one (R35, R333). -/
def announcePace (s : State) (p : Nat) : State :=
  match s.heel.paceWish with
  | some code =>
    if isLeader s ∧ p % 65536 = 0 then
      let s := originate s (jobMsg s 0x19 code (p + 65536) 0)
      { s with heel.paceWish := none, clk.nextInside := some (code, p + 65536) }
    else s
  | none => s

/-- The step boundary at `p`, once the awl has passed it: tokens on the leader; a power stop ends the job there (R424); then
the block. `true` while the block is absent and the chip holds (R398, R400). -/
def stepBoundary (s : State) (l : LoadedLast) (p : Nat) : State × Bool :=
  let s := if isLeader s then finishStep s l else s
  if !jobRuns s then (s, true)
  else if s.dev.stopOrdered.isSome then (stopJob (setJob s (fun j => { j with boundary := p })) stPowerAbort, true)
  else
    match blockHere s p with
    | none => (s, true)
    | some b => (applyBlock s l p b, false)

/-- All regions stand at slip point `p`. -/
def slipPoint (s : State) (l : LoadedLast) (j : Job) (p : Nat) : State :=
  let boundary := decide (p = j.nextBoundary)
  let acc := (List.range 20).foldl (fun acc r => if jobRuns acc.1 then dueLater l r p acc else acc) (s, [])
  let x := judgeSlipPoint l p boundary acc
  let s := awlFaults x.acc.1 x.acc.2
  if !jobRuns s ∨ x.holds then s
  else
    let s := paceAt s p
    let (s, stay) := if boundary then stepBoundary s l p else (s, false)
    if stay ∨ !jobRuns s then s else passSlip (announcePace s p) l p

/-- SLIP_POINT_ALIGN (R41): the twenty regions stand at the next slip point; while the chip holds there the command tries
again. -/
def execSlipPointAlign (s : State) : Outcome State Fault Refusal :=
  .next (match s.job, jobLast s with
    | some j, some l =>
      let p := j.released + 4096
      if jobRuns s ∧ s.clk.regions.all (fun g => decide (g.js = p)) ∧ j.barrier.pauseFrom.isNone then slipPoint s l j p else s
    | _, _ => s)

/-- RESUME_RELEASE (R214): JS s is released with the anchor at this stitch; a chip not there yet will release it on reaching
it. -/
def execResumeRelease (s : State) : Outcome State Fault Refusal :=
  .next (match s.job, jobLast s with
    | some j, some l =>
      match j.barrier.resumeAt with
      | some (p, _) =>
        if jobRuns s then
          let s := setBarrier s (fun b => { b with resumeAt := none })
          if pausedAt s p then endSlip s l p s.clk.ws (s.clk.ws - j.barrier.pauseFrom.getD s.clk.ws)
          else setBarrier s (fun b => { b with resumed := b.resumed ++ [(p, s.clk.ws)] })
        else s
      | none => s
    | _, _ => s)

/-- Whether a request of the leader's last block is still without its answers. -/
def blockOut (s : State) : Bool :=
  s.svc.txns.any (fun t => match t.onDone with | .stepBlock _ _ => true | _ => false)
    || s.svc.waiting.any (fun t => match t.onDone with | .stepBlock _ _ => true | _ => false)

/-- STEP_CONTROL_LOST (R400): 100 ms without the block at its boundary, or without its delivery. -/
def execStepControlLost (s : State) : Outcome State Fault Refusal :=
  .next (match s.job with
    | some j =>
      let stands := s.clk.regions.all (fun g => decide (g.js = j.nextBoundary)) && j.barrier.pauseFrom.isNone
        && (blockHere s j.nextBoundary).isNone
      if jobRuns s ∧ ((stands ∧ j.released + 4096 = j.nextBoundary) ∨ (isLeader s ∧ blockOut s)) then
        stopJob (event s 0x2140) stInternal
      else s
    | none => s)

/-- The state of the job at the release of its first stitch (R31, R144, R337, R394). -/
def startJob (s : State) : State :=
  match s.job with
  | none => s
  | some j =>
    let js := j.boundary
    let s := setJob s (fun j =>
      { j with released := js, nextBoundary := js + 65536, variant := 0xFF, decisions := 0, running := [], decided := [],
               anchorWs := s.clk.ws, anchorJs := js, slipSeen := j.slipTotal, awl := Awl.fresh
               barrier := { j.barrier with stops := [], releaseAt := none, offerAt := none, startDesc := none } })
    let s := { s with
      clk.nextOutside := none
      clk.regions := s.clk.regions.map (fun g => { g with js, due := true, todo := [], counted := false })
      eyelets := s.eyelets.map (fun e => { e with lateSaid := false }) }
    setJobState s (if j.drain then .draining else .running)

/-- JS0_RELEASE (R192, R207, R209): the chip releases JS 0, or the JS of its checkpoint; JOB_START completes. The first step
is IDLE, and the leader's first decision is for the one after it. -/
def execJs0Release (s : State) : Outcome State Fault Refusal :=
  .next (match s.job, jobLast s with
    | some j, some l =>
      if j.state = .starting ∧ j.barrier.releaseAt.isSome then
        let code := j.barrier.startPace
        let s := if s.clk.pace = code then s else switchPace s code
        let s := match j.barrier.startDesc with | some d => complete s d.1 d.2 stDone 0 | none => s
        let s := startRegions l (startJob s)
        if isLeader s ∧ jobRuns s then decideStep s l else s
      else s
    | _, _ => s)

end Sys2Proof.Machine
end

