-- ==== Sys2Proof/Machine/Governor.lean ====
section
/-! DEFINITION. The heel: governor periods, limits, the mailbox and the job's pace, emergency throttle and HOLD (13). The
thermal, power and margin models are not in the spec: what they give is a free value within its stated bounds (log
entry 11). -/
namespace Sys2Proof.Machine
open Host

/-! ### Shared -/

/-- Add a hold to the tile regions. -/
def holdTiles (s : State) (h : Hold) : State :=
  { s with clk.regions := s.clk.regions.mapIdx (fun r g => if r < 16 then { g with holds := insertOnce h g.holds } else g) }

/-- Take a hold off every region. -/
def freeTiles (s : State) (h : Hold) : State :=
  { s with clk.regions := s.clk.regions.map (fun g => { g with holds := without h g.holds }) }

/-- Whether the heel governs: crossing calibration has ended (R318). -/
def governs (s : State) : Bool := barAlive s

/-! ### Orders in force (R326 to R328) -/

/-- An order in force. -/
def applyOrder (h : Heel) (o : Order) : Heel :=
  match o with
  | .powerW v => { h with powerW := v }
  | .thermal v => { h with thermal := v }
  | .prefillRun v => { h with prefillRun := v }
  | .paceMax v => { h with paceMax := v }
  | .powerCap v => { h with powerCap := v }
  | .paceCap v => { h with paceCap := v }

/-- The orders received in the period that ends apply, in order (R328). -/
def applyOrders (s : State) : State :=
  { s with heel := { s.heel.orders.foldl (fun h x => applyOrder h x.2) s.heel with orders := [] } }

/-! ### The mailbox (R330 to R332) -/

/-- The HBM address of entry `j`. -/
def mailAddr (j : Nat) : Nat := 0x23FF000000 + 8 * j

/-- This chip's entry; SEQ cycles 1 to 255 (Tables 13.4, 19.6). -/
def mailEntry (s : State) (code : Nat) : List Byte :=
  [byteOf code, byteOf ((s.heel.periods + 254) % 255 + 1)] ++ leBytes 2 (effPower s) ++ leBytes 4 s.heel.grant

/-- Write this chip's entry to the leader: locally there, by a service WRITE on the spread channel elsewhere (R331). -/
def writeMail (s : State) (code : Nat) : State :=
  match s.job, jobLast s with
  | some j, some l =>
    if !jobRuns s then s
    else if isLeader s then hbmWrite s (mailAddr l.lchip) (mailEntry s code)
    else
      let h : Hdr := { reqHdr 1 (leaderCoord s) 3 (mailAddr l.lchip) 8 0 with spread := true, jobTag := j.tag }
      issue s .chip h (mailEntry s code) .mailbox
  | _, _ => s

/-- Follow one entry for a period (R332). -/
def followMail (old : Option MailSeen) (v : Nat) : MailSeen :=
  let was := old.getD ⟨0, 0, false⟩
  let changed := decide (v / 256 % 256 ≠ was.entry / 256 % 256)
  { entry := v, age := if changed then 0 else was.age + 1, written := was.written || changed }

/-- An entry as the leader uses it: 0 for CODE and GRANT once it has not changed for four periods (R332). -/
def mailUsed (m : MailSeen) : Nat × Nat × Nat :=
  if m.age < 4 then (m.entry % 256, m.entry / 2 ^ 16 % 2 ^ 16, m.entry / 2 ^ 32) else (0, m.entry / 2 ^ 16 % 2 ^ 16, 0)

/-- The least of some numbers. -/
def leastOf (xs : List Nat) : Nat := xs.min?.getD 0

/-- The pace to announce, where one is (R333): at once below the pace in force or pending, above it after four period ends. -/
def paceWanted (s : State) (mins : List Nat) : Option Nat :=
  let now := (paceNext s).getD s.clk.pace
  match mins.getLast? with
  | none => none
  | some c =>
    if c < now then some c
    else if mins.length = 4 ∧ mins.all (fun x => decide (now < x)) then some (leastOf mins)
    else none

/-- A leader's period end: the mailbox is read, the job's grant and cap are formed, a pace may be announced (R332, R333). -/
def readMail (s : State) (l : LoadedLast) : State :=
  let seen := (List.range l.arr.chips.length).map (fun j => followMail s.heel.mail[j]? (leNat (hbmRead s (mailAddr j) 8)))
  let s := seen.foldl (fun s m => if m.age = 4 then event s 0x5031 else s) { s with heel.mail := seen }
  if seen.all (·.written) then
    let us := seen.map mailUsed
    let mins := (s.heel.cMins ++ [leastOf (us.map (·.1))]).drop (s.heel.cMins.length + 1 - 4)
    let s := { s with heel.cMins := mins, heel.jobCap := leastOf (us.map (·.2.1)), heel.jobGrant := leastOf (us.map (·.2.2)) }
    match paceWanted s mins with
    | some c => { s with heel.paceWish := some c }
    | none => s
  else { s with heel.jobCap := effPower s, heel.jobGrant := s.heel.grant }

/-- The energy account at a leader's period end (R335). -/
def creditEnergy (s : State) : State :=
  setJob s (fun j => { j with energy := min (j.energy + s.heel.jobGrant) (8 * (s.heel.jobGrant : Int)) })

/-- What the end of a period brings: on the leader of a running job its decision, outside a running job R334's pace. -/
def endPeriod (s : State) : State :=
  match jobLast s with
  | some l => if jobRuns s then (if isLeader s then creditEnergy (readMail s l) else s) else idlePace s
  | none => idlePace s
where
  /-- R334, and pace code 0 in IDLE_LP (R407). -/
  idlePace (s : State) : State :=
    if jobLive s then s else orderPace s (restPace s)

/-! ### The period (R318, R319, R323 to R325) -/

/-- Whether every region reads 100.0 °C or less and no rail exceeds 300 A (R339). -/
def coolNow (temps : List Int) (halfAmps : List Nat) : Bool :=
  temps.all (fun t => decide (t ≤ 400)) && halfAmps.all (fun a => decide (a ≤ 600))

/-- Throttle ends after ten cool periods (R339). A power stop keeps the regions throttled (R424). -/
def throttlePeriod (s : State) (cool : Bool) : State :=
  if !s.heel.throttle then s
  else
    let n := if cool then s.heel.coolPeriods + 1 else 0
    if n < 10 then { s with heel.coolPeriods := n }
    else
      let s := { s with heel.throttle := false, heel.coolPeriods := 0 }
      event (if s.dev.stopOrdered.isSome then s else freeTiles s .throttle) 0x5041

/-- GOVERNOR_PERIOD_START (R318, R319): `temps` are the twenty region temperatures in 0.25 °C, `halfAmps` the currents of
VC0 to VC3 in 0.5 A. -/
def execGovernorPeriodStart (temps : List Int) (halfAmps : List Nat) (s : State) : Outcome State Fault Refusal :=
  .next (
    if !governs s then s
    else
      let s := applyOrders (endPeriod s)
      let s := { s with
        heel.periods := s.heel.periods + 1
        clk.regions := s.clk.regions.mapIdx (fun r g =>
          { g with temp := temps.getD r g.temp, warned := false, lowMargin := 127 }) }
      throttlePeriod s (coolNow temps halfAmps))

/-- A rail's next setpoint: within 10 codes of the present one and from 60 to 160 (R320, R321); the plan's v_1 is free. -/
def nextRail (s : State) (r n : Nat) : Nat := max 60 (min 160 (n + freshFree s r % 21 - 10))

/-- GOVERNOR_APPLY (R323 to R325, R331): `status` is the shank's status for the period's batch. -/
def execGovernorApply (status : Nat) (s : State) : Outcome State Fault Refusal :=
  .next (
    if !governs s then s
    else
      let s := if status = stDone then
          bumpFree { s with
            heel.rails := s.heel.rails.mapIdx (nextRail s)
            heel.proposal := freshFree s 4 % (effPace s + 1)
            heel.grant := freshFree s 5 % 2 ^ 32
            heel.fallback := false }
        else event { s with heel.proposal := min (s.heel.proposal - 1) (effPace s), heel.grant := 0, heel.fallback := true } 0x5030
          [status]
      writeMail s (if s.heel.throttle then 0 else s.heel.proposal))

/-- THROTTLE_BEGIN (R339): CODE 0 goes to the mailbox at once; from the next stitch boundary the tile regions are
throttled. -/
def execThrottleBegin (region : Nat) (s : State) : Outcome State Fault Refusal :=
  .next (
    if s.heel.throttle ∨ !governs s then s
    else
      let s := holdTiles { s with heel.throttle := true, heel.coolPeriods := 0 } .throttle
      writeMail (event s 0x5040 [region]) 0)

/-! ### Coolant, caps and HOLD (R319, R327, R340) -/

/-- COOLANT_VALUES_RECEIVED (R319, R426). -/
def execCoolantValuesReceived (inlet : Int) (flow : Nat) (s : State) : Outcome State Fault Refusal :=
  .next (if governs s then { s with heel.inlet := inlet, heel.flow := flow, heel.stale := false } else s)

/-- COOLANT_STALE (R319): 45.0 °C and the model's least flow are used; the event is recorded once. -/
def execCoolantStale (s : State) : Outcome State Fault Refusal :=
  .next (if s.heel.stale ∨ !governs s then s else event { s with heel.stale := true } 0x5033)

/-- CAP_UPDATE (R327, R328): the Cobbler's caps apply from the next period. -/
def execCapUpdate (powerCap paceCap : Nat) (s : State) : Outcome State Fault Refusal :=
  .next (
    if s.dev.state = .off ∨ powerCap < 150 ∨ 900 < powerCap ∨ 32 < paceCap then s
    else { s with heel.orders := s.heel.orders ++ [(64, .powerCap powerCap), (64, .paceCap paceCap)] })

/-- Whether HOLD turns the device state into HELD (Table 16.2). -/
def holdable (d : DevState) : Bool := [DevState.ready, .loaded, .running, .draining].contains d

/-- COBBLER_HOLD (R340, Table 16.2). -/
def execCobblerHold (s : State) : Outcome State Fault Refusal :=
  .next (
    if s.dev.held ∨ s.dev.state = .off then s
    else
      let s := event (holdTiles { s with dev.held := true } .cobbler) 0x5050
      if holdable s.dev.state then { s with dev.under := s.dev.state, dev.state := .held } else s)

/-- COBBLER_HOLD_RELEASE (R340, Table 16.2): what waited on the insole goes on. -/
def execCobblerHoldRelease (s : State) : Outcome State Fault Refusal :=
  .next (
    if !s.dev.held then s
    else
      let s := event (freeTiles { s with dev.held := false } .cobbler) 0x5051
      resumeDeferred (if s.dev.state = .held then { s with dev.state := s.dev.under } else s))

end Sys2Proof.Machine
end

