-- ==== Sys2Proof/Machine/Records.lean ====
section
/-! DEFINITION. The records of the chip that survive in sled flash, and the sled log partition (19.5, R484). -/
namespace Sys2Proof.Machine

/-- Bytes of the sled log partition (R484). -/
def partition : Nat := 2 ^ 32
/-- 24 h in 1/16 ns. -/
def dayTicks : Nat := 86400000 * msTicks
/-- The bytes written at which the partition reaches 80 % of its 3,000 rated cycles (R484). -/
def wearLimit : Nat := 2400 * partition

/-- Count `n` bytes written to the partition; FLASH_WEAR when it reaches 80 % of its rated cycles (R484). -/
def countFlash (s : State) (n : Nat) : State :=
  let fresh := decide (s.cob.logDay + dayTicks ≤ s.now)
  let t := { s with
    cob.logged := s.cob.logged + n
    cob.logDay := if fresh then s.now else s.cob.logDay
    cob.logToday := (if fresh then 0 else s.cob.logToday) + n }
  if s.cob.logged < wearLimit ∧ wearLimit ≤ s.cob.logged + n then sledEvent t 0x6050 [] else t

/-- Whether the 24 h budget of the partition is spent (R484). -/
def logSpent (s : State) : Bool := decide (partition ≤ s.cob.logToday ∧ s.now < s.cob.logDay + dayTicks)

/-- The chip's record of a kind as it stands (R477). -/
def chipRecord (s : State) (kind : Nat) : ChipRecord :=
  match kind with
  | 0 => .tiles s.mem.tiles
  | 1 => .map s.mem.retired
  | 2 => .masks (s.eyelets.map (·.laneRetire))
  | _ => .faults s.host.faultLog

/-- The bytes of a record (Tables 19.4, 19.5, 7.4; a mask is a byte). -/
def recordSize : ChipRecord → Nat
  | .tiles xs => 16 * xs.length
  | .map xs => 16 * xs.length
  | .masks xs => xs.length
  | .faults xs => 64 * xs.length

/-- The chip's flash record of a kind. -/
def flashOf (s : State) (kind : Nat) : Option FlashRecord :=
  s.cob.flash.find? (fun f => decide (f.serial = s.dev.serial ∧ f.kind = kind))

/-- Write a record into the copy that is not the newest (R477). -/
def FlashRecord.write (f : FlashRecord) (x : ChipRecord) : FlashRecord :=
  { f with copies := setAt f.copies (1 - f.newest) (some x), newest := 1 - f.newest }

/-- The record that a flash record's newer copy holds. -/
def FlashRecord.newer (f : FlashRecord) : Option ChipRecord := f.copies.getD f.newest none

/-- Write the chip's record of a kind where it has changed (R477). -/
def writeRecord (s : State) (kind : Nat) : State :=
  let x := chipRecord s kind
  let old := (flashOf s kind).getD { serial := s.dev.serial, kind, copies := [none, none], newest := 1 }
  if old.newer = some x then s
  else
    let keep := s.cob.flash.filter (fun f => !decide (f.serial = s.dev.serial ∧ f.kind = kind))
    countFlash { s with cob.flash := keep ++ [old.write x] } (recordSize x)

/-- The four records. -/
def writeRecords (s : State) : State := [0, 1, 2, 3].foldl writeRecord s

/-- The entries that a spent budget lets through: the first of each code, and every sled event and fault record; then the
number suppressed (R484). -/
def thinned : List Nat → List (List Byte) → List (List Byte) × Nat
  | _, [] => ([], 0)
  | seen, e :: es =>
    let code := leAt e 0 2
    if seen.contains code ∧ !decide (0x3001 ≤ code ∧ code ≤ 0x3011) ∧ code / 4096 ≠ 6 then
      let x := thinned seen es
      (x.1, x.2 + 1)
    else
      let x := thinned (code :: seen) es
      (e :: x.1, x.2)

/-- The chip's logs go to sled flash at a power stop (R424, R477, R484). -/
def flushChip (s : State) : State :=
  let s := writeRecords s
  let es := s.host.eventLog.flatMap eventEntries
  if logSpent s then
    let x := thinned [] es
    sledEvent (countFlash { s with cob.sledLog := s.cob.sledLog ++ x.1 } (64 * x.1.length)) 0x6051 [x.2]
  else countFlash { s with cob.sledLog := s.cob.sledLog ++ es } (64 * es.length)

/-- HEALTH_RECORD_WRITE (R477): changed records are written to sled flash within 1 s of the change. -/
def execHealthRecordWrite (s : State) : Host.Outcome State Fault Refusal :=
  .next (if s.dev.state = .off ∨ !s.cob.vaux then s else writeRecords s)

/-- The intact copy of a record that is restored: the newer one, else the other (R478). `damaged` lists the copies that
fail their CRC, copy `c` of record `kind` as 2 * kind + c. -/
def intactCopy (s : State) (kind : Nat) (damaged : List Nat) : Option ChipRecord :=
  (flashOf s kind).bind (fun f =>
    let good (c : Nat) : Option ChipRecord := if damaged.contains (2 * kind + c) then none else f.copies.getD c none
    match good f.newest with
    | some x => some x
    | none => good (1 - f.newest))

/-- A fault record with its WS at 0 (R478). -/
def faultRestored (b : List Byte) : List Byte := overlay b 16 (zeros 8)

/-- Put a restored record in force, its WS fields 0. -/
def restoreRecord (s : State) (x : ChipRecord) : State :=
  match x with
  | .tiles xs => { s with mem.tiles := xs.map (fun h => { h with wsChange := 0 }) }
  | .map xs => { s with mem.retired := xs }
  | .masks ms => { s with eyelets := s.eyelets.mapIdx (fun k e => { e with laneRetire := ms.getD k 0 }) }
  | .faults fs => { s with host.faultLog := fs.map faultRestored }

/-- The records restored during COLD after power-up (R478): those with no intact copy stay at the factory's. A sled whose
flash holds no record yet is a new one. -/
def restoreRecords (s : State) (damaged : List Nat) : State :=
  let xs := [0, 1, 2, 3].map (fun k => intactCopy s k damaged)
  let s' := (xs.filterMap id).foldl restoreRecord s
  if xs.all Option.isSome ∨ s.cob.flash.isEmpty then s' else event s' 0x4030

end Sys2Proof.Machine
end

