-- ==== Sys2Proof/Machine/Device.lean ====
section
/-! DEFINITION. The life of the device: lock, COLD, resets, device faults, loss of the reference, power stops, low-power idle
and wake (02, 16.1, 16.6, 17.4.3, 19). -/
namespace Sys2Proof.Machine
open Host

/-! ### Start (R26, R42, R43, R475, R478, R486) -/

/-- GENERATOR_LOCK (R26): at cold start the twenty generators lock at pace code 0, and wall stitch 0 begins. -/
def execGeneratorLock (s : State) : Outcome State Fault Refusal :=
  .next (
    if s.dev.state = .cold ∧ !s.clk.locked ∧ !s.clk.holdover then
      { s with clk := { s.clk with ws := 0, locked := true, pace := 0, oldPace := 0, slewLeft := 0 } }
    else s)

/-- Every byte of the insoles and of HBM is 0 with valid check bits (R512). -/
def clearMemories (s : State) : State :=
  { s with mem.insole := [], mem.hbm := [], mem.insoleBad := [], mem.hbmBad := [], mem.tacks := [], mem.tackWaits := [] }

/-- The eyelets that the Cobbler releases again after a conventional reset, and its event (R393). -/
def releaseAgain (s : State) : State :=
  let mask := s.cob.released.getD s.position 0
  let t := applyReleases s
  if s.dev.warm ∧ s.dev.coordValid ∧ mask ≠ 0 then sledEvent t 0x6040 [s.position, mask] else t

/-- COLD_COMPLETE (R42, R43, R475, R478, R486, R512): `xlat` are the eighty calibrated latencies, `firmware` the version of
the image that verifies (none where neither does), `damaged` the flash copies that fail their CRC. -/
def execColdComplete (xlat : List Nat) (firmware : Option Nat) (damaged : List Nat) (s : State) : Outcome State Fault Refusal :=
  .next (
    if s.dev.state ≠ .cold ∨ !s.clk.locked ∨ xlat.length ≠ 80 then s
    else
      let s := { s with clk.xlat := xlat }
      match xlat.findIdx? (fun n => decide (6 < n)), firmware with
      | some i, _ => event { s with dev.state := .faulted, dev.calFault := true } 0x5004 [i]
      | none, none => event { s with dev.state := .faulted, dev.calFault := false } 0x1070
      | none, some v =>
        let s := clearMemories (if s.dev.warm then s else restoreRecords s damaged)
        let s := releaseAgain { s with dev.state := .setup, dev.under := .setup, dev.calFault := false, dev.fwVersion := v }
        { s with dev.warm := false })

/-! ### Resets and device faults (R392, R393, R497, R511) -/

/-- Every job ends: what waits on it completes with INTERNAL, and the lacing's eyelets go DOWN with DOWN_NOTICE (R392). -/
def endEveryJob (s : State) : State :=
  match s.job with
  | none => s
  | some j =>
    let ks := lacingEyelets s
    let s := j.requests.foldl (failRequest stInternal 0) s
    let s := (j.barrier.startDesc.toList ++ j.drainDescs ++ j.ckptDescs.map (fun c => (c.ring, c.slot))).foldl
      (fun s d => complete s d.1 d.2 stInternal 0) s
    let s := { dropWork s with job := none }
    ks.foldl (fun s k => if (s.eyelet k).state = .up then takeDown s k 0x02 true .down else s) s

/-- The counts of an eyelet at their "At reset" values (Table 20.7). -/
def clearCounts (e : Eyelet) : Eyelet := { e with violations := 0, trainings := 0, uncorrected := 0, resends := 0 }

/-- The registers after a reset: locks and policy as R511 keeps them where `keepLocks`, all else at reset (R497). -/
def regsAfter (r : Regs) (keepLocks : Bool) : Regs :=
  { Regs.fresh with
    debugLock := keepLocks && r.debugLock
    policyLock := keepLocks && r.policyLock
    requireSigned := keepLocks && r.policyLock && r.requireSigned }

/-- The host side after a reset: the function in D0 with Bus Master Enable 0, every ring disabled, the error registers 0;
logs and EVENT_SEQ kept (R497, Tables 20.6 and 20.12). -/
def hostAfter (h : HostIf) : HostIf :=
  { HostIf.fresh with out := h.out, nextSeq := h.nextSeq, eventLog := h.eventLog, faultLog := h.faultLog,
                      faultIndex := h.faultIndex }

/-- The heel after a reset: host values and what it reports at reset; the rails, the Cobbler's caps, the throttle and the
period count go on. -/
def heelAfter (h : Heel) : Heel :=
  { Heel.fresh with periods := h.periods, rails := h.rails, throttle := h.throttle, coolPeriods := h.coolPeriods,
                    powerCap := h.powerCap, paceCap := h.paceCap, inlet := h.inlet, flow := h.flow, stale := h.stale,
                    orders := h.orders.filter (fun o => decide (o.1 = 64)) }

/-- What a function-level reset does (R392, R471, R497): every job, last and descriptor ends, tacks are 0, registers are at
reset; memories, records, calibration and WS are kept. -/
def resetFunction (s : State) (keepLocks : Bool) : State :=
  let s := applyPendingTiles (endEveryJob s)
  let s := (List.range 64).foldl (fun s r =>
    ((s.ring r).running.map (·.slot)).foldl (fun s slot => complete s r slot stInternal 0) s) s
  let s := (List.range s.dev.wakes).foldl (fun s _ => wakeAnswer s 1) s
  { s with
    dev.wakes := 0
    lasts := []
    mem.tacks := []
    mem.tackWaits := []
    regs := regsAfter s.regs keepLocks
    host := hostAfter s.host
    eyelets := s.eyelets.map clearCounts
    svc := { s.svc with txns := [], waiting := [], xfers := [], banks := [none, none], activeBank := 0,
                        blocked := List.replicate 34 0, recentMap := freshMap, previousMap := freshMap }
    heel := heelAfter s.heel
    shank := { s.shank with loading := [], batch := none }
    held := []
    ready := []
    clk.regions := s.clk.regions.map (fun g => { g with js := 0 }) }

/-- FUNCTION_LEVEL_RESET (R392, Table 16.2): FAULTED by calibration stays FAULTED. In COLD the function answers no
configuration request (R391, R486). -/
def execFunctionLevelReset (s : State) : Outcome State Fault Refusal :=
  .next (
    if !barAlive s then s
    else
      let t := resetFunction s true
      if s.dev.state = .faulted ∧ s.dev.calFault then t
      else { t with dev.state := .setup, dev.under := .setup })

/-- CONVENTIONAL_RESET (R393): DOWN_NOTICE on every UP eyelet, every eyelet HELD, and COLD again. -/
def execConventionalReset (s : State) : Outcome State Fault Refusal :=
  .next (
    if s.dev.state = .off then s
    else
      let s := { s with dev.warm := s.dev.warm || decide (s.dev.state ≠ .cold) }
      let s := resetFunction s false
      let s := (List.range 16).foldl (fun s k => takeDown s k 0x02 true .held) s
      { s with
        dev.state := .cold
        dev.under := .cold
        dev.calFault := false
        heel := { s.heel with rails := Heel.fresh.rails }
        eyelets := s.eyelets.map (fun e => { Eyelet.fresh with laneRetire := e.laneRetire, out := e.out }) })

/-- DEVICE_FAULT (Table 16.2): every job ends as under a function-level reset, and the device is FAULTED. -/
def execDeviceFault (cause : Nat) (s : State) : Outcome State Fault Refusal :=
  .next (
    if !barAlive s then s
    else
      let s := endEveryJob s
      let s := (List.range s.dev.wakes).foldl (fun s _ => wakeAnswer s 1) s
      event { s with dev.wakes := 0, dev.state := .faulted, dev.calFault := false } 0x1071 [cause])

/-! ### The reference (R28) -/

/-- REFERENCE_LOST (R28, Table 10.4): holdover, and every eyelet that is not HELD goes DOWN. -/
def execReferenceLost (s : State) : Outcome State Fault Refusal :=
  .next (
    if !s.clk.locked then s
    else
      let s := event { s with clk.locked := false, clk.holdover := true } 0x5001
      (List.range 16).foldl (fun s k => if (s.eyelet k).state = .held then s else takeDown s k 0x02 false .down) s)

/-- REFERENCE_RELOCK (R28). -/
def execReferenceRelock (s : State) : Outcome State Fault Refusal :=
  .next (if s.clk.holdover then event { s with clk.locked := true, clk.holdover := false } 0x5002 else s)

/-! ### Power stop (R424, R410) -/

/-- What was read and does not wait on a running job completes with POWER_ABORT (R424); JOB_START and JOB_CHECKPOINT of a
job that stops, and its requests, end with it (Table 16.10). -/
def abortDescs (s : State) : State :=
  let stops : Bool := match s.job with | some j => stoppable j | none => false
  let s := if stops then s else
    match s.job with | some j => j.requests.foldl (failRequest stPowerAbort 0) s | none => s
  let s := (List.range 64).foldl (fun s r =>
    (((s.ring r).running.filter (fun o => !(stops && [0x21, 0x24, 0x80].contains o.opcode))).map (·.slot)).foldl
      (fun s slot => complete s r slot stPowerAbort 0) s) s
  setJob
    { s with held := [], ready := [], svc.xfers := [], shank.batch := none, shank.loading := []
             mem.tackWaits := (s.mem.tackWaits.map (fun w => (w.1, w.2.filter (fun x => decide (x.1 = 1))))).filter (fun w => !w.2.isEmpty) }
    (fun j => { j with drainDescs := [], ckptDescs := if stops then j.ckptDescs else [] })

/-- POWER_STOP (R424): the tile regions are throttled from the next stitch boundary; a running job stops at its next step
boundary, one that is starting at once; descriptors end. -/
def execPowerStop (s : State) : Outcome State Fault Refusal :=
  .next (
    if s.dev.state = .off ∨ s.dev.stopOrdered.isSome then s
    else
      let s := abortDescs (holdTiles { s with dev.stopOrdered := some s.now } .throttle)
      match s.job with
      | some j => if j.state = .starting then stopJob s stPowerAbort else s
      | none => s)

/-- POWER_STOP_TIMEOUT (R424): 200 ms after the order the job stops at its last completed step boundary. -/
def execPowerStopTimeout (s : State) : Outcome State Fault Refusal :=
  .next (if s.dev.stopOrdered.isSome ∧ jobRuns s then stopJob s stPowerAbort else s)

/-! ### Low-power idle and wake (R391, R407 to R409) -/

/-- The other fields of a PowerState write: PME_En is bit 8, and a 1 in bit 15 clears PME_Status (R408, R409; the places are
the PCIe Base Specification's, log entry 10). -/
def writePmcsr (s : State) (pmcsr : Nat) : State :=
  { s with host.pmeEn := bitOf pmcsr 8, host.pmeStatus := s.host.pmeStatus && !bitOf pmcsr 15 }

/-- The function enters D3hot; SETUP, READY and LOADED become IDLE_LP at pace code 0 (R407, Table 16.2). -/
def enterD3hot (s : State) : State :=
  let s := { s with host.d3hot := true }
  if [DevState.setup, .ready, .loaded].contains s.dev.state then
    orderPace { s with dev.under := s.dev.state, dev.state := .idleLp } 0
  else s

/-- The function returns to D0 with its state retained (R407); a pending wake is superseded (R409). -/
def enterD0 (s : State) : State :=
  let s := { s with host.d3hot := false }
  let s := if s.dev.wakes = 0 then s
    else (List.range s.dev.wakes).foldl (fun s _ => wakeAnswer s 3) { event s 0x1061 with dev.wakes := 0 }
  let s := if s.dev.state = .idleLp then
      (let t := { s with dev.state := s.dev.under }
       if jobLive t then t else orderPace t (outsidePace t))
    else s
  reopenHost s

/-- POWERSTATE_D3HOT (R391, R407, Table 16.2): PMCSR is written with PowerState D3hot. In COLD no write takes effect. -/
def execPowerstateD3hot (pmcsr : Nat) (s : State) : Outcome State Fault Refusal :=
  .next (
    if !barAlive s then s
    else if s.host.d3hot then writePmcsr s pmcsr
    else enterD3hot (writePmcsr s pmcsr))

/-- POWERSTATE_D0 (R407, R409): PMCSR is written with PowerState D0. -/
def execPowerstateD0 (pmcsr : Nat) (s : State) : Outcome State Fault Refusal :=
  .next (
    if !barAlive s then s
    else if s.host.d3hot then enterD0 (writePmcsr s pmcsr)
    else writePmcsr s pmcsr)

/-- WAKE_ORDER (R408): NOT_IDLE, DISABLED, or the ramp begins and the wake is pending. -/
def execWakeOrder (_source : Nat) (s : State) : Outcome State Fault Refusal :=
  .next (
    if s.dev.state = .off then s
    else if s.dev.state ≠ .idleLp then wakeAnswer s 1
    else if !s.host.pmeEn then wakeAnswer s 2
    else orderPace { s with dev.wakes := s.dev.wakes + 1 } (outsidePace s))

/-- PME_SENT (R408): the ramp has ended; PME_Status, PM_PME, the event, and WOKEN to every order that waits. -/
def execPmeSent (s : State) : Outcome State Fault Refusal :=
  .next (
    if s.dev.wakes = 0 ∨ s.dev.state ≠ .idleLp then s
    else
      let n := s.dev.wakes
      let s := { s with dev.wakes := 0, host.pmeStatus := true, host.out := s.host.out ++ [.pme] }
      (List.range n).foldl (fun s _ => wakeAnswer s 0) (event s 0x1060))

end Sys2Proof.Machine
end

