-- ==== Sys2Proof/Machine/Sled.lean ====
section
/-! DEFINITION. The sled: power, hold-up cell, cooling, and the Apbel requests (17, 19.4). -/
namespace Sys2Proof.Machine
open Host

/-! ### Insertion and removal -/

/-- The cell stands below V_full and is charged from main power (R417). -/
def toCharge (c : Cell) : Bool := c.present && !c.isolated && decide (c.volts < 5000)

/-- SLED_INSERTION (R413): P1 mates, the sled precharges; VAUX_33 is up and the Cobbler has yet to boot. -/
def execSledInsertion (s : State) : Outcome State Fault Refusal :=
  .next (if s.cob.seated then s
    else { s with cob.seated := true, cob.precharged := true, cob.booted := false, cob.vaux := true,
                  cob.mainPresent := true, cob.onCell := false, cob.commitAt := none, cob.identified := false,
                  cob.swapLamp := false, cob.cell.charging := toCharge s.cob.cell,
                  cob.chips := List.replicate 4 { rail := 1, starting := false, stopAt := none } })

/-- PRESENCE_BREAK (R414): every J12 loses power. -/
def execPresenceBreak (s : State) : Outcome State Fault Refusal :=
  .next (if s.cob.seated then positions.foldl powerOff { s with cob.seated := false, cob.precharged := false,
                                                                   cob.checking := false, cob.powerWhenReady := false }
    else s)

/-- COBBLER_BOOT (R413, R442 steps 4 and 5): SLED_PRESENT, and unless the leak latch holds, the valves open for the check. -/
def execCobblerBoot (s : State) : Outcome State Fault Refusal :=
  .next (if s.cob.seated && s.cob.precharged && s.cob.vaux && !s.cob.booted then
      let s := { s with cob.booted := true, cob.restarting := false }
      let s := sendApbel s .allNodes (apbelMsg 0x42 false 0 0 (padTo 16 s.cob.serial))
      if s.cob.leakLatched then s else { moveValves s true with cob.checking := true }
    else s)

/-- FLOW_LEAK_CHECK_END (R442 steps 5 and 6): a good check powers the chips once the cell is at V_start; a fault closes
the valves. After a commit the chips wait for SLED_RESTART (R422). -/
def execFlowLeakCheckEnd (ok : Bool) (s : State) : Outcome State Fault Refusal :=
  .next (if s.cob.checking then
      let s := { s with cob.checking := false }
      if !ok then moveValves s false
      else if s.cob.latched then s
      else if s.cob.cell.ready then positions.foldl powerOn s
      else { s with cob.powerWhenReady := true }
    else s)

/-- RAIL_GOOD (R415): the next rail of Table 17.1 starts; after VC0 to VC3 the reference is enabled, the chip enters
COLD (Table 16.2) and is sent the caps and HOLD in force. -/
def execRailGood (position : Nat) (s : State) : Outcome State Fault Refusal :=
  .next (let c := chipAt s position
    if !c.starting then s
    else if c.rail + 1 < 7 then
      { s with cob.chips := setAt s.cob.chips position { c with rail := c.rail + 1 } }
    else
      let s := { s with cob.chips := setAt s.cob.chips position { rail := 8, starting := false, stopAt := none } }
      sendInForce (if position = s.position then { s with dev.state := .cold } else s) position)

/-- RAIL_FAULT (R416): that J12 alone is powered down; `rail` is its order in Table 17.1. -/
def execRailFault (position rail : Nat) (s : State) : Outcome State Fault Refusal :=
  .next (let c := chipAt s position
    if (c.starting || chipOn s position) && decide (2 ≤ rail ∧ rail ≤ 7) then
      sledEvent (powerOff s position) 0x6010 [position, rail]
    else s)

/-! ### The hold-up cell -/

/-- MAIN_LOST (R420, R423): ride-through from the cell, or an uncontrolled stop where the cell is absent or below
V_commit. -/
def execMainLost (centivolts : Nat) (s : State) : Outcome State Fault Refusal :=
  .next (if !s.cob.mainPresent then s
    else
      let c := s.cob.cell
      let s := { s with cob.mainPresent := false, cob.mainVolts := centivolts }
      if c.present && !c.isolated && decide (4550 ≤ c.volts) then
        sledEvent { s with cob.onCell := true, cob.rideFrom := s.now } 0x6001 [centivolts]
      else
        let s := sledEvent { s with cob.latched := true } 0x6003 [if c.present then c.volts else 0, 1]
        positions.foldl powerOff s)

/-- The cell falls below V_start: no ride-through (R418). -/
def noRide (s : State) : State :=
  if s.cob.cell.ready && decide (s.cob.cell.volts < 4800) then
    sledEvent { s with cob.cell.ready := false } 0x6005 [2]
  else s

/-- CELL_SAMPLE (R421, R422): on the cell, V_commit latches shutdown whatever main power does; otherwise 5 ms of stable
main power (`mainUs`) ends the ride-through. -/
def execCellSample (centivolts mainUs : Nat) (s : State) : Outcome State Fault Refusal :=
  .next (if !s.cob.cell.present || s.cob.cell.isolated then s
    else
      let s := noRide { s with cob.cell.volts := centivolts }
      if !s.cob.onCell || s.cob.latched then s
      else if centivolts ≤ 4550 then
        powerStopAll (sledEvent { s with cob.latched := true, cob.commitAt := some s.now, cob.stopped := 0 } 0x6003 [centivolts, 0])
      else if 5000 ≤ mainUs then
        let s := { s with cob.onCell := false, cob.mainPresent := true, cob.cell.charging := toCharge s.cob.cell }
        sendCaps (sledEvent s 0x6002 [(s.now - s.cob.rideFrom) / 16000, centivolts])
      else s)

/-- POWER_REMOVAL (R424): the chip has flushed its logs and `reported` stopped, or 240 ms have passed; its power goes. The last one of a commit
is STOP_DONE. -/
def execPowerRemoval (position : Nat) (reported : Bool) (s : State) : Outcome State Fault Refusal :=
  .next (match (chipAt s position).stopAt with
    | none => s
    | some t =>
      if reported || decide (t + 240 * msTicks ≤ s.now) then
        let s := powerOff (if reported ∧ position = s.position then flushChip s else s) position
        match s.cob.commitAt with
        | none => s
        | some t0 =>
          let s := { s with cob.stopped := s.cob.stopped + bit01 reported * 2 ^ position }
          if poweredMask s = 0 then
            sledEvent { s with cob.commitAt := none } 0x6004 [(s.now - t0) / 16000, s.cob.stopped]
          else s
      else s)

/-- SLED_RESTART (R422): after a commit, with main power stable for 200 ms and the cell at V_start, the J12s start. A
latched leak (R427) or an insertion check under way keeps them off. -/
def execSledRestart (s : State) : Outcome State Fault Refusal :=
  .next (if s.cob.latched && decide (poweredMask s = 0) && s.cob.seated && s.cob.cell.present
        && decide (4800 ≤ s.cob.cell.volts) then
      let s := { s with cob.latched := false, cob.onCell := false, cob.mainPresent := true, cob.commitAt := none,
                        cob.powerWhenReady := false, cob.cell.charging := toCharge s.cob.cell }
      if s.cob.leakLatched || s.cob.checking then s else positions.foldl powerOn s
    else s)

/-- CELL_READY (R417, R442 step 6). -/
def execCellReady (s : State) : Outcome State Fault Refusal :=
  .next (let c := s.cob.cell
    if c.present && !c.isolated && !c.ready then
      let s := sledEvent { s with cob.cell := { c with ready := true, volts := max c.volts 4800 } } 0x6008 [max c.volts 4800]
      if s.cob.powerWhenReady && !keptOff s then positions.foldl powerOn { s with cob.powerWhenReady := false } else s
    else s)

/-- CELL_FULL (R417): the protective cap for charging is lifted. -/
def execCellFull (s : State) : Outcome State Fault Refusal :=
  .next (if s.cob.cell.charging then sendCaps { s with cob.cell.charging := false, cob.cell.volts := 5000 } else s)

/-- CELL_INSERTED (R443 step 3). -/
def execCellInserted (centivolts : Nat) (s : State) : Outcome State Fault Refusal :=
  .next (if s.cob.cell.present && !s.cob.cell.isolated then s
    else
      let s := { s with cob.cell := { present := true, isolated := false, volts := centivolts,
                                      farads := s.cob.cell.farads, ready := false, charging := true } }
      sendCaps (sledEvent s 0x6006 [centivolts]))

/-- CELL_CAPACITANCE_CHECK (R444). -/
def execCellCapacitanceCheck (millifarads : Nat) (s : State) : Outcome State Fault Refusal :=
  .next (if s.cob.cell.present && !s.cob.cell.isolated then
      let s := { s with cob.cell.farads := millifarads }
      if millifarads < 320 then sledEvent s 0x6007 [millifarads] else s
    else s)

/-! ### Cooling -/

/-- COOLANT_UPDATE (R426): the readings, the leak zones `wet` among them; inlet and flow go to each J12. -/
def execCoolantUpdate (inlet outlet : Int) (flow wet : Nat) (s : State) : Outcome State Fault Refusal :=
  .next (positions.foldl (orderChip (.coolant inlet flow))
    { s with cob.inlet := inlet, cob.outlet := outlet, cob.flow := flow, cob.wet := wet % 4 })

/-- Whether the readings show a condition of Table 17.4: 1 inlet above 45.0, 2 inlet above 50.0 or outlet above 60.0,
3 flow below 8.0, 4 flow below 4.0, 5 the same for 10 s more. -/
def conditionHolds (s : State) (c : Nat) : Bool :=
  match c with
  | 1 => decide (450 < s.cob.inlet)
  | 2 => decide (500 < s.cob.inlet ∨ 600 < s.cob.outlet)
  | 3 => decide (s.cob.flow < 800)
  | 4 => decide (s.cob.flow < 400)
  | 5 => decide (s.cob.flow < 400) && inForce s 4
  | _ => false

/-- COOLANT_CONDITION (R426): the condition has lasted its time. -/
def execCoolantCondition (condition : Nat) (s : State) : Outcome State Fault Refusal :=
  .next (if conditionHolds s condition && !inForce s condition then
      let t := { s with cob.conditions := s.cob.conditions ++ [condition] }
      let t := if condition ≤ 2 then sledEvent t 0x6020 [slotOf t.cob.inlet, slotOf t.cob.outlet]
        else if condition ≤ 4 then sledEvent t 0x6021 [t.cob.flow] else t
      if condition = 5 then powerStopAll t else sendHolds s (sendCaps t)
    else s)

/-- COOLANT_CONDITION_CLEAR (R426): absent for 10 s, its cap or HOLD is lifted. -/
def execCoolantConditionClear (condition : Nat) (s : State) : Outcome State Fault Refusal :=
  .next (if inForce s condition && !conditionHolds s condition then
      sendHolds s (sendCaps { s with cob.conditions := s.cob.conditions.filter (fun c => decide (c ≠ condition)) })
    else s)

/-- LEAK (R426): `zone` is the mask of the zones wet for 100 ms. -/
def execLeak (zone : Nat) (s : State) : Outcome State Fault Refusal :=
  .next (if zone % 4 = 0 then s else leakResponse { s with cob.wet := zone % 4 } (zone % 4) false)

/-! ### Firmware -/

/-- The image that is not running. -/
def otherImage (s : State) : Nat := 1 - s.cob.running

/-- FW_ROLLBACK (R436): the new image is not healthy within 30 s; the Cobbler restarts from the previous one. -/
def execFwRollback (s : State) : Outcome State Fault Refusal :=
  .next (match s.cob.newFrom with
    | none => s
    | some _ =>
      let img := otherImage s
      sledEvent { s with cob.running := img, cob.newFrom := none, cob.restarting := true } 0x6031
        [img, s.cob.versions.getD img 0])

/-- COBBLER_RESTART_COMPLETE (R437): replies resume and the events held meanwhile are sent (R440, R459). -/
def execCobblerRestartComplete (healthy : Bool) (s : State) : Outcome State Fault Refusal :=
  .next (if s.cob.restarting then
      let s := { s with cob.restarting := false, cob.newFrom := if healthy then none else s.cob.newFrom }
      if s.cob.identified then
        let s := s.cob.events.foldl (fun s e => sendApbel s .manager (apbelMsg 0x40 false 0 e.seq e.entry)) s
        { s with cob.events := s.cob.events.map (fun e => { e with sentAt := s.now }) }
      else s
    else s)

/-! ### Messages of the Cobbler's own -/

/-- EVENT_RESEND (R440). -/
def execEventResend (seq : Nat) (s : State) : Outcome State Fault Refusal :=
  .next (match s.cob.events.find? (fun e => decide (e.seq = seq)) with
    | none => s
    | some e =>
      if cobAnswers s && s.cob.identified && decide (e.sentAt + 1000 * msTicks ≤ s.now) then
        sendApbel { s with cob.events := s.cob.events.map (fun x => if x.seq = seq then { x with sentAt := s.now } else x) }
          .manager (apbelMsg 0x40 false 0 seq e.entry)
      else s)

/-- SLED_PRESENT (R440). -/
def execSledPresent (s : State) : Outcome State Fault Refusal :=
  .next (if cobAnswers s && !s.cob.identified then
      sendApbel s .allNodes (apbelMsg 0x42 false 0 0 (padTo 16 s.cob.serial)) else s)

/-! ### Requests -/

/-- The device state a position reports: the modelled chip's, 0 without power, another chip's free (log entry 11). -/
def reportedState (s : State) (p : Nat) : Nat :=
  if !chipOn s p then 0 else if p = s.position then s.dev.state.code else freshFree s p % 10

/-- Ride-through is available (R418). -/
def rideThrough (s : State) : Bool := s.cob.cell.present && !s.cob.cell.isolated && s.cob.cell.ready

/-- IDENTIFY (R440, Table 17.10): the sender becomes the destination of events. -/
def execIdentify (src : Nat) (msg : List Byte) (s : State) : Outcome State Fault Refusal :=
  .next (onRequest s src 0x01 msg (fun s b _ =>
    if !b.isEmpty then refusedWith s apBadMessage
    else
      let c := s.cob.cell
      let body := padTo 16 s.cob.serial ++ [byteOf s.cob.running] ++ s.cob.versions.flatMap (leBytes 4)
        ++ [byteOf (poweredMask s)] ++ positions.map (fun p => byteOf (reportedState s p))
        ++ [byteOf (bit01 c.present)] ++ leBytes 2 c.volts ++ [byteOf (bit01 (rideThrough s))]
      accepted (bumpFree { s with cob.identified := true }) body))

/-- SET_ADDRESS (R438). -/
def execSetAddress (src : Nat) (msg : List Byte) (s : State) : Outcome State Fault Refusal :=
  .next (onRequest s src 0x02 msg (fun s b _ =>
    if b.length ≠ 16 then refusedWith s apBadMessage else accepted { s with cob.address := b }))

/-- SET_COORD (R434): coordinates and pod shape of the sled's chips; BAD_STATE if a chip is not powered. -/
def execSetCoord (src : Nat) (msg : List Byte) (s : State) : Outcome State Fault Refusal :=
  .next (onRequest s src 0x03 msg (fun s b _ =>
    let shape : Coord := ⟨leAt b 8 1, leAt b 9 1, leAt b 10 1⟩
    if b.length ≠ 11 || !shapeOk shape || positions.any (fun p => !inShape shape (Coord.ofField (leAt b (2 * p) 2)))
    then refusedWith s apBadMessage
    else if poweredMask s ≠ 15 then refusedWith s apBadState
    else
      accepted (applyReleases { s with
        cob.coords := positions.map (fun p => some (leAt b (2 * p) 2 % 2 ^ 14))
        cob.shape := [shape.x, shape.y, shape.z]
        dev.coord := leAt b (2 * s.position) 2 % 2 ^ 14
        dev.coordValid := true
        dev.shape := [shape.x, shape.y, shape.z] })))

/-- Hold the eyelets of a mask on this chip, with DOWN_NOTICE where UP (Table 10.4, R434). -/
def holdEyelets (s : State) (mask : Nat) : State :=
  (List.range 16).foldl (fun s k => if bitOf mask k then takeDown s k 0x02 true .held else s) s

/-- The states of the sixteen eyelets of a position: this chip's own, a neighbour chip's as free values (log entry 11). -/
def eyeletStates (s : State) (p : Nat) : List Byte :=
  (List.range 16).map (fun k =>
    if p = s.position then byteOf (s.eyelet k).state.code else byteOf (freshFree s (16 * p + k) % 9))

/-- EYELET_CTRL (R434): holds, then releases, the eyelets named on the chips named; the reply carries every state. -/
def execEyeletCtrl (src : Nat) (msg : List Byte) (s : State) : Outcome State Fault Refusal :=
  .next (onRequest s src 0x04 msg (fun s b _ =>
    let mask := leAt b 0 1
    let hold := leAt b 1 2
    let rel := leAt b 3 2
    if b.length ≠ 5 || decide (15 < mask) || decide (hold &&& rel ≠ 0) then refusedWith s apBadMessage
    else if positions.any (fun p => bitOf mask p && !chipOn s p) then refusedWith s apBadState
    else
      let s := { s with cob.released := positions.map (fun p =>
        let old := s.cob.released.getD p 0
        if bitOf mask p then (old ||| rel) - ((old ||| rel) &&& hold) else old) }
      let s := if bitOf mask s.position then applyReleases (holdEyelets s hold) else s
      accepted (bumpFree s) (positions.flatMap (eyeletStates s))))

/-- SWAP_PREPARE (Table 17.11 step 2): every eyelet held, the J12s without power, the valves closed, the indicator lit. -/
def execSwapPrepare (src : Nat) (msg : List Byte) (s : State) : Outcome State Fault Refusal :=
  .next (onRequest s src 0x0B msg (fun s b _ =>
    if b.length ≠ 0 then refusedWith s apBadMessage
    else
      let s := positions.foldl powerOff (holdEyelets s 0xFFFF)
      accepted { moveValves s false with cob.swapLamp := true, cob.checking := false, cob.powerWhenReady := false } [1]))

/-- A CHIPS mask (Table 17.10). -/
def chipsOk (n : Nat) : Bool := decide (n < 16)

/-- SET_CAPS (R435, R327): out of range is BAD_MESSAGE; above a protective cap it is accepted and combined (R441). -/
def execSetCaps (src : Nat) (msg : List Byte) (s : State) : Outcome State Fault Refusal :=
  .next (onRequest s src 0x05 msg (fun s b _ =>
    let power := leAt b 1 2
    let pace := leAt b 3 1
    if b.length ≠ 4 || !chipsOk (leAt b 0 1) || !decide (150 ≤ power ∧ power ≤ 900 ∧ pace ≤ 32)
    then refusedWith s apBadMessage
    else
      let t := { s with cob.setCaps := positions.map (fun p =>
        if bitOf (leAt b 0 1) p then (power, pace) else s.cob.setCaps.getD p (900, 32)) }
      let t := sendCaps t
      accepted t (positions.flatMap (fun p => leBytes 2 (effCaps t p).1 ++ [byteOf (effCaps t p).2]))))

/-- Set the pod manager's HOLD of the chips of a mask. -/
def pmHolds (s : State) (mask : Nat) (v : Bool) : List Bool :=
  positions.map (fun p => if bitOf mask p then v else s.cob.pmHold.getD p false)

/-- Whether a mask names a chip without power. -/
def namesOff (s : State) (mask : Nat) : Bool := positions.any (fun p => bitOf mask p && !chipOn s p)

/-- APBEL_HOLD (R340, Table 17.10): HOLD with value 1. -/
def execApbelHold (src : Nat) (msg : List Byte) (s : State) : Outcome State Fault Refusal :=
  .next (onRequest s src 0x06 msg (fun t b _ =>
    if b.length ≠ 2 || !chipsOk (leAt b 0 1) || !decide (leAt b 1 1 = 1) then refusedWith t apBadMessage
    else if namesOff t (leAt b 0 1) then refusedWith t apBadState
    else accepted (sendHolds t { t with cob.pmHold := pmHolds t (leAt b 0 1) true })))

/-- APBEL_RELEASE (R441): HOLD with value 0, refused while a coolant HOLD applies. -/
def execApbelRelease (src : Nat) (msg : List Byte) (s : State) : Outcome State Fault Refusal :=
  .next (onRequest s src 0x06 msg (fun t b _ =>
    if b.length ≠ 2 || !chipsOk (leAt b 0 1) || !decide (leAt b 1 1 = 0) then refusedWith t apBadMessage
    else if coolantHold t then refusedWith t apRefusedSafety
    else if namesOff t (leAt b 0 1) then refusedWith t apBadState
    else accepted (sendHolds t { t with cob.pmHold := pmHolds t (leAt b 0 1) false })))

/-- WAKE (R408): the reply waits for the answers. -/
def execWake (src : Nat) (msg : List Byte) (s : State) : Outcome State Fault Refusal :=
  .next (onRequest s src 0x07 msg (fun s b seq =>
    if b.length ≠ 1 || !chipsOk (leAt b 0 1) then refusedWith s apBadMessage
    else (orderWake s (some (src, seq)) 0 (leAt b 0 1), none)))

/-- SENSORS (Table 17.10); the input voltage and current are measurements that no command carries: free (log entry 11). -/
def execSensors (src : Nat) (msg : List Byte) (s : State) : Outcome State Fault Refusal :=
  .next (onRequest s src 0x08 msg (fun s b _ =>
    if !b.isEmpty then refusedWith s apBadMessage
    else
      accepted (bumpFree s) (leBytes 2 (freshFree s 0) ++ leBytes 2 (freshFree s 1) ++ leBytes 2 s.cob.cell.volts
        ++ leBytes 2 (fieldOf 16 s.cob.inlet) ++ leBytes 2 (fieldOf 16 s.cob.outlet) ++ leBytes 2 s.cob.flow
        ++ [byteOf s.cob.wet] ++ positions.map (fun p => byteOf (chipAt s p).rail))))

/-- CHIP_POWER_ON (R415, R441). -/
def execChipPowerOn (src : Nat) (msg : List Byte) (s : State) : Outcome State Fault Refusal :=
  .next (onRequest s src 0x09 msg (fun s b _ =>
    if b.length ≠ 2 || !chipsOk (leAt b 0 1) || !decide (leAt b 1 1 = 1) then refusedWith s apBadMessage
    else if keptOff s then refusedWith s apRefusedSafety
    else accepted ((positions.filter (bitOf (leAt b 0 1))).foldl powerOn s)))

/-- CHIP_POWER_OFF (R424). -/
def execChipPowerOff (src : Nat) (msg : List Byte) (s : State) : Outcome State Fault Refusal :=
  .next (onRequest s src 0x09 msg (fun s b _ =>
    if b.length ≠ 2 || !chipsOk (leAt b 0 1) || !decide (leAt b 1 1 = 0) then refusedWith s apBadMessage
    else accepted ((positions.filter (bitOf (leAt b 0 1))).foldl powerStopChip s)))

/-- SLED_POWER_ON (R441). -/
def execSledPowerOn (src : Nat) (msg : List Byte) (s : State) : Outcome State Fault Refusal :=
  .next (onRequest s src 0x0A msg (fun s b _ =>
    if b.length ≠ 1 || !decide (leAt b 0 1 = 1) then refusedWith s apBadMessage
    else if keptOff s then refusedWith s apRefusedSafety
    else accepted (positions.foldl powerOn s)))

/-- SLED_POWER_OFF (R424). -/
def execSledPowerOff (src : Nat) (msg : List Byte) (s : State) : Outcome State Fault Refusal :=
  .next (onRequest s src 0x0A msg (fun s b _ =>
    if b.length ≠ 1 || !decide (leAt b 0 1 = 0) then refusedWith s apBadMessage
    else accepted (powerStopAll s)))

/-- CELL_PREPARE (R443 step 1): the cell is isolated and discharged to below 1 V; refused while the sled runs on it (R441). -/
def execCellPrepare (src : Nat) (msg : List Byte) (s : State) : Outcome State Fault Refusal :=
  .next (onRequest s src 0x0C msg (fun s b _ =>
    if !b.isEmpty then refusedWith s apBadMessage
    else if s.cob.onCell then refusedWith s apRefusedSafety
    else
      let c := s.cob.cell
      let s := { s with cob.cell := { c with isolated := true, volts := min c.volts 99, ready := false, charging := false } }
      accepted (sendCaps (sledEvent s 0x6005 [1])) [1]))

/-- CLEAR_LEAK (R427): only while both zones read dry; the sled goes on as from insertion, step 5. -/
def execClearLeak (src : Nat) (msg : List Byte) (s : State) : Outcome State Fault Refusal :=
  .next (onRequest s src 0x0D msg (fun s b _ =>
    if !b.isEmpty then refusedWith s apBadMessage
    else if s.cob.wet ≠ 0 then refusedWith s apRefusedSafety
    else if !s.cob.leakLatched then accepted s
    else accepted { moveValves { s with cob.leakLatched := false } true with cob.checking := true }))

/-- FW_WRITE (R436): only the image that is not running is written. -/
def execFwWrite (src : Nat) (msg : List Byte) (s : State) : Outcome State Fault Refusal :=
  .next (onRequest s src 0x0E msg (fun s b _ =>
    if b.length < 5 ∨ 1028 < b.length then refusedWith s apBadMessage
    else
      let img := otherImage s
      accepted (bumpFree { s with
        cob.images := mapAt s.cob.images img (fun x => overlay x (leAt b 0 4) (b.drop 4))
        cob.versions := setAt s.cob.versions img (freshFree s img % 2 ^ 32) })))

/-- FW_ACTIVATE (R436): the digest names the other image and its signature verifies; the restart follows the reply. -/
def execFwActivate (src : Nat) (msg : List Byte) (s : State) : Outcome State Fault Refusal :=
  .next (
    let before := s.cob.running
    let s := onRequest s src 0x0F msg (fun s b _ =>
      let img := otherImage s
      let bytes := s.cob.images.getD img []
      if b.length ≠ 48 then refusedWith s apBadMessage
      else if decide (sha384 bytes = b) && Config.imageSigned bytes then
        accepted (sledEvent { s with cob.running := img, cob.newFrom := some s.now } 0x6030 [img, s.cob.versions.getD img 0])
      else refusedWith s apBadState)
    if s.cob.running = before then s else { s with cob.restarting := true })

/-- APBEL_LOG_READ (R438, Table 17.10): up to 16 entries of the sled log. -/
def execApbelLogRead (src : Nat) (msg : List Byte) (s : State) : Outcome State Fault Refusal :=
  .next (onRequest s src 0x10 msg (fun s b _ =>
    if b.length ≠ 5 || !decide (1 ≤ leAt b 4 1 ∧ leAt b 4 1 ≤ 16) then refusedWith s apBadMessage
    else accepted s ((s.cob.sledLog.drop (leAt b 0 4)).take (leAt b 4 1)).flatten))

/-- EVENT_ACK (R440): the message answers an EVENT and gets no reply. -/
def execEventAck (_src : Nat) (msg : List Byte) (s : State) : Outcome State Fault Refusal :=
  .next (if !cobAnswers s then s
    else if apbelHeaderOk 0x41 msg && decide (msg.length = 20) then
      { s with cob.events := s.cob.events.filter (fun e => decide (e.seq ≠ leAt msg 16 4)) }
    else { s with cob.badMessages := s.cob.badMessages + 1 })

end Sys2Proof.Machine
end

