-- ==== Sys2Proof/Machine/Upkeep.lean ====
section
/-! DEFINITION. Work that the chip does by itself: the patrol scrub, HBM refresh, the congestion window (11.6, 12.3, 12.4). -/
namespace Sys2Proof.Machine
open Host

/-- HBM_PATROL_SCRUB (R294, R297): the HBM page `page` is read; each uncorrectable word found is reported (R293). -/
def execHbmPatrolScrub (page : Nat) (s : State) : Outcome State Fault Refusal :=
  .next (
    if !barAlive s ∨ hbmEnd ≤ 2048 * page then s
    else (s.mem.hbmBad.filter (fun w => decide (w / 64 = page))).foldl (fun s w => hbmUncorrected s (32 * w)) s)

/-- Whether an HBM request that has been put off is for a bank, numbered 64 * pseudo-channel + bank. -/
def meetsBank (bank : Nat) (x : Nat × Nat × Later) : Bool :=
  match x.2.2 with
  | .write _ _ _ => false
  | .hbmRead g a _ _ _ => decide (64 * g + hbmBank a = bank)
  | .hbmWrite g a _ _ _ => decide (64 * g + hbmBank a = bank)

/-- REFRESH_DUE (R299): the controller refreshes the bank. In a relaxed job a scheduled request that meets it waits, and the
wait is an interlock of its region, of a length that the spec leaves open (log entry 11). -/
def execRefreshDue (bank : Nat) (s : State) : Outcome State Fault Refusal :=
  .next (
    match s.job with
    | none => s
    | some j =>
      if !(jobRuns s && j.relaxed) then s
      else
        match j.later.find? (meetsBank bank) with
        | none => s
        | some x =>
          let g := bank / 64
          let f : Finding :=
            { check := 0x0B, tile := none, site := some (siteOf 0xA (g / 32 * 2 ^ 24 + g % 32 * 2 ^ 16 + bank % 64)),
              task := none, js := (s.region x.1).js, declared := 0, observed := (s.region x.1).js }
          bumpFree (holdFor (interlock s f) x.1 0x0B (1 + freshFree s 0 % 128)))

/-- A congestion level (R286). -/
def level (blocked : Nat) : Nat := min 255 (256 * blocked / 2 ^ 20)

/-- CONGESTION_WINDOW_END (R286, R287): the levels of the window that has ended make the recent map. -/
def execCongestionWindowEnd (s : State) : Outcome State Fault Refusal :=
  .next (
    if !barAlive s then s
    else
      { s with
        svc.previousMap := s.svc.recentMap
        svc.recentMap := leBytes 8 (s.clk.ws / 2 ^ 20 - 1) ++ s.svc.blocked.map (fun n => byteOf (level n)) ++ zeros 22
        svc.blocked := List.replicate 34 0 })

end Sys2Proof.Machine
end

