-- ==== Sys2Proof/Machine/Xfer.lean ====
section
/-! DEFINITION. XFER (15.5.3) and SOLVE (14.4, 14.5). -/
namespace Sys2Proof.Machine
open Host

/-! ### XFER (R375 to R377) -/

/-- The place of an XFER's address. -/
def xferPlaces (s : State) (d : Desc) (n : Nat) : List Place :=
  (resolve s (d.at 12 1) (d.at 13 1) (d.at 14 2) (d.at 16 8) n).toList

/-- Whether an XFER performed here meets a place that holds its requests for now (R295, R340). -/
def xferWaits (s : State) (d : Desc) (n : Nat) : Bool := (xferPlaces s d n).any (fun p => placeWaits s p n)

/-- Whether an XFER is performed on the chip itself. -/
def xferLocal (s : State) (d : Desc) : Bool := decide (bitsOf (d.at 9 1) 4 2 = 0 ∧ d.at 10 2 = s.dev.coord)

/-- The transfer that a descriptor starts, with its pieces unanswered. -/
def xferOf (s : State) (d : Desc) (length pieces : Nat) (mask : Nat) : Xfer :=
  let m := bitsOf (d.at 9 1) 4 2
  { ring := d.ring, slot := d.slot, xop := d.at 8 1, length, hostAddr := d.at 24 8, skiveOut := d.flag 4,
    mcast := decide (m ≠ 0), dests := if m = 0 then [] else mcastDests s m s.dev.coord mask, reportAddr := d.at 48 8,
    arg := 0, pieces := List.replicate pieces { status := none, data := [], undelivered := [], unsure := [] } }

/-- The answer of a piece performed here. -/
def pieceEnd (status sub arg : Nat) (data : List Byte) : TxnEnd :=
  { status, sub, arg, data, undelivered := [], unsure := [] }

/-- Perform the pieces of a local WRITE in ascending address order. -/
def localWrites (d : Desc) (s : State) (cs : List (List Byte)) : State :=
  ((cs.mapIdx (fun i c => (i, c))).foldl (fun (s : State) (x : Nat × List Byte) =>
    let r := performWrite s s.dev.coord (d.at 12 1) (d.at 13 1) (d.at 14 2) (d.at 16 8 + 3840 * x.1) x.2
    pieceIn r.1 d.ring d.slot x.1 (pieceEnd r.2.1 r.2.2 0 [])) s)

/-- Perform the pieces of a local READ. -/
def localReads (d : Desc) (s : State) : State :=
  let n := d.at 32 4
  (List.range (ceilDiv n 3840)).foldl (fun s i =>
    let a := d.at 16 8 + 3840 * i
    let len := min 3840 (n - 3840 * i)
    let r := performRead s (d.at 12 1) (d.at 13 1) (d.at 14 2) a len
    pieceIn r.1 d.ring d.slot i (pieceEnd r.2.1 r.2.2.1 0 r.2.2.2)) s

/-- The header of piece `i` of a remote XFER. An address beyond the 40 bits of ADDR is sent as the highest, which no target
holds. -/
def xferHdr (d : Desc) (i len arg mask : Nat) (skive : Bool) : Hdr :=
  let f := d.at 9 1
  { op := d.at 8 1, spread := bitOf f 0, valiant := bitOf f 1, fence := bitOf f 2 && decide (i = 0), skive,
    mcast := bitsOf f 4 2, dest := d.at 10 2, jobTag := d.at 14 2, target := d.at 12 1, tile := d.at 13 1,
    addr := min (d.at 16 8 + 3840 * i) (2 ^ 40 - 1), length := len, arg, mask }

/-- Send one piece of an XFER. -/
def sendPiece (d : Desc) (s : State) (i len arg mask : Nat) (skive : Bool) (data : List Byte) : State :=
  issue s (.ring d.ring) (xferHdr d i len arg mask skive) data (.piece d.ring d.slot i)

/-- Send the pieces of a WRITE, as frames where WIRE_SKIVE allows one (R117). -/
def sendWrites (d : Desc) (mask : Nat) (s : State) (cs : List (List Byte)) : State :=
  (cs.mapIdx (fun i c => (i, c))).foldl (fun (s : State) (x : Nat × List Byte) =>
    match (if bitOf (d.at 9 1) 3 then asFrame x.2 else none) with
    | some f => if f.length < x.2.length then sendPiece d s x.1 f.length 0 mask true f
        else sendPiece d s x.1 x.2.length 0 mask false x.2
    | none => sendPiece d s x.1 x.2.length 0 mask false x.2) s

/-- Send the pieces of a READ. -/
def sendReads (d : Desc) (s : State) : State :=
  let n := d.at 32 4
  (List.range (ceilDiv n 3840)).foldl (fun s i =>
    sendPiece d s i (min 3840 (n - 3840 * i)) 0 0 (bitOf (d.at 9 1) 3) []) s

/-- Enter a transfer. -/
def addXfer (s : State) (x : Xfer) : State := { s with svc.xfers := s.svc.xfers ++ [x] }

/-- XFER WRITE (R375). -/
def runXferWrite (data mask : List Byte) (s : State) (d : Desc) : State :=
  match hostData d data with
  | none => badFrame s d
  | some bs =>
    if bs.isEmpty then badDesc s d 0x38
    else if xferLocal s d && xferWaits s d bs.length then deferDesc s d (.xferWrite d data mask)
    else
      let cs := chunks 3840 bs
      let m := leNat (mask.take 128)
      let s := addXfer s (xferOf s d bs.length cs.length m)
      if xferLocal s d then localWrites d s cs else sendWrites d m s cs

/-- XFER with XOP = 1 and an XOP outside 1 to 3, which sub-code 0x38 refuses. -/
def execXferWrite (d : Desc) (data mask : List Byte) (s : State) : Outcome State Fault Refusal :=
  .next (onDesc s d (.xferWrite d data mask) (decide (d.op = 0x50) && !decide (d.at 8 1 = 2 ∨ d.at 8 1 = 3))
    (runXferWrite data mask))

/-- XFER READ (R375). -/
def runXferRead (s : State) (d : Desc) : State :=
  let n := d.at 32 4
  if xferLocal s d && xferWaits s d n then deferDesc s d (.xferRead d)
  else
    let s := addXfer s (xferOf s d n (ceilDiv n 3840) 0)
    if xferLocal s d then localReads d s else sendReads d s

/-- XFER with XOP = 2. -/
def execXferRead (d : Desc) (s : State) : Outcome State Fault Refusal :=
  .next (onDesc s d (.xferRead d) (decide (d.op = 0x50 ∧ d.at 8 1 = 2)) runXferRead)

/-- XFER TACK_ADD (R375, R376). -/
def runXferTackAdd (mask : List Byte) (s : State) (d : Desc) : State :=
  let m := leNat (mask.take 128)
  let s := addXfer s (xferOf s d 0 1 m)
  if xferLocal s d then
    let r := performTack s (d.at 12 1) (d.at 16 8) (d.at 36 4)
    pieceIn r.1 d.ring d.slot 0 (pieceEnd r.2.1 r.2.2.1 r.2.2.2 [])
  else sendPiece d s 0 0 (d.at 36 4) m false []

/-- XFER with XOP = 3. -/
def execXferTackAdd (d : Desc) (mask : List Byte) (s : State) : Outcome State Fault Refusal :=
  .next (onDesc s d (.xferTackAdd d mask) (decide (d.op = 0x50 ∧ d.at 8 1 = 3)) (runXferTackAdd mask))

/-! ### SOLVE (R350 to R355) -/

/-- A tolerance: 0 stands for 2^-13 (Table 14.3). -/
def tolOf (v : Nat) : F32 := if v % 2 ^ 31 = 0 then 0x39000000#32 else BitVec.ofNat 32 v

/-- SOLVE: the batch is in progress; its descriptor completes with its last record (R352). -/
def runSolve (problems : List Byte) (s : State) (d : Desc) : State :=
  match hostData d problems with
  | none => badFrame s d
  | some bs =>
    let mode : PivotMode := if d.at 26 1 = 1 then .regularise else .nan
    let b : Batch :=
      { ring := d.ring, slot := d.slot, resultAddr := d.at 16 8, count := d.at 24 2, mode,
        tol := ⟨tolOf (d.at 28 4), tolOf (d.at 32 4), tolOf (d.at 36 4)⟩, left := bs, next := 0, lost := false }
    { s with shank.batch := some b }

/-- SOLVE. -/
def execSolve (d : Desc) (problems : List Byte) (s : State) : Outcome State Fault Refusal :=
  .next (onDesc s d (.solve d problems) (decide (d.op = 0x90)) (runSolve problems))

/-- The next result record of a batch, and the batch after it (R352, R353). -/
def nextRecord (s : State) (b : Batch) : List Byte × Batch :=
  let tag := leAt b.left 16 4
  let len := leAt b.left 0 4
  let b' : Batch := { b with next := b.next + 1, left := b.left.drop len }
  let lost : List Byte × Batch :=
    (emptyRecord stBadDescriptor 0x2C b.next (if b.left.length < 64 ∨ b.lost then 0 else tag), { b' with lost := true })
  if b.lost ∨ b.left.length < 64 ∨ len < 64 ∨ len % 64 ≠ 0 ∨ b.left.length < len then lost
  else
    match parseProblem s.shank.slots (b.left.take len) with
    | .ok p => (solveRecord stDone stSolverCap stSolverPivot p b.mode b.tol b.next tag, b')
    | .error sub => if sub = 0x2C then lost else (emptyRecord stBadDescriptor sub b.next tag, b')

/-- SHANK_PROBLEM_DONE (R352, R353): the next record is written; after the last, the descriptor completes. -/
def execShankProblemDone (s : State) : Outcome State Fault Refusal :=
  .next (match s.shank.batch with
    | none => s
    | some b =>
      let r := nextRecord s b
      let s := hostWrite s (b.resultAddr + 512 * b.next) r.1
      if r.2.next < b.count then { s with shank.batch := some r.2 }
      else complete { s with shank.batch := none } b.ring b.slot stDone 0 (leBytes 2 b.count))

end Sys2Proof.Machine
end

