-- ==== Sys2Proof/Machine/Dispatch.lean ====
section
/-! DEFINITION. The dispatch: one arm per command, each one direct call of its meaning. -/
namespace Sys2Proof.Machine
open Host

def exec (i : Instr) (s : State) : Host.Outcome State Fault Refusal :=
  match i with
  | .generatorLock => Sys2Proof.Machine.execGeneratorLock s
  | .coldComplete xlat firmware damaged => Sys2Proof.Machine.execColdComplete xlat firmware damaged s
  | .functionLevelReset => Sys2Proof.Machine.execFunctionLevelReset s
  | .conventionalReset => Sys2Proof.Machine.execConventionalReset s
  | .deviceFault cause => Sys2Proof.Machine.execDeviceFault cause s
  | .referenceLost => Sys2Proof.Machine.execReferenceLost s
  | .referenceRelock => Sys2Proof.Machine.execReferenceRelock s
  | .stitchBoundary late => Sys2Proof.Machine.execStitchBoundary late s
  | .paceSlewEnd => Sys2Proof.Machine.execPaceSlewEnd s
  | .lateUnitDepart eyelet lace unit => Sys2Proof.Machine.execLateUnitDepart eyelet lace unit s
  | .handshakeAck region ecc addr => Sys2Proof.Machine.execHandshakeAck region ecc addr s
  | .slipPointAlign => Sys2Proof.Machine.execSlipPointAlign s
  | .stepControlLost => Sys2Proof.Machine.execStepControlLost s
  | .slipAnnounce => Sys2Proof.Machine.execSlipAnnounce s
  | .resumeRelease => Sys2Proof.Machine.execResumeRelease s
  | .marginWindowEnd loops => Sys2Proof.Machine.execMarginWindowEnd loops s
  | .paceChangeOutsideJob => Sys2Proof.Machine.execPaceChangeOutsideJob s
  | .governorPeriodStart temps halfAmps => Sys2Proof.Machine.execGovernorPeriodStart temps halfAmps s
  | .governorApply status => Sys2Proof.Machine.execGovernorApply status s
  | .throttleBegin region => Sys2Proof.Machine.execThrottleBegin region s
  | .coolantValuesReceived inlet flow => Sys2Proof.Machine.execCoolantValuesReceived inlet flow s
  | .coolantStale => Sys2Proof.Machine.execCoolantStale s
  | .cobblerHold => Sys2Proof.Machine.execCobblerHold s
  | .cobblerHoldRelease => Sys2Proof.Machine.execCobblerHoldRelease s
  | .capUpdate powerCap paceCap => Sys2Proof.Machine.execCapUpdate powerCap paceCap s
  | .powerStop => Sys2Proof.Machine.execPowerStop s
  | .powerStopTimeout => Sys2Proof.Machine.execPowerStopTimeout s
  | .wakeOrder source => Sys2Proof.Machine.execWakeOrder source s
  | .pmeSent => Sys2Proof.Machine.execPmeSent s
  | .hbmPatrolScrub page => Sys2Proof.Machine.execHbmPatrolScrub page s
  | .refreshDue bank => Sys2Proof.Machine.execRefreshDue bank s
  | .pageRetireCopyDone => Sys2Proof.Machine.execPageRetireCopyDone s
  | .congestionWindowEnd => Sys2Proof.Machine.execCongestionWindowEnd s
  | .healthRecordWrite => Sys2Proof.Machine.execHealthRecordWrite s
  | .doorbellPoll => Sys2Proof.Machine.execDoorbellPoll s
  | .doorbellReadComplete words => Sys2Proof.Machine.execDoorbellReadComplete words s
  | .hostDmaFault kind ring index addr desc => Sys2Proof.Machine.execHostDmaFault kind ring index addr desc s
  | .deferredCompletionWrite ring => Sys2Proof.Machine.execDeferredCompletionWrite ring s
  | .evtOverrun ring => Sys2Proof.Machine.execEvtOverrun ring s
  | .msixModTimeout vector => Sys2Proof.Machine.execMsixModTimeout vector s
  | .msixUnmask vector => Sys2Proof.Machine.execMsixUnmask vector s
  | .nop d => Sys2Proof.Machine.execNop d s
  | .query d => Sys2Proof.Machine.execQuery d s
  | .loadLast d image arr sched => Sys2Proof.Machine.execLoadLast d image arr sched s
  | .loadWeights d blob siblings => Sys2Proof.Machine.execLoadWeights d blob siblings s
  | .unload d => Sys2Proof.Machine.execUnload d s
  | .jobOpen d => Sys2Proof.Machine.execJobOpen d s
  | .jobStart d => Sys2Proof.Machine.execJobStart d s
  | .barrierReady => Sys2Proof.Machine.execBarrierReady s
  | .js0Release => Sys2Proof.Machine.execJs0Release s
  | .barrierTimeout => Sys2Proof.Machine.execBarrierTimeout s
  | .barrierSelfEnd => Sys2Proof.Machine.execBarrierSelfEnd s
  | .jobDrain d => Sys2Proof.Machine.execJobDrain d s
  | .jobDrainComplete => Sys2Proof.Machine.execJobDrainComplete s
  | .jobClose d => Sys2Proof.Machine.execJobClose d s
  | .jobCheckpoint d => Sys2Proof.Machine.execJobCheckpoint d s
  | .checkpointImageWrite reqs => Sys2Proof.Machine.execCheckpointImageWrite reqs s
  | .jobRelast d image arr ckpt sched => Sys2Proof.Machine.execJobRelast d image arr ckpt sched s
  | .setBudget d => Sys2Proof.Machine.execSetBudget d s
  | .setPaceLimit d => Sys2Proof.Machine.execSetPaceLimit d s
  | .tileRetire d => Sys2Proof.Machine.execTileRetire d s
  | .linkRetrain d => Sys2Proof.Machine.execLinkRetrain d s
  | .pageRetire d => Sys2Proof.Machine.execPageRetire d s
  | .tableLoadRouting d image => Sys2Proof.Machine.execTableLoadRouting d image s
  | .tableLoadPeer d image => Sys2Proof.Machine.execTableLoadPeer d image s
  | .tableLoadTemplate d image => Sys2Proof.Machine.execTableLoadTemplate d image s
  | .templateLoadComplete => Sys2Proof.Machine.execTemplateLoadComplete s
  | .tableLoadKey d image => Sys2Proof.Machine.execTableLoadKey d image s
  | .logRead d => Sys2Proof.Machine.execLogRead d s
  | .req d input => Sys2Proof.Machine.execReq d input s
  | .solve d problems => Sys2Proof.Machine.execSolve d problems s
  | .shankProblemDone => Sys2Proof.Machine.execShankProblemDone s
  | .xferWrite d data mask => Sys2Proof.Machine.execXferWrite d data mask s
  | .xferRead d => Sys2Proof.Machine.execXferRead d s
  | .xferTackAdd d mask => Sys2Proof.Machine.execXferTackAdd d mask s
  | .interruptModerationApply value => Sys2Proof.Machine.execInterruptModerationApply value s
  | .doorbellApply value => Sys2Proof.Machine.execDoorbellApply value s
  | .doorbellApplyEffect => Sys2Proof.Machine.execDoorbellApplyEffect s
  | .ringApply mask => Sys2Proof.Machine.execRingApply mask s
  | .ringApplyEffect ring => Sys2Proof.Machine.execRingApplyEffect ring s
  | .paceApply value => Sys2Proof.Machine.execPaceApply value s
  | .marginApply value => Sys2Proof.Machine.execMarginApply value s
  | .marginApplyEffect => Sys2Proof.Machine.execMarginApplyEffect s
  | .applyErrClear offset => Sys2Proof.Machine.execApplyErrClear offset s
  | .ringApplyErrClear mask => Sys2Proof.Machine.execRingApplyErrClear mask s
  | .debugLock => Sys2Proof.Machine.execDebugLock s
  | .policyLock => Sys2Proof.Machine.execPolicyLock s
  | .sigPolicyWrite value => Sys2Proof.Machine.execSigPolicyWrite value s
  | .graceMsWrite eyelet ms => Sys2Proof.Machine.execGraceMsWrite eyelet ms s
  | .complTimeoutWrite ms => Sys2Proof.Machine.execComplTimeoutWrite ms s
  | .registerWrite offset size value => Sys2Proof.Machine.execRegisterWrite offset size value s
  | .lowWordReadLatch offset => Sys2Proof.Machine.execLowWordReadLatch offset s
  | .congestionSnapshotRead => Sys2Proof.Machine.execCongestionSnapshotRead s
  | .recentSnapshotRead entry => Sys2Proof.Machine.execRecentSnapshotRead entry s
  | .busMasterEnable on => Sys2Proof.Machine.execBusMasterEnable on s
  | .powerstateD3hot pmcsr => Sys2Proof.Machine.execPowerstateD3hot pmcsr s
  | .powerstateD0 pmcsr => Sys2Proof.Machine.execPowerstateD0 pmcsr s
  | .trainingSequence eyelet lanes sustained ownOk => Sys2Proof.Machine.execTrainingSequence eyelet lanes sustained ownOk s
  | .trainingStateTimeout eyelet => Sys2Proof.Machine.execTrainingStateTimeout eyelet s
  | .codewordLock eyelet => Sys2Proof.Machine.execCodewordLock eyelet s
  | .backoffExpiry eyelet => Sys2Proof.Machine.execBackoffExpiry eyelet s
  | .codewordReceived eyelet marker data symbolErrors => Sys2Proof.Machine.execCodewordReceived eyelet marker data symbolErrors s
  | .markerLoss eyelet lane => Sys2Proof.Machine.execMarkerLoss eyelet lane s
  | .exchange eyelet item => Sys2Proof.Machine.execExchange eyelet item s
  | .exchangeResend eyelet => Sys2Proof.Machine.execExchangeResend eyelet s
  | .latProbeSend eyelet => Sys2Proof.Machine.execLatProbeSend eyelet s
  | .latProbe eyelet item turn => Sys2Proof.Machine.execLatProbe eyelet item turn s
  | .latEcho eyelet item round => Sys2Proof.Machine.execLatEcho eyelet item round s
  | .creditInit eyelet item => Sys2Proof.Machine.execCreditInit eyelet item s
  | .weltUnitReceived eyelet item => Sys2Proof.Machine.execWeltUnitReceived eyelet item s
  | .ack eyelet item => Sys2Proof.Machine.execAck eyelet item s
  | .nak eyelet item => Sys2Proof.Machine.execNak eyelet item s
  | .ackDue eyelet => Sys2Proof.Machine.execAckDue eyelet s
  | .resendTimeout eyelet => Sys2Proof.Machine.execResendTimeout eyelet s
  | .tongueResendTimeout eyelet => Sys2Proof.Machine.execTongueResendTimeout eyelet s
  | .creditReportSend eyelet => Sys2Proof.Machine.execCreditReportSend eyelet s
  | .creditReport eyelet item => Sys2Proof.Machine.execCreditReport eyelet item s
  | .downNotice eyelet item => Sys2Proof.Machine.execDownNotice eyelet item s
  | .idle eyelet item => Sys2Proof.Machine.execIdle eyelet item s
  | .graceExpiry eyelet => Sys2Proof.Machine.execGraceExpiry eyelet s
  | .offer eyelet item => Sys2Proof.Machine.execOffer eyelet item s
  | .offerPart eyelet item => Sys2Proof.Machine.execOfferPart eyelet item s
  | .ready eyelet item => Sys2Proof.Machine.execReady eyelet item s
  | .start eyelet item => Sys2Proof.Machine.execStart eyelet item s
  | .abort eyelet item => Sys2Proof.Machine.execAbort eyelet item s
  | .slip eyelet item => Sys2Proof.Machine.execSlip eyelet item s
  | .slipReady eyelet item => Sys2Proof.Machine.execSlipReady eyelet item s
  | .resume eyelet item => Sys2Proof.Machine.execResume eyelet item s
  | .stop eyelet item => Sys2Proof.Machine.execStop eyelet item s
  | .pace eyelet item => Sys2Proof.Machine.execPace eyelet item s
  | .serviceHeaderRoute eyelet vc => Sys2Proof.Machine.execServiceHeaderRoute eyelet vc s
  | .write eyelet vc => Sys2Proof.Machine.execWrite eyelet vc s
  | .read eyelet vc => Sys2Proof.Machine.execRead eyelet vc s
  | .tackAdd eyelet vc => Sys2Proof.Machine.execTackAdd eyelet vc s
  | .writeDone eyelet vc => Sys2Proof.Machine.execWriteDone eyelet vc s
  | .readData eyelet vc => Sys2Proof.Machine.execReadData eyelet vc s
  | .tackDone eyelet vc => Sys2Proof.Machine.execTackDone eyelet vc s
  | .completionTimeout txn => Sys2Proof.Machine.execCompletionTimeout txn s
  | .fetchTimeout tack => Sys2Proof.Machine.execFetchTimeout tack s
  | .sledInsertion => Sys2Proof.Machine.execSledInsertion s
  | .presenceBreak => Sys2Proof.Machine.execPresenceBreak s
  | .mainLost centivolts => Sys2Proof.Machine.execMainLost centivolts s
  | .cellSample centivolts mainUs => Sys2Proof.Machine.execCellSample centivolts mainUs s
  | .powerRemoval position reported => Sys2Proof.Machine.execPowerRemoval position reported s
  | .sledRestart => Sys2Proof.Machine.execSledRestart s
  | .railGood position => Sys2Proof.Machine.execRailGood position s
  | .railFault position rail => Sys2Proof.Machine.execRailFault position rail s
  | .cellReady => Sys2Proof.Machine.execCellReady s
  | .cellFull => Sys2Proof.Machine.execCellFull s
  | .cellInserted centivolts => Sys2Proof.Machine.execCellInserted centivolts s
  | .cellCapacitanceCheck millifarads => Sys2Proof.Machine.execCellCapacitanceCheck millifarads s
  | .coolantCondition condition => Sys2Proof.Machine.execCoolantCondition condition s
  | .coolantConditionClear condition => Sys2Proof.Machine.execCoolantConditionClear condition s
  | .coolantUpdate inlet outlet flow wet => Sys2Proof.Machine.execCoolantUpdate inlet outlet flow wet s
  | .leak zone => Sys2Proof.Machine.execLeak zone s
  | .fwRollback => Sys2Proof.Machine.execFwRollback s
  | .eventResend seq => Sys2Proof.Machine.execEventResend seq s
  | .sledPresent => Sys2Proof.Machine.execSledPresent s
  | .identify src msg => Sys2Proof.Machine.execIdentify src msg s
  | .setAddress src msg => Sys2Proof.Machine.execSetAddress src msg s
  | .setCoord src msg => Sys2Proof.Machine.execSetCoord src msg s
  | .eyeletCtrl src msg => Sys2Proof.Machine.execEyeletCtrl src msg s
  | .setCaps src msg => Sys2Proof.Machine.execSetCaps src msg s
  | .apbelHold src msg => Sys2Proof.Machine.execApbelHold src msg s
  | .apbelRelease src msg => Sys2Proof.Machine.execApbelRelease src msg s
  | .wake src msg => Sys2Proof.Machine.execWake src msg s
  | .sensors src msg => Sys2Proof.Machine.execSensors src msg s
  | .chipPowerOn src msg => Sys2Proof.Machine.execChipPowerOn src msg s
  | .chipPowerOff src msg => Sys2Proof.Machine.execChipPowerOff src msg s
  | .sledPowerOn src msg => Sys2Proof.Machine.execSledPowerOn src msg s
  | .sledPowerOff src msg => Sys2Proof.Machine.execSledPowerOff src msg s
  | .swapPrepare src msg => Sys2Proof.Machine.execSwapPrepare src msg s
  | .cellPrepare src msg => Sys2Proof.Machine.execCellPrepare src msg s
  | .clearLeak src msg => Sys2Proof.Machine.execClearLeak src msg s
  | .fwWrite src msg => Sys2Proof.Machine.execFwWrite src msg s
  | .fwActivate src msg => Sys2Proof.Machine.execFwActivate src msg s
  | .apbelLogRead src msg => Sys2Proof.Machine.execApbelLogRead src msg s
  | .eventAck src msg => Sys2Proof.Machine.execEventAck src msg s
  | .configure src msg => Sys2Proof.Machine.execConfigure src msg s
  | .calWrite src msg => Sys2Proof.Machine.execCalWrite src msg s
  | .streamStart src msg => Sys2Proof.Machine.execStreamStart src msg s
  | .streamStop src msg => Sys2Proof.Machine.execStreamStop src msg s
  | .templateData src msg => Sys2Proof.Machine.execTemplateData src msg s
  | .templateCommit src msg => Sys2Proof.Machine.execTemplateCommit src msg s
  | .templateClear src msg => Sys2Proof.Machine.execTemplateClear src msg s
  | .acousticStatus src msg => Sys2Proof.Machine.execAcousticStatus src msg s
  | .monitorStart => Sys2Proof.Machine.execMonitorStart s
  | .monitorSettled => Sys2Proof.Machine.execMonitorSettled s
  | .acousticFrameBoundary samples => Sys2Proof.Machine.execAcousticFrameBoundary samples s
  | .energyBlock channel samples => Sys2Proof.Machine.execEnergyBlock channel samples s
  | .featureVector vector usable => Sys2Proof.Machine.execFeatureVector vector usable s
  | .micFault channel => Sys2Proof.Machine.execMicFault channel s
  | .micRecovery channel => Sys2Proof.Machine.execMicRecovery channel s
  | .autoActiveTimeout => Sys2Proof.Machine.execAutoActiveTimeout s
  | .energyRearmTimeout channel => Sys2Proof.Machine.execEnergyRearmTimeout channel s
  | .valveQuietEnd => Sys2Proof.Machine.execValveQuietEnd s
  | .unitOpportunity eyelet => Sys2Proof.Machine.execUnitOpportunity eyelet s
  | .cobblerBoot => Sys2Proof.Machine.execCobblerBoot s
  | .flowLeakCheckEnd ok => Sys2Proof.Machine.execFlowLeakCheckEnd ok s
  | .cobblerRestartComplete healthy => Sys2Proof.Machine.execCobblerRestartComplete healthy s
  | .vaux33Lost => Sys2Proof.Machine.execVaux33Lost s

end Sys2Proof.Machine
end

