-- ==== Sys2Proof/Machine/Step.lean ====
section
/-! DEFINITION. The step of the block: the command at the front of the queue; on an empty queue the released descriptor
that waited longest, else the passing of time (log entries 2 and 3). -/
namespace Sys2Proof.Machine
open Host

/-- What happens with no command waiting: a descriptor whose wait on its tack has ended starts (R383), or 1/16 ns
passes. -/
def idle (s : State) : Host.Outcome State Fault Refusal :=
  match s.ready with
  | [] => .next { s with now := s.now + 1 }
  | i :: rest => exec i { s with ready := rest }

/-- One step. -/
def step (s : State) : Host.Outcome State Fault Refusal :=
  match s.pending with
  | [] => idle s
  | c :: rest => exec c { s with pending := rest }

/-- The table spells no command by bits, so no word puts one into the queue. -/
def State.withFetchWord (s : State) (nbits w : Nat) : State :=
  match decodeTableWord nbits w with
  | none => s
  | some c => { s with pending := c :: s.pending }

end Sys2Proof.Machine
end

