-- ==== Sys2Proof/Safety.lean ====
section
/-! DEFINITION. What every state of a run has, whatever commands it takes: memories in their one canonical form, and of
each kind of unit as many as the spec gives the block. `Kept` says what no command may touch besides. -/
namespace Sys2Proof.Safety
open Sys2Proof.Machine

/-- The two memories are in canonical form (03 R55, 12 R289). -/
def MemOk (m : Mem) : Prop := m.insole.wf = true ∧ m.hbm.wf = true

/-- Twenty regions and eighty region crossings (02 R25, R42). -/
def ClkOk (c : Clock) : Prop := c.regions.length = 20 ∧ c.xlat.length = 80

/-- Sixty-four rings, thirty-two vectors and the thirty-two RECENT entries (15 R361, R385, 20 R510). -/
def HostOk (h : HostIf) : Prop := h.rings.length = 64 ∧ h.vectors.length = 32 ∧ h.recent.length = 32

/-- Two routing banks (11 R282). -/
def SvcOk (v : Svc) : Prop := v.banks.length = 2

/-- Four rails (13 R320). -/
def HeelOk (h : Heel) : Prop := h.rails.length = 4

/-- Sixteen template slots (14 R345). -/
def ShankOk (k : ShankState) : Prop := k.slots.length = 16

/-- Four chips on the sled and two Cobbler images (17). -/
def CobOk (c : Cobbler) : Prop := c.chips.length = 4 ∧ c.images.length = 2

/-- Four microphones and eight template slots (18). -/
def MonOk (m : Monitor) : Prop := m.chans.length = 4 ∧ m.slots.length = 8

/-- The invariant. -/
def Inv (s : State) : Prop :=
  MemOk s.mem ∧ ClkOk s.clk ∧ HostOk s.host ∧ SvcOk s.svc ∧ HeelOk s.heel ∧ ShankOk s.shank ∧ CobOk s.cob ∧ MonOk s.mon
    ∧ s.eyelets.length = 16 ∧ s.keys.length = 4

/-- `t` is reached from `s` without the queue, the time or the sled position being touched, and keeps the invariant. -/
structure Kept (s t : State) : Prop where
  pending : t.pending = s.pending
  now : t.now = s.now
  position : t.position = s.position
  inv : Inv s → Inv t

/-- The event that a code and payload values make at this moment (15 R380, R381). -/
def eventOf (s : State) (code : Nat) (slots : List Nat) : Event :=
  { code, seq := s.host.nextSeq, ws := s.clk.ws, payload := padTo 48 (slots.flatMap (leBytes 8)) }

end Sys2Proof.Safety
end

