-- ==== Sys2Proof/Effects.lean ====
section
/-! DEFINITION. The words in which the statements about commands are said: an event recorded, a descriptor started and
answered, an eyelet or the sled changed and nothing else. Each names everything that may differ. -/
namespace Sys2Proof.Safety
open Sys2Proof.Machine

/-! ### Towards the host -/

/-- Only the running part of the rings, the vectors and what leaves for the host may differ. -/
def Quiet (s t : State) : Prop :=
  ∃ r v o, t = { s with host := { s.host with rings := r, vectors := v, out := o } }

/-- An event entered in the event log and in RECENT, with the next SEQ (15 R380, 20 R510). -/
def logged (s : State) (e : Event) : State :=
  { s with host := { s.host with
      nextSeq := (s.host.nextSeq + 1) % 2 ^ 32
      eventLog := (s.host.eventLog ++ [e]).drop (s.host.eventLog.length + 1 - 65536)
      recent := ((eventEntries e).foldl
        (fun (p : List (List Byte) × Nat) x => (setAt p.1 p.2 x, (p.2 + 1) % 32)) (s.host.recent, s.host.recentHead)).1
      recentHead := ((eventEntries e).foldl
        (fun (p : List (List Byte) × Nat) x => (setAt p.1 p.2 x, (p.2 + 1) % 32)) (s.host.recent, s.host.recentHead)).2 } }

/-- `t` is `s` with one event recorded: it is in the logs, with the SEQ and WS of its moment, and has gone to the event
rings. -/
def Recorded (s t : State) (code : Nat) (slots : List Nat) : Prop := Quiet (logged s (eventOf s code slots)) t

/-- What answering a descriptor may change: the rings, the vectors and what leaves for the host; and, where it signals a
tack, the tacks and whatever waits on them. -/
def Answered (s t : State) : Prop :=
  ∃ r v o tacks waits regions held ready, t = { s with
    host := { s.host with rings := r, vectors := v, out := o }
    mem := { s.mem with tacks := tacks, tackWaits := waits }
    clk := { s.clk with regions := regions }
    held := held
    ready := ready }

/-- The same for an event that is recorded at most once per `period` for a key, and otherwise only counted (R387). -/
def Limited (s t : State) (code sub period : Nat) (slots : Nat → List Nat) : Prop :=
  match rateOf s (code, sub) with
  | some x =>
    if s.now < x.last + period then t = setRate s { x with count := x.count + 1 }
    else Recorded (setRate s { key := (code, sub), last := s.now, count := 0 }) t code (slots (x.count + 1))
  | none => Recorded (setRate s { key := (code, sub), last := s.now, count := 0 }) t code (slots 1)

/-! ### Descriptors -/

/-- The descriptor of a host command that has one, and whether its OPCODE and kind are those of the command. -/
def descriptor : Instr → Option (Desc × Bool)
  | .nop d => some (d, decide (d.op = 0x01) || !opcodes.contains d.op)
  | .query d => some (d, decide (d.op = 0x02))
  | .loadLast d _ _ _ => some (d, decide (d.op = 0x10))
  | .loadWeights d _ _ => some (d, decide (d.op = 0x11))
  | .unload d => some (d, decide (d.op = 0x12))
  | .jobOpen d => some (d, decide (d.op = 0x20))
  | .jobStart d => some (d, decide (d.op = 0x21))
  | .jobDrain d => some (d, decide (d.op = 0x22))
  | .jobClose d => some (d, decide (d.op = 0x23))
  | .jobCheckpoint d => some (d, decide (d.op = 0x24))
  | .jobRelast d _ _ _ _ => some (d, decide (d.op = 0x25))
  | .setBudget d => some (d, decide (d.op = 0x30))
  | .setPaceLimit d => some (d, decide (d.op = 0x31))
  | .tileRetire d => some (d, decide (d.op = 0x40))
  | .linkRetrain d => some (d, decide (d.op = 0x41))
  | .pageRetire d => some (d, decide (d.op = 0x42))
  | .xferWrite d _ _ => some (d, decide (d.op = 0x50) && !decide (d.at 8 1 = 2 ∨ d.at 8 1 = 3))
  | .xferRead d => some (d, decide (d.op = 0x50 ∧ d.at 8 1 = 2))
  | .xferTackAdd d _ => some (d, decide (d.op = 0x50 ∧ d.at 8 1 = 3))
  | .tableLoadRouting d _ => some (d, decide (d.op = 0x60) && !decide (2 ≤ d.at 8 1 ∧ d.at 8 1 ≤ 4))
  | .tableLoadPeer d _ => some (d, decide (d.op = 0x60 ∧ d.at 8 1 = 2))
  | .tableLoadTemplate d _ => some (d, decide (d.op = 0x60 ∧ d.at 8 1 = 3))
  | .tableLoadKey d _ => some (d, decide (d.op = 0x60 ∧ d.at 8 1 = 4))
  | .logRead d => some (d, decide (d.op = 0x70))
  | .req d _ => some (d, decide (d.op = 0x80))
  | .solve d _ => some (d, decide (d.op = 0x90))
  | _ => none

/-- A descriptor as its ring keeps it until it ends (R365, R366). -/
def outstanding (d : Desc) (phase : Nat) : Outst :=
  { slot := d.slot, opcode := d.op, tag := d.tag, irq := d.flag 0, signal := if d.flag 2 then some d.tack else none, phase }

/-- The final completion of a descriptor (Table 15.6). -/
def finalCpl (d : Desc) (status sub : Nat) (result : List Byte := []) (flags : Nat := 0) : Cpl :=
  { status, sub, final := true, flags, opcode := d.op, index := d.slot, tag := d.tag, result, irq := d.flag 0,
    answers := true, signal := if d.flag 2 then some d.tack else none }

/-- A ring has read the descriptor and its turn has come, nothing else stands in its slot, and it is well formed (R362,
R365, R372). -/
def Read (s : State) (d : Desc) : Prop :=
  d.bytes.length = 64 ∧ inTurn (s.ring d.ring) d.slot = true ∧ (∀ o ∈ (s.ring d.ring).running, o.slot ≠ d.slot)
    ∧ descCheck s d = none

/-- The descriptor has nothing more to wait for: it has been read and its WAIT, if any, completes at once; or what it
waited for has ended (R382, R383). -/
def Goes (s : State) (d : Desc) : Prop :=
  d.bytes.length = 64 ∧
    (Read s d ∧ (d.flag 1 = true → tackGet s d.tack ≠ 0)
      ∨ d.slot ∉ (s.ring d.ring).reading ∧ outstOf s d.ring d.slot = some (outstanding d 1))

/-- The descriptor, of opcode `op`, starts now: it has nothing more to wait for, and the device and the job allow it
(R396). -/
def Starts (s : State) (d : Desc) (op : Nat) : Prop := d.op = op ∧ legality s op = none ∧ Goes s d

/-- The state in which a descriptor that starts acts: it is outstanding in its ring, and has taken 1 from the tack that it
waited on (R382). -/
def begun (s : State) (d : Desc) : State :=
  if d.slot ∈ (s.ring d.ring).reading then
    setRing (if d.flag 1 then tackSet s d.tack (tackGet s d.tack - 1) else s) d.ring (fun x =>
      { x with reading := without d.slot x.reading, running := x.running ++ [outstanding d 2] })
  else
    setRing s d.ring (fun x =>
      { x with running := x.running.map (fun o => if o.slot = d.slot then { o with phase := 2 } else o) })

/-- The state of a ring right after a descriptor was read: it stands in its slot and has not started. -/
def taken (s : State) (d : Desc) : State :=
  setRing s d.ring (fun x =>
    { x with reading := without d.slot x.reading, running := x.running ++ [outstanding d 0] })

/-- The descriptor is answered with this completion, and nothing else happens: the entry is written at the ring's write
position with its PHASE, or waits for space behind those that wait, or goes with its quarantined ring (R378, R379,
R388). A completion that is not held ends the descriptor. -/
def Ended (s t : State) (d : Desc) (c : Cpl) : Prop :=
  Answered s t ∧
    (if mute s d.ring then t.host.out = s.host.out ∧ outstOf t d.ring d.slot = none
     else if canWrite s d.ring && (s.ring d.ring).held.isEmpty then
      outstOf t d.ring d.slot = none ∧
      ∃ more, t.host.out = s.host.out ++ .write ((s.attr d.ring).cqBase + 64 * (s.ring d.ring).w)
        (overlay c.bytes 2 [byteOf (2 + c.flags + (1 - (s.ring d.ring).gw))]) :: more
     else (t.ring d.ring).held = (holdCpl (s.ring d.ring) c).held ∧ t.host.out = s.host.out)

/-- The completion of a descriptor that is refused: a REQ ends with END = 3 (Table 15.7). -/
def refusal (d : Desc) (status sub : Nat) : Cpl :=
  finalCpl d status sub (if d.op = 0x80 then zeros 7 ++ [3] else [])

/-- The descriptor is refused: DESCRIPTOR_REFUSED is recorded, at most once per ms for a ring, and the completion says
why; nothing else happens (R372, R387, R396). -/
def Refused (s t : State) (d : Desc) (status sub : Nat) : Prop :=
  ∃ u, Limited s u 0x1010 d.ring msTicks (fun n => [d.ring, d.slot, status, sub, n]) ∧ Ended u t d (refusal d status sub)

/-! ### Eyelets -/

/-- Eyelet `k` becomes `f` of what it was; nothing else differs. -/
def OnlyEyelet (s t : State) (k : Nat) (f : Eyelet → Eyelet) : Prop :=
  (∃ es, t = { s with eyelets := es }) ∧ t.eyelets.length = s.eyelets.length ∧ t.eyelet k = f (s.eyelet k)
    ∧ ∀ j, j ≠ k → t.eyelet j = s.eyelet j

/-- The link-down actions of an eyelet that leaves UP (R253, R254): DOWN_NOTICE where one is due, what the link had in hand
dropped, the grace period begun, events 0x2202 and 0x2208; then whatever a lacing eyelet's loss means for the job (R218). -/
def LeftUp (s t : State) (k cause : Nat) (notice : Bool) (next : LinkState) : Prop :=
  ∃ u v w, OnlyEyelet s u k (fun e =>
      { dropLink (settleBackoff s.now (if notice then { e with out := e.out ++ [miniUnit [0x08, byteOf cause]] } else e)) next with
        graceUntil := some (s.now + s.regs.graceMs.getD k 50 * msTicks) }) ∧
    Recorded u v 0x2202 [k, cause] ∧ Recorded v w 0x2208 [k] ∧ t = laceLinkDown w k

/-! ### The tongue -/

/-- Eyelet `k` is UP and hears a whole tongue mini-unit of this type: its CRC, its T_SEQ, its fields and its origin are
right, the tongue buffer has room, and no OFFER group is open (10 R249 to R251). -/
def Hears (s : State) (k : Nat) (item : List Byte) (type : Nat) : Prop :=
  k < s.eyelets.length ∧ (s.eyelet k).state = .up ∧ miniOk item = true ∧ (Tongue.parse item).type = type ∧
    leAt item 1 1 = (s.eyelet k).tExpect % 256 ∧ (s.eyelet k).occupied.getD 5 0 < 16 ∧
    argOk (Tongue.parse item) = true ∧ inPod s (Tongue.parse item).origin = true ∧ (s.eyelet k).offerAsm = none

/-- The state once the eyelet has taken it: expected T_SEQ, buffer and credit (R245, R249). -/
def tongueTaken (s : State) (k : Nat) (item : List Byte) : State :=
  setEyelet (takeItem s k item) k (fun e =>
    { e with tExpect := e.tExpect + 1, occupied := mapAt e.occupied 5 (· + 1),
             returnable := mapAt e.returnable 5 (· + 1), unechoed := e.unechoed + 1 })

/-- The latency accumulated by a message when it reaches this chip: what it carries and this hop's (R210). -/
def heardLat (s : State) (k : Nat) (item : List Byte) : Nat := (Tongue.parse item).lat + (s.eyelet k).hopLat

/-- The state once it has also been forwarded, on every other eyelet that is UP, with this hop's latency and 24 ns added
(R203). -/
def heard (s : State) (k : Nat) (item : List Byte) (parts : List (List Byte) := []) : State :=
  floodOut (tongueTaken s k item) { Tongue.parse item with lat := heardLat s k item + 24 * nsTicks } parts (some k)

/-- A message heard for the first time in the last millisecond, that acts on this chip's job `j` (R203, R204). -/
def Acts (s : State) (k : Nat) (item : List Byte) (type : Nat) (j : Job) : Prop :=
  Hears s k item type ∧ floodDup s (Tongue.parse item) = false ∧ actsOn s (Tongue.parse item) = true ∧ s.job = some j

/-! ### The sled -/

/-- `t` is `s` with one sled event recorded: in the sled log with the Cobbler's next SEQ, among the messages that await
an acknowledgement while there is room, and on the modelled chip where it has power (R433, R440). Orders and messages
that leave the Cobbler may differ besides. -/
def SledRecorded (s t : State) (code : Nat) (slots : List Nat) : Prop :=
  ∃ orders msgs evs, (s.cob.events.length < 256 →
      evs = s.cob.events ++ [{ seq := s.cob.nextSeq, entry := sledEntry code s.cob.nextSeq slots, sentAt := s.now }]) ∧
    let u : State := { s with
      cob := { s.cob with
        nextSeq := (s.cob.nextSeq + 1) % 2 ^ 32
        sledLog := s.cob.sledLog ++ [sledEntry code s.cob.nextSeq slots]
        events := evs }
      cobOut := orders
      apbelOut := msgs }
    if chipOn s s.position && barAlive s then Recorded u t code slots else t = u

/-- An Apbel request that the Cobbler acts on: it answers, the header is whole and its SEQ is not that of a kept reply
(R438, R439). -/
def Asked (s : State) (type : Nat) (msg : List Byte) : Prop :=
  cobAnswers s = true ∧ apbelHeaderOk type msg = true ∧ keptReply s (leAt msg 8 4) = none

/-- A request of the acoustic operation `op`: an Apbel request of type 0x11 whose body begins with `op` (18 R467). -/
def AskedAcoustic (s : State) (op : Nat) (msg : List Byte) : Prop :=
  Asked s 0x11 msg ∧ msg.drop 16 ≠ [] ∧ leAt (msg.drop 16) 0 1 = op

/-- The reply of a request: sent to its source, and kept (R439). -/
def replied (s : State) (src type : Nat) (msg : List Byte) (status : Nat) (body : List Byte) : State :=
  let m := apbelMsg type true status (leAt msg 8 4) body
  { s with
    cob := { s.cob with replies := keep s.cob.replies { seq := leAt msg 8 4, at_ := s.now, bytes := m } }
    apbelOut := s.apbelOut ++ [(.source src, m)] }

end Sys2Proof.Safety
end

