-- ==== Sys2Proof/Certificates/Slice0/Obligations.lean ====
section
/-! DEFINITION. The statements for the provers. -/
open Host Sys2Proof Sys2Proof.Machine Sys2Proof.Safety

/-! ### The block -/

/-- A step takes the command at the front of the queue and does what that command does, with the rest of the queue. -/
def Obligations.StepRunsTheFrontCommand : Prop :=
  ∀ (s : State) (c : Instr) (rest : List Instr), s.pending = c :: rest → step s = exec c { s with pending := rest }

/-- On an empty queue the released descriptor that waited longest starts (15 R383); with none, time passes. That time
passes by 1/16 ns, and that released descriptors start then, is the model's choice (log entries 2 and 3). -/
def Obligations.IdleStep : Prop :=
  ∀ s : State, s.pending = [] →
    (∀ i rest, s.ready = i :: rest → step s = exec i { s with ready := rest }) ∧
      (s.ready = [] → step s = .next { s with now := s.now + 1 })

/-- No command touches the queue, the time or the sled position. -/
def Obligations.CommandsKeepQueueTimePosition : Prop :=
  ∀ (c : Instr) (s t : State), exec c s = .next t → t.pending = s.pending ∧ t.now = s.now ∧ t.position = s.position

/-- Every step keeps the invariant: both memories in canonical form (03 R55, 12 R289), twenty regions and eighty crossings
(02 R29, R42), sixty-four rings, thirty-two vectors (15 R361, R385), sixteen eyelets, two routing banks, four rails, sixteen
template slots, four sled positions, four microphones. -/
def Obligations.StepKeepsInvariant : Prop :=
  ∀ s t : State, Safety.Inv s → step s = .next t → Safety.Inv t

/-- The state after reset meets the invariant. -/
def Obligations.ResetMeetsInvariant : Prop := Safety.Inv State.reset

/-- What the "At reset" column of 20 gives can be read over BAR0 after reset, and so can the state of the memories, the
tacks and the eyelets (10 R228, 15 R382, 19 R512). -/
def Obligations.ResetValues : Prop :=
  (readWord State.reset 0x208).1 = 20 ∧ (readWord State.reset 0x4000).1 = 24 ∧ (readWord State.reset 0x4004).1 = 24 ∧
    (readWord State.reset 0x4100).1 = 0x0208 ∧ (readWord State.reset 0x4104).1 = 0x0208 ∧
    (readWord State.reset 0x4110).1 = 0x8C8C8C8C ∧ (readWord State.reset 0x411C).1 = 780 + 24 * 65536 ∧
    (readWord State.reset 0x4220).1 = 2000 ∧ (readWord State.reset 0x4300).1 = 0xFFFF0000 ∧
    (readWord State.reset 0x5044).1 = 0 ∧ (readWord State.reset 0xF000).1 = 0 ∧ (readWord State.reset 0xF004).1 = 0 ∧
    (∀ k, k < 16 → (State.reset.eyelet k).state = .held ∧ State.reset.regs.graceMs.getD k 0 = 50) ∧
    (∀ t a n, insoleRead State.reset t a n = zeros n ∧ hbmRead State.reset a n = zeros n) ∧
    (∀ t, tackGet State.reset t = 0) ∧ (∀ r, State.reset.ring r = Ring.fresh) ∧
    State.reset.clk.ws = 0 ∧ State.reset.clk.pace = 0 ∧ State.reset.dev.state = .setup ∧ State.reset.job = none ∧
    State.reset.lasts = [] ∧ State.reset.host.nextSeq = 0

/-- A write to an insole or to HBM is read back; every other byte, the other memory and the marks of the words it does not
cover stay; a word that it covers whole loses its uncorrectable mark (03 R56, R61, 12 R289, R291). -/
def Obligations.MemoryReadAfterWrite : Prop :=
  (∀ (s : State) (tile a : Nat) (bs : List Byte), MemOk s.mem →
      let t := insoleWrite s tile a bs
      insoleRead t tile a bs.length = bs ∧ MemOk t.mem ∧ t.mem.hbm = s.mem.hbm ∧ t.mem.hbmBad = s.mem.hbmBad ∧
        (∀ k, k < insoleKey tile a ∨ insoleKey tile a + bs.length ≤ k → memGet t.mem.insole k = memGet s.mem.insole k) ∧
        (∀ g, g ∈ t.mem.insoleBad ↔
          g ∈ s.mem.insoleBad ∧ ¬(insoleKey tile a ≤ 8 * g ∧ 8 * g + 8 ≤ insoleKey tile a + bs.length))) ∧
    (∀ (s : State) (a : Nat) (bs : List Byte), MemOk s.mem →
      let t := hbmWrite s a bs
      hbmRead t a bs.length = bs ∧ MemOk t.mem ∧ t.mem.insole = s.mem.insole ∧ t.mem.insoleBad = s.mem.insoleBad ∧
        (∀ k, k < a ∨ a + bs.length ≤ k → memGet t.mem.hbm k = memGet s.mem.hbm k) ∧
        (∀ w, w ∈ t.mem.hbmBad ↔ w ∈ s.mem.hbmBad ∧ ¬(a ≤ 32 * w ∧ 32 * w + 32 ≤ a + bs.length)))

/-- The tacks (15 R382): add(a) is modulo 2^32; after it waits leave from the head of the list while the value is not 0,
each subtracting 1; a wait that finds the value not 0 completes at once and takes no entry, another joins the end of the
list; other tacks are untouched. The SIGNAL of a final completion is add(1). A region released so no longer holds for the
tack. Every tack is 0 after a cold start and after a function-level reset. -/
def Obligations.TackOperations : Prop :=
  (∀ (s : State) (t : Nat) (a : Word),
      let k := min (tackWaiters s t).length (tackGet s t + a).toNat
      (tackGet (tackAdd s t a) t).toNat = (tackGet s t + a).toNat - k ∧
        tackWaiters (tackAdd s t a) t = (tackWaiters s t).drop k ∧
        (∀ x, x ≠ t → tackGet (tackAdd s t a) x = tackGet s x ∧ tackWaiters (tackAdd s t a) x = tackWaiters s x) ∧
        (∀ w, w ∈ (tackWaiters s t).take k → w.1 ≠ 0 → Hold.tackWait t ∉ ((tackAdd s t a).region w.2).holds)) ∧
    (∀ (s : State) (t : Nat) (w : Nat × Nat),
      (tackGet s t ≠ 0 → (tackWait s t w).2 = true ∧ tackGet (tackWait s t w).1 t = tackGet s t - 1 ∧
        tackWaiters (tackWait s t w).1 t = tackWaiters s t) ∧
      (tackGet s t = 0 → (tackWait s t w).2 = false ∧ tackGet (tackWait s t w).1 t = 0 ∧
        tackWaiters (tackWait s t w).1 t = tackWaiters s t ++ [w])) ∧
    (∀ (s : State) (r : Nat) (c : Cpl) (t : Nat), c.final = true → c.answers = true → c.signal = some t →
      endOutst s r c = tackAdd (setRing s r (fun x => { x with running := x.running.filter (fun o => decide (o.slot ≠ c.index)) }))
        t 1) ∧
    (∀ t, tackGet State.reset t = 0) ∧
    (∀ (s : State) (xlat : List Nat) (v : Nat) (damaged : List Nat), s.dev.state = .cold → s.clk.locked = true →
      xlat.length = 80 → (∀ n ∈ xlat, n ≤ 6) →
      ∃ t, exec (.coldComplete xlat (some v) damaged) s = .next t ∧ ∀ x, tackGet t x = 0) ∧
    (∀ s : State, barAlive s = true → ∃ t, exec .functionLevelReset s = .next t ∧ ∀ x, tackGet t x = 0) ∧
    tackCount = 131072

/-! ### Descriptors in general -/

/-- A descriptor with a reserved bit set is malformed and completes with BAD_DESCRIPTOR; nothing else happens but
DESCRIPTOR_REFUSED (00 R7). -/
def Obligations.ReservedBitsRefused : Prop :=
  ∀ (s : State) (i : Instr) (d : Desc), descriptor i = some (d, true) → d.bytes.length = 64 →
    inTurn (s.ring d.ring) d.slot = true → (∀ o ∈ (s.ring d.ring).running, o.slot ≠ d.slot) →
    reservedClear d.op d.bytes = false →
    ∃ t sub, exec i s = .next t ∧ Refused (taken s d) t d 0x10 sub

/-- A descriptor that breaks any check of the table of bodies is refused with BAD_DESCRIPTOR and the check's sub-code, and
has no effect (15 R372). -/
def Obligations.MalformedRefused : Prop :=
  ∀ (s : State) (i : Instr) (d : Desc) (sub : Nat), descriptor i = some (d, true) → d.bytes.length = 64 →
    inTurn (s.ring d.ring) d.slot = true → (∀ o ∈ (s.ring d.ring).running, o.slot ≠ d.slot) → descCheck s d = some sub →
    ∃ t, exec i s = .next t ∧ Refused (taken s d) t d 0x10 sub

/-- A command that the device or job state forbids completes with BAD_STATE and has no effect (16 R396). -/
def Obligations.IllegalStateRefused : Prop :=
  ∀ (s : State) (i : Instr) (d : Desc) (sub : Nat), descriptor i = some (d, true) → Goes s d → legality s d.op = some sub →
    ∃ t, exec i s = .next t ∧ Refused (begun s d) t d 0x11 sub

/-- A descriptor with WAIT on a tack at 0 does not start: it joins the tack's wait list and is held, unanswered, and nothing
else changes (15 R383). -/
def Obligations.WaitingDescriptorIsHeld : Prop :=
  ∀ (s : State) (i : Instr) (d : Desc), descriptor i = some (d, true) → Read s d → d.flag 1 = true →
    tackGet s d.tack = 0 →
    ∃ t, exec i s = .next t ∧ outstOf t d.ring d.slot = some (outstanding d 0) ∧
      tackWaiters t d.tack = tackWaiters s d.tack ++ [(0, 65536 * d.ring + d.slot)] ∧
      (∃ w, t = { taken s d with mem := { s.mem with tackWaits := w }, held := s.held ++ [(65536 * d.ring + d.slot, i)] })

/-- The add that ends a descriptor's wait makes it ready to start, and the next step on an empty queue runs it; the value
the wait took is subtracted (15 R382, R383). -/
def Obligations.TackReleasesDescriptor : Prop :=
  ∀ (s : State) (tack ring slot : Nat) (a : Word) (i : Instr), tackGet s tack = 0 → a ≠ 0 → slot < 65536 →
    tackWaiters s tack = [(0, 65536 * ring + slot)] → s.held = [(65536 * ring + slot, i)] → s.ready = [] →
    s.pending = [] →
    let t := tackAdd s tack a
    t.ready = [i] ∧ t.held = [] ∧ tackWaiters t tack = [] ∧ tackGet t tack = a - 1 ∧
      (∀ o ∈ (t.ring ring).running, o.slot = slot → o.phase ≠ 0) ∧ step t = exec i { t with ready := [] }

/-! ### Commands of the rings: one descriptor each -/

/-- NOP completes with DONE. QUERY reports the tack it names, or the device and job states, the pace, the job tag, the tiles
in use, WS and JS (15 Tables 15.5 and 15.7). LOG_READ writes the entries of the log from START on to the host buffer and
reports COUNT, NEXT and the bytes written; a START not yet written gives no entry, too short a buffer sub-code 0x35 (19
R480). -/
def Obligations.NopQueryLogRead : Prop :=
  (∀ s d, Starts s d 0x01 → ∃ t, exec (.nop d) s = .next t ∧ Ended (begun s d) t d (finalCpl d 0x00 0)) ∧
  (∀ s d, Starts s d 0x02 → ∃ t res, exec (.query d) s = .next t ∧ Ended (begun s d) t d (finalCpl d 0x00 0 res) ∧
    (d.at 8 1 = 1 → leAt res 0 4 = (tackGet (begun s d) (d.at 12 4 % 2 ^ 17)).toNat) ∧
    (d.at 8 1 = 0 → leAt res 0 1 = s.dev.state.code ∧ leAt res 1 1 = s.clk.pace % 256 ∧
      leAt res 2 2 = (match s.job with | some j => j.tag % 65536 | none => 0xFFFF) ∧ leAt res 4 1 = (jobState s).code ∧
      leAt res 5 1 = (enabledTiles s).length % 256 ∧ leAt res 8 8 = s.clk.ws % 2 ^ 64 ∧ leAt res 16 8 = lowJs s % 2 ^ 64)) ∧
  (∀ s d, Starts s d 0x70 →
    (logSlice s (d.at 8 1) (d.at 12 4) (d.at 16 4) = none → ∃ t, exec (.logRead d) s = .next t ∧
      Ended (begun s d) t d (finalCpl d 0x00 0 (leBytes 4 0 ++ leBytes 4 (d.at 12 4) ++ leBytes 8 0))) ∧
    (∀ first es, logSlice s (d.at 8 1) (d.at 12 4) (d.at 16 4) = some (first, es) →
      let out := if d.flag 4 then skiveStream es.flatten else es.flatten
      (out.length ≤ d.at 32 4 → ∃ t, exec (.logRead d) s = .next t ∧
        Ended (hostWrite (begun s d) (d.at 24 8) out) t d
          (finalCpl d 0x00 0 (leBytes 4 es.length ++ leBytes 4 (first + es.length) ++ leBytes 8 out.length))) ∧
      (d.at 32 4 < out.length → ∃ t, exec (.logRead d) s = .next t ∧ Refused (begun s d) t d 0x10 0x35)))

/-- SET_BUDGET and SET_PACE_LIMIT record the values that the mask names for the next governor period, orders of lower rings
first, and complete with the effective values; a value above the Cobbler's cap is accepted, capped, and recorded as 0x5060
(13 R326 to R328). That the completion comes at once is the model's reading (log entry 36). -/
def Obligations.BudgetOrders : Prop :=
  (∀ s d, Starts s d 0x30 →
    let m := d.at 12 1
    let power := if bitOf m 0 then d.at 8 2 else s.heel.powerW
    let capped := bitOf m 0 && decide (s.heel.powerCap < power)
    ∃ t u orders, exec (.setBudget d) s = .next t ∧
      orders.Perm (s.heel.orders ++ (if bitOf m 0 then [(d.ring, Order.powerW (d.at 8 2))] else [])
        ++ (if bitOf m 1 then [(d.ring, Order.thermal (d.at 10 1))] else [])
        ++ (if bitOf m 2 then [(d.ring, Order.prefillRun (d.at 11 1))] else [])) ∧
      (s.heel.orders.Pairwise (fun a b => a.1 ≤ b.1) → orders.Pairwise (fun a b => a.1 ≤ b.1)) ∧
      (if capped then Recorded { begun s d with heel := { s.heel with orders := orders } } u 0x5060 []
        else u = { begun s d with heel := { s.heel with orders := orders } }) ∧
      Ended u t d (finalCpl d 0x00 0 (leBytes 2 (min power s.heel.powerCap) ++
        [byteOf (if bitOf m 1 then d.at 10 1 else s.heel.thermal), byteOf (if bitOf m 2 then d.at 11 1 else s.heel.prefillRun)])
        (if capped then 4 else 0))) ∧
  (∀ s d, Starts s d 0x31 →
    let capped := decide (s.heel.paceCap < d.at 8 1)
    ∃ t u orders, exec (.setPaceLimit d) s = .next t ∧
      orders.Perm (s.heel.orders ++ [(d.ring, Order.paceMax (d.at 8 1))]) ∧
      (s.heel.orders.Pairwise (fun a b => a.1 ≤ b.1) → orders.Pairwise (fun a b => a.1 ≤ b.1)) ∧
      (if capped then Recorded { begun s d with heel := { s.heel with orders := orders } } u 0x5060 []
        else u = { begun s d with heel := { s.heel with orders := orders } }) ∧
      Ended u t d (finalCpl d 0x00 0 [byteOf (min (d.at 8 1) s.heel.paceCap)] (if capped then 4 else 0)))

/-- TILE_RETIRE: a spare is retired at once; an enabled tile of a chip without a job is retired and a spare, if one is left,
takes its place (03 R69); under a job the retirement waits; a tile that is retired, factory off or does not exist is refused
(19 R471). Only the health records change, and event 0x4013 says what happened. LINK_RETRAIN (10 R231, 19 R473): a held eyelet is refused, and so is a bridge over an eyelet of a job's lacing. An eyelet
that is training or DOWN takes the new width cap, speed and lane-retire mask at once and stands in DOWN; two such eyelets can
be bridged to each other; nothing else changes. An eyelet that is UP passes the link-down actions first. PAGE_RETIRE (12 R295): an address outside HBM is BAD_ADDRESS; with a spare of the bank left the page's copy begins and the
descriptor waits for it; else its 16 MiB block is excluded, block 9,215 and a 257th block being refused. -/
def Obligations.RetirementsAndRetraining : Prop :=
  (∀ s d h, Starts s d 0x40 → s.mem.tiles[d.at 8 1]? = some h →
      (2 ≤ h.state → ∃ t, exec (.tileRetire d) s = .next t ∧ Refused (begun s d) t d 0x10 0x32) ∧
      (h.state = 1 → ∃ t u v, exec (.tileRetire d) s = .next t ∧ (∃ ts, u = { begun s d with mem := { s.mem with
            tacks := (begun s d).mem.tacks, tiles := ts } }) ∧
          (u.mem.tiles.getD (d.at 8 1) h).state = 2 ∧ (∀ x, x ≠ d.at 8 1 → u.mem.tiles[x]? = s.mem.tiles[x]?) ∧
          Recorded u v 0x4013 [d.at 8 1, 0xFF, (enabledTiles u).length] ∧ Ended v t d (finalCpl d 0x00 0)) ∧
      (h.state = 0 → s.job ≠ none → ∃ t u, exec (.tileRetire d) s = .next t ∧ (∃ ts, u = { begun s d with mem := { s.mem with
            tacks := (begun s d).mem.tacks, tiles := ts } }) ∧
          (u.mem.tiles.getD (d.at 8 1) h).pending = true ∧ (u.mem.tiles.getD (d.at 8 1) h).state = 0 ∧
          (∀ x, x ≠ d.at 8 1 → u.mem.tiles[x]? = s.mem.tiles[x]?) ∧ Ended u t d (finalCpl d 0x00 0)) ∧
      (h.state = 0 → s.job = none → ∃ t u v, exec (.tileRetire d) s = .next t ∧ (∃ ts, u = { begun s d with mem := { s.mem with
            tacks := (begun s d).mem.tacks, tiles := ts } }) ∧
          (u.mem.tiles.getD (d.at 8 1) h).state = 2 ∧
          (match (spareTiles s).head? with
            | some p => (u.mem.tiles.getD p h).state = 0 ∧ (∀ x, x ≠ d.at 8 1 → x ≠ p → u.mem.tiles[x]? = s.mem.tiles[x]?)
            | none => ∀ x, x ≠ d.at 8 1 → u.mem.tiles[x]? = s.mem.tiles[x]?) ∧
          Recorded u v 0x4013 [d.at 8 1, ((spareTiles s).head?).getD 0xFF, (enabledTiles u).length] ∧
          Ended v t d (finalCpl d 0x00 0))) ∧
  (∀ s d, Starts s d 0x41 → d.at 8 1 < s.eyelets.length →
      let k := d.at 8 1
      let set (e : Eyelet) : Eyelet := { e with widthCap := d.at 9 1, speedPin := bitOf (d.at 10 1) 0, laneRetire := d.at 11 1 }
      let low (e : Eyelet) : Eyelet := if e.state = .down then e else dropLink e .down
      ((s.eyelet k).state = .held → ∃ t, exec (.linkRetrain d) s = .next t ∧ Refused (begun s d) t d 0x11 0x12) ∧
      (bitOf (d.at 12 1) 0 = true → lacingUses s k = true → (s.eyelet k).state ≠ .held → (s.eyelet (d.at 13 1)).state ≠ .held →
        ∃ t, exec (.linkRetrain d) s = .next t ∧ Refused (begun s d) t d 0x11 0x0F) ∧
      (bitOf (d.at 12 1) 0 = false → (s.eyelet k).bridgePeer = none → (s.eyelet k).state ≠ .held → (s.eyelet k).state ≠ .up →
        (s.eyelet k).state ≠ .relay → ∃ t u, exec (.linkRetrain d) s = .next t ∧
          OnlyEyelet (begun s d) u k (fun e => set (low e)) ∧ Ended u t d (finalCpl d 0x00 0)) ∧
      (bitOf (d.at 12 1) 0 = true → d.at 13 1 < s.eyelets.length → d.at 13 1 ≠ k →
        (∀ x, x = k ∨ x = d.at 13 1 → (s.eyelet x).bridgePeer = none ∧ (s.eyelet x).state ≠ .held ∧ (s.eyelet x).state ≠ .up ∧
          (s.eyelet x).state ≠ .relay ∧ lacingUses s x = false) →
        ∃ t u v, exec (.linkRetrain d) s = .next t ∧
          OnlyEyelet (begun s d) u k (fun e => { set (low e) with bridgePeer := some (d.at 13 1) }) ∧
          OnlyEyelet u v (d.at 13 1) (fun e => { low e with bridgePeer := some k }) ∧ Ended v t d (finalCpl d 0x00 0)) ∧
      (bitOf (d.at 12 1) 0 = false → (s.eyelet k).bridgePeer = none → (s.eyelet k).state = .up → lacingUses s k = false →
        ∃ t u v, exec (.linkRetrain d) s = .next t ∧ LeftUp (begun s d) u k 0x02 true .down ∧ OnlyEyelet u v k set ∧
          Ended v t d (finalCpl d 0x00 0))) ∧
  (∀ s d, Starts s d 0x42 →
      let a := d.at 8 8
      (hbmEnd ≤ a → ∃ t, exec (.pageRetire d) s = .next t ∧ Ended (begun s d) t d (finalCpl d 0x12 0)) ∧
      (a < hbmEnd → sparesTaken s a < 2 → exec (.pageRetire d) s = .next { begun s d with mem := { (begun s d).mem with
        copying := s.mem.copying ++ [(d.ring, d.slot, hbmPage a, sparesTaken s a)] } }) ∧
      (a < hbmEnd → 2 ≤ sparesTaken s a →
        (hbmBlock a = 9215 → ∃ t, exec (.pageRetire d) s = .next t ∧ Refused (begun s d) t d 0x11 0x11) ∧
        (hbmBlock a ≠ 9215 → hbmBlock a ∈ excludedBlocks s → ∃ t, exec (.pageRetire d) s = .next t ∧
          Ended (begun s d) t d (finalCpl d 0x00 0 [] 8)) ∧
        (hbmBlock a ≠ 9215 → hbmBlock a ∉ excludedBlocks s → 256 ≤ (excludedBlocks s).length →
          ∃ t, exec (.pageRetire d) s = .next t ∧ Refused (begun s d) t d 0x11 0x10) ∧
        (hbmBlock a ≠ 9215 → hbmBlock a ∉ excludedBlocks s → (excludedBlocks s).length < 256 →
          ∃ t u, exec (.pageRetire d) s = .next t ∧ Recorded { begun s d with mem := { (begun s d).mem with
              retired := s.mem.retired ++ [{ addr := hbmBlock a * 2 ^ 24, kind := 2, spare := 0, corrected := 0 }] } } u 0x4024 [] ∧
            Ended u t d (finalCpl d 0x00 0 [] 8))))

/-- TABLE_LOAD: a whole image of the right kind is loaded into the bank, as the job's next peers, into the template slot or
the key slot that it names, and nothing else changes; a template that meets a batch in progress waits for
TEMPLATE_LOAD_COMPLETE, and a key of length 0 clears its slot (11 R273, R282, 12 R312, 14 R345, 15 R373). -/
def Obligations.TableLoads : Prop :=
  (∀ s d image b, Starts s d 0x60 → d.at 8 1 = 1 → s.svc.activeBank ≠ d.at 9 1 →
    (bitOf (d.at 10 1) 0 = true → jobLive s = false) → bankQuiet s (d.at 9 1) = true → hostData d image = some b →
    routingHeaderOk s (d.at 9 1) b = true →
    (List.range (leAt b 6 1 * leAt b 7 1 * leAt b 8 1)).all (routingEntryOk s b) = true →
    ∃ t, exec (.tableLoadRouting d image) s = .next t ∧
      Ended { begun s d with svc := { s.svc with
        banks := setAt s.svc.banks (d.at 9 1) (some (parseRouting b))
        activeBank := if bitOf (d.at 10 1) 0 then d.at 9 1 else s.svc.activeBank } } t d (finalCpl d 0x00 0)) ∧
  (∀ s d image b j l ps, Starts s d 0x60 → d.at 8 1 = 2 → s.job = some j → jobLast s = some l → j.tag = d.at 12 2 →
    isLeader s = true → hostData d image = some b → leAt b 0 4 = 0x52454550 → leAt b 4 1 ≤ 4 → zeroRange b 5 11 = true →
    parsePeers l.log2L b (leAt b 4 1) 16 = some ps →
    ∃ t, exec (.tableLoadPeer d image) s = .next t ∧
      Ended { begun s d with job := some { j with nextPeers := some ps } } t d (finalCpl d 0x00 0)) ∧
  (∀ s d image b p, Starts s d 0x60 → d.at 8 1 = 3 → hostData d image = some b → parseTemplate b = some p →
    (s.shank.batch = none → ∃ t, exec (.tableLoadTemplate d image) s = .next t ∧
      Ended { begun s d with shank := { s.shank with slots := setAt s.shank.slots (d.at 9 1) (some p) } } t d
        (finalCpl d 0x00 0)) ∧
    (s.shank.batch ≠ none → exec (.tableLoadTemplate d image) s = .next { begun s d with shank := { s.shank with
      loading := s.shank.loading ++ [(d.at 9 1, p, d.ring, d.slot)] } })) ∧
  (∀ s d image, Starts s d 0x60 → d.at 8 1 = 4 →
    (d.at 24 4 = 0 → ∃ t, exec (.tableLoadKey d image) s = .next t ∧
      Ended { begun s d with keys := setAt s.keys (d.at 9 1) none } t d (finalCpl d 0x00 0)) ∧
    (∀ b, d.at 24 4 ≠ 0 → hostData d image = some b → b.length = 104 → leAt b 0 8 ≠ 0 →
      onP384 (beNat (slice b 8 48)) (beNat (slice b 56 48)) = true →
      (∀ i, i < 4 → i ≠ d.at 9 1 → ((s.keys.getD i none).map (·.id)) ≠ some (leAt b 0 8)) →
      let key : LastKey := ⟨leAt b 0 8, beNat (slice b 8 48), beNat (slice b 56 48)⟩
      ∃ t, exec (.tableLoadKey d image) s = .next t ∧
        Ended { begun s d with keys := setAt s.keys (d.at 9 1) (some key) } t d (finalCpl d 0x00 0))) ∧
  (∀ s slot p d rest, s.shank.batch = none → s.shank.loading = (slot, p, d.ring, d.slot) :: rest →
    outstOf s d.ring d.slot = some (outstanding d 2) → d.op = 0x60 →
    ∃ t, exec .templateLoadComplete s = .next t ∧
      Ended { s with shank := { s.shank with slots := setAt s.shank.slots slot (some p), loading := rest } } t d
        (finalCpl d 0x00 0))

/-! ### The shared operations -/

/-- What the shared operations do, each and nothing else: an event is recorded (15 R380, R382), a limited event is recorded or
counted (R387), a descriptor is answered (R378, R379) or refused (R396), one eyelet is changed, an eyelet leaves UP (10 R253),
a sled event is recorded (17 R433), an Apbel request is received, counted as broken or answered from the kept replies (17 R437
to R439). The statements about commands are in these operations. -/
def Obligations.SharedOperations : Prop :=
  (∀ s code slots, Recorded s (event s code slots) code slots) ∧
  (∀ s code sub period slots, Limited s (eventLimited s code sub period slots) code sub period slots) ∧
  (∀ s d p status sub res fl, outstOf s d.ring d.slot = some (outstanding d p) → d.op ≠ 0x80 → fl % 2 = 0 → fl < 250 →
    Ended s (complete s d.ring d.slot status sub res fl) d (finalCpl d status sub res fl)) ∧
  (∀ s d p status sub, outstOf s d.ring d.slot = some (outstanding d p) →
    Refused s (refuseDesc s d status sub) d status sub) ∧
  (∀ s k f, k < s.eyelets.length → OnlyEyelet s (setEyelet s k f) k f) ∧
  (∀ s k cause notice next, k < s.eyelets.length → LeftUp s (leaveUp s k cause notice next) k cause notice next) ∧
  (∀ s code slots, SledRecorded s (sledEvent s code slots) code slots) ∧
  (∀ s src type msg f,
    (cobAnswers s = false → onRequest s src type msg f = s) ∧
    (cobAnswers s = true → apbelHeaderOk type msg = false →
      onRequest s src type msg f = { s with cob := { s.cob with badMessages := s.cob.badMessages + 1 } }) ∧
    (∀ k, cobAnswers s = true → apbelHeaderOk type msg = true → keptReply s (leAt msg 8 4) = some k →
      onRequest s src type msg f = { s with apbelOut := s.apbelOut ++ [(.source src, k.bytes)] }) ∧
    (∀ t status body, Asked s type msg → f s (msg.drop 16) (leAt msg 8 4) = (t, some (status, body)) →
      onRequest s src type msg f = replied t src type msg status body))

/-! ### The links -/

/-- Training (10 R226 to R234, Table 10.4): a TS brings an eyelet from DETECT to EQUALISE and, with EQ_DONE, to LOCK on the
lanes chosen or to DOWN; a timeout, a lock, the exchange of identities and of 64 latency probes each take the eyelet one state
further, and change nothing else. -/
def Obligations.LinkTraining : Prop :=
  (∀ s k lanes ok ts rest, lanes.filter tsOk = ts :: rest →
    (∀ b, (s.eyelet k).state = .held → exec (.trainingSequence k lanes b ok) s =
      .next (setEyelet s k (fun e => { e with partnerActive := true }))) ∧
    ((s.eyelet k).state = .detect → 3 ≤ rest.length → (leAt ts 4 1 = 1 → (s.eyelet k).partnerLocked = false) →
      exec (.trainingSequence k lanes true ok) s = .next (setEyelet s k (fun e => { e with state := .equalise }))) ∧
    (∀ b, (s.eyelet k).state = .equalise → leAt ts 4 1 = 3 →
      let common := (ok &&& leAt ts 6 1) &&& (255 - (s.eyelet k).laneRetire)
      let ls := chooseLanes common (s.eyelet k).widthCap
      (ls = [] → exec (.trainingSequence k lanes b ok) s = .next (event (setEyelet s k (fun e =>
        { e with state := .down, slowNext := e.slowNext || decide ((laneList ok).length < 4) })) 0x2203 [k])) ∧
      (ls ≠ [] →
        let u := setEyelet s k (fun e =>
          { e with state := .lock, lanes := ls, laneOk := common, slowNext := false,
                   slow := e.speedPin || e.slowNext || decide (leAt ts 7 1 % 4 = 1), hopLocked := false })
        exec (.trainingSequence k lanes b ok) s = .next (if ls.length < 8 then event u 0x2204 [k, ls.length] else u)))) ∧
  (∀ s k, (s.eyelet k).state = .detect → (s.eyelet k).trainFailAt = none → exec (.trainingStateTimeout k) s =
    .next (event (setEyelet s k (fun e => { e with trainFailAt := some s.now })) 0x2203 [k])) ∧
  (∀ s k, (s.eyelet k).state = .equalise ∨ (s.eyelet k).state = .lock ∨ (s.eyelet k).state = .exchange ∨
      (s.eyelet k).state = .credit →
    exec (.trainingStateTimeout k) s = .next (event (setEyelet s k (dropLink · .down)) 0x2203 [k])) ∧
  (∀ s k, k < s.eyelets.length → (s.eyelet k).state = .lock → (s.eyelet k).bridgePeer = none →
    let u := setEyelet s k (fun e =>
      { e with partnerLocked := true, hopLocked := true, state := .exchange, identitySent := s.dev.coordValid })
    exec (.codewordLock k) s = .next (setEyelet u k (fun e => { e with out := e.out ++ [exchangeItem u k] }))) ∧
  (∀ s k p, k < s.eyelets.length → p ≠ k → (s.eyelet k).state = .lock → (s.eyelet k).bridgePeer = some p →
    (s.eyelet p).state = .lock → (s.eyelet p).hopLocked = true → (s.eyelet p).lanes.length = (s.eyelet k).lanes.length →
    (s.eyelet p).slow = (s.eyelet k).slow →
    exec (.codewordLock k) s = .next (setEyelet (setEyelet s k (fun e =>
      { e with partnerLocked := true, hopLocked := true, state := .relay })) p (fun e => { e with state := .relay }))) ∧
  (∀ s k, (s.eyelet k).state = .down → exec (.backoffExpiry k) s = .next (setEyelet s k (fun e =>
    { e with state := .detect, lanes := [], slow := false, laneOk := 0, trainings := satUp e.trainings,
             identityOk := false, identitySent := false, partnerRxNext := none, probesSent := 0, probesAnswered := [],
             latMax := 0, hopLocked := false, partnerActive := false }))) ∧
  (∀ s k lane, (s.eyelet k).lanes.contains lane = true → (s.eyelet k).state = .up →
    exec (.markerLoss k lane) s = .next (leaveUp s k 0x02 true .down)) ∧
  (∀ s k, (s.eyelet k).state = .exchange → (s.eyelet k).identityOk = false → exec (.exchangeResend k) s =
    .next (setEyelet s k (fun e => { e with identitySent := s.dev.coordValid, out := e.out ++ [exchangeItem s k] }))) ∧
  (∀ s k, (s.eyelet k).state = .exchange → (s.eyelet k).probesSent < 64 → exec (.latProbeSend k) s =
    .next (setEyelet s k (fun e =>
      { e with probesSent := e.probesSent + 1,
               out := e.out ++ [miniUnit [0x04, byteOf (s.eyelet k).probesSent]] })))

/-- What an eyelet in EXCHANGE or CREDIT makes of the training mini-units (10 R232, R233, R252): a whole EXCHANGE gives the
partner's identity, a LAT_PROBE is echoed, a LAT_ECHO is one sample of the latency, the last of them freezes it and sends
CREDIT_INIT, and a valid CREDIT_INIT brings the eyelet UP with the partner's credits and its numbers at 0. -/
def Obligations.LinkExchange : Prop :=
  (∀ s k item, k < s.eyelets.length → (s.eyelet k).state = .exchange → miniOk item = true → leAt item 0 1 = 0x06 →
    leAt item 1 1 = 1 → bitOf (leAt item 4 1) 4 = true → inPod s (leAt item 2 2) = true →
    let u := setEyelet (takeItem s k item) k (fun e =>
      { e with identityOk := true, partnerCoord := leAt item 2 2, partnerEyelet := leAt item 4 1 % 16, partnerValid := true,
               partnerRxNext := if bitOf (leAt item 6 2) 15 then some (leAt item 6 2 % 4096) else none })
    exec (.exchange k item) s = .next (if (s.eyelet k).identitySent ∧ 64 ≤ (s.eyelet k).probesAnswered.length then
      setEyelet u k (fun e =>
        { e with state := .credit, hopLat := e.latMax, overClass := decide (classLimit s.position k < e.latMax),
                 out := e.out ++ [creditInitItem] }) else u)) ∧
  (∀ s k item turn, k < s.eyelets.length → (s.eyelet k).state = .exchange ∨ (s.eyelet k).state = .credit →
    miniOk item = true → leAt item 0 1 = 0x04 → exec (.latProbe k item turn) s = .next (setEyelet (takeItem s k item) k
      (fun e => { e with out := e.out ++ [miniUnit ([0x05, byteAt item 1] ++ leBytes 2 turn)] }))) ∧
  (∀ s k item round, k < s.eyelets.length → (s.eyelet k).state = .exchange → miniOk item = true → leAt item 0 1 = 0x05 →
    leAt item 1 1 < (s.eyelet k).probesSent → leAt item 1 1 ∉ (s.eyelet k).probesAnswered →
    let u := setEyelet (takeItem s k item) k (fun e =>
      { e with probesAnswered := e.probesAnswered ++ [leAt item 1 1], latMax := max e.latMax ((round - leAt item 2 2) / 2) })
    exec (.latEcho k item round) s = .next (if (s.eyelet k).identityOk ∧ (s.eyelet k).identitySent ∧
        63 ≤ (s.eyelet k).probesAnswered.length then
      setEyelet u k (fun e =>
        { e with state := .credit, hopLat := e.latMax, overClass := decide (classLimit s.position k < e.latMax),
                 out := e.out ++ [creditInitItem] }) else u)) ∧
  (∀ s k item a, k < s.eyelets.length → (s.eyelet k).state = .credit → miniOk item = true → leAt item 0 1 = 0x07 →
    parseAdvert item = some a → (s.eyelet k).graceUntil = none → ∃ u t, exec (.creditInit k item) s = .next t ∧
      OnlyEyelet s u k (fun e => u.eyelet k) ∧ Recorded u t 0x2201 [k] ∧ (u.eyelet k).state = .up ∧
      (u.eyelet k).advert = a ∧ (u.eyelet k).credits = (a.res ++ [0, 0, 0, 0]).take 4 ++ [a.shared, a.tongue] ∧
      (u.eyelet k).sendSeq = 0 ∧ (u.eyelet k).expect = 0 ∧ (u.eyelet k).tSend = 0 ∧ (u.eyelet k).tExpect = 0 ∧
      (u.eyelet k).upAt = s.now ∧ (u.eyelet k).lanes = (s.eyelet k).lanes ∧ (u.eyelet k).hopLat = (s.eyelet k).hopLat ∧
      (u.eyelet k).txSvc = (s.eyelet k).txSvc)

/-- What an eyelet that is UP makes of what it receives (10 R223, R240 to R248, R253, R255, R256): codewords, units, ACK,
NAK, CREDIT_REPORT, DOWN_NOTICE and fillers. A unit of bad CRC is NAKed, an old one is dropped, one ahead of its turn waits
in the reorder window; an ECHO frees what the partner holds; a NAK queues the unit for sending again, at the ninth time the
link goes down. -/
def Obligations.LinkReceive : Prop :=
  (∀ s k marker data n, k < s.eyelets.length → (s.eyelet k).state = .up →
    let u := setEyelet s k (fun e => { e with badRun := 0 })
    let v := setEyelet s k (fun e => { e with uncorrected := satUp e.uncorrected, badRun := e.badRun + 1 })
    (n ≤ 15 → exec (.codewordReceived k marker data n) s =
      .next (if marker = 0 then (codewordBlocks data).foldl (takeBlock k) u else u)) ∧
    (15 < n → (s.eyelet k).badRun < 7 → exec (.codewordReceived k marker data n) s =
      .next (if marker = 0 then (codewordBlocks data).foldl (takeBlock k) v else v)) ∧
    (15 < n → 7 ≤ (s.eyelet k).badRun → exec (.codewordReceived k marker data n) s = .next (leaveUp v k 0x02 true .down))) ∧
  (∀ s k p data n, (s.eyelet k).state = .relay → (s.eyelet k).bridgePeer = some p → n ≤ 15 → k < s.eyelets.length →
    exec (.codewordReceived k 0 data n) s = .next (setEyelet (setEyelet s k (fun e => { e with badRun := 0 })) p
      (fun f => { f with out := f.out ++ (codewordBlocks data).map (·.2) }))) ∧
  (∀ s k item, k < s.eyelets.length → item.length = 256 → (s.eyelet k).state = .up →
    let q := unitSeq item
    let d := (q + 4096 - (s.eyelet k).expect % 4096) % 4096
    (unitCrcOk item = false → exec (.weltUnitReceived k item) s =
      .next (nakSeq (takeItem s k item) k ((s.eyelet k).expect % 4096))) ∧
    (unitCrcOk item = true → bitOf (leAt item 248 2) 12 = false →
      (3072 ≤ d → exec (.weltUnitReceived k item) s = .next (takeItem s k item)) ∧
      (1024 ≤ d → d < 3072 → exec (.weltUnitReceived k item) s = .next (violation (takeItem s k item) k 0x2211 q)) ∧
      (0 < d → d < 64 → assoc q (s.eyelet k).reorder = none → overruns (s.eyelet k) item = false → unitBad item = false →
        exec (.weltUnitReceived k item) s = .next (nakMissing (occupy (setEyelet (takeItem s k item) k (fun e =>
          { e with reorder := e.reorder ++ [(q, item)] })) k item) k d)) ∧
      (∀ t, d = 0 → assoc q (s.eyelet k).reorder = none → overruns (s.eyelet k) item = false → unitBad item = false →
        deliverUnit (takeItem s k item) k item = (t, true) → exec (.weltUnitReceived k item) s =
          .next (deliverHeld k 64 (occupy (setEyelet t k (fun e =>
            { e with expect := e.expect + 1, unechoed := e.unechoed + 1,
                     ackDue := e.ackDue || decide (16 ≤ e.unechoed + 1) })) k item))))) ∧
  (∀ s k item, k < s.eyelets.length → (s.eyelet k).state = .up → miniOk item = true → leAt item 0 1 = 0x01 →
    bitOf (leAt item 5 1) 0 = false →
    let f := fun i => if i < 4 then leAt item (8 + i) 1 else if i = 4 then leAt item 12 2 else leAt item 14 1
    (bitOf (leAt item 2 2) 12 = false → exec (.ack k item) s =
      .next ((List.range 6).foldl (fun u i => takeReturn u k i (f i)) (takeItem s k item))) ∧
    (∀ n, bitOf (leAt item 2 2) 12 = true → behind (s.eyelet k).sendSeq 4096 (leAt item 2 2 % 4096) = some n →
      let left := (s.eyelet k).replay.filter (fun r => decide (1023 < (leAt item 2 2 % 4096 + 4096 - r.seq) % 4096))
      exec (.ack k item) s = .next ((List.range 6).foldl (fun u i => takeReturn u k i (f i))
        (setEyelet (takeItem s k item) k (fun e =>
          { e with replay := left, resendQ := e.resendQ.filter (fun q => left.any (fun r => decide (r.seq = q))),
                   ackAdvanceAt := if left.length < e.replay.length then s.now else e.ackAdvanceAt }))))) ∧
  (∀ s k kind n, 0 < n → (s.eyelet k).credits.getD kind 0 + n ≤ (s.eyelet k).advert.kinds.getD kind 0 →
    takeReturn s k kind n = setEyelet s k (fun e =>
      { e with credits := mapAt e.credits kind (· + n), gotBack := mapAt e.gotBack kind (fun x => (x + n) % 65536) })) ∧
  (∀ s k item r, k < s.eyelets.length → (s.eyelet k).state = .up → miniOk item = true → leAt item 0 1 = 0x02 →
    bitOf (leAt item 2 2) 13 = false → bitOf (leAt item 2 2) 12 = false →
    (s.eyelet k).replay.find? (fun r => decide (r.seq = leAt item 2 2 % 4096)) = some r →
    leAt item 2 2 % 4096 ∉ (s.eyelet k).resendQ → r.sends < 2 ∨ r.sentAt + roundTrip (s.eyelet k) 64 ≤ s.now →
    (r.sends < 8 → exec (.nak k item) s = .next (setEyelet (takeItem s k item) k (fun e =>
      { e with resendQ := e.resendQ ++ [leAt item 2 2 % 4096] }))) ∧
    (8 ≤ r.sends → exec (.nak k item) s =
      .next (leaveUp (event (takeItem s k item) 0x2205 [k]) k 0x05 true .down))) ∧
  (∀ s k item, k < s.eyelets.length → (s.eyelet k).state = .up → miniOk item = true → leAt item 0 1 = 0x03 →
    let early := (s.eyelet k).returned.filter (fun x => decide (x.1 + roundTrip (s.eyelet k) 64 < s.now))
    (∀ i, i < 6 → leAt item (2 + 2 * i) 2 = ((early.getLast?.map (·.2)).getD []).getD i 0 % 65536) →
    (∀ i, i < 4 → (s.eyelet k).leaks.getD i 0 < 16) → exec (.creditReport k item) s =
      .next (setEyelet (takeItem s k item) k (fun e =>
        { e with returned := early.drop (early.length - 1) ++ e.returned.drop early.length }))) ∧
  (∀ s k item, k < s.eyelets.length → miniOk item = true → leAt item 0 1 = 0x08 → (s.eyelet k).state ≠ .held →
    let u := setEyelet (takeItem s k item) k (fun e => { e with partnerLocked := true })
    ((s.eyelet k).state = .up → exec (.downNotice k item) s = .next (leaveUp u k (leAt item 1 1) false .down)) ∧
    ((s.eyelet k).state ≠ .up → exec (.downNotice k item) s = .next u)) ∧
  (∀ s k item, k < s.eyelets.length → (s.eyelet k).state = .up → miniOk item = true →
    exec (.idle k item) s = .next (if miniBad item then violation (takeItem s k item) k 0x2215 (leAt item 0 1)
      else takeItem s k item)) ∧
  (∀ s k, (s.eyelet k).graceUntil ≠ none → (s.eyelet k).state ≠ .up →
    exec (.graceExpiry k) s = .next (flushEyelet (event s 0x2209 [k]) k))

/-- What an eyelet sends (10 R187, R188, R239, R241, R243, R245, R247, R249): at an opportunity the first class with
something to send, in the order tongue, scheduled re-sends, scheduled units, late units, link control, service re-sends,
service units, else IDLE; the timers queue acknowledgements and re-sends, and the ninth sending of a unit is the retry
limit. -/
def Obligations.LinkSend : Prop :=
  (∀ s k, (s.eyelet k).state = .lock ∨ (s.eyelet k).state = .exchange ∨ (s.eyelet k).state = .credit →
    exec (.unitOpportunity k) s = .next (setEyelet s k (fun e => { e with out := e.out ++ [miniUnit [0x00]] }))) ∧
  (∀ s k, (s.eyelet k).state = .up → (s.eyelet k).replay.length < 1024 → exec (.unitOpportunity k) s =
    .next (([oppTongue s k, oppResend s k false, oppSched s k false, oppSched s k true, oppCtl s k, oppResend s k true,
      oppSvc s k].findSome? id).getD (setEyelet s k (fun e => { e with out := e.out ++ [miniUnit [0x00]] })))) ∧
  (∀ s k m rest, (s.eyelet k).state = .up → (s.eyelet k).replay.length < 1024 → (s.eyelet k).tResendQ = [] →
    (s.eyelet k).txTongue = m :: rest → 0 < (s.eyelet k).credits.getD 5 0 →
    let q := (s.eyelet k).tSend % 256
    let item := miniUnit ((overlay m 1 [byteOf q]).take 28)
    exec (.unitOpportunity k) s = .next (setEyelet s k (fun e =>
      { e with txTongue := rest, tSend := e.tSend + 1, credits := mapAt e.credits 5 (· - 1),
               tUnacked := e.tUnacked ++ [⟨q, item, 1, s.now⟩], out := e.out ++ [item] }))) ∧
  (∀ s k, (s.eyelet k).state = .up → (s.eyelet k).replay = [] → (s.eyelet k).resendQ = [] → (s.eyelet k).tResendQ = [] →
    (s.eyelet k).txTongue = [] → (s.eyelet k).txSched = [] → (s.eyelet k).txCtl = [] →
    ((s.eyelet k).ackDue = true → exec (.unitOpportunity k) s =
      .next (setEyelet s k (fun e => { ackSent s.now e with out := e.out ++ [ackItem e] }))) ∧
    ((s.eyelet k).ackDue = false → (s.eyelet k).txResume = [] → (∀ vc, (s.eyelet k).txSvc.getD vc [] = []) →
      exec (.unitOpportunity k) s = .next (setEyelet s k (fun e => { e with out := e.out ++ [miniUnit [0x00]] })))) ∧
  (∀ s k, (s.eyelet k).state = .up → ackWorth (s.eyelet k) = true →
    exec (.ackDue k) s = .next (setEyelet s k (fun e => { e with ackDue := true }))) ∧
  (∀ s k r rest, (s.eyelet k).state = .up → (s.eyelet k).replay = r :: rest → r.seq ∉ (s.eyelet k).resendQ →
    exec (.resendTimeout k) s = .next (if r.sends < 8 then setEyelet s k (fun e => { e with resendQ := e.resendQ ++ [r.seq] })
      else leaveUp (event s 0x2205 [k]) k 0x05 true .down)) ∧
  (∀ s k, (s.eyelet k).state = .up → (s.eyelet k).tUnacked ≠ [] → exec (.tongueResendTimeout k) s =
    .next (if (s.eyelet k).tUnacked.any (fun u => decide (8 ≤ u.sends)) then
        leaveUp (event s 0x2205 [k]) k 0x05 true .down
      else setEyelet s k (fun e => { e with tResendQ := (s.eyelet k).tUnacked.map (·.tseq) }))) ∧
  (∀ s k, (s.eyelet k).state = .up → exec (.creditReportSend k) s = .next (setEyelet s k (fun e =>
    { e with txCtl := e.txCtl ++ [miniUnit ([0x03, 0] ++ e.gotBack.flatMap (leBytes 2))] })))

/-! ### The tongue -/

/-- A tongue message (09 R203, R204, 10 R249): one that is not expected next is not accepted but NAKed, a copy seen within the
last millisecond goes no further, and one that does not act on the job is only forwarded and perhaps noted as foreign. -/
def Obligations.TongueReception : Prop :=
  ∀ s k item type c, (type, c) ∈ [(0x12, Instr.ready k item), (0x13, Instr.start k item), (0x14, Instr.abort k item),
      (0x15, Instr.slip k item), (0x16, Instr.slipReady k item), (0x17, Instr.resume k item), (0x18, Instr.stop k item),
      (0x19, Instr.pace k item)] →
    (Hears s k item type → floodDup s (Tongue.parse item) = true → exec c s = .next (tongueTaken s k item)) ∧
    (Hears s k item type → floodDup s (Tongue.parse item) = false → actsOn s (Tongue.parse item) = false →
      exec c s = .next (foreign (heard s k item) (Tongue.parse item))) ∧
    (k < s.eyelets.length → (s.eyelet k).state = .up → miniOk item = true → (Tongue.parse item).type = type →
      (s.eyelet k).occupied.getD 5 0 < 16 → 0 < ((s.eyelet k).tExpect % 256 + 256 - leAt item 1 1) % 256 →
      ((s.eyelet k).tExpect % 256 + 256 - leAt item 1 1) % 256 ≤ 16 →
      exec c s = .next (setEyelet (takeItem s k item) k (fun e =>
        { e with txCtl := e.txCtl ++ [miniUnit ([0x02, 0] ++ leBytes 2 ((s.eyelet k).tExpect % 256 + 8192))] })))

/-- OFFER and its parts (09 R206, 10 R251): the first mini-unit opens a group, each part in order joins it, and the whole
group becomes the job's offer. -/
def Obligations.OfferGroup : Prop :=
  (∀ s k item, Hears s k item 0x10 →
    exec (.offer k item) s = .next (setEyelet (tongueTaken s k item) k (fun e => { e with offerAsm := some ⟨item, []⟩ }))) ∧
  (∀ s k item a, k < s.eyelets.length → (s.eyelet k).state = .up → miniOk item = true → leAt item 0 1 = 0x11 →
    leAt item 1 1 = (s.eyelet k).tExpect % 256 → (s.eyelet k).occupied.getD 5 0 < 16 → (s.eyelet k).offerAsm = some a →
    leAt item 2 1 = a.parts.length →
    (a.parts.length < 2 → exec (.offerPart k item) s = .next (setEyelet (tongueTaken s k item) k (fun e =>
      { e with offerAsm := some ⟨a.item, a.parts ++ [item]⟩ }))) ∧
    (∀ j, 2 ≤ a.parts.length → s.job = some j → floodDup s (Tongue.parse a.item) = false → actsOn s (Tongue.parse a.item) = true →
      let u := setEyelet (tongueTaken s k item) k (fun e => { e with offerAsm := none })
      let v := floodOut u { Tongue.parse a.item with lat := heardLat s k a.item + 24 * nsTicks } (a.parts ++ [item]) (some k)
      exec (.offerPart k item) s = .next { v with job := some { j with barrier := { j.barrier with
        offer := some ((Tongue.parse a.item).jsf, ((a.parts ++ [item]).flatMap (fun p => slice p 4 24)).take 64) } } }))

/-- The start barrier (09 R206 to R211): READY is counted by the leader, once a chip; when the last is in and none refuses,
START goes out with the worst latency, rounded up to 4 ns, plus 24 ns; a chip that has answered takes its release moment from
START, and ABORT, like a timeout, ends the barrier. -/
def Obligations.StartBarrier : Prop :=
  (∀ s k item j, Acts s k item 0x12 j → isLeader s = true → (Tongue.parse item).jsf = j.barrier.attempt → j.state = .starting →
    j.barrier.releaseAt = none → (Tongue.parse item).lchip < jobChips s → (Tongue.parse item).arg8 = 7 →
    (∀ r ∈ j.barrier.readies, r.lchip ≠ (Tongue.parse item).lchip ∧ r.flags = 7) →
    let m := Tongue.parse item
    let rs := j.barrier.readies ++ [⟨m.lchip, m.arg8, bitsOf m.arg64 0 4, bitsOf m.arg64 8 6, heardLat s k item⟩]
    let u := { heard s k item with job := some { j with barrier := { j.barrier with readies := rs } } }
    (rs.length < jobChips s → exec (.ready k item) s = .next u) ∧
    (jobChips s ≤ rs.length →
      let d := ceilDiv (rs.foldl (fun x r => max x r.lat) 0) (4 * nsTicks) * 4 + 24
      let code := rs.foldl (fun x r => min x r.code) 32
      exec (.ready k item) s = .next (setBarrier (originate u (jobMsg u 0x13 code j.barrier.attempt d)) (fun b =>
        { b with delay := d, startPace := code, releaseAt := some (s.now + d * nsTicks) })))) ∧
  (∀ s k item j, Acts s k item 0x13 j → isLeader s = false → j.state = .starting →
    (j.barrier.answered = some (Tongue.parse item).jsf ∨
      j.barrier.answered = none ∧ ∃ x, j.barrier.offer = some ((Tongue.parse item).jsf, x)) →
    let d := bitsOf (Tongue.parse item).arg64 0 32
    let u := if d * nsTicks < heardLat s k item then event (heard s k item) 0x2111 [] else heard s k item
    exec (.start k item) s = .next { u with job := some { j with barrier := { j.barrier with
      delay := d, startPace := (Tongue.parse item).arg8,
      releaseAt := some (s.now + (d * nsTicks - heardLat s k item)) } } }) ∧
  (∀ s k item j, Acts s k item 0x14 j → isLeader s = false →
    (j.barrier.answered = some (Tongue.parse item).jsf ∨
      j.barrier.answered = none ∧ ∃ x, j.barrier.offer = some ((Tongue.parse item).jsf, x)) →
    exec (.abort k item) s = .next (refuseBarrier (heard s k item) (Tongue.parse item).arg8)) ∧
  (∀ s j l attempt digests, s.job = some j → jobLast s = some l → j.state = .starting →
    j.barrier.offer = some (attempt, digests) → j.barrier.answered ≠ some attempt → s.clk.pace = j.barrier.startCode →
    isLeader s = false →
    let flags := maskOf [decide (l.arr.digest = digests.take 32), decide (l.weightDigest = some (slice digests 32 32)),
      (failingEyelet s l).isNone]
    let u := { s with job := some { j with barrier := { j.barrier with answered := some attempt } } }
    exec .barrierReady s = .next (originate u (jobMsg u 0x12 flags attempt
      ((failingEyelet s l).getD 0xF + 256 * s.clk.pace)))) ∧
  (∀ s j, s.job = some j → j.state = .starting → isLeader s = true → j.barrier.offerAt ≠ none → j.barrier.releaseAt = none →
    exec .barrierTimeout s = .next (refuseBarrier (originate s (jobMsg s 0x14 4 j.barrier.attempt
      (((List.range (jobChips s)).find? (fun c => !j.barrier.readies.any (fun r => decide (r.lchip = c)))).getD 0xFFFF))) 4)) ∧
  (∀ s j, s.job = some j → j.state = .starting → j.barrier.releaseAt = none → exec .barrierSelfEnd s = .next (refuseBarrier s 4)) ∧
  (∀ s j reason, s.job = some j → j.state = .starting → j.barrier.startDesc = none → ∃ u t,
    Recorded s u 0x2110 [reason] ∧ t = refuseBarrier s reason ∧
    t = orderPace (syncDev { u with job := some { j with state := j.before, barrier := Barrier.clear j.barrier } }) (outsidePace u))

/-- Slips, stops and pace changes by message (09 R36, R212 to R217): SLIP and its answers are kept for the slip point they
name, RESUME sets the release moment, a leader that has passed the point still floods RESUME for it once every announcer is ready, STOP is kept and stops the job, PACE sets the code and its boundary; one that comes
after its moment is recorded as late. -/
def Obligations.TongueRunning : Prop :=
  (∀ s k item j, Acts s k item 0x15 j → jobRuns s = true →
    ((Tongue.parse item).jsf ≤ j.released → exec (.slip k item) s =
      .next (noteAnnouncer (event (heard s k item) 0x2104 []) (Tongue.parse item).lchip (Tongue.parse item).jsf)) ∧
    (j.released < (Tongue.parse item).jsf → exec (.slip k item) s = .next { heard s k item with job := some { j with
      barrier := { j.barrier with
        slipHeld := insertOnce (Tongue.parse item).jsf j.barrier.slipHeld
        slipFrom := if isLeader s then insertOnce ((Tongue.parse item).lchip, (Tongue.parse item).jsf) j.barrier.slipFrom
          else j.barrier.slipFrom } } })) ∧
  (∀ s k item j, Acts s k item 0x16 j →
    (isLeader s = false → exec (.slipReady k item) s = .next (heard s k item)) ∧
    let ready := insertOnce ((Tongue.parse item).lchip, (Tongue.parse item).jsf) j.barrier.slipReady
    let u := { heard s k item with job := some { j with barrier := { j.barrier with slipReady := ready } } }
    (isLeader s = true → pausedAt s (Tongue.parse item).jsf = false → j.released < (Tongue.parse item).jsf →
      exec (.slipReady k item) s = .next u) ∧
    (isLeader s = true → (Tongue.parse item).jsf ≤ j.released →
      (∃ c, (c, (Tongue.parse item).jsf) ∈ j.barrier.slipFrom) →
      (∀ c, (c, (Tongue.parse item).jsf) ∈ j.barrier.slipFrom → (c, (Tongue.parse item).jsf) ∈ ready) →
      exec (.slipReady k item) s = .next (setBarrier (originate u (jobMsg u 0x17 0 (Tongue.parse item).jsf j.barrier.delay))
        (fun b => { b with
          slipFrom := b.slipFrom.filter (fun x => decide (x.2 ≠ (Tongue.parse item).jsf))
          slipReady := b.slipReady.filter (fun x => decide (x.2 ≠ (Tongue.parse item).jsf)) })))) ∧
  (∀ s k item j, Acts s k item 0x17 j → jobRuns s = true → isLeader s = false → j.released < (Tongue.parse item).jsf →
    (Tongue.parse item).jsf ∈ j.barrier.slipHeld → exec (.resume k item) s = .next { heard s k item with job := some { j with
      barrier := { j.barrier with resumeAt := some ((Tongue.parse item).jsf,
        s.now + (bitsOf (Tongue.parse item).arg64 0 32 * nsTicks - heardLat s k item)) } } }) ∧
  (∀ s k item j, Acts s k item 0x18 j →
    let stops := j.barrier.stops ++ [((Tongue.parse item).jsf, (Tongue.parse item).lchip, (Tongue.parse item).arg8)]
    let u := event { heard s k item with job := some { j with barrier := { j.barrier with stops } } } 0x2112 []
    (j.state = .stopped → exec (.stop k item) s = .next u) ∧
    (stoppable j = true → exec (.stop k item) s =
      .next (enterStopped u (governingStatus { j with barrier := { j.barrier with stops } } (Tongue.parse item).arg8)))) ∧
  (∀ s k item j, Acts s k item 0x19 j → jobRuns s = true →
    ((Tongue.parse item).jsf ≤ j.released + 4096 → exec (.pace k item) s =
      .next (event { heard s k item with clk := { s.clk with
        nextInside := some ((Tongue.parse item).arg8, ceilDiv (lowJs s + 4096) 65536 * 65536) } } 0x5011 [])) ∧
    (j.released + 4096 < (Tongue.parse item).jsf → exec (.pace k item) s = .next { heard s k item with clk := { s.clk with
      nextInside := some ((Tongue.parse item).arg8, (Tongue.parse item).jsf) } }))

/-! ### Registers -/

/-- R504: a write to GRACE_MS sets the eyelet's period and touches no hold in progress; the hold that begins as the eyelet
leaves UP ends that many milliseconds after its beginning. A value outside 1 to 1,000 changes nothing and is recorded as
0x1080. -/
def Obligations.GracePeriod : Prop :=
  (∀ s k ms, barAlive s = true → 1 ≤ ms → ms ≤ 1000 → k < s.regs.graceMs.length → ∃ t, exec (.graceMsWrite k ms) s = .next t ∧
    t = { s with regs := { s.regs with graceMs := setAt s.regs.graceMs k ms } } ∧
    (∀ x, (t.eyelet x).graceUntil = (s.eyelet x).graceUntil) ∧ t.regs.graceMs.getD k 50 = ms ∧
    (∀ x, x ≠ k → t.regs.graceMs.getD x 50 = s.regs.graceMs.getD x 50)) ∧
  (∀ s k ms, barAlive s = true → ms = 0 ∨ 1000 < ms → exec (.graceMsWrite k ms) s = .next (event s 0x1080 [0x3010 + 256 * k])) ∧
  (∀ s k cause notice next, k < s.eyelets.length → ∃ w, OnlyEyelet s w k (fun _ => w.eyelet k) ∧
    (w.eyelet k).graceUntil = some (s.now + s.regs.graceMs.getD k 50 * msTicks) ∧
    leaveUp s k cause notice next = laceLinkDown (event (event w 0x2202 [k, cause]) 0x2208 [k]) k)

/-- R496: an APPLY that captures while an earlier capture of the block is pending replaces it, and only the later one then
becomes active. For the ring table a ring that the later mask names takes the later capture; one that only an earlier mask
named keeps the earlier. -/
def Obligations.LaterCaptureReplaces : Prop :=
  (∀ s v, barAlive s = true → v.getLsbD 0 = true → 1 ≤ s.regs.dbCtl.toNat % 256 → s.regs.dbCtl.toNat % 256 ≤ 200 →
    s.regs.dbBase % 4096 = 0 → s.regs.dbCtl.toNat < 512 → ∃ t, exec (.doorbellApply v) s = .next t ∧
      t = { s with regs := { s.regs with dbCaptured := some (s.regs.dbBase, s.regs.dbCtl) } } ∧
      (s.host.dbOutstanding = false → ∃ u, exec .doorbellApplyEffect t = .next u ∧ u.regs.dbActiveBase = s.regs.dbBase ∧
        u.regs.dbActiveCtl = s.regs.dbCtl ∧ u.regs.dbCaptured = none)) ∧
  (∀ s v, barAlive s = true → v.getLsbD 0 = true → critOf s.regs.marginStaged < warnOf s.regs.marginStaged →
    ∃ t, exec (.marginApply v) s = .next t ∧
      t = { s with regs := { s.regs with marginCaptured := some s.regs.marginStaged } } ∧ exec .marginApplyEffect t =
        .next { s with regs := { s.regs with marginActive := s.regs.marginStaged, marginCaptured := none } }) ∧
  (∀ s mask, barAlive s = true → s.host.rings.length = 64 →
    (∀ r, r < 64 → bitOf mask.toNat r = true → worst (ringFails r (ringEntry s.regs.ringStaged r)) = none) →
    ∃ t rs, exec (.ringApply mask) s = .next t ∧ t = { s with host := { s.host with rings := rs } } ∧
      (∀ r, r < 64 → (t.ring r) = if bitOf mask.toNat r then
        { s.ring r with captured := some (ringEntry s.regs.ringStaged r) } else s.ring r))

/-- The staged blocks (20 R493 to R495, R501, R505): a capture that fails its checks is refused, its block's error set and
0x1081 recorded, and nothing else changes; moderation and pace act at once, a code above 32 as 32; the doorbell capture acts
with no doorbell read outstanding, the first poll going out where DB_ENABLE becomes 1; a ring's capture acts once nothing
read from the ring is outstanding, the ring starting anew. Writing a 1 clears an error. -/
def Obligations.StagedBlocks : Prop :=
  (∀ s v f, barAlive s = true → v.getLsbD 0 = true →
    worst (((List.range 32).map (fun i => check (decide (bitsOf (s.regs.modStaged.getD i 0).toNat 8 8 ≤ 250)) 1 (0x0100 + 2 * i))).flatten)
      = some f → exec (.interruptModerationApply v) s =
        .next (event { s with regs := { s.regs with modStatus := ⟨true, f.1⟩ } } 0x1081 [0x01F0, f.1, f.2])) ∧
  (∀ s v, barAlive s = true → v.getLsbD 0 = true → (∀ i, i < 32 → bitsOf (s.regs.modStaged.getD i 0).toNat 8 8 ≤ 250) →
    exec (.interruptModerationApply v) s =
      .next ((List.range 32).foldl vectorCheck { s with regs := { s.regs with modActive := s.regs.modStaged } })) ∧
  (∀ s v, barAlive s = true → v.getLsbD 0 = true → s.regs.dbCtl.toNat % 256 = 0 ∨ 200 < s.regs.dbCtl.toNat % 256 →
    exec (.doorbellApply v) s =
      .next (event { s with regs := { s.regs with dbStatus := ⟨true, 1⟩ } } 0x1081 [0x02F0, 1, 0x0208])) ∧
  (∀ s v, barAlive s = true → v.getLsbD 0 = true → warnOf s.regs.marginStaged ≤ critOf s.regs.marginStaged →
    exec (.marginApply v) s =
      .next (event { s with regs := { s.regs with marginStatus := ⟨true, 4⟩ } } 0x1081 [0x4108, 4, 0x4100])) ∧
  (∀ s base ctl, barAlive s = true → s.regs.dbCaptured = some (base, ctl) → s.host.dbOutstanding = false →
    let u := { s with regs := { s.regs with dbActiveBase := base, dbActiveCtl := ctl, dbCaptured := none } }
    (bitOf ctl.toNat 8 = false → exec .doorbellApplyEffect s = .next { u with host := { u.host with dbDue := false } }) ∧
    (bitOf ctl.toNat 8 = true → bitOf s.regs.dbActiveCtl.toNat 8 = false → s.host.busMaster = true →
      exec .doorbellApplyEffect s = .next { u with
        dev := { s.dev with state := if s.dev.state = .setup then .ready else s.dev.state }
        host := { s.host with dbOutstanding := true, dbDue := false, out := s.host.out ++ [.read base 512] } })) ∧
  (∀ s r ws, barAlive s = true → (s.ring r).captured = some ws → (s.ring r).reading = [] → (s.ring r).running = [] →
    exec (.ringApplyEffect r) s = .next (setRing { s with regs := { s.regs with
      ringActive := s.regs.ringActive.take (8 * r) ++ ws ++ s.regs.ringActive.drop (8 * r + 8) } } r (fun x =>
        { Ring.fresh with applyErr := x.applyErr, applyCause := x.applyCause }))) ∧
  (∀ s v, barAlive s = true → v.getLsbD 0 = true →
    let u := { s with regs := { s.regs with paceActive := min s.regs.paceStaged 32 } }
    let w := if 32 < s.regs.paceStaged then event u 0x5003 [s.regs.paceStaged] else u
    exec (.paceApply v) s = .next (if jobLive s then w else orderPace w
      (if s.dev.state = .idleLp ∧ s.dev.wakes = 0 then 0 else min (min s.regs.paceStaged 32) s.heel.proposal))) ∧
  (∀ s, barAlive s = true →
    exec (.applyErrClear 0x01F4) s = .next { s with regs := { s.regs with modStatus := { s.regs.modStatus with err := false } } } ∧
    exec (.applyErrClear 0x02F4) s = .next { s with regs := { s.regs with dbStatus := { s.regs.dbStatus with err := false } } } ∧
    exec (.applyErrClear 0x400C) s = .next { s with regs := { s.regs with paceStatus := { s.regs.paceStatus with err := false } } } ∧
    exec (.applyErrClear 0x410C) s =
      .next { s with regs := { s.regs with marginStatus := { s.regs.marginStatus with err := false } } }) ∧
  (∀ s mask, barAlive s = true → s.host.rings.length = 64 → ∃ rs, exec (.ringApplyErrClear mask) s =
    .next { s with host := { s.host with rings := rs } } ∧ rs.length = 64 ∧
      (∀ r, r < 64 → rs.getD r Ring.fresh =
        if bitOf mask.toNat r then { s.ring r with applyErr := false } else s.ring r))

/-- Locks, the signature policy, the completion timeout, writes and reads of BAR0, Bus Master Enable (15 R358, 20 R488, R490,
R507, R509 to R511): a lock bit only sets, a locked policy and a value outside a field's range are left and recorded as
0x1080, a write goes to the field at its offset, a read that latches keeps what it has to keep and answers. -/
def Obligations.PlainRegisters : Prop :=
  (∀ s, barAlive s = true → exec .debugLock s = .next { s with regs := { s.regs with debugLock := true } } ∧
    exec .policyLock s = .next { s with regs := { s.regs with policyLock := true } }) ∧
  (∀ s v, barAlive s = true → exec (.sigPolicyWrite v) s = .next (if s.regs.policyLock then event s 0x1080 [0xF004]
    else { s with regs := { s.regs with requireSigned := bitOf v.toNat 0 } })) ∧
  (∀ s ms, barAlive s = true → exec (.complTimeoutWrite ms) s = .next (if 100 ≤ ms ∧ ms ≤ 10000 then
    { s with regs := { s.regs with complTimeout := ms } } else event s 0x1080 [0x4220])) ∧
  (∀ s off size value, barAlive s = true → off < 0x10000 →
    (size ≠ 4 → size ≠ 8 → exec (.registerWrite off size value) s = .next (event s 0x1080 [off])) ∧
    (off % size ≠ 0 → exec (.registerWrite off size value) s = .next (event s 0x1080 [off]))) ∧
  (∀ s value, barAlive s = true → value < 2 ^ 32 →
    exec (.registerWrite 0x4100 4 value) s =
      .next { s with regs := { s.regs with marginStaged := BitVec.ofNat 32 (value % 65536) } } ∧
    exec (.registerWrite 0x4000 4 value) s = .next { s with regs := { s.regs with paceStaged := value % 64 } } ∧
    exec (.registerWrite 0x208 4 value) s = .next { s with regs := { s.regs with dbCtl := BitVec.ofNat 32 value } } ∧
    (∀ i, i < 512 → exec (.registerWrite (0x400 + 4 * i) 4 value) s =
      .next { s with regs := { s.regs with ringStaged := setAt s.regs.ringStaged i (BitVec.ofNat 32 value) } })) ∧
  (∀ s off, barAlive s = true → off % 4 = 0 → exec (.lowWordReadLatch off) s = .next { (readWord s off).2 with
    host := { (readWord s off).2.host with out := (readWord s off).2.host.out ++ [.readData off (leBytes 4 (readWord s off).1)] } }) ∧
  (∀ s off, barAlive s = true → off % 4 ≠ 0 → exec (.lowWordReadLatch off) s =
    .next { s with host := { s.host with out := s.host.out ++ [.readData off (zeros 4)] } }) ∧
  (∀ s, barAlive s = true → exec .congestionSnapshotRead s = .next { s with
    regs := { s.regs with congSnap := some (s.svc.recentMap ++ s.svc.previousMap) }
    host := { s.host with out := s.host.out ++ [.readData 0x4400 ((s.svc.recentMap ++ s.svc.previousMap).take 4)] } }) ∧
  (∀ s n e, barAlive s = true → s.host.recent[n]? = some e → exec (.recentSnapshotRead n) s = .next { s with
    regs := { s.regs with recentSnap := assocSet n e s.regs.recentSnap }
    host := { s.host with out := s.host.out ++ [.readData (0x5100 + 64 * n) (e.take 4)] } }) ∧
  (∀ s, barAlive s = true →
    exec (.busMasterEnable false) s = .next { s with host := { s.host with busMaster := false } } ∧
    (s.host.busMaster = true → exec (.busMasterEnable true) s = .next s) ∧
    (s.host.busMaster = false → dbEnabled s = false → s.host.d3hot = false → exec (.busMasterEnable true) s =
      .next (reopenHost { s with host := { s.host with busMaster := true } })))

/-! ### Rings and vectors -/

/-- The doorbell page and the rings (15 R364, R367, R369, R379, R380, R385, R389): a poll issues the one read or is noted as
due; its answer has every ring judged, then served, then the SOLVE rings; an idle CMD ring with descriptors posted reads one; a
DMA fault is recorded at most once a ms and ends the descriptor, quarantines the ring, or ends the poll; what waits for space
or for its moderation time goes out. -/
def Obligations.RingsAndVectors : Prop :=
  (∀ s, polls s = true →
    (s.host.dbOutstanding = true → exec .doorbellPoll s = .next { s with host := { s.host with dbDue := true } }) ∧
    (s.host.dbOutstanding = false → exec .doorbellPoll s = .next { s with host := { s.host with
      dbOutstanding := true, dbDue := false, out := s.host.out ++ [.read s.regs.dbActiveBase 512] } })) ∧
  (∀ s words, s.host.dbOutstanding = true → words.length = 512 →
    let u := (List.range 64).foldl (judgeRing words) { s with host := { s.host with dbOutstanding := false } }
    let v := serveSolve words ((List.range 64).foldl (serveRing words) u)
    exec (.doorbellReadComplete words) s =
      .next (if v.host.dbDue ∧ polls v then issuePoll v else { v with host := { v.host with dbDue := false } })) ∧
  (∀ words s r n, (s.attr r).type = 1 → (s.ring r).started = true → (s.ring r).qcause = 0 → (s.ring r).captured = none →
    (s.ring r).reading = [] → (s.ring r).running = [] → hostClosed s = false → 0 < freeSpace s r →
    judgeSq s r (bellWord words r) = .ok (n + 1) →
    serveRing words s r = setRing { s with host := { s.host with
        out := s.host.out ++ [.read ((s.attr r).sqBase + 64 * (s.ring r).c) 64] } } r (fun x =>
      if x.c + 1 = 2 ^ (s.attr r).sqLog then { x with reading := x.reading ++ [x.c], c := 0, g := 1 - x.g }
      else { x with reading := x.reading ++ [x.c], c := x.c + 1 })) ∧
  (∀ s r i a desc, i ∈ (s.ring r).reading →
    let u := eventLimited s 0x1030 r msTicks (fun n => [r, i, a, n])
    exec (.hostDmaFault 1 r i a desc) s = .next (postCpl (setRing u r (fun x => { x with reading := without i x.reading })) r
      { status := 0x60, sub := 0x01, final := true, flags := 0, opcode := 0, index := i, tag := 0, result := [], irq := false,
        answers := true, signal := none }) ∧
    exec (.hostDmaFault 2 r i a desc) s = .next (dataFault u r i 0x02 desc) ∧
    exec (.hostDmaFault 3 r i a desc) s = .next (dataFault u r i 0x03 desc)) ∧
  (∀ s r i a desc, (s.ring r).started = true → (s.ring r).qcause = 0 → exec (.hostDmaFault 4 r i a desc) s =
    .next (quarantine (eventLimited s 0x1030 r msTicks (fun n => [r, i, a, n])) r 5 (s.ring r).w 0)) ∧
  (∀ s r i a desc, s.host.dbOutstanding = true → exec (.hostDmaFault 5 r i a desc) s =
    .next (eventLimited { s with host := { s.host with dbOutstanding := false } } 0x1031 0 msTicks (fun n => [n]))) ∧
  (∀ s r c rest, barAlive s = true → (s.ring r).held = c :: rest → canWrite s r = true →
    exec (.deferredCompletionWrite r) s = .next (writeCpl (setRing s r (fun x => { x with held := rest })) r c)) ∧
  (∀ s r, barAlive s = true → (s.ring r).overrun = true → (s.attr r).type = 5 → evtRoom s r 1 = true →
    exec (.evtOverrun r) s = .next (setRing (putRecord s r (eventEntries (overrunEvent s (s.ring r))) false) r (fun x =>
      { x with overrun := false, drops := 0, firstDrop := 0 }))) ∧
  (∀ s v x, barAlive s = true → s.host.vectors[v]? = some x → vectorDue s v x = true →
    (x.masked = true ∨ hostClosed s = true → exec (.msixModTimeout v) s =
      .next { s with host := { s.host with vectors := setAt s.host.vectors v { x with pba := true } } }) ∧
    (x.masked = false → hostClosed s = false → exec (.msixModTimeout v) s = .next { s with host := { s.host with
      vectors := setAt s.host.vectors v { x with pba := false, count := 0, urgent := false }
      out := s.host.out ++ [.msix v] } })) ∧
  (∀ s v, barAlive s = true → exec (.msixUnmask v) s =
    .next (vectorCheck { s with host := { s.host with vectors := mapAt s.host.vectors v (fun x => { x with masked := false }) } } v))

/-! ### Lasts, jobs, checkpoints, transfers and solves -/

/-- LOAD_LAST, LOAD_WEIGHTS and UNLOAD (06 R131, 15 Table 15.5, 16 Table 16.2): a last that the loader accepts joins the loaded
lasts with its constants placed and its digest reported, any other is refused with the loader's reason; a slice's blob, of the
right length and with finite scales, is placed in its tiles and counted; an unloaded last is gone, and with the last one the
device is READY. -/
def Obligations.LoadingCommands : Prop :=
  (∀ s d image arr sched img a, Starts s d 0x10 → hostData d image = some img → hostData d arr = some a →
    (2 ≤ (openLasts s).length → ∃ t, exec (.loadLast d image arr sched) s = .next t ∧ Refused (begun s d) t d 0x11 0x02) ∧
    ((openLasts s).length < 2 → exec (.loadLast d image arr sched) s =
      .next (match loadLast (loadEnv (begun s d) (openLasts s) (storeUsed s)) img a sched with
        | .ok l => doneDesc (lastLoaded (placeConsts { begun s d with lasts := openLasts s ++ [l] } l)) d l.digest
        | .error r => refuseLast (begun s d) d r))) ∧
  (∀ s d blob sib, Starts s d 0x11 → lastNamed s (d.at 8 8) = none →
    ∃ t, exec (.loadWeights d blob sib) s = .next t ∧ Refused (begun s d) t d 0x11 0x01) ∧
  (∀ s d blob sib l b sb, Starts s d 0x11 → lastNamed s (d.at 8 8) = some l → hostData d blob = some b → hostData d sib = some sb →
    l.lchip * 2 ^ l.span ≤ d.at 16 2 → d.at 16 2 < (l.lchip + 1) * 2 ^ l.span →
    (assoc (d.at 16 2) l.slices ≠ none → ∃ t, exec (.loadWeights d blob sib) s = .next t ∧ Refused (begun s d) t d 0x11 0x15) ∧
    (assoc (d.at 16 2) l.slices = none → b.length ≠ blobBytes (l.manifest.getD (d.at 16 2) []) →
      ∃ t, exec (.loadWeights d blob sib) s = .next t ∧ Refused (begun s d) t d 0x10 0x16) ∧
    (assoc (d.at 16 2) l.slices = none → b.length = blobBytes (l.manifest.getD (d.at 16 2) []) →
      blobScalesOk (l.manifest.getD (d.at 16 2) []) b = true → l.slices.length + 1 < 2 ^ l.span →
      exec (.loadWeights d blob sib) s = .next (doneDesc (placeBlob (setLast (begun s d) l.digest (fun x =>
        { x with
          slices := l.slices ++ [(d.at 16 2, weightLeaf b)]
          siblings := if bitOf (d.at 18 1) 0 then some ((chunks 32 sb).take (l.log2L - l.span)) else l.siblings
          weightDigest := none })) l (d.at 16 2 - l.lchip * 2 ^ l.span) b) d (zeros 32 ++ leBytes 2 (l.slices.length + 1))))) ∧
  (∀ s d l, Starts s d 0x12 → lastNamed s (d.at 8 8) = some l → (∀ j, s.job = some j → j.last ≠ l.digest) →
    let left := s.lasts.filter (fun x => decide (x.digest ≠ l.digest))
    ∃ t, exec (.unload d) s = .next t ∧ Ended { begun s d with
        lasts := left
        dev := { s.dev with state := if left.isEmpty ∧ s.dev.state = .loaded then .ready else s.dev.state } } t d
      (finalCpl d 0x00 0))

/-- The life of a job (09 R206, 15 R384, 16 R397 to R400, Tables 15.8, 16.3): JOB_OPEN allocates and zeroes, JOB_START begins the
barrier, JS 0 starts the job, JOB_DRAIN ends the requests that wait, unless a checkpoint pauses the job first (log entry 17), and
completes when none is left, JOB_CHECKPOINT waits for
its image, REQ joins the waiting list, JOB_CLOSE reports and frees. -/
def Obligations.JobCommands : Prop :=
  (∀ s d l, Starts s d 0x20 → lastNamed s (d.at 8 8) = some l →
    (if bitOf (d.at 18 1) 0 then l.relaxedOk else l.lockstepOk) = true → storeFits s l (storeFor l (d.at 20 4) (d.at 24 4)) = true →
    let u := setLast (begun s d) l.digest (fun l => { l with closed := false })
    let v := { u with
      job := some (openJob (d.at 16 2) (bitOf (d.at 18 1) 0) (d.at 20 4) (d.at 24 4) (d.at 28 1) l.digest)
      clk := { s.clk with regions := s.clk.regions.map (fun g => { g with js := 0 }) }
      mem := { u.mem with tacks := u.mem.tacks.filter (fun x =>
        !decide (l.tackBase ≤ x.1 ∧ x.1 < l.tackBase + l.build.tacks)) } }
    exec (.jobOpen d) s = .next (doneDesc (hbmClear (freshStore v (storeFor l (d.at 20 4) (d.at 24 4)))
      (l.hbmBase + l.lacing.statsOffset) (4 * l.lacing.laceCount)) d)) ∧
  (∀ s d j l, Starts s d 0x21 → s.job = some j → jobLast s = some l → j.tag = d.at 8 2 → s.dev.stopOrdered = none →
    (l.weightDigest = none → ∃ t, exec (.jobStart d) s = .next t ∧ Refused (begun s d) t d 0x11 0x07) ∧
    (l.weightDigest ≠ none → datelineOk s l = false → ∃ t, exec (.jobStart d) s = .next t ∧ Refused (begun s d) t d 0x11 0x0C) ∧
    (l.weightDigest ≠ none → datelineOk s l = true →
      let code := min (d.at 10 1) (effPace s)
      let b : Barrier :=
        { j.barrier.clear with offer := j.barrier.offer, startDesc := some (d.ring, d.slot), startAt := s.now,
                               startCode := code, stops := [] }
      let w := orderPace (syncDev { begun s d with
        job := some { j with state := .starting, before := j.state, awl := Awl.fresh, barrier := b } }) code
      exec (.jobStart d) s = .next (if isLeader s then leaderStart w l else w))) ∧
  (∀ s j l, s.job = some j → jobLast s = some l → j.state = .starting → j.barrier.releaseAt ≠ none →
    j.barrier.startPace = s.clk.pace →
    let u := match j.barrier.startDesc with | some x => complete s x.1 x.2 0x00 0 | none => s
    let v := startRegions l (startJob u)
    exec .js0Release s = .next (if isLeader v ∧ jobRuns v then decideStep v l else v)) ∧
  (∀ s j, s.job = some j → ∃ x, (startJob s).job = some x ∧ x.state = (if j.drain then .draining else .running) ∧
    x.released = j.boundary ∧ x.nextBoundary = j.boundary + 65536 ∧ x.variant = 0xFF ∧ x.anchorWs = s.clk.ws ∧
    x.anchorJs = j.boundary ∧ (∀ g ∈ (startJob s).clk.regions, g.js = j.boundary ∧ g.due = true)) ∧
  (∀ s d j, Starts s d 0x22 → s.job = some j → j.tag = d.at 8 2 →
    let u := { begun s d with job := some { j with drainDescs := j.drainDescs ++ [(d.ring, d.slot)] } }
    (isLeader s = false → exec (.jobDrain d) s = .next u) ∧
    (isLeader s = true → pausedFirst j d.ring = true →
      ∃ t, exec (.jobDrain d) s = .next t ∧ Refused (begun s d) t d 0x11 0x14) ∧
    (isLeader s = true → pausedFirst j d.ring = false → let v := setJob (j.requests.foldl endWaiting u) (fun j => { j with drain := true })
      exec (.jobDrain d) s = .next (if j.state = .running then setJobState v .draining else v))) ∧
  (∀ s j, s.job = some j → j.state = .paused → j.drain = true → admitted j = [] → exec .jobDrainComplete s =
    .next (j.drainDescs.foldl (fun s d => complete s d.1 d.2 0x00 0)
      { s with job := some { j with drain := false, drainDescs := [] } })) ∧
  (∀ s d j, Starts s d 0x23 → s.job = some j → j.tag = d.at 8 2 →
    let js := standingJs j
    let u := closeJob (begun s d)
    exec (.jobClose d) s = .next (doneDesc (if d.at 16 8 = 0 then u else hostWrite u (d.at 16 8) (closeReport j js)) d
      (leBytes 8 js ++ leBytes 6 j.choice ++ zeros 2 ++ leBytes 8 j.slipTotal))) ∧
  (∀ s d j, Starts s d 0x24 → s.job = some j → j.tag = d.at 8 2 → s.dev.stopOrdered = none → exec (.jobCheckpoint d) s =
    .next { begun s d with job := some { j with
      ckptDescs := j.ckptDescs ++ [{ ring := d.ring, slot := d.slot, addr := d.at 16 8, len := d.at 24 8, skive := d.flag 4 }]
      pauseOrdered := j.pauseOrdered || (isLeader s && decide (j.state ≠ .paused)) } }) ∧
  (∀ s d j input bs, Starts s d 0x80 → s.job = some j → j.tag = d.at 8 2 → hostData d input = some bs →
    (isLeader s = false → ∃ t, exec (.req d input) s = .next t ∧ Refused (begun s d) t d 0x11 0x06) ∧
    (isLeader s = true →
      let q : Request :=
        { rid := j.nextRid, ring := d.ring, slot := d.slot, tag := d.tag, irq := d.flag 0, input := bs,
          outAddr := d.at 32 8, outLen := d.at 40 4, phase := 1, bslot := 0, planPos := 0, donePos := 0, tokens := [],
          reported := 0, hit := 0, stamp := [], keys := [], fetch := none, planned := false }
      exec (.req d input) s =
        .next { begun s d with job := some { j with requests := j.requests ++ [q], nextRid := j.nextRid + 1 } }))

/-- Checkpoints and re-lasting (16 R403 to R406): the image of a paused job is written for the oldest JOB_CHECKPOINT, unless a
kept page holds an uncorrectable word or the buffer is too short, which is a refusal; JOB_RELAST refuses what the loader, the checkpoint's checks
or the chip's memory refuse, in that order, and else re-lasts. -/
def Obligations.Checkpoints : Prop :=
  (∀ s j l t c rest reqs qs fs, s.job = some j → jobLast s = some l → jobStore s = some t → j.ckptDescs = c :: rest →
    j.state = .paused → isLeader s = false → parseSection reqs = some (qs, fs) →
    exec (.checkpointImageWrite reqs) s =
      .next (writeImage { s with job := some { j with ckptDescs := rest, imaged := j.nextRid } } j l t reqs qs fs c)) ∧
  (∀ s j l t reqs qs fs c,
    (∀ w, ((keptPages l t qs fs).filterMap (fun a => hbmBadIn s a (2 ^ l.span * j.sliceBytes))).head? = some w →
      writeImage s j l t reqs qs fs c = complete (hbmUncorrected s (32 * w)) c.ring c.slot 0x60 0x06) ∧
    (((keptPages l t qs fs).filterMap (fun a => hbmBadIn s a (2 ^ l.span * j.sliceBytes))).head? = none → c.skive = false →
      let image := ckptHeader j l (sliceLen (keptPages l t qs fs).length j.sliceBytes) reqs.length ++ reqs
        ++ (List.range (2 ^ l.span)).flatMap (sliceSection s j l (keptPages l t qs fs))
      (c.len < image.length → writeImage s j l t reqs qs fs c = refuseSlot s c.ring c.slot 0x10 0x35) ∧
      (image.length ≤ c.len → writeImage s j l t reqs qs fs c = complete (hostWrite s c.addr image) c.ring c.slot 0x00 0
        (leBytes 8 j.boundary ++ leBytes 6 j.choice ++ zeros 2 ++ leBytes 8 image.length)))) ∧
  (∀ s d image arr ck sched j, Starts s d 0x25 → s.job = some j → j.tag ≠ d.at 36 2 →
    ∃ t, exec (.jobRelast d image arr ck sched) s = .next t ∧ Refused (begun s d) t d 0x11 0x03) ∧
  (∀ s d image arr ck sched img a b, Starts s d 0x25 → (∀ j, s.job = some j → j.tag = d.at 36 2) →
    hostData d image = some img → hostData d arr = some a → hostData d ck = some b →
    let u := applyPendingTiles (begun s d)
    let old := if s.job.isSome then jobLast s else s.lasts.find? (fun l => decide (l.digest = lastDigest img))
    let others := (openLasts s).filter (fun l => match old with | some o => decide (l.digest ≠ o.digest) | none => true)
    others.length < 2 → exec (.jobRelast d image arr ck sched) s =
      .next (match loadLast (loadEnv u others []) img a sched with
        | .error r => refuseLast (begun s d) d r
        | .ok l =>
          if b.length < 128 ∨ leAt b 0 4 ≠ 0x54504B43 ∨ leAt b 4 2 ≠ 1 then badDesc (begun s d) d 0x1B
          else if slice b 8 32 ≠ l.digest then badDesc (begun s d) d 0x19
          else
            match parseCkpt l (d.at 36 2) b with
            | none => badDesc (begun s d) d 0x1B
            | some (qs, fs) =>
              if maxBatch l < (qs.filter (fun q => decide (q.state ≠ 1))).length then badState (begun s d) d 0x16
              else if !storeFits s l (storeFor l (leAt b 88 4) (leAt b 92 4)) then badDesc (begun s d) d 0x10
              else doRelast u d old others l b qs fs))

/-- XFER and SOLVE (14 R350 to R353, 15 R375 to R377): the transfer is entered and each of its pieces performed here or sent;
it waits where a place it needs holds requests; a batch of problems begins, and each further problem writes one record, the
last of them the completion. -/
def Obligations.TransfersAndSolves : Prop :=
  (∀ s d data mask bs, Starts s d 0x50 → d.at 8 1 = 1 → hostData d data = some bs → bs ≠ [] →
    let u := begun s d
    let m := leNat (mask.take 128)
    let v := { u with svc := { u.svc with xfers := u.svc.xfers ++ [xferOf u d bs.length (chunks 3840 bs).length m] } }
    (xferLocal s d = false → exec (.xferWrite d data mask) s = .next (sendWrites d m v (chunks 3840 bs))) ∧
    (xferLocal s d = true → xferWaits s d bs.length = false → exec (.xferWrite d data mask) s =
      .next (localWrites d v (chunks 3840 bs))) ∧
    (xferLocal s d = true → xferWaits s d bs.length = true → exec (.xferWrite d data mask) s =
      .next (deferDesc u d (.xferWrite d data mask)))) ∧
  (∀ s d, Starts s d 0x50 → d.at 8 1 = 2 →
    let u := begun s d
    let v := { u with svc := { u.svc with xfers := u.svc.xfers ++ [xferOf u d (d.at 32 4) (ceilDiv (d.at 32 4) 3840) 0] } }
    (xferLocal s d = false → exec (.xferRead d) s = .next (sendReads d v)) ∧
    (xferLocal s d = true → xferWaits s d (d.at 32 4) = false → exec (.xferRead d) s = .next (localReads d v))) ∧
  (∀ s d mask, Starts s d 0x50 → d.at 8 1 = 3 →
    let u := begun s d
    let m := leNat (mask.take 128)
    let v := { u with svc := { u.svc with xfers := u.svc.xfers ++ [xferOf u d 0 1 m] } }
    (xferLocal s d = false → exec (.xferTackAdd d mask) s = .next (sendPiece d v 0 0 (d.at 36 4) m false [])) ∧
    (xferLocal s d = true → let r := performTack v (d.at 12 1) (d.at 16 8) (d.at 36 4)
      exec (.xferTackAdd d mask) s = .next (pieceIn r.1 d.ring d.slot 0
        { status := r.2.1, sub := r.2.2.1, arg := r.2.2.2, data := [], undelivered := [], unsure := [] }))) ∧
  (∀ s d problems bs, Starts s d 0x90 → hostData d problems = some bs →
    let b : Batch :=
      { ring := d.ring, slot := d.slot, resultAddr := d.at 16 8, count := d.at 24 2,
        mode := if d.at 26 1 = 1 then .regularise else .nan, tol := ⟨tolOf (d.at 28 4), tolOf (d.at 32 4), tolOf (d.at 36 4)⟩,
        left := bs, next := 0, lost := false }
    exec (.solve d problems) s = .next { begun s d with shank := { s.shank with batch := some b } }) ∧
  (∀ s b, s.shank.batch = some b →
    let r := nextRecord s b
    let u := hostWrite s (b.resultAddr + 512 * b.next) r.1
    exec .shankProblemDone s = .next (if b.next + 1 < b.count then { u with shank := { u.shank with batch := some r.2 } }
      else complete { u with shank := { u.shank with batch := none } } b.ring b.slot 0x00 0 (leBytes 2 b.count)))

/-! ### The device: cold start, resets, faults, the reference -/

/-- Cold start and the reference (02 R26, R28, R42, R43, 19 R486, R512): the generators lock at pace code 0 and wall stitch 0;
COLD ends FAULTED with the first link latency out of bounds or without firmware, and else in SETUP with memories of valid
zeros, the records restored after a power-up only; a lost reference takes every eyelet that is not HELD down, and the event of
its return ends holdover. -/
def Obligations.ColdStartAndReference : Prop :=
  (∀ s, s.dev.state = .cold → s.clk.locked = false → s.clk.holdover = false → exec .generatorLock s =
    .next { s with clk := { s.clk with ws := 0, locked := true, pace := 0, oldPace := 0, slewLeft := 0 } }) ∧
  (∀ s xlat firmware damaged, s.dev.state = .cold → s.clk.locked = true → xlat.length = 80 →
    let u := { s with clk := { s.clk with xlat := xlat } }
    (∀ i, xlat.findIdx? (fun n => decide (6 < n)) = some i → ∃ t, exec (.coldComplete xlat firmware damaged) s = .next t ∧
      Recorded { u with dev := { s.dev with state := .faulted, calFault := true } } t 0x5004 [i]) ∧
    ((∀ n ∈ xlat, n ≤ 6) → firmware = none → ∃ t, exec (.coldComplete xlat firmware damaged) s = .next t ∧
      Recorded { u with dev := { s.dev with state := .faulted, calFault := false } } t 0x1070 []) ∧
    (∀ v, (∀ n ∈ xlat, n ≤ 6) → firmware = some v →
      let a := if s.dev.warm then u else restoreRecords u damaged
      let b :=
        { a with
          mem := { a.mem with insole := [], hbm := [], insoleBad := [], hbmBad := [], tacks := [], tackWaits := [] }
          dev := { a.dev with state := .setup, under := .setup, calFault := false, fwVersion := v } }
      let c := applyReleases b
      ∃ t w, exec (.coldComplete xlat firmware damaged) s = .next t ∧
        t = { w with dev := { w.dev with warm := false } } ∧
        (if b.dev.warm = true ∧ b.dev.coordValid = true ∧ b.cob.released.getD b.position 0 ≠ 0
          then SledRecorded c w 0x6040 [b.position, b.cob.released.getD b.position 0] else w = c))) ∧
  (∀ s, s.clk.locked = true → ∃ u t, exec .referenceLost s = .next t ∧
    Recorded { s with clk := { s.clk with locked := false, holdover := true } } u 0x5001 [] ∧
    t = (List.range 16).foldl (fun s k => if (s.eyelet k).state = .held then s else takeDown s k 0x02 false .down) u ∧
    ∀ k, k < 16 → (s.eyelet k).state = .up → k < s.eyelets.length → s.job = none →
      (t.eyelet k).state = .down) ∧
  (∀ s, s.clk.holdover = true → ∃ t, exec .referenceRelock s = .next t ∧
    Recorded { s with clk := { s.clk with locked := true, holdover := false } } t 0x5002 [])

/-- Resets and device faults (16 R392, R393, 19 R497, Table 16.2): a function-level reset ends every job, last and descriptor,
takes the lacing's eyelets that are UP down, puts the registers and the tacks at reset and keeps the memories, the keys, the
calibration and the wall stitch; a conventional reset holds every eyelet too, and the device is COLD; a device fault ends
every job and leaves FAULTED. -/
def Obligations.Resets : Prop :=
  (∀ s, barAlive s = true → ∃ t, exec .functionLevelReset s = .next t ∧
    t.dev.state = (if s.dev.state = .faulted ∧ s.dev.calFault = true then .faulted else .setup) ∧
    t.job = none ∧ t.lasts = [] ∧ t.mem.tacks = [] ∧ t.mem.tackWaits = [] ∧
    t.regs = { Regs.fresh with
      debugLock := s.regs.debugLock, policyLock := s.regs.policyLock,
      requireSigned := s.regs.policyLock && s.regs.requireSigned } ∧
    t.host.rings = HostIf.fresh.rings ∧ t.host.vectors = HostIf.fresh.vectors ∧ t.host.busMaster = false ∧ t.host.d3hot = false ∧
    t.svc.banks = [none, none] ∧ t.svc.txns = [] ∧ t.svc.xfers = [] ∧ t.dev.wakes = 0 ∧
    t.mem.insole = s.mem.insole ∧ t.mem.hbm = s.mem.hbm ∧ t.mem.retired = s.mem.retired ∧ t.keys = s.keys ∧
    t.clk.ws = s.clk.ws ∧ t.clk.xlat = s.clk.xlat ∧ t.position = s.position ∧
    ∀ k, k < s.eyelets.length → s.job ≠ none → k ∈ lacingEyelets s → (s.eyelet k).state = .up → (t.eyelet k).state = .down) ∧
  (∀ s, s.dev.state ≠ .off → ∃ t, exec .conventionalReset s = .next t ∧
    t.dev.state = .cold ∧ t.dev.warm = (s.dev.warm || decide (s.dev.state ≠ .cold)) ∧ t.dev.calFault = false ∧
    t.job = none ∧ t.lasts = [] ∧ t.mem.tacks = [] ∧ t.regs = Regs.fresh ∧
    t.mem.insole = s.mem.insole ∧ t.mem.hbm = s.mem.hbm ∧ t.keys = s.keys ∧ t.clk.ws = s.clk.ws ∧
    (∀ e ∈ t.eyelets, e.state = .held)) ∧
  (∀ s cause, barAlive s = true → ∃ t u, exec (.deviceFault cause) s = .next t ∧ Recorded u t 0x1071 [cause] ∧
    u.dev.state = .faulted ∧ u.dev.calFault = false ∧ u.dev.wakes = 0 ∧ u.job = none ∧ u.lasts = s.lasts ∧ u.keys = s.keys ∧
    u.mem.insole = s.mem.insole ∧ u.mem.hbm = s.mem.hbm ∧
    ∀ k, k < s.eyelets.length → s.job ≠ none → k ∈ lacingEyelets s → (s.eyelet k).state = .up → (u.eyelet k).state = .down)

/-- Power states (16 R391, R407 to R410, 17 R424): a power stop holds the tile regions, ends the descriptors and, 200 ms on,
the job; D3hot of a device with no job makes it IDLE_LP and orders pace code 0; D0 restores the state beneath and opens the
host side; a wake is refused unless the device is IDLE_LP and PME is enabled, and PME_SENT answers those that wait. -/
def Obligations.PowerStates : Prop :=
  (∀ s, s.dev.state ≠ .off → s.dev.stopOrdered = none →
    let u := { s with
      dev := { s.dev with stopOrdered := some s.now }
      clk := { s.clk with regions := s.clk.regions.mapIdx (fun r g =>
        if r < 16 then { g with holds := insertOnce .throttle g.holds } else g) } }
    exec .powerStop s = .next (match (abortDescs u).job with
      | some j => if j.state = .starting then stopJob (abortDescs u) 0x50 else abortDescs u
      | none => abortDescs u) ∧
    (abortDescs u).held = [] ∧ (abortDescs u).ready = [] ∧ (abortDescs u).svc.xfers = [] ∧ (abortDescs u).shank.batch = none) ∧
  (∀ s, s.dev.stopOrdered ≠ none → jobRuns s = true → exec .powerStopTimeout s = .next (stopJob s 0x50)) ∧
  (∀ s p, barAlive s = true → s.host.d3hot = false →
    let u := { s with host := { s.host with
      pmeEn := bitOf p 8, pmeStatus := s.host.pmeStatus && !bitOf p 15, d3hot := true } }
    (s.dev.state = .setup ∨ s.dev.state = .ready ∨ s.dev.state = .loaded → exec (.powerstateD3hot p) s =
      .next (orderPace { u with dev := { s.dev with under := s.dev.state, state := .idleLp } } 0)) ∧
    (s.dev.state ≠ .setup → s.dev.state ≠ .ready → s.dev.state ≠ .loaded → exec (.powerstateD3hot p) s = .next u)) ∧
  (∀ s p, barAlive s = true → s.host.d3hot = true → exec (.powerstateD3hot p) s = .next { s with host := { s.host with
    pmeEn := bitOf p 8, pmeStatus := s.host.pmeStatus && !bitOf p 15 } }) ∧
  (∀ s p, barAlive s = true → s.host.d3hot = false → exec (.powerstateD0 p) s = .next { s with host := { s.host with
    pmeEn := bitOf p 8, pmeStatus := s.host.pmeStatus && !bitOf p 15 } }) ∧
  (∀ s p, barAlive s = true → s.host.d3hot = true →
    let u := { s with host := { s.host with
      pmeEn := bitOf p 8, pmeStatus := s.host.pmeStatus && !bitOf p 15, d3hot := false } }
    (s.dev.wakes = 0 → s.dev.state ≠ .idleLp → exec (.powerstateD0 p) s = .next (reopenHost u)) ∧
    (s.dev.wakes = 0 → s.dev.state = .idleLp → jobLive s = false → exec (.powerstateD0 p) s = .next (reopenHost
      (orderPace { u with dev := { s.dev with state := s.dev.under } } (min s.regs.paceActive s.heel.proposal)))) ∧
    (0 < s.dev.wakes → s.dev.state = .idleLp → jobLive s = false →
      let v := event u 0x1061
      let w := (List.range s.dev.wakes).foldl (fun s _ => wakeAnswer s 3) { v with dev := { v.dev with wakes := 0 } }
      exec (.powerstateD0 p) s = .next (reopenHost
        (orderPace { w with dev := { w.dev with state := w.dev.under } } (min s.regs.paceActive s.heel.proposal))))) ∧
  (∀ s src, s.dev.state ≠ .off →
    (s.dev.state ≠ .idleLp → exec (.wakeOrder src) s = .next (wakeAnswer s 1)) ∧
    (s.dev.state = .idleLp → s.host.pmeEn = false → exec (.wakeOrder src) s = .next (wakeAnswer s 2)) ∧
    (s.dev.state = .idleLp → s.host.pmeEn = true → exec (.wakeOrder src) s =
      .next (orderPace { s with dev := { s.dev with wakes := s.dev.wakes + 1 } } (min s.regs.paceActive s.heel.proposal)))) ∧
  (∀ s, 0 < s.dev.wakes → s.dev.state = .idleLp → ∃ t, exec .pmeSent s =
      .next ((List.range s.dev.wakes).foldl (fun s _ => wakeAnswer s 0) t) ∧
    Recorded { s with dev := { s.dev with wakes := 0 },
                      host := { s.host with pmeStatus := true, out := s.host.out ++ [.pme] } } t 0x1060 [])

/-! ### Stitches, paces, slips and margin -/

/-- STITCH_BOUNDARY (02 R30, R39, R41, 11 R286): the wall stitch advances by one and every output at which a unit was queued and
none left counts one blocked stitch; in a running job each region that stands at the slip point stays, a region that is held
stays with its hold counted down, and a free region begins or goes on with its work and then advances. -/
def Obligations.StitchBoundary : Prop :=
  (∀ s late, s.clk.locked = true ∨ s.clk.holdover = true →
    let u := { s with
      clk := { s.clk with ws := s.clk.ws + 1, slewLeft := s.clk.slewLeft - 1 }
      svc := { s.svc with
        blocked := s.svc.blocked.mapIdx (fun i n =>
          if queuedFor s (i / 2) (i % 2) ∧ s.svc.movedNow.contains i = false then n + 1 else n)
        movedNow := [] } }
    (jobRuns s = false ∨ jobLast s = none → exec (.stitchBoundary late) s = .next u) ∧
    (∀ l, jobRuns s = true → jobLast s = some l →
      let x := (List.range 20).foldl (stitchRegion l late) (landArrivals l (u, []))
      exec (.stitchBoundary late) s = .next (awlFaults x.1 x.2))) ∧
  (∀ l late s fs r j, s.job = some j → jobRuns s = true →
    ((s.region r).js = j.released + 4096 → stitchRegion l late (s, fs) r = (s, fs)) ∧
    ((s.region r).js ≠ j.released + 4096 → (s.region r).holds.any (stopsAt s.clk.ws) = true →
      stitchRegion l late (s, fs) r = (setRegion s r (fun g => { g with holds := g.holds.filterMap tickHold }), fs)) ∧
    ((s.region r).js ≠ j.released + 4096 → (s.region r).holds = [] → (s.region r).due = false → (s.region r).todo = [] →
      stitchRegion l late (s, fs) r = advance l r (late.contains r) (s, fs)))

/-- Paces, handshakes, late units and slips (02 R37 to R41, 09 R195, R212, R214, 16 R400): a slew ends, an ordered pace takes
effect outside a job, a handshake's acknowledgement frees its region, a late unit's payload is ready, a slip is announced and
released, and a missing block stops the job. -/
def Obligations.PacesAndSlips : Prop :=
  (∀ s, exec .paceSlewEnd s = .next { s with clk := { s.clk with oldPace := s.clk.pace, slewLeft := 0 } }) ∧
  (∀ s code b, s.clk.nextOutside = some (code, b) → jobRuns s = false →
    ∃ t u, Recorded { s with clk := { s.clk with nextOutside := none } } u 0x5010 [s.clk.pace, code, s.clk.ws, lowJs s] ∧
      t = { u with clk := { u.clk with oldPace := s.clk.pace, pace := code, slewLeft := if code = s.clk.pace then 0 else 1024 } } ∧
      exec .paceChangeOutsideJob s = .next t) ∧
  (∀ s r addr, exec (.handshakeAck r 0 addr) s = .next { s with
    clk := { s.clk with regions := mapAt s.clk.regions r (fun g => { g with holds := without .handshake g.holds }) } }) ∧
  (∀ s r a,
    let u := { s with
      clk := { s.clk with regions := mapAt s.clk.regions r (fun g => { g with holds := without .handshake g.holds }) } }
    exec (.handshakeAck r 1 a) s = .next (insoleCorrected u (a / 2 ^ 24) (a % 2 ^ 24)) ∧
    exec (.handshakeAck r 2 a) s = .next (insoleUncorrected
      { u with mem := { u.mem with insoleBad := insertOnce (a / 8) u.mem.insoleBad } } (a / 2 ^ 24) (a % 2 ^ 24)) ∧
    exec (.handshakeAck r 3 a) s = .next (hbmCorrected u a) ∧
    exec (.handshakeAck r 4 a) s = .next (stopJob (hbmUncorrected
      { u with mem := { u.mem with hbmBad := insertOnce (a / 32) u.mem.hbmBad } } a) 0x7F)) ∧
  (∀ s l k lace unit u r, jobLast s = some l → (s.eyelet k).txSched.find? (awaits lace unit) = some u →
    departRow s l lace = some r → jobRuns s = true → passed s (tileRegion (l.tileMap.getD r.ltile 0)) u.dep = true →
    insoleBadIn s (l.tileMap.getD r.ltile 0) (r.addr + 240 * unit) 240 = none →
    exec (.lateUnitDepart k lace unit) s = .next (setEyelet s k (fun e => { e with
      txSched := e.txSched.map (fun x => if x = u then
        { u with payload := some (insoleRead s (l.tileMap.getD r.ltile 0) (r.addr + 240 * unit) 240) } else x) }))) ∧
  (∀ s j l, s.job = some j → jobLast s = some l → jobRuns s = true →
    let p := slipTarget (j.anchorJs + (s.clk.ws - j.anchorWs))
    ceilDiv l.retryAllow 4 ≤ lag s j → p ∉ j.barrier.slipMine →
      exec .slipAnnounce s = .next (event (setBarrier (noteAnnouncer (originate s (jobMsg s 0x15 0 p 0)) l.lchip p) (fun b =>
        { b with slipHeld := insertOnce p b.slipHeld, slipMine := b.slipMine ++ [p] })) 0x2102 [p])) ∧
  (∀ s j l, s.job = some j → jobLast s = some l → jobRuns s = true →
    (∀ g ∈ s.clk.regions, g.js = j.released + 4096) → j.barrier.pauseFrom = none →
    exec .slipPointAlign s = .next (slipPoint s l j (j.released + 4096))) ∧
  (∀ s j l p a, s.job = some j → jobLast s = some l → jobRuns s = true → j.barrier.resumeAt = some (p, a) →
    let u := { s with job := some { j with barrier := { j.barrier with resumeAt := none } } }
    (pausedAt u p = true → exec .resumeRelease s =
      .next (endSlip u l p s.clk.ws (s.clk.ws - j.barrier.pauseFrom.getD s.clk.ws))) ∧
    (pausedAt u p = false → exec .resumeRelease s = .next { s with job := some { j with
      barrier := { j.barrier with resumeAt := none, resumed := j.barrier.resumed ++ [(p, s.clk.ws)] } } })) ∧
  (∀ s j, s.job = some j → jobRuns s = true →
    ((∀ g ∈ s.clk.regions, g.js = j.nextBoundary) ∧ j.barrier.pauseFrom = none ∧ blockHere s j.nextBoundary = none ∧
      j.released + 4096 = j.nextBoundary) ∨ (isLeader s = true ∧ blockOut s = true) →
    ∃ t, Recorded s t 0x2140 [] ∧ exec .stepControlLost s = .next (stopJob t 0x7F))

/-- Margin windows (02 R46, R48, R49): a region's margin is the lowest of its loops, saturated; at or below the warning
threshold it is reported once in a period, at or below the critical one it holds the region; a hold ends with the fourth
window in a row at or above the warning threshold. -/
def Obligations.MarginWindows : Prop :=
  (∀ s loops, exec (.marginWindowEnd loops) s = .next ((List.range 20).foldl (marginWindow loops) s)) ∧
  (∀ s loops r m, r < s.clk.regions.length → ((loops.getD r []).map (fun x => max (-128) (min 127 x))).min? = some m →
    let warn := warnOf s.regs.marginActive
    let u := setRegion s r (fun g =>
      { g with margin := m, lowMargin := min g.lowMargin m, holds := g.holds.filterMap (marginGood warn m) })
    (critOf s.regs.marginActive < m → warn < m → marginWindow loops s r = u) ∧
    (critOf s.regs.marginActive < m → m ≤ warn → (s.region r).warned = true → marginWindow loops s r = u) ∧
    (critOf s.regs.marginActive < m → m ≤ warn → (s.region r).warned = false → ∃ t, marginWindow loops s r = t ∧
      Recorded (setRegion u r (fun g => { g with warned := true })) t 0x5020 [r, slotOf m]) ∧
    (m ≤ critOf s.regs.marginActive → m ≤ warn → (s.region r).warned = true → marginHeld (s.region r) = false →
      ∃ t, marginWindow loops s r = t ∧
        Recorded (setRegion u r (fun g => { g with holds := g.holds ++ [.margin 0] })) t 0x5021 [r, slotOf m, s.clk.ws])) ∧
  (∀ s loops r, loops.getD r [] = [] → marginWindow loops s r = s) ∧
  (∀ warn m n, marginGood warn m (.margin n) =
    if m < warn then some (.margin 0) else if n + 1 < 4 then some (.margin (n + 1)) else none)

/-! ### The governor -/

/-- The governor's period (13 R318 to R325, R331, R339): at its start the orders of the last period apply and the sensors are
read; its plan is applied when the shank has solved it and otherwise the pace falls by one and the grant is 0; throttling
begins at once, is told to the leader, and ends after ten cool periods. -/
def Obligations.GovernorPeriod : Prop :=
  (∀ s temps amps, barAlive s = true →
    let u := applyOrders (endPeriod s)
    let v := { u with
      heel := { u.heel with periods := u.heel.periods + 1 }
      clk := { u.clk with regions := u.clk.regions.mapIdx (fun r g =>
        { g with temp := temps.getD r g.temp, warned := false, lowMargin := 127 }) } }
    u.heel.orders = [] ∧
    exec (.governorPeriodStart temps amps) s = .next (throttlePeriod v
      (temps.all (fun t => decide (t ≤ 400)) && amps.all (fun a => decide (a ≤ 600))))) ∧
  (∀ s cool, (s.heel.throttle = false → throttlePeriod s cool = s) ∧
    (s.heel.throttle = true → cool = false → throttlePeriod s cool = { s with heel := { s.heel with coolPeriods := 0 } }) ∧
    (s.heel.throttle = true → cool = true → s.heel.coolPeriods + 1 < 10 →
      throttlePeriod s cool = { s with heel := { s.heel with coolPeriods := s.heel.coolPeriods + 1 } }) ∧
    (s.heel.throttle = true → cool = true → 10 ≤ s.heel.coolPeriods + 1 → s.dev.stopOrdered = none →
      ∃ t, throttlePeriod s cool = t ∧ Recorded { s with
        heel := { s.heel with throttle := false, coolPeriods := 0 }
        clk := { s.clk with regions := s.clk.regions.map (fun g => { g with holds := without .throttle g.holds }) } } t 0x5041 [])) ∧
  (∀ s status, barAlive s = true → status ≠ 0 →
    ∃ t, Recorded { s with heel := { s.heel with
        proposal := min (s.heel.proposal - 1) (effPace s), grant := 0, fallback := true } } t 0x5030
        [status] ∧
      exec (.governorApply status) s = .next (writeMail t (if t.heel.throttle then 0 else t.heel.proposal))) ∧
  (∀ s, barAlive s = true → ∃ t, exec (.governorApply 0) s = .next (writeMail t (if s.heel.throttle then 0 else t.heel.proposal)) ∧
    t.heel.fallback = false ∧ t.heel.proposal ≤ effPace s ∧ t.heel.throttle = s.heel.throttle ∧
    t.heel.rails.length = s.heel.rails.length ∧
    ∀ r, r < s.heel.rails.length → 60 ≤ t.heel.rails.getD r 0 ∧ t.heel.rails.getD r 0 ≤ 160) ∧
  (∀ s, (s.job = none ∨ jobRuns s = false) → ∀ code, writeMail s code = s) ∧
  (∀ s j l code, s.job = some j → jobLast s = some l → jobRuns s = true → isLeader s = true →
    writeMail s code = hbmWrite s (0x23FF000000 + 8 * l.lchip) (mailEntry s code)) ∧
  (∀ s region, barAlive s = true → s.heel.throttle = false → ∃ t, exec (.throttleBegin region) s = .next (writeMail t 0) ∧
    Recorded { s with
      heel := { s.heel with throttle := true, coolPeriods := 0 }
      clk := { s.clk with regions := s.clk.regions.mapIdx (fun r g =>
        if r < 16 then { g with holds := insertOnce .throttle g.holds } else g) } } t 0x5040 [region])

/-- Coolant, caps and HOLD (13 R319, R327, R328, R340, Table 16.2): values received are used until they are stale, the
Cobbler's caps apply from the next period in the order received, HOLD holds the tile regions and the device state, and its
release gives both back. -/
def Obligations.CapsAndHold : Prop :=
  (∀ s inlet flow, barAlive s = true → exec (.coolantValuesReceived inlet flow) s =
    .next { s with heel := { s.heel with inlet := inlet, flow := flow, stale := false } }) ∧
  (∀ s, barAlive s = true → s.heel.stale = false → ∃ t, exec .coolantStale s = .next t ∧
    Recorded { s with heel := { s.heel with stale := true } } t 0x5033 []) ∧
  (∀ s, s.heel.stale = true → exec .coolantStale s = .next s) ∧
  (∀ s w p, s.dev.state ≠ .off → 150 ≤ w → w ≤ 900 → p ≤ 32 → exec (.capUpdate w p) s =
    .next { s with heel := { s.heel with orders := s.heel.orders ++ [(64, .powerCap w), (64, .paceCap p)] } }) ∧
  (∀ s, (applyOrders s).heel.orders = [] ∧ (applyOrders s).heel.rails = s.heel.rails ∧
    (∀ w p, s.heel.orders = [(64, .powerCap w), (64, .paceCap p)] →
      (applyOrders s).heel.powerCap = w ∧ (applyOrders s).heel.paceCap = p)) ∧
  (∀ s, s.dev.held = false → s.dev.state ≠ .off → ∃ t, Recorded { s with
      dev := { s.dev with held := true }
      clk := { s.clk with regions := s.clk.regions.mapIdx (fun r g =>
        if r < 16 then { g with holds := insertOnce .cobbler g.holds } else g) } } t 0x5050 [] ∧
    exec .cobblerHold s = .next (if s.dev.state ∈ [DevState.ready, .loaded, .running, .draining] then
      { t with dev := { t.dev with under := s.dev.state, state := .held } } else t)) ∧
  (∀ s, s.dev.held = true → ∃ t, Recorded { s with
      dev := { s.dev with held := false }
      clk := { s.clk with regions := s.clk.regions.map (fun g => { g with holds := without .cobbler g.holds }) } } t 0x5051 [] ∧
    exec .cobblerHoldRelease s = .next (resumeDeferred (if s.dev.state = .held then
      { t with dev := { t.dev with state := s.dev.under } } else t)))

/-! ### Work that the chip does by itself -/

/-- Patrol scrub, refresh and page retirement (12 R293 to R295, R297, R299, 19 R477): each uncorrectable word of a scrubbed
page is reported; a refresh delays only a scheduled request of a relaxed job that meets its bank; a finished copy remaps its
page and completes PAGE_RETIRE; the health records are written while the sled has its supply. -/
def Obligations.MemoryUpkeep : Prop :=
  (∀ s page, barAlive s = true → 2048 * page < 0x2400000000 → exec (.hbmPatrolScrub page) s =
    .next ((s.mem.hbmBad.filter (fun w => decide (w / 64 = page))).foldl (fun s w => hbmUncorrected s (32 * w)) s)) ∧
  (∀ s bank, (∀ j, s.job = some j → jobRuns s = false ∨ j.relaxed = false ∨ j.later.find? (meetsBank bank) = none) →
    exec (.refreshDue bank) s = .next s) ∧
  (∀ s bank j x, s.job = some j → jobRuns s = true → j.relaxed = true → j.later.find? (meetsBank bank) = some x →
    ∃ n t, 1 ≤ n ∧ n ≤ 128 ∧ exec (.refreshDue bank) s = .next { t with freeCtr := t.freeCtr + 1 } ∧
      t = holdFor (interlock s
        { check := 0x0B, tile := none,
          site := some (siteOf 0xA (bank / 64 / 32 * 2 ^ 24 + bank / 64 % 32 * 2 ^ 16 + bank % 64)), task := none,
          js := (s.region x.1).js, declared := 0, observed := (s.region x.1).js }) x.1 0x0B n) ∧
  (∀ s r slot page spare rest, s.mem.copying = (r, slot, page, spare) :: rest →
    ∃ t, Recorded { s with mem := { s.mem with
        copying := rest
        pageCorrected := assocErase page s.mem.pageCorrected
        retired := s.mem.retired.filter (fun x => decide (x.addr ≠ page ∨ x.kind ≠ 3))
          ++ [{ addr := page, kind := 1, spare := spare, corrected := pageTotal s page }] } } t 0x4023 [] ∧
      exec .pageRetireCopyDone s = .next (resumeDeferred (complete t r slot 0x00 0))) ∧
  (∀ s, s.dev.state ≠ .off → s.cob.vaux = true →
    exec .healthRecordWrite s = .next ([0, 1, 2, 3].foldl writeRecord s)) ∧
  (∀ s, s.cob.vaux = false → exec .healthRecordWrite s = .next s)

/-- The congestion maps (11 R286, R287, 20 R509): when a window ends, its levels and number make the recent map, the recent map
becomes the previous one, and the counts begin again; the registers from 0x4400 give the recent map and then the previous one,
as the last read of 0x4400 found them, or live before the first. -/
def Obligations.CongestionMaps : Prop :=
  (∀ s, barAlive s = true → exec .congestionWindowEnd s = .next { s with svc := { s.svc with
    previousMap := s.svc.recentMap
    recentMap := leBytes 8 (s.clk.ws / 2 ^ 20 - 1) ++
      s.svc.blocked.map (fun n => byteOf (min 255 (256 * n / 2 ^ 20))) ++ zeros 22
    blocked := List.replicate 34 0 } }) ∧
  (∀ s, barAlive s = true → s.svc.blocked.length = 34 → ∀ t, exec .congestionWindowEnd s = .next t →
    t.svc.recentMap.length = 64 ∧ leAt t.svc.recentMap 0 8 = (s.clk.ws / 2 ^ 20 - 1) % 2 ^ 64 ∧
    ∀ i, i < 34 → leAt t.svc.recentMap (8 + i) 1 = min 255 (256 * s.svc.blocked.getD i 0 / 2 ^ 20)) ∧
  (∀ s, barAlive s = true →
    let maps := s.svc.recentMap ++ s.svc.previousMap
    exec .congestionSnapshotRead s = .next { s with
      regs := { s.regs with congSnap := some maps }
      host := { s.host with out := s.host.out ++ [.readData 0x4400 (maps.take 4)] } } ∧
    bar0Word s 0x4400 = leAt maps 0 4 ∧
    ∀ off, 0x4404 ≤ off → off < 0x4480 → off % 4 = 0 →
      bar0Word s off = leAt (match s.regs.congSnap with | some x => x | none => maps) (off - 0x4400) 4)

/-! ### The service plane -/

/-- SERVICE_HEADER_ROUTE (11 R266, R274 to R278): an injected packet, with EPOCH the active bank, is refused where its header is
bad, its bank is not loaded or its destination is outside the pod; it is delivered here where it is for this chip; on the
ordered channel it leaves by the entry's egress, on its VC; the packet of an eyelet follows the same judgement. -/
def Obligations.ServiceRouting : Prop :=
  (∀ s vc x, nextInject s vc [] s.svc.inject = some x →
    let b1 := leAt x.pkt.hdr 1 1
    let p : Pkt := ⟨overlay x.pkt.hdr 1 [byteOf (b1 - b1 / 8 % 2 * 8 + 8 * s.svc.activeBank)], x.pkt.data⟩
    exec (.serviceHeaderRoute 16 vc) s =
      .next (routeWhole s (freePost { s with svc := { s.svc with inject := s.svc.inject.erase x } } x.owner) 16 vc p)) ∧
  (∀ s vc, nextInject s vc [] s.svc.inject = none → exec (.serviceHeaderRoute 16 vc) s = .next s) ∧
  (∀ s vc p rest, s.svc.turn = p :: rest → exec (.serviceHeaderRoute 17 vc) s =
    .next (routeWhole s { s with svc := { s.svc with turn := rest } } 17 1 p)) ∧
  (∀ s u cls p,
    let t := { u with svc := { u.svc with handledAt := setAt u.svc.handledAt (hEpoch p.hdr) (some u.now) } }
    (hdrBad p.hdr = true → ∃ v, Recorded t v 0x2310 [] ∧
      routeWhole s u 16 cls p = (if inPod v (hSrc p.hdr) then refusePkt v p.hdr 0x10 0x02 else v)) ∧
    (hdrBad p.hdr = false → hReply p.hdr = true → hDest p.hdr = s.dev.coord →
      routeWhole s u 16 cls p = { t with svc := { t.svc with here := u.svc.here ++ [⟨16, cls, p⟩] } }) ∧
    (hdrBad p.hdr = false → hReply p.hdr = false → bankOf s p.hdr = none → ∃ v, Recorded t v 0x2301 [] ∧
      routeWhole s u 16 cls p = refusePkt v p.hdr 0x12 0x05) ∧
    (∀ b, hdrBad p.hdr = false → hReply p.hdr = false → bankOf s p.hdr = some b → hMcast p.hdr = 0 → hSpread p.hdr = false →
      hValiant p.hdr = false →
      (inPod s (hDest p.hdr) = false → ∃ v, Recorded t v 0x2301 [] ∧ routeWhole s u 16 cls p = refusePkt v p.hdr 0x12 0x04) ∧
      (inPod s (hDest p.hdr) = true → hDest p.hdr = s.dev.coord →
        routeWhole s u 16 cls p = { t with svc := { t.svc with here := u.svc.here ++ [⟨16, cls, p⟩] } }) ∧
      (inPod s (hDest p.hdr) = true → hDest p.hdr ≠ s.dev.coord →
        let k := (b.entries.getD (linear s (hDest p.hdr)) (0xF, 0xF, 0)).1
        let vc := if bitOf (b.eyelets.getD k 3) 3 then 1 else 0
        routeWhole s u 16 cls p =
          if egressDead s k then refusePkt t p.hdr 0x22 0
          else (pktUnits 16 p).foldl (fun s u => queueUnit s k vc u) (countSpread t p.hdr)))) ∧
  (∀ s k vc, k < 16 → exec (.serviceHeaderRoute k vc) s = .next (routeEyelet s k vc)) ∧
  (∀ s k vc u rest, (s.eyelet k).routes.getD vc none = none → (s.eyelet k).rxSvc.getD vc [] = u :: rest → u.first = true →
    let t := { s with svc := { s.svc with handledAt := setAt s.svc.handledAt (hEpoch u.payload) (some s.now) } }
    (∀ e, judgeHeader t u.payload k vc = .keep e → routeEyelet s k vc = startRoute t k vc ⟨e, 0, u.payload⟩) ∧
    (∀ e v h, judgeHeader t u.payload k vc = .out e v h → egressDead t e = false →
      routeEyelet s k vc = startRoute (countSpread t u.payload) k vc ⟨e, v, h⟩) ∧
    (judgeHeader t u.payload k vc = .wait → routeEyelet s k vc = t))

/-- WRITE, READ and TACK_ADD (11 R261 to R266, 12 R293, 03 R61): the request that stands first in its queue here is performed
and answered: a reply with its status goes to the injection queue, the state of its target is changed accordingly, and
it waits where its place holds it. -/
def Obligations.RequestsPerformed : Prop :=
  (∀ s k vc x, s.svc.here.find? (fun p => decide (p.ingress = k ∧ p.vc = vc)) = some x →
    let h := x.pkt.hdr
    let t := moved { s with svc := { s.svc with here := s.svc.here.erase x } } 16 (bit01 (hSpread h))
    (hOp h = 0x01 → hSkive h = false → x.pkt.data.length = hLength h →
      (requestWaits s h (hLength h) = true → exec (.write k vc) s = .next s) ∧
      (requestWaits s h (hLength h) = false →
        let r := performWrite t (hSrc h) (hTarget h) (hTile h) (hJobTag h) (hAddr h) x.pkt.data
        exec (.write k vc) s = .next (sendReply r.1 h r.2.1 r.2.2 0 (ownMask s h) false []))) ∧
    (hOp h = 0x02 → hSkive h = false →
      (requestWaits s h (hLength h) = true → exec (.read k vc) s = .next s) ∧
      (requestWaits s h (hLength h) = false →
        let r := performRead t (hTarget h) (hTile h) (hJobTag h) (hAddr h) (hLength h)
        exec (.read k vc) s = .next (sendReply r.1 h r.2.1 r.2.2.1 0 0 false r.2.2.2))) ∧
    (hOp h = 0x03 → hLength h = 0 →
      let r := performTack t (hTarget h) (hAddr h) (leAt h 28 4)
      exec (.tackAdd k vc) s = .next (sendReply r.1 h r.2.1 r.2.2.1 r.2.2.2 (ownMask s h) false []))) ∧
  (∀ s src tile a data, s.job = none → tileEnabled s tile = true → a + data.length ≤ 2 ^ 24 → a < 2 ^ 24 →
    performWrite s src 1 tile 0 a data = (insoleWrite s tile a data, 0x00, 0)) ∧
  (∀ s src tag tile a data, a + data.length ≤ 0x2400000000 →
    performWrite s src 3 tile tag a data = (hbmWrite s a data, 0x00, 0)) ∧
  (∀ s src tag tile a data, 0x2400000000 < a + data.length → performWrite s src 3 tile tag a data = (s, 0x12, 0)) ∧
  (∀ s tag tile a n, a + n ≤ 0x2400000000 →
    (hbmBadIn s a n = none → performRead s 3 tile tag a n = (s, 0x00, 0, hbmRead s a n)) ∧
    (∀ w, hbmBadIn s a n = some w → performRead s 3 tile tag a n = (hbmUncorrected s (32 * w), 0x7F, 0x06, []))) ∧
  (∀ s t addend, t < 131072 → performTack s 4 t addend =
    (tackAdd s t (BitVec.ofNat 32 addend), 0x00, 0, (tackGet s t).toNat)) ∧
  (∀ s t addend, 131072 ≤ t → performTack s 4 t addend = (s, 0x12, 0, 0))

/-- Replies and timeouts (11 R267 to R269, 19 R482): a reply for no outstanding transaction is only recorded; the last answer
of a transaction ends it with the replier's status; a timeout answers every destination still waiting with SERVICE_FLUSHED,
SUB 0x03, ends the transaction so, and keeps the TXN from use. -/
def Obligations.RepliesAndTimeouts : Prop :=
  (∀ s k vc x op, (op = 0x81 ∨ op = 0x82 ∨ op = 0x83) →
    s.svc.here.find? (fun p => decide (p.ingress = k ∧ p.vc = vc)) = some x → hOp x.pkt.hdr = op →
    let h := x.pkt.hdr
    let t := moved { s with svc := { s.svc with here := s.svc.here.erase x } } 16 (bit01 (hSpread h))
    let reply := if op = 0x81 then Instr.writeDone k vc else if op = 0x82 then .readData k vc else .tackDone k vc
    (s.svc.txns.find? (fun y => decide (y.id = hTxn h)) = none →
      ∃ u, exec reply s = .next u ∧ Recorded t u 0x2340 []) ∧
    (∀ y, s.svc.txns.find? (fun y => decide (y.id = hTxn h)) = some y → (op = 0x82 ↔ y.read = true) → y.mcast = false →
      hSkive h = false → exec reply s = .next (endTxn t { y with
        waiting := []
        answers := y.answers ++ y.waiting.map (fun l => (l, leAt h 24 1, leAt h 25 1))
        unsure := if leAt h 24 1 = 0x22 ∧ leAt h 25 1 = 1 then y.unsure ++ y.waiting else y.unsure
        arg := leAt h 28 4
        data := x.pkt.data }))) ∧
  (∀ s y, s.svc.txns.find? (fun t => decide (t.id = y.id)) = some y →
    let z := { y with waiting := [], answers := y.answers ++ y.waiting.map (fun l => (l, 0x22, 0x03)) }
    exec (.completionTimeout y.id) s =
    .next (endTxnAs { s with svc := { s.svc with
        timedOut := s.svc.timedOut.filter (fun x => decide (s.now < x.2 + 2 * s.regs.complTimeout * msTicks)) ++ [(y.id, s.now)] } }
      z { txnEnd z with status := 0x22, sub := 0x03 })) ∧
  (∀ s id, s.svc.txns.find? (fun t => decide (t.id = id)) = none → exec (.completionTimeout id) s = .next s) ∧
  (∀ s tack, exec (.fetchTimeout tack) s = .next (if 131056 ≤ tack then failFetch s (tack - 131056) else s)) ∧
  (∀ t l st sub, t.mcast = false → t.answers = [(l, st, sub)] →
    (st = 0x00 → (txnEnd t).status = 0x00 ∧ (txnEnd t).data = t.data) ∧
    (st ≠ 0x00 → (txnEnd t).status = st ∧ (txnEnd t).sub = sub)) ∧
  (∀ t, t.mcast = true → (∃ a ∈ t.answers, a.2.1 ≠ 0x00) → (txnEnd t).status = 0x21 ∧
    ∀ l, l ∈ (txnEnd t).undelivered ↔ ∃ st sub, (l, st, sub) ∈ t.answers ∧ st ≠ 0x00)

/-! ### The sled -/

/-- Insertion, boot and power of the chips (17 R413 to R416, R424, R442, R443): each step gives exactly the next; the last rail
of the modelled chip puts it in COLD; a rail fault takes that chip alone; power is taken when the chip reports or 240 ms after
the order; presence broken takes every chip at once. -/
def Obligations.SledPower : Prop :=
  (∀ s, s.cob.seated = false → exec .sledInsertion s = .next { s with cob := { s.cob with
    seated := true, precharged := true, booted := false, vaux := true, mainPresent := true, onCell := false,
    commitAt := none, identified := false, swapLamp := false,
    cell := { s.cob.cell with
      charging := s.cob.cell.present && !s.cob.cell.isolated && decide (s.cob.cell.volts < 5000) }
    chips := List.replicate 4 { rail := 1, starting := false, stopAt := none } } }) ∧
  (∀ s, s.cob.seated = true → exec .presenceBreak s = .next (positions.foldl powerOff { s with
    cob := { s.cob with seated := false, precharged := false, checking := false, powerWhenReady := false } })) ∧
  (∀ s, s.cob.seated = true → s.cob.precharged = true → s.cob.vaux = true → s.cob.booted = false →
    let u := { s with
      cob := { s.cob with booted := true, restarting := false }
      apbelOut := s.apbelOut ++ [(.allNodes, apbelMsg 0x42 false 0 0 (padTo 16 s.cob.serial))] }
    (s.cob.leakLatched = true → exec .cobblerBoot s = .next u) ∧
    (s.cob.leakLatched = false → s.cob.valvesOpen = false → exec .cobblerBoot s = .next { u with
      cob := { u.cob with valvesOpen := true, checking := true }
      mon := { u.mon with quiet := true } })) ∧
  (∀ s, s.cob.checking = true →
    let u := { s with cob := { s.cob with checking := false } }
    (s.cob.valvesOpen = true → exec (.flowLeakCheckEnd false) s =
      .next { u with cob := { u.cob with valvesOpen := false }, mon := { u.mon with quiet := true } }) ∧
    (s.cob.latched = true → exec (.flowLeakCheckEnd true) s = .next u) ∧
    (s.cob.latched = false → s.cob.cell.ready = true → exec (.flowLeakCheckEnd true) s = .next (positions.foldl powerOn u)) ∧
    (s.cob.latched = false → s.cob.cell.ready = false → exec (.flowLeakCheckEnd true) s =
      .next { u with cob := { u.cob with powerWhenReady := true } })) ∧
  (∀ s p, (chipAt s p).starting = true →
    ((chipAt s p).rail < 6 → exec (.railGood p) s = .next { s with cob := { s.cob with
      chips := setAt s.cob.chips p { chipAt s p with rail := (chipAt s p).rail + 1 } } }) ∧
    (6 ≤ (chipAt s p).rail → ∃ t, exec (.railGood p) s = .next (sendInForce t p) ∧
      t.cob = { s.cob with chips := setAt s.cob.chips p { rail := 8, starting := false, stopAt := none } } ∧
      t.dev = { s.dev with state := if p = s.position then .cold else s.dev.state })) ∧
  (∀ s p rail, (chipAt s p).starting = true ∨ (chipAt s p).rail = 8 → 2 ≤ rail → rail ≤ 7 →
    ∃ t, exec (.railFault p rail) s = .next t ∧ SledRecorded (powerOff s p) t 0x6010 [p, rail]) ∧
  (∀ s p t0 reported, (chipAt s p).stopAt = some t0 →
    let u := powerOff (if reported = true ∧ p = s.position then flushChip s else s) p
    (reported = false → s.now < t0 + 240 * msTicks → exec (.powerRemoval p reported) s = .next s) ∧
    (reported = true ∨ t0 + 240 * msTicks ≤ s.now → s.cob.commitAt = none → exec (.powerRemoval p reported) s = .next u) ∧
    (∀ t1, reported = true ∨ t0 + 240 * msTicks ≤ s.now → s.cob.commitAt = some t1 →
      let v := { u with cob := { u.cob with stopped := u.cob.stopped + bit01 reported * 2 ^ p } }
      (poweredMask v ≠ 0 → exec (.powerRemoval p reported) s = .next v) ∧
      (poweredMask v = 0 → ∃ t, exec (.powerRemoval p reported) s = .next t ∧
        SledRecorded { v with cob := { v.cob with commitAt := none } } t 0x6004 [(v.now - t1) / 16000, v.cob.stopped]))) ∧
  (∀ s, s.cob.latched = true → poweredMask s = 0 → s.cob.seated = true → s.cob.cell.present = true →
    4800 ≤ s.cob.cell.volts →
    let u := { s with cob := { s.cob with
      latched := false, onCell := false, mainPresent := true, commitAt := none, powerWhenReady := false
      cell := { s.cob.cell with charging := !s.cob.cell.isolated && decide (s.cob.cell.volts < 5000) } } }
    exec .sledRestart s = .next (if s.cob.leakLatched || s.cob.checking then u else positions.foldl powerOn u)) ∧
  (∀ s p, chipOn s p = false → powerOn s p = { s with cob := { s.cob with
    chips := mapAt s.cob.chips p (fun c => { c with starting := true }) } }) ∧
  (∀ s p, (chipAt s p).rail = 8 →
    let u := { s with cob := { s.cob with
      chips := setAt s.cob.chips p { rail := 1, starting := false, stopAt := none }
      released := setAt s.cob.released p 0
      coords := setAt s.cob.coords p none
      sentCaps := setAt s.cob.sentCaps p (900, 32) } }
    powerOff s p = if p = s.position then chipOff u else u) ∧
  (∀ s, (chipOff s).dev.state = .off ∧ (chipOff s).job = none ∧ (chipOff s).lasts = [] ∧ (chipOff s).mem.tacks = [] ∧
    (chipOff s).cob = s.cob ∧ (chipOff s).mon = s.mon ∧ (chipOff s).position = s.position ∧
    (chipOff s).dev.serial = s.dev.serial ∧ (chipOff s).host.rings = HostIf.fresh.rings)

/-- Main power and the hold-up cell (17 R417 to R423, R443, R444): with a cell at 45.5 V or more the sled rides through, else it
stops at once; a sample at or below 45.5 V commits the stop, 5 ms of good main power end the ride-through; the cell's
readiness, charge, insertion and capacitance are recorded. -/
def Obligations.HoldUpCell : Prop :=
  (∀ s v, s.cob.mainPresent = true →
    let u := { s with cob := { s.cob with mainPresent := false, mainVolts := v } }
    (s.cob.cell.present = true → s.cob.cell.isolated = false → 4550 ≤ s.cob.cell.volts →
      ∃ t, exec (.mainLost v) s = .next t ∧ SledRecorded { u with cob := { u.cob with
        onCell := true, rideFrom := s.now } } t 0x6001 [v]) ∧
    (s.cob.cell.present = false → ∃ t, exec (.mainLost v) s = .next (positions.foldl powerOff t) ∧
      SledRecorded { u with cob := { u.cob with latched := true } } t 0x6003 [0, 1]) ∧
    (s.cob.cell.present = true → s.cob.cell.volts < 4550 → ∃ t, exec (.mainLost v) s = .next (positions.foldl powerOff t) ∧
      SledRecorded { u with cob := { u.cob with latched := true } } t 0x6003 [s.cob.cell.volts, 1])) ∧
  (∀ s v us, s.cob.cell.present = true → s.cob.cell.isolated = false → (s.cob.cell.ready = false ∨ 4800 ≤ v) →
    let u := { s with cob := { s.cob with cell := { s.cob.cell with volts := v } } }
    (s.cob.onCell = false ∨ s.cob.latched = true → exec (.cellSample v us) s = .next u) ∧
    (s.cob.onCell = true → s.cob.latched = false → v ≤ 4550 → ∃ t, exec (.cellSample v us) s = .next (powerStopAll t) ∧
      SledRecorded { u with cob := { u.cob with latched := true, commitAt := some s.now, stopped := 0 } } t 0x6003 [v, 0]) ∧
    (s.cob.onCell = true → s.cob.latched = false → 4550 < v → us < 5000 → exec (.cellSample v us) s = .next u) ∧
    (s.cob.onCell = true → s.cob.latched = false → 4550 < v → 5000 ≤ us → ∃ t, exec (.cellSample v us) s = .next (sendCaps t) ∧
      SledRecorded { u with cob := { u.cob with
        onCell := false, mainPresent := true, cell := { u.cob.cell with charging := decide (v < 5000) } } } t 0x6002
        [(s.now - s.cob.rideFrom) / 16000, v])) ∧
  (∀ s, s.cob.cell.present = true → s.cob.cell.isolated = false → s.cob.cell.ready = false →
    ∃ t, SledRecorded { s with cob := { s.cob with
        cell := { s.cob.cell with ready := true, volts := max s.cob.cell.volts 4800 } } } t 0x6008 [max s.cob.cell.volts 4800] ∧
      exec .cellReady s = .next (if t.cob.powerWhenReady && !(t.cob.leakLatched || t.cob.latched || !t.cob.seated) then
        positions.foldl powerOn { t with cob := { t.cob with powerWhenReady := false } } else t)) ∧
  (∀ s, s.cob.cell.charging = true → exec .cellFull s = .next (sendCaps { s with cob := { s.cob with
    cell := { s.cob.cell with charging := false, volts := 5000 } } })) ∧
  (∀ s v, (s.cob.cell.present = false ∨ s.cob.cell.isolated = true) →
    ∃ t, exec (.cellInserted v) s = .next (sendCaps t) ∧
      SledRecorded { s with cob := { s.cob with cell :=
        { present := true, isolated := false, volts := v, farads := s.cob.cell.farads, ready := false, charging := true } } }
        t 0x6006 [v]) ∧
  (∀ s f, s.cob.cell.present = true → s.cob.cell.isolated = false →
    let u := { s with cob := { s.cob with cell := { s.cob.cell with farads := f } } }
    (320 ≤ f → exec (.cellCapacitanceCheck f) s = .next u) ∧
    (f < 320 → ∃ t, exec (.cellCapacitanceCheck f) s = .next t ∧ SledRecorded u t 0x6007 [f])) ∧
  (∀ s, exec .vaux33Lost s = .next { s with
    cob := { s.cob with vaux := false, booted := false, identified := false }
    mon := { s.mon with state := .off, auto := false, stream := none } })

/-- Coolant, leaks and caps (17 R426, R435, Table 17.4): readings go to the powered chips; a condition comes into force with its
event, its cap and its HOLD, and goes when it no longer holds; a leak closes the valves, stops every chip and latches; the
effective cap is the lower of the set and the protective one. -/
def Obligations.CoolantAndLeaks : Prop :=
  (∀ s i o f w, exec (.coolantUpdate i o f w) s = .next (positions.foldl (orderChip (.coolant i f))
    { s with cob := { s.cob with inlet := i, outlet := o, flow := f, wet := w % 4 } })) ∧
  (∀ s c, 1 ≤ c → c ≤ 4 → conditionHolds s c = true → s.cob.conditions.contains c = false →
    ∃ t, SledRecorded { s with cob := { s.cob with conditions := s.cob.conditions ++ [c] } } t (if c ≤ 2 then 0x6020 else 0x6021)
        (if c ≤ 2 then [slotOf s.cob.inlet, slotOf s.cob.outlet] else [s.cob.flow]) ∧
      exec (.coolantCondition c) s = .next (sendHolds s (sendCaps t))) ∧
  (∀ s, conditionHolds s 5 = true → s.cob.conditions.contains 5 = false → exec (.coolantCondition 5) s =
    .next (powerStopAll { s with cob := { s.cob with conditions := s.cob.conditions ++ [5] } })) ∧
  (∀ s c, conditionHolds s c = false → exec (.coolantCondition c) s = .next s) ∧
  (∀ s c, s.cob.conditions.contains c = true → conditionHolds s c = false → exec (.coolantConditionClear c) s =
    .next (sendHolds s (sendCaps { s with cob := { s.cob with
      conditions := s.cob.conditions.filter (fun x => decide (x ≠ c)) } }))) ∧
  (∀ s, (conditionHolds s 1 = true ↔ 450 < s.cob.inlet) ∧ (conditionHolds s 2 = true ↔ 500 < s.cob.inlet ∨ 600 < s.cob.outlet) ∧
    (conditionHolds s 3 = true ↔ s.cob.flow < 800) ∧ (conditionHolds s 4 = true ↔ s.cob.flow < 400)) ∧
  (∀ s z, z % 4 ≠ 0 → ∃ t, exec (.leak z) s = .next (positions.foldl powerStopChip t) ∧ SledRecorded { s with
    cob := { s.cob with
      wet := z % 4, valvesOpen := false, leakLatched := true, checking := false, powerWhenReady := false }
    mon := { s.mon with quiet := true } } t 0x6023 [z % 4, 0]) ∧
  (∀ s p, effCaps s p = (min (s.cob.setCaps.getD p (900, 32)).1
      (min (if s.cob.conditions.contains 1 || s.cob.conditions.contains 3 then 600 else 900)
        (if s.cob.cell.charging then 825 else 900)), min (s.cob.setCaps.getD p (900, 32)).2 32))

/-- The Cobbler's own messages and restarts (17 R436, R437, R440): an unhealthy image gives way to the previous one; after a
restart the events held are sent again; an unacknowledged event is repeated after 1 s, and SLED_PRESENT goes out until an
IDENTIFY arrives. -/
def Obligations.CobblerMessages : Prop :=
  (∀ s t0, s.cob.newFrom = some t0 → ∃ t, exec .fwRollback s = .next t ∧ SledRecorded { s with cob := { s.cob with
    running := 1 - s.cob.running, newFrom := none, restarting := true } } t 0x6031
    [1 - s.cob.running, s.cob.versions.getD (1 - s.cob.running) 0]) ∧
  (∀ s ok, s.cob.restarting = true →
    let u := { s with cob := { s.cob with restarting := false, newFrom := if ok then none else s.cob.newFrom } }
    (s.cob.identified = false → exec (.cobblerRestartComplete ok) s = .next u) ∧
    (s.cob.identified = true → exec (.cobblerRestartComplete ok) s = .next { u with
      cob := { u.cob with events := s.cob.events.map (fun e => { e with sentAt := s.now }) }
      apbelOut := s.apbelOut ++ s.cob.events.map (fun e => (.manager, apbelMsg 0x40 false 0 e.seq e.entry)) })) ∧
  (∀ s seq e, s.cob.events.find? (fun e => decide (e.seq = seq)) = some e → cobAnswers s = true → s.cob.identified = true →
    e.sentAt + 1000 * msTicks ≤ s.now → exec (.eventResend seq) s = .next { s with
      cob := { s.cob with events := s.cob.events.map (fun x => if x.seq = seq then { x with sentAt := s.now } else x) }
      apbelOut := s.apbelOut ++ [(.manager, apbelMsg 0x40 false 0 seq e.entry)] }) ∧
  (∀ s, cobAnswers s = true → s.cob.identified = false → exec .sledPresent s = .next { s with
    apbelOut := s.apbelOut ++ [(.allNodes, apbelMsg 0x42 false 0 0 (padTo 16 s.cob.serial))] }) ∧
  (∀ s src msg, cobAnswers s = true → apbelHeaderOk 0x41 msg = true → msg.length = 20 → exec (.eventAck src msg) s =
    .next { s with cob := { s.cob with events := s.cob.events.filter (fun e => decide (e.seq ≠ leAt msg 16 4)) } })

/-! ### Apbel requests -/

/-- Addresses, coordinates, eyelets and reports (17 R434, R438, R440, Table 17.10): a whole request in range acts and is
answered with status 0, one out of range with BAD_MESSAGE, and one that names a chip without power with BAD_STATE. -/
def Obligations.ApbelAddressing : Prop :=
  (∀ s src msg, Asked s 0x01 msg → msg.drop 16 = [] → ∃ body, exec (.identify src msg) s =
    .next (replied { s with freeCtr := s.freeCtr + 1, cob := { s.cob with identified := true } } src 0x01 msg 0 body) ∧
    body.take 17 = padTo 16 s.cob.serial ++ [byteOf s.cob.running]) ∧
  (∀ s src msg, Asked s 0x02 msg →
    ((msg.drop 16).length = 16 → exec (.setAddress src msg) s =
      .next (replied { s with cob := { s.cob with address := msg.drop 16 } } src 0x02 msg 0 [])) ∧
    ((msg.drop 16).length ≠ 16 → exec (.setAddress src msg) s = .next (replied s src 0x02 msg 1 []))) ∧
  (∀ s src msg, Asked s 0x03 msg → (msg.drop 16).length = 11 →
    let b := msg.drop 16
    let shape : Coord := ⟨leAt b 8 1, leAt b 9 1, leAt b 10 1⟩
    shapeOk shape = true → (∀ p, p < 4 → inShape shape (Coord.ofField (leAt b (2 * p) 2)) = true) →
    (poweredMask s ≠ 15 → exec (.setCoord src msg) s = .next (replied s src 0x03 msg 2 [])) ∧
    (poweredMask s = 15 → exec (.setCoord src msg) s = .next (replied (applyReleases { s with
      cob := { s.cob with
        coords := positions.map (fun p => some (leAt b (2 * p) 2 % 2 ^ 14))
        shape := [shape.x, shape.y, shape.z] }
      dev := { s.dev with
        coord := leAt b (2 * s.position) 2 % 2 ^ 14
        coordValid := true
        shape := [shape.x, shape.y, shape.z] } }) src 0x03 msg 0 []))) ∧
  (∀ s src msg, Asked s 0x04 msg → (msg.drop 16).length = 5 →
    let b := msg.drop 16
    leAt b 0 1 ≤ 15 → leAt b 1 2 &&& leAt b 3 2 = 0 →
    (namesOff s (leAt b 0 1) = true → exec (.eyeletCtrl src msg) s = .next (replied s src 0x04 msg 2 [])) ∧
    (namesOff s (leAt b 0 1) = false →
      let u := { s with cob := { s.cob with released := positions.map (fun p =>
        if bitOf (leAt b 0 1) p then
          (s.cob.released.getD p 0 ||| leAt b 3 2) - ((s.cob.released.getD p 0 ||| leAt b 3 2) &&& leAt b 1 2)
        else s.cob.released.getD p 0) } }
      let v := if bitOf (leAt b 0 1) s.position then applyReleases (holdEyelets u (leAt b 1 2)) else u
      exec (.eyeletCtrl src msg) s = .next (replied { v with freeCtr := v.freeCtr + 1 } src 0x04 msg 0
        (positions.flatMap (eyeletStates v))))) ∧
  (∀ s src msg, Asked s 0x08 msg → msg.drop 16 = [] → ∃ body, exec (.sensors src msg) s =
    .next (replied { s with freeCtr := s.freeCtr + 1 } src 0x08 msg 0 body) ∧
    (body.drop 4).take 8 = leBytes 2 s.cob.cell.volts
      ++ leBytes 2 (fieldOf 16 s.cob.inlet) ++ leBytes 2 (fieldOf 16 s.cob.outlet) ++ leBytes 2 s.cob.flow) ∧
  (∀ s src msg, Asked s 0x10 msg → (msg.drop 16).length = 5 → 1 ≤ leAt (msg.drop 16) 4 1 → leAt (msg.drop 16) 4 1 ≤ 16 →
    exec (.apbelLogRead src msg) s = .next (replied s src 0x10 msg 0
      ((s.cob.sledLog.drop (leAt (msg.drop 16) 0 4)).take (leAt (msg.drop 16) 4 1)).flatten))

/-- Caps, holds, wakes and power by request (17 R408, R424, R427, R435, R440, R441, R443): each acts on the chips it names; with
the leak latch, the latched shutdown or a broken presence contact no chip is powered, a cell that feeds the sled is not given up
(log entry 88), HOLD is not released while a coolant HOLD applies, and the latch
is cleared only with both zones dry. -/
def Obligations.ApbelPower : Prop :=
  (∀ s src msg, Asked s 0x05 msg → (msg.drop 16).length = 4 →
    let b := msg.drop 16
    leAt b 0 1 < 16 → 150 ≤ leAt b 1 2 → leAt b 1 2 ≤ 900 → leAt b 3 1 ≤ 32 →
    let t := sendCaps { s with cob := { s.cob with setCaps := positions.map (fun p =>
      if bitOf (leAt b 0 1) p then (leAt b 1 2, leAt b 3 1) else s.cob.setCaps.getD p (900, 32)) } }
    exec (.setCaps src msg) s = .next (replied t src 0x05 msg 0
      (positions.flatMap (fun p => leBytes 2 (effCaps t p).1 ++ [byteOf (effCaps t p).2])))) ∧
  (∀ s src msg, Asked s 0x05 msg → (msg.drop 16).length = 4 →
    leAt (msg.drop 16) 1 2 < 150 ∨ 900 < leAt (msg.drop 16) 1 2 ∨ 32 < leAt (msg.drop 16) 3 1 →
    exec (.setCaps src msg) s = .next (replied s src 0x05 msg 1 [])) ∧
  (∀ s src msg, Asked s 0x06 msg → (msg.drop 16).length = 2 → leAt (msg.drop 16) 0 1 < 16 → leAt (msg.drop 16) 1 1 = 1 →
    namesOff s (leAt (msg.drop 16) 0 1) = false → exec (.apbelHold src msg) s =
      .next (replied (sendHolds s { s with cob := { s.cob with pmHold := pmHolds s (leAt (msg.drop 16) 0 1) true } })
        src 0x06 msg 0 [])) ∧
  (∀ s src msg, Asked s 0x06 msg → (msg.drop 16).length = 2 → leAt (msg.drop 16) 0 1 < 16 → leAt (msg.drop 16) 1 1 = 0 →
    (coolantHold s = true → exec (.apbelRelease src msg) s = .next (replied s src 0x06 msg 3 [])) ∧
    (coolantHold s = false → namesOff s (leAt (msg.drop 16) 0 1) = false → exec (.apbelRelease src msg) s =
      .next (replied (sendHolds s { s with cob := { s.cob with pmHold := pmHolds s (leAt (msg.drop 16) 0 1) false } })
        src 0x06 msg 0 []))) ∧
  (∀ s src msg, Asked s 0x07 msg → (msg.drop 16).length = 1 → leAt (msg.drop 16) 0 1 < 16 → exec (.wake src msg) s =
    .next (orderWake s (some (src, leAt msg 8 4)) 0 (leAt (msg.drop 16) 0 1))) ∧
  (∀ s src msg, Asked s 0x09 msg → (msg.drop 16).length = 2 → leAt (msg.drop 16) 0 1 < 16 →
    (leAt (msg.drop 16) 1 1 = 1 → (s.cob.leakLatched || s.cob.latched || !s.cob.seated) = true →
      exec (.chipPowerOn src msg) s = .next (replied s src 0x09 msg 3 [])) ∧
    (leAt (msg.drop 16) 1 1 = 1 → (s.cob.leakLatched || s.cob.latched || !s.cob.seated) = false → exec (.chipPowerOn src msg) s =
      .next (replied ((positions.filter (bitOf (leAt (msg.drop 16) 0 1))).foldl powerOn s) src 0x09 msg 0 [])) ∧
    (leAt (msg.drop 16) 1 1 = 0 → exec (.chipPowerOff src msg) s =
      .next (replied ((positions.filter (bitOf (leAt (msg.drop 16) 0 1))).foldl powerStopChip s) src 0x09 msg 0 []))) ∧
  (∀ s src msg, Asked s 0x0A msg → (msg.drop 16).length = 1 →
    (leAt (msg.drop 16) 0 1 = 1 → (s.cob.leakLatched || s.cob.latched || !s.cob.seated) = true →
      exec (.sledPowerOn src msg) s = .next (replied s src 0x0A msg 3 [])) ∧
    (leAt (msg.drop 16) 0 1 = 1 → (s.cob.leakLatched || s.cob.latched || !s.cob.seated) = false →
      exec (.sledPowerOn src msg) s = .next (replied (positions.foldl powerOn s) src 0x0A msg 0 [])) ∧
    (leAt (msg.drop 16) 0 1 = 0 →
      exec (.sledPowerOff src msg) s = .next (replied (positions.foldl powerStopChip s) src 0x0A msg 0 []))) ∧
  (∀ s src msg, Asked s 0x0B msg → msg.drop 16 = [] →
    let u := positions.foldl powerOff (holdEyelets s 0xFFFF)
    exec (.swapPrepare src msg) s = .next (replied (let v := moveValves u false
      { v with cob := { v.cob with swapLamp := true, checking := false, powerWhenReady := false } }) src 0x0B msg 0 [1])) ∧
  (∀ s src msg, Asked s 0x0C msg → msg.drop 16 = [] → s.cob.onCell = true →
    exec (.cellPrepare src msg) s = .next (replied s src 0x0C msg 3 [])) ∧
  (∀ s src msg, Asked s 0x0C msg → msg.drop 16 = [] → s.cob.onCell = false → ∃ t, SledRecorded { s with cob := { s.cob with cell :=
      { s.cob.cell with isolated := true, volts := min s.cob.cell.volts 99, ready := false, charging := false } } } t 0x6005 [1] ∧
    exec (.cellPrepare src msg) s = .next (replied (sendCaps t) src 0x0C msg 0 [1])) ∧
  (∀ s src msg, Asked s 0x0D msg → msg.drop 16 = [] →
    (s.cob.wet ≠ 0 → exec (.clearLeak src msg) s = .next (replied s src 0x0D msg 3 [])) ∧
    (s.cob.wet = 0 → s.cob.leakLatched = true → s.cob.valvesOpen = false → exec (.clearLeak src msg) s =
      .next (replied { s with
        cob := { s.cob with leakLatched := false, valvesOpen := true, checking := true }
        mon := { s.mon with quiet := true } } src 0x0D msg 0 []))) ∧
  (∀ s src msg, Asked s 0x0E msg → 5 ≤ (msg.drop 16).length → (msg.drop 16).length ≤ 1028 → ∃ v, v < 2 ^ 32 ∧
    exec (.fwWrite src msg) s = .next (replied { s with
      freeCtr := s.freeCtr + 1
      cob := { s.cob with
        images := mapAt s.cob.images (1 - s.cob.running) (fun x => overlay x (leAt (msg.drop 16) 0 4) ((msg.drop 16).drop 4))
        versions := setAt s.cob.versions (1 - s.cob.running) v } } src 0x0E msg 0 [])) ∧
  (∀ s src msg, Asked s 0x0F msg → (msg.drop 16).length = 48 →
    let bytes := s.cob.images.getD (1 - s.cob.running) []
    (sha384 bytes ≠ msg.drop 16 ∨ Config.imageSigned bytes = false → exec (.fwActivate src msg) s =
      .next (replied s src 0x0F msg 2 [])) ∧
    (sha384 bytes = msg.drop 16 → Config.imageSigned bytes = true → s.cob.running < 2 → ∃ t,
      SledRecorded { s with cob := { s.cob with running := 1 - s.cob.running, newFrom := some s.now } } t 0x6030
        [1 - s.cob.running, s.cob.versions.getD (1 - s.cob.running) 0] ∧
      exec (.fwActivate src msg) s = .next (let u := replied t src 0x0F msg 0 []
        { u with cob := { u.cob with restarting := true } })))

/-! ### The acoustic monitor -/

/-- The acoustic requests (18 R452, R456, R464, R467): a configuration or a calibration in range waits for the next frame
boundary, a stream begins with FRAME_SEQ and SAMPLE_INDEX 0, template data is placed, a template whose header agrees with the
data held is committed, a slot is cleared; anything else is BAD_MESSAGE and changes nothing. -/
def Obligations.AcousticRequests : Prop :=
  (∀ s src msg, AskedAcoustic s 0x01 msg →
    (∀ c, parseCfg (msg.drop 16) = some c → exec (.configure src msg) s = .next (replied { s with
      mon := { s.mon with pendingCfg := some c } } src 0x11 msg 0 (leBytes 4 ((s.mon.gen + 1) % 2 ^ 32)))) ∧
    (parseCfg (msg.drop 16) = none → exec (.configure src msg) s = .next (replied s src 0x11 msg 1 []))) ∧
  (∀ s src msg, AskedAcoustic s 0x02 msg → (msg.drop 16).length = 5 →
    (leAt (msg.drop 16) 1 1 < 4 → exec (.calWrite src msg) s = .next (replied { s with mon := { s.mon with
      pendingCal := s.mon.pendingCal.filter (fun c => decide (c.1 ≠ leAt (msg.drop 16) 1 1))
        ++ [(leAt (msg.drop 16) 1 1, leAt (msg.drop 16) 2 2, signedOf 8 (leAt (msg.drop 16) 4 1))] } } src 0x11 msg 0 [])) ∧
    (4 ≤ leAt (msg.drop 16) 1 1 → exec (.calWrite src msg) s = .next (replied s src 0x11 msg 1 []))) ∧
  (∀ s src msg, (msg.drop 16).length = 1 →
    (AskedAcoustic s 0x03 msg → exec (.streamStart src msg) s = .next (replied { s with
      mon := { s.mon with stream := some src, frameSeq := 0, sampleIndex := 0 } } src 0x11 msg 0 [])) ∧
    (AskedAcoustic s 0x04 msg → exec (.streamStop src msg) s = .next (replied { s with
      mon := { s.mon with stream := none } } src 0x11 msg 0 [])) ∧
    (AskedAcoustic s 0x08 msg → ∃ body, exec (.acousticStatus src msg) s =
      .next (replied s src 0x11 msg 0 body) ∧ ∃ rest, body =
        [byteOf (match s.mon.state with | .off => 0 | .settling => 1 | .listening => 2 | .active => 3)]
          ++ cfgBytes s.mon.cfg ++ leBytes 4 s.mon.gen ++ rest)) ∧
  (∀ s src msg, AskedAcoustic s 0x05 msg →
    let b := msg.drop 16
    leAt b 1 1 ≤ 7 → 1 ≤ leAt b 4 2 → leAt b 4 2 ≤ 1024 → b.length = 6 + leAt b 4 2 → leAt b 2 2 + leAt b 4 2 ≤ 6000 →
    exec (.templateData src msg) s = .next (replied { s with mon := { s.mon with
      slots := mapAt s.mon.slots (leAt b 1 1) (fun k => { k with held := overlay k.held (leAt b 2 2) (b.drop 6) }) } }
      src 0x11 msg 0 [])) ∧
  (∀ s src msg k, AskedAcoustic s 0x06 msg → (msg.drop 16).length = 34 → s.mon.slots[leAt (msg.drop 16) 33 1]? = some k →
    (∀ t, parseTemplateHeader (slice (msg.drop 16) 1 32) k.held = some t → exec (.templateCommit src msg) s =
      .next (replied { s with mon := { s.mon with
        slots := setAt s.mon.slots (leAt (msg.drop 16) 33 1) { k with next := some t } } } src 0x11 msg 0 [])) ∧
    (parseTemplateHeader (slice (msg.drop 16) 1 32) k.held = none → exec (.templateCommit src msg) s =
      .next (replied s src 0x11 msg 1 []))) ∧
  (∀ s src msg, AskedAcoustic s 0x07 msg → (msg.drop 16).length = 2 → leAt (msg.drop 16) 1 1 ≤ 7 →
    exec (.templateClear src msg) s = .next (replied { s with mon := { s.mon with
      slots := setAt s.mon.slots (leAt (msg.drop 16) 1 1) MonSlot.fresh } } src 0x11 msg 0 []))

/-- The monitor's states and its microphones (18 R455, R456, R458, R463, Table 18.6): it starts in SETTLING with the stored
configuration, settles into LISTENING or ACTIVE, returns from an active state that a trigger began after 60 s without one; a
faulty microphone is recorded and its recovery begins an invalid count; at a frame boundary the frame goes to the stream and
what is pending applies. -/
def Obligations.MonitorStates : Prop :=
  (∀ s, s.mon.state = .off → (∀ i, i < 4 → (s.mon.chans.getD i MonChan.fresh).calValid = true) →
    s.mon.chans.length = 4 → exec .monitorStart s = .next { s with cob := { s.cob with vaux := true }, mon := { s.mon with
      state := .settling, auto := false, cfg := s.mon.stored, clockActive := s.mon.stored.active, wantActive := none,
      pendingCfg := none, pendingCal := [], featInvalid := max s.mon.featInvalid 200, frameAt := s.now,
      chans := s.mon.chans.map (fun c => raiseInvalid (startCount s.mon.stored.rate s.mon.stored.active)
        { c with floor := none, level := none, armed := true, loudRun := 0 }) } }) ∧
  (∀ s, s.mon.state = .settling → exec .monitorSettled s = .next { s with mon := { s.mon with
    state := if s.mon.cfg.active then .active else .listening } }) ∧
  (∀ s, s.mon.state = .active → s.mon.auto = true → s.mon.autoSince + 60000 * msTicks ≤ s.now → exec .autoActiveTimeout s =
    .next { s with mon := { s.mon with state := .listening, auto := false, wantActive := some false, cfg := { s.mon.cfg with rate := 3 } } }) ∧
  (∀ s, exec .valveQuietEnd s = .next { s with mon := { s.mon with quiet := false } }) ∧
  (∀ s ch c, s.mon.chans[ch]? = some c → c.fault = false → s.mon.state ≠ .off →
    exec (.micFault ch) s = .next (monEvent { s with mon := { s.mon with
      chans := setAt s.mon.chans ch { c with fault := true, loudRun := 0 } } } 0x7002 ch [ch])) ∧
  (∀ s ch c, s.mon.chans[ch]? = some c → c.fault = true → exec (.micRecovery ch) s = .next { s with mon := { s.mon with
    chans := setAt s.mon.chans ch { c with fault := false, invalid := max c.invalid 40 }
    featInvalid := if ch = s.mon.cfg.featureCh then max s.mon.featInvalid 40 else s.mon.featInvalid } }) ∧
  (∀ s i n, n ≠ 0 →
    let c := s.mon.chans.getD i MonChan.fresh
    let k := c.clips.filter (fun p => decide (s.now < p.1 + 1000 * msTicks)) ++ [(s.now, n)]
    noteClips s i n = monEvent { s with mon := { s.mon with chans := setAt s.mon.chans i { c with clips := k } } } 0x7003 i
      [i, (k.map Prod.snd).sum]) ∧
  (∀ s code key slots,
    ((∃ t, (code, key, t) ∈ s.mon.rates ∧ s.now < t + 1000 * msTicks) → monEvent s code key slots = s) ∧
    ((∀ t, (code, key, t) ∈ s.mon.rates → t + 1000 * msTicks ≤ s.now) → SledRecorded { s with mon := { s.mon with
      rates := s.mon.rates.filter (fun r => !decide (r.1 = code ∧ r.2.1 = key)) ++ [(code, key, s.now)] } }
      (monEvent s code key slots) code slots)) ∧
  (∀ s samples, s.mon.state ≠ .off → s.mon.stream = none → (∀ p ∈ samples, ∀ x ∈ p, x.2 = false) →
    exec (.acousticFrameBoundary samples) s = .next { s with
      mon := applyPending { s.mon with chans := s.mon.chans.map (fun c => { c with invalid := c.invalid - 64 }) } s.now }) ∧
  (∀ s samples src, s.mon.state ≠ .off → s.mon.stream = some src → cobAnswers s = true →
    (∀ p ∈ samples, ∀ x ∈ p, x.2 = false) → exec (.acousticFrameBoundary samples) s = .next { s with
      apbelOut := s.apbelOut ++ [(.source src, apbelMsg 0x11 false 0 0 (streamBody s.mon samples))]
      mon := applyPending { s.mon with
        frameSeq := (s.mon.frameSeq + 1) % 2 ^ 32
        sampleIndex := (s.mon.sampleIndex + 64) % 2 ^ 64
        chans := s.mon.chans.map (fun c => { c with invalid := c.invalid - 64 }) } s.now })

/-- Energy (18 R460, R461): a valid block of an enabled channel that is armed moves its floor by at most ATTACK up and DECAY down
while it is below the threshold; HOLD_BLOCKS loud blocks in a row trigger and disarm the channel; it is armed again 3 dB below
the threshold, or after 60 s at the level it has. -/
def Obligations.EnergyTriggers : Prop :=
  (∀ s ch xs c, s.mon.chans[ch]? = some c → deciding s.mon = true → s.mon.cfg.energyEn = true →
    bitOf s.mon.cfg.channels ch = true → c.fault = false → c.invalid = 0 →
    let l := levelOf xs
    let f := c.floor.getD l
    let put := fun x : MonChan =>
      ({ s with mon := { s.mon with chans := setAt s.mon.chans ch { x with level := some l } } } : State)
    (c.armed = true → l < f + s.mon.cfg.threshold → exec (.energyBlock ch xs) s =
      .next (put { c with floor := some (floorAfter s.mon.cfg f l), loudRun := 0 })) ∧
    (c.armed = true → f + s.mon.cfg.threshold ≤ l → c.loudRun + 1 < s.mon.cfg.holdBlocks → exec (.energyBlock ch xs) s =
      .next (put { c with floor := some (floorAfter s.mon.cfg f l), loudRun := c.loudRun + 1 })) ∧
    (c.armed = true → f + s.mon.cfg.threshold ≤ l → s.mon.cfg.holdBlocks ≤ c.loudRun + 1 → exec (.energyBlock ch xs) s =
      .next (energyTrigger (put { c with floor := some f, armed := false, loudRun := 0, disarmedAt := s.now }) ch l f)) ∧
    (c.armed = false → exec (.energyBlock ch xs) s =
      .next (put { c with armed := decide (l < f + s.mon.cfg.threshold - 192), loudRun := 0 }))) ∧
  (∀ s ch xs c, s.mon.chans[ch]? = some c → settled s.mon = true → s.mon.quiet = true → s.mon.cfg.energyEn = true →
    bitOf s.mon.cfg.channels ch = true → c.fault = false → c.invalid = 0 → exec (.energyBlock ch xs) s =
      .next { s with mon := { s.mon with chans := setAt s.mon.chans ch { c with level := some (levelOf xs) } } }) ∧
  (∀ (g : MonCfg) (f l : Int), 0 ≤ g.attack → 0 ≤ g.decay →
    (f ≤ l → f ≤ floorAfter g f l ∧ floorAfter g f l ≤ l ∧ floorAfter g f l ≤ f + g.attack) ∧
    (l < f → l ≤ floorAfter g f l ∧ floorAfter g f l ≤ f ∧ f - g.decay ≤ floorAfter g f l)) ∧
  (∀ s ch c, s.mon.chans[ch]? = some c → c.armed = false → s.mon.quiet = false → c.disarmedAt + 60000 * msTicks ≤ s.now →
    exec (.energyRearmTimeout ch) s = .next { s with mon := { s.mon with
      chans := setAt s.mon.chans ch { c with armed := true, floor := c.level, loudRun := 0 } } }) ∧
  (∀ s ch l f,
    let u := monEvent s 0x7010 ch [ch, slotOf l, slotOf f]
    let v := if u.mon.cfg.energyWake then orderWake u none 0 u.mon.cfg.wakeChips else u
    (v.mon.state = .listening → v.mon.cfg.autoActive = true → energyTrigger s ch l f =
      { v with mon := { v.mon with state := .active, auto := true, autoSince := v.now, wantActive := some true } }) ∧
    (¬ (v.mon.state = .listening ∧ v.mon.cfg.autoActive = true) → v.mon.auto = true → energyTrigger s ch l f =
      { v with mon := { v.mon with autoSince := v.now } }) ∧
    (¬ (v.mon.state = .listening ∧ v.mon.cfg.autoActive = true) → v.mon.auto = false → energyTrigger s ch l f = v))

/-- Signatures (18 R462 to R466): a feature vector spends 80 of the invalid count and puts committed templates in force; it moves
the running costs of every loaded slot where the monitor has settled and the vector is usable, and otherwise puts them back at
plus infinity; where no valve moves the slots that match are recorded, a leak signature closes the valves, any other of the wake class wakes. -/
def Obligations.Signatures : Prop :=
  (∀ s x usable,
    let u := { s with mon := { s.mon with featInvalid := s.mon.featInvalid - 80, slots := s.mon.slots.map promote } }
    (settled s.mon = false ∨ s.mon.cfg.sigEn = false → exec (.featureVector x usable) s = .next u) ∧
    (settled s.mon = true → s.mon.cfg.sigEn = true → usable = false → exec (.featureVector x usable) s =
      .next { u with mon := { u.mon with slots := (s.mon.slots.map promote).map slotReset } }) ∧
    (settled s.mon = true → s.mon.quiet = true → s.mon.cfg.sigEn = true → usable = true → s.mon.featInvalid = 0 →
      (s.mon.chans.getD s.mon.cfg.featureCh MonChan.fresh).fault = false → exec (.featureVector x usable) s =
      .next { u with mon := { u.mon with slots := (s.mon.slots.map promote).map (slotStep x) } }) ∧
    (deciding s.mon = true → s.mon.cfg.sigEn = true → usable = true → s.mon.featInvalid = 0 →
      (s.mon.chans.getD s.mon.cfg.featureCh MonChan.fresh).fault = false →
      let slots := (s.mon.slots.map promote).map (slotStep x)
      let ms := (slots.zipIdx.filter (fun p => slotMatches s.now p.1)).map (fun p => (p.2, p.1))
      exec (.featureVector x usable) s = .next (matchActions (ms.foldl (fun s p => noteMatch s p.1 p.2)
        { u with mon := { u.mon with slots := slots } }) ms))) ∧
  (∀ s ms, ms.any (fun p => decide ((p.2.tmpl.map (·.cls)).getD 0 = 2)) = true → matchActions s ms = leakResponse s 0 true) ∧
  (∀ s, matchActions s [] = s) ∧
  (∀ t x prev, (updateCosts t x prev).length = t.n + 1) ∧
  (∀ t : MonTemplate, t.levelFree = false → t.bytes.length = 40 → bandCost false t.bytes t.bytes = 0) ∧
  (∀ now k t d, k.tmpl = some t → k.lastDist = some d →
    (slotMatches now k = true ↔ d ≤ 100 * t.n * t.threshold ∧ k.quietUntil ≤ now))

/-- Skive-L gives back what it was given (5.6): for each element width of 1, 2 or 4 bytes, with and without the delta
transform, the decoder reads from the encoder's output, header, tokens and check, exactly the bytes that were encoded, whenever
there is at least one byte, the length is a multiple of the element width and below 2^32, and the decoder's limit allows it. -/
def Obligations.SkiveLRoundTrip : Prop :=
  ∀ (width : Nat) (delta : Bool) (bs : List Byte) (limit : Nat), width ≤ 2 → bs ≠ [] → bs.length % 2 ^ width = 0 →
    bs.length < 2 ^ 32 → bs.length ≤ limit → skiveDecode limit (skiveEncode width delta bs) = some bs
end

