-- ==== Sys2Proof/Laws/Ops.lean ====
section
/-! SUPPORT. What the shared operations towards the host can do: one lemma for each, which says everything that may
differ after it, and the projections that follow. -/
namespace Sys2Proof.Safety
open Sys2Proof.Machine

theorem Quiet.refl (s : State) : Quiet s s := ⟨_, _, _, rfl⟩

theorem Quiet.trans {s t u : State} (h : Quiet s t) (k : Quiet t u) : Quiet s u := by
  obtain ⟨_, _, _, rfl⟩ := h
  obtain ⟨_, _, _, rfl⟩ := k
  exact ⟨_, _, _, rfl⟩

theorem Quiet.foldl {α : Type} {f : State → α → State} (hf : ∀ s a, Quiet s (f s a)) (l : List α) (s : State) :
    Quiet s (l.foldl f s) := by
  induction l generalizing s with
  | nil => exact Quiet.refl s
  | cons a l ih => exact Quiet.trans (hf s a) (ih (f s a))

theorem setRing_quiet (s : State) (r : Nat) (f : Ring → Ring) : Quiet s (setRing s r f) := ⟨_, _, _, rfl⟩

theorem vectorCheck_quiet (s : State) (v : Nat) : Quiet s (vectorCheck s v) := by
  unfold vectorCheck
  repeat' split
  all_goals exact ⟨_, _, _, rfl⟩

theorem vectorNote_quiet (s : State) (v : Nat) (u : Bool) : Quiet s (vectorNote s v u) := by
  unfold vectorNote
  split
  · exact Quiet.refl s
  · exact Quiet.trans ⟨_, _, _, rfl⟩ (vectorCheck_quiet _ v)

theorem putEntry_quiet (s : State) (r : Nat) (e : List Byte) : Quiet s (putEntry s r e) := ⟨_, _, _, rfl⟩

theorem putRecord_quiet (s : State) (r : Nat) (es : List (List Byte)) (u : Bool) : Quiet s (putRecord s r es u) :=
  Quiet.foldl (fun _ _ => Quiet.trans (putEntry_quiet _ _ _) (vectorNote_quiet _ _ _)) es s

theorem deliverEvent_quiet (e : Event) (u : Bool) (s : State) (r : Nat) : Quiet s (deliverEvent e u s r) := by
  unfold deliverEvent
  dsimp only
  split
  · split
    · split
      · exact Quiet.trans (Quiet.trans (putRecord_quiet _ _ _ _) (setRing_quiet _ _ _)) (putRecord_quiet _ _ _ _)
      · exact putRecord_quiet _ _ _ _
    · exact setRing_quiet _ _ _
  · exact Quiet.refl s

/-- An event is entered in the logs and goes to the event rings; nothing else changes. -/
theorem event_only (s : State) (code : Nat) (slots : List Nat) :
    Quiet (logged s (eventOf s code slots)) (event s code slots) :=
  Quiet.foldl (deliverEvent_quiet (eventOf s code slots) false) _ _

section
variable (s : State) (code : Nat) (slots : List Nat)

@[simp] theorem event_now : (event s code slots).now = s.now := by
  obtain ⟨_, _, _, h⟩ := event_only s code slots; rw [h]; rfl
@[simp] theorem event_freeCtr : (event s code slots).freeCtr = s.freeCtr := by
  obtain ⟨_, _, _, h⟩ := event_only s code slots; rw [h]; rfl
@[simp] theorem event_position : (event s code slots).position = s.position := by
  obtain ⟨_, _, _, h⟩ := event_only s code slots; rw [h]; rfl
@[simp] theorem event_dev : (event s code slots).dev = s.dev := by
  obtain ⟨_, _, _, h⟩ := event_only s code slots; rw [h]; rfl
@[simp] theorem event_clk : (event s code slots).clk = s.clk := by
  obtain ⟨_, _, _, h⟩ := event_only s code slots; rw [h]; rfl
@[simp] theorem event_regs : (event s code slots).regs = s.regs := by
  obtain ⟨_, _, _, h⟩ := event_only s code slots; rw [h]; rfl
@[simp] theorem event_eyelets : (event s code slots).eyelets = s.eyelets := by
  obtain ⟨_, _, _, h⟩ := event_only s code slots; rw [h]; rfl
@[simp] theorem event_svc : (event s code slots).svc = s.svc := by
  obtain ⟨_, _, _, h⟩ := event_only s code slots; rw [h]; rfl
@[simp] theorem event_mem : (event s code slots).mem = s.mem := by
  obtain ⟨_, _, _, h⟩ := event_only s code slots; rw [h]; rfl
@[simp] theorem event_lasts : (event s code slots).lasts = s.lasts := by
  obtain ⟨_, _, _, h⟩ := event_only s code slots; rw [h]; rfl
@[simp] theorem event_keys : (event s code slots).keys = s.keys := by
  obtain ⟨_, _, _, h⟩ := event_only s code slots; rw [h]; rfl
@[simp] theorem event_job : (event s code slots).job = s.job := by
  obtain ⟨_, _, _, h⟩ := event_only s code slots; rw [h]; rfl
@[simp] theorem event_heel : (event s code slots).heel = s.heel := by
  obtain ⟨_, _, _, h⟩ := event_only s code slots; rw [h]; rfl
@[simp] theorem event_shank : (event s code slots).shank = s.shank := by
  obtain ⟨_, _, _, h⟩ := event_only s code slots; rw [h]; rfl
@[simp] theorem event_held : (event s code slots).held = s.held := by
  obtain ⟨_, _, _, h⟩ := event_only s code slots; rw [h]; rfl
@[simp] theorem event_ready : (event s code slots).ready = s.ready := by
  obtain ⟨_, _, _, h⟩ := event_only s code slots; rw [h]; rfl
@[simp] theorem event_cob : (event s code slots).cob = s.cob := by
  obtain ⟨_, _, _, h⟩ := event_only s code slots; rw [h]; rfl
@[simp] theorem event_cobOut : (event s code slots).cobOut = s.cobOut := by
  obtain ⟨_, _, _, h⟩ := event_only s code slots; rw [h]; rfl
@[simp] theorem event_apbelOut : (event s code slots).apbelOut = s.apbelOut := by
  obtain ⟨_, _, _, h⟩ := event_only s code slots; rw [h]; rfl
@[simp] theorem event_mon : (event s code slots).mon = s.mon := by
  obtain ⟨_, _, _, h⟩ := event_only s code slots; rw [h]; rfl
@[simp] theorem event_pending : (event s code slots).pending = s.pending := by
  obtain ⟨_, _, _, h⟩ := event_only s code slots; rw [h]; rfl
@[simp] theorem event_busMaster : (event s code slots).host.busMaster = s.host.busMaster := by
  obtain ⟨_, _, _, h⟩ := event_only s code slots; rw [h]; rfl
@[simp] theorem event_d3hot : (event s code slots).host.d3hot = s.host.d3hot := by
  obtain ⟨_, _, _, h⟩ := event_only s code slots; rw [h]; rfl
@[simp] theorem event_faultLog : (event s code slots).host.faultLog = s.host.faultLog := by
  obtain ⟨_, _, _, h⟩ := event_only s code slots; rw [h]; rfl
@[simp] theorem event_nextSeq : (event s code slots).host.nextSeq = (s.host.nextSeq + 1) % 2 ^ 32 := by
  obtain ⟨_, _, _, h⟩ := event_only s code slots; rw [h]; rfl
@[simp] theorem event_eventLog : (event s code slots).host.eventLog =
    (s.host.eventLog ++ [eventOf s code slots]).drop
      (s.host.eventLog.length + 1 - 65536) := by
  obtain ⟨_, _, _, h⟩ := event_only s code slots; rw [h]; unfold logged; dsimp only

/-- An event just recorded is in the event log, with the SEQ and WS of its moment. -/
theorem event_mem_log : eventOf s code slots ∈ (event s code slots).host.eventLog := by
  rw [event_eventLog, List.drop_append]
  simp only [List.mem_append]
  right
  rw [show s.host.eventLog.length + 1 - 65536 - s.host.eventLog.length = 0 by omega]
  simp

end

/-! ### Completions -/

theorem Answered.refl (s : State) : Answered s s := ⟨_, _, _, _, _, _, _, _, rfl⟩

theorem Answered.trans {s t u : State} (h : Answered s t) (k : Answered t u) : Answered s u := by
  obtain ⟨_, _, _, _, _, _, _, _, rfl⟩ := h
  obtain ⟨_, _, _, _, _, _, _, _, rfl⟩ := k
  exact ⟨_, _, _, _, _, _, _, _, rfl⟩

theorem Quiet.answered {s t : State} (h : Quiet s t) : Answered s t := by
  obtain ⟨_, _, _, rfl⟩ := h
  exact ⟨_, _, _, _, _, _, _, _, rfl⟩

theorem tackSet_only (s : State) (t : Nat) (v : Word) : Answered s (tackSet s t v) := ⟨_, _, _, _, _, _, _, _, rfl⟩

theorem setWaiters_only (s : State) (t : Nat) (ws : List (Nat × Nat)) : Answered s (setWaiters s t ws) :=
  ⟨_, _, _, _, _, _, _, _, rfl⟩

theorem releaseWait_only (s : State) (t : Nat) (w : Nat × Nat) : Answered s (releaseWait s t w) := by
  unfold releaseWait
  split <;> exact ⟨_, _, _, _, _, _, _, _, rfl⟩

theorem releaseWaits_only (t : Nat) : ∀ (fuel : Nat) (s : State), Answered s (releaseWaits t fuel s)
  | 0, s => Answered.refl s
  | fuel + 1, s => by
    unfold releaseWaits
    split
    · exact Answered.refl s
    · split
      · exact Answered.refl s
      · exact Answered.trans (Answered.trans (Answered.trans (tackSet_only _ _ _) (setWaiters_only _ _ _))
          (releaseWait_only _ _ _)) (releaseWaits_only t fuel _)

theorem tackAdd_only (s : State) (t : Nat) (a : Word) : Answered s (tackAdd s t a) :=
  Answered.trans (tackSet_only _ _ _) (releaseWaits_only _ _ _)

theorem endOutst_only (s : State) (r : Nat) (c : Cpl) : Answered s (endOutst s r c) := by
  unfold endOutst
  split
  · dsimp only
    split
    · exact Answered.trans (setRing_quiet _ _ _).answered (tackAdd_only _ _ _)
    · exact (setRing_quiet _ _ _).answered
  · exact Answered.refl s

theorem writeCpl_only (s : State) (r : Nat) (c : Cpl) : Answered s (writeCpl s r c) :=
  Answered.trans (Quiet.trans (putEntry_quiet _ _ _) (vectorNote_quiet _ _ _)).answered (endOutst_only _ _ _)

theorem postCpl_only (s : State) (r : Nat) (c : Cpl) : Answered s (postCpl s r c) := by
  unfold postCpl
  split
  · exact endOutst_only _ _ _
  · split
    · exact writeCpl_only _ _ _
    · exact (setRing_quiet _ _ _).answered

theorem complete_only (s : State) (r slot status sub : Nat) (result : List Byte) (flags : Nat) :
    Answered s (complete s r slot status sub result flags) := by
  unfold complete
  split
  · exact Answered.refl s
  · exact postCpl_only _ _ _

theorem drainRing_only (r : Nat) : ∀ (fuel : Nat) (s : State), Answered s (drainRing r fuel s)
  | 0, s => Answered.refl s
  | fuel + 1, s => by
    unfold drainRing
    split
    · exact Answered.refl s
    · split
      · exact Answered.trans (Answered.trans (setRing_quiet _ _ _).answered (writeCpl_only _ _ _))
          (drainRing_only r fuel _)
      · exact Answered.refl s

section
variable {s t : State} (h : Answered s t)
include h

theorem Answered.now : t.now = s.now := by obtain ⟨_, _, _, _, _, _, _, _, rfl⟩ := h; rfl
theorem Answered.freeCtr : t.freeCtr = s.freeCtr := by obtain ⟨_, _, _, _, _, _, _, _, rfl⟩ := h; rfl
theorem Answered.position : t.position = s.position := by obtain ⟨_, _, _, _, _, _, _, _, rfl⟩ := h; rfl
theorem Answered.dev : t.dev = s.dev := by obtain ⟨_, _, _, _, _, _, _, _, rfl⟩ := h; rfl
theorem Answered.regs : t.regs = s.regs := by obtain ⟨_, _, _, _, _, _, _, _, rfl⟩ := h; rfl
theorem Answered.eyelets : t.eyelets = s.eyelets := by obtain ⟨_, _, _, _, _, _, _, _, rfl⟩ := h; rfl
theorem Answered.svc : t.svc = s.svc := by obtain ⟨_, _, _, _, _, _, _, _, rfl⟩ := h; rfl
theorem Answered.lasts : t.lasts = s.lasts := by obtain ⟨_, _, _, _, _, _, _, _, rfl⟩ := h; rfl
theorem Answered.keys : t.keys = s.keys := by obtain ⟨_, _, _, _, _, _, _, _, rfl⟩ := h; rfl
theorem Answered.job : t.job = s.job := by obtain ⟨_, _, _, _, _, _, _, _, rfl⟩ := h; rfl
theorem Answered.heel : t.heel = s.heel := by obtain ⟨_, _, _, _, _, _, _, _, rfl⟩ := h; rfl
theorem Answered.shank : t.shank = s.shank := by obtain ⟨_, _, _, _, _, _, _, _, rfl⟩ := h; rfl
theorem Answered.cob : t.cob = s.cob := by obtain ⟨_, _, _, _, _, _, _, _, rfl⟩ := h; rfl
theorem Answered.cobOut : t.cobOut = s.cobOut := by obtain ⟨_, _, _, _, _, _, _, _, rfl⟩ := h; rfl
theorem Answered.apbelOut : t.apbelOut = s.apbelOut := by obtain ⟨_, _, _, _, _, _, _, _, rfl⟩ := h; rfl
theorem Answered.mon : t.mon = s.mon := by obtain ⟨_, _, _, _, _, _, _, _, rfl⟩ := h; rfl
theorem Answered.pending : t.pending = s.pending := by obtain ⟨_, _, _, _, _, _, _, _, rfl⟩ := h; rfl
theorem Answered.clk_ws : t.clk.ws = s.clk.ws := by obtain ⟨_, _, _, _, _, _, _, _, rfl⟩ := h; rfl
theorem Answered.clk_pace : t.clk.pace = s.clk.pace := by obtain ⟨_, _, _, _, _, _, _, _, rfl⟩ := h; rfl
theorem Answered.mem_insole : t.mem.insole = s.mem.insole := by obtain ⟨_, _, _, _, _, _, _, _, rfl⟩ := h; rfl
theorem Answered.mem_hbm : t.mem.hbm = s.mem.hbm := by obtain ⟨_, _, _, _, _, _, _, _, rfl⟩ := h; rfl
theorem Answered.mem_retired : t.mem.retired = s.mem.retired := by obtain ⟨_, _, _, _, _, _, _, _, rfl⟩ := h; rfl
theorem Answered.mem_tiles : t.mem.tiles = s.mem.tiles := by obtain ⟨_, _, _, _, _, _, _, _, rfl⟩ := h; rfl
theorem Answered.host_busMaster : t.host.busMaster = s.host.busMaster := by obtain ⟨_, _, _, _, _, _, _, _, rfl⟩ := h; rfl
theorem Answered.host_eventLog : t.host.eventLog = s.host.eventLog := by obtain ⟨_, _, _, _, _, _, _, _, rfl⟩ := h; rfl
theorem Answered.host_nextSeq : t.host.nextSeq = s.host.nextSeq := by obtain ⟨_, _, _, _, _, _, _, _, rfl⟩ := h; rfl
theorem Answered.host_faultLog : t.host.faultLog = s.host.faultLog := by obtain ⟨_, _, _, _, _, _, _, _, rfl⟩ := h; rfl

end

section
variable (s : State) (r slot status sub : Nat) (result : List Byte) (flags : Nat)

@[simp] theorem complete_now : (complete s r slot status sub result flags).now = s.now :=
  (complete_only s r slot status sub result flags).now
@[simp] theorem complete_freeCtr : (complete s r slot status sub result flags).freeCtr = s.freeCtr :=
  (complete_only s r slot status sub result flags).freeCtr
@[simp] theorem complete_position : (complete s r slot status sub result flags).position = s.position :=
  (complete_only s r slot status sub result flags).position
@[simp] theorem complete_dev : (complete s r slot status sub result flags).dev = s.dev :=
  (complete_only s r slot status sub result flags).dev
@[simp] theorem complete_regs : (complete s r slot status sub result flags).regs = s.regs :=
  (complete_only s r slot status sub result flags).regs
@[simp] theorem complete_eyelets : (complete s r slot status sub result flags).eyelets = s.eyelets :=
  (complete_only s r slot status sub result flags).eyelets
@[simp] theorem complete_svc : (complete s r slot status sub result flags).svc = s.svc :=
  (complete_only s r slot status sub result flags).svc
@[simp] theorem complete_lasts : (complete s r slot status sub result flags).lasts = s.lasts :=
  (complete_only s r slot status sub result flags).lasts
@[simp] theorem complete_keys : (complete s r slot status sub result flags).keys = s.keys :=
  (complete_only s r slot status sub result flags).keys
@[simp] theorem complete_job : (complete s r slot status sub result flags).job = s.job :=
  (complete_only s r slot status sub result flags).job
@[simp] theorem complete_heel : (complete s r slot status sub result flags).heel = s.heel :=
  (complete_only s r slot status sub result flags).heel
@[simp] theorem complete_shank : (complete s r slot status sub result flags).shank = s.shank :=
  (complete_only s r slot status sub result flags).shank
@[simp] theorem complete_cob : (complete s r slot status sub result flags).cob = s.cob :=
  (complete_only s r slot status sub result flags).cob
@[simp] theorem complete_cobOut : (complete s r slot status sub result flags).cobOut = s.cobOut :=
  (complete_only s r slot status sub result flags).cobOut
@[simp] theorem complete_apbelOut : (complete s r slot status sub result flags).apbelOut = s.apbelOut :=
  (complete_only s r slot status sub result flags).apbelOut
@[simp] theorem complete_mon : (complete s r slot status sub result flags).mon = s.mon :=
  (complete_only s r slot status sub result flags).mon
@[simp] theorem complete_pending : (complete s r slot status sub result flags).pending = s.pending :=
  (complete_only s r slot status sub result flags).pending
@[simp] theorem complete_clk_ws : (complete s r slot status sub result flags).clk.ws = s.clk.ws :=
  (complete_only s r slot status sub result flags).clk_ws
@[simp] theorem complete_clk_pace : (complete s r slot status sub result flags).clk.pace = s.clk.pace :=
  (complete_only s r slot status sub result flags).clk_pace
@[simp] theorem complete_mem_insole : (complete s r slot status sub result flags).mem.insole = s.mem.insole :=
  (complete_only s r slot status sub result flags).mem_insole
@[simp] theorem complete_mem_hbm : (complete s r slot status sub result flags).mem.hbm = s.mem.hbm :=
  (complete_only s r slot status sub result flags).mem_hbm
@[simp] theorem complete_mem_retired : (complete s r slot status sub result flags).mem.retired = s.mem.retired :=
  (complete_only s r slot status sub result flags).mem_retired
@[simp] theorem complete_mem_tiles : (complete s r slot status sub result flags).mem.tiles = s.mem.tiles :=
  (complete_only s r slot status sub result flags).mem_tiles
@[simp] theorem complete_host_busMaster : (complete s r slot status sub result flags).host.busMaster = s.host.busMaster :=
  (complete_only s r slot status sub result flags).host_busMaster
@[simp] theorem complete_host_eventLog : (complete s r slot status sub result flags).host.eventLog = s.host.eventLog :=
  (complete_only s r slot status sub result flags).host_eventLog
@[simp] theorem complete_host_nextSeq : (complete s r slot status sub result flags).host.nextSeq = s.host.nextSeq :=
  (complete_only s r slot status sub result flags).host_nextSeq
@[simp] theorem complete_host_faultLog : (complete s r slot status sub result flags).host.faultLog = s.host.faultLog :=
  (complete_only s r slot status sub result flags).host_faultLog

end

end Sys2Proof.Safety
end

