-- ==== Sys2Proof/Laws/State.lean ====
section
/-! SUPPORT. One lemma for each field of the state and each of the updates that commands are made of: the update leaves
the field as it was, or sets it as its definition says. -/
namespace Sys2Proof.Machine

section
variable (s : State) (r : Nat) (f : Ring → Ring)

@[simp] theorem setRing_now : (setRing s r f).now = s.now := rfl
@[simp] theorem setRing_freeCtr : (setRing s r f).freeCtr = s.freeCtr := rfl
@[simp] theorem setRing_position : (setRing s r f).position = s.position := rfl
@[simp] theorem setRing_dev : (setRing s r f).dev = s.dev := rfl
@[simp] theorem setRing_clk : (setRing s r f).clk = s.clk := rfl
@[simp] theorem setRing_regs : (setRing s r f).regs = s.regs := rfl
@[simp] theorem setRing_eyelets : (setRing s r f).eyelets = s.eyelets := rfl
@[simp] theorem setRing_svc : (setRing s r f).svc = s.svc := rfl
@[simp] theorem setRing_mem : (setRing s r f).mem = s.mem := rfl
@[simp] theorem setRing_lasts : (setRing s r f).lasts = s.lasts := rfl
@[simp] theorem setRing_keys : (setRing s r f).keys = s.keys := rfl
@[simp] theorem setRing_job : (setRing s r f).job = s.job := rfl
@[simp] theorem setRing_heel : (setRing s r f).heel = s.heel := rfl
@[simp] theorem setRing_shank : (setRing s r f).shank = s.shank := rfl
@[simp] theorem setRing_held : (setRing s r f).held = s.held := rfl
@[simp] theorem setRing_ready : (setRing s r f).ready = s.ready := rfl
@[simp] theorem setRing_cob : (setRing s r f).cob = s.cob := rfl
@[simp] theorem setRing_cobOut : (setRing s r f).cobOut = s.cobOut := rfl
@[simp] theorem setRing_apbelOut : (setRing s r f).apbelOut = s.apbelOut := rfl
@[simp] theorem setRing_mon : (setRing s r f).mon = s.mon := rfl
@[simp] theorem setRing_pending : (setRing s r f).pending = s.pending := rfl

end

section
variable (s : State) (k : Nat) (f : Eyelet → Eyelet)

@[simp] theorem setEyelet_now : (setEyelet s k f).now = s.now := rfl
@[simp] theorem setEyelet_freeCtr : (setEyelet s k f).freeCtr = s.freeCtr := rfl
@[simp] theorem setEyelet_position : (setEyelet s k f).position = s.position := rfl
@[simp] theorem setEyelet_dev : (setEyelet s k f).dev = s.dev := rfl
@[simp] theorem setEyelet_clk : (setEyelet s k f).clk = s.clk := rfl
@[simp] theorem setEyelet_regs : (setEyelet s k f).regs = s.regs := rfl
@[simp] theorem setEyelet_host : (setEyelet s k f).host = s.host := rfl
@[simp] theorem setEyelet_svc : (setEyelet s k f).svc = s.svc := rfl
@[simp] theorem setEyelet_mem : (setEyelet s k f).mem = s.mem := rfl
@[simp] theorem setEyelet_lasts : (setEyelet s k f).lasts = s.lasts := rfl
@[simp] theorem setEyelet_keys : (setEyelet s k f).keys = s.keys := rfl
@[simp] theorem setEyelet_job : (setEyelet s k f).job = s.job := rfl
@[simp] theorem setEyelet_heel : (setEyelet s k f).heel = s.heel := rfl
@[simp] theorem setEyelet_shank : (setEyelet s k f).shank = s.shank := rfl
@[simp] theorem setEyelet_held : (setEyelet s k f).held = s.held := rfl
@[simp] theorem setEyelet_ready : (setEyelet s k f).ready = s.ready := rfl
@[simp] theorem setEyelet_cob : (setEyelet s k f).cob = s.cob := rfl
@[simp] theorem setEyelet_cobOut : (setEyelet s k f).cobOut = s.cobOut := rfl
@[simp] theorem setEyelet_apbelOut : (setEyelet s k f).apbelOut = s.apbelOut := rfl
@[simp] theorem setEyelet_mon : (setEyelet s k f).mon = s.mon := rfl
@[simp] theorem setEyelet_pending : (setEyelet s k f).pending = s.pending := rfl

end

section
variable (s : State) (r : Nat) (f : Region → Region)

@[simp] theorem setRegion_now : (setRegion s r f).now = s.now := rfl
@[simp] theorem setRegion_freeCtr : (setRegion s r f).freeCtr = s.freeCtr := rfl
@[simp] theorem setRegion_position : (setRegion s r f).position = s.position := rfl
@[simp] theorem setRegion_dev : (setRegion s r f).dev = s.dev := rfl
@[simp] theorem setRegion_regs : (setRegion s r f).regs = s.regs := rfl
@[simp] theorem setRegion_host : (setRegion s r f).host = s.host := rfl
@[simp] theorem setRegion_eyelets : (setRegion s r f).eyelets = s.eyelets := rfl
@[simp] theorem setRegion_svc : (setRegion s r f).svc = s.svc := rfl
@[simp] theorem setRegion_mem : (setRegion s r f).mem = s.mem := rfl
@[simp] theorem setRegion_lasts : (setRegion s r f).lasts = s.lasts := rfl
@[simp] theorem setRegion_keys : (setRegion s r f).keys = s.keys := rfl
@[simp] theorem setRegion_job : (setRegion s r f).job = s.job := rfl
@[simp] theorem setRegion_heel : (setRegion s r f).heel = s.heel := rfl
@[simp] theorem setRegion_shank : (setRegion s r f).shank = s.shank := rfl
@[simp] theorem setRegion_held : (setRegion s r f).held = s.held := rfl
@[simp] theorem setRegion_ready : (setRegion s r f).ready = s.ready := rfl
@[simp] theorem setRegion_cob : (setRegion s r f).cob = s.cob := rfl
@[simp] theorem setRegion_cobOut : (setRegion s r f).cobOut = s.cobOut := rfl
@[simp] theorem setRegion_apbelOut : (setRegion s r f).apbelOut = s.apbelOut := rfl
@[simp] theorem setRegion_mon : (setRegion s r f).mon = s.mon := rfl
@[simp] theorem setRegion_pending : (setRegion s r f).pending = s.pending := rfl

end

section
variable (s : State) (f : Job → Job)

@[simp] theorem setJob_now : (setJob s f).now = s.now := rfl
@[simp] theorem setJob_freeCtr : (setJob s f).freeCtr = s.freeCtr := rfl
@[simp] theorem setJob_position : (setJob s f).position = s.position := rfl
@[simp] theorem setJob_dev : (setJob s f).dev = s.dev := rfl
@[simp] theorem setJob_clk : (setJob s f).clk = s.clk := rfl
@[simp] theorem setJob_regs : (setJob s f).regs = s.regs := rfl
@[simp] theorem setJob_host : (setJob s f).host = s.host := rfl
@[simp] theorem setJob_eyelets : (setJob s f).eyelets = s.eyelets := rfl
@[simp] theorem setJob_svc : (setJob s f).svc = s.svc := rfl
@[simp] theorem setJob_mem : (setJob s f).mem = s.mem := rfl
@[simp] theorem setJob_lasts : (setJob s f).lasts = s.lasts := rfl
@[simp] theorem setJob_keys : (setJob s f).keys = s.keys := rfl
@[simp] theorem setJob_heel : (setJob s f).heel = s.heel := rfl
@[simp] theorem setJob_shank : (setJob s f).shank = s.shank := rfl
@[simp] theorem setJob_held : (setJob s f).held = s.held := rfl
@[simp] theorem setJob_ready : (setJob s f).ready = s.ready := rfl
@[simp] theorem setJob_cob : (setJob s f).cob = s.cob := rfl
@[simp] theorem setJob_cobOut : (setJob s f).cobOut = s.cobOut := rfl
@[simp] theorem setJob_apbelOut : (setJob s f).apbelOut = s.apbelOut := rfl
@[simp] theorem setJob_mon : (setJob s f).mon = s.mon := rfl
@[simp] theorem setJob_pending : (setJob s f).pending = s.pending := rfl

end

section
variable (s : State) (f : Barrier → Barrier)

@[simp] theorem setBarrier_now : (setBarrier s f).now = s.now := rfl
@[simp] theorem setBarrier_freeCtr : (setBarrier s f).freeCtr = s.freeCtr := rfl
@[simp] theorem setBarrier_position : (setBarrier s f).position = s.position := rfl
@[simp] theorem setBarrier_dev : (setBarrier s f).dev = s.dev := rfl
@[simp] theorem setBarrier_clk : (setBarrier s f).clk = s.clk := rfl
@[simp] theorem setBarrier_regs : (setBarrier s f).regs = s.regs := rfl
@[simp] theorem setBarrier_host : (setBarrier s f).host = s.host := rfl
@[simp] theorem setBarrier_eyelets : (setBarrier s f).eyelets = s.eyelets := rfl
@[simp] theorem setBarrier_svc : (setBarrier s f).svc = s.svc := rfl
@[simp] theorem setBarrier_mem : (setBarrier s f).mem = s.mem := rfl
@[simp] theorem setBarrier_lasts : (setBarrier s f).lasts = s.lasts := rfl
@[simp] theorem setBarrier_keys : (setBarrier s f).keys = s.keys := rfl
@[simp] theorem setBarrier_heel : (setBarrier s f).heel = s.heel := rfl
@[simp] theorem setBarrier_shank : (setBarrier s f).shank = s.shank := rfl
@[simp] theorem setBarrier_held : (setBarrier s f).held = s.held := rfl
@[simp] theorem setBarrier_ready : (setBarrier s f).ready = s.ready := rfl
@[simp] theorem setBarrier_cob : (setBarrier s f).cob = s.cob := rfl
@[simp] theorem setBarrier_cobOut : (setBarrier s f).cobOut = s.cobOut := rfl
@[simp] theorem setBarrier_apbelOut : (setBarrier s f).apbelOut = s.apbelOut := rfl
@[simp] theorem setBarrier_mon : (setBarrier s f).mon = s.mon := rfl
@[simp] theorem setBarrier_pending : (setBarrier s f).pending = s.pending := rfl

end

section
variable (s : State) (x : Rate)

@[simp] theorem setRate_now : (setRate s x).now = s.now := rfl
@[simp] theorem setRate_freeCtr : (setRate s x).freeCtr = s.freeCtr := rfl
@[simp] theorem setRate_position : (setRate s x).position = s.position := rfl
@[simp] theorem setRate_dev : (setRate s x).dev = s.dev := rfl
@[simp] theorem setRate_clk : (setRate s x).clk = s.clk := rfl
@[simp] theorem setRate_regs : (setRate s x).regs = s.regs := rfl
@[simp] theorem setRate_eyelets : (setRate s x).eyelets = s.eyelets := rfl
@[simp] theorem setRate_svc : (setRate s x).svc = s.svc := rfl
@[simp] theorem setRate_mem : (setRate s x).mem = s.mem := rfl
@[simp] theorem setRate_lasts : (setRate s x).lasts = s.lasts := rfl
@[simp] theorem setRate_keys : (setRate s x).keys = s.keys := rfl
@[simp] theorem setRate_job : (setRate s x).job = s.job := rfl
@[simp] theorem setRate_heel : (setRate s x).heel = s.heel := rfl
@[simp] theorem setRate_shank : (setRate s x).shank = s.shank := rfl
@[simp] theorem setRate_held : (setRate s x).held = s.held := rfl
@[simp] theorem setRate_ready : (setRate s x).ready = s.ready := rfl
@[simp] theorem setRate_cob : (setRate s x).cob = s.cob := rfl
@[simp] theorem setRate_cobOut : (setRate s x).cobOut = s.cobOut := rfl
@[simp] theorem setRate_apbelOut : (setRate s x).apbelOut = s.apbelOut := rfl
@[simp] theorem setRate_mon : (setRate s x).mon = s.mon := rfl
@[simp] theorem setRate_pending : (setRate s x).pending = s.pending := rfl

end

section
variable (s : State) (g : List Byte) (f : LoadedLast → LoadedLast)

@[simp] theorem setLast_now : (setLast s g f).now = s.now := rfl
@[simp] theorem setLast_freeCtr : (setLast s g f).freeCtr = s.freeCtr := rfl
@[simp] theorem setLast_position : (setLast s g f).position = s.position := rfl
@[simp] theorem setLast_dev : (setLast s g f).dev = s.dev := rfl
@[simp] theorem setLast_clk : (setLast s g f).clk = s.clk := rfl
@[simp] theorem setLast_regs : (setLast s g f).regs = s.regs := rfl
@[simp] theorem setLast_host : (setLast s g f).host = s.host := rfl
@[simp] theorem setLast_eyelets : (setLast s g f).eyelets = s.eyelets := rfl
@[simp] theorem setLast_svc : (setLast s g f).svc = s.svc := rfl
@[simp] theorem setLast_mem : (setLast s g f).mem = s.mem := rfl
@[simp] theorem setLast_keys : (setLast s g f).keys = s.keys := rfl
@[simp] theorem setLast_job : (setLast s g f).job = s.job := rfl
@[simp] theorem setLast_heel : (setLast s g f).heel = s.heel := rfl
@[simp] theorem setLast_shank : (setLast s g f).shank = s.shank := rfl
@[simp] theorem setLast_held : (setLast s g f).held = s.held := rfl
@[simp] theorem setLast_ready : (setLast s g f).ready = s.ready := rfl
@[simp] theorem setLast_cob : (setLast s g f).cob = s.cob := rfl
@[simp] theorem setLast_cobOut : (setLast s g f).cobOut = s.cobOut := rfl
@[simp] theorem setLast_apbelOut : (setLast s g f).apbelOut = s.apbelOut := rfl
@[simp] theorem setLast_mon : (setLast s g f).mon = s.mon := rfl
@[simp] theorem setLast_pending : (setLast s g f).pending = s.pending := rfl

end

section
variable (s : State) (k : Nat) (f : TileHealth → TileHealth)

@[simp] theorem setTile_now : (setTile s k f).now = s.now := rfl
@[simp] theorem setTile_freeCtr : (setTile s k f).freeCtr = s.freeCtr := rfl
@[simp] theorem setTile_position : (setTile s k f).position = s.position := rfl
@[simp] theorem setTile_dev : (setTile s k f).dev = s.dev := rfl
@[simp] theorem setTile_clk : (setTile s k f).clk = s.clk := rfl
@[simp] theorem setTile_regs : (setTile s k f).regs = s.regs := rfl
@[simp] theorem setTile_host : (setTile s k f).host = s.host := rfl
@[simp] theorem setTile_eyelets : (setTile s k f).eyelets = s.eyelets := rfl
@[simp] theorem setTile_svc : (setTile s k f).svc = s.svc := rfl
@[simp] theorem setTile_lasts : (setTile s k f).lasts = s.lasts := rfl
@[simp] theorem setTile_keys : (setTile s k f).keys = s.keys := rfl
@[simp] theorem setTile_job : (setTile s k f).job = s.job := rfl
@[simp] theorem setTile_heel : (setTile s k f).heel = s.heel := rfl
@[simp] theorem setTile_shank : (setTile s k f).shank = s.shank := rfl
@[simp] theorem setTile_held : (setTile s k f).held = s.held := rfl
@[simp] theorem setTile_ready : (setTile s k f).ready = s.ready := rfl
@[simp] theorem setTile_cob : (setTile s k f).cob = s.cob := rfl
@[simp] theorem setTile_cobOut : (setTile s k f).cobOut = s.cobOut := rfl
@[simp] theorem setTile_apbelOut : (setTile s k f).apbelOut = s.apbelOut := rfl
@[simp] theorem setTile_mon : (setTile s k f).mon = s.mon := rfl
@[simp] theorem setTile_pending : (setTile s k f).pending = s.pending := rfl

end

section
variable (s : State) (k : Nat) (v : Word)

@[simp] theorem tackSet_now : (tackSet s k v).now = s.now := rfl
@[simp] theorem tackSet_freeCtr : (tackSet s k v).freeCtr = s.freeCtr := rfl
@[simp] theorem tackSet_position : (tackSet s k v).position = s.position := rfl
@[simp] theorem tackSet_dev : (tackSet s k v).dev = s.dev := rfl
@[simp] theorem tackSet_clk : (tackSet s k v).clk = s.clk := rfl
@[simp] theorem tackSet_regs : (tackSet s k v).regs = s.regs := rfl
@[simp] theorem tackSet_host : (tackSet s k v).host = s.host := rfl
@[simp] theorem tackSet_eyelets : (tackSet s k v).eyelets = s.eyelets := rfl
@[simp] theorem tackSet_svc : (tackSet s k v).svc = s.svc := rfl
@[simp] theorem tackSet_lasts : (tackSet s k v).lasts = s.lasts := rfl
@[simp] theorem tackSet_keys : (tackSet s k v).keys = s.keys := rfl
@[simp] theorem tackSet_job : (tackSet s k v).job = s.job := rfl
@[simp] theorem tackSet_heel : (tackSet s k v).heel = s.heel := rfl
@[simp] theorem tackSet_shank : (tackSet s k v).shank = s.shank := rfl
@[simp] theorem tackSet_held : (tackSet s k v).held = s.held := rfl
@[simp] theorem tackSet_ready : (tackSet s k v).ready = s.ready := rfl
@[simp] theorem tackSet_cob : (tackSet s k v).cob = s.cob := rfl
@[simp] theorem tackSet_cobOut : (tackSet s k v).cobOut = s.cobOut := rfl
@[simp] theorem tackSet_apbelOut : (tackSet s k v).apbelOut = s.apbelOut := rfl
@[simp] theorem tackSet_mon : (tackSet s k v).mon = s.mon := rfl
@[simp] theorem tackSet_pending : (tackSet s k v).pending = s.pending := rfl

end

section
variable (s : State) (k : Nat) (ws : List (Nat × Nat))

@[simp] theorem setWaiters_now : (setWaiters s k ws).now = s.now := rfl
@[simp] theorem setWaiters_freeCtr : (setWaiters s k ws).freeCtr = s.freeCtr := rfl
@[simp] theorem setWaiters_position : (setWaiters s k ws).position = s.position := rfl
@[simp] theorem setWaiters_dev : (setWaiters s k ws).dev = s.dev := rfl
@[simp] theorem setWaiters_clk : (setWaiters s k ws).clk = s.clk := rfl
@[simp] theorem setWaiters_regs : (setWaiters s k ws).regs = s.regs := rfl
@[simp] theorem setWaiters_host : (setWaiters s k ws).host = s.host := rfl
@[simp] theorem setWaiters_eyelets : (setWaiters s k ws).eyelets = s.eyelets := rfl
@[simp] theorem setWaiters_svc : (setWaiters s k ws).svc = s.svc := rfl
@[simp] theorem setWaiters_lasts : (setWaiters s k ws).lasts = s.lasts := rfl
@[simp] theorem setWaiters_keys : (setWaiters s k ws).keys = s.keys := rfl
@[simp] theorem setWaiters_job : (setWaiters s k ws).job = s.job := rfl
@[simp] theorem setWaiters_heel : (setWaiters s k ws).heel = s.heel := rfl
@[simp] theorem setWaiters_shank : (setWaiters s k ws).shank = s.shank := rfl
@[simp] theorem setWaiters_held : (setWaiters s k ws).held = s.held := rfl
@[simp] theorem setWaiters_ready : (setWaiters s k ws).ready = s.ready := rfl
@[simp] theorem setWaiters_cob : (setWaiters s k ws).cob = s.cob := rfl
@[simp] theorem setWaiters_cobOut : (setWaiters s k ws).cobOut = s.cobOut := rfl
@[simp] theorem setWaiters_apbelOut : (setWaiters s k ws).apbelOut = s.apbelOut := rfl
@[simp] theorem setWaiters_mon : (setWaiters s k ws).mon = s.mon := rfl
@[simp] theorem setWaiters_pending : (setWaiters s k ws).pending = s.pending := rfl

end

section
variable (s : State) (k a : Nat) (bs : List Byte)

@[simp] theorem insoleWrite_now : (insoleWrite s k a bs).now = s.now := rfl
@[simp] theorem insoleWrite_freeCtr : (insoleWrite s k a bs).freeCtr = s.freeCtr := rfl
@[simp] theorem insoleWrite_position : (insoleWrite s k a bs).position = s.position := rfl
@[simp] theorem insoleWrite_dev : (insoleWrite s k a bs).dev = s.dev := rfl
@[simp] theorem insoleWrite_clk : (insoleWrite s k a bs).clk = s.clk := rfl
@[simp] theorem insoleWrite_regs : (insoleWrite s k a bs).regs = s.regs := rfl
@[simp] theorem insoleWrite_host : (insoleWrite s k a bs).host = s.host := rfl
@[simp] theorem insoleWrite_eyelets : (insoleWrite s k a bs).eyelets = s.eyelets := rfl
@[simp] theorem insoleWrite_svc : (insoleWrite s k a bs).svc = s.svc := rfl
@[simp] theorem insoleWrite_lasts : (insoleWrite s k a bs).lasts = s.lasts := rfl
@[simp] theorem insoleWrite_keys : (insoleWrite s k a bs).keys = s.keys := rfl
@[simp] theorem insoleWrite_job : (insoleWrite s k a bs).job = s.job := rfl
@[simp] theorem insoleWrite_heel : (insoleWrite s k a bs).heel = s.heel := rfl
@[simp] theorem insoleWrite_shank : (insoleWrite s k a bs).shank = s.shank := rfl
@[simp] theorem insoleWrite_held : (insoleWrite s k a bs).held = s.held := rfl
@[simp] theorem insoleWrite_ready : (insoleWrite s k a bs).ready = s.ready := rfl
@[simp] theorem insoleWrite_cob : (insoleWrite s k a bs).cob = s.cob := rfl
@[simp] theorem insoleWrite_cobOut : (insoleWrite s k a bs).cobOut = s.cobOut := rfl
@[simp] theorem insoleWrite_apbelOut : (insoleWrite s k a bs).apbelOut = s.apbelOut := rfl
@[simp] theorem insoleWrite_mon : (insoleWrite s k a bs).mon = s.mon := rfl
@[simp] theorem insoleWrite_pending : (insoleWrite s k a bs).pending = s.pending := rfl

end

section
variable (s : State) (a : Nat) (bs : List Byte)

@[simp] theorem hbmWrite_now : (hbmWrite s a bs).now = s.now := rfl
@[simp] theorem hbmWrite_freeCtr : (hbmWrite s a bs).freeCtr = s.freeCtr := rfl
@[simp] theorem hbmWrite_position : (hbmWrite s a bs).position = s.position := rfl
@[simp] theorem hbmWrite_dev : (hbmWrite s a bs).dev = s.dev := rfl
@[simp] theorem hbmWrite_clk : (hbmWrite s a bs).clk = s.clk := rfl
@[simp] theorem hbmWrite_regs : (hbmWrite s a bs).regs = s.regs := rfl
@[simp] theorem hbmWrite_host : (hbmWrite s a bs).host = s.host := rfl
@[simp] theorem hbmWrite_eyelets : (hbmWrite s a bs).eyelets = s.eyelets := rfl
@[simp] theorem hbmWrite_svc : (hbmWrite s a bs).svc = s.svc := rfl
@[simp] theorem hbmWrite_lasts : (hbmWrite s a bs).lasts = s.lasts := rfl
@[simp] theorem hbmWrite_keys : (hbmWrite s a bs).keys = s.keys := rfl
@[simp] theorem hbmWrite_job : (hbmWrite s a bs).job = s.job := rfl
@[simp] theorem hbmWrite_heel : (hbmWrite s a bs).heel = s.heel := rfl
@[simp] theorem hbmWrite_shank : (hbmWrite s a bs).shank = s.shank := rfl
@[simp] theorem hbmWrite_held : (hbmWrite s a bs).held = s.held := rfl
@[simp] theorem hbmWrite_ready : (hbmWrite s a bs).ready = s.ready := rfl
@[simp] theorem hbmWrite_cob : (hbmWrite s a bs).cob = s.cob := rfl
@[simp] theorem hbmWrite_cobOut : (hbmWrite s a bs).cobOut = s.cobOut := rfl
@[simp] theorem hbmWrite_apbelOut : (hbmWrite s a bs).apbelOut = s.apbelOut := rfl
@[simp] theorem hbmWrite_mon : (hbmWrite s a bs).mon = s.mon := rfl
@[simp] theorem hbmWrite_pending : (hbmWrite s a bs).pending = s.pending := rfl

end

section
variable (s : State) 

@[simp] theorem bumpFree_now : (bumpFree s).now = s.now := rfl
@[simp] theorem bumpFree_position : (bumpFree s).position = s.position := rfl
@[simp] theorem bumpFree_dev : (bumpFree s).dev = s.dev := rfl
@[simp] theorem bumpFree_clk : (bumpFree s).clk = s.clk := rfl
@[simp] theorem bumpFree_regs : (bumpFree s).regs = s.regs := rfl
@[simp] theorem bumpFree_host : (bumpFree s).host = s.host := rfl
@[simp] theorem bumpFree_eyelets : (bumpFree s).eyelets = s.eyelets := rfl
@[simp] theorem bumpFree_svc : (bumpFree s).svc = s.svc := rfl
@[simp] theorem bumpFree_mem : (bumpFree s).mem = s.mem := rfl
@[simp] theorem bumpFree_lasts : (bumpFree s).lasts = s.lasts := rfl
@[simp] theorem bumpFree_keys : (bumpFree s).keys = s.keys := rfl
@[simp] theorem bumpFree_job : (bumpFree s).job = s.job := rfl
@[simp] theorem bumpFree_heel : (bumpFree s).heel = s.heel := rfl
@[simp] theorem bumpFree_shank : (bumpFree s).shank = s.shank := rfl
@[simp] theorem bumpFree_held : (bumpFree s).held = s.held := rfl
@[simp] theorem bumpFree_ready : (bumpFree s).ready = s.ready := rfl
@[simp] theorem bumpFree_cob : (bumpFree s).cob = s.cob := rfl
@[simp] theorem bumpFree_cobOut : (bumpFree s).cobOut = s.cobOut := rfl
@[simp] theorem bumpFree_apbelOut : (bumpFree s).apbelOut = s.apbelOut := rfl
@[simp] theorem bumpFree_mon : (bumpFree s).mon = s.mon := rfl
@[simp] theorem bumpFree_pending : (bumpFree s).pending = s.pending := rfl

end

section
variable (s : State) (k : Nat) (b : List Byte)

@[simp] theorem sendNow_now : (sendNow s k b).now = s.now := rfl
@[simp] theorem sendNow_freeCtr : (sendNow s k b).freeCtr = s.freeCtr := rfl
@[simp] theorem sendNow_position : (sendNow s k b).position = s.position := rfl
@[simp] theorem sendNow_dev : (sendNow s k b).dev = s.dev := rfl
@[simp] theorem sendNow_clk : (sendNow s k b).clk = s.clk := rfl
@[simp] theorem sendNow_regs : (sendNow s k b).regs = s.regs := rfl
@[simp] theorem sendNow_host : (sendNow s k b).host = s.host := rfl
@[simp] theorem sendNow_svc : (sendNow s k b).svc = s.svc := rfl
@[simp] theorem sendNow_mem : (sendNow s k b).mem = s.mem := rfl
@[simp] theorem sendNow_lasts : (sendNow s k b).lasts = s.lasts := rfl
@[simp] theorem sendNow_keys : (sendNow s k b).keys = s.keys := rfl
@[simp] theorem sendNow_job : (sendNow s k b).job = s.job := rfl
@[simp] theorem sendNow_heel : (sendNow s k b).heel = s.heel := rfl
@[simp] theorem sendNow_shank : (sendNow s k b).shank = s.shank := rfl
@[simp] theorem sendNow_held : (sendNow s k b).held = s.held := rfl
@[simp] theorem sendNow_ready : (sendNow s k b).ready = s.ready := rfl
@[simp] theorem sendNow_cob : (sendNow s k b).cob = s.cob := rfl
@[simp] theorem sendNow_cobOut : (sendNow s k b).cobOut = s.cobOut := rfl
@[simp] theorem sendNow_apbelOut : (sendNow s k b).apbelOut = s.apbelOut := rfl
@[simp] theorem sendNow_mon : (sendNow s k b).mon = s.mon := rfl
@[simp] theorem sendNow_pending : (sendNow s k b).pending = s.pending := rfl

end

section
variable (s : State) (x : ApbelDest) (b : List Byte)

@[simp] theorem sendApbel_now : (sendApbel s x b).now = s.now := rfl
@[simp] theorem sendApbel_freeCtr : (sendApbel s x b).freeCtr = s.freeCtr := rfl
@[simp] theorem sendApbel_position : (sendApbel s x b).position = s.position := rfl
@[simp] theorem sendApbel_dev : (sendApbel s x b).dev = s.dev := rfl
@[simp] theorem sendApbel_clk : (sendApbel s x b).clk = s.clk := rfl
@[simp] theorem sendApbel_regs : (sendApbel s x b).regs = s.regs := rfl
@[simp] theorem sendApbel_host : (sendApbel s x b).host = s.host := rfl
@[simp] theorem sendApbel_eyelets : (sendApbel s x b).eyelets = s.eyelets := rfl
@[simp] theorem sendApbel_svc : (sendApbel s x b).svc = s.svc := rfl
@[simp] theorem sendApbel_mem : (sendApbel s x b).mem = s.mem := rfl
@[simp] theorem sendApbel_lasts : (sendApbel s x b).lasts = s.lasts := rfl
@[simp] theorem sendApbel_keys : (sendApbel s x b).keys = s.keys := rfl
@[simp] theorem sendApbel_job : (sendApbel s x b).job = s.job := rfl
@[simp] theorem sendApbel_heel : (sendApbel s x b).heel = s.heel := rfl
@[simp] theorem sendApbel_shank : (sendApbel s x b).shank = s.shank := rfl
@[simp] theorem sendApbel_held : (sendApbel s x b).held = s.held := rfl
@[simp] theorem sendApbel_ready : (sendApbel s x b).ready = s.ready := rfl
@[simp] theorem sendApbel_cob : (sendApbel s x b).cob = s.cob := rfl
@[simp] theorem sendApbel_cobOut : (sendApbel s x b).cobOut = s.cobOut := rfl
@[simp] theorem sendApbel_mon : (sendApbel s x b).mon = s.mon := rfl
@[simp] theorem sendApbel_pending : (sendApbel s x b).pending = s.pending := rfl

end

/-! ### The field that changes -/

@[simp] theorem setRing_rings (s : State) (r : Nat) (f : Ring → Ring) :
    (setRing s r f).host.rings = mapAt s.host.rings r f := rfl
@[simp] theorem setEyelet_eyelets (s : State) (k : Nat) (f : Eyelet → Eyelet) :
    (setEyelet s k f).eyelets = mapAt s.eyelets k f := rfl
@[simp] theorem setRegion_regions (s : State) (k : Nat) (f : Region → Region) :
    (setRegion s k f).clk.regions = mapAt s.clk.regions k f := rfl
@[simp] theorem setJob_job (s : State) (f : Job → Job) : (setJob s f).job = s.job.map f := rfl

theorem mapAt_getD_same {α : Type} (xs : List α) (i : Nat) (f : α → α) (d : α) (h : i < xs.length) :
    (mapAt xs i f).getD i d = f (xs.getD i d) := by
  unfold mapAt
  simp [List.getD_eq_getElem?_getD, List.getElem?_modify, List.getElem?_eq_getElem h]

theorem mapAt_getD_other {α : Type} (xs : List α) (i j : Nat) (f : α → α) (d : α) (h : j ≠ i) :
    (mapAt xs i f).getD j d = xs.getD j d := by
  unfold mapAt
  simp only [List.getD_eq_getElem?_getD, List.getElem?_modify]
  cases xs[j]? <;> simp [Ne.symm h]

theorem mapAt_getD_out {α : Type} (xs : List α) (i : Nat) (f : α → α) (d : α) (h : xs.length ≤ i) :
    (mapAt xs i f).getD i d = d := by
  unfold mapAt
  rw [List.getD_eq_getElem?_getD, List.getElem?_eq_none (by rw [List.length_modify]; exact h)]
  rfl

theorem setRing_ring (s : State) (r : Nat) (f : Ring → Ring) (h : r < s.host.rings.length) :
    (setRing s r f).ring r = f (s.ring r) := mapAt_getD_same _ _ _ _ h

theorem setRing_ring_other (s : State) (r j : Nat) (f : Ring → Ring) (h : j ≠ r) :
    (setRing s r f).ring j = s.ring j := mapAt_getD_other _ _ _ _ _ h

theorem setEyelet_eyelet (s : State) (k : Nat) (f : Eyelet → Eyelet) (h : k < s.eyelets.length) :
    (setEyelet s k f).eyelet k = f (s.eyelet k) := mapAt_getD_same _ _ _ _ h

theorem setEyelet_eyelet_other (s : State) (k j : Nat) (f : Eyelet → Eyelet) (h : j ≠ k) :
    (setEyelet s k f).eyelet j = s.eyelet j := mapAt_getD_other _ _ _ _ _ h

theorem setRegion_region (s : State) (k : Nat) (f : Region → Region) (h : k < s.clk.regions.length) :
    (setRegion s k f).region k = f (s.region k) := mapAt_getD_same _ _ _ _ h

theorem setRegion_region_other (s : State) (k j : Nat) (f : Region → Region) (h : j ≠ k) :
    (setRegion s k f).region j = s.region j := mapAt_getD_other _ _ _ _ _ h

end Sys2Proof.Machine
end

