-- ==== Sys2Proof/Laws/Desc.lean ====
section
/-! SUPPORT. How a descriptor command comes to act, and what its answer does: `onDesc` where the descriptor starts, and
`complete` on a descriptor that is outstanding. -/
namespace Sys2Proof.Safety
open Sys2Proof.Machine

/-! ### Rings that a tack releases: no descriptor enters or leaves -/

/-- The slots of what is outstanding. -/
def slots (x : Ring) : List Nat := x.running.map (·.slot)

/-- Every ring keeps the slots it has outstanding. -/
def SameSlots (s t : State) : Prop := ∀ r, slots (t.ring r) = slots (s.ring r)

theorem setRing_sameSlots (s : State) (r : Nat) (f : Ring → Ring) (h : ∀ x, slots (f x) = slots x) :
    SameSlots s (setRing s r f) := by
  intro j
  by_cases hj : j = r
  · subst hj
    by_cases hl : j < s.host.rings.length
    · rw [setRing_ring _ _ _ hl, h]
    · have h1 : (setRing s j f).ring j = Ring.fresh := mapAt_getD_out _ _ _ _ (Nat.le_of_not_lt hl)
      have h2 : s.ring j = Ring.fresh := by
        show s.host.rings.getD j Ring.fresh = _
        rw [List.getD_eq_getElem?_getD, List.getElem?_eq_none (Nat.le_of_not_lt hl)]
        rfl
      rw [h1, h2]
  · rw [setRing_ring_other _ _ _ _ hj]

theorem releaseWait_sameSlots (s : State) (t : Nat) (w : Nat × Nat) : SameSlots s (releaseWait s t w) := by
  unfold releaseWait
  split
  · refine fun r => setRing_sameSlots s _ _ (fun x => ?_) r
    simp only [slots, List.map_map]
    congr 1
    funext o
    simp only [Function.comp]
    split <;> rfl
  · exact fun _ => rfl

theorem releaseWaits_sameSlots (t : Nat) : ∀ (fuel : Nat) (s : State), SameSlots s (releaseWaits t fuel s)
  | 0, _ => fun _ => rfl
  | fuel + 1, s => by
    unfold releaseWaits
    split
    · exact fun _ => rfl
    · split
      · exact fun _ => rfl
      · exact fun r => (releaseWaits_sameSlots t fuel _ r).trans (releaseWait_sameSlots _ _ _ r)

theorem tackAdd_sameSlots (s : State) (t : Nat) (a : Word) : SameSlots s (tackAdd s t a) :=
  fun r => releaseWaits_sameSlots _ _ _ r

theorem releaseWait_out (s : State) (t : Nat) (w : Nat × Nat) : (releaseWait s t w).host.out = s.host.out := by
  unfold releaseWait
  split <;> rfl

theorem releaseWaits_out (t : Nat) : ∀ (fuel : Nat) (s : State), (releaseWaits t fuel s).host.out = s.host.out
  | 0, _ => rfl
  | fuel + 1, s => by
    unfold releaseWaits
    split
    · rfl
    · split
      · rfl
      · rw [releaseWaits_out t fuel, releaseWait_out]
        rfl

theorem tackAdd_out (s : State) (t : Nat) (a : Word) : (tackAdd s t a).host.out = s.host.out := releaseWaits_out _ _ _

/-! ### What stands in a slot -/

theorem outstOf_none {s : State} {r slot : Nat} : outstOf s r slot = none ↔ slot ∉ slots (s.ring r) := by
  unfold outstOf slots
  simp [List.find?_eq_none]

/-- Ending a descriptor frees its slot and sends nothing. -/
theorem endOutst_ends (s : State) (r : Nat) (c : Cpl) (hf : c.final = true) (ha : c.answers = true) :
    outstOf (endOutst s r c) r c.index = none ∧ (endOutst s r c).host.out = s.host.out := by
  have key : outstOf (setRing s r (fun x =>
      { x with running := x.running.filter (fun o => decide (o.slot ≠ c.index)) })) r c.index = none := by
    rw [outstOf_none]
    by_cases hl : r < s.host.rings.length
    · rw [setRing_ring _ _ _ hl]
      simp [slots]
    · have h1 : (setRing s r (fun x =>
          { x with running := x.running.filter (fun o => decide (o.slot ≠ c.index)) })).ring r = Ring.fresh :=
        mapAt_getD_out _ _ _ _ (Nat.le_of_not_lt hl)
      rw [h1]
      exact List.not_mem_nil
  unfold endOutst
  rw [hf, ha]
  simp only [Bool.and_self, if_true]
  split
  · refine ⟨?_, tackAdd_out _ _ _⟩
    rw [outstOf_none, tackAdd_sameSlots]
    exact outstOf_none.1 key
  · exact ⟨key, rfl⟩

theorem vectorCheck_out (s : State) (v : Nat) : ∃ m, (vectorCheck s v).host.out = s.host.out ++ m := by
  unfold vectorCheck
  repeat' split
  all_goals first | exact ⟨[], (List.append_nil _).symm⟩ | exact ⟨_, rfl⟩

theorem vectorNote_out (s : State) (v : Nat) (u : Bool) : ∃ m, (vectorNote s v u).host.out = s.host.out ++ m := by
  unfold vectorNote
  split
  · exact ⟨[], (List.append_nil _).symm⟩
  · exact vectorCheck_out _ v

/-- Answering a descriptor with a completion whose flags are even. -/
theorem postCpl_ended (s : State) (d : Desc) (c : Cpl) (hf : c.final = true) (ha : c.answers = true)
    (hi : c.index = d.slot) (hg : c.flags % 2 = 0) (hg' : c.flags < 250) (hl : d.ring < s.host.rings.length) :
    Ended s (postCpl s d.ring c) d c := by
  refine ⟨postCpl_only _ _ _, ?_⟩
  unfold postCpl
  split
  · rw [← hi]
    exact (endOutst_ends s d.ring c hf ha).symm
  · split
    · rw [← hi]
      unfold writeCpl
      have e := endOutst_ends (vectorNote (putEntry s d.ring c.bytes) (s.attr d.ring).vector (c.irq || !c.answers))
        d.ring c hf ha
      refine ⟨e.1, ?_⟩
      obtain ⟨m, hm⟩ := vectorNote_out (putEntry s d.ring c.bytes) (s.attr d.ring).vector (c.irq || !c.answers)
      refine ⟨m, ?_⟩
      rw [e.2, hm]
      have hb : (byteAt c.bytes 2).toNat = 2 + c.flags := by
        show (byteOf (2 * bit01 c.final + c.flags)).toNat = _
        rw [hf]
        show (2 * 1 + c.flags) % 2 ^ 8 = _
        omega
      show (s.host.out ++ [_]) ++ m = _
      rw [hb, List.append_assoc, show (2 + c.flags) / 2 * 2 = 2 + c.flags by omega]
      rfl
    · exact ⟨by rw [setRing_ring _ _ _ hl], rfl⟩

theorem ring_lt {s : State} {r slot : Nat} {o : Outst} (h : outstOf s r slot = some o) : r < s.host.rings.length := by
  by_contra hl
  have h2 : s.ring r = Ring.fresh := by
    show s.host.rings.getD r Ring.fresh = _
    rw [List.getD_eq_getElem?_getD, List.getElem?_eq_none (Nat.le_of_not_lt hl)]
    rfl
  unfold outstOf at h
  rw [h2] at h
  exact absurd h (by simp [Ring.fresh])

/-- What `complete` does to an outstanding descriptor. -/
theorem complete_ended (s : State) (d : Desc) (p status sub : Nat) (result : List Byte) (flags : Nat)
    (ho : outstOf s d.ring d.slot = some (outstanding d p)) (hq : d.op ≠ 0x80) (hg : flags % 2 = 0) (hg' : flags < 250) :
    Ended s (complete s d.ring d.slot status sub result flags) d (finalCpl d status sub result flags) := by
  unfold complete
  rw [ho]
  simp only [outstanding, hq, false_and, if_false]
  exact postCpl_ended s d _ rfl rfl rfl hg hg' (ring_lt ho)

/-- `outstOf` looks at the rings only. -/
theorem outstOf_congr {s t : State} (h : t.host.rings = s.host.rings) (r slot : Nat) : outstOf t r slot = outstOf s r slot := by
  unfold outstOf State.ring
  rw [h]

/-! ### How a descriptor starts -/

theorem descCheck_setRing (s : State) (d : Desc) (r : Nat) (f : Ring → Ring) : descCheck (setRing s r f) d = descCheck s d := rfl

theorem legality_congr {s t : State} (hd : t.dev = s.dev) (hj : t.job = s.job) (op : Nat) : legality t op = legality s op := by
  unfold legality jobState
  rw [hd, hj]

theorem setRing_setRing (s : State) (r : Nat) (f g : Ring → Ring) :
    setRing (setRing s r f) r g = setRing s r (fun x => g (f x)) := by
  unfold setRing mapAt
  simp only [List.modify_modify_eq]
  rfl

theorem setRing_congr (s : State) (r : Nat) (f g : Ring → Ring) (h : f (s.ring r) = g (s.ring r)) :
    setRing s r f = setRing s r g := by
  unfold setRing
  have : mapAt s.host.rings r f = mapAt s.host.rings r g := by
    unfold mapAt
    apply List.ext_getElem?
    intro i
    simp only [List.getElem?_modify]
    by_cases hi : r = i
    · subst hi
      cases e : s.host.rings[r]? with
      | none => rfl
      | some x =>
        have : s.ring r = x := by
          show s.host.rings.getD r Ring.fresh = x
          rw [List.getD_eq_getElem?_getD, e]
          rfl
        rw [this] at h
        simp [h]
    · simp [hi]
  rw [this]

theorem tackWait_pos {s : State} {t : Nat} (h : tackGet s t ≠ 0) (w : Nat × Nat) :
    tackWait s t w = (tackSet s t (tackGet s t - 1), true) := by
  unfold tackWait
  rw [if_pos h]

theorem tackSet_setRing (s : State) (t : Nat) (v : Word) (r : Nat) (f : Ring → Ring) :
    tackSet (setRing s r f) t v = setRing (tackSet s t v) r f := rfl

theorem tackGet_setRing (s : State) (t : Nat) (r : Nat) (f : Ring → Ring) : tackGet (setRing s r f) t = tackGet s t := rfl

/-- A well-formed descriptor that need not wait goes on to start. -/
theorem readDesc_goes {s : State} {d : Desc} (i : Instr) (run : State → Desc → State) (hc : descCheck s d = none)
    (hw : d.flag 1 = true → tackGet s d.tack ≠ 0) :
    readDesc s d i run = startDesc (setRing (if d.flag 1 then tackSet s d.tack (tackGet s d.tack - 1) else s) d.ring
      (fun x => { x with reading := without d.slot x.reading, running := x.running ++ [outstanding d 0] })) d run := by
  unfold readDesc
  dsimp only
  rw [descCheck_setRing, hc]
  dsimp only
  by_cases hf : d.flag 1 = true
  · rw [if_pos hf, if_pos hf, tackWait_pos (by rw [tackGet_setRing]; exact hw hf)]
    dsimp only
    rw [tackSet_setRing, tackGet_setRing]
    rfl
  · rw [if_neg hf, if_neg hf]
    rfl

/-- A slot whose turn it is has been read. -/
theorem inTurn_mem {x : Ring} {slot : Nat} (h : inTurn x slot = true) : slot ∈ x.reading := by
  unfold inTurn at h
  rw [Bool.and_eq_true, decide_eq_true_iff] at h
  exact List.mem_of_mem_head? h.1

/-- A descriptor with nothing more to wait for is judged by the device and job state, and acts in the state `begun`, where
it is outstanding. -/
theorem onDesc_goes {s : State} {d : Desc} (h : Goes s d) (i : Instr) (run : State → Desc → State) :
    onDesc s d i true run = (match legality s d.op with
      | some sub => badState (begun s d) d sub
      | none => run (begun s d) d) ∧ outstOf (begun s d) d.ring d.slot = some (outstanding d 2) := by
  obtain ⟨hlen, ⟨⟨-, ht, hn, hc⟩, hw⟩ | ⟨hr, ho⟩⟩ := h
  · have hr := inTurn_mem ht
    have hl : d.ring < s.host.rings.length := by
      by_contra hl
      have h2 : s.ring d.ring = Ring.fresh := by
        show s.host.rings.getD d.ring Ring.fresh = _
        rw [List.getD_eq_getElem?_getD, List.getElem?_eq_none (Nat.le_of_not_lt hl)]
        rfl
      rw [h2] at hr
      exact absurd hr List.not_mem_nil
    have hb : begun s d = setRing (if d.flag 1 then tackSet s d.tack (tackGet s d.tack - 1) else s) d.ring (fun x =>
        { x with reading := without d.slot x.reading, running := x.running ++ [outstanding d 2] }) := by
      unfold begun
      rw [if_pos hr]
    have hmap : (s.ring d.ring).running.map (fun o => if o.slot = d.slot then { o with phase := 2 } else o)
        = (s.ring d.ring).running := by
      conv_rhs => rw [← List.map_id (s.ring d.ring).running]
      apply List.map_congr_left
      intro o h
      rw [if_neg (hn o h)]
      rfl
    have hstart : ∀ u : State, u.ring d.ring = s.ring d.ring → u.dev = s.dev → u.job = s.job →
        startDesc (setRing u d.ring (fun x =>
          { x with reading := without d.slot x.reading, running := x.running ++ [outstanding d 0] })) d run
        = (match legality s d.op with
          | some sub => badState (setRing u d.ring (fun x =>
            { x with reading := without d.slot x.reading, running := x.running ++ [outstanding d 2] })) d sub
          | none => run (setRing u d.ring (fun x =>
            { x with reading := without d.slot x.reading, running := x.running ++ [outstanding d 2] })) d) := by
      intro u hu hd hj
      unfold startDesc
      rw [setRing_setRing]
      have e : setRing u d.ring (fun x =>
          { { x with reading := without d.slot x.reading, running := x.running ++ [outstanding d 0] } with
            running := (x.running ++ [outstanding d 0]).map (fun o => if o.slot = d.slot then { o with phase := 2 } else o) })
          = setRing u d.ring (fun x =>
          { x with reading := without d.slot x.reading, running := x.running ++ [outstanding d 2] }) := by
        apply setRing_congr
        rw [hu, List.map_append, hmap]
        simp [outstanding]
      dsimp only at e ⊢
      rewrite [e, legality_congr (s := s) (t := setRing u _ _) hd hj]
      cases legality s d.op <;> rfl
    refine ⟨?_, ?_⟩
    · unfold onDesc
      rw [if_neg (by simp [hlen]), if_pos (by simpa using hr), if_pos ht, hb, readDesc_goes i run hc hw]
      by_cases hf : d.flag 1 = true
      · rw [if_pos hf]
        exact hstart _ rfl rfl rfl
      · rw [if_neg hf]
        exact hstart s rfl rfl rfl
    · rw [hb]
      unfold outstOf
      have hl' : d.ring < (if d.flag 1 then tackSet s d.tack (tackGet s d.tack - 1) else s).host.rings.length := by
        split <;> exact hl
      rw [setRing_ring _ _ _ hl']
      have : (if d.flag 1 then tackSet s d.tack (tackGet s d.tack - 1) else s).ring d.ring = s.ring d.ring := by
        split <;> rfl
      rw [this]
      dsimp only
      rw [List.find?_append, List.find?_eq_none.2 (fun o h => by simpa using hn o h)]
      simp [outstanding]
  · have hl := ring_lt ho
    have hb : begun s d = setRing s d.ring (fun x =>
        { x with running := x.running.map (fun o => if o.slot = d.slot then { o with phase := 2 } else o) }) := by
      unfold begun
      rw [if_neg hr]
    refine ⟨?_, ?_⟩
    · unfold onDesc
      rw [if_neg (by simp [hlen]), if_neg (by simpa using hr), ho]
      dsimp only
      rw [if_pos (show (outstanding d 1).phase = 1 from rfl)]
      unfold startDesc
      dsimp only
      rewrite [← hb, legality_congr (s := s) (t := begun s d) (by rw [hb]; rfl) (by rw [hb]; rfl)]
      cases legality s d.op <;> rfl
    · rw [hb]
      unfold outstOf at ho ⊢
      rw [setRing_ring _ _ _ hl]
      dsimp only
      rw [List.find?_map]
      have : ((fun o : Outst => decide (o.slot = d.slot)) ∘ fun o : Outst => if o.slot = d.slot then { o with phase := 2 } else o)
          = fun o => decide (o.slot = d.slot) := by
        funext o
        simp only [Function.comp]
        by_cases h : o.slot = d.slot <;> simp [h]
      rw [this, ho]
      simp [outstanding]

/-- A descriptor that starts acts in the state `begun`, where it is outstanding. -/
theorem onDesc_starts {s : State} {d : Desc} {op : Nat} (h : Starts s d op) (i : Instr) (run : State → Desc → State) :
    onDesc s d i true run = run (begun s d) d ∧ outstOf (begun s d) d.ring d.slot = some (outstanding d 2) := by
  obtain ⟨rfl, hl, hg⟩ := h
  have := onDesc_goes hg i run
  rw [hl] at this
  exact this

/-- Every descriptor command is one of `onDesc`. -/
theorem exec_descriptor {i : Instr} {d : Desc} {b : Bool} (h : descriptor i = some (d, b)) :
    ∃ run, ∀ s, exec i s = .next (onDesc s d i b run) := by
  cases i <;> simp only [descriptor, Option.some.injEq, Prod.mk.injEq, reduceCtorEq] at h <;> obtain ⟨rfl, rfl⟩ := h <;>
    exact ⟨_, fun _ => rfl⟩

theorem eventLimited_limited (s : State) (code sub period : Nat) (slots : Nat → List Nat) :
    Limited s (eventLimited s code sub period slots) code sub period slots := by
  unfold Limited eventLimited
  cases rateOf s (code, sub) with
  | none => exact event_only _ _ _
  | some x =>
    dsimp only
    by_cases h : s.now < x.last + period
    · rw [if_pos h, if_pos h]
    · rw [if_neg h, if_neg h]
      exact event_only _ _ _

/-- A rate-limited event changes the host interface only. -/
theorem Limited.host {s t : State} {code sub period : Nat} {f : Nat → List Nat} (h : Limited s t code sub period f) :
    ∃ g : HostIf, t = { s with host := g } := by
  unfold Limited at h
  split at h
  · split at h
    · exact ⟨_, h⟩
    · obtain ⟨_, _, _, rfl⟩ := h
      exact ⟨_, rfl⟩
  · obtain ⟨_, _, _, rfl⟩ := h
    exact ⟨_, rfl⟩

/-! ### Events leave what is outstanding as it is -/

/-- Every ring keeps what it has outstanding. -/
def SameRunning (s t : State) : Prop := ∀ r, (t.ring r).running = (s.ring r).running

theorem SameRunning.trans {s t u : State} (h : SameRunning s t) (k : SameRunning t u) : SameRunning s u :=
  fun r => (k r).trans (h r)

theorem SameRunning.foldl {α : Type} {f : State → α → State} (hf : ∀ s a, SameRunning s (f s a)) (l : List α) (s : State) :
    SameRunning s (l.foldl f s) := by
  induction l generalizing s with
  | nil => exact fun _ => rfl
  | cons a l ih => exact SameRunning.trans (hf s a) (ih (f s a))

theorem setRing_sameRunning (s : State) (r : Nat) (f : Ring → Ring) (h : ∀ x, (f x).running = x.running) :
    SameRunning s (setRing s r f) := by
  intro j
  by_cases hj : j = r
  · subst hj
    by_cases hl : j < s.host.rings.length
    · rw [setRing_ring _ _ _ hl, h]
    · have h1 : (setRing s j f).ring j = Ring.fresh := mapAt_getD_out _ _ _ _ (Nat.le_of_not_lt hl)
      have h2 : s.ring j = Ring.fresh := by
        show s.host.rings.getD j Ring.fresh = _
        rw [List.getD_eq_getElem?_getD, List.getElem?_eq_none (Nat.le_of_not_lt hl)]
        rfl
      rw [h1, h2]
  · rw [setRing_ring_other _ _ _ _ hj]

theorem vectorCheck_sameRunning (s : State) (v : Nat) : SameRunning s (vectorCheck s v) := by
  intro r
  unfold vectorCheck
  repeat' split
  all_goals rfl

theorem vectorNote_sameRunning (s : State) (v : Nat) (u : Bool) : SameRunning s (vectorNote s v u) := by
  unfold vectorNote
  split
  · exact fun _ => rfl
  · exact fun r => vectorCheck_sameRunning _ v r

theorem putEntry_sameRunning (s : State) (r : Nat) (e : List Byte) : SameRunning s (putEntry s r e) := by
  intro j
  unfold putEntry
  dsimp only
  refine (setRing_sameRunning _ r _ (fun x => ?_) j).trans rfl
  unfold advanceW
  split <;> rfl

theorem putRecord_sameRunning (s : State) (r : Nat) (es : List (List Byte)) (u : Bool) : SameRunning s (putRecord s r es u) :=
  SameRunning.foldl (fun _ _ => SameRunning.trans (putEntry_sameRunning _ _ _) (vectorNote_sameRunning _ _ _)) es s

theorem deliverEvent_sameRunning (e : Event) (u : Bool) (s : State) (r : Nat) : SameRunning s (deliverEvent e u s r) := by
  unfold deliverEvent
  dsimp only
  split
  · split
    · split
      · refine SameRunning.trans (SameRunning.trans (putRecord_sameRunning s r (eventEntries (overrunEvent s (s.ring r))) false) ?_)
          (putRecord_sameRunning _ _ _ _)
        exact setRing_sameRunning _ _ _ (fun _ => rfl)
      · exact putRecord_sameRunning _ _ _ _
    · exact setRing_sameRunning _ _ _ (fun _ => rfl)
  · exact fun _ => rfl

theorem event_sameRunning (s : State) (code : Nat) (slots : List Nat) : SameRunning s (event s code slots) :=
  fun r => SameRunning.foldl (deliverEvent_sameRunning (eventOf s code slots) false) (List.range 64)
    (logged s (eventOf s code slots)) r

theorem eventLimited_sameRunning (s : State) (code sub period : Nat) (slots : Nat → List Nat) :
    SameRunning s (eventLimited s code sub period slots) := by
  unfold eventLimited
  split
  · split
    · exact fun _ => rfl
    · exact fun r => event_sameRunning _ _ _ r
  · exact fun r => event_sameRunning _ _ _ r

theorem SameRunning.outstOf {s t : State} (h : SameRunning s t) (r slot : Nat) : outstOf t r slot = outstOf s r slot := by
  unfold Machine.outstOf
  rw [h r]

/-- What a refusal does to an outstanding descriptor. -/
theorem refuseDesc_refused (s : State) (d : Desc) (p status sub : Nat)
    (ho : outstOf s d.ring d.slot = some (outstanding d p)) : Refused s (refuseDesc s d status sub) d status sub := by
  refine ⟨_, eventLimited_limited _ _ _ _ _, ?_⟩
  unfold refuseDesc refuseSlot noteRefusal complete
  have h := (eventLimited_sameRunning s 0x1010 d.ring msTicks
    (fun n => [d.ring, d.slot, status, sub, n])).outstOf d.ring d.slot
  rw [ho] at h
  rw [h]
  dsimp only
  have e : ({ status := status, sub := sub, final := true, flags := 0, opcode := (outstanding d p).opcode, index := d.slot,
              tag := (outstanding d p).tag,
              result := if (outstanding d p).opcode = 0x80 ∧ ([] : List Byte).isEmpty then zeros 7 ++ [3] else [],
              irq := (outstanding d p).irq, answers := true, signal := (outstanding d p).signal } : Cpl)
      = refusal d status sub := by
    simp [refusal, finalCpl, outstanding]
  rw [e]
  exact postCpl_ended _ d _ rfl rfl rfl rfl (show 0 < 250 by decide) (ring_lt h)

/-- The entry of a descriptor that was read and cannot start. -/
theorem outstOf_taken {s : State} {d : Desc} (h : Read s d) : outstOf (taken s d) d.ring d.slot = some (outstanding d 0) := by
  obtain ⟨-, ht, hn, -⟩ := h
  have hr := inTurn_mem ht
  have hl : d.ring < s.host.rings.length := by
    by_contra hl
    have h2 : s.ring d.ring = Ring.fresh := by
      show s.host.rings.getD d.ring Ring.fresh = _
      rw [List.getD_eq_getElem?_getD, List.getElem?_eq_none (Nat.le_of_not_lt hl)]
      rfl
    rw [h2] at hr
    exact absurd hr List.not_mem_nil
  unfold outstOf taken
  rw [setRing_ring _ _ _ hl]
  dsimp only
  rw [List.find?_append, List.find?_eq_none.2 (fun o h => by simpa using hn o h)]
  simp [outstanding]

end Sys2Proof.Safety
end

