-- ==== Sys2Proof/Laws/Memory.lean ====
section
/-! SUPPORT. The laws of the byte memories: every write keeps the canonical form, a read after a write gives the byte
written, and a write leaves every other byte alone. -/
namespace Sys2Proof.Laws
open Sys2Proof.Machine

theorem memWfFrom_mono {lo lo' : Nat} (h : lo ≤ lo') : ∀ {m : Memory}, memWfFrom lo' m = true → memWfFrom lo m = true
  | [], _ => rfl
  | (k, b) :: r, w => by
    simp only [memWfFrom, Bool.and_eq_true, decide_eq_true_eq] at w ⊢
    exact ⟨⟨by omega, w.1.2⟩, w.2⟩

theorem memPut_wfFrom : ∀ {m : Memory} {lo : Nat} (a : Nat) (b : Byte), lo ≤ a → memWfFrom lo m = true →
    memWfFrom lo (memPut m a b) = true
  | [], lo, a, b, h, _ => by
    unfold memPut
    split <;> simp_all [memWfFrom]
  | (k, v) :: r, lo, a, b, h, w => by
    have w' := w
    simp only [memWfFrom, Bool.and_eq_true, decide_eq_true_eq] at w
    unfold memPut
    split
    · split
      · exact w'
      · rename_i hk hb
        simp only [memWfFrom, Bool.and_eq_true, decide_eq_true_eq]
        exact ⟨⟨h, hb⟩, ⟨by omega, w.1.2⟩, w.2⟩
    · split
      · split
        · exact memWfFrom_mono (by omega) w.2
        · rename_i hb
          subst_vars
          simp only [memWfFrom, Bool.and_eq_true, decide_eq_true_eq]
          exact ⟨⟨h, hb⟩, w.2⟩
      · simp only [memWfFrom, Bool.and_eq_true, decide_eq_true_eq]
        exact ⟨w.1, memPut_wfFrom a b (by omega) w.2⟩

theorem memPut_wf {m : Memory} (a : Nat) (b : Byte) (h : m.wf = true) : (memPut m a b).wf = true :=
  memPut_wfFrom a b (Nat.zero_le _) h

@[simp] theorem memWrite_wf : ∀ {m : Memory} (a : Nat) (bs : List Byte), m.wf = true → (memWrite m a bs).wf = true
  | _, _, [], h => h
  | _, a, b :: bs, h => by
    unfold memWrite
    exact memWrite_wf (a + 1) bs (memPut_wf a b h)

/-- Below the least address that a memory lists, every byte reads 0. -/
theorem memGet_below : ∀ {m : Memory} {lo a : Nat}, memWfFrom lo m = true → a < lo → memGet m a = 0
  | [], _, _, _, _ => rfl
  | (k, v) :: r, lo, a, w, h => by
    simp only [memWfFrom, Bool.and_eq_true, decide_eq_true_eq] at w
    unfold memGet
    rw [if_neg (by omega), if_pos (by omega)]

theorem memGet_memPut_from : ∀ {m : Memory} {lo : Nat} (a : Nat) (b : Byte) (c : Nat), memWfFrom lo m = true →
    memGet (memPut m a b) c = if c = a then b else memGet m c
  | [], lo, a, b, c, _ => by
    unfold memPut
    by_cases hb : b = 0
    · rw [if_pos hb]; split
      · exact hb.symm
      · rfl
    · rw [if_neg hb]; unfold memGet
      by_cases hc : c = a
      · rw [if_pos hc.symm, if_pos hc]
      · rw [if_neg (fun e => hc e.symm), if_neg hc]; split <;> rfl
  | (k, v) :: r, lo, a, b, c, w => by
    simp only [memWfFrom, Bool.and_eq_true, decide_eq_true_eq] at w
    unfold memPut
    split
    · rename_i hk
      split
      · rename_i hb
        split
        · subst_vars; simp only [memGet]; rw [if_neg (by omega), if_pos hk]
        · rfl
      · rename_i hb
        rw [memGet]
        by_cases hc : c = a
        · simp [hc]
        · rw [if_neg (fun e => hc e.symm), if_neg hc]
          split
          · rename_i h; simp only [memGet]; rw [if_neg (by omega), if_pos (by omega)]
          · rfl
    · split
      · rename_i hk he
        subst he
        split
        · rename_i hb
          by_cases hc : c = a
          · subst hc; rw [if_pos rfl, hb]; exact memGet_below w.2 (by omega)
          · rw [if_neg hc]; simp only [memGet]; rw [if_neg (fun e => hc e.symm)]
            split
            · rename_i h; exact memGet_below w.2 (by omega)
            · rfl
        · rename_i hb
          simp only [memGet]
          by_cases hc : c = a
          · simp [hc]
          · have e : ¬ a = c := fun e => hc e.symm
            rw [if_neg e, if_neg hc, if_neg e]
      · rename_i hk he
        simp only [memGet]
        rw [memGet_memPut_from a b c w.2]
        by_cases hc : c = a
        · subst hc; rw [if_neg (by omega), if_neg (by omega), if_pos rfl]; simp
        · simp only [if_neg hc]

/-- A byte written reads as written, and every other byte as before. -/
theorem memGet_memPut {m : Memory} (h : m.wf = true) (a : Nat) (b : Byte) (c : Nat) :
    memGet (memPut m a b) c = if c = a then b else memGet m c := memGet_memPut_from a b c h

/-- A write changes the bytes from `a` on, as many as are written, and no other. -/
theorem memGet_memWrite : ∀ {m : Memory} (h : m.wf = true) (a : Nat) (bs : List Byte) (c : Nat),
    memGet (memWrite m a bs) c = if a ≤ c ∧ c < a + bs.length then bs.getD (c - a) 0 else memGet m c
  | m, h, a, [], c => by
    rw [if_neg (by simp only [List.length_nil]; omega)]; rfl
  | m, h, a, b :: bs, c => by
    unfold memWrite
    rw [memGet_memWrite (memPut_wf a b h) (a + 1) bs c, memGet_memPut h]
    by_cases hc : c = a
    · subst hc
      rw [if_neg (by omega), if_pos rfl, if_pos (by simp)]
      simp
    · rw [if_neg hc]
      by_cases h1 : a + 1 ≤ c ∧ c < a + 1 + bs.length
      · rw [if_pos h1, if_pos (by simp; omega)]
        have : c - a = (c - (a + 1)) + 1 := by omega
        rw [this]; simp
      · rw [if_neg h1, if_neg (by simp; omega)]

/-- Leaving entries out of a canonical memory leaves it canonical. -/
theorem memWfFrom_filter (p : Nat × Byte → Bool) : ∀ {m : Memory} {lo : Nat}, memWfFrom lo m = true →
    memWfFrom lo (m.filter p) = true
  | [], _, _ => rfl
  | (k, v) :: r, lo, w => by
    have w' := w
    simp only [memWfFrom, Bool.and_eq_true, decide_eq_true_eq] at w
    rw [List.filter_cons]
    split
    · simp only [memWfFrom, Bool.and_eq_true, decide_eq_true_eq]
      exact ⟨w.1, memWfFrom_filter p w.2⟩
    · exact memWfFrom_mono (by omega) (memWfFrom_filter p w.2)

@[simp] theorem memFilter_wf (p : Nat × Byte → Bool) {m : Memory} (h : m.wf = true) :
    Memory.wf (List.filter p m) = true := memWfFrom_filter p h

end Sys2Proof.Laws
end

