-- ==== Sys2Proof/Laws/Kept.lean ====
section
/-! SUPPORT. The relation `Kept` between the state before and after an operation: how it is put together from the parts
of a definition. -/
namespace Sys2Proof.Laws
open Sys2Proof.Machine Sys2Proof.Safety

theorem Kept.refl (s : State) : Kept s s := ⟨rfl, rfl, rfl, id⟩

theorem Kept.trans {s t u : State} (h : Kept s t) (k : Kept t u) : Kept s u :=
  ⟨k.pending.trans h.pending, k.now.trans h.now, k.position.trans h.position, fun i => k.inv (h.inv i)⟩

/-- An update of fields: what is left of the queue, the time and the position is that of `t`, and each part that the
invariant speaks of is kept by itself. -/
theorem Kept.put {s t : State} (h : Kept s t)
    {free dev clk regs host eyelets svc mem lasts keys job heel shank held ready cob cobOut apbelOut mon}
    (hc : ClkOk t.clk → ClkOk clk) (hh : HostOk t.host → HostOk host) (he : t.eyelets.length = 16 → eyelets.length = 16)
    (hs : SvcOk t.svc → SvcOk svc) (hm : MemOk t.mem → MemOk mem) (hk : t.keys.length = 4 → keys.length = 4)
    (hl : HeelOk t.heel → HeelOk heel) (hn : ShankOk t.shank → ShankOk shank) (hb : CobOk t.cob → CobOk cob)
    (ho : MonOk t.mon → MonOk mon) :
    Kept s (State.mk t.now free t.position dev clk regs host eyelets svc mem lasts keys job heel shank held ready cob
      cobOut apbelOut mon t.pending) :=
  ⟨h.pending, h.now, h.position, fun i => by
    obtain ⟨a, b, c, d, e, f, g, k, l, m⟩ := h.inv i
    exact ⟨hm a, hc b, hh c, hs d, hl e, hn f, hb g, ho k, he l, hk m⟩⟩

theorem Kept.foldl {α : Type} {f : State → α → State} (hf : ∀ x a, Kept x (f x a)) {s t : State} (h : Kept s t)
    (l : List α) : Kept s (l.foldl f t) := by
  induction l generalizing t with
  | nil => exact h
  | cons a l ih => exact ih (Kept.trans h (hf t a))

theorem Kept.ite {z a b : State} {c : Prop} [Decidable c] (h : c → Kept z a) (k : ¬c → Kept z b) :
    Kept z (if c then a else b) := by
  by_cases hc : c
  · rw [if_pos hc]; exact h hc
  · rw [if_neg hc]; exact k hc

theorem Kept.iteP {z : State} {β : Type} {p : β → State} {a b : β} {c : Prop} [Decidable c] (h : c → Kept z (p a))
    (k : ¬c → Kept z (p b)) : Kept z (p (if c then a else b)) := by
  by_cases hc : c
  · rw [if_pos hc]; exact h hc
  · rw [if_neg hc]; exact k hc

/-- A fold over a state and what accumulates beside it. -/
theorem Kept.foldA {α β : Type} {f : State × β → α → State × β} (hf : ∀ x a, Kept x.1 (f x a).1) {s : State}
    {t : State × β} (h : Kept s t.1) (l : List α) : Kept s (l.foldl f t).1 := by
  induction l generalizing t with
  | nil => exact h
  | cons a l ih => exact ih (Kept.trans h (hf t a))

/-- The state of an answered pair. -/
theorem Kept.of_pair {z t : State} {β : Type} {b : β} {p : State × β} (e : p = (t, b)) (h : Kept z p.1) : Kept z t := by
  rw [e] at h; exact h

/-- Whatever an operation that may not apply answers is kept. -/
def KeptO (z : State) (o : Option State) : Prop := ∀ t, o = some t → Kept z t

theorem KeptO.none (z : State) : KeptO z .none := fun _ h => nomatch h

theorem KeptO.some {z t : State} (h : Kept z t) : KeptO z (.some t) := fun _ e => by injection e with e; exact e ▸ h

theorem KeptO.map {z : State} {α : Type} {f : α → State} {a : Option α} (h : ∀ x, Kept z (f x)) : KeptO z (a.map f) := by
  cases a with
  | none => exact KeptO.none z
  | some x => exact KeptO.some (h x)

theorem KeptO.ite {z : State} {a b : Option State} {c : Prop} [Decidable c] (h : KeptO z a) (k : KeptO z b) :
    KeptO z (if c then a else b) := by
  by_cases hc : c
  · rw [if_pos hc]; exact h
  · rw [if_neg hc]; exact k

theorem KeptO.orElse {z : State} {a : Option State} {b : Unit → Option State} (h : KeptO z a) (k : KeptO z (b ())) :
    KeptO z (a.orElse b) := by
  cases a with
  | none => exact k
  | some t => exact h

theorem KeptO.getD {z t : State} {a : Option State} (h : KeptO z a) (k : Kept z t) : Kept z (a.getD t) := by
  cases a with
  | none => exact k
  | some u => exact h u rfl

/-! ### The parts of the invariant -/

@[simp] theorem mapAt_length {α : Type} (xs : List α) (i : Nat) (f : α → α) : (mapAt xs i f).length = xs.length := by
  simp [mapAt]

@[simp] theorem setAt_length {α : Type} (xs : List α) (i : Nat) (x : α) : (setAt xs i x).length = xs.length := by
  simp [setAt]

theorem MemOk.keep {m k : Mem} (a : m.insole.wf = true → k.insole.wf = true) (b : m.hbm.wf = true → k.hbm.wf = true)
    (h : MemOk m) : MemOk k := ⟨a h.1, b h.2⟩

theorem ClkOk.keep {c k : Clock} (a : k.regions.length = c.regions.length) (b : k.xlat.length = c.xlat.length)
    (h : ClkOk c) : ClkOk k := ⟨a.trans h.1, b.trans h.2⟩

theorem HostOk.keep {c k : HostIf} (a : k.rings.length = c.rings.length) (b : k.vectors.length = c.vectors.length)
    (d : k.recent.length = c.recent.length) (h : HostOk c) : HostOk k := ⟨a.trans h.1, b.trans h.2.1, d.trans h.2.2⟩

theorem SvcOk.keep {c k : Svc} (a : k.banks.length = c.banks.length) (h : SvcOk c) : SvcOk k := a.trans h

theorem HeelOk.keep {c k : Heel} (a : k.rails.length = c.rails.length) (h : HeelOk c) : HeelOk k := a.trans h

theorem ShankOk.keep {c k : ShankState} (a : k.slots.length = c.slots.length) (h : ShankOk c) : ShankOk k := a.trans h

theorem CobOk.keep {c k : Cobbler} (a : k.chips.length = c.chips.length) (b : k.images.length = c.images.length)
    (h : CobOk c) : CobOk k := ⟨a.trans h.1, b.trans h.2⟩

theorem MonOk.keep {c k : Monitor} (a : k.chans.length = c.chans.length) (b : k.slots.length = c.slots.length)
    (h : MonOk c) : MonOk k := ⟨a.trans h.1, b.trans h.2⟩

theorem MemOk.fresh : MemOk State.reset.mem := ⟨rfl, rfl⟩
theorem ClkOk.fresh : ClkOk State.reset.clk := ⟨rfl, rfl⟩
theorem HostOk.fresh : HostOk State.reset.host := ⟨rfl, rfl, rfl⟩
theorem SvcOk.fresh : SvcOk State.reset.svc := rfl
theorem HeelOk.fresh : HeelOk State.reset.heel := rfl
theorem ShankOk.fresh : ShankOk State.reset.shank := rfl
theorem CobOk.fresh : CobOk State.reset.cob := ⟨rfl, rfl⟩
theorem MonOk.fresh : MonOk State.reset.mon := ⟨rfl, rfl⟩

end Sys2Proof.Laws
end

