-- ==== Sys2Proof/Laws/KeptOps.lean ====
section
/-! SUPPORT. What the operations and commands of Machine/Ops.lean keep (Safety.Kept). -/
namespace Sys2Proof.Laws
open Sys2Proof.Machine Sys2Proof.Safety

theorem insoleWrite_kept {z : State} (s : State) (tile a : Nat) (bs : List Byte) (hz : Kept z s) : Kept z (insoleWrite s tile a bs) := by
  unfold insoleWrite
  try dsimp only
  repeat' first
    | (with_reducible refine Kept.put ?_ ?_ ?_ ?_ ?_ ?_ ?_ ?_ ?_ ?_ ?_; with_reducible assumption)
    | with_reducible exact id
    | solve | (with_reducible apply MemOk.keep <;> simp +contextual)

theorem hbmWrite_kept {z : State} (s : State) (a : Nat) (bs : List Byte) (hz : Kept z s) : Kept z (hbmWrite s a bs) := by
  unfold hbmWrite
  try dsimp only
  repeat' first
    | (with_reducible refine Kept.put ?_ ?_ ?_ ?_ ?_ ?_ ?_ ?_ ?_ ?_ ?_; with_reducible assumption)
    | with_reducible exact id
    | solve | (with_reducible apply MemOk.keep <;> simp +contextual)

theorem setRing_kept {z : State} (s : State) (r : Nat) (f : Ring → Ring) (hz : Kept z s) : Kept z (setRing s r f) := by
  unfold setRing
  try dsimp only
  repeat' first
    | (with_reducible refine Kept.put ?_ ?_ ?_ ?_ ?_ ?_ ?_ ?_ ?_ ?_ ?_; with_reducible assumption)
    | with_reducible exact id
    | solve | (with_reducible apply HostOk.keep <;> simp +contextual)

theorem hostPut_kept {z : State} (s : State) (xs : List HostOut) (hz : Kept z s) : Kept z (hostPut s xs) := by
  unfold hostPut
  try dsimp only
  repeat' first
    | (with_reducible refine Kept.ite (fun _ => ?_) (fun _ => ?_))
    | (with_reducible refine Kept.put ?_ ?_ ?_ ?_ ?_ ?_ ?_ ?_ ?_ ?_ ?_; with_reducible assumption)
    | with_reducible exact id
    | solve | (with_reducible apply HostOk.keep <;> simp +contextual)

theorem hostWrite_kept {z : State} (s : State) (addr : Nat) (bs : List Byte) (hz : Kept z s) : Kept z (hostWrite s addr bs) := by
  unfold hostWrite
  repeat' first
    | with_reducible assumption
    | with_reducible apply hostPut_kept

theorem vectorCheck_kept {z : State} (s : State) (v : Nat) (hz : Kept z s) : Kept z (vectorCheck s v) := by
  unfold vectorCheck
  try dsimp only
  repeat' first
    | with_reducible assumption
    | (with_reducible refine Kept.ite (fun _ => ?_) (fun _ => ?_))
    | split
    | (with_reducible refine Kept.put ?_ ?_ ?_ ?_ ?_ ?_ ?_ ?_ ?_ ?_ ?_; with_reducible assumption)
    | with_reducible exact id
    | solve | (with_reducible apply HostOk.keep <;> simp +contextual)

theorem vectorNote_kept {z : State} (s : State) (v : Nat) (urgent : Bool) (hz : Kept z s) : Kept z (vectorNote s v urgent) := by
  unfold vectorNote
  try dsimp only
  repeat' first
    | with_reducible assumption
    | with_reducible apply vectorCheck_kept
    | split
    | (with_reducible refine Kept.put ?_ ?_ ?_ ?_ ?_ ?_ ?_ ?_ ?_ ?_ ?_; with_reducible assumption)
    | with_reducible exact id
    | solve | (with_reducible apply HostOk.keep <;> simp +contextual)

theorem putEntry_kept {z : State} (s : State) (r : Nat) (e : List Byte) (hz : Kept z s) : Kept z (putEntry s r e) := by
  unfold putEntry
  try dsimp only
  repeat' first
    | with_reducible apply setRing_kept
    | (with_reducible refine Kept.put ?_ ?_ ?_ ?_ ?_ ?_ ?_ ?_ ?_ ?_ ?_; with_reducible assumption)
    | with_reducible exact id
    | solve | (with_reducible apply HostOk.keep <;> simp +contextual)

theorem tackSet_kept {z : State} (s : State) (t : Nat) (v : Word) (hz : Kept z s) : Kept z (tackSet s t v) := by
  unfold tackSet
  try dsimp only
  repeat' first
    | split
    | (with_reducible refine Kept.put ?_ ?_ ?_ ?_ ?_ ?_ ?_ ?_ ?_ ?_ ?_; with_reducible assumption)
    | with_reducible exact id
    | solve | (with_reducible apply MemOk.keep <;> simp +contextual)

theorem setWaiters_kept {z : State} (s : State) (t : Nat) (ws : List (Nat × Nat)) (hz : Kept z s) : Kept z (setWaiters s t ws) := by
  unfold setWaiters
  try dsimp only
  repeat' first
    | split
    | (with_reducible refine Kept.put ?_ ?_ ?_ ?_ ?_ ?_ ?_ ?_ ?_ ?_ ?_; with_reducible assumption)
    | with_reducible exact id
    | solve | (with_reducible apply MemOk.keep <;> simp +contextual)

theorem releaseWait_kept {z : State} (s : State) (t : Nat) (w : Nat × Nat) (hz : Kept z s) : Kept z (releaseWait s t w) := by
  unfold releaseWait
  try dsimp only
  repeat' first
    | with_reducible assumption
    | (with_reducible refine Kept.ite (fun _ => ?_) (fun _ => ?_))
    | (with_reducible refine Kept.put ?_ ?_ ?_ ?_ ?_ ?_ ?_ ?_ ?_ ?_ ?_
       first
         | with_reducible assumption
         | with_reducible apply setRing_kept
       )
    | with_reducible exact id
    | solve | (with_reducible apply ClkOk.keep <;> simp +contextual)

theorem releaseWaits_kept {z : State} (t : Nat) : ∀ (fuel : Nat) {s : State}, Kept z s → Kept z (releaseWaits t fuel s)
  | 0, _, hz => hz
  | fuel + 1, s, hz => by
    unfold releaseWaits
    repeat' first
      | with_reducible assumption
      | with_reducible apply releaseWaits_kept
      | with_reducible apply releaseWait_kept
      | with_reducible apply setWaiters_kept
      | with_reducible apply tackSet_kept
      | (with_reducible refine Kept.ite (fun _ => ?_) (fun _ => ?_))
      | split

theorem tackAdd_kept {z : State} (s : State) (t : Nat) (a : Word) (hz : Kept z s) : Kept z (tackAdd s t a) := by
  unfold tackAdd
  try dsimp only
  repeat' first
    | with_reducible assumption
    | with_reducible apply tackSet_kept
    | with_reducible apply releaseWaits_kept

theorem tackWait_kept {z : State} (s : State) (t : Nat) (w : Nat × Nat) (hz : Kept z s) : Kept z (tackWait s t w).1 := by
  unfold tackWait
  repeat' first
    | with_reducible assumption
    | with_reducible apply tackSet_kept
    | with_reducible apply setWaiters_kept
    | (with_reducible refine Kept.iteP (fun _ => ?_) (fun _ => ?_))

theorem endOutst_kept {z : State} (s : State) (r : Nat) (c : Cpl) (hz : Kept z s) : Kept z (endOutst s r c) := by
  unfold endOutst
  try dsimp only
  repeat' first
    | with_reducible assumption
    | with_reducible apply setRing_kept
    | with_reducible apply tackAdd_kept
    | (with_reducible refine Kept.ite (fun _ => ?_) (fun _ => ?_))
    | split

theorem writeCpl_kept {z : State} (s : State) (r : Nat) (c : Cpl) (hz : Kept z s) : Kept z (writeCpl s r c) := by
  unfold writeCpl
  repeat' first
    | with_reducible assumption
    | with_reducible apply endOutst_kept
    | with_reducible apply vectorNote_kept
    | with_reducible apply putEntry_kept

theorem postCpl_kept {z : State} (s : State) (r : Nat) (c : Cpl) (hz : Kept z s) : Kept z (postCpl s r c) := by
  unfold postCpl
  repeat' first
    | with_reducible assumption
    | with_reducible apply endOutst_kept
    | with_reducible apply writeCpl_kept
    | with_reducible apply setRing_kept
    | (with_reducible refine Kept.ite (fun _ => ?_) (fun _ => ?_))

theorem complete_kept {z : State} (s : State) (r slot status sub : Nat) (result : List Byte) (flags : Nat) (hz : Kept z s) : Kept z (complete s r slot status sub result flags) := by
  unfold complete
  try dsimp only
  repeat' first
    | with_reducible assumption
    | with_reducible apply postCpl_kept
    | split

theorem putRecord_kept {z : State} (s : State) (r : Nat) (es : List (List Byte)) (urgent : Bool) (hz : Kept z s) : Kept z (putRecord s r es urgent) := by
  unfold putRecord
  repeat' first
    | with_reducible assumption
    | with_reducible exact Kept.refl _
    | with_reducible apply vectorNote_kept
    | with_reducible apply putEntry_kept
    | (with_reducible refine Kept.foldl (fun _ _ => ?_) ?_ _)

theorem deliverEvent_kept {z : State} (e : Event) (urgent : Bool) (s : State) (r : Nat) (hz : Kept z s) : Kept z (deliverEvent e urgent s r) := by
  unfold deliverEvent
  try dsimp only
  repeat' first
    | with_reducible assumption
    | with_reducible apply setRing_kept
    | with_reducible apply putRecord_kept
    | (with_reducible refine Kept.ite (fun _ => ?_) (fun _ => ?_))

theorem recentFold_length (es : List (List Byte)) (p : List (List Byte) × Nat) :
    (es.foldl (fun (p : List (List Byte) × Nat) x => (setAt p.1 p.2 x, (p.2 + 1) % 32)) p).1.length = p.1.length := by
  induction es generalizing p with
  | nil => rfl
  | cons e es ih => exact (ih _).trans (setAt_length _ _ _)

theorem recordRaw_kept {z : State} (s : State) (code : Nat) (payload : List Byte) (urgent : Bool) (h : Kept z s) :
    Kept z (recordRaw s code payload urgent) := by
  unfold recordRaw
  refine Kept.foldl (fun x a => deliverEvent_kept _ _ _ _ (Kept.refl _)) ?_ _
  with_reducible refine Kept.put h id ?_ id id id id id id id id
  exact fun hh => ⟨hh.1, hh.2.1, (recentFold_length _ _).trans hh.2.2⟩

theorem event_kept {z : State} (s : State) (code : Nat) (slots : List Nat) (hz : Kept z s) : Kept z (event s code slots) := by
  unfold event
  repeat' first
    | with_reducible assumption
    | with_reducible apply recordRaw_kept

theorem setRate_kept {z : State} (s : State) (x : Rate) (hz : Kept z s) : Kept z (setRate s x) := by
  unfold setRate
  try dsimp only
  repeat' first
    | (with_reducible refine Kept.put ?_ ?_ ?_ ?_ ?_ ?_ ?_ ?_ ?_ ?_ ?_; with_reducible assumption)
    | with_reducible exact id
    | solve | (with_reducible apply HostOk.keep <;> simp +contextual)

theorem eventLimited_kept {z : State} (s : State) (code sub period : Nat) (slots : Nat → List Nat) (hz : Kept z s) : Kept z (eventLimited s code sub period slots) := by
  unfold eventLimited
  repeat' first
    | with_reducible assumption
    | with_reducible apply setRate_kept
    | with_reducible apply event_kept
    | (with_reducible refine Kept.ite (fun _ => ?_) (fun _ => ?_))
    | split

theorem bumpFree_kept {z : State} (s : State) (hz : Kept z s) : Kept z (bumpFree s) := by
  unfold bumpFree
  repeat' first
    | (with_reducible refine Kept.put ?_ ?_ ?_ ?_ ?_ ?_ ?_ ?_ ?_ ?_ ?_; with_reducible assumption)
    | with_reducible exact id

theorem orderPace_kept {z : State} (s : State) (code : Nat) (hz : Kept z s) : Kept z (orderPace s code) := by
  unfold orderPace
  try dsimp only
  repeat' first
    | with_reducible assumption
    | (with_reducible refine Kept.ite (fun _ => ?_) (fun _ => ?_))
    | split
    | (with_reducible refine Kept.put ?_ ?_ ?_ ?_ ?_ ?_ ?_ ?_ ?_ ?_ ?_; with_reducible assumption)
    | with_reducible exact id
    | solve | (with_reducible apply ClkOk.keep <;> simp +contextual)

theorem issuePoll_kept {z : State} (s : State) (hz : Kept z s) : Kept z (issuePoll s) := by
  unfold issuePoll
  try dsimp only
  repeat' first
    | (with_reducible refine Kept.ite (fun _ => ?_) (fun _ => ?_))
    | (with_reducible refine Kept.put ?_ ?_ ?_ ?_ ?_ ?_ ?_ ?_ ?_ ?_ ?_; with_reducible assumption)
    | with_reducible exact id
    | solve | (with_reducible apply HostOk.keep <;> simp +contextual)

theorem leaveSetup_kept {z : State} (s : State) (hz : Kept z s) : Kept z (leaveSetup s) := by
  unfold leaveSetup
  try dsimp only
  repeat' first
    | with_reducible assumption
    | (with_reducible refine Kept.ite (fun _ => ?_) (fun _ => ?_))
    | split
    | (with_reducible refine Kept.put ?_ ?_ ?_ ?_ ?_ ?_ ?_ ?_ ?_ ?_ ?_; with_reducible assumption)
    | with_reducible exact id

theorem noteRefusal_kept {z : State} (s : State) (r slot status sub : Nat) (hz : Kept z s) : Kept z (noteRefusal s r slot status sub) :=
  eventLimited_kept _ _ _ _ _ hz

theorem refuseSlot_kept {z : State} (s : State) (r slot status sub : Nat) (result : List Byte) (hz : Kept z s) :
    Kept z (refuseSlot s r slot status sub result) :=
  complete_kept _ _ _ _ _ _ _ (noteRefusal_kept _ _ _ _ _ hz)

theorem drainRing_kept {z : State} (r : Nat) : ∀ (fuel : Nat) {s : State}, Kept z s → Kept z (drainRing r fuel s)
  | 0, _, hz => hz
  | fuel + 1, s, hz => by
    unfold drainRing
    repeat' first
      | with_reducible assumption
      | with_reducible apply drainRing_kept
      | with_reducible apply writeCpl_kept
      | with_reducible apply setRing_kept
      | (with_reducible refine Kept.ite (fun _ => ?_) (fun _ => ?_))
      | split

theorem reopenHost_kept {z : State} (s : State) (hz : Kept z s) : Kept z (reopenHost s) := by
  unfold reopenHost
  try dsimp only
  repeat' first
    | with_reducible assumption
    | with_reducible exact Kept.refl _
    | with_reducible apply drainRing_kept
    | with_reducible apply vectorCheck_kept
    | (with_reducible refine Kept.foldl (fun _ _ => ?_) ?_ _)
    | (with_reducible refine Kept.ite (fun _ => ?_) (fun _ => ?_))
    | (with_reducible refine Kept.put ?_ ?_ ?_ ?_ ?_ ?_ ?_ ?_ ?_ ?_ ?_; with_reducible assumption)
    | with_reducible exact id
    | solve | (with_reducible apply HostOk.keep <;> simp +contextual)

end Sys2Proof.Laws
end

