-- ==== Sys2Proof/Laws/KeptBar0.lean ====
section
/-! SUPPORT. What the operations and commands of Machine/Bar0.lean keep (Safety.Kept). -/
namespace Sys2Proof.Laws
open Sys2Proof.Machine Sys2Proof.Safety

theorem readWord_kept {z : State} (s : State) (off : Nat) (h : Kept z s) : Kept z (readWord s off).2 := by
  unfold readWord
  repeat' first
    | with_reducible assumption
    | (with_reducible refine Kept.put ?_ ?_ ?_ ?_ ?_ ?_ ?_ ?_ ?_ ?_ ?_; first | with_reducible assumption | split)
    | with_reducible exact id

theorem answerRead_kept {z : State} (s : State) (off : Nat) (bs : List Byte) (hz : Kept z s) : Kept z (answerRead s off bs) := by
  unfold answerRead
  try dsimp only
  repeat' first
    | (with_reducible refine Kept.put ?_ ?_ ?_ ?_ ?_ ?_ ?_ ?_ ?_ ?_ ?_; with_reducible assumption)
    | with_reducible exact id
    | solve | (with_reducible apply HostOk.keep <;> simp +contextual)

end Sys2Proof.Laws
end

