-- ==== Sys2Proof/Laws/KeptRegisters.lean ====
section
/-! SUPPORT. What the operations and commands of Machine/Registers.lean keep (Safety.Kept). -/
namespace Sys2Proof.Laws
open Sys2Proof.Machine Sys2Proof.Safety

theorem ignoreWrite_kept {z : State} (s : State) (off : Nat) (hz : Kept z s) : Kept z (ignoreWrite s off) := by
  unfold ignoreWrite
  repeat' first
    | with_reducible assumption
    | with_reducible apply event_kept

theorem applyRefused_kept {z : State} (s : State) (applyOff : Nat) (f : Failure) (hz : Kept z s) : Kept z (applyRefused s applyOff f) := by
  unfold applyRefused
  repeat' first
    | with_reducible assumption
    | with_reducible apply event_kept

theorem moderationApply_kept {z : State} (s : State) (hz : Kept z s) : Kept z (moderationApply s) := by
  unfold moderationApply
  try dsimp only
  repeat' first
    | with_reducible exact Kept.refl _
    | with_reducible apply applyRefused_kept
    | with_reducible apply vectorCheck_kept
    | (with_reducible refine Kept.foldl (fun _ _ => ?_) ?_ _)
    | split
    | (with_reducible refine Kept.put ?_ ?_ ?_ ?_ ?_ ?_ ?_ ?_ ?_ ?_ ?_; with_reducible assumption)
    | with_reducible exact id

theorem doorbellApply_kept {z : State} (s : State) (hz : Kept z s) : Kept z (doorbellApply s) := by
  unfold doorbellApply
  try dsimp only
  repeat' first
    | with_reducible apply applyRefused_kept
    | split
    | (with_reducible refine Kept.put ?_ ?_ ?_ ?_ ?_ ?_ ?_ ?_ ?_ ?_ ?_; with_reducible assumption)
    | with_reducible exact id

theorem ringApplyOne_kept {z : State} (s : State) (r : Nat) (hz : Kept z s) : Kept z (ringApplyOne s r) := by
  unfold ringApplyOne
  try dsimp only
  repeat' first
    | with_reducible assumption
    | with_reducible apply applyRefused_kept
    | with_reducible apply setRing_kept
    | split

theorem ringApply_kept {z : State} (s : State) (mask : Nat) (hz : Kept z s) : Kept z (ringApply s mask) := by
  unfold ringApply
  repeat' first
    | with_reducible assumption
    | with_reducible exact Kept.refl _
    | with_reducible apply ringApplyOne_kept
    | (with_reducible refine Kept.foldl (fun _ _ => ?_) ?_ _)

theorem paceApply_kept {z : State} (s : State) (hz : Kept z s) : Kept z (paceApply s) := by
  unfold paceApply
  try dsimp only
  repeat' first
    | with_reducible apply event_kept
    | with_reducible apply orderPace_kept
    | (with_reducible refine Kept.ite (fun _ => ?_) (fun _ => ?_))
    | (with_reducible refine Kept.put ?_ ?_ ?_ ?_ ?_ ?_ ?_ ?_ ?_ ?_ ?_; with_reducible assumption)
    | with_reducible exact id

theorem marginApply_kept {z : State} (s : State) (hz : Kept z s) : Kept z (marginApply s) := by
  unfold marginApply
  try dsimp only
  repeat' first
    | with_reducible apply applyRefused_kept
    | split
    | (with_reducible refine Kept.put ?_ ?_ ?_ ?_ ?_ ?_ ?_ ?_ ?_ ?_ ?_; with_reducible assumption)
    | with_reducible exact id

theorem clearApplyErr_kept {z : State} (s : State) (off : Nat) (hz : Kept z s) : Kept z (clearApplyErr s off) := by
  unfold clearApplyErr
  try dsimp only
  repeat' first
    | with_reducible assumption
    | split
    | (with_reducible refine Kept.put ?_ ?_ ?_ ?_ ?_ ?_ ?_ ?_ ?_ ?_ ?_; with_reducible assumption)
    | with_reducible exact id

theorem clearRingErr_kept {z : State} (s : State) (mask : Nat) (hz : Kept z s) : Kept z (clearRingErr s mask) := by
  unfold clearRingErr
  repeat' first
    | with_reducible assumption
    | with_reducible exact Kept.refl _
    | with_reducible apply setRing_kept
    | (with_reducible refine Kept.foldl (fun _ _ => ?_) ?_ _)

theorem graceWrite_kept {z : State} (s : State) (k ms : Nat) (hz : Kept z s) : Kept z (graceWrite s k ms) := by
  unfold graceWrite
  try dsimp only
  repeat' first
    | with_reducible assumption
    | with_reducible apply ignoreWrite_kept
    | (with_reducible refine Kept.ite (fun _ => ?_) (fun _ => ?_))
    | (with_reducible refine Kept.put ?_ ?_ ?_ ?_ ?_ ?_ ?_ ?_ ?_ ?_ ?_; with_reducible assumption)
    | with_reducible exact id

theorem timeoutWrite_kept {z : State} (s : State) (ms : Nat) (hz : Kept z s) : Kept z (timeoutWrite s ms) := by
  unfold timeoutWrite
  try dsimp only
  repeat' first
    | with_reducible assumption
    | with_reducible apply ignoreWrite_kept
    | (with_reducible refine Kept.ite (fun _ => ?_) (fun _ => ?_))
    | (with_reducible refine Kept.put ?_ ?_ ?_ ?_ ?_ ?_ ?_ ?_ ?_ ?_ ?_; with_reducible assumption)
    | with_reducible exact id

theorem lockWrite_kept {z : State} (s : State) (w : Nat) (hz : Kept z s) : Kept z (lockWrite s w) := by
  unfold lockWrite
  try dsimp only
  repeat' first
    | (with_reducible refine Kept.put ?_ ?_ ?_ ?_ ?_ ?_ ?_ ?_ ?_ ?_ ?_; with_reducible assumption)
    | with_reducible exact id

theorem policyWrite_kept {z : State} (s : State) (w : Nat) (hz : Kept z s) : Kept z (policyWrite s w) := by
  unfold policyWrite
  try dsimp only
  repeat' first
    | with_reducible assumption
    | with_reducible apply ignoreWrite_kept
    | (with_reducible refine Kept.ite (fun _ => ?_) (fun _ => ?_))
    | (with_reducible refine Kept.put ?_ ?_ ?_ ?_ ?_ ?_ ?_ ?_ ?_ ?_ ?_; with_reducible assumption)
    | with_reducible exact id

theorem maskVector_kept {z : State} (s : State) (v : Nat) (masked : Bool) (hz : Kept z s) : Kept z (maskVector s v masked) := by
  unfold maskVector
  try dsimp only
  repeat' first
    | with_reducible apply vectorCheck_kept
    | (with_reducible refine Kept.ite (fun _ => ?_) (fun _ => ?_))
    | (with_reducible refine Kept.put ?_ ?_ ?_ ?_ ?_ ?_ ?_ ?_ ?_ ?_ ?_; with_reducible assumption)
    | with_reducible exact id
    | solve | (with_reducible apply HostOk.keep <;> simp +contextual)

theorem writeWord_kept {z : State} (s : State) (off w : Nat) (hz : Kept z s) : Kept z (writeWord s off w) := by
  unfold writeWord
  try dsimp only
  repeat' first
    | with_reducible assumption
    | with_reducible apply moderationApply_kept
    | with_reducible apply doorbellApply_kept
    | with_reducible apply ringApply_kept
    | with_reducible apply clearRingErr_kept
    | with_reducible apply maskVector_kept
    | with_reducible apply graceWrite_kept
    | with_reducible apply paceApply_kept
    | with_reducible apply marginApply_kept
    | with_reducible apply timeoutWrite_kept
    | with_reducible apply lockWrite_kept
    | with_reducible apply policyWrite_kept
    | with_reducible apply clearApplyErr_kept
    | (with_reducible refine Kept.ite (fun _ => ?_) (fun _ => ?_))
    | (with_reducible refine Kept.put ?_ ?_ ?_ ?_ ?_ ?_ ?_ ?_ ?_ ?_ ?_; with_reducible assumption)
    | with_reducible exact id
    | solve | (with_reducible apply HostOk.keep <;> simp +contextual)

theorem barWrite_kept {z : State} (s : State) (off size value : Nat) (hz : Kept z s) : Kept z (barWrite s off size value) := by
  unfold barWrite
  repeat' first
    | with_reducible assumption
    | with_reducible apply writeWord_kept
    | with_reducible apply ringApply_kept
    | with_reducible apply ignoreWrite_kept
    | (with_reducible refine Kept.ite (fun _ => ?_) (fun _ => ?_))



theorem execRegisterWrite_kept (offset size value : Nat) (s : State) {t : State} (e : execRegisterWrite offset size value s = .next t) : Kept s t := by
  unfold execRegisterWrite onBar at e
  injection e with e; subst e
  try dsimp only
  repeat' first
    | with_reducible exact Kept.refl _
    | with_reducible apply barWrite_kept
    | (with_reducible refine Kept.ite (fun _ => ?_) (fun _ => ?_))

theorem execInterruptModerationApply_kept (value : Word) (s : State) {t : State} (e : execInterruptModerationApply value s = .next t) : Kept s t := by
  unfold execInterruptModerationApply onBar at e
  injection e with e; subst e
  try dsimp only
  repeat' first
    | with_reducible exact Kept.refl _
    | with_reducible apply moderationApply_kept
    | (with_reducible refine Kept.ite (fun _ => ?_) (fun _ => ?_))

theorem execDoorbellApply_kept (value : Word) (s : State) {t : State} (e : execDoorbellApply value s = .next t) : Kept s t := by
  unfold execDoorbellApply onBar at e
  injection e with e; subst e
  try dsimp only
  repeat' first
    | with_reducible exact Kept.refl _
    | with_reducible apply doorbellApply_kept
    | (with_reducible refine Kept.ite (fun _ => ?_) (fun _ => ?_))

theorem execDoorbellApplyEffect_kept (s : State) {t : State} (e : execDoorbellApplyEffect s = .next t) : Kept s t := by
  unfold execDoorbellApplyEffect onBar at e
  injection e with e; subst e
  try dsimp only
  repeat' first
    | with_reducible exact Kept.refl _
    | with_reducible apply leaveSetup_kept
    | with_reducible apply issuePoll_kept
    | (with_reducible refine Kept.ite (fun _ => ?_) (fun _ => ?_))
    | split
    | (with_reducible refine Kept.put ?_ ?_ ?_ ?_ ?_ ?_ ?_ ?_ ?_ ?_ ?_
       first
         | with_reducible exact Kept.refl _
         | with_reducible apply leaveSetup_kept
       )
    | with_reducible exact id
    | solve | (with_reducible apply HostOk.keep <;> simp +contextual)

theorem execRingApply_kept (mask : DWord) (s : State) {t : State} (e : execRingApply mask s = .next t) : Kept s t := by
  unfold execRingApply onBar at e
  injection e with e; subst e
  try dsimp only
  repeat' first
    | with_reducible exact Kept.refl _
    | with_reducible apply ringApply_kept
    | (with_reducible refine Kept.ite (fun _ => ?_) (fun _ => ?_))

theorem execRingApplyEffect_kept (ring : Nat) (s : State) {t : State} (e : execRingApplyEffect ring s = .next t) : Kept s t := by
  unfold execRingApplyEffect onBar at e
  injection e with e; subst e
  try dsimp only
  repeat' first
    | with_reducible exact Kept.refl _
    | with_reducible apply setRing_kept
    | (with_reducible refine Kept.ite (fun _ => ?_) (fun _ => ?_))
    | split
    | (with_reducible refine Kept.put ?_ ?_ ?_ ?_ ?_ ?_ ?_ ?_ ?_ ?_ ?_; with_reducible exact Kept.refl _)
    | with_reducible exact id

theorem execPaceApply_kept (value : Word) (s : State) {t : State} (e : execPaceApply value s = .next t) : Kept s t := by
  unfold execPaceApply onBar at e
  injection e with e; subst e
  try dsimp only
  repeat' first
    | with_reducible exact Kept.refl _
    | with_reducible apply paceApply_kept
    | (with_reducible refine Kept.ite (fun _ => ?_) (fun _ => ?_))

theorem execMarginApply_kept (value : Word) (s : State) {t : State} (e : execMarginApply value s = .next t) : Kept s t := by
  unfold execMarginApply onBar at e
  injection e with e; subst e
  try dsimp only
  repeat' first
    | with_reducible exact Kept.refl _
    | with_reducible apply marginApply_kept
    | (with_reducible refine Kept.ite (fun _ => ?_) (fun _ => ?_))

theorem execMarginApplyEffect_kept (s : State) {t : State} (e : execMarginApplyEffect s = .next t) : Kept s t := by
  unfold execMarginApplyEffect onBar at e
  injection e with e; subst e
  try dsimp only
  repeat' first
    | with_reducible exact Kept.refl _
    | (with_reducible refine Kept.ite (fun _ => ?_) (fun _ => ?_))
    | split
    | (with_reducible refine Kept.put ?_ ?_ ?_ ?_ ?_ ?_ ?_ ?_ ?_ ?_ ?_; with_reducible exact Kept.refl _)
    | with_reducible exact id

theorem execApplyErrClear_kept (offset : Nat) (s : State) {t : State} (e : execApplyErrClear offset s = .next t) : Kept s t := by
  unfold execApplyErrClear onBar at e
  injection e with e; subst e
  try dsimp only
  repeat' first
    | with_reducible exact Kept.refl _
    | with_reducible apply clearApplyErr_kept
    | (with_reducible refine Kept.ite (fun _ => ?_) (fun _ => ?_))

theorem execRingApplyErrClear_kept (mask : DWord) (s : State) {t : State} (e : execRingApplyErrClear mask s = .next t) : Kept s t := by
  unfold execRingApplyErrClear onBar at e
  injection e with e; subst e
  try dsimp only
  repeat' first
    | with_reducible exact Kept.refl _
    | with_reducible apply clearRingErr_kept
    | (with_reducible refine Kept.ite (fun _ => ?_) (fun _ => ?_))

theorem execDebugLock_kept (s : State) {t : State} (e : execDebugLock s = .next t) : Kept s t := by
  unfold execDebugLock onBar at e
  injection e with e; subst e
  try dsimp only
  repeat' first
    | with_reducible exact Kept.refl _
    | with_reducible apply lockWrite_kept
    | (with_reducible refine Kept.ite (fun _ => ?_) (fun _ => ?_))

theorem execPolicyLock_kept (s : State) {t : State} (e : execPolicyLock s = .next t) : Kept s t := by
  unfold execPolicyLock onBar at e
  injection e with e; subst e
  try dsimp only
  repeat' first
    | with_reducible exact Kept.refl _
    | with_reducible apply lockWrite_kept
    | (with_reducible refine Kept.ite (fun _ => ?_) (fun _ => ?_))

theorem execSigPolicyWrite_kept (value : Word) (s : State) {t : State} (e : execSigPolicyWrite value s = .next t) : Kept s t := by
  unfold execSigPolicyWrite onBar at e
  injection e with e; subst e
  try dsimp only
  repeat' first
    | with_reducible exact Kept.refl _
    | with_reducible apply policyWrite_kept
    | (with_reducible refine Kept.ite (fun _ => ?_) (fun _ => ?_))

theorem execGraceMsWrite_kept (eyelet ms : Nat) (s : State) {t : State} (e : execGraceMsWrite eyelet ms s = .next t) : Kept s t := by
  unfold execGraceMsWrite onBar at e
  injection e with e; subst e
  try dsimp only
  repeat' first
    | with_reducible exact Kept.refl _
    | with_reducible apply graceWrite_kept
    | (with_reducible refine Kept.ite (fun _ => ?_) (fun _ => ?_))

theorem execComplTimeoutWrite_kept (ms : Nat) (s : State) {t : State} (e : execComplTimeoutWrite ms s = .next t) : Kept s t := by
  unfold execComplTimeoutWrite onBar at e
  injection e with e; subst e
  try dsimp only
  repeat' first
    | with_reducible exact Kept.refl _
    | with_reducible apply timeoutWrite_kept
    | (with_reducible refine Kept.ite (fun _ => ?_) (fun _ => ?_))

theorem execLowWordReadLatch_kept (offset : Nat) (s : State) {t : State} (e : execLowWordReadLatch offset s = .next t) : Kept s t := by
  unfold execLowWordReadLatch onBar at e
  injection e with e; subst e
  try dsimp only
  repeat' first
    | with_reducible exact Kept.refl _
    | with_reducible apply answerRead_kept
    | with_reducible apply readWord_kept
    | (with_reducible refine Kept.ite (fun _ => ?_) (fun _ => ?_))

theorem execCongestionSnapshotRead_kept (s : State) {t : State} (e : execCongestionSnapshotRead s = .next t) : Kept s t := by
  unfold execCongestionSnapshotRead onBar at e
  injection e with e; subst e
  try dsimp only
  repeat' first
    | with_reducible exact Kept.refl _
    | with_reducible apply answerRead_kept
    | (with_reducible refine Kept.ite (fun _ => ?_) (fun _ => ?_))
    | (with_reducible refine Kept.put ?_ ?_ ?_ ?_ ?_ ?_ ?_ ?_ ?_ ?_ ?_; with_reducible exact Kept.refl _)
    | with_reducible exact id

theorem execRecentSnapshotRead_kept (entry : Nat) (s : State) {t : State} (e : execRecentSnapshotRead entry s = .next t) : Kept s t := by
  unfold execRecentSnapshotRead onBar at e
  injection e with e; subst e
  try dsimp only
  repeat' first
    | with_reducible exact Kept.refl _
    | with_reducible apply answerRead_kept
    | (with_reducible refine Kept.ite (fun _ => ?_) (fun _ => ?_))
    | split
    | (with_reducible refine Kept.put ?_ ?_ ?_ ?_ ?_ ?_ ?_ ?_ ?_ ?_ ?_; with_reducible exact Kept.refl _)
    | with_reducible exact id

theorem execBusMasterEnable_kept (on : Bool) (s : State) {t : State} (e : execBusMasterEnable on s = .next t) : Kept s t := by
  unfold execBusMasterEnable onBar at e
  injection e with e; subst e
  try dsimp only
  repeat' first
    | with_reducible exact Kept.refl _
    | with_reducible apply leaveSetup_kept
    | with_reducible apply issuePoll_kept
    | with_reducible apply reopenHost_kept
    | (with_reducible refine Kept.ite (fun _ => ?_) (fun _ => ?_))
    | (with_reducible refine Kept.put ?_ ?_ ?_ ?_ ?_ ?_ ?_ ?_ ?_ ?_ ?_; with_reducible exact Kept.refl _)
    | with_reducible exact id
    | solve | (with_reducible apply HostOk.keep <;> simp +contextual)

theorem execMsixModTimeout_kept (vector : Nat) (s : State) {t : State} (e : execMsixModTimeout vector s = .next t) : Kept s t := by
  unfold execMsixModTimeout onBar at e
  injection e with e; subst e
  try dsimp only
  repeat' first
    | with_reducible exact Kept.refl _
    | with_reducible apply vectorCheck_kept
    | (with_reducible refine Kept.ite (fun _ => ?_) (fun _ => ?_))

theorem execMsixUnmask_kept (vector : Nat) (s : State) {t : State} (e : execMsixUnmask vector s = .next t) : Kept s t := by
  unfold execMsixUnmask onBar at e
  injection e with e; subst e
  try dsimp only
  repeat' first
    | with_reducible exact Kept.refl _
    | with_reducible apply maskVector_kept
    | (with_reducible refine Kept.ite (fun _ => ?_) (fun _ => ?_))

theorem execDeferredCompletionWrite_kept (ring : Nat) (s : State) {t : State} (e : execDeferredCompletionWrite ring s = .next t) : Kept s t := by
  unfold execDeferredCompletionWrite onBar at e
  injection e with e; subst e
  repeat' first
    | with_reducible exact Kept.refl _
    | with_reducible apply drainRing_kept
    | (with_reducible refine Kept.ite (fun _ => ?_) (fun _ => ?_))

theorem execEvtOverrun_kept (ring : Nat) (s : State) {t : State} (e : execEvtOverrun ring s = .next t) : Kept s t := by
  unfold execEvtOverrun onBar at e
  injection e with e; subst e
  try dsimp only
  repeat' first
    | with_reducible exact Kept.refl _
    | with_reducible apply setRing_kept
    | with_reducible apply putRecord_kept
    | (with_reducible refine Kept.ite (fun _ => ?_) (fun _ => ?_))

end Sys2Proof.Laws
end

