-- ==== Sys2Proof/Laws/KeptSledOps.lean ====
section
/-! SUPPORT. What the operations and commands of Machine/SledOps.lean keep (Safety.Kept). -/
namespace Sys2Proof.Laws
open Sys2Proof.Machine Sys2Proof.Safety

theorem sendApbel_kept {z : State} (s : State) (dst : ApbelDest) (m : List Byte) (hz : Kept z s) : Kept z (sendApbel s dst m) := by
  unfold sendApbel
  repeat' first
    | (with_reducible refine Kept.put ?_ ?_ ?_ ?_ ?_ ?_ ?_ ?_ ?_ ?_ ?_; with_reducible assumption)
    | with_reducible exact id

theorem orderChip_kept {z : State} (o : CobOrder) (s : State) (p : Nat) (hz : Kept z s) : Kept z (orderChip o s p) := by
  unfold orderChip
  repeat' first
    | with_reducible assumption
    | (with_reducible refine Kept.ite (fun _ => ?_) (fun _ => ?_))
    | (with_reducible refine Kept.put ?_ ?_ ?_ ?_ ?_ ?_ ?_ ?_ ?_ ?_ ?_; with_reducible assumption)
    | with_reducible exact id

theorem sledEvent_kept {z : State} (s : State) (code : Nat) (slots : List Nat) (hz : Kept z s) : Kept z (sledEvent s code slots) := by
  unfold sledEvent
  try dsimp only
  repeat' first
    | with_reducible exact Kept.refl _
    | with_reducible apply sendApbel_kept
    | with_reducible apply orderChip_kept
    | with_reducible apply event_kept
    | (with_reducible refine Kept.foldl (fun _ _ => ?_) ?_ _)
    | (with_reducible refine Kept.ite (fun _ => ?_) (fun _ => ?_))
    | (with_reducible refine Kept.put ?_ ?_ ?_ ?_ ?_ ?_ ?_ ?_ ?_ ?_ ?_; with_reducible assumption)
    | with_reducible exact id
    | solve | (with_reducible apply CobOk.keep <;> simp +contextual)

theorem sendCaps_kept {z : State} (s : State) (hz : Kept z s) : Kept z (sendCaps s) := by
  unfold sendCaps
  try dsimp only
  repeat' first
    | with_reducible assumption
    | with_reducible exact Kept.refl _
    | with_reducible apply orderChip_kept
    | (with_reducible refine Kept.foldl (fun _ _ => ?_) ?_ _)
    | (with_reducible refine Kept.ite (fun _ => ?_) (fun _ => ?_))
    | (with_reducible refine Kept.put ?_ ?_ ?_ ?_ ?_ ?_ ?_ ?_ ?_ ?_ ?_; with_reducible exact Kept.refl _)
    | with_reducible exact id
    | solve | (with_reducible apply CobOk.keep <;> simp +contextual)

theorem sendHolds_kept {z : State} (before s : State) (hz : Kept z s) : Kept z (sendHolds before s) := by
  unfold sendHolds
  repeat' first
    | with_reducible assumption
    | with_reducible exact Kept.refl _
    | with_reducible apply orderChip_kept
    | (with_reducible refine Kept.foldl (fun _ _ => ?_) ?_ _)
    | (with_reducible refine Kept.ite (fun _ => ?_) (fun _ => ?_))

theorem sendInForce_kept {z : State} (s : State) (p : Nat) (hz : Kept z s) : Kept z (sendInForce s p) := by
  unfold sendInForce
  try dsimp only
  split
  · exact orderChip_kept _ _ _ (sendCaps_kept _ hz)
  · exact sendCaps_kept _ hz

theorem chipOff_kept {z : State} (s : State) (hz : Kept z s) : Kept z (chipOff s) := by
  unfold chipOff
  try dsimp only
  repeat' first
    | (with_reducible refine Kept.put ?_ ?_ ?_ ?_ ?_ ?_ ?_ ?_ ?_ ?_ ?_; with_reducible assumption)
    | with_reducible exact id
    | exact fun _ => MemOk.fresh
    | exact fun _ => ClkOk.fresh
    | exact fun _ => HostOk.fresh
    | exact fun _ => SvcOk.fresh
    | exact fun _ => HeelOk.fresh
    | exact fun _ => ShankOk.fresh
    | solve | simp

theorem powerOff_kept {z : State} (s : State) (p : Nat) (hz : Kept z s) : Kept z (powerOff s p) := by
  unfold powerOff
  try dsimp only
  repeat' first
    | with_reducible assumption
    | with_reducible apply chipOff_kept
    | (with_reducible refine Kept.ite (fun _ => ?_) (fun _ => ?_))
    | (with_reducible refine Kept.put ?_ ?_ ?_ ?_ ?_ ?_ ?_ ?_ ?_ ?_ ?_; with_reducible assumption)
    | with_reducible exact id
    | solve | (with_reducible apply CobOk.keep <;> simp +contextual)

theorem powerOn_kept {z : State} (s : State) (p : Nat) (hz : Kept z s) : Kept z (powerOn s p) := by
  unfold powerOn
  try dsimp only
  repeat' first
    | with_reducible assumption
    | (with_reducible refine Kept.ite (fun _ => ?_) (fun _ => ?_))
    | (with_reducible refine Kept.put ?_ ?_ ?_ ?_ ?_ ?_ ?_ ?_ ?_ ?_ ?_; with_reducible assumption)
    | with_reducible exact id
    | solve | (with_reducible apply CobOk.keep <;> simp +contextual)

theorem powerStopChip_kept {z : State} (s : State) (p : Nat) (hz : Kept z s) : Kept z (powerStopChip s p) := by
  unfold powerStopChip
  try dsimp only
  repeat' first
    | with_reducible assumption
    | with_reducible apply orderChip_kept
    | with_reducible apply powerOff_kept
    | (with_reducible refine Kept.ite (fun _ => ?_) (fun _ => ?_))
    | (with_reducible refine Kept.put ?_ ?_ ?_ ?_ ?_ ?_ ?_ ?_ ?_ ?_ ?_; with_reducible assumption)
    | with_reducible exact id
    | solve | (with_reducible apply CobOk.keep <;> simp +contextual)

theorem powerStopAll_kept {z : State} (s : State) (hz : Kept z s) : Kept z (powerStopAll s) := by
  unfold powerStopAll
  repeat' first
    | with_reducible assumption
    | with_reducible exact Kept.refl _
    | with_reducible apply powerStopChip_kept
    | (with_reducible refine Kept.foldl (fun _ _ => ?_) ?_ _)

theorem leakResponse_kept {z : State} (s : State) (zones : Nat) (acoustic : Bool) (hz : Kept z s) : Kept z (leakResponse s zones acoustic) := by
  unfold leakResponse
  try dsimp only
  repeat' first
    | with_reducible apply powerStopAll_kept
    | with_reducible apply sledEvent_kept
    | (with_reducible refine Kept.put ?_ ?_ ?_ ?_ ?_ ?_ ?_ ?_ ?_ ?_ ?_; with_reducible assumption)
    | with_reducible exact id
    | solve | (with_reducible apply CobOk.keep <;> simp +contextual)
    | solve | (with_reducible apply MonOk.keep <;> simp +contextual)

theorem moveValves_kept {z : State} (s : State) (toOpen : Bool) (hz : Kept z s) : Kept z (moveValves s toOpen) := by
  unfold moveValves
  try dsimp only
  repeat' first
    | with_reducible assumption
    | (with_reducible refine Kept.ite (fun _ => ?_) (fun _ => ?_))
    | (with_reducible refine Kept.put ?_ ?_ ?_ ?_ ?_ ?_ ?_ ?_ ?_ ?_ ?_; with_reducible assumption)
    | with_reducible exact id
    | solve | (with_reducible apply CobOk.keep <;> simp +contextual)
    | solve | (with_reducible apply MonOk.keep <;> simp +contextual)

theorem finishWake_kept {z : State} (s : State) (w : WakeWait) (hz : Kept z s) : Kept z (finishWake s w) := by
  unfold finishWake
  try dsimp only
  repeat' first
    | with_reducible assumption
    | with_reducible apply sendApbel_kept
    | with_reducible apply sledEvent_kept
    | (with_reducible refine Kept.ite (fun _ => ?_) (fun _ => ?_))
    | split
    | (with_reducible refine Kept.put ?_ ?_ ?_ ?_ ?_ ?_ ?_ ?_ ?_ ?_ ?_; with_reducible assumption)
    | with_reducible exact id
    | solve | (with_reducible apply CobOk.keep <;> simp +contextual)

theorem orderWake_kept {z : State} (s : State) (request : Option (Nat × Nat)) (origin mask : Nat) (hz : Kept z s) : Kept z (orderWake s request origin mask) := by
  unfold orderWake
  try dsimp only
  repeat' first
    | with_reducible assumption
    | with_reducible exact Kept.refl _
    | with_reducible apply bumpFree_kept
    | with_reducible apply orderChip_kept
    | with_reducible apply finishWake_kept
    | (with_reducible refine Kept.foldl (fun _ _ => ?_) ?_ _)
    | (with_reducible refine Kept.ite (fun _ => ?_) (fun _ => ?_))
    | (with_reducible refine Kept.put ?_ ?_ ?_ ?_ ?_ ?_ ?_ ?_ ?_ ?_ ?_; with_reducible apply bumpFree_kept)
    | with_reducible exact id
    | solve | (with_reducible apply CobOk.keep <;> simp +contextual)

theorem wakeAnswer_kept {z : State} (s : State) (a : Nat) (hz : Kept z s) : Kept z (wakeAnswer s a) := by
  unfold wakeAnswer
  try dsimp only
  repeat' first
    | with_reducible assumption
    | with_reducible apply finishWake_kept
    | split
    | (with_reducible refine Kept.put ?_ ?_ ?_ ?_ ?_ ?_ ?_ ?_ ?_ ?_ ?_; with_reducible assumption)
    | with_reducible exact id
    | solve | (with_reducible apply CobOk.keep <;> simp +contextual)

theorem replyTo_kept {z : State} (s : State) (src type seq status : Nat) (body : List Byte) (hz : Kept z s) : Kept z (replyTo s src type seq status body) := by
  unfold replyTo
  try dsimp only
  repeat' first
    | with_reducible apply sendApbel_kept
    | (with_reducible refine Kept.put ?_ ?_ ?_ ?_ ?_ ?_ ?_ ?_ ?_ ?_ ?_; with_reducible assumption)
    | with_reducible exact id
    | solve | (with_reducible apply CobOk.keep <;> simp +contextual)

theorem onRequest_kept {z : State} (s : State) (src type : Nat) (msg : List Byte) (f : State → List Byte → Nat → Handled)
    (hf : ∀ x b q, Kept x (f x b q).1) (h : Kept z s) : Kept z (onRequest s src type msg f) := by
  unfold onRequest
  refine Kept.ite (fun _ => h) fun _ => Kept.ite (fun _ => ?_) fun _ => ?_
  · exact Kept.put h id id id id id id id id (CobOk.keep rfl rfl) id
  · have k := Kept.trans h (hf s (msg.drop 16) (leAt msg 8 4))
    dsimp only
    split
    · exact sendApbel_kept _ _ _ h
    · split <;> rename_i e <;> rw [e] at k
      · exact replyTo_kept _ _ _ _ _ _ k
      · exact k

theorem accepted_kept {z : State} (s : State) (body : List Byte) (hz : Kept z s) : Kept z (accepted s body).1 := by
  unfold accepted
  try dsimp only
  repeat' first
    | with_reducible assumption

theorem refusedWith_kept {z : State} (s : State) (status : Nat) (hz : Kept z s) : Kept z (refusedWith s status).1 := by
  unfold refusedWith
  try dsimp only
  repeat' first
    | with_reducible assumption

end Sys2Proof.Laws
end

