-- ==== Sys2Proof/Laws/KeptAcoustic.lean ====
section
/-! SUPPORT. What the operations and commands of Machine/Acoustic.lean keep (Safety.Kept). -/
namespace Sys2Proof.Laws
open Sys2Proof.Machine Sys2Proof.Safety

theorem monEvent_kept {z : State} (s : State) (code key : Nat) (slots : List Nat) (hz : Kept z s) : Kept z (monEvent s code key slots) := by
  unfold monEvent
  try dsimp only
  repeat' first
    | with_reducible assumption
    | with_reducible apply sledEvent_kept
    | (with_reducible refine Kept.ite (fun _ => ?_) (fun _ => ?_))
    | (with_reducible refine Kept.put ?_ ?_ ?_ ?_ ?_ ?_ ?_ ?_ ?_ ?_ ?_; with_reducible assumption)
    | with_reducible exact id
    | solve | (with_reducible apply MonOk.keep <;> simp +contextual)

theorem noteClips_kept {z : State} (s : State) (i n : Nat) (hz : Kept z s) : Kept z (noteClips s i n) := by
  unfold noteClips
  try dsimp only
  repeat' first
    | with_reducible assumption
    | with_reducible apply monEvent_kept
    | (with_reducible refine Kept.ite (fun _ => ?_) (fun _ => ?_))
    | (with_reducible refine Kept.put ?_ ?_ ?_ ?_ ?_ ?_ ?_ ?_ ?_ ?_ ?_; with_reducible assumption)
    | with_reducible exact id
    | solve | (with_reducible apply MonOk.keep <;> simp +contextual)

theorem applyCal_keep (m : Monitor) (c : Nat × Nat × Int) :
    (applyCal m c).chans.length = m.chans.length ∧ (applyCal m c).slots.length = m.slots.length := by
  unfold applyCal
  dsimp only
  split <;> simp

theorem applyPending_ok {m : Monitor} (now : Nat) (h : MonOk m) : MonOk (applyPending m now) := by
  have fold : ∀ (l : List (Nat × Nat × Int)) (n : Monitor), MonOk n → MonOk (l.foldl applyCal n) := by
    intro l
    induction l with
    | nil => exact fun _ h => h
    | cons c l ih => exact fun n h => ih _ (MonOk.keep (applyCal_keep n c).1 (applyCal_keep n c).2 h)
  unfold applyPending
  exact fold _ _ (MonOk.keep (List.length_mapIdx) rfl h)

theorem execAcousticFrameBoundary_kept (samples : List (List (Int × Bool))) (s : State) {t : State} (e : execAcousticFrameBoundary samples s = .next t) : Kept s t := by
  unfold execAcousticFrameBoundary at e
  injection e with e; subst e
  try dsimp only
  repeat' first
    | with_reducible exact Kept.refl _
    | with_reducible apply noteClips_kept
    | (with_reducible refine Kept.ite (fun _ => ?_) (fun _ => ?_))
    | split
    | (with_reducible refine Kept.put ?_ ?_ ?_ ?_ ?_ ?_ ?_ ?_ ?_ ?_ ?_
       first
         | with_reducible exact Kept.refl _
         | with_reducible apply sendApbel_kept
         | (with_reducible refine Kept.foldl (fun _ _ => ?_) ?_ _)
       )
    | with_reducible exact id
    | solve | (with_reducible apply MonOk.keep <;> simp +contextual)
    | solve | (refine fun hh => applyPending_ok _ (MonOk.keep ?_ ?_ hh) <;> simp)

theorem energyTrigger_kept {z : State} (s : State) (ch : Nat) (l f : Int) (hz : Kept z s) : Kept z (energyTrigger s ch l f) := by
  unfold energyTrigger
  try dsimp only
  repeat' first
    | with_reducible assumption
    | with_reducible apply monEvent_kept
    | with_reducible apply orderWake_kept
    | (with_reducible refine Kept.ite (fun _ => ?_) (fun _ => ?_))
    | split
    | (with_reducible refine Kept.put ?_ ?_ ?_ ?_ ?_ ?_ ?_ ?_ ?_ ?_ ?_
       first
         | with_reducible apply monEvent_kept
         | with_reducible apply orderWake_kept
       )
    | with_reducible exact id
    | solve | (with_reducible apply MonOk.keep <;> simp +contextual)

theorem execEnergyBlock_kept (channel : Nat) (samples : List Int) (s : State) {t : State} (e : execEnergyBlock channel samples s = .next t) : Kept s t := by
  unfold execEnergyBlock at e
  injection e with e; subst e
  try dsimp only
  repeat' first
    | with_reducible exact Kept.refl _
    | with_reducible apply energyTrigger_kept
    | (with_reducible refine Kept.ite (fun _ => ?_) (fun _ => ?_))
    | split
    | (with_reducible refine Kept.put ?_ ?_ ?_ ?_ ?_ ?_ ?_ ?_ ?_ ?_ ?_; with_reducible exact Kept.refl _)
    | with_reducible exact id
    | solve | (with_reducible apply MonOk.keep <;> simp +contextual)

theorem execEnergyRearmTimeout_kept (channel : Nat) (s : State) {t : State} (e : execEnergyRearmTimeout channel s = .next t) : Kept s t := by
  unfold execEnergyRearmTimeout at e
  injection e with e; subst e
  try dsimp only
  repeat' first
    | with_reducible exact Kept.refl _
    | (with_reducible refine Kept.ite (fun _ => ?_) (fun _ => ?_))
    | split
    | (with_reducible refine Kept.put ?_ ?_ ?_ ?_ ?_ ?_ ?_ ?_ ?_ ?_ ?_; with_reducible exact Kept.refl _)
    | with_reducible exact id
    | solve | (with_reducible apply MonOk.keep <;> simp +contextual)

theorem noteMatch_kept {z : State} (s : State) (i : Nat) (k : MonSlot) (hz : Kept z s) : Kept z (noteMatch s i k) := by
  unfold noteMatch
  try dsimp only
  repeat' first
    | with_reducible assumption
    | with_reducible apply sledEvent_kept
    | split
    | (with_reducible refine Kept.put ?_ ?_ ?_ ?_ ?_ ?_ ?_ ?_ ?_ ?_ ?_; with_reducible assumption)
    | with_reducible exact id
    | solve | (with_reducible apply MonOk.keep <;> simp +contextual)

theorem matchActions_kept {z : State} (s : State) (ms : List (Nat × MonSlot)) (hz : Kept z s) : Kept z (matchActions s ms) := by
  unfold matchActions
  try dsimp only
  repeat' first
    | with_reducible assumption
    | with_reducible exact Kept.refl _
    | with_reducible apply leakResponse_kept
    | with_reducible apply orderWake_kept
    | (with_reducible refine Kept.foldl (fun _ _ => ?_) ?_ _)
    | (with_reducible refine Kept.ite (fun _ => ?_) (fun _ => ?_))

theorem execFeatureVector_kept (vector : List Nat) (usable : Bool) (s : State) {t : State} (e : execFeatureVector vector usable s = .next t) : Kept s t := by
  unfold execFeatureVector at e
  injection e with e; subst e
  try dsimp only
  repeat' first
    | with_reducible exact Kept.refl _
    | with_reducible apply matchActions_kept
    | with_reducible apply noteMatch_kept
    | (with_reducible refine Kept.foldl (fun _ _ => ?_) ?_ _)
    | (with_reducible refine Kept.ite (fun _ => ?_) (fun _ => ?_))
    | (with_reducible refine Kept.put ?_ ?_ ?_ ?_ ?_ ?_ ?_ ?_ ?_ ?_ ?_; with_reducible exact Kept.refl _)
    | with_reducible exact id
    | solve | (with_reducible apply MonOk.keep <;> simp +contextual)

theorem execMonitorStart_kept (s : State) {t : State} (e : execMonitorStart s = .next t) : Kept s t := by
  unfold execMonitorStart at e
  injection e with e; subst e
  try dsimp only
  repeat' first
    | with_reducible exact Kept.refl _
    | with_reducible apply monEvent_kept
    | (with_reducible refine Kept.foldl (fun _ _ => ?_) ?_ _)
    | (with_reducible refine Kept.ite (fun _ => ?_) (fun _ => ?_))
    | (with_reducible refine Kept.put ?_ ?_ ?_ ?_ ?_ ?_ ?_ ?_ ?_ ?_ ?_; with_reducible exact Kept.refl _)
    | with_reducible exact id
    | solve | (with_reducible apply CobOk.keep <;> simp +contextual)
    | solve | (with_reducible apply MonOk.keep <;> simp +contextual)

theorem execMonitorSettled_kept (s : State) {t : State} (e : execMonitorSettled s = .next t) : Kept s t := by
  unfold execMonitorSettled at e
  injection e with e; subst e
  try dsimp only
  repeat' first
    | with_reducible exact Kept.refl _
    | (with_reducible refine Kept.ite (fun _ => ?_) (fun _ => ?_))
    | split
    | (with_reducible refine Kept.put ?_ ?_ ?_ ?_ ?_ ?_ ?_ ?_ ?_ ?_ ?_; with_reducible exact Kept.refl _)
    | with_reducible exact id
    | solve | (with_reducible apply MonOk.keep <;> simp +contextual)

theorem execVaux33Lost_kept (s : State) {t : State} (e : execVaux33Lost s = .next t) : Kept s t := by
  unfold execVaux33Lost at e
  injection e with e; subst e
  try dsimp only
  repeat' first
    | (with_reducible refine Kept.put ?_ ?_ ?_ ?_ ?_ ?_ ?_ ?_ ?_ ?_ ?_; with_reducible exact Kept.refl _)
    | with_reducible exact id
    | solve | (with_reducible apply CobOk.keep <;> simp +contextual)
    | solve | (with_reducible apply MonOk.keep <;> simp +contextual)

theorem execMicFault_kept (channel : Nat) (s : State) {t : State} (e : execMicFault channel s = .next t) : Kept s t := by
  unfold execMicFault at e
  injection e with e; subst e
  try dsimp only
  repeat' first
    | with_reducible exact Kept.refl _
    | with_reducible apply monEvent_kept
    | (with_reducible refine Kept.ite (fun _ => ?_) (fun _ => ?_))
    | split
    | (with_reducible refine Kept.put ?_ ?_ ?_ ?_ ?_ ?_ ?_ ?_ ?_ ?_ ?_; with_reducible exact Kept.refl _)
    | with_reducible exact id
    | solve | (with_reducible apply MonOk.keep <;> simp +contextual)

theorem execMicRecovery_kept (channel : Nat) (s : State) {t : State} (e : execMicRecovery channel s = .next t) : Kept s t := by
  unfold execMicRecovery at e
  injection e with e; subst e
  try dsimp only
  repeat' first
    | with_reducible exact Kept.refl _
    | (with_reducible refine Kept.ite (fun _ => ?_) (fun _ => ?_))
    | split
    | (with_reducible refine Kept.put ?_ ?_ ?_ ?_ ?_ ?_ ?_ ?_ ?_ ?_ ?_; with_reducible exact Kept.refl _)
    | with_reducible exact id
    | solve | (with_reducible apply MonOk.keep <;> simp +contextual)

theorem execAutoActiveTimeout_kept (s : State) {t : State} (e : execAutoActiveTimeout s = .next t) : Kept s t := by
  unfold execAutoActiveTimeout at e
  injection e with e; subst e
  try dsimp only
  repeat' first
    | with_reducible exact Kept.refl _
    | (with_reducible refine Kept.ite (fun _ => ?_) (fun _ => ?_))
    | (with_reducible refine Kept.put ?_ ?_ ?_ ?_ ?_ ?_ ?_ ?_ ?_ ?_ ?_; with_reducible exact Kept.refl _)
    | with_reducible exact id
    | solve | (with_reducible apply MonOk.keep <;> simp +contextual)

theorem execValveQuietEnd_kept (s : State) {t : State} (e : execValveQuietEnd s = .next t) : Kept s t := by
  unfold execValveQuietEnd at e
  injection e with e; subst e
  try dsimp only
  repeat' first
    | (with_reducible refine Kept.put ?_ ?_ ?_ ?_ ?_ ?_ ?_ ?_ ?_ ?_ ?_; with_reducible exact Kept.refl _)
    | with_reducible exact id
    | solve | (with_reducible apply MonOk.keep <;> simp +contextual)

theorem onAcoustic_kept {z : State} (s : State) (src op : Nat) (msg : List Byte) (f : State → List Byte → Handled)
    (hf : ∀ x b, Kept x (f x b).1) (h : Kept z s) : Kept z (onAcoustic s src op msg f) := by
  unfold onAcoustic
  refine onRequest_kept _ _ _ _ _ (fun x b q => Kept.iteP (fun _ => hf x b) fun _ => ?_) h
  exact refusedWith_kept _ _ (Kept.refl _)

theorem execConfigure_kept (src : Nat) (msg : List Byte) (s : State) {t : State} (e : execConfigure src msg s = .next t) : Kept s t := by
  unfold execConfigure at e
  injection e with e; subst e
  try dsimp only
  repeat' first
    | with_reducible exact Kept.refl _
    | with_reducible apply onAcoustic_kept
    | with_reducible apply refusedWith_kept
    | with_reducible apply accepted_kept
    | split
    | (with_reducible refine Kept.put ?_ ?_ ?_ ?_ ?_ ?_ ?_ ?_ ?_ ?_ ?_; with_reducible exact Kept.refl _)
    | with_reducible exact id
    | solve | (with_reducible apply MonOk.keep <;> simp +contextual)
    | intro _

theorem execCalWrite_kept (src : Nat) (msg : List Byte) (s : State) {t : State} (e : execCalWrite src msg s = .next t) : Kept s t := by
  unfold execCalWrite at e
  injection e with e; subst e
  try dsimp only
  repeat' first
    | with_reducible exact Kept.refl _
    | with_reducible apply onAcoustic_kept
    | with_reducible apply refusedWith_kept
    | with_reducible apply accepted_kept
    | (with_reducible refine Kept.iteP (fun _ => ?_) (fun _ => ?_))
    | (with_reducible refine Kept.put ?_ ?_ ?_ ?_ ?_ ?_ ?_ ?_ ?_ ?_ ?_; with_reducible exact Kept.refl _)
    | with_reducible exact id
    | solve | (with_reducible apply MonOk.keep <;> simp +contextual)
    | intro _

theorem execStreamStart_kept (src : Nat) (msg : List Byte) (s : State) {t : State} (e : execStreamStart src msg s = .next t) : Kept s t := by
  unfold execStreamStart at e
  injection e with e; subst e
  try dsimp only
  repeat' first
    | with_reducible exact Kept.refl _
    | with_reducible apply onAcoustic_kept
    | with_reducible apply refusedWith_kept
    | with_reducible apply accepted_kept
    | (with_reducible refine Kept.iteP (fun _ => ?_) (fun _ => ?_))
    | (with_reducible refine Kept.put ?_ ?_ ?_ ?_ ?_ ?_ ?_ ?_ ?_ ?_ ?_; with_reducible exact Kept.refl _)
    | with_reducible exact id
    | solve | (with_reducible apply MonOk.keep <;> simp +contextual)
    | intro _

theorem execStreamStop_kept (src : Nat) (msg : List Byte) (s : State) {t : State} (e : execStreamStop src msg s = .next t) : Kept s t := by
  unfold execStreamStop at e
  injection e with e; subst e
  try dsimp only
  repeat' first
    | with_reducible exact Kept.refl _
    | with_reducible apply onAcoustic_kept
    | with_reducible apply refusedWith_kept
    | with_reducible apply accepted_kept
    | (with_reducible refine Kept.iteP (fun _ => ?_) (fun _ => ?_))
    | (with_reducible refine Kept.put ?_ ?_ ?_ ?_ ?_ ?_ ?_ ?_ ?_ ?_ ?_; with_reducible exact Kept.refl _)
    | with_reducible exact id
    | solve | (with_reducible apply MonOk.keep <;> simp +contextual)
    | intro _

theorem execTemplateData_kept (src : Nat) (msg : List Byte) (s : State) {t : State} (e : execTemplateData src msg s = .next t) : Kept s t := by
  unfold execTemplateData at e
  injection e with e; subst e
  try dsimp only
  repeat' first
    | with_reducible exact Kept.refl _
    | with_reducible apply onAcoustic_kept
    | with_reducible apply accepted_kept
    | with_reducible apply refusedWith_kept
    | (with_reducible refine Kept.iteP (fun _ => ?_) (fun _ => ?_))
    | (with_reducible refine Kept.put ?_ ?_ ?_ ?_ ?_ ?_ ?_ ?_ ?_ ?_ ?_; with_reducible exact Kept.refl _)
    | with_reducible exact id
    | solve | (with_reducible apply MonOk.keep <;> simp +contextual)
    | intro _

theorem execTemplateCommit_kept (src : Nat) (msg : List Byte) (s : State) {t : State} (e : execTemplateCommit src msg s = .next t) : Kept s t := by
  unfold execTemplateCommit at e
  injection e with e; subst e
  try dsimp only
  repeat' first
    | with_reducible exact Kept.refl _
    | with_reducible apply onAcoustic_kept
    | with_reducible apply refusedWith_kept
    | with_reducible apply accepted_kept
    | split
    | (with_reducible refine Kept.put ?_ ?_ ?_ ?_ ?_ ?_ ?_ ?_ ?_ ?_ ?_; with_reducible exact Kept.refl _)
    | with_reducible exact id
    | solve | (with_reducible apply MonOk.keep <;> simp +contextual)
    | intro _

theorem execTemplateClear_kept (src : Nat) (msg : List Byte) (s : State) {t : State} (e : execTemplateClear src msg s = .next t) : Kept s t := by
  unfold execTemplateClear at e
  injection e with e; subst e
  try dsimp only
  repeat' first
    | with_reducible exact Kept.refl _
    | with_reducible apply onAcoustic_kept
    | with_reducible apply accepted_kept
    | with_reducible apply refusedWith_kept
    | (with_reducible refine Kept.iteP (fun _ => ?_) (fun _ => ?_))
    | (with_reducible refine Kept.put ?_ ?_ ?_ ?_ ?_ ?_ ?_ ?_ ?_ ?_ ?_; with_reducible exact Kept.refl _)
    | with_reducible exact id
    | solve | (with_reducible apply MonOk.keep <;> simp +contextual)
    | intro _

theorem execAcousticStatus_kept (src : Nat) (msg : List Byte) (s : State) {t : State} (e : execAcousticStatus src msg s = .next t) : Kept s t := by
  unfold execAcousticStatus at e
  injection e with e; subst e
  try dsimp only
  repeat' first
    | with_reducible exact Kept.refl _
    | with_reducible apply onAcoustic_kept
    | with_reducible apply refusedWith_kept
    | with_reducible apply accepted_kept
    | (with_reducible refine Kept.iteP (fun _ => ?_) (fun _ => ?_))
    | split
    | intro _

end Sys2Proof.Laws
end

