-- ==== Sys2Proof/Laws/KeptRecords.lean ====
section
/-! SUPPORT. What the operations and commands of Machine/Records.lean keep (Safety.Kept). -/
namespace Sys2Proof.Laws
open Sys2Proof.Machine Sys2Proof.Safety

theorem countFlash_kept {z : State} (s : State) (n : Nat) (hz : Kept z s) : Kept z (countFlash s n) := by
  unfold countFlash
  try dsimp only
  repeat' first
    | with_reducible apply sledEvent_kept
    | (with_reducible refine Kept.ite (fun _ => ?_) (fun _ => ?_))
    | split
    | (with_reducible refine Kept.put ?_ ?_ ?_ ?_ ?_ ?_ ?_ ?_ ?_ ?_ ?_; with_reducible assumption)
    | with_reducible exact id
    | solve | (with_reducible apply CobOk.keep <;> simp +contextual)

theorem writeRecord_kept {z : State} (s : State) (kind : Nat) (hz : Kept z s) : Kept z (writeRecord s kind) := by
  unfold writeRecord
  try dsimp only
  repeat' first
    | with_reducible assumption
    | with_reducible apply countFlash_kept
    | (with_reducible refine Kept.ite (fun _ => ?_) (fun _ => ?_))
    | (with_reducible refine Kept.put ?_ ?_ ?_ ?_ ?_ ?_ ?_ ?_ ?_ ?_ ?_; with_reducible assumption)
    | with_reducible exact id
    | solve | (with_reducible apply CobOk.keep <;> simp +contextual)

theorem writeRecords_kept {z : State} (s : State) (hz : Kept z s) : Kept z (writeRecords s) := by
  unfold writeRecords
  repeat' first
    | with_reducible assumption
    | with_reducible exact Kept.refl _
    | with_reducible apply writeRecord_kept
    | (with_reducible refine Kept.foldl (fun _ _ => ?_) ?_ _)

theorem flushChip_kept {z : State} (s : State) (hz : Kept z s) : Kept z (flushChip s) := by
  unfold flushChip
  try dsimp only
  repeat' first
    | with_reducible assumption
    | with_reducible apply sledEvent_kept
    | with_reducible apply countFlash_kept
    | (with_reducible refine Kept.ite (fun _ => ?_) (fun _ => ?_))
    | (with_reducible refine Kept.put ?_ ?_ ?_ ?_ ?_ ?_ ?_ ?_ ?_ ?_ ?_; with_reducible apply writeRecords_kept)
    | with_reducible exact id
    | solve | (with_reducible apply CobOk.keep <;> simp +contextual)

theorem execHealthRecordWrite_kept (s : State) {t : State} (e : execHealthRecordWrite s = .next t) : Kept s t := by
  unfold execHealthRecordWrite at e
  injection e with e; subst e
  repeat' first
    | with_reducible exact Kept.refl _
    | with_reducible apply writeRecords_kept
    | (with_reducible refine Kept.ite (fun _ => ?_) (fun _ => ?_))

theorem restoreRecord_kept {z : State} (s : State) (x : ChipRecord) (hz : Kept z s) : Kept z (restoreRecord s x) := by
  unfold restoreRecord
  try dsimp only
  repeat' first
    | split
    | (with_reducible refine Kept.put ?_ ?_ ?_ ?_ ?_ ?_ ?_ ?_ ?_ ?_ ?_; with_reducible assumption)
    | with_reducible exact id
    | solve | (with_reducible apply MemOk.keep <;> simp +contextual)
    | solve | (with_reducible apply HostOk.keep <;> simp +contextual)
    | solve | simp

theorem restoreRecords_kept {z : State} (s : State) (damaged : List Nat) (hz : Kept z s) : Kept z (restoreRecords s damaged) := by
  unfold restoreRecords
  try dsimp only
  repeat' first
    | with_reducible assumption
    | with_reducible exact Kept.refl _
    | with_reducible apply restoreRecord_kept
    | with_reducible apply event_kept
    | (with_reducible refine Kept.foldl (fun _ _ => ?_) ?_ _)
    | (with_reducible refine Kept.ite (fun _ => ?_) (fun _ => ?_))

end Sys2Proof.Laws
end

