-- ==== Sys2Proof/Laws/KeptTongueOps.lean ====
section
/-! SUPPORT. What the operations and commands of Machine/TongueOps.lean keep (Safety.Kept). -/
namespace Sys2Proof.Laws
open Sys2Proof.Machine Sys2Proof.Safety

theorem setEyelet_kept {z : State} (s : State) (k : Nat) (f : Eyelet → Eyelet) (hz : Kept z s) : Kept z (setEyelet s k f) := by
  unfold setEyelet
  repeat' first
    | (with_reducible refine Kept.put ?_ ?_ ?_ ?_ ?_ ?_ ?_ ?_ ?_ ?_ ?_; with_reducible assumption)
    | with_reducible exact id
    | solve | simp

theorem sendNow_kept {z : State} (s : State) (k : Nat) (item : List Byte) (hz : Kept z s) : Kept z (sendNow s k item) := by
  unfold sendNow
  repeat' first
    | with_reducible assumption
    | with_reducible apply setEyelet_kept

theorem sendTongue_kept {z : State} (s : State) (k : Nat) (ms : List (List Byte)) (hz : Kept z s) : Kept z (sendTongue s k ms) := by
  unfold sendTongue
  repeat' first
    | with_reducible assumption
    | with_reducible apply setEyelet_kept

theorem noteFlood_kept {z : State} (s : State) (m : Tongue) (hz : Kept z s) : Kept z (noteFlood s m) := by
  unfold noteFlood
  try dsimp only
  repeat' first
    | (with_reducible refine Kept.put ?_ ?_ ?_ ?_ ?_ ?_ ?_ ?_ ?_ ?_ ?_; with_reducible assumption)
    | with_reducible exact id
    | solve | (with_reducible apply SvcOk.keep <;> simp +contextual)

theorem floodOut_kept {z : State} (s : State) (m : Tongue) (parts : List (List Byte)) (skip : Option Nat) (hz : Kept z s) : Kept z (floodOut s m parts skip) := by
  unfold floodOut
  repeat' first
    | with_reducible assumption
    | with_reducible exact Kept.refl _
    | with_reducible apply sendTongue_kept
    | with_reducible apply noteFlood_kept
    | (with_reducible refine Kept.foldl (fun _ _ => ?_) ?_ _)

theorem originate_kept {z : State} (s : State) (m : Tongue) (parts : List (List Byte)) (hz : Kept z s) : Kept z (originate s m parts) := by
  unfold originate
  repeat' first
    | with_reducible assumption
    | with_reducible apply floodOut_kept

end Sys2Proof.Laws
end

