-- ==== Sys2Proof/Laws/KeptJobOps.lean ====
section
/-! SUPPORT. What the operations and commands of Machine/JobOps.lean keep (Safety.Kept). -/
namespace Sys2Proof.Laws
open Sys2Proof.Machine Sys2Proof.Safety

theorem setJob_kept {z : State} (s : State) (f : Job → Job) (hz : Kept z s) : Kept z (setJob s f) := by
  unfold setJob
  repeat' first
    | (with_reducible refine Kept.put ?_ ?_ ?_ ?_ ?_ ?_ ?_ ?_ ?_ ?_ ?_; with_reducible assumption)
    | with_reducible exact id

theorem syncDev_kept {z : State} (s : State) (hz : Kept z s) : Kept z (syncDev s) := by
  unfold syncDev
  try dsimp only
  repeat' first
    | with_reducible assumption
    | (with_reducible refine Kept.ite (fun _ => ?_) (fun _ => ?_))
    | (with_reducible refine Kept.put ?_ ?_ ?_ ?_ ?_ ?_ ?_ ?_ ?_ ?_ ?_; with_reducible assumption)
    | with_reducible exact id

theorem setJobState_kept {z : State} (s : State) (x : JobState) (hz : Kept z s) : Kept z (setJobState s x) := by
  unfold setJobState
  repeat' first
    | with_reducible assumption
    | with_reducible apply syncDev_kept
    | with_reducible apply setJob_kept

theorem postReq_kept {z : State} (s : State) (q : Request) (status sub report endCode choice : Nat) (hz : Kept z s) : Kept z (postReq s q status sub report endCode choice) := by
  unfold postReq
  repeat' first
    | with_reducible assumption
    | with_reducible apply postCpl_kept

theorem dropRequest_kept {z : State} (s : State) (q : Request) (hz : Kept z s) : Kept z (dropRequest s q) := by
  unfold dropRequest
  repeat' first
    | with_reducible assumption
    | with_reducible apply setJob_kept

theorem failRequest_kept {z : State} (status sub : Nat) (s : State) (q : Request) (hz : Kept z s) : Kept z (failRequest status sub s q) := by
  unfold failRequest
  try dsimp only
  repeat' first
    | with_reducible assumption
    | with_reducible apply noteRefusal_kept
    | (with_reducible refine Kept.ite (fun _ => ?_) (fun _ => ?_))
    | with_reducible apply dropRequest_kept
    | with_reducible apply postReq_kept

theorem anchorAt_kept {z : State} (s : State) (ws js : Nat) (hz : Kept z s) : Kept z (anchorAt s ws js) := by
  unfold anchorAt
  repeat' first
    | with_reducible assumption
    | with_reducible apply setJob_kept

theorem dropWork_kept {z : State} (s : State) (hz : Kept z s) : Kept z (dropWork s) := by
  unfold dropWork
  try dsimp only
  repeat' first
    | with_reducible assumption
    | (with_reducible refine Kept.put ?_ ?_ ?_ ?_ ?_ ?_ ?_ ?_ ?_ ?_ ?_; with_reducible apply setJob_kept)
    | with_reducible exact id
    | solve | (with_reducible apply MemOk.keep <;> simp +contextual)
    | solve | (with_reducible apply ClkOk.keep <;> simp +contextual)
    | solve | simp

theorem completePending_kept {z : State} (s : State) (status : Nat) (hz : Kept z s) : Kept z (completePending s status) := by
  unfold completePending
  try dsimp only
  repeat' first
    | with_reducible assumption
    | with_reducible exact Kept.refl _
    | with_reducible apply failRequest_kept
    | with_reducible apply refuseSlot_kept
    | with_reducible apply complete_kept
    | (with_reducible refine Kept.foldl (fun _ _ => ?_) ?_ _)
    | (with_reducible refine Kept.ite (fun _ => ?_) (fun _ => ?_))
    | split

theorem enterStopped_kept {z : State} (s : State) (status : Nat) (hz : Kept z s) : Kept z (enterStopped s status) := by
  unfold enterStopped
  try dsimp only
  repeat' first
    | with_reducible assumption
    | with_reducible apply completePending_kept
    | with_reducible apply dropWork_kept
    | with_reducible apply setJob_kept
    | with_reducible apply setJobState_kept

theorem stopJob_kept {z : State} (s : State) (status : Nat) (hz : Kept z s) : Kept z (stopJob s status) := by
  unfold stopJob
  try dsimp only
  repeat' first
    | with_reducible assumption
    | with_reducible apply originate_kept
    | with_reducible apply setJob_kept
    | with_reducible apply enterStopped_kept
    | (with_reducible refine Kept.ite (fun _ => ?_) (fun _ => ?_))
    | split

theorem laceLinkDown_kept {z : State} (s : State) (k : Nat) (hz : Kept z s) : Kept z (laceLinkDown s k) := by
  unfold laceLinkDown
  repeat' first
    | with_reducible assumption
    | with_reducible apply stopJob_kept
    | with_reducible apply event_kept
    | (with_reducible refine Kept.ite (fun _ => ?_) (fun _ => ?_))
    | split

end Sys2Proof.Laws
end

