-- ==== Sys2Proof/Laws/KeptAwl.lean ====
section
/-! SUPPORT. What the operations and commands of Machine/Awl.lean keep (Safety.Kept). -/
namespace Sys2Proof.Laws
open Sys2Proof.Machine Sys2Proof.Safety

theorem recordFault_kept {z : State} (s : State) (f : Finding) (first : Bool) (hz : Kept z s) : Kept z (recordFault s f first) := by
  unfold recordFault
  try dsimp only
  repeat' first
    | with_reducible assumption
    | split
    | (with_reducible refine Kept.put ?_ ?_ ?_ ?_ ?_ ?_ ?_ ?_ ?_ ?_ ?_; with_reducible apply recordRaw_kept)
    | with_reducible exact id
    | solve | (with_reducible apply HostOk.keep <;> simp +contextual)

theorem awlFaults_kept {z : State} (s : State) (fs : List Finding) (hz : Kept z s) : Kept z (awlFaults s fs) := by
  unfold awlFaults
  try dsimp only
  repeat' first
    | with_reducible assumption
    | with_reducible exact Kept.refl _
    | with_reducible apply recordFault_kept
    | with_reducible apply stopJob_kept
    | with_reducible apply setJob_kept
    | (with_reducible refine Kept.foldl (fun _ _ => ?_) ?_ _)
    | (with_reducible refine Kept.ite (fun _ => ?_) (fun _ => ?_))
    | split

theorem choose_kept {z : State} (s : State) (hz : Kept z s) : Kept z (choose s) := by
  unfold choose
  repeat' first
    | with_reducible assumption
    | with_reducible apply setJob_kept

theorem interlock_kept {z : State} (s : State) (f : Finding) (hz : Kept z s) : Kept z (interlock s f) := by
  unfold interlock
  try dsimp only
  repeat' first
    | with_reducible assumption
    | with_reducible apply choose_kept
    | with_reducible apply setJob_kept
    | with_reducible apply recordRaw_kept
    | (with_reducible refine Kept.ite (fun _ => ?_) (fun _ => ?_))
    | split

end Sys2Proof.Laws
end

