-- ==== Sys2Proof/Laws/KeptEcc.lean ====
section
/-! SUPPORT. What the operations and commands of Machine/Ecc.lean keep (Safety.Kept). -/
namespace Sys2Proof.Laws
open Sys2Proof.Machine Sys2Proof.Safety

theorem setTile_kept {z : State} (s : State) (t : Nat) (f : TileHealth → TileHealth) (hz : Kept z s) : Kept z (setTile s t f) := by
  unfold setTile
  try dsimp only
  repeat' first
    | (with_reducible refine Kept.put ?_ ?_ ?_ ?_ ?_ ?_ ?_ ?_ ?_ ?_ ?_; with_reducible assumption)
    | with_reducible exact id
    | solve | (with_reducible apply MemOk.keep <;> simp +contextual)

theorem noteTileCause_kept {z : State} (s : State) (t cause : Nat) (hz : Kept z s) : Kept z (noteTileCause s t cause) := by
  unfold noteTileCause
  repeat' first
    | with_reducible assumption
    | with_reducible apply event_kept
    | with_reducible apply setTile_kept
    | (with_reducible refine Kept.ite (fun _ => ?_) (fun _ => ?_))
    | split

theorem insoleCorrected_kept {z : State} (s : State) (t a : Nat) (hz : Kept z s) : Kept z (insoleCorrected s t a) := by
  unfold insoleCorrected
  try dsimp only
  repeat' first
    | with_reducible assumption
    | with_reducible apply event_kept
    | with_reducible apply setTile_kept
    | with_reducible apply noteTileCause_kept
    | (with_reducible refine Kept.ite (fun _ => ?_) (fun _ => ?_))

theorem insoleUncorrected_kept {z : State} (s : State) (t a : Nat) (hz : Kept z s) : Kept z (insoleUncorrected s t a) := by
  unfold insoleUncorrected
  try dsimp only
  repeat' first
    | with_reducible assumption
    | with_reducible apply event_kept
    | with_reducible apply setTile_kept
    | with_reducible apply stopJob_kept
    | with_reducible apply noteTileCause_kept

theorem retireTile_kept {z : State} (s : State) (t : Nat) (hz : Kept z s) : Kept z (retireTile s t) := by
  unfold retireTile
  try dsimp only
  repeat' first
    | with_reducible assumption
    | with_reducible apply setTile_kept
    | with_reducible apply event_kept
    | split

theorem applyPendingTiles_kept {z : State} (s : State) (hz : Kept z s) : Kept z (applyPendingTiles s) := by
  unfold applyPendingTiles
  repeat' first
    | with_reducible assumption
    | with_reducible exact Kept.refl _
    | with_reducible apply retireTile_kept
    | (with_reducible refine Kept.foldl (fun _ _ => ?_) ?_ _)

theorem hbmCandidate_kept {z : State} (s : State) (a : Nat) (hz : Kept z s) : Kept z (hbmCandidate s a) := by
  unfold hbmCandidate
  try dsimp only
  repeat' first
    | with_reducible assumption
    | with_reducible apply event_kept
    | (with_reducible refine Kept.ite (fun _ => ?_) (fun _ => ?_))
    | (with_reducible refine Kept.put ?_ ?_ ?_ ?_ ?_ ?_ ?_ ?_ ?_ ?_ ?_; with_reducible assumption)
    | with_reducible exact id
    | solve | (with_reducible apply MemOk.keep <;> simp +contextual)

theorem hbmCorrected_kept {z : State} (s : State) (a : Nat) (hz : Kept z s) : Kept z (hbmCorrected s a) := by
  unfold hbmCorrected
  try dsimp only
  repeat' first
    | with_reducible assumption
    | with_reducible apply hbmCandidate_kept
    | (with_reducible refine Kept.ite (fun _ => ?_) (fun _ => ?_))
    | (with_reducible refine Kept.put ?_ ?_ ?_ ?_ ?_ ?_ ?_ ?_ ?_ ?_ ?_; with_reducible apply eventLimited_kept)
    | with_reducible exact id
    | solve | (with_reducible apply MemOk.keep <;> simp +contextual)

theorem hbmUncorrected_kept {z : State} (s : State) (a : Nat) (hz : Kept z s) : Kept z (hbmUncorrected s a) := by
  unfold hbmUncorrected
  repeat' first
    | with_reducible assumption
    | with_reducible apply hbmCandidate_kept
    | with_reducible apply event_kept

end Sys2Proof.Laws
end

