-- ==== Sys2Proof/Laws/KeptPrefixOps.lean ====
section
/-! SUPPORT. What the operations and commands of Machine/PrefixOps.lean keep (Safety.Kept). -/
namespace Sys2Proof.Laws
open Sys2Proof.Machine Sys2Proof.Safety

theorem setPage_kept {z : State} (s : State) (t : Store) (slot j : Nat) (f : Option Nat) (hz : Kept z s) : Kept z (setPage s t slot j f) := by
  unfold setPage
  repeat' first
    | with_reducible assumption
    | with_reducible apply hbmWrite_kept

theorem clearPages_kept {z : State} (s : State) (t : Store) (slot : Nat) (hz : Kept z s) : Kept z (clearPages s t slot) := by
  unfold clearPages
  repeat' first
    | with_reducible assumption
    | with_reducible apply hbmWrite_kept

theorem publishAt_kept {z : State} (s : State) (t : Store) (i frame refs use : Nat) (key : List Byte) (hz : Kept z s) : Kept z (publishAt s t i frame refs use key) := by
  unfold publishAt
  try dsimp only
  repeat' first
    | with_reducible assumption
    | with_reducible apply hbmWrite_kept

theorem emptyAt_kept {z : State} (s : State) (t : Store) (i : Nat) (hz : Kept z s) : Kept z (emptyAt s t i) := by
  unfold emptyAt
  try dsimp only
  repeat' first
    | with_reducible assumption
    | with_reducible apply hbmWrite_kept

theorem touchAt_kept {z : State} (s : State) (t : Store) (i refs : Nat) (use : Option Nat) (hz : Kept z s) : Kept z (touchAt s t i refs use) := by
  unfold touchAt
  try dsimp only
  repeat' first
    | with_reducible assumption
    | with_reducible apply hbmWrite_kept
    | split

theorem setFrame_kept {z : State} (s : State) (f : Nat) (x : Option FrameState) (hz : Kept z s) : Kept z (setFrame s f x) := by
  unfold setFrame
  repeat' first
    | with_reducible assumption
    | with_reducible apply setJob_kept

theorem releaseFrame_kept {z : State} (t : Store) (s : State) (f : Nat) (hz : Kept z s) : Kept z (releaseFrame t s f) := by
  unfold releaseFrame
  repeat' first
    | with_reducible assumption
    | with_reducible apply touchAt_kept
    | with_reducible apply setFrame_kept
    | split

theorem dropEndedFetches_kept {z : State} (s : State) (hz : Kept z s) : Kept z (dropEndedFetches s) := by
  unfold dropEndedFetches
  repeat' first
    | with_reducible assumption
    | with_reducible apply setJob_kept

theorem applyRec_kept {z : State} (t : Store) (s : State) (r : Rec) (hz : Kept z s) : Kept z (applyRec t s r) := by
  unfold applyRec
  try dsimp only
  repeat' first
    | with_reducible assumption
    | with_reducible exact Kept.refl _
    | with_reducible apply clearPages_kept
    | with_reducible apply releaseFrame_kept
    | with_reducible apply publishAt_kept
    | with_reducible apply setFrame_kept
    | with_reducible apply dropEndedFetches_kept
    | with_reducible apply setPage_kept
    | with_reducible apply touchAt_kept
    | with_reducible apply emptyAt_kept
    | with_reducible apply setJob_kept
    | with_reducible apply bumpFree_kept
    | (with_reducible refine Kept.foldl (fun _ _ => ?_) ?_ _)
    | (with_reducible refine Kept.ite (fun _ => ?_) (fun _ => ?_))
    | split

theorem applyRecs_kept {z : State} (s : State) (rs : List Rec) (hz : Kept z s) : Kept z (applyRecs s rs) := by
  unfold applyRecs
  repeat' first
    | with_reducible assumption
    | with_reducible exact Kept.refl _
    | with_reducible apply applyRec_kept
    | (with_reducible refine Kept.foldl (fun _ _ => ?_) ?_ _)
    | split

end Sys2Proof.Laws
end

