-- ==== Sys2Proof/Laws/KeptServiceOps.lean ====
section
/-! SUPPORT. What the operations and commands of Machine/ServiceOps.lean keep (Safety.Kept). -/
namespace Sys2Proof.Laws
open Sys2Proof.Machine Sys2Proof.Safety

theorem touchBank_kept {z : State} (s : State) (epoch : Nat) (hz : Kept z s) : Kept z (touchBank s epoch) := by
  unfold touchBank
  try dsimp only
  repeat' first
    | (with_reducible refine Kept.put ?_ ?_ ?_ ?_ ?_ ?_ ?_ ?_ ?_ ?_ ?_; with_reducible assumption)
    | with_reducible exact id
    | solve | (with_reducible apply SvcOk.keep <;> simp +contextual)

theorem credBack_kept {z : State} (s : State) (k kind : Nat) (hz : Kept z s) : Kept z (credBack s k kind) := by
  unfold credBack
  repeat' first
    | with_reducible assumption
    | with_reducible apply setEyelet_kept
    | (with_reducible refine Kept.ite (fun _ => ?_) (fun _ => ?_))

theorem moved_kept {z : State} (s : State) (o c : Nat) (hz : Kept z s) : Kept z (moved s o c) := by
  unfold moved
  try dsimp only
  repeat' first
    | (with_reducible refine Kept.put ?_ ?_ ?_ ?_ ?_ ?_ ?_ ?_ ?_ ?_ ?_; with_reducible assumption)
    | with_reducible exact id
    | solve | (with_reducible apply SvcOk.keep <;> simp +contextual)

theorem queueUnit_kept {z : State} (s : State) (k vc : Nat) (u : SvcUnit) (hz : Kept z s) : Kept z (queueUnit s k vc u) := by
  unfold queueUnit
  repeat' first
    | with_reducible assumption
    | with_reducible apply setEyelet_kept

theorem issueNow_kept {z : State} (s : State) (owner : Owner) (h : Hdr) (data : List Byte) (onDone : OnDone) (hz : Kept z s) : Kept z (issueNow s owner h data onDone) := by
  unfold issueNow
  try dsimp only
  repeat' first
    | with_reducible assumption
    | split
    | (with_reducible refine Kept.put ?_ ?_ ?_ ?_ ?_ ?_ ?_ ?_ ?_ ?_ ?_
       first
         | with_reducible assumption
         | with_reducible apply bumpFree_kept
       )
    | with_reducible exact id
    | solve | (with_reducible apply SvcOk.keep <;> simp +contextual)

theorem pumpIssue_kept {z : State} : ∀ (fuel : Nat) {s : State}, Kept z s → Kept z (pumpIssue fuel s)
  | 0, _, hz => hz
  | fuel + 1, s, hz => by
    unfold pumpIssue
    try dsimp only
    repeat' first
      | with_reducible assumption
      | with_reducible apply pumpIssue_kept
      | with_reducible apply issueNow_kept
      | (with_reducible refine Kept.ite (fun _ => ?_) (fun _ => ?_))
      | split
      | (with_reducible refine Kept.put ?_ ?_ ?_ ?_ ?_ ?_ ?_ ?_ ?_ ?_ ?_; with_reducible assumption)
      | with_reducible exact id
      | solve | (with_reducible apply SvcOk.keep <;> simp +contextual)

theorem issue_kept {z : State} (s : State) (owner : Owner) (h : Hdr) (data : List Byte) (onDone : OnDone) (hz : Kept z s) : Kept z (issue s owner h data onDone) := by
  unfold issue
  try dsimp only
  repeat' first
    | with_reducible apply pumpIssue_kept
    | (with_reducible refine Kept.put ?_ ?_ ?_ ?_ ?_ ?_ ?_ ?_ ?_ ?_ ?_; with_reducible assumption)
    | with_reducible exact id
    | solve | (with_reducible apply SvcOk.keep <;> simp +contextual)

theorem sendReply_kept {z : State} (s : State) (h : List Byte) (status sub arg mask : Nat) (skive : Bool) (data : List Byte) (hz : Kept z s) : Kept z (sendReply s h status sub arg mask skive data) := by
  unfold sendReply
  try dsimp only
  repeat' first
    | (with_reducible refine Kept.put ?_ ?_ ?_ ?_ ?_ ?_ ?_ ?_ ?_ ?_ ?_; with_reducible assumption)
    | with_reducible exact id
    | solve | (with_reducible apply SvcOk.keep <;> simp +contextual)

theorem refusePkt_kept {z : State} (s : State) (h : List Byte) (status sub : Nat) (hz : Kept z s) : Kept z (refusePkt s h status sub) := by
  unfold refusePkt
  repeat' first
    | with_reducible assumption
    | with_reducible apply sendReply_kept
    | (with_reducible refine Kept.ite (fun _ => ?_) (fun _ => ?_))

theorem spreadCopies_kept {z : State} (s : State) (b : RouteTable) (ingress vcIn : Nat) (p : Pkt) (gs : List (Nat × List Nat)) (hz : Kept z s) : Kept z (spreadCopies s b ingress vcIn p gs) := by
  unfold spreadCopies
  try dsimp only
  repeat' first
    | with_reducible assumption
    | with_reducible exact Kept.refl _
    | with_reducible apply refusePkt_kept
    | with_reducible apply queueUnit_kept
    | (with_reducible refine Kept.foldl (fun _ _ => ?_) ?_ _)
    | (with_reducible refine Kept.ite (fun _ => ?_) (fun _ => ?_))
    | (with_reducible refine Kept.put ?_ ?_ ?_ ?_ ?_ ?_ ?_ ?_ ?_ ?_ ?_; with_reducible exact Kept.refl _)
    | with_reducible exact id
    | solve | (with_reducible apply SvcOk.keep <;> simp +contextual)

theorem storedWhole_kept {z : State} (s : State) (egress ingress vc : Nat) (p : Pkt) (hz : Kept z s) : Kept z (storedWhole s egress ingress vc p) := by
  unfold storedWhole
  try dsimp only
  repeat' first
    | with_reducible assumption
    | with_reducible apply spreadCopies_kept
    | split
    | (with_reducible refine Kept.put ?_ ?_ ?_ ?_ ?_ ?_ ?_ ?_ ?_ ?_ ?_; with_reducible assumption)
    | with_reducible exact id
    | solve | (with_reducible apply SvcOk.keep <;> simp +contextual)

theorem passUnit_kept {z : State} (s : State) (k vc : Nat) (r : SvcRoute) (u : SvcUnit) (hz : Kept z s) : Kept z (passUnit s k vc r u) := by
  unfold passUnit
  try dsimp only
  repeat' first
    | with_reducible assumption
    | with_reducible apply queueUnit_kept
    | with_reducible apply storedWhole_kept
    | with_reducible apply setEyelet_kept
    | (with_reducible refine Kept.ite (fun _ => ?_) (fun _ => ?_))
    | split
    | (with_reducible refine Kept.put ?_ ?_ ?_ ?_ ?_ ?_ ?_ ?_ ?_ ?_ ?_; with_reducible apply credBack_kept)
    | with_reducible exact id
    | solve | (with_reducible apply SvcOk.keep <;> simp +contextual)

theorem drainVc_kept {z : State} (k vc : Nat) : ∀ (fuel : Nat) {s : State}, Kept z s → Kept z (drainVc k vc fuel s)
  | 0, _, hz => hz
  | fuel + 1, s, hz => by
    unfold drainVc
    repeat' first
      | with_reducible assumption
      | with_reducible apply drainVc_kept
      | with_reducible apply passUnit_kept
      | with_reducible apply setEyelet_kept
      | split

theorem startRoute_kept {z : State} (s : State) (k vc : Nat) (r : SvcRoute) (hz : Kept z s) : Kept z (startRoute s k vc r) := by
  unfold startRoute
  try dsimp only
  repeat' first
    | with_reducible assumption
    | with_reducible apply drainVc_kept
    | with_reducible apply setEyelet_kept

theorem svcArrive_kept {z : State} (s : State) (k vc : Nat) (u : SvcUnit) (hz : Kept z s) : Kept z (svcArrive s k vc u) := by
  unfold svcArrive
  try dsimp only
  repeat' first
    | with_reducible assumption
    | with_reducible apply setEyelet_kept
    | with_reducible apply touchBank_kept
    | with_reducible apply drainVc_kept

theorem flushEyelet_kept {z : State} (s : State) (k : Nat) (hz : Kept z s) : Kept z (flushEyelet s k) := by
  unfold flushEyelet
  try dsimp only
  repeat' first
    | with_reducible assumption
    | with_reducible exact Kept.refl _
    | with_reducible apply setEyelet_kept
    | with_reducible apply credBack_kept
    | with_reducible apply refusePkt_kept
    | with_reducible apply queueUnit_kept
    | (with_reducible refine Kept.foldl (fun _ _ => ?_) ?_ _)
    | split
    | (with_reducible refine Kept.put ?_ ?_ ?_ ?_ ?_ ?_ ?_ ?_ ?_ ?_ ?_
       first
         | with_reducible apply setEyelet_kept
         | (with_reducible refine Kept.foldl (fun _ _ => ?_) ?_ _)
       )
    | with_reducible exact id
    | solve | (with_reducible apply SvcOk.keep <;> simp +contextual)
    | solve | simp

end Sys2Proof.Laws
end

