-- ==== Sys2Proof/Laws/KeptLinkOps.lean ====
section
/-! SUPPORT. What the operations and commands of Machine/LinkOps.lean keep (Safety.Kept). -/
namespace Sys2Proof.Laws
open Sys2Proof.Machine Sys2Proof.Safety

theorem trainFail_kept {z : State} (s : State) (k : Nat) (hz : Kept z s) : Kept z (trainFail s k) := by
  unfold trainFail
  repeat' first
    | with_reducible assumption
    | with_reducible apply event_kept

theorem leaveUp_kept {z : State} (s : State) (k cause : Nat) (notice : Bool) (next : LinkState) (hz : Kept z s) : Kept z (leaveUp s k cause notice next) := by
  unfold leaveUp
  try dsimp only
  repeat' first
    | with_reducible assumption
    | with_reducible apply sendNow_kept
    | with_reducible apply setEyelet_kept
    | with_reducible apply event_kept
    | with_reducible apply laceLinkDown_kept
    | (with_reducible refine Kept.ite (fun _ => ?_) (fun _ => ?_))

theorem bridgeDown_kept {z : State} (s : State) (k code : Nat) (hz : Kept z s) : Kept z (bridgeDown s k code) := by
  unfold bridgeDown
  repeat' first
    | with_reducible assumption
    | with_reducible apply event_kept
    | with_reducible apply setEyelet_kept
    | split

theorem takeDown_kept {z : State} (s : State) (k cause : Nat) (notice : Bool) (next : LinkState) (hz : Kept z s) : Kept z (takeDown s k cause notice next) := by
  unfold takeDown
  repeat' first
    | with_reducible assumption
    | with_reducible apply leaveUp_kept
    | with_reducible apply setEyelet_kept
    | with_reducible apply bridgeDown_kept
    | split

theorem enterDetect_kept {z : State} (s : State) (k : Nat) (hz : Kept z s) : Kept z (enterDetect s k) := by
  unfold enterDetect
  repeat' first
    | with_reducible assumption
    | with_reducible apply setEyelet_kept

theorem applyReleases_kept {z : State} (s : State) (hz : Kept z s) : Kept z (applyReleases s) := by
  unfold applyReleases
  repeat' first
    | with_reducible assumption
    | with_reducible exact Kept.refl _
    | with_reducible apply enterDetect_kept
    | (with_reducible refine Kept.foldl (fun _ _ => ?_) ?_ _)
    | (with_reducible refine Kept.ite (fun _ => ?_) (fun _ => ?_))

theorem violation_kept {z : State} (s : State) (k code what : Nat) (hz : Kept z s) : Kept z (violation s k code what) := by
  unfold violation
  try dsimp only
  repeat' first
    | with_reducible assumption
    | with_reducible apply setEyelet_kept
    | with_reducible apply eventLimited_kept
    | with_reducible apply leaveUp_kept
    | with_reducible apply event_kept
    | (with_reducible refine Kept.ite (fun _ => ?_) (fun _ => ?_))

theorem retryLimit_kept {z : State} (s : State) (k : Nat) (hz : Kept z s) : Kept z (retryLimit s k) := by
  unfold retryLimit
  repeat' first
    | with_reducible assumption
    | with_reducible apply leaveUp_kept
    | with_reducible apply event_kept

theorem askResend_kept {z : State} (s : State) (k q : Nat) (fresh : Bool) (hz : Kept z s) : Kept z (askResend s k q fresh) := by
  unfold askResend
  try dsimp only
  repeat' first
    | with_reducible assumption
    | with_reducible apply retryLimit_kept
    | with_reducible apply setEyelet_kept
    | (with_reducible refine Kept.ite (fun _ => ?_) (fun _ => ?_))
    | split

theorem askTongue_kept {z : State} (s : State) (k t : Nat) (hz : Kept z s) : Kept z (askTongue s k t) := by
  unfold askTongue
  try dsimp only
  repeat' first
    | with_reducible assumption
    | with_reducible apply retryLimit_kept
    | with_reducible apply setEyelet_kept
    | (with_reducible refine Kept.ite (fun _ => ?_) (fun _ => ?_))

theorem queueNak_kept {z : State} (s : State) (k seq : Nat) (range tongue : Bool) (hz : Kept z s) : Kept z (queueNak s k seq range tongue) := by
  unfold queueNak
  repeat' first
    | with_reducible assumption
    | with_reducible apply setEyelet_kept

theorem nakSeq_kept {z : State} (s : State) (k seq : Nat) (hz : Kept z s) : Kept z (nakSeq s k seq) := by
  unfold nakSeq
  try dsimp only
  repeat' first
    | with_reducible assumption
    | with_reducible apply queueNak_kept
    | with_reducible apply setEyelet_kept
    | (with_reducible refine Kept.ite (fun _ => ?_) (fun _ => ?_))

theorem nakExpected_kept {z : State} (s : State) (k : Nat) (hz : Kept z s) : Kept z (nakExpected s k) := by
  unfold nakExpected
  repeat' first
    | with_reducible assumption
    | with_reducible apply nakSeq_kept

theorem takeEcho_kept {z : State} (s : State) (k echo what : Nat) (hz : Kept z s) : Kept z (takeEcho s k echo what) := by
  unfold takeEcho
  try dsimp only
  repeat' first
    | with_reducible assumption
    | with_reducible apply violation_kept
    | with_reducible apply setEyelet_kept
    | split

theorem takeTongueEcho_kept {z : State} (s : State) (k echo what : Nat) (hz : Kept z s) : Kept z (takeTongueEcho s k echo what) := by
  unfold takeTongueEcho
  try dsimp only
  repeat' first
    | with_reducible assumption
    | with_reducible apply violation_kept
    | with_reducible apply setEyelet_kept
    | split

theorem takeReturn_kept {z : State} (s : State) (k kind n : Nat) (hz : Kept z s) : Kept z (takeReturn s k kind n) := by
  unfold takeReturn
  try dsimp only
  repeat' first
    | with_reducible assumption
    | with_reducible apply violation_kept
    | with_reducible apply setEyelet_kept
    | (with_reducible refine Kept.ite (fun _ => ?_) (fun _ => ?_))

theorem exchangeDone_kept {z : State} (s : State) (k : Nat) (hz : Kept z s) : Kept z (exchangeDone s k) := by
  unfold exchangeDone
  try dsimp only
  repeat' first
    | with_reducible assumption
    | with_reducible apply sendNow_kept
    | with_reducible apply setEyelet_kept
    | (with_reducible refine Kept.ite (fun _ => ?_) (fun _ => ?_))

theorem enterExchange_kept {z : State} (s : State) (k : Nat) (hz : Kept z s) : Kept z (enterExchange s k) := by
  unfold enterExchange
  try dsimp only
  repeat' first
    | with_reducible assumption
    | with_reducible apply setEyelet_kept
    | with_reducible apply sendNow_kept

theorem enterUp_kept {z : State} (s : State) (k : Nat) (a : Advert) (hz : Kept z s) : Kept z (enterUp s k a) := by
  unfold enterUp
  try dsimp only
  repeat' first
    | with_reducible assumption
    | with_reducible apply flushEyelet_kept
    | with_reducible apply event_kept
    | with_reducible apply setEyelet_kept
    | split

end Sys2Proof.Laws
end

