-- ==== Sys2Proof/Laws/KeptTarget.lean ====
section
/-! SUPPORT. What the operations and commands of Machine/Target.lean keep (Safety.Kept). -/
namespace Sys2Proof.Laws
open Sys2Proof.Machine Sys2Proof.Safety

theorem controlWrite_kept {z : State} (s : State) (src off n : Nat) (hz : Kept z s) : Kept z (controlWrite s src off n).1 := by
  unfold controlWrite
  repeat' first
    | with_reducible assumption
    | with_reducible apply eventLimited_kept
    | (with_reducible refine Kept.iteP (fun _ => ?_) (fun _ => ?_))

theorem performWrite_kept {z : State} (s : State) (src target tile jobTag addr : Nat) (data : List Byte) (hz : Kept z s) : Kept z (performWrite s src target tile jobTag addr data).1 := by
  unfold performWrite
  repeat' first
    | with_reducible assumption
    | with_reducible apply event_kept
    | with_reducible apply insoleWrite_kept
    | with_reducible apply hbmWrite_kept
    | with_reducible apply controlWrite_kept
    | split

theorem performRead_kept {z : State} (s : State) (target tile jobTag addr n : Nat) (hz : Kept z s) : Kept z (performRead s target tile jobTag addr n).1 := by
  unfold performRead
  try dsimp only
  repeat' first
    | with_reducible assumption
    | with_reducible apply insoleUncorrected_kept
    | with_reducible apply hbmUncorrected_kept
    | (with_reducible refine Kept.iteP (fun _ => ?_) (fun _ => ?_))
    | split

theorem performTack_kept {z : State} (s : State) (target addr addend : Nat) (hz : Kept z s) : Kept z (performTack s target addr addend).1 := by
  unfold performTack
  repeat' first
    | with_reducible assumption
    | with_reducible apply tackAdd_kept
    | split

end Sys2Proof.Laws
end

