-- ==== Sys2Proof/Laws/KeptPrefix.lean ====
section
/-! SUPPORT. What the operations and commands of Machine/Prefix.lean keep (Safety.Kept). -/
namespace Sys2Proof.Laws
open Sys2Proof.Machine Sys2Proof.Safety

theorem readSlots_kept {z : State} (s : State) (coord dirAddr dirSize : Nat) (key : List Byte) (onDone : OnDone) (hz : Kept z s) : Kept z (readSlots s coord dirAddr dirSize key onDone) := by
  unfold readSlots
  repeat' first
    | with_reducible assumption
    | with_reducible apply issue_kept

theorem setPlan_kept {z : State} (s : State) (rid : Nat) (f : Plan → Plan) (hz : Kept z s) : Kept z (setPlan s rid f) := by
  unfold setPlan
  repeat' first
    | with_reducible assumption
    | with_reducible apply setJob_kept

theorem askPeer_kept {z : State} (s : State) (rid : Nat) (hz : Kept z s) : Kept z (askPeer s rid) := by
  unfold askPeer
  repeat' first
    | with_reducible assumption
    | with_reducible apply issue_kept
    | with_reducible apply setPlan_kept
    | split

theorem nextPeer_kept {z : State} (s : State) (rid : Nat) (hz : Kept z s) : Kept z (nextPeer s rid) := by
  unfold nextPeer
  repeat' first
    | with_reducible assumption
    | with_reducible apply askPeer_kept
    | with_reducible apply setPlan_kept

theorem startPlan_kept {z : State} (s : State) (rid h cap : Nat) (hz : Kept z s) : Kept z (startPlan s rid h cap) := by
  unfold startPlan
  repeat' first
    | with_reducible assumption
    | with_reducible apply askPeer_kept
    | with_reducible apply setJob_kept

theorem planDescIn_kept {z : State} (s : State) (rid peer status : Nat) (d : List Byte) (hz : Kept z s) : Kept z (planDescIn s rid peer status d) := by
  unfold planDescIn
  try dsimp only
  repeat' first
    | with_reducible assumption
    | with_reducible exact Kept.refl _
    | with_reducible apply nextPeer_kept
    | with_reducible apply event_kept
    | with_reducible apply setPlan_kept
    | with_reducible apply readSlots_kept
    | (with_reducible refine Kept.foldl (fun _ _ => ?_) ?_ _)
    | (with_reducible refine Kept.ite (fun _ => ?_) (fun _ => ?_))
    | split

theorem planDirIn_kept {z : State} (s : State) (rid peer key status : Nat) (d : List Byte) (hz : Kept z s) : Kept z (planDirIn s rid peer key status d) := by
  unfold planDirIn
  try dsimp only
  repeat' first
    | with_reducible assumption
    | with_reducible apply setPlan_kept
    | with_reducible apply nextPeer_kept
    | (with_reducible refine Kept.ite (fun _ => ?_) (fun _ => ?_))
    | split

theorem setFetch_kept {z : State} (s : State) (fid : Nat) (f : Fetch → Fetch) (hz : Kept z s) : Kept z (setFetch s fid f) := by
  unfold setFetch
  repeat' first
    | with_reducible assumption
    | with_reducible apply setJob_kept

theorem reportFetch_kept {z : State} (s : State) (fid : Nat) (hz : Kept z s) : Kept z (reportFetch s fid) := by
  unfold reportFetch
  repeat' first
    | with_reducible assumption
    | with_reducible apply issue_kept
    | split

theorem failFetch_kept {z : State} (s : State) (fid : Nat) (hz : Kept z s) : Kept z (failFetch s fid) := by
  unfold failFetch
  repeat' first
    | with_reducible assumption
    | with_reducible apply reportFetch_kept
    | with_reducible apply event_kept
    | with_reducible apply setFetch_kept
    | split

theorem beginFetch_kept {z : State} (s : State) (fid : Nat) (hz : Kept z s) : Kept z (beginFetch s fid) := by
  unfold beginFetch
  try dsimp only
  repeat' first
    | with_reducible assumption
    | with_reducible exact Kept.refl _
    | with_reducible apply issue_kept
    | with_reducible apply setFetch_kept
    | (with_reducible refine Kept.foldl (fun _ _ => ?_) ?_ _)
    | split

theorem fetchDescIn_kept {z : State} (s : State) (fid chip status : Nat) (d : List Byte) (hz : Kept z s) : Kept z (fetchDescIn s fid chip status d) := by
  unfold fetchDescIn
  try dsimp only
  repeat' first
    | with_reducible assumption
    | with_reducible exact Kept.refl _
    | with_reducible apply failFetch_kept
    | with_reducible apply readSlots_kept
    | with_reducible apply setFetch_kept
    | (with_reducible refine Kept.foldl (fun _ _ => ?_) ?_ _)
    | (with_reducible refine Kept.ite (fun _ => ?_) (fun _ => ?_))
    | split

theorem fetchDirIn_kept {z : State} (s : State) (fid page chip status : Nat) (d : List Byte) (hz : Kept z s) : Kept z (fetchDirIn s fid page chip status d) := by
  unfold fetchDirIn
  try dsimp only
  repeat' first
    | with_reducible assumption
    | with_reducible exact Kept.refl _
    | with_reducible apply failFetch_kept
    | with_reducible apply setFetch_kept
    | with_reducible apply issue_kept
    | (with_reducible refine Kept.foldl (fun _ _ => ?_) ?_ _)
    | split

theorem fetchDataIn_kept {z : State} (s : State) (fid page chip offset status : Nat) (d : List Byte) (hz : Kept z s) : Kept z (fetchDataIn s fid page chip offset status d) := by
  unfold fetchDataIn
  repeat' first
    | with_reducible assumption
    | with_reducible apply failFetch_kept
    | with_reducible apply setFetch_kept
    | with_reducible apply hbmWrite_kept
    | (with_reducible refine Kept.ite (fun _ => ?_) (fun _ => ?_))
    | split

theorem fetchCheckIn_kept {z : State} (s : State) (fid page chip status : Nat) (d : List Byte) (hz : Kept z s) : Kept z (fetchCheckIn s fid page chip status d) := by
  unfold fetchCheckIn
  try dsimp only
  repeat' first
    | with_reducible assumption
    | with_reducible apply setFetch_kept
    | with_reducible apply reportFetch_kept
    | with_reducible apply failFetch_kept
    | (with_reducible refine Kept.ite (fun _ => ?_) (fun _ => ?_))
    | split

theorem fetchTackIn_kept {z : State} (s : State) (fid status : Nat) (hz : Kept z s) : Kept z (fetchTackIn s fid status) := by
  unfold fetchTackIn
  repeat' first
    | with_reducible assumption
    | with_reducible apply setFetch_kept
    | with_reducible apply reportFetch_kept
    | (with_reducible refine Kept.ite (fun _ => ?_) (fun _ => ?_))

theorem execFetchTimeout_kept (tack : Nat) (s : State) {t : State} (e : execFetchTimeout tack s = .next t) : Kept s t := by
  unfold execFetchTimeout at e
  injection e with e; subst e
  repeat' first
    | with_reducible exact Kept.refl _
    | with_reducible apply failFetch_kept
    | (with_reducible refine Kept.ite (fun _ => ?_) (fun _ => ?_))

end Sys2Proof.Laws
end

