-- ==== Sys2Proof/Laws/KeptService.lean ====
section
/-! SUPPORT. What the operations and commands of Machine/Service.lean keep (Safety.Kept). -/
namespace Sys2Proof.Laws
open Sys2Proof.Machine Sys2Proof.Safety

theorem postWrite_kept {z : State} (s : State) (tile a : Nat) (bs : List Byte) (hz : Kept z s) : Kept z (postWrite s tile a bs) := by
  unfold postWrite
  repeat' first
    | with_reducible assumption
    | with_reducible apply insoleWrite_kept
    | split

theorem xferHostData_kept {z : State} (s : State) (x : Xfer) (hz : Kept z s) : Kept z (xferHostData s x).1 := by
  unfold xferHostData
  try dsimp only
  repeat' first
    | with_reducible assumption
    | with_reducible apply hostWrite_kept
    | with_reducible apply hostPut_kept
    | (with_reducible refine Kept.ite (fun _ => ?_) (fun _ => ?_))
    | (with_reducible refine Kept.iteP (fun _ => ?_) (fun _ => ?_))

theorem finishXfer_kept {z : State} (s : State) (x : Xfer) (hz : Kept z s) : Kept z (finishXfer s x) := by
  unfold finishXfer
  try dsimp only
  repeat' first
    | with_reducible apply xferHostData_kept
    | with_reducible apply hostWrite_kept
    | with_reducible apply complete_kept
    | (with_reducible refine Kept.ite (fun _ => ?_) (fun _ => ?_))
    | (with_reducible refine Kept.put ?_ ?_ ?_ ?_ ?_ ?_ ?_ ?_ ?_ ?_ ?_; with_reducible assumption)
    | with_reducible exact id
    | solve | (with_reducible apply SvcOk.keep <;> simp +contextual)

theorem pieceIn_kept {z : State} (s : State) (ring slot index : Nat) (e : TxnEnd) (hz : Kept z s) : Kept z (pieceIn s ring slot index e) := by
  unfold pieceIn
  try dsimp only
  repeat' first
    | with_reducible apply finishXfer_kept
    | (with_reducible refine Kept.ite (fun _ => ?_) (fun _ => ?_))
    | split
    | (with_reducible refine Kept.put ?_ ?_ ?_ ?_ ?_ ?_ ?_ ?_ ?_ ?_ ?_; with_reducible assumption)
    | with_reducible exact id
    | solve | (with_reducible apply SvcOk.keep <;> simp +contextual)

theorem sendBlock_kept {z : State} (s : State) (k mask : Nat) (block : List Byte) (hz : Kept z s) : Kept z (sendBlock s k mask block) := by
  unfold sendBlock
  try dsimp only
  repeat' first
    | with_reducible assumption
    | with_reducible exact Kept.refl _
    | with_reducible apply issue_kept
    | (with_reducible refine Kept.foldl (fun _ _ => ?_) ?_ _)

theorem blockIn_kept {z : State} (s : State) (k : Nat) (e : TxnEnd) (hz : Kept z s) : Kept z (blockIn s k e) := by
  unfold blockIn
  repeat' first
    | with_reducible assumption
    | with_reducible apply sendBlock_kept
    | (with_reducible refine Kept.ite (fun _ => ?_) (fun _ => ?_))
    | split

theorem onTxnEnd_kept {z : State} (s : State) (t : Txn) (e : TxnEnd) (hz : Kept z s) : Kept z (onTxnEnd s t e) := by
  unfold onTxnEnd
  try dsimp only
  repeat' first
    | with_reducible assumption
    | with_reducible apply postWrite_kept
    | with_reducible apply tackAdd_kept
    | with_reducible apply pieceIn_kept
    | with_reducible apply blockIn_kept
    | with_reducible apply eventLimited_kept
    | with_reducible apply planDescIn_kept
    | with_reducible apply planDirIn_kept
    | with_reducible apply fetchDescIn_kept
    | with_reducible apply fetchDirIn_kept
    | with_reducible apply fetchDataIn_kept
    | with_reducible apply fetchCheckIn_kept
    | with_reducible apply fetchTackIn_kept
    | (with_reducible refine Kept.ite (fun _ => ?_) (fun _ => ?_))
    | split

theorem endTxnAs_kept {z : State} (s : State) (t : Txn) (e : TxnEnd) (hz : Kept z s) : Kept z (endTxnAs s t e) := by
  unfold endTxnAs
  try dsimp only
  repeat' first
    | with_reducible apply event_kept
    | with_reducible apply onTxnEnd_kept
    | with_reducible apply pumpIssue_kept
    | (with_reducible refine Kept.ite (fun _ => ?_) (fun _ => ?_))
    | (with_reducible refine Kept.put ?_ ?_ ?_ ?_ ?_ ?_ ?_ ?_ ?_ ?_ ?_; with_reducible assumption)
    | with_reducible exact id
    | solve | (with_reducible apply SvcOk.keep <;> simp +contextual)

theorem endTxn_kept {z : State} (s : State) (t : Txn) (hz : Kept z s) : Kept z (endTxn s t) := endTxnAs_kept s t _ hz

theorem execCompletionTimeout_kept (txn : Nat) (s : State) {t : State} (e : execCompletionTimeout txn s = .next t) : Kept s t := by
  unfold execCompletionTimeout at e
  injection e with e; subst e
  try dsimp only
  repeat' first
    | with_reducible exact Kept.refl _
    | with_reducible apply endTxnAs_kept
    | split
    | (with_reducible refine Kept.put ?_ ?_ ?_ ?_ ?_ ?_ ?_ ?_ ?_ ?_ ?_; with_reducible exact Kept.refl _)
    | with_reducible exact id
    | solve | (with_reducible apply SvcOk.keep <;> simp +contextual)

theorem malformed_kept {z : State} (s : State) (h : List Byte) (hz : Kept z s) : Kept z (malformed s h) := by
  unfold malformed
  try dsimp only
  repeat' first
    | with_reducible assumption
    | with_reducible apply event_kept
    | with_reducible apply refusePkt_kept
    | (with_reducible refine Kept.ite (fun _ => ?_) (fun _ => ?_))

theorem unroutable_kept {z : State} (s : State) (h : List Byte) (sub : Nat) (hz : Kept z s) : Kept z (unroutable s h sub) := by
  unfold unroutable
  repeat' first
    | with_reducible assumption
    | with_reducible apply refusePkt_kept
    | with_reducible apply event_kept

theorem countSpread_kept {z : State} (s : State) (h : List Byte) (hz : Kept z s) : Kept z (countSpread s h) := by
  unfold countSpread
  try dsimp only
  repeat' first
    | with_reducible assumption
    | with_reducible apply choose_kept
    | (with_reducible refine Kept.ite (fun _ => ?_) (fun _ => ?_))
    | split

theorem routeEyelet_kept {z : State} (s : State) (k vc : Nat) (hz : Kept z s) : Kept z (routeEyelet s k vc) := by
  unfold routeEyelet
  try dsimp only
  repeat' first
    | with_reducible assumption
    | with_reducible apply credBack_kept
    | with_reducible apply setEyelet_kept
    | with_reducible apply touchBank_kept
    | with_reducible apply startRoute_kept
    | with_reducible apply malformed_kept
    | with_reducible apply unroutable_kept
    | with_reducible apply refusePkt_kept
    | with_reducible apply countSpread_kept
    | (with_reducible refine Kept.ite (fun _ => ?_) (fun _ => ?_))
    | split

theorem routeWhole_kept {z : State} (s taken : State) (ingress cls : Nat) (p : Pkt) (hs : Kept z s) (hz : Kept z taken) :
    Kept z (routeWhole s taken ingress cls p) := by
  unfold routeWhole
  dsimp only
  repeat' first
    | with_reducible assumption
    | with_reducible exact Kept.refl _
    | with_reducible apply touchBank_kept
    | with_reducible apply malformed_kept
    | with_reducible apply unroutable_kept
    | with_reducible apply refusePkt_kept
    | with_reducible apply countSpread_kept
    | with_reducible apply queueUnit_kept
    | with_reducible apply spreadCopies_kept
    | with_reducible apply endTxn_kept
    | with_reducible refine Kept.foldl (fun _ _ => ?_) ?_ _
    | (with_reducible refine Kept.ite (fun _ => ?_) (fun _ => ?_))
    | split
    | (with_reducible refine Kept.put ?_ id id id (SvcOk.keep rfl) id id id id id id)

theorem freePost_kept {z : State} (s : State) (o : Owner) (hz : Kept z s) : Kept z (freePost s o) := by
  unfold freePost
  try dsimp only
  repeat' first
    | with_reducible assumption
    | with_reducible apply setJob_kept
    | split

theorem execServiceHeaderRoute_kept (eyelet vc : Nat) (s : State) {t : State} (e : execServiceHeaderRoute eyelet vc s = .next t) : Kept s t := by
  unfold execServiceHeaderRoute at e
  injection e with e; subst e
  try dsimp only
  repeat' first
    | with_reducible exact Kept.refl _
    | with_reducible apply routeEyelet_kept
    | with_reducible apply routeWhole_kept
    | with_reducible apply freePost_kept
    | (with_reducible refine Kept.ite (fun _ => ?_) (fun _ => ?_))
    | split
    | (with_reducible refine Kept.put ?_ ?_ ?_ ?_ ?_ ?_ ?_ ?_ ?_ ?_ ?_; with_reducible exact Kept.refl _)
    | with_reducible exact id
    | solve | (with_reducible apply SvcOk.keep <;> simp +contextual)

theorem takeHere_kept {z : State} {s t : State} {k vc op : Nat} {p : Pkt} (e : takeHere s k vc op = some (p, t))
    (hz : Kept z s) : Kept z t := by
  unfold takeHere at e
  split at e
  · split at e
    · injection e with e
      injection e with _ e
      subst e
      exact moved_kept _ _ _ (Kept.put hz id id id (SvcOk.keep rfl) id id id id id id)
    · exact nomatch e
  · exact nomatch e

theorem execWrite_kept (eyelet vc : Nat) (s : State) {t : State} (e : execWrite eyelet vc s = .next t) : Kept s t := by
  unfold execWrite at e
  injection e with e; subst e
  try dsimp only
  repeat' first
    | with_reducible exact Kept.refl _
    | with_reducible apply malformed_kept
    | with_reducible apply sendReply_kept
    | with_reducible apply event_kept
    | with_reducible apply performWrite_kept
    | (with_reducible refine Kept.ite (fun _ => ?_) (fun _ => ?_))
    | with_reducible refine takeHere_kept (by assumption) ?_
    | split

theorem execRead_kept (eyelet vc : Nat) (s : State) {t : State} (e : execRead eyelet vc s = .next t) : Kept s t := by
  unfold execRead at e
  injection e with e; subst e
  try dsimp only
  repeat' first
    | with_reducible exact Kept.refl _
    | with_reducible apply performRead_kept
    | with_reducible apply sendReply_kept
    | (with_reducible refine Kept.ite (fun _ => ?_) (fun _ => ?_))
    | with_reducible refine takeHere_kept (by assumption) ?_
    | split

theorem execTackAdd_kept (eyelet vc : Nat) (s : State) {t : State} (e : execTackAdd eyelet vc s = .next t) : Kept s t := by
  unfold execTackAdd at e
  injection e with e; subst e
  try dsimp only
  repeat' first
    | with_reducible exact Kept.refl _
    | with_reducible apply sendReply_kept
    | with_reducible apply performTack_kept
    | (with_reducible refine Kept.ite (fun _ => ?_) (fun _ => ?_))
    | with_reducible refine takeHere_kept (by assumption) ?_
    | split

theorem takeReply_kept {z : State} (s : State) (op : Nat) (p : Pkt) (hz : Kept z s) : Kept z (takeReply s op p) := by
  unfold takeReply
  try dsimp only
  repeat' first
    | with_reducible assumption
    | with_reducible apply event_kept
    | with_reducible apply malformed_kept
    | with_reducible apply endTxn_kept
    | (with_reducible refine Kept.ite (fun _ => ?_) (fun _ => ?_))
    | split
    | (with_reducible refine Kept.put ?_ ?_ ?_ ?_ ?_ ?_ ?_ ?_ ?_ ?_ ?_
       first
         | with_reducible assumption
         | with_reducible apply event_kept
       )
    | with_reducible exact id
    | solve | (with_reducible apply SvcOk.keep <;> simp +contextual)

theorem execWriteDone_kept (eyelet vc : Nat) (s : State) {t : State} (e : execWriteDone eyelet vc s = .next t) : Kept s t := by
  unfold execWriteDone at e
  injection e with e; subst e
  repeat' first
    | with_reducible exact Kept.refl _
    | with_reducible apply takeReply_kept
    | with_reducible refine takeHere_kept (by assumption) ?_
    | split

theorem execReadData_kept (eyelet vc : Nat) (s : State) {t : State} (e : execReadData eyelet vc s = .next t) : Kept s t := by
  unfold execReadData at e
  injection e with e; subst e
  repeat' first
    | with_reducible exact Kept.refl _
    | with_reducible apply takeReply_kept
    | with_reducible refine takeHere_kept (by assumption) ?_
    | split

theorem execTackDone_kept (eyelet vc : Nat) (s : State) {t : State} (e : execTackDone eyelet vc s = .next t) : Kept s t := by
  unfold execTackDone at e
  injection e with e; subst e
  repeat' first
    | with_reducible exact Kept.refl _
    | with_reducible apply takeReply_kept
    | with_reducible refine takeHere_kept (by assumption) ?_
    | split

end Sys2Proof.Laws
end

