-- ==== Sys2Proof/Laws/KeptDescOps.lean ====
section
/-! SUPPORT. What the operations and commands of Machine/DescOps.lean keep (Safety.Kept). -/
namespace Sys2Proof.Laws
open Sys2Proof.Machine Sys2Proof.Safety

theorem refuseDesc_kept {z : State} (s : State) (d : Desc) (status sub : Nat) (result : List Byte) (hz : Kept z s) : Kept z (refuseDesc s d status sub result) := by
  unfold refuseDesc
  repeat' first
    | with_reducible assumption
    | with_reducible apply refuseSlot_kept
    | with_reducible apply complete_kept
    | with_reducible apply eventLimited_kept

theorem badDesc_kept {z : State} (s : State) (d : Desc) (sub : Nat) (hz : Kept z s) : Kept z (badDesc s d sub) := by
  unfold badDesc
  repeat' first
    | with_reducible assumption
    | with_reducible apply refuseDesc_kept

theorem badState_kept {z : State} (s : State) (d : Desc) (sub : Nat) (hz : Kept z s) : Kept z (badState s d sub) := by
  unfold badState
  repeat' first
    | with_reducible assumption
    | with_reducible apply refuseDesc_kept

theorem doneDesc_kept {z : State} (s : State) (d : Desc) (result : List Byte) (flags : Nat) (hz : Kept z s) : Kept z (doneDesc s d result flags) := by
  unfold doneDesc
  repeat' first
    | with_reducible assumption
    | with_reducible apply refuseSlot_kept
    | with_reducible apply complete_kept

theorem badFrame_kept {z : State} (s : State) (d : Desc) (hz : Kept z s) : Kept z (badFrame s d) := by
  unfold badFrame
  repeat' first
    | with_reducible assumption
    | with_reducible apply badDesc_kept
    | with_reducible apply eventLimited_kept

theorem startDesc_kept {z : State} (s : State) (d : Desc) (run : State → Desc → State) (hr : ∀ x d, Kept x (run x d))
    (hz : Kept z s) : Kept z (startDesc s d run) := by
  unfold startDesc
  dsimp only
  split
  · exact badState_kept _ _ _ (setRing_kept _ _ _ hz)
  · exact Kept.trans (setRing_kept _ _ _ hz) (hr _ _)

theorem readDesc_kept {z : State} (s : State) (d : Desc) (i : Instr) (run : State → Desc → State)
    (hr : ∀ x d, Kept x (run x d)) (hz : Kept z s) : Kept z (readDesc s d i run) := by
  unfold readDesc
  dsimp only
  repeat' first
    | with_reducible assumption
    | with_reducible apply badDesc_kept
    | with_reducible apply setRing_kept
    | with_reducible apply startDesc_kept
    | with_reducible refine Kept.of_pair (by assumption) ?_
    | with_reducible apply tackWait_kept
    | (with_reducible refine Kept.ite (fun _ => ?_) (fun _ => ?_))
    | split
    | (with_reducible refine Kept.put ?_ id id id id id id id id id id)

theorem onDesc_kept {z : State} (s : State) (d : Desc) (i : Instr) (mine : Bool) (run : State → Desc → State)
    (hr : ∀ x d, Kept x (run x d)) (hz : Kept z s) : Kept z (onDesc s d i mine run) := by
  unfold onDesc
  refine Kept.ite (fun _ => hz) fun _ => Kept.ite
    (fun _ => Kept.ite (fun _ => readDesc_kept _ _ _ _ hr hz) fun _ => hz) fun _ => ?_
  split
  · exact Kept.ite (fun _ => startDesc_kept _ _ _ hr hz) fun _ => hz
  · exact hz

end Sys2Proof.Laws
end

