-- ==== Sys2Proof/Laws/KeptRings.lean ====
section
/-! SUPPORT. What the operations and commands of Machine/Rings.lean keep (Safety.Kept). -/
namespace Sys2Proof.Laws
open Sys2Proof.Machine Sys2Proof.Safety

theorem execDoorbellPoll_kept (s : State) {t : State} (e : execDoorbellPoll s = .next t) : Kept s t := by
  unfold execDoorbellPoll at e
  injection e with e; subst e
  repeat' first
    | with_reducible exact Kept.refl _
    | with_reducible apply issuePoll_kept
    | (with_reducible refine Kept.ite (fun _ => ?_) (fun _ => ?_))

theorem quarantine_kept {z : State} (s : State) (r cause a b : Nat) (hz : Kept z s) : Kept z (quarantine s r cause a b) := by
  unfold quarantine
  try dsimp only
  repeat' first
    | with_reducible assumption
    | with_reducible exact Kept.refl _
    | with_reducible apply eventLimited_kept
    | with_reducible apply setRing_kept
    | with_reducible apply postCpl_kept
    | with_reducible apply endOutst_kept
    | (with_reducible refine Kept.foldl (fun _ _ => ?_) ?_ _)
    | (with_reducible refine Kept.ite (fun _ => ?_) (fun _ => ?_))

theorem judgeCq_kept {z : State} (s : State) (r w : Nat) (hz : Kept z s) : Kept z (judgeCq s r w) := by
  unfold judgeCq
  try dsimp only
  repeat' first
    | with_reducible assumption
    | with_reducible apply quarantine_kept
    | with_reducible apply setRing_kept
    | with_reducible apply drainRing_kept
    | (with_reducible refine Kept.ite (fun _ => ?_) (fun _ => ?_))
    | split

theorem flushOverrun_kept {z : State} (s : State) (r : Nat) (hz : Kept z s) : Kept z (flushOverrun s r) := by
  unfold flushOverrun
  try dsimp only
  repeat' first
    | with_reducible assumption
    | with_reducible apply setRing_kept
    | with_reducible apply putRecord_kept
    | (with_reducible refine Kept.ite (fun _ => ?_) (fun _ => ?_))

theorem judgeRing_kept {z : State} (page : List Byte) (s : State) (r : Nat) (hz : Kept z s) : Kept z (judgeRing page s r) := by
  unfold judgeRing
  try dsimp only
  repeat' first
    | with_reducible assumption
    | with_reducible apply setRing_kept
    | with_reducible apply quarantine_kept
    | with_reducible apply flushOverrun_kept
    | with_reducible apply judgeCq_kept
    | (with_reducible refine Kept.ite (fun _ => ?_) (fun _ => ?_))
    | split

theorem readSlotsOf_kept {z : State} (r : Nat) : ∀ (fuel : Nat) {s : State}, Kept z s → Kept z (readSlotsOf r fuel s)
  | 0, _, hz => hz
  | fuel + 1, s, hz => by
    unfold readSlotsOf
    try dsimp only
    repeat' first
      | with_reducible apply readSlotsOf_kept
      | with_reducible apply setRing_kept
      | (with_reducible refine Kept.put ?_ ?_ ?_ ?_ ?_ ?_ ?_ ?_ ?_ ?_ ?_; with_reducible assumption)
      | with_reducible exact id
      | solve | (with_reducible apply HostOk.keep <;> simp +contextual)

theorem serveRing_kept {z : State} (page : List Byte) (s : State) (r : Nat) (hz : Kept z s) : Kept z (serveRing page s r) := by
  unfold serveRing
  try dsimp only
  repeat' first
    | with_reducible assumption
    | with_reducible apply readSlotsOf_kept
    | (with_reducible refine Kept.ite (fun _ => ?_) (fun _ => ?_))
    | split

theorem serveSolve_kept {z : State} (page : List Byte) (s : State) (hz : Kept z s) : Kept z (serveSolve page s) := by
  unfold serveSolve
  try dsimp only
  repeat' first
    | with_reducible assumption
    | with_reducible apply readSlotsOf_kept
    | (with_reducible refine Kept.ite (fun _ => ?_) (fun _ => ?_))
    | split
    | (with_reducible refine Kept.put ?_ ?_ ?_ ?_ ?_ ?_ ?_ ?_ ?_ ?_ ?_; with_reducible assumption)
    | with_reducible exact id
    | solve | (with_reducible apply ShankOk.keep <;> simp +contextual)

theorem execDoorbellReadComplete_kept (words : List Byte) (s : State) {t : State} (e : execDoorbellReadComplete words s = .next t) : Kept s t := by
  unfold execDoorbellReadComplete at e
  injection e with e; subst e
  try dsimp only
  repeat' first
    | with_reducible exact Kept.refl _
    | with_reducible apply judgeRing_kept
    | with_reducible apply serveSolve_kept
    | with_reducible apply serveRing_kept
    | with_reducible apply issuePoll_kept
    | (with_reducible refine Kept.foldl (fun _ _ => ?_) ?_ _)
    | (with_reducible refine Kept.ite (fun _ => ?_) (fun _ => ?_))
    | (with_reducible refine Kept.put ?_ ?_ ?_ ?_ ?_ ?_ ?_ ?_ ?_ ?_ ?_
       first
         | with_reducible exact Kept.refl _
         | with_reducible apply serveSolve_kept
       )
    | with_reducible exact id
    | solve | (with_reducible apply HostOk.keep <;> simp +contextual)

theorem unreadable_kept {z : State} (s : State) (r slot : Nat) (hz : Kept z s) : Kept z (unreadable s r slot) := by
  unfold unreadable
  try dsimp only
  repeat' first
    | with_reducible assumption
    | with_reducible apply setRing_kept
    | with_reducible apply postCpl_kept

theorem restOfBatch_kept {z : State} (s : State) (b : Batch) (i status sub : Nat) (hz : Kept z s) : Kept z (restOfBatch s b i status sub) := by
  unfold restOfBatch
  repeat' first
    | with_reducible assumption
    | with_reducible exact Kept.refl _
    | with_reducible apply hostWrite_kept
    | (with_reducible refine Kept.foldl (fun _ _ => ?_) ?_ _)

theorem abandon_kept {z : State} (s : State) (r slot : Nat) (write : Bool) (hz : Kept z s) : Kept z (abandon s r slot write) := by
  unfold abandon
  try dsimp only
  repeat' first
    | with_reducible assumption
    | with_reducible apply hostPut_kept
    | with_reducible apply restOfBatch_kept
    | with_reducible apply setJob_kept
    | (with_reducible refine Kept.ite (fun _ => ?_) (fun _ => ?_))
    | split
    | (with_reducible refine Kept.put ?_ ?_ ?_ ?_ ?_ ?_ ?_ ?_ ?_ ?_ ?_
       first
         | with_reducible assumption
         | with_reducible apply hostPut_kept
         | with_reducible apply restOfBatch_kept
       )
    | with_reducible exact id
    | solve | (with_reducible apply SvcOk.keep <;> simp +contextual)
    | solve | (with_reducible apply ShankOk.keep <;> simp +contextual)

theorem dataFault_kept {z : State} (s : State) (r slot sub : Nat) (desc : List Byte) (hz : Kept z s) : Kept z (dataFault s r slot sub desc) := by
  unfold dataFault
  try dsimp only
  repeat' first
    | with_reducible assumption
    | with_reducible apply setRing_kept
    | with_reducible apply failRequest_kept
    | with_reducible apply complete_kept
    | with_reducible apply abandon_kept
    | (with_reducible refine Kept.ite (fun _ => ?_) (fun _ => ?_))
    | split

theorem execHostDmaFault_kept (kind ring index addr : Nat) (desc : List Byte) (s : State) {t : State} (e : execHostDmaFault kind ring index addr desc s = .next t) : Kept s t := by
  unfold execHostDmaFault at e
  injection e with e; subst e
  try dsimp only
  repeat' first
    | with_reducible exact Kept.refl _
    | with_reducible apply eventLimited_kept
    | with_reducible apply unreadable_kept
    | with_reducible apply dataFault_kept
    | with_reducible apply quarantine_kept
    | (with_reducible refine Kept.ite (fun _ => ?_) (fun _ => ?_))
    | split
    | (with_reducible refine Kept.put ?_ ?_ ?_ ?_ ?_ ?_ ?_ ?_ ?_ ?_ ?_; with_reducible exact Kept.refl _)
    | with_reducible exact id
    | solve | (with_reducible apply HostOk.keep <;> simp +contextual)

end Sys2Proof.Laws
end

