-- ==== Sys2Proof/Laws/KeptCommands.lean ====
section
/-! SUPPORT. What the operations and commands of Machine/Commands.lean keep (Safety.Kept). -/
namespace Sys2Proof.Laws
open Sys2Proof.Machine Sys2Proof.Safety

theorem execNop_kept (d : Desc) (s : State) {t : State} (e : execNop d s = .next t) : Kept s t := by
  unfold execNop at e
  injection e with e; subst e
  repeat' first
    | with_reducible exact Kept.refl _
    | with_reducible apply onDesc_kept
    | with_reducible apply doneDesc_kept
    | intro _

theorem execQuery_kept (d : Desc) (s : State) {t : State} (e : execQuery d s = .next t) : Kept s t := by
  unfold execQuery at e
  injection e with e; subst e
  repeat' first
    | with_reducible exact Kept.refl _
    | with_reducible apply onDesc_kept
    | with_reducible apply doneDesc_kept
    | intro _

theorem runLogRead_kept {z : State} (s : State) (d : Desc) (hz : Kept z s) : Kept z (runLogRead s d) := by
  unfold runLogRead
  try dsimp only
  repeat' first
    | with_reducible assumption
    | with_reducible apply doneDesc_kept
    | with_reducible apply badDesc_kept
    | with_reducible apply hostWrite_kept
    | (with_reducible refine Kept.ite (fun _ => ?_) (fun _ => ?_))
    | split

theorem execLogRead_kept (d : Desc) (s : State) {t : State} (e : execLogRead d s = .next t) : Kept s t := by
  unfold execLogRead at e
  injection e with e; subst e
  repeat' first
    | with_reducible exact Kept.refl _
    | with_reducible apply onDesc_kept
    | with_reducible apply runLogRead_kept
    | intro _

theorem addOrder_kept {z : State} (s : State) (ring : Nat) (o : Order) (hz : Kept z s) : Kept z (addOrder s ring o) := by
  unfold addOrder
  try dsimp only
  repeat' first
    | (with_reducible refine Kept.put ?_ ?_ ?_ ?_ ?_ ?_ ?_ ?_ ?_ ?_ ?_; with_reducible assumption)
    | with_reducible exact id
    | solve | (with_reducible apply HeelOk.keep <;> simp +contextual)

theorem runSetBudget_kept {z : State} (s : State) (d : Desc) (hz : Kept z s) : Kept z (runSetBudget s d) := by
  unfold runSetBudget
  try dsimp only
  repeat' first
    | with_reducible assumption
    | with_reducible apply addOrder_kept
    | with_reducible apply event_kept
    | with_reducible apply doneDesc_kept
    | (with_reducible refine Kept.ite (fun _ => ?_) (fun _ => ?_))

theorem execSetBudget_kept (d : Desc) (s : State) {t : State} (e : execSetBudget d s = .next t) : Kept s t := by
  unfold execSetBudget at e
  injection e with e; subst e
  repeat' first
    | with_reducible exact Kept.refl _
    | with_reducible apply onDesc_kept
    | with_reducible apply runSetBudget_kept
    | intro _

theorem runSetPaceLimit_kept {z : State} (s : State) (d : Desc) (hz : Kept z s) : Kept z (runSetPaceLimit s d) := by
  unfold runSetPaceLimit
  try dsimp only
  repeat' first
    | with_reducible assumption
    | with_reducible apply addOrder_kept
    | with_reducible apply event_kept
    | with_reducible apply doneDesc_kept
    | (with_reducible refine Kept.ite (fun _ => ?_) (fun _ => ?_))

theorem execSetPaceLimit_kept (d : Desc) (s : State) {t : State} (e : execSetPaceLimit d s = .next t) : Kept s t := by
  unfold execSetPaceLimit at e
  injection e with e; subst e
  repeat' first
    | with_reducible exact Kept.refl _
    | with_reducible apply onDesc_kept
    | with_reducible apply runSetPaceLimit_kept
    | intro _

theorem runTileRetire_kept {z : State} (s : State) (d : Desc) (hz : Kept z s) : Kept z (runTileRetire s d) := by
  unfold runTileRetire
  try dsimp only
  repeat' first
    | with_reducible assumption
    | with_reducible apply badDesc_kept
    | with_reducible apply setTile_kept
    | with_reducible apply doneDesc_kept
    | with_reducible apply event_kept
    | with_reducible apply retireTile_kept
    | (with_reducible refine Kept.ite (fun _ => ?_) (fun _ => ?_))
    | split

theorem execTileRetire_kept (d : Desc) (s : State) {t : State} (e : execTileRetire d s = .next t) : Kept s t := by
  unfold execTileRetire at e
  injection e with e; subst e
  repeat' first
    | with_reducible exact Kept.refl _
    | with_reducible apply onDesc_kept
    | with_reducible apply runTileRetire_kept
    | intro _

theorem retrain_kept {z : State} (s : State) (k : Nat) (hz : Kept z s) : Kept z (retrain s k) := by
  unfold retrain
  repeat' first
    | with_reducible assumption
    | with_reducible apply takeDown_kept
    | (with_reducible refine Kept.ite (fun _ => ?_) (fun _ => ?_))

theorem unbridge_kept {z : State} (s : State) (k : Nat) (hz : Kept z s) : Kept z (unbridge s k) := by
  unfold unbridge
  repeat' first
    | with_reducible assumption
    | with_reducible apply setEyelet_kept
    | with_reducible apply retrain_kept
    | split

theorem runLinkRetrain_kept {z : State} (s : State) (d : Desc) (hz : Kept z s) : Kept z (runLinkRetrain s d) := by
  unfold runLinkRetrain
  try dsimp only
  repeat' first
    | with_reducible assumption
    | with_reducible apply badState_kept
    | with_reducible apply retrain_kept
    | with_reducible apply unbridge_kept
    | with_reducible apply setEyelet_kept
    | with_reducible apply doneDesc_kept
    | (with_reducible refine Kept.ite (fun _ => ?_) (fun _ => ?_))

theorem execLinkRetrain_kept (d : Desc) (s : State) {t : State} (e : execLinkRetrain d s = .next t) : Kept s t := by
  unfold execLinkRetrain at e
  injection e with e; subst e
  repeat' first
    | with_reducible exact Kept.refl _
    | with_reducible apply onDesc_kept
    | with_reducible apply runLinkRetrain_kept
    | intro _

theorem runPageRetire_kept {z : State} (s : State) (d : Desc) (hz : Kept z s) : Kept z (runPageRetire s d) := by
  unfold runPageRetire
  try dsimp only
  repeat' first
    | with_reducible apply complete_kept
    | with_reducible assumption
    | with_reducible apply refuseDesc_kept
    | with_reducible apply badState_kept
    | with_reducible apply doneDesc_kept
    | with_reducible apply event_kept
    | (with_reducible refine Kept.ite (fun _ => ?_) (fun _ => ?_))
    | (with_reducible refine Kept.put ?_ ?_ ?_ ?_ ?_ ?_ ?_ ?_ ?_ ?_ ?_; with_reducible assumption)
    | with_reducible exact id
    | solve | (with_reducible apply MemOk.keep <;> simp +contextual)

theorem execPageRetire_kept (d : Desc) (s : State) {t : State} (e : execPageRetire d s = .next t) : Kept s t := by
  unfold execPageRetire at e
  injection e with e; subst e
  repeat' first
    | with_reducible exact Kept.refl _
    | with_reducible apply onDesc_kept
    | with_reducible apply runPageRetire_kept
    | intro _

theorem resumeDeferred_kept {z : State} (s : State) (hz : Kept z s) : Kept z (resumeDeferred s) := by
  unfold resumeDeferred
  try dsimp only
  repeat' first
    | with_reducible exact Kept.refl _
    | with_reducible apply setRing_kept
    | (with_reducible refine Kept.foldl (fun _ _ => ?_) ?_ _)
    | (with_reducible refine Kept.put ?_ ?_ ?_ ?_ ?_ ?_ ?_ ?_ ?_ ?_ ?_; with_reducible assumption)
    | with_reducible exact id

theorem deferDesc_kept {z : State} (s : State) (d : Desc) (i : Instr) (hz : Kept z s) : Kept z (deferDesc s d i) := by
  unfold deferDesc
  repeat' first
    | with_reducible apply setRing_kept
    | (with_reducible refine Kept.put ?_ ?_ ?_ ?_ ?_ ?_ ?_ ?_ ?_ ?_ ?_; with_reducible assumption)
    | with_reducible exact id

theorem execPageRetireCopyDone_kept (s : State) {t : State} (e : execPageRetireCopyDone s = .next t) : Kept s t := by
  unfold execPageRetireCopyDone at e
  injection e with e; subst e
  try dsimp only
  repeat' first
    | with_reducible exact Kept.refl _
    | with_reducible apply resumeDeferred_kept
    | with_reducible apply complete_kept
    | with_reducible apply event_kept
    | split
    | (with_reducible refine Kept.put ?_ ?_ ?_ ?_ ?_ ?_ ?_ ?_ ?_ ?_ ?_; with_reducible exact Kept.refl _)
    | with_reducible exact id
    | solve | (with_reducible apply MemOk.keep <;> simp +contextual)

theorem runTableRouting_kept {z : State} (image : List Byte) (s : State) (d : Desc) (hz : Kept z s) : Kept z (runTableRouting image s d) := by
  unfold runTableRouting
  try dsimp only
  repeat' first
    | with_reducible assumption
    | with_reducible apply badState_kept
    | with_reducible apply badFrame_kept
    | with_reducible apply badDesc_kept
    | with_reducible apply doneDesc_kept
    | (with_reducible refine Kept.ite (fun _ => ?_) (fun _ => ?_))
    | split
    | (with_reducible refine Kept.put ?_ ?_ ?_ ?_ ?_ ?_ ?_ ?_ ?_ ?_ ?_; with_reducible assumption)
    | with_reducible exact id
    | solve | (with_reducible apply SvcOk.keep <;> simp +contextual)

theorem execTableLoadRouting_kept (d : Desc) (image : List Byte) (s : State) {t : State} (e : execTableLoadRouting d image s = .next t) : Kept s t := by
  unfold execTableLoadRouting at e
  injection e with e; subst e
  repeat' first
    | with_reducible exact Kept.refl _
    | with_reducible apply onDesc_kept
    | with_reducible apply runTableRouting_kept
    | intro _

theorem runTablePeer_kept {z : State} (image : List Byte) (s : State) (d : Desc) (hz : Kept z s) : Kept z (runTablePeer image s d) := by
  unfold runTablePeer
  try dsimp only
  repeat' first
    | with_reducible assumption
    | with_reducible apply badState_kept
    | with_reducible apply badFrame_kept
    | with_reducible apply badDesc_kept
    | with_reducible apply doneDesc_kept
    | with_reducible apply setJob_kept
    | (with_reducible refine Kept.ite (fun _ => ?_) (fun _ => ?_))
    | split

theorem execTableLoadPeer_kept (d : Desc) (image : List Byte) (s : State) {t : State} (e : execTableLoadPeer d image s = .next t) : Kept s t := by
  unfold execTableLoadPeer at e
  injection e with e; subst e
  repeat' first
    | with_reducible exact Kept.refl _
    | with_reducible apply onDesc_kept
    | with_reducible apply runTablePeer_kept
    | intro _

theorem runTableTemplate_kept {z : State} (image : List Byte) (s : State) (d : Desc) (hz : Kept z s) : Kept z (runTableTemplate image s d) := by
  unfold runTableTemplate
  try dsimp only
  repeat' first
    | with_reducible assumption
    | with_reducible apply badFrame_kept
    | with_reducible apply badDesc_kept
    | with_reducible apply doneDesc_kept
    | (with_reducible refine Kept.ite (fun _ => ?_) (fun _ => ?_))
    | split
    | (with_reducible refine Kept.put ?_ ?_ ?_ ?_ ?_ ?_ ?_ ?_ ?_ ?_ ?_; with_reducible assumption)
    | with_reducible exact id
    | solve | (with_reducible apply ShankOk.keep <;> simp +contextual)

theorem execTableLoadTemplate_kept (d : Desc) (image : List Byte) (s : State) {t : State} (e : execTableLoadTemplate d image s = .next t) : Kept s t := by
  unfold execTableLoadTemplate at e
  injection e with e; subst e
  repeat' first
    | with_reducible exact Kept.refl _
    | with_reducible apply onDesc_kept
    | with_reducible apply runTableTemplate_kept
    | intro _

theorem execTemplateLoadComplete_kept (s : State) {t : State} (e : execTemplateLoadComplete s = .next t) : Kept s t := by
  unfold execTemplateLoadComplete at e
  injection e with e; subst e
  try dsimp only
  repeat' first
    | with_reducible exact Kept.refl _
    | with_reducible apply complete_kept
    | split
    | (with_reducible refine Kept.put ?_ ?_ ?_ ?_ ?_ ?_ ?_ ?_ ?_ ?_ ?_; with_reducible exact Kept.refl _)
    | with_reducible exact id
    | solve | (with_reducible apply ShankOk.keep <;> simp +contextual)

theorem runTableKey_kept {z : State} (image : List Byte) (s : State) (d : Desc) (hz : Kept z s) : Kept z (runTableKey image s d) := by
  unfold runTableKey
  try dsimp only
  repeat' first
    | with_reducible assumption
    | with_reducible apply doneDesc_kept
    | with_reducible apply badFrame_kept
    | with_reducible apply badDesc_kept
    | (with_reducible refine Kept.ite (fun _ => ?_) (fun _ => ?_))
    | split
    | (with_reducible refine Kept.put ?_ ?_ ?_ ?_ ?_ ?_ ?_ ?_ ?_ ?_ ?_; with_reducible assumption)
    | with_reducible exact id
    | solve | simp

theorem execTableLoadKey_kept (d : Desc) (image : List Byte) (s : State) {t : State} (e : execTableLoadKey d image s = .next t) : Kept s t := by
  unfold execTableLoadKey at e
  injection e with e; subst e
  repeat' first
    | with_reducible exact Kept.refl _
    | with_reducible apply onDesc_kept
    | with_reducible apply runTableKey_kept
    | intro _

end Sys2Proof.Laws
end

