-- ==== Sys2Proof/Laws/KeptXfer.lean ====
section
/-! SUPPORT. What the operations and commands of Machine/Xfer.lean keep (Safety.Kept). -/
namespace Sys2Proof.Laws
open Sys2Proof.Machine Sys2Proof.Safety

theorem localWrites_kept {z : State} (d : Desc) (s : State) (cs : List (List Byte)) (hz : Kept z s) : Kept z (localWrites d s cs) := by
  unfold localWrites
  try dsimp only
  repeat' first
    | with_reducible assumption
    | with_reducible exact Kept.refl _
    | with_reducible apply performWrite_kept
    | with_reducible apply pieceIn_kept
    | (with_reducible refine Kept.foldl (fun _ _ => ?_) ?_ _)

theorem localReads_kept {z : State} (d : Desc) (s : State) (hz : Kept z s) : Kept z (localReads d s) := by
  unfold localReads
  try dsimp only
  repeat' first
    | with_reducible assumption
    | with_reducible exact Kept.refl _
    | with_reducible apply performRead_kept
    | with_reducible apply pieceIn_kept
    | (with_reducible refine Kept.foldl (fun _ _ => ?_) ?_ _)

theorem sendPiece_kept {z : State} (d : Desc) (s : State) (i len arg mask : Nat) (skive : Bool) (data : List Byte) (hz : Kept z s) : Kept z (sendPiece d s i len arg mask skive data) := by
  unfold sendPiece
  repeat' first
    | with_reducible assumption
    | with_reducible apply issue_kept

theorem sendWrites_kept {z : State} (d : Desc) (mask : Nat) (s : State) (cs : List (List Byte)) (hz : Kept z s) : Kept z (sendWrites d mask s cs) := by
  unfold sendWrites
  repeat' first
    | with_reducible assumption
    | with_reducible exact Kept.refl _
    | with_reducible apply sendPiece_kept
    | (with_reducible refine Kept.foldl (fun _ _ => ?_) ?_ _)
    | (with_reducible refine Kept.ite (fun _ => ?_) (fun _ => ?_))
    | split

theorem sendReads_kept {z : State} (d : Desc) (s : State) (hz : Kept z s) : Kept z (sendReads d s) := by
  unfold sendReads
  try dsimp only
  repeat' first
    | with_reducible assumption
    | with_reducible exact Kept.refl _
    | with_reducible apply sendPiece_kept
    | (with_reducible refine Kept.foldl (fun _ _ => ?_) ?_ _)

theorem addXfer_kept {z : State} (s : State) (x : Xfer) (hz : Kept z s) : Kept z (addXfer s x) := by
  unfold addXfer
  try dsimp only
  repeat' first
    | (with_reducible refine Kept.put ?_ ?_ ?_ ?_ ?_ ?_ ?_ ?_ ?_ ?_ ?_; with_reducible assumption)
    | with_reducible exact id
    | solve | (with_reducible apply SvcOk.keep <;> simp +contextual)

theorem runXferWrite_kept {z : State} (data mask : List Byte) (s : State) (d : Desc) (hz : Kept z s) : Kept z (runXferWrite data mask s d) := by
  unfold runXferWrite
  try dsimp only
  repeat' first
    | with_reducible assumption
    | with_reducible apply badFrame_kept
    | with_reducible apply badDesc_kept
    | with_reducible apply deferDesc_kept
    | with_reducible apply addXfer_kept
    | with_reducible apply localWrites_kept
    | with_reducible apply sendWrites_kept
    | (with_reducible refine Kept.ite (fun _ => ?_) (fun _ => ?_))
    | split

theorem execXferWrite_kept (d : Desc) (data mask : List Byte) (s : State) {t : State} (e : execXferWrite d data mask s = .next t) : Kept s t := by
  unfold execXferWrite at e
  injection e with e; subst e
  repeat' first
    | with_reducible exact Kept.refl _
    | with_reducible apply onDesc_kept
    | with_reducible apply runXferWrite_kept
    | intro _

theorem runXferRead_kept {z : State} (s : State) (d : Desc) (hz : Kept z s) : Kept z (runXferRead s d) := by
  unfold runXferRead
  try dsimp only
  repeat' first
    | with_reducible assumption
    | with_reducible apply deferDesc_kept
    | with_reducible apply addXfer_kept
    | with_reducible apply localReads_kept
    | with_reducible apply sendReads_kept
    | (with_reducible refine Kept.ite (fun _ => ?_) (fun _ => ?_))

theorem execXferRead_kept (d : Desc) (s : State) {t : State} (e : execXferRead d s = .next t) : Kept s t := by
  unfold execXferRead at e
  injection e with e; subst e
  repeat' first
    | with_reducible exact Kept.refl _
    | with_reducible apply onDesc_kept
    | with_reducible apply runXferRead_kept
    | intro _

theorem runXferTackAdd_kept {z : State} (mask : List Byte) (s : State) (d : Desc) (hz : Kept z s) : Kept z (runXferTackAdd mask s d) := by
  unfold runXferTackAdd
  try dsimp only
  repeat' first
    | with_reducible assumption
    | with_reducible apply addXfer_kept
    | with_reducible apply performTack_kept
    | with_reducible apply pieceIn_kept
    | with_reducible apply sendPiece_kept
    | (with_reducible refine Kept.ite (fun _ => ?_) (fun _ => ?_))

theorem execXferTackAdd_kept (d : Desc) (mask : List Byte) (s : State) {t : State} (e : execXferTackAdd d mask s = .next t) : Kept s t := by
  unfold execXferTackAdd at e
  injection e with e; subst e
  repeat' first
    | with_reducible exact Kept.refl _
    | with_reducible apply onDesc_kept
    | with_reducible apply runXferTackAdd_kept
    | intro _

theorem runSolve_kept {z : State} (problems : List Byte) (s : State) (d : Desc) (hz : Kept z s) : Kept z (runSolve problems s d) := by
  unfold runSolve
  try dsimp only
  repeat' first
    | with_reducible assumption
    | with_reducible apply badFrame_kept
    | split
    | (with_reducible refine Kept.put ?_ ?_ ?_ ?_ ?_ ?_ ?_ ?_ ?_ ?_ ?_; with_reducible assumption)
    | with_reducible exact id
    | solve | (with_reducible apply ShankOk.keep <;> simp +contextual)

theorem execSolve_kept (d : Desc) (problems : List Byte) (s : State) {t : State} (e : execSolve d problems s = .next t) : Kept s t := by
  unfold execSolve at e
  injection e with e; subst e
  repeat' first
    | with_reducible exact Kept.refl _
    | with_reducible apply onDesc_kept
    | with_reducible apply runSolve_kept
    | intro _

theorem execShankProblemDone_kept (s : State) {t : State} (e : execShankProblemDone s = .next t) : Kept s t := by
  unfold execShankProblemDone at e
  injection e with e; subst e
  try dsimp only
  repeat' first
    | with_reducible exact Kept.refl _
    | with_reducible apply complete_kept
    | (with_reducible refine Kept.ite (fun _ => ?_) (fun _ => ?_))
    | split
    | (with_reducible refine Kept.put ?_ ?_ ?_ ?_ ?_ ?_ ?_ ?_ ?_ ?_ ?_; with_reducible apply hostWrite_kept)
    | with_reducible exact id
    | solve | (with_reducible apply ShankOk.keep <;> simp +contextual)

end Sys2Proof.Laws
end

