-- ==== Sys2Proof/Laws/KeptLoading.lean ====
section
/-! SUPPORT. What the operations and commands of Machine/Loading.lean keep (Safety.Kept). -/
namespace Sys2Proof.Laws
open Sys2Proof.Machine Sys2Proof.Safety

theorem refuseLast_kept {z : State} (s : State) (d : Desc) (r : LastRefusal) (hz : Kept z s) : Kept z (refuseLast s d r) := by
  unfold refuseLast
  repeat' first
    | with_reducible assumption
    | with_reducible apply refuseDesc_kept
    | with_reducible apply event_kept

theorem placeConsts_kept {z : State} (s : State) (l : LoadedLast) (hz : Kept z s) : Kept z (placeConsts s l) := by
  unfold placeConsts
  repeat' first
    | with_reducible assumption
    | with_reducible exact Kept.refl _
    | with_reducible apply insoleWrite_kept
    | (with_reducible refine Kept.foldl (fun _ _ => ?_) ?_ _)

theorem lastLoaded_kept {z : State} (s : State) (hz : Kept z s) : Kept z (lastLoaded s) := by
  unfold lastLoaded
  try dsimp only
  repeat' first
    | with_reducible assumption
    | (with_reducible refine Kept.ite (fun _ => ?_) (fun _ => ?_))
    | (with_reducible refine Kept.put ?_ ?_ ?_ ?_ ?_ ?_ ?_ ?_ ?_ ?_ ?_; with_reducible assumption)
    | with_reducible exact id

theorem runLoadLast_kept {z : State} (image arr : List Byte) (sched : Schedule) (s : State) (d : Desc) (hz : Kept z s) : Kept z (runLoadLast image arr sched s d) := by
  unfold runLoadLast
  repeat' first
    | with_reducible assumption
    | with_reducible apply badState_kept
    | with_reducible apply refuseLast_kept
    | with_reducible apply doneDesc_kept
    | with_reducible apply lastLoaded_kept
    | with_reducible apply placeConsts_kept
    | with_reducible apply badFrame_kept
    | (with_reducible refine Kept.ite (fun _ => ?_) (fun _ => ?_))
    | split
    | (with_reducible refine Kept.put ?_ ?_ ?_ ?_ ?_ ?_ ?_ ?_ ?_ ?_ ?_; with_reducible assumption)
    | with_reducible exact id

theorem execLoadLast_kept (d : Desc) (image arr : List Byte) (sched : Schedule) (s : State) {t : State} (e : execLoadLast d image arr sched s = .next t) : Kept s t := by
  unfold execLoadLast at e
  injection e with e; subst e
  repeat' first
    | with_reducible exact Kept.refl _
    | with_reducible apply onDesc_kept
    | with_reducible apply runLoadLast_kept
    | intro _

theorem setLast_kept {z : State} (s : State) (digest : List Byte) (f : LoadedLast → LoadedLast) (hz : Kept z s) : Kept z (setLast s digest f) := by
  unfold setLast
  repeat' first
    | (with_reducible refine Kept.put ?_ ?_ ?_ ?_ ?_ ?_ ?_ ?_ ?_ ?_ ?_; with_reducible assumption)
    | with_reducible exact id

theorem placeBlob_kept {z : State} (s : State) (l : LoadedLast) (slot : Nat) (blob : List Byte) (hz : Kept z s) : Kept z (placeBlob s l slot blob) := by
  unfold placeBlob
  repeat' first
    | with_reducible assumption
    | with_reducible exact Kept.refl _
    | with_reducible apply insoleWrite_kept
    | (with_reducible refine Kept.foldl (fun _ _ => ?_) ?_ _)

theorem addSlice_kept {z : State} (s : State) (d : Desc) (l : LoadedLast) (blob : List Byte) (siblings : Option (List (List Byte))) (hz : Kept z s) : Kept z (addSlice s d l blob siblings) := by
  unfold addSlice
  try dsimp only
  repeat' first
    | with_reducible assumption
    | with_reducible apply placeBlob_kept
    | with_reducible apply setLast_kept
    | with_reducible apply doneDesc_kept
    | with_reducible apply badDesc_kept
    | (with_reducible refine Kept.ite (fun _ => ?_) (fun _ => ?_))
    | split

theorem runLoadWeights_kept {z : State} (blob siblings : List Byte) (s : State) (d : Desc) (hz : Kept z s) : Kept z (runLoadWeights blob siblings s d) := by
  unfold runLoadWeights
  try dsimp only
  repeat' first
    | with_reducible assumption
    | with_reducible apply badState_kept
    | with_reducible apply badDesc_kept
    | with_reducible apply complete_kept
    | with_reducible apply addSlice_kept
    | with_reducible apply badFrame_kept
    | (with_reducible refine Kept.ite (fun _ => ?_) (fun _ => ?_))
    | split

theorem execLoadWeights_kept (d : Desc) (blob siblings : List Byte) (s : State) {t : State} (e : execLoadWeights d blob siblings s = .next t) : Kept s t := by
  unfold execLoadWeights at e
  injection e with e; subst e
  repeat' first
    | with_reducible exact Kept.refl _
    | with_reducible apply onDesc_kept
    | with_reducible apply runLoadWeights_kept
    | intro _

theorem runUnload_kept {z : State} (s : State) (d : Desc) (hz : Kept z s) : Kept z (runUnload s d) := by
  unfold runUnload
  try dsimp only
  repeat' first
    | with_reducible assumption
    | with_reducible apply badState_kept
    | with_reducible apply doneDesc_kept
    | (with_reducible refine Kept.ite (fun _ => ?_) (fun _ => ?_))
    | split
    | (with_reducible refine Kept.put ?_ ?_ ?_ ?_ ?_ ?_ ?_ ?_ ?_ ?_ ?_; with_reducible assumption)
    | with_reducible exact id

theorem execUnload_kept (d : Desc) (s : State) {t : State} (e : execUnload d s = .next t) : Kept s t := by
  unfold execUnload at e
  injection e with e; subst e
  repeat' first
    | with_reducible exact Kept.refl _
    | with_reducible apply onDesc_kept
    | with_reducible apply runUnload_kept
    | intro _

end Sys2Proof.Laws
end

