-- ==== Sys2Proof/Laws/KeptSled.lean ====
section
/-! SUPPORT. What the operations and commands of Machine/Sled.lean keep (Safety.Kept). -/
namespace Sys2Proof.Laws
open Sys2Proof.Machine Sys2Proof.Safety

theorem execSledInsertion_kept (s : State) {t : State} (e : execSledInsertion s = .next t) : Kept s t := by
  unfold execSledInsertion at e
  injection e with e; subst e
  try dsimp only
  repeat' first
    | with_reducible exact Kept.refl _
    | (with_reducible refine Kept.ite (fun _ => ?_) (fun _ => ?_))
    | (with_reducible refine Kept.put ?_ ?_ ?_ ?_ ?_ ?_ ?_ ?_ ?_ ?_ ?_; with_reducible exact Kept.refl _)
    | with_reducible exact id
    | exact fun hh => ⟨rfl, hh.2⟩

theorem execPresenceBreak_kept (s : State) {t : State} (e : execPresenceBreak s = .next t) : Kept s t := by
  unfold execPresenceBreak at e
  injection e with e; subst e
  try dsimp only
  repeat' first
    | with_reducible exact Kept.refl _
    | with_reducible apply powerOff_kept
    | (with_reducible refine Kept.foldl (fun _ _ => ?_) ?_ _)
    | (with_reducible refine Kept.ite (fun _ => ?_) (fun _ => ?_))
    | (with_reducible refine Kept.put ?_ ?_ ?_ ?_ ?_ ?_ ?_ ?_ ?_ ?_ ?_; with_reducible exact Kept.refl _)
    | with_reducible exact id
    | solve | (with_reducible apply CobOk.keep <;> simp +contextual)

theorem execCobblerBoot_kept (s : State) {t : State} (e : execCobblerBoot s = .next t) : Kept s t := by
  unfold execCobblerBoot at e
  injection e with e; subst e
  try dsimp only
  repeat' first
    | with_reducible exact Kept.refl _
    | with_reducible apply sendApbel_kept
    | (with_reducible refine Kept.ite (fun _ => ?_) (fun _ => ?_))
    | (with_reducible refine Kept.put ?_ ?_ ?_ ?_ ?_ ?_ ?_ ?_ ?_ ?_ ?_
       first
         | with_reducible exact Kept.refl _
         | with_reducible apply moveValves_kept
       )
    | with_reducible exact id
    | solve | (with_reducible apply CobOk.keep <;> simp +contextual)

theorem execFlowLeakCheckEnd_kept (ok : Bool) (s : State) {t : State} (e : execFlowLeakCheckEnd ok s = .next t) : Kept s t := by
  unfold execFlowLeakCheckEnd at e
  injection e with e; subst e
  try dsimp only
  repeat' first
    | with_reducible exact Kept.refl _
    | with_reducible apply moveValves_kept
    | with_reducible apply powerOn_kept
    | (with_reducible refine Kept.foldl (fun _ _ => ?_) ?_ _)
    | (with_reducible refine Kept.ite (fun _ => ?_) (fun _ => ?_))
    | (with_reducible refine Kept.put ?_ ?_ ?_ ?_ ?_ ?_ ?_ ?_ ?_ ?_ ?_; with_reducible exact Kept.refl _)
    | with_reducible exact id
    | solve | (with_reducible apply CobOk.keep <;> simp +contextual)

theorem execRailGood_kept (position : Nat) (s : State) {t : State} (e : execRailGood position s = .next t) : Kept s t := by
  unfold execRailGood at e
  injection e with e; subst e
  try dsimp only
  repeat' first
    | with_reducible exact Kept.refl _
    | with_reducible apply sendInForce_kept
    | (with_reducible refine Kept.ite (fun _ => ?_) (fun _ => ?_))
    | (with_reducible refine Kept.put ?_ ?_ ?_ ?_ ?_ ?_ ?_ ?_ ?_ ?_ ?_; with_reducible exact Kept.refl _)
    | with_reducible exact id
    | solve | (with_reducible apply CobOk.keep <;> simp +contextual)

theorem execRailFault_kept (position rail : Nat) (s : State) {t : State} (e : execRailFault position rail s = .next t) : Kept s t := by
  unfold execRailFault at e
  injection e with e; subst e
  try dsimp only
  repeat' first
    | with_reducible exact Kept.refl _
    | with_reducible apply sledEvent_kept
    | with_reducible apply powerOff_kept
    | (with_reducible refine Kept.ite (fun _ => ?_) (fun _ => ?_))

theorem execMainLost_kept (centivolts : Nat) (s : State) {t : State} (e : execMainLost centivolts s = .next t) : Kept s t := by
  unfold execMainLost at e
  injection e with e; subst e
  try dsimp only
  repeat' first
    | with_reducible exact Kept.refl _
    | with_reducible apply sledEvent_kept
    | with_reducible apply powerOff_kept
    | (with_reducible refine Kept.foldl (fun _ _ => ?_) ?_ _)
    | (with_reducible refine Kept.ite (fun _ => ?_) (fun _ => ?_))
    | (with_reducible refine Kept.put ?_ ?_ ?_ ?_ ?_ ?_ ?_ ?_ ?_ ?_ ?_; with_reducible exact Kept.refl _)
    | with_reducible exact id
    | solve | (with_reducible apply CobOk.keep <;> simp +contextual)

theorem noRide_kept {z : State} (s : State) (hz : Kept z s) : Kept z (noRide s) := by
  unfold noRide
  try dsimp only
  repeat' first
    | with_reducible assumption
    | with_reducible apply sledEvent_kept
    | (with_reducible refine Kept.ite (fun _ => ?_) (fun _ => ?_))
    | (with_reducible refine Kept.put ?_ ?_ ?_ ?_ ?_ ?_ ?_ ?_ ?_ ?_ ?_; with_reducible assumption)
    | with_reducible exact id
    | solve | (with_reducible apply CobOk.keep <;> simp +contextual)

theorem execCellSample_kept (centivolts mainUs : Nat) (s : State) {t : State} (e : execCellSample centivolts mainUs s = .next t) : Kept s t := by
  unfold execCellSample at e
  injection e with e; subst e
  try dsimp only
  repeat' first
    | with_reducible exact Kept.refl _
    | with_reducible apply noRide_kept
    | with_reducible apply powerStopAll_kept
    | with_reducible apply sledEvent_kept
    | with_reducible apply sendCaps_kept
    | (with_reducible refine Kept.ite (fun _ => ?_) (fun _ => ?_))
    | (with_reducible refine Kept.put ?_ ?_ ?_ ?_ ?_ ?_ ?_ ?_ ?_ ?_ ?_
       first
         | with_reducible exact Kept.refl _
         | with_reducible apply noRide_kept
       )
    | with_reducible exact id
    | solve | (with_reducible apply CobOk.keep <;> simp +contextual)

theorem execPowerRemoval_kept (position : Nat) (reported : Bool) (s : State) {t : State} (e : execPowerRemoval position reported s = .next t) : Kept s t := by
  unfold execPowerRemoval at e
  injection e with e; subst e
  try dsimp only
  repeat' first
    | with_reducible exact Kept.refl _
    | with_reducible apply powerOff_kept
    | with_reducible apply flushChip_kept
    | with_reducible apply sledEvent_kept
    | (with_reducible refine Kept.ite (fun _ => ?_) (fun _ => ?_))
    | split
    | (with_reducible refine Kept.put ?_ ?_ ?_ ?_ ?_ ?_ ?_ ?_ ?_ ?_ ?_; with_reducible apply powerOff_kept)
    | with_reducible exact id
    | solve | (with_reducible apply CobOk.keep <;> simp +contextual)

theorem execSledRestart_kept (s : State) {t : State} (e : execSledRestart s = .next t) : Kept s t := by
  unfold execSledRestart at e
  injection e with e; subst e
  try dsimp only
  repeat' first
    | with_reducible exact Kept.refl _
    | with_reducible apply powerOn_kept
    | (with_reducible refine Kept.foldl (fun _ _ => ?_) ?_ _)
    | (with_reducible refine Kept.ite (fun _ => ?_) (fun _ => ?_))
    | (with_reducible refine Kept.put ?_ ?_ ?_ ?_ ?_ ?_ ?_ ?_ ?_ ?_ ?_; with_reducible exact Kept.refl _)
    | with_reducible exact id
    | solve | (with_reducible apply CobOk.keep <;> simp +contextual)

theorem execCellReady_kept (s : State) {t : State} (e : execCellReady s = .next t) : Kept s t := by
  unfold execCellReady at e
  injection e with e; subst e
  try dsimp only
  repeat' first
    | with_reducible exact Kept.refl _
    | with_reducible apply sledEvent_kept
    | with_reducible apply powerOn_kept
    | (with_reducible refine Kept.foldl (fun _ _ => ?_) ?_ _)
    | (with_reducible refine Kept.ite (fun _ => ?_) (fun _ => ?_))
    | (with_reducible refine Kept.put ?_ ?_ ?_ ?_ ?_ ?_ ?_ ?_ ?_ ?_ ?_
       first
         | with_reducible exact Kept.refl _
         | with_reducible apply sledEvent_kept
       )
    | with_reducible exact id
    | solve | (with_reducible apply CobOk.keep <;> simp +contextual)

theorem execCellFull_kept (s : State) {t : State} (e : execCellFull s = .next t) : Kept s t := by
  unfold execCellFull at e
  injection e with e; subst e
  try dsimp only
  repeat' first
    | with_reducible exact Kept.refl _
    | with_reducible apply sendCaps_kept
    | (with_reducible refine Kept.ite (fun _ => ?_) (fun _ => ?_))
    | (with_reducible refine Kept.put ?_ ?_ ?_ ?_ ?_ ?_ ?_ ?_ ?_ ?_ ?_; with_reducible exact Kept.refl _)
    | with_reducible exact id
    | solve | (with_reducible apply CobOk.keep <;> simp +contextual)

theorem execCellInserted_kept (centivolts : Nat) (s : State) {t : State} (e : execCellInserted centivolts s = .next t) : Kept s t := by
  unfold execCellInserted at e
  injection e with e; subst e
  try dsimp only
  repeat' first
    | with_reducible exact Kept.refl _
    | with_reducible apply sendCaps_kept
    | with_reducible apply sledEvent_kept
    | (with_reducible refine Kept.ite (fun _ => ?_) (fun _ => ?_))
    | (with_reducible refine Kept.put ?_ ?_ ?_ ?_ ?_ ?_ ?_ ?_ ?_ ?_ ?_; with_reducible exact Kept.refl _)
    | with_reducible exact id
    | solve | (with_reducible apply CobOk.keep <;> simp +contextual)

theorem execCellCapacitanceCheck_kept (millifarads : Nat) (s : State) {t : State} (e : execCellCapacitanceCheck millifarads s = .next t) : Kept s t := by
  unfold execCellCapacitanceCheck at e
  injection e with e; subst e
  try dsimp only
  repeat' first
    | with_reducible exact Kept.refl _
    | with_reducible apply sledEvent_kept
    | (with_reducible refine Kept.ite (fun _ => ?_) (fun _ => ?_))
    | (with_reducible refine Kept.put ?_ ?_ ?_ ?_ ?_ ?_ ?_ ?_ ?_ ?_ ?_; with_reducible exact Kept.refl _)
    | with_reducible exact id
    | solve | (with_reducible apply CobOk.keep <;> simp +contextual)

theorem execCoolantUpdate_kept (inlet outlet : Int) (flow wet : Nat) (s : State) {t : State} (e : execCoolantUpdate inlet outlet flow wet s = .next t) : Kept s t := by
  unfold execCoolantUpdate at e
  injection e with e; subst e
  try dsimp only
  repeat' first
    | with_reducible exact Kept.refl _
    | with_reducible apply orderChip_kept
    | (with_reducible refine Kept.foldl (fun _ _ => ?_) ?_ _)
    | (with_reducible refine Kept.put ?_ ?_ ?_ ?_ ?_ ?_ ?_ ?_ ?_ ?_ ?_; with_reducible exact Kept.refl _)
    | with_reducible exact id
    | solve | (with_reducible apply CobOk.keep <;> simp +contextual)

theorem execCoolantCondition_kept (condition : Nat) (s : State) {t : State} (e : execCoolantCondition condition s = .next t) : Kept s t := by
  unfold execCoolantCondition at e
  injection e with e; subst e
  try dsimp only
  repeat' first
    | with_reducible exact Kept.refl _
    | with_reducible apply sledEvent_kept
    | with_reducible apply powerStopAll_kept
    | with_reducible apply sendHolds_kept
    | with_reducible apply sendCaps_kept
    | (with_reducible refine Kept.ite (fun _ => ?_) (fun _ => ?_))
    | (with_reducible refine Kept.put ?_ ?_ ?_ ?_ ?_ ?_ ?_ ?_ ?_ ?_ ?_; with_reducible exact Kept.refl _)
    | with_reducible exact id
    | solve | (with_reducible apply CobOk.keep <;> simp +contextual)

theorem execCoolantConditionClear_kept (condition : Nat) (s : State) {t : State} (e : execCoolantConditionClear condition s = .next t) : Kept s t := by
  unfold execCoolantConditionClear at e
  injection e with e; subst e
  try dsimp only
  repeat' first
    | with_reducible exact Kept.refl _
    | with_reducible apply sendHolds_kept
    | with_reducible apply sendCaps_kept
    | (with_reducible refine Kept.ite (fun _ => ?_) (fun _ => ?_))
    | (with_reducible refine Kept.put ?_ ?_ ?_ ?_ ?_ ?_ ?_ ?_ ?_ ?_ ?_; with_reducible exact Kept.refl _)
    | with_reducible exact id
    | solve | (with_reducible apply CobOk.keep <;> simp +contextual)

theorem execLeak_kept (zone : Nat) (s : State) {t : State} (e : execLeak zone s = .next t) : Kept s t := by
  unfold execLeak at e
  injection e with e; subst e
  try dsimp only
  repeat' first
    | with_reducible exact Kept.refl _
    | with_reducible apply leakResponse_kept
    | (with_reducible refine Kept.ite (fun _ => ?_) (fun _ => ?_))
    | (with_reducible refine Kept.put ?_ ?_ ?_ ?_ ?_ ?_ ?_ ?_ ?_ ?_ ?_; with_reducible exact Kept.refl _)
    | with_reducible exact id
    | solve | (with_reducible apply CobOk.keep <;> simp +contextual)

theorem execFwRollback_kept (s : State) {t : State} (e : execFwRollback s = .next t) : Kept s t := by
  unfold execFwRollback at e
  injection e with e; subst e
  try dsimp only
  repeat' first
    | with_reducible exact Kept.refl _
    | with_reducible apply sledEvent_kept
    | split
    | (with_reducible refine Kept.put ?_ ?_ ?_ ?_ ?_ ?_ ?_ ?_ ?_ ?_ ?_; with_reducible exact Kept.refl _)
    | with_reducible exact id
    | solve | (with_reducible apply CobOk.keep <;> simp +contextual)

theorem execCobblerRestartComplete_kept (healthy : Bool) (s : State) {t : State} (e : execCobblerRestartComplete healthy s = .next t) : Kept s t := by
  unfold execCobblerRestartComplete at e
  injection e with e; subst e
  try dsimp only
  repeat' first
    | with_reducible exact Kept.refl _
    | with_reducible apply sendApbel_kept
    | (with_reducible refine Kept.ite (fun _ => ?_) (fun _ => ?_))
    | split
    | (with_reducible refine Kept.put ?_ ?_ ?_ ?_ ?_ ?_ ?_ ?_ ?_ ?_ ?_
       first
         | with_reducible exact Kept.refl _
         | (with_reducible refine Kept.foldl (fun _ _ => ?_) ?_ _)
       )
    | with_reducible exact id
    | solve | (with_reducible apply CobOk.keep <;> simp +contextual)

theorem execEventResend_kept (seq : Nat) (s : State) {t : State} (e : execEventResend seq s = .next t) : Kept s t := by
  unfold execEventResend at e
  injection e with e; subst e
  try dsimp only
  repeat' first
    | with_reducible exact Kept.refl _
    | with_reducible apply sendApbel_kept
    | (with_reducible refine Kept.ite (fun _ => ?_) (fun _ => ?_))
    | split
    | (with_reducible refine Kept.put ?_ ?_ ?_ ?_ ?_ ?_ ?_ ?_ ?_ ?_ ?_; with_reducible exact Kept.refl _)
    | with_reducible exact id
    | solve | (with_reducible apply CobOk.keep <;> simp +contextual)

theorem execSledPresent_kept (s : State) {t : State} (e : execSledPresent s = .next t) : Kept s t := by
  unfold execSledPresent at e
  injection e with e; subst e
  repeat' first
    | with_reducible exact Kept.refl _
    | with_reducible apply sendApbel_kept
    | (with_reducible refine Kept.ite (fun _ => ?_) (fun _ => ?_))

theorem execIdentify_kept (src : Nat) (msg : List Byte) (s : State) {t : State} (e : execIdentify src msg s = .next t) : Kept s t := by
  unfold execIdentify at e
  injection e with e; subst e
  try dsimp only
  repeat' first
    | with_reducible exact Kept.refl _
    | with_reducible apply onRequest_kept
    | with_reducible apply refusedWith_kept
    | with_reducible apply accepted_kept
    | with_reducible apply bumpFree_kept
    | split
    | (with_reducible refine Kept.put ?_ ?_ ?_ ?_ ?_ ?_ ?_ ?_ ?_ ?_ ?_; with_reducible exact Kept.refl _)
    | with_reducible exact id
    | solve | (with_reducible apply CobOk.keep <;> simp +contextual)
    | intro _

theorem execSetAddress_kept (src : Nat) (msg : List Byte) (s : State) {t : State} (e : execSetAddress src msg s = .next t) : Kept s t := by
  unfold execSetAddress at e
  injection e with e; subst e
  try dsimp only
  repeat' first
    | with_reducible exact Kept.refl _
    | with_reducible apply onRequest_kept
    | with_reducible apply refusedWith_kept
    | with_reducible apply accepted_kept
    | split
    | (with_reducible refine Kept.put ?_ ?_ ?_ ?_ ?_ ?_ ?_ ?_ ?_ ?_ ?_; with_reducible exact Kept.refl _)
    | with_reducible exact id
    | solve | (with_reducible apply CobOk.keep <;> simp +contextual)
    | intro _

theorem execSetCoord_kept (src : Nat) (msg : List Byte) (s : State) {t : State} (e : execSetCoord src msg s = .next t) : Kept s t := by
  unfold execSetCoord at e
  injection e with e; subst e
  try dsimp only
  repeat' first
    | with_reducible exact Kept.refl _
    | with_reducible apply onRequest_kept
    | with_reducible apply refusedWith_kept
    | with_reducible apply accepted_kept
    | with_reducible apply applyReleases_kept
    | split
    | (with_reducible refine Kept.put ?_ ?_ ?_ ?_ ?_ ?_ ?_ ?_ ?_ ?_ ?_; with_reducible exact Kept.refl _)
    | with_reducible exact id
    | solve | (with_reducible apply CobOk.keep <;> simp +contextual)
    | intro _

theorem holdEyelets_kept {z : State} (s : State) (mask : Nat) (hz : Kept z s) : Kept z (holdEyelets s mask) := by
  unfold holdEyelets
  repeat' first
    | with_reducible assumption
    | with_reducible exact Kept.refl _
    | with_reducible apply takeDown_kept
    | (with_reducible refine Kept.foldl (fun _ _ => ?_) ?_ _)
    | (with_reducible refine Kept.ite (fun _ => ?_) (fun _ => ?_))

theorem execEyeletCtrl_kept (src : Nat) (msg : List Byte) (s : State) {t : State} (e : execEyeletCtrl src msg s = .next t) : Kept s t := by
  unfold execEyeletCtrl at e
  injection e with e; subst e
  try dsimp only
  repeat' first
    | with_reducible exact Kept.refl _
    | with_reducible apply onRequest_kept
    | with_reducible apply refusedWith_kept
    | with_reducible apply applyReleases_kept
    | with_reducible apply holdEyelets_kept
    | with_reducible apply accepted_kept
    | with_reducible apply bumpFree_kept
    | split
    | (with_reducible refine Kept.put ?_ ?_ ?_ ?_ ?_ ?_ ?_ ?_ ?_ ?_ ?_; with_reducible exact Kept.refl _)
    | with_reducible exact id
    | solve | (with_reducible apply CobOk.keep <;> simp +contextual)
    | intro _

theorem execSwapPrepare_kept (src : Nat) (msg : List Byte) (s : State) {t : State} (e : execSwapPrepare src msg s = .next t) : Kept s t := by
  unfold execSwapPrepare at e
  injection e with e; subst e
  try dsimp only
  repeat' first
    | with_reducible exact Kept.refl _
    | with_reducible apply onRequest_kept
    | with_reducible apply refusedWith_kept
    | with_reducible apply powerOff_kept
    | with_reducible apply holdEyelets_kept
    | with_reducible apply accepted_kept
    | (with_reducible refine Kept.foldl (fun _ _ => ?_) ?_ _)
    | split
    | (with_reducible refine Kept.put ?_ ?_ ?_ ?_ ?_ ?_ ?_ ?_ ?_ ?_ ?_; with_reducible apply moveValves_kept)
    | with_reducible exact id
    | solve | (with_reducible apply CobOk.keep <;> simp +contextual)
    | intro _

theorem execSetCaps_kept (src : Nat) (msg : List Byte) (s : State) {t : State} (e : execSetCaps src msg s = .next t) : Kept s t := by
  unfold execSetCaps at e
  injection e with e; subst e
  try dsimp only
  repeat' first
    | with_reducible exact Kept.refl _
    | with_reducible apply onRequest_kept
    | with_reducible apply refusedWith_kept
    | with_reducible apply sendCaps_kept
    | with_reducible apply accepted_kept
    | split
    | (with_reducible refine Kept.put ?_ ?_ ?_ ?_ ?_ ?_ ?_ ?_ ?_ ?_ ?_; with_reducible exact Kept.refl _)
    | with_reducible exact id
    | solve | (with_reducible apply CobOk.keep <;> simp +contextual)
    | intro _

theorem execApbelHold_kept (src : Nat) (msg : List Byte) (s : State) {t : State} (e : execApbelHold src msg s = .next t) : Kept s t := by
  unfold execApbelHold at e
  injection e with e; subst e
  try dsimp only
  repeat' first
    | with_reducible exact Kept.refl _
    | with_reducible apply onRequest_kept
    | with_reducible apply refusedWith_kept
    | with_reducible apply accepted_kept
    | with_reducible apply sendHolds_kept
    | split
    | (with_reducible refine Kept.put ?_ ?_ ?_ ?_ ?_ ?_ ?_ ?_ ?_ ?_ ?_; with_reducible exact Kept.refl _)
    | with_reducible exact id
    | solve | (with_reducible apply CobOk.keep <;> simp +contextual)
    | intro _

theorem execApbelRelease_kept (src : Nat) (msg : List Byte) (s : State) {t : State} (e : execApbelRelease src msg s = .next t) : Kept s t := by
  unfold execApbelRelease at e
  injection e with e; subst e
  try dsimp only
  repeat' first
    | with_reducible exact Kept.refl _
    | with_reducible apply onRequest_kept
    | with_reducible apply refusedWith_kept
    | with_reducible apply accepted_kept
    | with_reducible apply sendHolds_kept
    | split
    | (with_reducible refine Kept.put ?_ ?_ ?_ ?_ ?_ ?_ ?_ ?_ ?_ ?_ ?_; with_reducible exact Kept.refl _)
    | with_reducible exact id
    | solve | (with_reducible apply CobOk.keep <;> simp +contextual)
    | intro _

theorem execWake_kept (src : Nat) (msg : List Byte) (s : State) {t : State} (e : execWake src msg s = .next t) : Kept s t := by
  unfold execWake at e
  injection e with e; subst e
  repeat' first
    | with_reducible exact Kept.refl _
    | with_reducible apply onRequest_kept
    | with_reducible apply refusedWith_kept
    | with_reducible apply orderWake_kept
    | split
    | dsimp only
    | intro _

theorem execSensors_kept (src : Nat) (msg : List Byte) (s : State) {t : State} (e : execSensors src msg s = .next t) : Kept s t := by
  unfold execSensors at e
  injection e with e; subst e
  repeat' first
    | with_reducible exact Kept.refl _
    | with_reducible apply onRequest_kept
    | with_reducible apply refusedWith_kept
    | with_reducible apply accepted_kept
    | with_reducible apply bumpFree_kept
    | split
    | intro _

theorem execChipPowerOn_kept (src : Nat) (msg : List Byte) (s : State) {t : State} (e : execChipPowerOn src msg s = .next t) : Kept s t := by
  unfold execChipPowerOn at e
  injection e with e; subst e
  repeat' first
    | with_reducible exact Kept.refl _
    | with_reducible apply onRequest_kept
    | with_reducible apply refusedWith_kept
    | with_reducible apply accepted_kept
    | with_reducible apply powerOn_kept
    | (with_reducible refine Kept.foldl (fun _ _ => ?_) ?_ _)
    | split
    | intro _

theorem execChipPowerOff_kept (src : Nat) (msg : List Byte) (s : State) {t : State} (e : execChipPowerOff src msg s = .next t) : Kept s t := by
  unfold execChipPowerOff at e
  injection e with e; subst e
  repeat' first
    | with_reducible exact Kept.refl _
    | with_reducible apply onRequest_kept
    | with_reducible apply refusedWith_kept
    | with_reducible apply accepted_kept
    | with_reducible apply powerStopChip_kept
    | (with_reducible refine Kept.foldl (fun _ _ => ?_) ?_ _)
    | split
    | intro _

theorem execSledPowerOn_kept (src : Nat) (msg : List Byte) (s : State) {t : State} (e : execSledPowerOn src msg s = .next t) : Kept s t := by
  unfold execSledPowerOn at e
  injection e with e; subst e
  repeat' first
    | with_reducible exact Kept.refl _
    | with_reducible apply onRequest_kept
    | with_reducible apply refusedWith_kept
    | with_reducible apply accepted_kept
    | with_reducible apply powerOn_kept
    | (with_reducible refine Kept.foldl (fun _ _ => ?_) ?_ _)
    | split
    | intro _

theorem execSledPowerOff_kept (src : Nat) (msg : List Byte) (s : State) {t : State} (e : execSledPowerOff src msg s = .next t) : Kept s t := by
  unfold execSledPowerOff at e
  injection e with e; subst e
  repeat' first
    | with_reducible exact Kept.refl _
    | with_reducible apply onRequest_kept
    | with_reducible apply refusedWith_kept
    | with_reducible apply accepted_kept
    | with_reducible apply powerStopAll_kept
    | split
    | intro _

theorem execCellPrepare_kept (src : Nat) (msg : List Byte) (s : State) {t : State} (e : execCellPrepare src msg s = .next t) : Kept s t := by
  unfold execCellPrepare at e
  injection e with e; subst e
  try dsimp only
  repeat' first
    | with_reducible exact Kept.refl _
    | with_reducible apply onRequest_kept
    | with_reducible apply refusedWith_kept
    | with_reducible apply accepted_kept
    | with_reducible apply sendCaps_kept
    | with_reducible apply sledEvent_kept
    | split
    | (with_reducible refine Kept.put ?_ ?_ ?_ ?_ ?_ ?_ ?_ ?_ ?_ ?_ ?_; with_reducible exact Kept.refl _)
    | with_reducible exact id
    | solve | (with_reducible apply CobOk.keep <;> simp +contextual)
    | intro _

theorem execClearLeak_kept (src : Nat) (msg : List Byte) (s : State) {t : State} (e : execClearLeak src msg s = .next t) : Kept s t := by
  unfold execClearLeak at e
  injection e with e; subst e
  try dsimp only
  repeat' first
    | with_reducible exact Kept.refl _
    | with_reducible apply onRequest_kept
    | with_reducible apply refusedWith_kept
    | with_reducible apply accepted_kept
    | split
    | (with_reducible refine Kept.put ?_ ?_ ?_ ?_ ?_ ?_ ?_ ?_ ?_ ?_ ?_
       first
         | with_reducible exact Kept.refl _
         | with_reducible apply moveValves_kept
       )
    | with_reducible exact id
    | solve | (with_reducible apply CobOk.keep <;> simp +contextual)
    | intro _

theorem execFwWrite_kept (src : Nat) (msg : List Byte) (s : State) {t : State} (e : execFwWrite src msg s = .next t) : Kept s t := by
  unfold execFwWrite at e
  injection e with e; subst e
  try dsimp only
  repeat' first
    | with_reducible exact Kept.refl _
    | with_reducible apply onRequest_kept
    | with_reducible apply refusedWith_kept
    | with_reducible apply accepted_kept
    | with_reducible apply bumpFree_kept
    | split
    | (with_reducible refine Kept.put ?_ ?_ ?_ ?_ ?_ ?_ ?_ ?_ ?_ ?_ ?_; with_reducible exact Kept.refl _)
    | with_reducible exact id
    | solve | (with_reducible apply CobOk.keep <;> simp +contextual)
    | intro _

theorem execFwActivate_kept (src : Nat) (msg : List Byte) (s : State) {t : State} (e : execFwActivate src msg s = .next t) : Kept s t := by
  unfold execFwActivate at e
  injection e with e; subst e
  try dsimp only
  repeat' first
    | with_reducible exact Kept.refl _
    | with_reducible apply onRequest_kept
    | with_reducible apply refusedWith_kept
    | with_reducible apply accepted_kept
    | with_reducible apply sledEvent_kept
    | (with_reducible refine Kept.ite (fun _ => ?_) (fun _ => ?_))
    | split
    | (with_reducible refine Kept.put ?_ ?_ ?_ ?_ ?_ ?_ ?_ ?_ ?_ ?_ ?_
       first
         | with_reducible exact Kept.refl _
         | with_reducible apply onRequest_kept
       )
    | with_reducible exact id
    | solve | (with_reducible apply CobOk.keep <;> simp +contextual)
    | intro _

theorem execApbelLogRead_kept (src : Nat) (msg : List Byte) (s : State) {t : State} (e : execApbelLogRead src msg s = .next t) : Kept s t := by
  unfold execApbelLogRead at e
  injection e with e; subst e
  repeat' first
    | with_reducible exact Kept.refl _
    | with_reducible apply onRequest_kept
    | with_reducible apply refusedWith_kept
    | with_reducible apply accepted_kept
    | split
    | intro _

theorem execEventAck_kept (_src : Nat) (msg : List Byte) (s : State) {t : State} (e : execEventAck _src msg s = .next t) : Kept s t := by
  unfold execEventAck at e
  injection e with e; subst e
  try dsimp only
  repeat' first
    | with_reducible exact Kept.refl _
    | (with_reducible refine Kept.ite (fun _ => ?_) (fun _ => ?_))
    | (with_reducible refine Kept.put ?_ ?_ ?_ ?_ ?_ ?_ ?_ ?_ ?_ ?_ ?_; with_reducible exact Kept.refl _)
    | with_reducible exact id
    | solve | (with_reducible apply CobOk.keep <;> simp +contextual)

end Sys2Proof.Laws
end

