-- ==== Sys2Proof/Laws/KeptLink.lean ====
section
/-! SUPPORT. What the operations and commands of Machine/Link.lean keep (Safety.Kept). -/
namespace Sys2Proof.Laws
open Sys2Proof.Machine Sys2Proof.Safety

theorem takeItem_kept {z : State} (s : State) (k : Nat) (item : List Byte) (hz : Kept z s) : Kept z (takeItem s k item) := by
  unfold takeItem
  repeat' first
    | with_reducible assumption
    | with_reducible apply setEyelet_kept

theorem noteRestart_kept {z : State} (s : State) (k : Nat) (hz : Kept z s) : Kept z (noteRestart s k) := by
  unfold noteRestart
  try dsimp only
  repeat' first
    | with_reducible assumption
    | with_reducible apply violation_kept
    | with_reducible apply setEyelet_kept
    | (with_reducible refine Kept.ite (fun _ => ?_) (fun _ => ?_))

theorem equaliseDone_kept {z : State} (s : State) (k : Nat) (ts : List Byte) (ownOk : Nat) (hz : Kept z s) : Kept z (equaliseDone s k ts ownOk) := by
  unfold equaliseDone
  try dsimp only
  repeat' first
    | with_reducible assumption
    | with_reducible apply trainFail_kept
    | with_reducible apply setEyelet_kept
    | with_reducible apply event_kept
    | (with_reducible refine Kept.ite (fun _ => ?_) (fun _ => ?_))

theorem execTrainingSequence_kept (eyelet : Nat) (lanes : List (List Byte)) (sustained : Bool) (ownOk : Nat) (s : State) {t : State} (e : execTrainingSequence eyelet lanes sustained ownOk s = .next t) : Kept s t := by
  unfold execTrainingSequence at e
  injection e with e; subst e
  try dsimp only
  repeat' first
    | with_reducible exact Kept.refl _
    | with_reducible apply setEyelet_kept
    | with_reducible apply noteRestart_kept
    | with_reducible apply equaliseDone_kept
    | (with_reducible refine Kept.ite (fun _ => ?_) (fun _ => ?_))
    | split

theorem execTrainingStateTimeout_kept (eyelet : Nat) (s : State) {t : State} (e : execTrainingStateTimeout eyelet s = .next t) : Kept s t := by
  unfold execTrainingStateTimeout at e
  injection e with e; subst e
  try dsimp only
  repeat' first
    | with_reducible exact Kept.refl _
    | with_reducible apply trainFail_kept
    | with_reducible apply setEyelet_kept
    | (with_reducible refine Kept.ite (fun _ => ?_) (fun _ => ?_))
    | split

theorem execCodewordLock_kept (eyelet : Nat) (s : State) {t : State} (e : execCodewordLock eyelet s = .next t) : Kept s t := by
  unfold execCodewordLock at e
  injection e with e; subst e
  try dsimp only
  repeat' first
    | with_reducible exact Kept.refl _
    | with_reducible apply setEyelet_kept
    | with_reducible apply enterExchange_kept
    | with_reducible apply bridgeDown_kept
    | (with_reducible refine Kept.ite (fun _ => ?_) (fun _ => ?_))
    | split

theorem execBackoffExpiry_kept (eyelet : Nat) (s : State) {t : State} (e : execBackoffExpiry eyelet s = .next t) : Kept s t := by
  unfold execBackoffExpiry at e
  injection e with e; subst e
  repeat' first
    | with_reducible exact Kept.refl _
    | with_reducible apply enterDetect_kept
    | (with_reducible refine Kept.ite (fun _ => ?_) (fun _ => ?_))

theorem takeBlock_kept {z : State} (k : Nat) (s : State) (blk : Bool × List Byte) (hz : Kept z s) : Kept z (takeBlock k s blk) := by
  unfold takeBlock
  try dsimp only
  repeat' first
    | with_reducible assumption
    | with_reducible apply nakExpected_kept
    | with_reducible apply violation_kept
    | with_reducible apply setEyelet_kept
    | (with_reducible refine Kept.ite (fun _ => ?_) (fun _ => ?_))

theorem execCodewordReceived_kept (eyelet marker data symbolErrors : Nat) (s : State) {t : State} (e : execCodewordReceived eyelet marker data symbolErrors s = .next t) : Kept s t := by
  unfold execCodewordReceived at e
  injection e with e; subst e
  try dsimp only
  repeat' first
    | with_reducible exact Kept.refl _
    | with_reducible apply setEyelet_kept
    | with_reducible apply leaveUp_kept
    | with_reducible apply bridgeDown_kept
    | with_reducible apply takeBlock_kept
    | (with_reducible refine Kept.foldl (fun _ _ => ?_) ?_ _)
    | (with_reducible refine Kept.ite (fun _ => ?_) (fun _ => ?_))
    | split

theorem execMarkerLoss_kept (eyelet lane : Nat) (s : State) {t : State} (e : execMarkerLoss eyelet lane s = .next t) : Kept s t := by
  unfold execMarkerLoss at e
  injection e with e; subst e
  try dsimp only
  repeat' first
    | with_reducible exact Kept.refl _
    | with_reducible apply leaveUp_kept
    | with_reducible apply bridgeDown_kept
    | (with_reducible refine Kept.ite (fun _ => ?_) (fun _ => ?_))
    | split

theorem execExchange_kept (eyelet : Nat) (item : List Byte) (s : State) {t : State} (e : execExchange eyelet item s = .next t) : Kept s t := by
  unfold execExchange at e
  injection e with e; subst e
  try dsimp only
  repeat' first
    | with_reducible exact Kept.refl _
    | with_reducible apply takeItem_kept
    | with_reducible apply exchangeDone_kept
    | with_reducible apply setEyelet_kept
    | with_reducible apply trainFail_kept
    | (with_reducible refine Kept.ite (fun _ => ?_) (fun _ => ?_))

theorem execExchangeResend_kept (eyelet : Nat) (s : State) {t : State} (e : execExchangeResend eyelet s = .next t) : Kept s t := by
  unfold execExchangeResend at e
  injection e with e; subst e
  try dsimp only
  repeat' first
    | with_reducible exact Kept.refl _
    | with_reducible apply sendNow_kept
    | with_reducible apply setEyelet_kept
    | (with_reducible refine Kept.ite (fun _ => ?_) (fun _ => ?_))

theorem execLatProbeSend_kept (eyelet : Nat) (s : State) {t : State} (e : execLatProbeSend eyelet s = .next t) : Kept s t := by
  unfold execLatProbeSend at e
  injection e with e; subst e
  try dsimp only
  repeat' first
    | with_reducible exact Kept.refl _
    | with_reducible apply sendNow_kept
    | with_reducible apply setEyelet_kept
    | (with_reducible refine Kept.ite (fun _ => ?_) (fun _ => ?_))

theorem execLatProbe_kept (eyelet : Nat) (item : List Byte) (turn : Nat) (s : State) {t : State} (e : execLatProbe eyelet item turn s = .next t) : Kept s t := by
  unfold execLatProbe at e
  injection e with e; subst e
  try dsimp only
  repeat' first
    | with_reducible exact Kept.refl _
    | with_reducible apply takeItem_kept
    | with_reducible apply sendNow_kept
    | (with_reducible refine Kept.ite (fun _ => ?_) (fun _ => ?_))

theorem execLatEcho_kept (eyelet : Nat) (item : List Byte) (round : Nat) (s : State) {t : State} (e : execLatEcho eyelet item round s = .next t) : Kept s t := by
  unfold execLatEcho at e
  injection e with e; subst e
  try dsimp only
  repeat' first
    | with_reducible exact Kept.refl _
    | with_reducible apply takeItem_kept
    | with_reducible apply exchangeDone_kept
    | with_reducible apply setEyelet_kept
    | (with_reducible refine Kept.ite (fun _ => ?_) (fun _ => ?_))

theorem execCreditInit_kept (eyelet : Nat) (item : List Byte) (s : State) {t : State} (e : execCreditInit eyelet item s = .next t) : Kept s t := by
  unfold execCreditInit at e
  injection e with e; subst e
  try dsimp only
  repeat' first
    | with_reducible exact Kept.refl _
    | with_reducible apply takeItem_kept
    | with_reducible apply enterUp_kept
    | with_reducible apply trainFail_kept
    | with_reducible apply setEyelet_kept
    | (with_reducible refine Kept.ite (fun _ => ?_) (fun _ => ?_))
    | split

theorem useLanded_kept {z : State} (s : State) (k lace unit n : Nat) (hz : Kept z s) : Kept z (useLanded s k lace unit n) := by
  unfold useLanded
  try dsimp only
  repeat' first
    | with_reducible assumption
    | with_reducible apply setEyelet_kept
    | split

theorem landUnit_kept {z : State} (s : State) (k lace unit dep : Nat) (payload : List Byte) (hz : Kept z s) : Kept z (landUnit s k lace unit dep payload) := by
  unfold landUnit
  try dsimp only
  repeat' first
    | with_reducible assumption
    | with_reducible apply useLanded_kept
    | (with_reducible refine Kept.ite (fun _ => ?_) (fun _ => ?_))
    | (with_reducible refine Kept.put ?_ ?_ ?_ ?_ ?_ ?_ ?_ ?_ ?_ ?_ ?_; with_reducible apply setEyelet_kept)
    | with_reducible exact id
    | solve | simp

theorem deliverUnit_kept {z : State} (s : State) (k : Nat) (item : List Byte) (hz : Kept z s) : Kept z (deliverUnit s k item).1 := by
  unfold deliverUnit
  try dsimp only
  repeat' first
    | with_reducible assumption
    | with_reducible apply credBack_kept
    | with_reducible apply violation_kept
    | with_reducible apply interlock_kept
    | with_reducible apply awlFaults_kept
    | with_reducible apply landUnit_kept
    | with_reducible apply svcArrive_kept
    | (with_reducible refine Kept.ite (fun _ => ?_) (fun _ => ?_))
    | (with_reducible refine Kept.iteP (fun _ => ?_) (fun _ => ?_))

theorem deliverCounted_kept {z : State} (s : State) (k : Nat) (item : List Byte) (hz : Kept z s) : Kept z (deliverCounted s k item).1 := by
  unfold deliverCounted
  repeat' first
    | with_reducible assumption
    | with_reducible apply deliverUnit_kept
    | with_reducible apply setEyelet_kept
    | with_reducible refine Kept.of_pair (by assumption) ?_
    | split

theorem deliverHeld_kept {z : State} (k : Nat) : ∀ (fuel : Nat) {s : State}, Kept z s → Kept z (deliverHeld k fuel s)
  | 0, _, hz => hz
  | fuel + 1, s, hz => by
    unfold deliverHeld
    try dsimp only
    repeat' first
      | with_reducible assumption
      | with_reducible apply deliverHeld_kept
      | with_reducible apply setEyelet_kept
      | with_reducible apply deliverCounted_kept
      | with_reducible apply nakSeq_kept
      | with_reducible refine Kept.of_pair (by assumption) ?_
      | split

theorem occupy_kept {z : State} (s : State) (k : Nat) (item : List Byte) (hz : Kept z s) : Kept z (occupy s k item) := by
  unfold occupy
  repeat' first
    | with_reducible assumption
    | with_reducible apply setEyelet_kept
    | (with_reducible refine Kept.ite (fun _ => ?_) (fun _ => ?_))

theorem nakMissing_kept {z : State} (s : State) (k d : Nat) (hz : Kept z s) : Kept z (nakMissing s k d) := by
  unfold nakMissing
  try dsimp only
  repeat' first
    | with_reducible assumption
    | with_reducible exact Kept.refl _
    | with_reducible apply nakSeq_kept
    | (with_reducible refine Kept.foldl (fun _ _ => ?_) ?_ _)

theorem windowUnit_kept {z : State} (s : State) (k : Nat) (item : List Byte) (hz : Kept z s) : Kept z (windowUnit s k item) := by
  unfold windowUnit
  try dsimp only
  repeat' first
    | with_reducible assumption
    | with_reducible apply nakExpected_kept
    | with_reducible apply violation_kept
    | with_reducible apply deliverCounted_kept
    | with_reducible apply deliverHeld_kept
    | with_reducible apply occupy_kept
    | with_reducible apply nakMissing_kept
    | with_reducible apply setEyelet_kept
    | with_reducible apply queueNak_kept
    | (with_reducible refine Kept.ite (fun _ => ?_) (fun _ => ?_))
    | with_reducible refine Kept.of_pair (by assumption) ?_
    | split

theorem execWeltUnitReceived_kept (eyelet : Nat) (item : List Byte) (s : State) {t : State} (e : execWeltUnitReceived eyelet item s = .next t) : Kept s t := by
  unfold execWeltUnitReceived at e
  injection e with e; subst e
  try dsimp only
  repeat' first
    | with_reducible exact Kept.refl _
    | with_reducible apply takeItem_kept
    | with_reducible apply nakExpected_kept
    | with_reducible apply takeEcho_kept
    | with_reducible apply windowUnit_kept
    | with_reducible apply violation_kept
    | (with_reducible refine Kept.ite (fun _ => ?_) (fun _ => ?_))
    | split

theorem execAck_kept (eyelet : Nat) (item : List Byte) (s : State) {t : State} (e : execAck eyelet item s = .next t) : Kept s t := by
  unfold execAck at e
  injection e with e; subst e
  try dsimp only
  repeat' first
    | with_reducible exact Kept.refl _
    | with_reducible apply takeItem_kept
    | with_reducible apply takeEcho_kept
    | with_reducible apply takeTongueEcho_kept
    | with_reducible apply takeReturn_kept
    | (with_reducible refine Kept.foldl (fun _ _ => ?_) ?_ _)
    | (with_reducible refine Kept.ite (fun _ => ?_) (fun _ => ?_))

theorem execNak_kept (eyelet : Nat) (item : List Byte) (s : State) {t : State} (e : execNak eyelet item s = .next t) : Kept s t := by
  unfold execNak at e
  injection e with e; subst e
  try dsimp only
  repeat' first
    | with_reducible exact Kept.refl _
    | with_reducible apply takeItem_kept
    | with_reducible apply askTongue_kept
    | with_reducible apply violation_kept
    | with_reducible apply askResend_kept
    | (with_reducible refine Kept.foldl (fun _ _ => ?_) ?_ _)
    | (with_reducible refine Kept.ite (fun _ => ?_) (fun _ => ?_))

theorem execAckDue_kept (eyelet : Nat) (s : State) {t : State} (e : execAckDue eyelet s = .next t) : Kept s t := by
  unfold execAckDue at e
  injection e with e; subst e
  try dsimp only
  repeat' first
    | with_reducible exact Kept.refl _
    | with_reducible apply setEyelet_kept
    | (with_reducible refine Kept.ite (fun _ => ?_) (fun _ => ?_))

theorem execResendTimeout_kept (eyelet : Nat) (s : State) {t : State} (e : execResendTimeout eyelet s = .next t) : Kept s t := by
  unfold execResendTimeout at e
  injection e with e; subst e
  try dsimp only
  repeat' first
    | with_reducible exact Kept.refl _
    | with_reducible apply askResend_kept
    | split

theorem execTongueResendTimeout_kept (eyelet : Nat) (s : State) {t : State} (e : execTongueResendTimeout eyelet s = .next t) : Kept s t := by
  unfold execTongueResendTimeout at e
  injection e with e; subst e
  try dsimp only
  repeat' first
    | with_reducible exact Kept.refl _
    | with_reducible apply askTongue_kept
    | split

theorem execCreditReportSend_kept (eyelet : Nat) (s : State) {t : State} (e : execCreditReportSend eyelet s = .next t) : Kept s t := by
  unfold execCreditReportSend at e
  injection e with e; subst e
  try dsimp only
  repeat' first
    | with_reducible exact Kept.refl _
    | with_reducible apply setEyelet_kept
    | (with_reducible refine Kept.ite (fun _ => ?_) (fun _ => ?_))

theorem judgeLeak_kept {z : State} (k : Nat) (reported due : List Nat) (s : State) (kind : Nat) (hz : Kept z s) : Kept z (judgeLeak k reported due s kind) := by
  unfold judgeLeak
  try dsimp only
  repeat' first
    | with_reducible assumption
    | with_reducible apply setEyelet_kept
    | with_reducible apply event_kept
    | (with_reducible refine Kept.ite (fun _ => ?_) (fun _ => ?_))

theorem execCreditReport_kept (eyelet : Nat) (item : List Byte) (s : State) {t : State} (e : execCreditReport eyelet item s = .next t) : Kept s t := by
  unfold execCreditReport at e
  injection e with e; subst e
  try dsimp only
  repeat' first
    | with_reducible exact Kept.refl _
    | with_reducible apply takeItem_kept
    | with_reducible apply setEyelet_kept
    | with_reducible apply judgeLeak_kept
    | with_reducible apply leaveUp_kept
    | (with_reducible refine Kept.foldl (fun _ _ => ?_) ?_ _)
    | (with_reducible refine Kept.ite (fun _ => ?_) (fun _ => ?_))

theorem execDownNotice_kept (eyelet : Nat) (item : List Byte) (s : State) {t : State} (e : execDownNotice eyelet item s = .next t) : Kept s t := by
  unfold execDownNotice at e
  injection e with e; subst e
  try dsimp only
  repeat' first
    | with_reducible exact Kept.refl _
    | with_reducible apply takeItem_kept
    | with_reducible apply setEyelet_kept
    | with_reducible apply leaveUp_kept
    | (with_reducible refine Kept.ite (fun _ => ?_) (fun _ => ?_))

theorem execIdle_kept (eyelet : Nat) (item : List Byte) (s : State) {t : State} (e : execIdle eyelet item s = .next t) : Kept s t := by
  unfold execIdle at e
  injection e with e; subst e
  try dsimp only
  repeat' first
    | with_reducible exact Kept.refl _
    | with_reducible apply takeItem_kept
    | with_reducible apply violation_kept
    | (with_reducible refine Kept.ite (fun _ => ?_) (fun _ => ?_))

theorem execGraceExpiry_kept (eyelet : Nat) (s : State) {t : State} (e : execGraceExpiry eyelet s = .next t) : Kept s t := by
  unfold execGraceExpiry at e
  injection e with e; subst e
  try dsimp only
  repeat' first
    | with_reducible exact Kept.refl _
    | with_reducible apply flushEyelet_kept
    | with_reducible apply event_kept
    | (with_reducible refine Kept.ite (fun _ => ?_) (fun _ => ?_))

theorem resendUnit_kept {z : State} (s : State) (k : Nat) (r : ReplayUnit) (hz : Kept z s) : Kept z (resendUnit s k r) := by
  unfold resendUnit
  try dsimp only
  repeat' first
    | with_reducible assumption
    | with_reducible apply setEyelet_kept
    | with_reducible apply moved_kept
    | split

theorem sendUnit_kept {z : State} (s : State) (k : Nat) (low fields flags : Nat) (payload : List Byte) (svc : Option (Nat × SvcUnit)) (hz : Kept z s) : Kept z (sendUnit s k low fields flags payload svc) := by
  unfold sendUnit
  try dsimp only
  repeat' first
    | with_reducible assumption
    | with_reducible apply setEyelet_kept

theorem oppTongue_kept {z : State} (s : State) (k : Nat) (hz : Kept z s) : KeptO z (oppTongue s k) := by
  unfold oppTongue
  try dsimp only
  repeat' first
    | with_reducible assumption
    | with_reducible apply setEyelet_kept
    | with_reducible exact KeptO.none _
    | with_reducible refine KeptO.some ?_
    | with_reducible refine KeptO.ite ?_ ?_
    | split

theorem oppResend_kept {z : State} (s : State) (k : Nat) (service : Bool) (hz : Kept z s) : KeptO z (oppResend s k service) := by
  unfold oppResend
  try dsimp only
  repeat' first
    | with_reducible assumption
    | with_reducible apply resendUnit_kept
    | with_reducible refine KeptO.map (fun _ => ?_)

theorem oppSched_kept {z : State} (s : State) (k : Nat) (late : Bool) (hz : Kept z s) : KeptO z (oppSched s k late) := by
  unfold oppSched
  try dsimp only
  repeat' first
    | with_reducible assumption
    | with_reducible apply setEyelet_kept
    | with_reducible apply sendUnit_kept
    | with_reducible exact KeptO.none _
    | with_reducible refine KeptO.some ?_
    | with_reducible refine KeptO.ite ?_ ?_
    | split

theorem oppCtl_kept {z : State} (s : State) (k : Nat) (hz : Kept z s) : KeptO z (oppCtl s k) := by
  unfold oppCtl
  try dsimp only
  repeat' first
    | with_reducible assumption
    | with_reducible apply setEyelet_kept
    | with_reducible exact KeptO.none _
    | with_reducible refine KeptO.some ?_
    | with_reducible refine KeptO.ite ?_ ?_
    | split

theorem oppSvc_kept {z : State} (s : State) (k : Nat) (hz : Kept z s) : KeptO z (oppSvc s k) := by
  unfold oppSvc
  try dsimp only
  repeat' first
    | with_reducible assumption
    | with_reducible apply setEyelet_kept
    | with_reducible apply sendUnit_kept
    | with_reducible apply moved_kept
    | with_reducible apply touchBank_kept
    | with_reducible apply credBack_kept
    | with_reducible exact KeptO.none _
    | with_reducible refine KeptO.some ?_
    | with_reducible refine KeptO.ite ?_ ?_
    | split

theorem execUnitOpportunity_kept (eyelet : Nat) (s : State) {t : State} (e : execUnitOpportunity eyelet s = .next t) : Kept s t := by
  unfold execUnitOpportunity at e
  injection e with e; subst e
  try dsimp only
  repeat' first
    | with_reducible exact Kept.refl _
    | with_reducible apply sendNow_kept
    | with_reducible apply eventLimited_kept
    | with_reducible apply oppTongue_kept
    | with_reducible apply oppResend_kept
    | with_reducible apply oppSched_kept
    | with_reducible apply oppCtl_kept
    | with_reducible apply oppSvc_kept
    | (with_reducible refine Kept.ite (fun _ => ?_) (fun _ => ?_))
    | with_reducible refine KeptO.orElse ?_ ?_
    | with_reducible refine KeptO.getD ?_ ?_
    | split

end Sys2Proof.Laws
end

