-- ==== Sys2Proof/Laws/KeptTongue.lean ====
section
/-! SUPPORT. What the operations and commands of Machine/Tongue.lean keep (Safety.Kept). -/
namespace Sys2Proof.Laws
open Sys2Proof.Machine Sys2Proof.Safety

theorem acceptTongue_kept {z : State} (s : State) (k : Nat) (item : List Byte) (hz : Kept z s) : Kept z (acceptTongue s k item).1 := by
  unfold acceptTongue
  try dsimp only
  repeat' first
    | with_reducible assumption
    | with_reducible apply takeItem_kept
    | with_reducible apply queueNak_kept
    | with_reducible apply violation_kept
    | with_reducible apply setEyelet_kept
    | (with_reducible refine Kept.iteP (fun _ => ?_) (fun _ => ?_))
    | split

theorem breakOffer_kept {z : State} (s : State) (k : Nat) (hz : Kept z s) : Kept z (breakOffer s k) := by
  unfold breakOffer
  repeat' first
    | with_reducible assumption
    | with_reducible apply violation_kept
    | with_reducible apply setEyelet_kept
    | (with_reducible refine Kept.ite (fun _ => ?_) (fun _ => ?_))

theorem forward_kept {z : State} (s : State) (k : Nat) (m : Tongue) (parts : List (List Byte)) (hz : Kept z s) : Kept z (forward s k m parts).1 := by
  unfold forward
  repeat' first
    | with_reducible assumption
    | with_reducible apply floodOut_kept
    | (with_reducible refine Kept.iteP (fun _ => ?_) (fun _ => ?_))

theorem foreign_kept {z : State} (s : State) (m : Tongue) (hz : Kept z s) : Kept z (foreign s m) := by
  unfold foreign
  try dsimp only
  repeat' first
    | with_reducible assumption
    | with_reducible apply event_kept
    | (with_reducible refine Kept.ite (fun _ => ?_) (fun _ => ?_))
    | split
    | (with_reducible refine Kept.put ?_ ?_ ?_ ?_ ?_ ?_ ?_ ?_ ?_ ?_ ?_; with_reducible assumption)
    | with_reducible exact id
    | solve | (with_reducible apply SvcOk.keep <;> simp +contextual)

theorem tongueIn_kept {z : State} (s : State) (k : Nat) (item : List Byte) (type : Nat)
    (act : State → Tongue → Nat → State) (ha : ∀ x m a, Kept x (act x m a)) (hz : Kept z s) :
    Kept z (tongueIn s k item type act) := by
  unfold tongueIn
  dsimp only
  repeat' first
    | with_reducible assumption
    | with_reducible apply violation_kept
    | with_reducible apply breakOffer_kept
    | with_reducible apply foreign_kept
    | (with_reducible refine Kept.trans ?_ (ha _ _ _))
    | with_reducible refine Kept.of_pair (by assumption) ?_
    | with_reducible apply acceptTongue_kept
    | with_reducible apply forward_kept
    | (with_reducible refine Kept.ite (fun _ => ?_) (fun _ => ?_))
    | split

theorem setBarrier_kept {z : State} (s : State) (f : Barrier → Barrier) (hz : Kept z s) : Kept z (setBarrier s f) := by
  unfold setBarrier
  repeat' first
    | with_reducible assumption
    | with_reducible apply setJob_kept

theorem refuseBarrier_kept {z : State} (s : State) (reason : Nat) (hz : Kept z s) : Kept z (refuseBarrier s reason) := by
  unfold refuseBarrier
  try dsimp only
  repeat' first
    | with_reducible assumption
    | with_reducible apply refuseSlot_kept
    | with_reducible apply complete_kept
    | with_reducible apply event_kept
    | with_reducible apply setJobState_kept
    | with_reducible apply setBarrier_kept
    | with_reducible apply orderPace_kept
    | (with_reducible refine Kept.ite (fun _ => ?_) (fun _ => ?_))
    | split

theorem abortBarrier_kept {z : State} (s : State) (reason lchip eyelet : Nat) (hz : Kept z s) : Kept z (abortBarrier s reason lchip eyelet) := by
  unfold abortBarrier
  repeat' first
    | with_reducible assumption
    | with_reducible apply refuseBarrier_kept
    | with_reducible apply originate_kept
    | split

theorem judgeReady_kept {z : State} (s : State) (hz : Kept z s) : Kept z (judgeReady s) := by
  unfold judgeReady
  try dsimp only
  repeat' first
    | with_reducible assumption
    | with_reducible apply abortBarrier_kept
    | with_reducible apply originate_kept
    | with_reducible apply setBarrier_kept
    | (with_reducible refine Kept.ite (fun _ => ?_) (fun _ => ?_))
    | split

theorem countReady_kept {z : State} (s : State) (r : ReadyMsg) (hz : Kept z s) : Kept z (countReady s r) := by
  unfold countReady
  repeat' first
    | with_reducible assumption
    | with_reducible apply judgeReady_kept
    | with_reducible apply setBarrier_kept
    | (with_reducible refine Kept.ite (fun _ => ?_) (fun _ => ?_))
    | split

theorem execBarrierReady_kept (s : State) {t : State} (e : execBarrierReady s = .next t) : Kept s t := by
  unfold execBarrierReady at e
  injection e with e; subst e
  try dsimp only
  repeat' first
    | with_reducible exact Kept.refl _
    | with_reducible apply setBarrier_kept
    | with_reducible apply originate_kept
    | with_reducible apply countReady_kept
    | (with_reducible refine Kept.ite (fun _ => ?_) (fun _ => ?_))
    | split

theorem execBarrierTimeout_kept (s : State) {t : State} (e : execBarrierTimeout s = .next t) : Kept s t := by
  unfold execBarrierTimeout at e
  injection e with e; subst e
  try dsimp only
  repeat' first
    | with_reducible exact Kept.refl _
    | with_reducible apply abortBarrier_kept
    | (with_reducible refine Kept.ite (fun _ => ?_) (fun _ => ?_))
    | split

theorem execBarrierSelfEnd_kept (s : State) {t : State} (e : execBarrierSelfEnd s = .next t) : Kept s t := by
  unfold execBarrierSelfEnd at e
  injection e with e; subst e
  repeat' first
    | with_reducible exact Kept.refl _
    | with_reducible apply refuseBarrier_kept
    | (with_reducible refine Kept.ite (fun _ => ?_) (fun _ => ?_))
    | split

theorem execOffer_kept (eyelet : Nat) (item : List Byte) (s : State) {t : State} (e : execOffer eyelet item s = .next t) : Kept s t := by
  unfold execOffer at e
  injection e with e; subst e
  try dsimp only
  repeat' first
    | with_reducible exact Kept.refl _
    | with_reducible apply acceptTongue_kept
    | with_reducible apply breakOffer_kept
    | with_reducible apply violation_kept
    | with_reducible apply setEyelet_kept
    | (with_reducible refine Kept.ite (fun _ => ?_) (fun _ => ?_))
    | with_reducible refine Kept.of_pair (by assumption) ?_
    | split

theorem offerWhole_kept {z : State} (s : State) (k : Nat) (m : Tongue) (parts : List (List Byte)) (hz : Kept z s) : Kept z (offerWhole s k m parts) := by
  unfold offerWhole
  repeat' first
    | with_reducible assumption
    | with_reducible apply forward_kept
    | with_reducible apply setBarrier_kept
    | with_reducible apply foreign_kept
    | (with_reducible refine Kept.ite (fun _ => ?_) (fun _ => ?_))
    | with_reducible refine Kept.of_pair (by assumption) ?_
    | split

theorem execOfferPart_kept (eyelet : Nat) (item : List Byte) (s : State) {t : State} (e : execOfferPart eyelet item s = .next t) : Kept s t := by
  unfold execOfferPart at e
  injection e with e; subst e
  repeat' first
    | with_reducible exact Kept.refl _
    | with_reducible apply acceptTongue_kept
    | with_reducible apply violation_kept
    | with_reducible apply breakOffer_kept
    | with_reducible apply setEyelet_kept
    | with_reducible apply offerWhole_kept
    | (with_reducible refine Kept.ite (fun _ => ?_) (fun _ => ?_))
    | with_reducible refine Kept.of_pair (by assumption) ?_
    | split

theorem execReady_kept (eyelet : Nat) (item : List Byte) (s : State) {t : State} (e : execReady eyelet item s = .next t) : Kept s t := by
  unfold execReady at e
  injection e with e; subst e
  repeat' first
    | with_reducible exact Kept.refl _
    | with_reducible apply tongueIn_kept
    | with_reducible apply countReady_kept
    | split
    | intro _

theorem execStart_kept (eyelet : Nat) (item : List Byte) (s : State) {t : State} (e : execStart eyelet item s = .next t) : Kept s t := by
  unfold execStart at e
  injection e with e; subst e
  try dsimp only
  repeat' first
    | with_reducible exact Kept.refl _
    | with_reducible apply tongueIn_kept
    | with_reducible apply event_kept
    | with_reducible apply setBarrier_kept
    | (with_reducible refine Kept.ite (fun _ => ?_) (fun _ => ?_))
    | split
    | intro _

theorem execAbort_kept (eyelet : Nat) (item : List Byte) (s : State) {t : State} (e : execAbort eyelet item s = .next t) : Kept s t := by
  unfold execAbort at e
  injection e with e; subst e
  try dsimp only
  repeat' first
    | with_reducible exact Kept.refl _
    | with_reducible apply tongueIn_kept
    | with_reducible apply refuseBarrier_kept
    | split
    | intro _

theorem noteAnnouncer_kept {z : State} (s : State) (lchip slip : Nat) (hz : Kept z s) : Kept z (noteAnnouncer s lchip slip) := by
  unfold noteAnnouncer
  repeat' first
    | with_reducible assumption
    | with_reducible apply setBarrier_kept
    | (with_reducible refine Kept.ite (fun _ => ?_) (fun _ => ?_))

theorem judgeSlip_kept {z : State} (s : State) (p : Nat) (hz : Kept z s) : Kept z (judgeSlip s p) := by
  unfold judgeSlip
  try dsimp only
  repeat' first
    | with_reducible assumption
    | with_reducible apply originate_kept
    | with_reducible apply setBarrier_kept
    | (with_reducible refine Kept.ite (fun _ => ?_) (fun _ => ?_))
    | split

theorem execSlipAnnounce_kept (s : State) {t : State} (e : execSlipAnnounce s = .next t) : Kept s t := by
  unfold execSlipAnnounce at e
  injection e with e; subst e
  try dsimp only
  repeat' first
    | with_reducible exact Kept.refl _
    | with_reducible apply originate_kept
    | with_reducible apply noteAnnouncer_kept
    | with_reducible apply event_kept
    | with_reducible apply setBarrier_kept
    | (with_reducible refine Kept.ite (fun _ => ?_) (fun _ => ?_))
    | split

theorem execSlip_kept (eyelet : Nat) (item : List Byte) (s : State) {t : State} (e : execSlip eyelet item s = .next t) : Kept s t := by
  unfold execSlip at e
  injection e with e; subst e
  repeat' first
    | with_reducible exact Kept.refl _
    | with_reducible apply tongueIn_kept
    | with_reducible apply event_kept
    | with_reducible apply noteAnnouncer_kept
    | with_reducible apply setBarrier_kept
    | split
    | intro _

theorem execSlipReady_kept (eyelet : Nat) (item : List Byte) (s : State) {t : State} (e : execSlipReady eyelet item s = .next t) : Kept s t := by
  unfold execSlipReady at e
  injection e with e; subst e
  repeat' first
    | with_reducible exact Kept.refl _
    | with_reducible apply tongueIn_kept
    | with_reducible apply judgeSlip_kept
    | with_reducible apply setBarrier_kept
    | split
    | intro _

theorem execResume_kept (eyelet : Nat) (item : List Byte) (s : State) {t : State} (e : execResume eyelet item s = .next t) : Kept s t := by
  unfold execResume at e
  injection e with e; subst e
  repeat' first
    | with_reducible exact Kept.refl _
    | with_reducible apply tongueIn_kept
    | with_reducible apply setBarrier_kept
    | split
    | intro _

theorem execStop_kept (eyelet : Nat) (item : List Byte) (s : State) {t : State} (e : execStop eyelet item s = .next t) : Kept s t := by
  unfold execStop at e
  injection e with e; subst e
  try dsimp only
  repeat' first
    | with_reducible exact Kept.refl _
    | with_reducible apply tongueIn_kept
    | with_reducible apply event_kept
    | with_reducible apply setBarrier_kept
    | with_reducible apply enterStopped_kept
    | split
    | intro _

theorem execPace_kept (eyelet : Nat) (item : List Byte) (s : State) {t : State} (e : execPace eyelet item s = .next t) : Kept s t := by
  unfold execPace at e
  injection e with e; subst e
  try dsimp only
  repeat' first
    | with_reducible exact Kept.refl _
    | with_reducible apply tongueIn_kept
    | with_reducible apply event_kept
    | split
    | (with_reducible refine Kept.put ?_ ?_ ?_ ?_ ?_ ?_ ?_ ?_ ?_ ?_ ?_; with_reducible exact Kept.refl _)
    | with_reducible exact id
    | solve | (with_reducible apply ClkOk.keep <;> simp +contextual)
    | intro _

end Sys2Proof.Laws
end

