-- ==== Sys2Proof/Laws/KeptJobs.lean ====
section
/-! SUPPORT. What the operations and commands of Machine/Jobs.lean keep (Safety.Kept). -/
namespace Sys2Proof.Laws
open Sys2Proof.Machine Sys2Proof.Safety

theorem hbmClear_kept {z : State} (s : State) (a n : Nat) (hz : Kept z s) : Kept z (hbmClear s a n) := by
  unfold hbmClear
  try dsimp only
  repeat' first
    | (with_reducible refine Kept.put ?_ ?_ ?_ ?_ ?_ ?_ ?_ ?_ ?_ ?_ ?_; with_reducible assumption)
    | with_reducible exact id
    | solve | (with_reducible apply MemOk.keep <;> simp +contextual)

theorem freshStore_kept {z : State} (s : State) (t : Store) (hz : Kept z s) : Kept z (freshStore s t) := by
  unfold freshStore
  try dsimp only
  repeat' first
    | with_reducible assumption
    | with_reducible exact Kept.refl _
    | with_reducible apply hbmClear_kept
    | with_reducible apply clearPages_kept
    | (with_reducible refine Kept.foldl (fun _ _ => ?_) ?_ _)

theorem runJobOpen_kept {z : State} (s : State) (d : Desc) (hz : Kept z s) : Kept z (runJobOpen s d) := by
  unfold runJobOpen
  try dsimp only
  repeat' first
    | with_reducible assumption
    | with_reducible apply badState_kept
    | with_reducible apply badDesc_kept
    | with_reducible apply hbmClear_kept
    | with_reducible apply freshStore_kept
    | with_reducible apply doneDesc_kept
    | (with_reducible refine Kept.ite (fun _ => ?_) (fun _ => ?_))
    | split
    | (with_reducible refine Kept.put ?_ ?_ ?_ ?_ ?_ ?_ ?_ ?_ ?_ ?_ ?_; with_reducible apply setLast_kept)
    | with_reducible exact id
    | solve | (with_reducible apply MemOk.keep <;> simp +contextual)
    | solve | (with_reducible apply ClkOk.keep <;> simp +contextual)

theorem execJobOpen_kept (d : Desc) (s : State) {t : State} (e : execJobOpen d s = .next t) : Kept s t := by
  unfold execJobOpen at e
  injection e with e; subst e
  repeat' first
    | with_reducible exact Kept.refl _
    | with_reducible apply onDesc_kept
    | with_reducible apply runJobOpen_kept
    | intro _

theorem leaderStart_kept {z : State} (s : State) (l : LoadedLast) (hz : Kept z s) : Kept z (leaderStart s l) := by
  unfold leaderStart
  try dsimp only
  repeat' first
    | with_reducible assumption
    | with_reducible apply setJob_kept
    | with_reducible apply setBarrier_kept
    | with_reducible apply originate_kept
    | (with_reducible refine Kept.put ?_ ?_ ?_ ?_ ?_ ?_ ?_ ?_ ?_ ?_ ?_; with_reducible apply hbmClear_kept)
    | with_reducible exact id
    | solve | (with_reducible apply HeelOk.keep <;> simp +contextual)

theorem runJobStart_kept {z : State} (s : State) (d : Desc) (hz : Kept z s) : Kept z (runJobStart s d) := by
  unfold runJobStart
  try dsimp only
  repeat' first
    | with_reducible assumption
    | with_reducible apply badState_kept
    | with_reducible apply setJob_kept
    | with_reducible apply orderPace_kept
    | with_reducible apply setJobState_kept
    | with_reducible apply leaderStart_kept
    | (with_reducible refine Kept.ite (fun _ => ?_) (fun _ => ?_))
    | split

theorem execJobStart_kept (d : Desc) (s : State) {t : State} (e : execJobStart d s = .next t) : Kept s t := by
  unfold execJobStart at e
  injection e with e; subst e
  repeat' first
    | with_reducible exact Kept.refl _
    | with_reducible apply onDesc_kept
    | with_reducible apply runJobStart_kept
    | intro _

theorem endWaiting_kept {z : State} (s : State) (q : Request) (hz : Kept z s) : Kept z (endWaiting s q) := by
  unfold endWaiting
  repeat' first
    | with_reducible assumption
    | with_reducible apply failRequest_kept
    | (with_reducible refine Kept.ite (fun _ => ?_) (fun _ => ?_))

theorem runJobDrain_kept {z : State} (s : State) (d : Desc) (hz : Kept z s) : Kept z (runJobDrain s d) := by
  unfold runJobDrain
  try dsimp only
  repeat' first
    | with_reducible assumption
    | with_reducible exact Kept.refl _
    | with_reducible apply badState_kept
    | with_reducible apply setJob_kept
    | with_reducible apply endWaiting_kept
    | with_reducible apply setJobState_kept
    | (with_reducible refine Kept.foldl (fun _ _ => ?_) ?_ _)
    | (with_reducible refine Kept.ite (fun _ => ?_) (fun _ => ?_))
    | split

theorem execJobDrain_kept (d : Desc) (s : State) {t : State} (e : execJobDrain d s = .next t) : Kept s t := by
  unfold execJobDrain at e
  injection e with e; subst e
  repeat' first
    | with_reducible exact Kept.refl _
    | with_reducible apply onDesc_kept
    | with_reducible apply runJobDrain_kept
    | intro _

theorem completeDrains_kept {z : State} (s : State) (hz : Kept z s) : Kept z (completeDrains s) := by
  unfold completeDrains
  repeat' first
    | with_reducible assumption
    | with_reducible exact Kept.refl _
    | with_reducible apply refuseSlot_kept
    | with_reducible apply complete_kept
    | with_reducible apply setJob_kept
    | (with_reducible refine Kept.foldl (fun _ _ => ?_) ?_ _)
    | split

theorem execJobDrainComplete_kept (s : State) {t : State} (e : execJobDrainComplete s = .next t) : Kept s t := by
  unfold execJobDrainComplete at e
  injection e with e; subst e
  repeat' first
    | with_reducible exact Kept.refl _
    | with_reducible apply completeDrains_kept
    | with_reducible apply setJob_kept
    | (with_reducible refine Kept.ite (fun _ => ?_) (fun _ => ?_))
    | split

theorem closeJob_kept {z : State} (s : State) (hz : Kept z s) : Kept z (closeJob s) := by
  unfold closeJob
  try dsimp only
  repeat' first
    | with_reducible assumption
    | with_reducible exact Kept.refl _
    | with_reducible apply failRequest_kept
    | with_reducible apply refuseSlot_kept
    | with_reducible apply complete_kept
    | with_reducible apply dropWork_kept
    | with_reducible apply applyPendingTiles_kept
    | with_reducible apply syncDev_kept
    | (with_reducible refine Kept.foldl (fun _ _ => ?_) ?_ _)
    | split
    | (with_reducible refine Kept.put ?_ ?_ ?_ ?_ ?_ ?_ ?_ ?_ ?_ ?_ ?_; with_reducible apply setLast_kept)
    | with_reducible exact id

theorem runJobClose_kept {z : State} (s : State) (d : Desc) (hz : Kept z s) : Kept z (runJobClose s d) := by
  unfold runJobClose
  try dsimp only
  repeat' first
    | with_reducible assumption
    | with_reducible apply badState_kept
    | with_reducible apply closeJob_kept
    | with_reducible apply hostWrite_kept
    | with_reducible apply doneDesc_kept
    | (with_reducible refine Kept.ite (fun _ => ?_) (fun _ => ?_))
    | split

theorem execJobClose_kept (d : Desc) (s : State) {t : State} (e : execJobClose d s = .next t) : Kept s t := by
  unfold execJobClose at e
  injection e with e; subst e
  repeat' first
    | with_reducible exact Kept.refl _
    | with_reducible apply onDesc_kept
    | with_reducible apply runJobClose_kept
    | intro _

theorem runReq_kept {z : State} (input : List Byte) (s : State) (d : Desc) (hz : Kept z s) : Kept z (runReq input s d) := by
  unfold runReq
  try dsimp only
  repeat' first
    | with_reducible assumption
    | with_reducible apply badState_kept
    | with_reducible apply badFrame_kept
    | with_reducible apply setJob_kept
    | (with_reducible refine Kept.ite (fun _ => ?_) (fun _ => ?_))
    | split

theorem execReq_kept (d : Desc) (input : List Byte) (s : State) {t : State} (e : execReq d input s = .next t) : Kept s t := by
  unfold execReq at e
  injection e with e; subst e
  repeat' first
    | with_reducible exact Kept.refl _
    | with_reducible apply onDesc_kept
    | with_reducible apply runReq_kept
    | intro _

end Sys2Proof.Laws
end

