-- ==== Sys2Proof/Laws/KeptCkpt.lean ====
section
/-! SUPPORT. What the operations and commands of Machine/Ckpt.lean keep (Safety.Kept). -/
namespace Sys2Proof.Laws
open Sys2Proof.Machine Sys2Proof.Safety

theorem writeImage_kept {z : State} (s : State) (j : Job) (l : LoadedLast) (t : Store) (reqs : List Byte) (qs : List CkptReq) (fs : List CkptFrame) (c : Ckpt) (hz : Kept z s) : Kept z (writeImage s j l t reqs qs fs c) := by
  unfold writeImage
  try dsimp only
  repeat' first
    | with_reducible assumption
    | with_reducible apply refuseSlot_kept
    | with_reducible apply complete_kept
    | with_reducible apply hbmUncorrected_kept
    | with_reducible apply hostWrite_kept
    | (with_reducible refine Kept.ite (fun _ => ?_) (fun _ => ?_))
    | split

theorem execCheckpointImageWrite_kept (reqs : List Byte) (s : State) {t : State} (e : execCheckpointImageWrite reqs s = .next t) : Kept s t := by
  unfold execCheckpointImageWrite at e
  injection e with e; subst e
  try dsimp only
  repeat' first
    | with_reducible exact Kept.refl _
    | with_reducible apply setJob_kept
    | with_reducible apply writeImage_kept
    | (with_reducible refine Kept.ite (fun _ => ?_) (fun _ => ?_))
    | split

theorem runJobCheckpoint_kept {z : State} (s : State) (d : Desc) (hz : Kept z s) : Kept z (runJobCheckpoint s d) := by
  unfold runJobCheckpoint
  try dsimp only
  repeat' first
    | with_reducible assumption
    | with_reducible apply badState_kept
    | with_reducible apply setJob_kept
    | (with_reducible refine Kept.ite (fun _ => ?_) (fun _ => ?_))

theorem execJobCheckpoint_kept (d : Desc) (s : State) {t : State} (e : execJobCheckpoint d s = .next t) : Kept s t := by
  unfold execJobCheckpoint at e
  injection e with e; subst e
  repeat' first
    | with_reducible exact Kept.refl _
    | with_reducible apply onDesc_kept
    | with_reducible apply runJobCheckpoint_kept
    | intro _

theorem restoreFrame_kept {z : State} (t : Store) (qs : List CkptReq) (s : State) (f : CkptFrame) (hz : Kept z s) : Kept z (restoreFrame t qs s f) := by
  unfold restoreFrame
  try dsimp only
  repeat' first
    | with_reducible assumption
    | with_reducible apply setFrame_kept
    | with_reducible apply hbmWrite_kept
    | (with_reducible refine Kept.ite (fun _ => ?_) (fun _ => ?_))

theorem restorePages_kept {z : State} (t : Store) (s : State) (q : CkptReq) (hz : Kept z s) : Kept z (restorePages t s q) := by
  unfold restorePages
  try dsimp only
  repeat' first
    | with_reducible assumption
    | with_reducible exact Kept.refl _
    | with_reducible apply setPage_kept
    | (with_reducible refine Kept.foldl (fun _ _ => ?_) ?_ _)

theorem restoreSlices_kept {z : State} (s : State) (l : LoadedLast) (b : List Byte) (pages : List Nat) (hz : Kept z s) : Kept z (restoreSlices s l b pages) := by
  unfold restoreSlices
  try dsimp only
  repeat' first
    | with_reducible assumption
    | with_reducible exact Kept.refl _
    | with_reducible apply hbmWrite_kept
    | (with_reducible refine Kept.foldl (fun _ _ => ?_) ?_ _)

theorem leaveRequests_kept {z : State} (s : State) (leads : Bool) (hz : Kept z s) : Kept z (leaveRequests s leads).1 := by
  unfold leaveRequests
  try dsimp only
  repeat' first
    | with_reducible assumption
    | with_reducible exact Kept.refl _
    | with_reducible apply setRing_kept
    | with_reducible apply failRequest_kept
    | (with_reducible refine Kept.foldl (fun _ _ => ?_) ?_ _)
    | (with_reducible refine Kept.iteP (fun _ => ?_) (fun _ => ?_))
    | split

theorem moveWeights_kept {z : State} (s : State) (old new : LoadedLast) (hz : Kept z s) : Kept z (moveWeights s old new) := by
  unfold moveWeights
  repeat' first
    | with_reducible assumption
    | with_reducible exact Kept.refl _
    | with_reducible apply insoleWrite_kept
    | (with_reducible refine Kept.foldl (fun _ _ => ?_) ?_ _)
    | (with_reducible refine Kept.ite (fun _ => ?_) (fun _ => ?_))

theorem doRelast_kept {z : State} (s : State) (d : Desc) (old : Option LoadedLast) (others : List LoadedLast) (l : LoadedLast) (b : List Byte) (qs : List CkptReq) (fs : List CkptFrame) (hz : Kept z s) : Kept z (doRelast s d old others l b qs fs) := by
  unfold doRelast
  try dsimp only
  repeat' first
    | with_reducible assumption
    | with_reducible exact Kept.refl _
    | with_reducible apply moveWeights_kept
    | with_reducible apply placeConsts_kept
    | with_reducible apply freshStore_kept
    | with_reducible apply restoreSlices_kept
    | with_reducible apply restoreFrame_kept
    | with_reducible apply restorePages_kept
    | with_reducible apply setJob_kept
    | with_reducible apply doneDesc_kept
    | with_reducible apply syncDev_kept
    | with_reducible apply lastLoaded_kept
    | (with_reducible refine Kept.foldl (fun _ _ => ?_) ?_ _)
    | (with_reducible refine Kept.ite (fun _ => ?_) (fun _ => ?_))
    | split
    | (with_reducible refine Kept.put ?_ ?_ ?_ ?_ ?_ ?_ ?_ ?_ ?_ ?_ ?_; with_reducible apply leaveRequests_kept)
    | with_reducible exact id
    | solve | (with_reducible apply ClkOk.keep <;> simp +contextual)

theorem runJobRelast_kept {z : State} (image arr ckpt : List Byte) (sched : Schedule) (s : State) (d : Desc) (hz : Kept z s) : Kept z (runJobRelast image arr ckpt sched s d) := by
  unfold runJobRelast
  try dsimp only
  repeat' first
    | with_reducible assumption
    | with_reducible apply badState_kept
    | with_reducible apply applyPendingTiles_kept
    | with_reducible apply refuseLast_kept
    | with_reducible apply badDesc_kept
    | with_reducible apply doRelast_kept
    | with_reducible apply badFrame_kept
    | (with_reducible refine Kept.ite (fun _ => ?_) (fun _ => ?_))
    | split

theorem execJobRelast_kept (d : Desc) (image arr ckpt : List Byte) (sched : Schedule) (s : State) {t : State} (e : execJobRelast d image arr ckpt sched s = .next t) : Kept s t := by
  unfold execJobRelast at e
  injection e with e; subst e
  repeat' first
    | with_reducible exact Kept.refl _
    | with_reducible apply onDesc_kept
    | with_reducible apply runJobRelast_kept
    | intro _

end Sys2Proof.Laws
end

