-- ==== Sys2Proof/Laws/KeptWork.lean ====
section
/-! SUPPORT. What the operations and commands of Machine/Work.lean keep (Safety.Kept). -/
namespace Sys2Proof.Laws
open Sys2Proof.Machine Sys2Proof.Safety

theorem setRegion_kept {z : State} (s : State) (r : Nat) (f : Region → Region) (hz : Kept z s) : Kept z (setRegion s r f) := by
  unfold setRegion
  try dsimp only
  repeat' first
    | (with_reducible refine Kept.put ?_ ?_ ?_ ?_ ?_ ?_ ?_ ?_ ?_ ?_ ?_; with_reducible assumption)
    | with_reducible exact id
    | solve | (with_reducible apply ClkOk.keep <;> simp +contextual)

theorem setAwl_kept {z : State} (s : State) (f : Awl → Awl) (hz : Kept z s) : Kept z (setAwl s f) := by
  unfold setAwl
  repeat' first
    | with_reducible assumption
    | with_reducible apply setJob_kept

theorem ran_kept {z : State} (s : State) (hz : Kept z s) : Kept z (ran s).s := by
  unfold ran
  try dsimp only
  repeat' first
    | with_reducible assumption

theorem waits_kept {z : State} (s : State) (hz : Kept z s) : Kept z (waits s).s := by
  unfold waits
  try dsimp only
  repeat' first
    | with_reducible assumption

theorem judged_kept {z : State} (s : State) (f : Finding) (relaxed : State → Ran) (hr : ∀ x, Kept x (relaxed x).s)
    (hz : Kept z s) : Kept z (judged s f relaxed).s := by
  unfold judged
  exact Kept.iteP (fun _ => Kept.trans (interlock_kept _ _ hz) (hr _)) fun _ => hz

theorem holdFor_kept {z : State} (s : State) (r check n : Nat) (hz : Kept z s) : Kept z (holdFor s r check n) := by
  unfold holdFor
  repeat' first
    | with_reducible assumption
    | with_reducible apply setRegion_kept
    | (with_reducible refine Kept.ite (fun _ => ?_) (fun _ => ?_))

theorem fullQueue_kept {z : State} (s : State) (c : At) (consumer : Nat) (f : Finding) (hz : Kept z s) : Kept z (fullQueue s c consumer f).s := by
  unfold fullQueue
  repeat' first
    | with_reducible assumption
    | with_reducible exact Kept.refl _
    | with_reducible apply waits_kept
    | with_reducible apply judged_kept
    | with_reducible apply setRegion_kept
    | (with_reducible refine Kept.iteP (fun _ => ?_) (fun _ => ?_))
    | intro _

theorem readOr_kept {z : State} (s : State) (t a n : Nat) (k : List Byte → Ran) (hk : ∀ bs, Kept z (k bs).s)
    (hz : Kept z s) : Kept z (readOr s t a n k).s := by
  unfold readOr
  split
  · exact insoleUncorrected_kept _ _ _ hz
  · exact hk _

theorem writeOr_kept {z : State} (s : State) (c : At) (lt a : Nat) (task : Option Nat) (bs : List Byte) (hz : Kept z s) : Kept z (writeOr s c lt a task bs).s := by
  unfold writeOr
  repeat' first
    | with_reducible assumption
    | with_reducible apply ran_kept
    | with_reducible apply insoleWrite_kept
    | split

theorem addLater_kept {z : State} (s : State) (r js : Nat) (x : Later) (hz : Kept z s) : Kept z (addLater s r js x) := by
  unfold addLater
  repeat' first
    | with_reducible assumption
    | with_reducible apply setJob_kept

theorem startTask_kept {z : State} (s : State) (c : At) (a : TileAction) (t : Task) (hz : Kept z s) : Kept z (startTask s c a t).s := by
  unfold startTask
  try dsimp only
  repeat' first
    | with_reducible assumption
    | with_reducible exact Kept.refl _
    | with_reducible apply ran_kept
    | with_reducible apply insoleUncorrected_kept
    | with_reducible apply setAwl_kept
    | with_reducible apply addLater_kept
    | (with_reducible refine Kept.foldl (fun _ _ => ?_) ?_ _)
    | (with_reducible refine Kept.ite (fun _ => ?_) (fun _ => ?_))
    | split

theorem judgeStall_kept {z : State} (s : State) (c : At) (a : TileAction) (t : Task) (hz : Kept z s) : Kept z (judgeStall s c a t).s := by
  unfold judgeStall
  repeat' first
    | with_reducible assumption
    | with_reducible exact Kept.refl _
    | with_reducible apply judged_kept
    | with_reducible apply startTask_kept
    | with_reducible apply holdFor_kept
    | (with_reducible refine Kept.iteP (fun _ => ?_) (fun _ => ?_))
    | intro _

theorem issueTask_kept {z : State} (s : State) (c : At) (a : TileAction) (t : Task) (hz : Kept z s) : Kept z (issueTask s c a t).s := by
  unfold issueTask
  try dsimp only
  repeat' first
    | with_reducible assumption
    | with_reducible exact Kept.refl _
    | with_reducible apply judged_kept
    | with_reducible apply waits_kept
    | with_reducible apply setRegion_kept
    | with_reducible apply holdFor_kept
    | with_reducible apply judgeStall_kept
    | (with_reducible refine Kept.iteP (fun _ => ?_) (fun _ => ?_))
    | intro _

theorem portAct_kept {z : State} (s : State) (c : At) (a : TileAction) (rd wr : Nat) (hz : Kept z s) : Kept z (portAct s c a rd wr).s := by
  unfold portAct
  try dsimp only
  repeat' first
    | with_reducible assumption
    | with_reducible exact Kept.refl _
    | with_reducible apply ran_kept
    | with_reducible apply judged_kept
    | with_reducible apply holdFor_kept
    | (with_reducible refine Kept.iteP (fun _ => ?_) (fun _ => ?_))
    | intro _

theorem setQueue_kept {z : State} (s : State) (q : TileQueue) (f : List (Nat × Nat) → List (Nat × Nat)) (hz : Kept z s) : Kept z (setQueue s q f) := by
  unfold setQueue
  repeat' first
    | with_reducible assumption
    | with_reducible apply setAwl_kept

theorem enqueueAct_kept {z : State} (s : State) (c : At) (a : TileAction) (q : TileQueue) (dst : Nat) (hz : Kept z s) : Kept z (enqueueAct s c a q dst).s := by
  unfold enqueueAct
  try dsimp only
  repeat' first
    | with_reducible assumption
    | with_reducible apply ran_kept
    | with_reducible apply setQueue_kept
    | with_reducible apply fullQueue_kept
    | (with_reducible refine Kept.iteP (fun _ => ?_) (fun _ => ?_))

theorem dequeueAct_kept {z : State} (s : State) (c : At) (a : TileAction) (q : TileQueue) (hz : Kept z s) : Kept z (dequeueAct s c a q).s := by
  unfold dequeueAct
  repeat' first
    | with_reducible assumption
    | with_reducible apply waits_kept
    | with_reducible apply ran_kept
    | with_reducible apply setQueue_kept
    | (with_reducible refine Kept.iteP (fun _ => ?_) (fun _ => ?_))

theorem sendMesh_kept {z : State} (s : State) (c : At) (a : TileAction) (dst bytes latency fromAddr toAddr extra : Nat) (hz : Kept z s) : Kept z (sendMesh s c a dst bytes latency fromAddr toAddr extra).s := by
  unfold sendMesh
  try dsimp only
  repeat' first
    | with_reducible assumption
    | with_reducible apply readOr_kept
    | with_reducible apply ran_kept
    | with_reducible apply setJob_kept
    | intro _

theorem meshAct_kept {z : State} (s : State) (c : At) (a : TileAction) (dst bytes latency fromAddr toAddr : Nat) (hz : Kept z s) : Kept z (meshAct s c a dst bytes latency fromAddr toAddr).s := by
  unfold meshAct
  try dsimp only
  repeat' first
    | with_reducible assumption
    | with_reducible exact Kept.refl _
    | with_reducible apply setAwl_kept
    | with_reducible apply sendMesh_kept
    | with_reducible apply judged_kept
    | with_reducible apply holdFor_kept
    | split
    | intro _

theorem hbmAct_kept {z : State} (s : State) (c : At) (a : TileAction) (addr doneAfter : Nat) (done : Nat → Later) (hz : Kept z s) : Kept z (hbmAct s c a addr doneAfter done).s := by
  unfold hbmAct
  try dsimp only
  repeat' first
    | with_reducible assumption
    | with_reducible apply ran_kept
    | with_reducible apply addLater_kept
    | with_reducible apply setAwl_kept
    | with_reducible apply fullQueue_kept
    | (with_reducible refine Kept.iteP (fun _ => ?_) (fun _ => ?_))

theorem makePost_kept {z : State} (s : State) (l : LoadedLast) (pt : Nat) (p : PostSpec) (hz : Kept z s) : Kept z (makePost s l pt p).s := by
  unfold makePost
  try dsimp only
  repeat' first
    | with_reducible assumption
    | with_reducible apply setAwl_kept
    | with_reducible apply readOr_kept
    | with_reducible apply ran_kept
    | with_reducible apply issue_kept
    | (with_reducible refine Kept.iteP (fun _ => ?_) (fun _ => ?_))
    | split
    | intro _

theorem postAct_kept {z : State} (s : State) (c : At) (a : TileAction) (p : PostSpec) (hz : Kept z s) : Kept z (postAct s c a p).s := by
  unfold postAct
  try dsimp only
  repeat' first
    | with_reducible assumption
    | with_reducible exact Kept.refl _
    | with_reducible apply ran_kept
    | with_reducible apply setAwl_kept
    | with_reducible apply judged_kept
    | with_reducible apply makePost_kept
    | with_reducible apply waits_kept
    | (with_reducible refine Kept.iteP (fun _ => ?_) (fun _ => ?_))
    | intro _

theorem waitAct_kept {z : State} (s : State) (c : At) (a : TileAction) (tack : Nat) (hz : Kept z s) : Kept z (waitAct s c a tack).s := by
  unfold waitAct
  try dsimp only
  repeat' first
    | with_reducible assumption
    | with_reducible apply fullQueue_kept
    | with_reducible apply tackWait_kept
    | with_reducible apply ran_kept
    | with_reducible apply setRegion_kept
    | (with_reducible refine Kept.iteP (fun _ => ?_) (fun _ => ?_))
    | with_reducible refine Kept.of_pair (by assumption) ?_
    | split

theorem runAct_kept {z : State} (s : State) (c : At) (a : TileAction) (hz : Kept z s) : Kept z (runAct s c a).s := by
  unfold runAct
  repeat' first
    | with_reducible assumption
    | with_reducible apply issueTask_kept
    | with_reducible apply portAct_kept
    | with_reducible apply enqueueAct_kept
    | with_reducible apply dequeueAct_kept
    | with_reducible apply meshAct_kept
    | with_reducible apply hbmAct_kept
    | with_reducible apply postAct_kept
    | with_reducible apply tackAdd_kept
    | with_reducible apply ran_kept
    | with_reducible apply waitAct_kept
    | split

theorem addDeparture_kept {z : State} (s : State) (k : Nat) (u : SchedUnit) (hz : Kept z s) : Kept z (addDeparture s k u) := by
  unfold addDeparture
  repeat' first
    | with_reducible assumption
    | with_reducible apply setAwl_kept
    | with_reducible apply setEyelet_kept

theorem departUnit_kept {z : State} (s : State) (c : At) (r : LaceRow) (k : Nat) (hz : Kept z s) : Kept z (departUnit s c r k).s := by
  unfold departUnit
  try dsimp only
  repeat' first
    | with_reducible assumption
    | with_reducible apply readOr_kept
    | with_reducible apply ran_kept
    | with_reducible apply addDeparture_kept
    | (with_reducible refine Kept.iteP (fun _ => ?_) (fun _ => ?_))
    | intro _

theorem forwardUnit_kept {z : State} (s : State) (c : At) (r : LaceRow) (k : Nat) (hz : Kept z s) : Kept z (forwardUnit s c r k) := by
  unfold forwardUnit
  try dsimp only
  repeat' first
    | with_reducible assumption
    | with_reducible exact Kept.refl _
    | with_reducible apply useLanded_kept
    | with_reducible apply addDeparture_kept
    | (with_reducible refine Kept.foldl (fun _ _ => ?_) ?_ _)
    | split

theorem deliverLanded_kept {z : State} (s : State) (c : At) (r : LaceRow) (k : Nat) (hz : Kept z s) : Kept z (deliverLanded s c r k).s := by
  unfold deliverLanded
  try dsimp only
  repeat' first
    | with_reducible assumption
    | with_reducible apply writeOr_kept
    | with_reducible apply useLanded_kept
    | with_reducible apply ran_kept
    | split

theorem runItem_kept {z : State} (s : State) (c : At) (w : Work) (hz : Kept z s) : Kept z (runItem s c w).s := by
  unfold runItem
  try dsimp only
  repeat' first
    | with_reducible assumption
    | with_reducible apply ran_kept
    | with_reducible apply runAct_kept
    | with_reducible apply departUnit_kept
    | with_reducible apply forwardUnit_kept
    | with_reducible apply deliverLanded_kept
    | (with_reducible refine Kept.iteP (fun _ => ?_) (fun _ => ?_))
    | split

theorem runItems_kept {z : State} (l : LoadedLast) (r n : Nat) : ∀ (ws : List Work) {acc : Acc}, Kept z acc.1 →
    Kept z (runItems l r n ws acc).1
  | [], _, hz => setRegion_kept _ _ _ hz
  | w :: ws, acc, hz => by
    unfold runItems
    dsimp only
    refine Kept.iteP (fun _ => hz) fun _ => Kept.iteP (fun _ => ?_) fun _ => ?_
    · exact setRegion_kept _ _ _ (runItem_kept _ _ _ hz)
    · exact runItems_kept l r n ws (setRegion_kept _ _ _ (runItem_kept _ _ _ hz))

theorem noteLate_kept {z : State} (l : LoadedLast) (n : Nat) (s : State) (w : Work) (hz : Kept z s) : Kept z (noteLate l n s w) := by
  unfold noteLate
  try dsimp only
  repeat' first
    | with_reducible assumption
    | with_reducible apply hbmWrite_kept
    | with_reducible apply event_kept
    | with_reducible apply setEyelet_kept
    | (with_reducible refine Kept.ite (fun _ => ?_) (fun _ => ?_))
    | split

theorem doLater_kept {z : State} (l : LoadedLast) (r n : Nat) (acc : Acc) (x : Later) (hz : Kept z acc.1) : Kept z (doLater l r n acc x).1 := by
  unfold doLater
  try dsimp only
  repeat' first
    | with_reducible assumption
    | with_reducible apply setAwl_kept
    | with_reducible apply writeOr_kept
    | with_reducible apply stopJob_kept
    | with_reducible apply hbmUncorrected_kept
    | with_reducible apply hbmWrite_kept
    | with_reducible apply readOr_kept
    | with_reducible apply ran_kept
    | split
    | intro _

theorem dueLater_kept {z : State} (l : LoadedLast) (r n : Nat) (acc : Acc) (hz : Kept z acc.1) : Kept z (dueLater l r n acc).1 := by
  unfold dueLater
  try dsimp only
  repeat' first
    | with_reducible assumption
    | with_reducible exact Kept.refl _
    | with_reducible apply doLater_kept
    | with_reducible apply setJob_kept
    | (with_reducible refine Kept.foldA (fun _ _ => ?_) ?_ _)
    | (with_reducible refine Kept.iteP (fun _ => ?_) (fun _ => ?_))
    | split

theorem beginWork_kept {z : State} (l : LoadedLast) (r limit : Nat) (acc : Acc) (hz : Kept z acc.1) : Kept z (beginWork l r limit acc).1 := by
  unfold beginWork
  try dsimp only
  repeat' first
    | with_reducible assumption
    | with_reducible apply runItems_kept
    | with_reducible apply setRegion_kept
    | (with_reducible refine Kept.iteP (fun _ => ?_) (fun _ => ?_))
    | split

theorem advance_kept {z : State} (l : LoadedLast) (r : Nat) (late : Bool) (acc : Acc) (hz : Kept z acc.1) : Kept z (advance l r late acc).1 := by
  unfold advance
  try dsimp only
  repeat' first
    | with_reducible assumption
    | with_reducible exact Kept.refl _
    | with_reducible apply setRegion_kept
    | with_reducible apply dueLater_kept
    | with_reducible apply noteLate_kept
    | with_reducible apply beginWork_kept
    | (with_reducible refine Kept.foldl (fun _ _ => ?_) ?_ _)
    | (with_reducible refine Kept.iteP (fun _ => ?_) (fun _ => ?_))
    | split

theorem stitchRegion_kept {z : State} (l : LoadedLast) (late : List Nat) (acc : Acc) (r : Nat) (hz : Kept z acc.1) : Kept z (stitchRegion l late acc r).1 := by
  unfold stitchRegion
  try dsimp only
  repeat' first
    | with_reducible assumption
    | with_reducible apply setRegion_kept
    | with_reducible apply beginWork_kept
    | with_reducible apply runItems_kept
    | with_reducible apply advance_kept
    | (with_reducible refine Kept.iteP (fun _ => ?_) (fun _ => ?_))
    | split

theorem landArrivals_kept {z : State} (l : LoadedLast) (acc : Acc) (hz : Kept z acc.1) : Kept z (landArrivals l acc).1 := by
  unfold landArrivals
  try dsimp only
  repeat' first
    | with_reducible assumption
    | with_reducible exact Kept.refl _
    | with_reducible apply setJob_kept
    | with_reducible apply writeOr_kept
    | (with_reducible refine Kept.foldA (fun _ _ => ?_) ?_ _)
    | split

end Sys2Proof.Laws
end

