-- ==== Sys2Proof/Laws/KeptStitch.lean ====
section
/-! SUPPORT. What the operations and commands of Machine/Stitch.lean keep (Safety.Kept). -/
namespace Sys2Proof.Laws
open Sys2Proof.Machine Sys2Proof.Safety

theorem countBlocked_kept {z : State} (s : State) (hz : Kept z s) : Kept z (countBlocked s) := by
  unfold countBlocked
  try dsimp only
  repeat' first
    | (with_reducible refine Kept.put ?_ ?_ ?_ ?_ ?_ ?_ ?_ ?_ ?_ ?_ ?_; with_reducible assumption)
    | with_reducible exact id
    | solve | (with_reducible apply SvcOk.keep <;> simp +contextual)

theorem execStitchBoundary_kept (late : List Nat) (s : State) {t : State} (e : execStitchBoundary late s = .next t) : Kept s t := by
  unfold execStitchBoundary at e
  injection e with e; subst e
  try dsimp only
  repeat' first
    | with_reducible exact Kept.refl _
    | with_reducible apply stitchRegion_kept
    | with_reducible apply landArrivals_kept
    | with_reducible apply awlFaults_kept
    | (with_reducible refine Kept.foldA (fun _ _ => ?_) ?_ _)
    | (with_reducible refine Kept.ite (fun _ => ?_) (fun _ => ?_))
    | split
    | (with_reducible refine Kept.put ?_ ?_ ?_ ?_ ?_ ?_ ?_ ?_ ?_ ?_ ?_; with_reducible apply countBlocked_kept)
    | with_reducible exact id
    | solve | (with_reducible apply ClkOk.keep <;> simp +contextual)

theorem switchPace_kept {z : State} (s : State) (code : Nat) (hz : Kept z s) : Kept z (switchPace s code) := by
  unfold switchPace
  try dsimp only
  repeat' first
    | with_reducible assumption
    | split
    | (with_reducible refine Kept.put ?_ ?_ ?_ ?_ ?_ ?_ ?_ ?_ ?_ ?_ ?_; with_reducible apply event_kept)
    | with_reducible exact id
    | solve | (with_reducible apply ClkOk.keep <;> simp +contextual)

theorem execPaceSlewEnd_kept (s : State) {t : State} (e : execPaceSlewEnd s = .next t) : Kept s t := by
  unfold execPaceSlewEnd at e
  injection e with e; subst e
  try dsimp only
  repeat' first
    | (with_reducible refine Kept.put ?_ ?_ ?_ ?_ ?_ ?_ ?_ ?_ ?_ ?_ ?_; with_reducible exact Kept.refl _)
    | with_reducible exact id
    | solve | (with_reducible apply ClkOk.keep <;> simp +contextual)

theorem execPaceChangeOutsideJob_kept (s : State) {t : State} (e : execPaceChangeOutsideJob s = .next t) : Kept s t := by
  unfold execPaceChangeOutsideJob at e
  injection e with e; subst e
  try dsimp only
  repeat' first
    | with_reducible exact Kept.refl _
    | with_reducible apply switchPace_kept
    | (with_reducible refine Kept.ite (fun _ => ?_) (fun _ => ?_))
    | split
    | (with_reducible refine Kept.put ?_ ?_ ?_ ?_ ?_ ?_ ?_ ?_ ?_ ?_ ?_; with_reducible exact Kept.refl _)
    | with_reducible exact id
    | solve | (with_reducible apply ClkOk.keep <;> simp +contextual)

theorem handshakeEcc_kept {z : State} (s : State) (ecc addr : Nat) (hz : Kept z s) : Kept z (handshakeEcc s ecc addr) := by
  unfold handshakeEcc
  try dsimp only
  repeat' first
    | with_reducible assumption
    | with_reducible apply insoleCorrected_kept
    | with_reducible apply insoleUncorrected_kept
    | with_reducible apply hbmCorrected_kept
    | with_reducible apply stopJob_kept
    | with_reducible apply hbmUncorrected_kept
    | split
    | (with_reducible refine Kept.put ?_ ?_ ?_ ?_ ?_ ?_ ?_ ?_ ?_ ?_ ?_; with_reducible assumption)
    | with_reducible exact id
    | solve | (with_reducible apply MemOk.keep <;> simp +contextual)

theorem execHandshakeAck_kept (region ecc addr : Nat) (s : State) {t : State} (e : execHandshakeAck region ecc addr s = .next t) : Kept s t := by
  unfold execHandshakeAck at e
  injection e with e; subst e
  repeat' first
    | with_reducible exact Kept.refl _
    | with_reducible apply handshakeEcc_kept
    | with_reducible apply setRegion_kept

theorem execLateUnitDepart_kept (eyelet lace unit : Nat) (s : State) {t : State} (e : execLateUnitDepart eyelet lace unit s = .next t) : Kept s t := by
  unfold execLateUnitDepart at e
  injection e with e; subst e
  try dsimp only
  repeat' first
    | with_reducible exact Kept.refl _
    | with_reducible apply readOr_kept
    | with_reducible apply ran_kept
    | with_reducible apply setEyelet_kept
    | (with_reducible refine Kept.ite (fun _ => ?_) (fun _ => ?_))
    | split
    | intro _

theorem marginWindow_kept {z : State} (loops : List (List Int)) (s : State) (r : Nat) (hz : Kept z s) : Kept z (marginWindow loops s r) := by
  unfold marginWindow
  try dsimp only
  repeat' first
    | with_reducible assumption
    | with_reducible apply setRegion_kept
    | with_reducible apply event_kept
    | (with_reducible refine Kept.ite (fun _ => ?_) (fun _ => ?_))
    | split

theorem execMarginWindowEnd_kept (loops : List (List Int)) (s : State) {t : State} (e : execMarginWindowEnd loops s = .next t) : Kept s t := by
  unfold execMarginWindowEnd at e
  injection e with e; subst e
  repeat' first
    | with_reducible exact Kept.refl _
    | with_reducible apply marginWindow_kept
    | (with_reducible refine Kept.foldl (fun _ _ => ?_) ?_ _)

end Sys2Proof.Laws
end

