-- ==== Sys2Proof/Laws/KeptDecision.lean ====
section
/-! SUPPORT. What the operations and commands of Machine/Decision.lean keep (Safety.Kept). -/
namespace Sys2Proof.Laws
open Sys2Proof.Machine Sys2Proof.Safety

theorem setRequest_kept {z : State} (s : State) (rid : Nat) (f : Request → Request) (hz : Kept z s) : Kept z (setRequest s rid f) := by
  unfold setRequest
  repeat' first
    | with_reducible assumption
    | with_reducible apply setJob_kept

theorem logits_kept {z : State} (s : State) (l : LoadedLast) (variant bslot : Nat) (hz : Kept z s) : Kept z (logits s l variant bslot).1 := by
  unfold logits
  try dsimp only
  repeat' first
    | with_reducible assumption
    | with_reducible apply insoleUncorrected_kept
    | with_reducible apply bumpFree_kept
    | split

theorem giveToken_kept {z : State} (s : State) (q : Request) (tok : Nat) (hz : Kept z s) : Kept z (giveToken s q tok) := by
  unfold giveToken
  try dsimp only
  repeat' first
    | with_reducible assumption
    | with_reducible apply hostWrite_kept
    | with_reducible apply bumpFree_kept
    | with_reducible apply postReq_kept
    | with_reducible apply setRequest_kept
    | with_reducible apply dropRequest_kept
    | (with_reducible refine Kept.ite (fun _ => ?_) (fun _ => ?_))

theorem sampleRequest_kept {z : State} (s : State) (l : LoadedLast) (variant : Nat) (q : Request) (p : Nat) (hz : Kept z s) : Kept z (sampleRequest s l variant q p) := by
  unfold sampleRequest
  try dsimp only
  repeat' first
    | with_reducible assumption
    | with_reducible apply logits_kept
    | with_reducible apply giveToken_kept
    | with_reducible apply failRequest_kept
    | with_reducible apply event_kept
    | (with_reducible refine Kept.ite (fun _ => ?_) (fun _ => ?_))
    | split

theorem finishRequest_kept {z : State} (l : LoadedLast) (variant : Nat) (s : State) (x : Nat × Nat) (hz : Kept z s) : Kept z (finishRequest l variant s x) := by
  unfold finishRequest
  try dsimp only
  repeat' first
    | with_reducible assumption
    | with_reducible apply setJob_kept
    | with_reducible apply setRequest_kept
    | with_reducible apply sampleRequest_kept
    | (with_reducible refine Kept.ite (fun _ => ?_) (fun _ => ?_))
    | split

theorem finishStep_kept {z : State} (s : State) (l : LoadedLast) (hz : Kept z s) : Kept z (finishStep s l) := by
  unfold finishStep
  repeat' first
    | with_reducible assumption
    | with_reducible exact Kept.refl _
    | with_reducible apply finishRequest_kept
    | with_reducible apply setJob_kept
    | (with_reducible refine Kept.foldl (fun _ _ => ?_) ?_ _)
    | split



theorem Kept.foldD {α : Type} {f : Draft → α → Draft} (hf : ∀ x a, Kept x.s (f x a).s) {s : State} {t : Draft}
    (h : Kept s t.s) (l : List α) : Kept s (l.foldl f t).s := by
  induction l generalizing t with
  | nil => exact h
  | cons a l ih => exact ih (Kept.trans h (hf t a))

theorem emit_kept {z : State} (t : Store) (d : Draft) (r : Rec) (hz : Kept z d.s) : Kept z (d.emit t r).s := hz

theorem takeFrame_kept {z : State} {t : Store} {d d' : Draft} {f : Nat} (e : takeFrame t d = some (f, d')) (hz : Kept z d.s) :
    Kept z d'.s := by
  unfold takeFrame at e
  split at e
  · injection e with e; injection e with _ e; exact e ▸ hz
  · cases v : victim d.x t with
    | none => rw [v] at e; exact nomatch e
    | some f => rw [v] at e; injection e with e; injection e with _ e; exact e ▸ hz

theorem publishPage_kept {z : State} (t : Store) (d : Draft) (x : Nat × Nat) (hz : Kept z d.s) : Kept z (publishPage t d x).s := by
  unfold publishPage
  try dsimp only
  repeat' first
    | with_reducible assumption
    | with_reducible apply event_kept
    | with_reducible apply emit_kept
    | (with_reducible refine Kept.iteP (fun _ => ?_) (fun _ => ?_))
    | split

theorem endFetch_kept {z : State} (t : Store) (n : Nat) (d : Draft) (f : Fetch) (hz : Kept z d.s) : Kept z (endFetch t n d f).s := by
  unfold endFetch
  try dsimp only
  repeat' first
    | with_reducible assumption
    | with_reducible exact Kept.refl _
    | with_reducible apply setJob_kept
    | with_reducible apply emit_kept
    | (with_reducible refine Kept.foldD (fun _ _ => ?_) ?_ _)
    | (with_reducible refine Kept.iteP (fun _ => ?_) (fun _ => ?_))

theorem allocPages_kept {z : State} (t : Store) (bslot : Nat) : ∀ (k p : Nat) {d : Draft}, Kept z d.s →
    Kept z (allocPages t bslot k p d).s
  | 0, _, _, hz => hz
  | k + 1, p, d, hz => by
    unfold allocPages
    split
    · exact allocPages_kept t bslot k (p + 1) (emit_kept _ _ _ (takeFrame_kept (by assumption) hz))
    · exact hz

theorem admitRecs_kept {z : State} (t : Store) (d : Draft) (q : Request) (bslot h : Nat) (hz : Kept z d.s) : Kept z (admitRecs t d q bslot h).s := by
  unfold admitRecs
  try dsimp only
  repeat' first
    | with_reducible assumption
    | with_reducible exact Kept.refl _
    | with_reducible apply allocPages_kept
    | with_reducible apply emit_kept
    | (with_reducible refine Kept.foldD (fun _ _ => ?_) ?_ _)
    | split

theorem admitReq_kept {z : State} (t : Store) (l : LoadedLast) (d : Draft) (q : Request) (bslot : Nat) (hz : Kept z d.s) : Kept z (admitReq t l d q bslot).s := by
  unfold admitReq
  try dsimp only
  repeat' first
    | with_reducible assumption
    | with_reducible apply admitRecs_kept
    | with_reducible apply setRequest_kept
    | with_reducible apply setJob_kept
    | with_reducible apply postReq_kept
    | (with_reducible refine Kept.iteP (fun _ => ?_) (fun _ => ?_))

theorem refuseRequest_kept {z : State} (s : State) (q : Request) (sub : Nat) (hz : Kept z s) : Kept z (refuseRequest s q sub) := by
  unfold refuseRequest
  repeat' first
    | with_reducible assumption
    | with_reducible apply failRequest_kept
    | with_reducible apply eventLimited_kept

theorem considerRequest_kept {z : State} (t : Store) (l : LoadedLast) (d : Draft) (rid : Nat) (hz : Kept z d.s) : Kept z (considerRequest t l d rid).s := by
  unfold considerRequest
  try dsimp only
  repeat' first
    | with_reducible assumption
    | with_reducible apply refuseRequest_kept
    | with_reducible apply setRequest_kept
    | with_reducible apply startPlan_kept
    | with_reducible apply admitReq_kept
    | (with_reducible refine Kept.iteP (fun _ => ?_) (fun _ => ?_))
    | split

theorem fetchPages_kept {z : State} (t : Store) (p : Plan) (keys : List (List Byte)) (fid : Nat) : ∀ (k page : Nat) {d : Draft},
    Kept z d.s → Kept z (fetchPages t p keys fid k page d).s
  | 0, _, _, hz => hz
  | k + 1, page, d, hz => by
    unfold fetchPages
    dsimp only
    split
    · exact hz
    · split
      · exact fetchPages_kept t p keys fid k (page + 1) (emit_kept _ _ _ (takeFrame_kept (by assumption) hz))
      · exact hz

theorem beginPlanned_kept {z : State} (t : Store) (d : Draft) (x : Nat × Nat) (hz : Kept z d.s) : Kept z (beginPlanned t d x).s := by
  unfold beginPlanned
  try dsimp only
  repeat' first
    | with_reducible assumption
    | with_reducible apply fetchPages_kept
    | with_reducible apply setJob_kept
    | with_reducible apply tackSet_kept
    | with_reducible apply setRequest_kept
    | (with_reducible refine Kept.iteP (fun _ => ?_) (fun _ => ?_))
    | split

theorem decideRecs_kept {z : State} (t : Store) (l : LoadedLast) (j : Job) (admits : Bool) (d : Draft) (hz : Kept z d.s) : Kept z (decideRecs t l j admits d).s := by
  unfold decideRecs
  try dsimp only
  repeat' first
    | with_reducible assumption
    | with_reducible exact Kept.refl _
    | with_reducible apply publishPage_kept
    | with_reducible apply endFetch_kept
    | with_reducible apply setJob_kept
    | with_reducible apply considerRequest_kept
    | with_reducible apply beginPlanned_kept
    | with_reducible apply emit_kept
    | (with_reducible refine Kept.foldD (fun _ _ => ?_) ?_ _)
    | (with_reducible refine Kept.iteP (fun _ => ?_) (fun _ => ?_))

theorem sendDecision_kept {z : State} (s : State) (l : LoadedLast) (block : List Byte) (hz : Kept z s) : Kept z (sendDecision s l block) := by
  unfold sendDecision
  repeat' first
    | with_reducible assumption
    | with_reducible apply sendBlock_kept
    | with_reducible apply setJob_kept
    | split

theorem issueVariant_kept {z : State} (s : State) (v : Variant) (xs : List (Nat × Nat × List (List Byte))) (hz : Kept z s) : Kept z (issueVariant s v xs) := by
  unfold issueVariant
  try dsimp only
  repeat' first
    | with_reducible assumption
    | with_reducible apply setJob_kept

theorem decideStep_kept {z : State} (s : State) (l : LoadedLast) (hz : Kept z s) : Kept z (decideStep s l) := by
  unfold decideStep
  try dsimp only
  repeat' first
    | with_reducible assumption
    | with_reducible apply decideRecs_kept
    | with_reducible apply sendDecision_kept
    | with_reducible apply setJob_kept
    | with_reducible apply bumpFree_kept
    | with_reducible apply issueVariant_kept
    | (with_reducible refine Kept.ite (fun _ => ?_) (fun _ => ?_))
    | split

end Sys2Proof.Laws
end

