-- ==== Sys2Proof/Laws/KeptBoundary.lean ====
section
/-! SUPPORT. What the operations and commands of Machine/Boundary.lean keep (Safety.Kept). -/
namespace Sys2Proof.Laws
open Sys2Proof.Machine Sys2Proof.Safety

theorem countCheck_kept {z : State} (s : State) (f : Finding) (hz : Kept z s) : Kept z (countCheck s f) := by
  unfold countCheck
  repeat' first
    | with_reducible assumption
    | with_reducible apply recordRaw_kept
    | with_reducible apply setJob_kept

theorem discardResidue_kept {z : State} (l : LoadedLast) (p : Nat) (acc : Acc) (hz : Kept z acc.1) : Kept z (discardResidue l p acc).1 := by
  unfold discardResidue
  try dsimp only
  repeat' first
    | with_reducible assumption
    | with_reducible exact Kept.refl _
    | with_reducible apply doLater_kept
    | with_reducible apply setJob_kept
    | with_reducible apply setAwl_kept
    | with_reducible apply setEyelet_kept
    | (with_reducible refine Kept.foldl (fun _ _ => ?_) ?_ _)
    | (with_reducible refine Kept.foldA (fun _ _ => ?_) ?_ _)
    | (with_reducible refine Kept.iteP (fun _ => ?_) (fun _ => ?_))
    | split

theorem judgeResidue_kept {z : State} (l : LoadedLast) (p : Nat) (acc : Acc) (hz : Kept z acc.1) : Kept z (judgeResidue l p acc).acc.1 := by
  unfold judgeResidue
  try dsimp only
  repeat' first
    | with_reducible assumption
    | with_reducible apply setAwl_kept
    | with_reducible apply interlock_kept
    | with_reducible apply discardResidue_kept
    | split

theorem closeWindow_kept {z : State} (p : Nat) (s : State) (hz : Kept z s) : Kept z (closeWindow p s) := by
  unfold closeWindow
  repeat' first
    | with_reducible assumption
    | with_reducible apply setAwl_kept

theorem judgeSlipPoint_kept {z : State} (l : LoadedLast) (p : Nat) (boundary : Bool) (acc : Acc) (hz : Kept z acc.1) : Kept z (judgeSlipPoint l p boundary acc).acc.1 := by
  unfold judgeSlipPoint
  try dsimp only
  repeat' first
    | with_reducible assumption
    | with_reducible exact Kept.refl _
    | with_reducible apply countCheck_kept
    | with_reducible apply closeWindow_kept
    | with_reducible apply judgeResidue_kept
    | (with_reducible refine Kept.foldl (fun _ _ => ?_) ?_ _)
    | (with_reducible refine Kept.iteP (fun _ => ?_) (fun _ => ?_))
    | split

theorem applyBlockRecs_kept {z : State} (s : State) (rs : List Rec) (hz : Kept z s) : Kept z (applyBlockRecs s rs) := by
  unfold applyBlockRecs
  repeat' first
    | with_reducible assumption
    | with_reducible exact Kept.refl _
    | with_reducible apply beginFetch_kept
    | with_reducible apply applyRecs_kept
    | (with_reducible refine Kept.foldl (fun _ _ => ?_) ?_ _)

theorem failFetches_kept {z : State} (s : State) (hz : Kept z s) : Kept z (failFetches s) := by
  unfold failFetches
  repeat' first
    | with_reducible assumption
    | with_reducible apply setJob_kept

theorem pauseJob_kept {z : State} (s : State) (p : Nat) (hz : Kept z s) : Kept z (pauseJob s p) := by
  unfold pauseJob
  try dsimp only
  repeat' first
    | with_reducible assumption
    | with_reducible apply dropWork_kept
    | with_reducible apply failFetches_kept
    | with_reducible apply setJob_kept
    | with_reducible apply setJobState_kept
    | with_reducible apply completeDrains_kept
    | (with_reducible refine Kept.ite (fun _ => ?_) (fun _ => ?_))

theorem beginStep_kept {z : State} (s : State) (l : LoadedLast) (p variant : Nat) (hz : Kept z s) : Kept z (beginStep s l p variant) := by
  unfold beginStep
  try dsimp only
  repeat' first
    | with_reducible assumption
    | with_reducible apply decideStep_kept
    | (with_reducible refine Kept.ite (fun _ => ?_) (fun _ => ?_))
    | split
    | (with_reducible refine Kept.put ?_ ?_ ?_ ?_ ?_ ?_ ?_ ?_ ?_ ?_ ?_; with_reducible apply setJob_kept)
    | with_reducible exact id
    | solve | simp

theorem applyBlock_kept {z : State} (s : State) (l : LoadedLast) (p : Nat) (b : List Byte) (hz : Kept z s) : Kept z (applyBlock s l p b) := by
  unfold applyBlock
  try dsimp only
  repeat' first
    | with_reducible assumption
    | with_reducible apply stopJob_kept
    | with_reducible apply event_kept
    | with_reducible apply applyBlockRecs_kept
    | with_reducible apply choose_kept
    | with_reducible apply setJobState_kept
    | with_reducible apply setJob_kept
    | with_reducible apply pauseJob_kept
    | with_reducible apply beginStep_kept
    | (with_reducible refine Kept.ite (fun _ => ?_) (fun _ => ?_))
    | split

theorem postLater_kept {z : State} (l : LoadedLast) (s : State) (x : Nat × Nat × PostSpec) (hz : Kept z s) : Kept z (postLater l s x) := by
  unfold postLater
  try dsimp only
  repeat' first
    | with_reducible assumption
    | with_reducible apply makePost_kept
    | with_reducible apply setAwl_kept
    | (with_reducible refine Kept.ite (fun _ => ?_) (fun _ => ?_))

theorem startRegion_kept {z : State} (l : LoadedLast) (acc : Acc) (r : Nat) (hz : Kept z acc.1) : Kept z (startRegion l acc r).1 := by
  unfold startRegion
  try dsimp only
  repeat' first
    | with_reducible assumption
    | with_reducible exact Kept.refl _
    | with_reducible apply dueLater_kept
    | with_reducible apply noteLate_kept
    | with_reducible apply beginWork_kept
    | (with_reducible refine Kept.foldl (fun _ _ => ?_) ?_ _)
    | (with_reducible refine Kept.iteP (fun _ => ?_) (fun _ => ?_))
    | split

theorem startRegions_kept {z : State} (l : LoadedLast) (s : State) (hz : Kept z s) : Kept z (startRegions l s) := by
  unfold startRegions
  try dsimp only
  repeat' first
    | with_reducible assumption
    | with_reducible exact Kept.refl _
    | with_reducible apply startRegion_kept
    | with_reducible apply awlFaults_kept
    | (with_reducible refine Kept.foldA (fun _ _ => ?_) ?_ _)

theorem releaseSlip_kept {z : State} (s : State) (l : LoadedLast) (p : Nat) (hz : Kept z s) : Kept z (releaseSlip s l p) := by
  unfold releaseSlip
  try dsimp only
  repeat' first
    | with_reducible assumption
    | with_reducible exact Kept.refl _
    | with_reducible apply choose_kept
    | with_reducible apply issuePoll_kept
    | with_reducible apply setJob_kept
    | with_reducible apply postLater_kept
    | with_reducible apply setAwl_kept
    | with_reducible apply startRegions_kept
    | (with_reducible refine Kept.foldl (fun _ _ => ?_) ?_ _)
    | (with_reducible refine Kept.ite (fun _ => ?_) (fun _ => ?_))
    | split

theorem forgetSlip_kept {z : State} (s : State) (p : Nat) (hz : Kept z s) : Kept z (forgetSlip s p) := by
  unfold forgetSlip
  repeat' first
    | with_reducible assumption
    | with_reducible apply setBarrier_kept

theorem endSlip_kept {z : State} (s : State) (l : LoadedLast) (p w n : Nat) (hz : Kept z s) : Kept z (endSlip s l p w n) := by
  unfold endSlip
  repeat' first
    | with_reducible assumption
    | with_reducible apply releaseSlip_kept
    | with_reducible apply forgetSlip_kept
    | with_reducible apply anchorAt_kept
    | with_reducible apply event_kept

theorem pauseSlip_kept {z : State} (s : State) (l : LoadedLast) (p : Nat) (hz : Kept z s) : Kept z (pauseSlip s l p) := by
  unfold pauseSlip
  try dsimp only
  repeat' first
    | with_reducible assumption
    | with_reducible apply setBarrier_kept
    | with_reducible apply originate_kept
    | with_reducible apply judgeSlip_kept
    | (with_reducible refine Kept.ite (fun _ => ?_) (fun _ => ?_))
    | split

theorem passSlip_kept {z : State} (s : State) (l : LoadedLast) (p : Nat) (hz : Kept z s) : Kept z (passSlip s l p) := by
  unfold passSlip
  repeat' first
    | with_reducible assumption
    | with_reducible apply endSlip_kept
    | with_reducible apply pauseSlip_kept
    | with_reducible apply releaseSlip_kept
    | (with_reducible refine Kept.ite (fun _ => ?_) (fun _ => ?_))
    | split

theorem paceAt_kept {z : State} (s : State) (p : Nat) (hz : Kept z s) : Kept z (paceAt s p) := by
  unfold paceAt
  try dsimp only
  repeat' first
    | with_reducible assumption
    | with_reducible apply switchPace_kept
    | (with_reducible refine Kept.ite (fun _ => ?_) (fun _ => ?_))
    | split
    | (with_reducible refine Kept.put ?_ ?_ ?_ ?_ ?_ ?_ ?_ ?_ ?_ ?_ ?_; with_reducible assumption)
    | with_reducible exact id
    | solve | (with_reducible apply ClkOk.keep <;> simp +contextual)

theorem announcePace_kept {z : State} (s : State) (p : Nat) (hz : Kept z s) : Kept z (announcePace s p) := by
  unfold announcePace
  try dsimp only
  repeat' first
    | with_reducible assumption
    | (with_reducible refine Kept.ite (fun _ => ?_) (fun _ => ?_))
    | split
    | (with_reducible refine Kept.put ?_ ?_ ?_ ?_ ?_ ?_ ?_ ?_ ?_ ?_ ?_; with_reducible apply originate_kept)
    | with_reducible exact id
    | solve | (with_reducible apply ClkOk.keep <;> simp +contextual)
    | solve | (with_reducible apply HeelOk.keep <;> simp +contextual)

theorem stepBoundary_kept {z : State} (s : State) (l : LoadedLast) (p : Nat) (hz : Kept z s) : Kept z (stepBoundary s l p).1 := by
  unfold stepBoundary
  try dsimp only
  repeat' first
    | with_reducible assumption
    | with_reducible apply finishStep_kept
    | with_reducible apply stopJob_kept
    | with_reducible apply setJob_kept
    | with_reducible apply applyBlock_kept
    | (with_reducible refine Kept.ite (fun _ => ?_) (fun _ => ?_))
    | (with_reducible refine Kept.iteP (fun _ => ?_) (fun _ => ?_))
    | split

theorem slipPoint_kept {z : State} (s : State) (l : LoadedLast) (j : Job) (p : Nat) (hz : Kept z s) : Kept z (slipPoint s l j p) := by
  unfold slipPoint
  try dsimp only
  repeat' first
    | with_reducible assumption
    | with_reducible exact Kept.refl _
    | with_reducible apply dueLater_kept
    | with_reducible apply judgeSlipPoint_kept
    | with_reducible apply awlFaults_kept
    | with_reducible apply paceAt_kept
    | with_reducible apply stepBoundary_kept
    | with_reducible apply passSlip_kept
    | with_reducible apply announcePace_kept
    | (with_reducible refine Kept.foldA (fun _ _ => ?_) ?_ _)
    | (with_reducible refine Kept.ite (fun _ => ?_) (fun _ => ?_))
    | (with_reducible refine Kept.iteP (fun _ => ?_) (fun _ => ?_))

theorem execSlipPointAlign_kept (s : State) {t : State} (e : execSlipPointAlign s = .next t) : Kept s t := by
  unfold execSlipPointAlign at e
  injection e with e; subst e
  try dsimp only
  repeat' first
    | with_reducible exact Kept.refl _
    | with_reducible apply slipPoint_kept
    | (with_reducible refine Kept.ite (fun _ => ?_) (fun _ => ?_))
    | split

theorem execResumeRelease_kept (s : State) {t : State} (e : execResumeRelease s = .next t) : Kept s t := by
  unfold execResumeRelease at e
  injection e with e; subst e
  try dsimp only
  repeat' first
    | with_reducible exact Kept.refl _
    | with_reducible apply setBarrier_kept
    | with_reducible apply endSlip_kept
    | (with_reducible refine Kept.ite (fun _ => ?_) (fun _ => ?_))
    | split

theorem execStepControlLost_kept (s : State) {t : State} (e : execStepControlLost s = .next t) : Kept s t := by
  unfold execStepControlLost at e
  injection e with e; subst e
  try dsimp only
  repeat' first
    | with_reducible exact Kept.refl _
    | with_reducible apply stopJob_kept
    | with_reducible apply event_kept
    | (with_reducible refine Kept.ite (fun _ => ?_) (fun _ => ?_))
    | split

theorem startJob_kept {z : State} (s : State) (hz : Kept z s) : Kept z (startJob s) := by
  unfold startJob
  try dsimp only
  repeat' first
    | with_reducible assumption
    | with_reducible apply setJobState_kept
    | split
    | (with_reducible refine Kept.put ?_ ?_ ?_ ?_ ?_ ?_ ?_ ?_ ?_ ?_ ?_; with_reducible apply setJob_kept)
    | with_reducible exact id
    | solve | (with_reducible apply ClkOk.keep <;> simp +contextual)
    | solve | simp

theorem execJs0Release_kept (s : State) {t : State} (e : execJs0Release s = .next t) : Kept s t := by
  unfold execJs0Release at e
  injection e with e; subst e
  try dsimp only
  repeat' first
    | with_reducible exact Kept.refl _
    | with_reducible apply switchPace_kept
    | with_reducible apply complete_kept
    | with_reducible apply startRegions_kept
    | with_reducible apply startJob_kept
    | with_reducible apply decideStep_kept
    | (with_reducible refine Kept.ite (fun _ => ?_) (fun _ => ?_))
    | split

end Sys2Proof.Laws
end

