-- ==== Sys2Proof/Laws/KeptGovernor.lean ====
section
/-! SUPPORT. What the operations and commands of Machine/Governor.lean keep (Safety.Kept). -/
namespace Sys2Proof.Laws
open Sys2Proof.Machine Sys2Proof.Safety

theorem holdTiles_kept {z : State} (s : State) (h : Hold) (hz : Kept z s) : Kept z (holdTiles s h) := by
  unfold holdTiles
  try dsimp only
  repeat' first
    | (with_reducible refine Kept.put ?_ ?_ ?_ ?_ ?_ ?_ ?_ ?_ ?_ ?_ ?_; with_reducible assumption)
    | with_reducible exact id
    | solve | (with_reducible apply ClkOk.keep <;> simp +contextual)

theorem freeTiles_kept {z : State} (s : State) (h : Hold) (hz : Kept z s) : Kept z (freeTiles s h) := by
  unfold freeTiles
  try dsimp only
  repeat' first
    | (with_reducible refine Kept.put ?_ ?_ ?_ ?_ ?_ ?_ ?_ ?_ ?_ ?_ ?_; with_reducible assumption)
    | with_reducible exact id
    | solve | (with_reducible apply ClkOk.keep <;> simp +contextual)

theorem applyOrder_rails (h : Heel) (o : Order) : (applyOrder h o).rails = h.rails := by
  cases o <;> rfl

theorem applyOrders_rails (os : List (Nat × Order)) (h : Heel) :
    (os.foldl (fun h x => applyOrder h x.2) h).rails = h.rails := by
  induction os generalizing h with
  | nil => rfl
  | cons o os ih => exact (ih _).trans (applyOrder_rails _ _)

theorem applyOrders_kept {z : State} (s : State) (hz : Kept z s) : Kept z (applyOrders s) := by
  unfold applyOrders
  try dsimp only
  repeat' first
    | (with_reducible refine Kept.put ?_ ?_ ?_ ?_ ?_ ?_ ?_ ?_ ?_ ?_ ?_; with_reducible assumption)
    | with_reducible exact id
    | exact HeelOk.keep (by rw [applyOrders_rails])

theorem writeMail_kept {z : State} (s : State) (code : Nat) (hz : Kept z s) : Kept z (writeMail s code) := by
  unfold writeMail
  try dsimp only
  repeat' first
    | with_reducible assumption
    | with_reducible apply hbmWrite_kept
    | with_reducible apply issue_kept
    | (with_reducible refine Kept.ite (fun _ => ?_) (fun _ => ?_))
    | split

theorem readMail_kept {z : State} (s : State) (l : LoadedLast) (hz : Kept z s) : Kept z (readMail s l) := by
  unfold readMail
  try dsimp only
  repeat' first
    | with_reducible exact Kept.refl _
    | with_reducible apply event_kept
    | (with_reducible refine Kept.ite (fun _ => ?_) (fun _ => ?_))
    | split
    | (with_reducible refine Kept.put ?_ ?_ ?_ ?_ ?_ ?_ ?_ ?_ ?_ ?_ ?_
       first
         | with_reducible assumption
         | (with_reducible refine Kept.foldl (fun _ _ => ?_) ?_ _)
       )
    | with_reducible exact id
    | solve | (with_reducible apply HeelOk.keep <;> simp +contextual)

theorem creditEnergy_kept {z : State} (s : State) (hz : Kept z s) : Kept z (creditEnergy s) := by
  unfold creditEnergy
  repeat' first
    | with_reducible assumption
    | with_reducible apply setJob_kept

theorem idlePace_kept {z : State} (s : State) (hz : Kept z s) : Kept z (endPeriod.idlePace s) := by
  unfold endPeriod.idlePace
  exact Kept.ite (fun _ => hz) fun _ => orderPace_kept _ _ hz

theorem endPeriod_kept {z : State} (s : State) (hz : Kept z s) : Kept z (endPeriod s) := by
  unfold endPeriod
  repeat' first
    | with_reducible assumption
    | with_reducible apply creditEnergy_kept
    | with_reducible apply readMail_kept
    | (with_reducible refine Kept.ite (fun _ => ?_) (fun _ => ?_))
    | split
    | with_reducible apply idlePace_kept

theorem throttlePeriod_kept {z : State} (s : State) (cool : Bool) (hz : Kept z s) : Kept z (throttlePeriod s cool) := by
  unfold throttlePeriod
  try dsimp only
  repeat' first
    | with_reducible assumption
    | with_reducible apply event_kept
    | with_reducible apply freeTiles_kept
    | (with_reducible refine Kept.ite (fun _ => ?_) (fun _ => ?_))
    | split
    | (with_reducible refine Kept.put ?_ ?_ ?_ ?_ ?_ ?_ ?_ ?_ ?_ ?_ ?_; with_reducible assumption)
    | with_reducible exact id
    | solve | (with_reducible apply HeelOk.keep <;> simp +contextual)

theorem execGovernorPeriodStart_kept (temps : List Int) (halfAmps : List Nat) (s : State) {t : State} (e : execGovernorPeriodStart temps halfAmps s = .next t) : Kept s t := by
  unfold execGovernorPeriodStart at e
  injection e with e; subst e
  try dsimp only
  repeat' first
    | with_reducible exact Kept.refl _
    | with_reducible apply endPeriod_kept
    | with_reducible apply throttlePeriod_kept
    | (with_reducible refine Kept.ite (fun _ => ?_) (fun _ => ?_))
    | (with_reducible refine Kept.put ?_ ?_ ?_ ?_ ?_ ?_ ?_ ?_ ?_ ?_ ?_; with_reducible apply applyOrders_kept)
    | with_reducible exact id
    | solve | (with_reducible apply ClkOk.keep <;> simp +contextual)
    | solve | (with_reducible apply HeelOk.keep <;> simp +contextual)

theorem execGovernorApply_kept (status : Nat) (s : State) {t : State} (e : execGovernorApply status s = .next t) : Kept s t := by
  unfold execGovernorApply at e
  injection e with e; subst e
  try dsimp only
  repeat' first
    | with_reducible exact Kept.refl _
    | with_reducible apply bumpFree_kept
    | with_reducible apply event_kept
    | with_reducible apply writeMail_kept
    | (with_reducible refine Kept.ite (fun _ => ?_) (fun _ => ?_))
    | (with_reducible refine Kept.put ?_ ?_ ?_ ?_ ?_ ?_ ?_ ?_ ?_ ?_ ?_; with_reducible exact Kept.refl _)
    | with_reducible exact id
    | solve | (with_reducible apply HeelOk.keep <;> simp +contextual)

theorem execThrottleBegin_kept (region : Nat) (s : State) {t : State} (e : execThrottleBegin region s = .next t) : Kept s t := by
  unfold execThrottleBegin at e
  injection e with e; subst e
  try dsimp only
  repeat' first
    | with_reducible exact Kept.refl _
    | with_reducible apply holdTiles_kept
    | with_reducible apply writeMail_kept
    | with_reducible apply event_kept
    | (with_reducible refine Kept.ite (fun _ => ?_) (fun _ => ?_))
    | (with_reducible refine Kept.put ?_ ?_ ?_ ?_ ?_ ?_ ?_ ?_ ?_ ?_ ?_; with_reducible exact Kept.refl _)
    | with_reducible exact id
    | solve | (with_reducible apply HeelOk.keep <;> simp +contextual)

theorem execCoolantValuesReceived_kept (inlet : Int) (flow : Nat) (s : State) {t : State} (e : execCoolantValuesReceived inlet flow s = .next t) : Kept s t := by
  unfold execCoolantValuesReceived at e
  injection e with e; subst e
  try dsimp only
  repeat' first
    | with_reducible exact Kept.refl _
    | (with_reducible refine Kept.ite (fun _ => ?_) (fun _ => ?_))
    | (with_reducible refine Kept.put ?_ ?_ ?_ ?_ ?_ ?_ ?_ ?_ ?_ ?_ ?_; with_reducible exact Kept.refl _)
    | with_reducible exact id
    | solve | (with_reducible apply HeelOk.keep <;> simp +contextual)

theorem execCoolantStale_kept (s : State) {t : State} (e : execCoolantStale s = .next t) : Kept s t := by
  unfold execCoolantStale at e
  injection e with e; subst e
  try dsimp only
  repeat' first
    | with_reducible exact Kept.refl _
    | with_reducible apply event_kept
    | (with_reducible refine Kept.ite (fun _ => ?_) (fun _ => ?_))
    | (with_reducible refine Kept.put ?_ ?_ ?_ ?_ ?_ ?_ ?_ ?_ ?_ ?_ ?_; with_reducible exact Kept.refl _)
    | with_reducible exact id
    | solve | (with_reducible apply HeelOk.keep <;> simp +contextual)

theorem execCapUpdate_kept (powerCap paceCap : Nat) (s : State) {t : State} (e : execCapUpdate powerCap paceCap s = .next t) : Kept s t := by
  unfold execCapUpdate at e
  injection e with e; subst e
  try dsimp only
  repeat' first
    | with_reducible exact Kept.refl _
    | (with_reducible refine Kept.ite (fun _ => ?_) (fun _ => ?_))
    | (with_reducible refine Kept.put ?_ ?_ ?_ ?_ ?_ ?_ ?_ ?_ ?_ ?_ ?_; with_reducible exact Kept.refl _)
    | with_reducible exact id
    | solve | (with_reducible apply HeelOk.keep <;> simp +contextual)

theorem execCobblerHold_kept (s : State) {t : State} (e : execCobblerHold s = .next t) : Kept s t := by
  unfold execCobblerHold at e
  injection e with e; subst e
  try dsimp only
  repeat' first
    | with_reducible exact Kept.refl _
    | with_reducible apply event_kept
    | with_reducible apply holdTiles_kept
    | (with_reducible refine Kept.ite (fun _ => ?_) (fun _ => ?_))
    | (with_reducible refine Kept.put ?_ ?_ ?_ ?_ ?_ ?_ ?_ ?_ ?_ ?_ ?_
       first
         | with_reducible exact Kept.refl _
         | with_reducible apply event_kept
       )
    | with_reducible exact id

theorem execCobblerHoldRelease_kept (s : State) {t : State} (e : execCobblerHoldRelease s = .next t) : Kept s t := by
  unfold execCobblerHoldRelease at e
  injection e with e; subst e
  try dsimp only
  repeat' first
    | with_reducible exact Kept.refl _
    | with_reducible apply event_kept
    | with_reducible apply freeTiles_kept
    | with_reducible apply resumeDeferred_kept
    | (with_reducible refine Kept.ite (fun _ => ?_) (fun _ => ?_))
    | (with_reducible refine Kept.put ?_ ?_ ?_ ?_ ?_ ?_ ?_ ?_ ?_ ?_ ?_
       first
         | with_reducible exact Kept.refl _
         | with_reducible apply event_kept
       )
    | with_reducible exact id

end Sys2Proof.Laws
end

