-- ==== Sys2Proof/Laws/KeptUpkeep.lean ====
section
/-! SUPPORT. What the operations and commands of Machine/Upkeep.lean keep (Safety.Kept). -/
namespace Sys2Proof.Laws
open Sys2Proof.Machine Sys2Proof.Safety

theorem execHbmPatrolScrub_kept (page : Nat) (s : State) {t : State} (e : execHbmPatrolScrub page s = .next t) : Kept s t := by
  unfold execHbmPatrolScrub at e
  injection e with e; subst e
  repeat' first
    | with_reducible exact Kept.refl _
    | with_reducible apply hbmUncorrected_kept
    | (with_reducible refine Kept.foldl (fun _ _ => ?_) ?_ _)
    | (with_reducible refine Kept.ite (fun _ => ?_) (fun _ => ?_))

theorem execRefreshDue_kept (bank : Nat) (s : State) {t : State} (e : execRefreshDue bank s = .next t) : Kept s t := by
  unfold execRefreshDue at e
  injection e with e; subst e
  try dsimp only
  repeat' first
    | with_reducible exact Kept.refl _
    | with_reducible apply bumpFree_kept
    | with_reducible apply holdFor_kept
    | with_reducible apply interlock_kept
    | (with_reducible refine Kept.ite (fun _ => ?_) (fun _ => ?_))
    | split

theorem execCongestionWindowEnd_kept (s : State) {t : State} (e : execCongestionWindowEnd s = .next t) : Kept s t := by
  unfold execCongestionWindowEnd at e
  injection e with e; subst e
  try dsimp only
  repeat' first
    | with_reducible exact Kept.refl _
    | (with_reducible refine Kept.ite (fun _ => ?_) (fun _ => ?_))
    | (with_reducible refine Kept.put ?_ ?_ ?_ ?_ ?_ ?_ ?_ ?_ ?_ ?_ ?_; with_reducible exact Kept.refl _)
    | with_reducible exact id
    | solve | (with_reducible apply SvcOk.keep <;> simp +contextual)

end Sys2Proof.Laws
end

