-- ==== Sys2Proof/Laws/KeptDevice.lean ====
section
/-! SUPPORT. What the operations and commands of Machine/Device.lean keep (Safety.Kept). -/
namespace Sys2Proof.Laws
open Sys2Proof.Machine Sys2Proof.Safety

theorem execGeneratorLock_kept (s : State) {t : State} (e : execGeneratorLock s = .next t) : Kept s t := by
  unfold execGeneratorLock at e
  injection e with e; subst e
  try dsimp only
  repeat' first
    | with_reducible exact Kept.refl _
    | (with_reducible refine Kept.ite (fun _ => ?_) (fun _ => ?_))
    | (with_reducible refine Kept.put ?_ ?_ ?_ ?_ ?_ ?_ ?_ ?_ ?_ ?_ ?_; with_reducible exact Kept.refl _)
    | with_reducible exact id
    | solve | (with_reducible apply ClkOk.keep <;> simp +contextual)

theorem clearMemories_kept {z : State} (s : State) (hz : Kept z s) : Kept z (clearMemories s) := by
  unfold clearMemories
  try dsimp only
  repeat' first
    | (with_reducible refine Kept.put ?_ ?_ ?_ ?_ ?_ ?_ ?_ ?_ ?_ ?_ ?_; with_reducible assumption)
    | with_reducible exact id
    | exact fun _ => ⟨rfl, rfl⟩

theorem releaseAgain_kept {z : State} (s : State) (hz : Kept z s) : Kept z (releaseAgain s) := by
  unfold releaseAgain
  try dsimp only
  repeat' first
    | with_reducible assumption
    | with_reducible apply applyReleases_kept
    | with_reducible apply sledEvent_kept
    | (with_reducible refine Kept.ite (fun _ => ?_) (fun _ => ?_))

theorem execColdComplete_kept (xlat : List Nat) (firmware : Option Nat) (damaged : List Nat) (s : State) {t : State} (e : execColdComplete xlat firmware damaged s = .next t) : Kept s t := by
  unfold execColdComplete at e
  injection e with e; subst e
  try dsimp only
  repeat' first
    | with_reducible exact Kept.refl _
    | with_reducible apply event_kept
    | with_reducible apply restoreRecords_kept
    | (with_reducible refine Kept.ite (fun _ => ?_) (fun _ => ?_))
    | split
    | (with_reducible refine Kept.put ?_ ?_ ?_ ?_ ?_ ?_ ?_ ?_ ?_ ?_ ?_
       first
         | with_reducible exact Kept.refl _
         | with_reducible apply clearMemories_kept
         | with_reducible apply releaseAgain_kept
       )
    | with_reducible exact id
    | solve | (refine fun hh => ⟨hh.1, ?_⟩; simp_all)

theorem endEveryJob_kept {z : State} (s : State) (hz : Kept z s) : Kept z (endEveryJob s) := by
  unfold endEveryJob
  try dsimp only
  repeat' first
    | with_reducible assumption
    | with_reducible exact Kept.refl _
    | with_reducible apply failRequest_kept
    | with_reducible apply complete_kept
    | with_reducible apply takeDown_kept
    | (with_reducible refine Kept.foldl (fun _ _ => ?_) ?_ _)
    | (with_reducible refine Kept.ite (fun _ => ?_) (fun _ => ?_))
    | split
    | (with_reducible refine Kept.put ?_ ?_ ?_ ?_ ?_ ?_ ?_ ?_ ?_ ?_ ?_; with_reducible apply dropWork_kept)
    | with_reducible exact id

theorem hostAfter_ok (h : HostIf) : HostOk (hostAfter h) := ⟨rfl, rfl, rfl⟩

theorem resetFunction_kept {z : State} (s : State) (keepLocks : Bool) (hz : Kept z s) :
    Kept z (resetFunction s keepLocks) := by
  have h1 := applyPendingTiles_kept _ (endEveryJob_kept _ hz)
  unfold resetFunction
  dsimp only
  with_reducible refine Kept.put ?_ ?_ ?_ ?_ ?_ ?_ ?_ ?_ ?_ ?_ ?_
  rotate_left
  · with_reducible apply ClkOk.keep <;> simp
  · exact fun _ => hostAfter_ok _
  · exact fun h => (List.length_map _).trans h
  · exact fun _ => rfl
  · with_reducible exact MemOk.keep id id
  · exact id
  · with_reducible refine HeelOk.keep ?_
    simp [heelAfter]
  · with_reducible refine ShankOk.keep ?_
    with_reducible rfl
  · exact id
  · exact id
  refine Kept.foldl (fun _ _ => wakeAnswer_kept _ _ (Kept.refl _)) ?_ _
  exact Kept.foldl (fun _ _ => Kept.foldl (fun _ _ => complete_kept _ _ _ _ _ _ _ (Kept.refl _)) (Kept.refl _) _) h1 _

theorem execFunctionLevelReset_kept (s : State) {t : State} (e : execFunctionLevelReset s = .next t) : Kept s t := by
  unfold execFunctionLevelReset at e
  injection e with e; subst e
  try dsimp only
  repeat' first
    | with_reducible exact Kept.refl _
    | with_reducible apply resetFunction_kept
    | (with_reducible refine Kept.ite (fun _ => ?_) (fun _ => ?_))
    | (with_reducible refine Kept.put ?_ ?_ ?_ ?_ ?_ ?_ ?_ ?_ ?_ ?_ ?_; with_reducible apply resetFunction_kept)
    | with_reducible exact id

theorem execConventionalReset_kept (s : State) {t : State} (e : execConventionalReset s = .next t) : Kept s t := by
  unfold execConventionalReset at e
  injection e with e; subst e
  refine Kept.ite (fun _ => Kept.refl _) fun _ => ?_
  dsimp only
  refine Kept.put ?_ id id ?_ id id id (fun _ => rfl) id id id
  · refine Kept.foldl (fun _ _ => takeDown_kept _ _ _ _ _ (Kept.refl _)) (resetFunction_kept _ _ ?_) _
    exact Kept.put (Kept.refl _) id id id id id id id id id id
  · intro h; rw [List.length_map]; exact h

theorem execDeviceFault_kept (cause : Nat) (s : State) {t : State} (e : execDeviceFault cause s = .next t) : Kept s t := by
  unfold execDeviceFault at e
  injection e with e; subst e
  try dsimp only
  repeat' first
    | with_reducible exact Kept.refl _
    | with_reducible apply endEveryJob_kept
    | with_reducible apply wakeAnswer_kept
    | with_reducible apply event_kept
    | (with_reducible refine Kept.ite (fun _ => ?_) (fun _ => ?_))
    | (with_reducible refine Kept.put ?_ ?_ ?_ ?_ ?_ ?_ ?_ ?_ ?_ ?_ ?_; (with_reducible refine Kept.foldl (fun _ _ => ?_) ?_ _))
    | with_reducible exact id

theorem execReferenceLost_kept (s : State) {t : State} (e : execReferenceLost s = .next t) : Kept s t := by
  unfold execReferenceLost at e
  injection e with e; subst e
  try dsimp only
  repeat' first
    | with_reducible exact Kept.refl _
    | with_reducible apply event_kept
    | with_reducible apply takeDown_kept
    | (with_reducible refine Kept.foldl (fun _ _ => ?_) ?_ _)
    | (with_reducible refine Kept.ite (fun _ => ?_) (fun _ => ?_))
    | (with_reducible refine Kept.put ?_ ?_ ?_ ?_ ?_ ?_ ?_ ?_ ?_ ?_ ?_; with_reducible exact Kept.refl _)
    | with_reducible exact id
    | solve | (with_reducible apply ClkOk.keep <;> simp +contextual)

theorem execReferenceRelock_kept (s : State) {t : State} (e : execReferenceRelock s = .next t) : Kept s t := by
  unfold execReferenceRelock at e
  injection e with e; subst e
  try dsimp only
  repeat' first
    | with_reducible exact Kept.refl _
    | with_reducible apply event_kept
    | (with_reducible refine Kept.ite (fun _ => ?_) (fun _ => ?_))
    | (with_reducible refine Kept.put ?_ ?_ ?_ ?_ ?_ ?_ ?_ ?_ ?_ ?_ ?_; with_reducible exact Kept.refl _)
    | with_reducible exact id
    | solve | (with_reducible apply ClkOk.keep <;> simp +contextual)

theorem abortDescs_kept {z : State} (s : State) (hz : Kept z s) : Kept z (abortDescs s) := by
  unfold abortDescs
  try dsimp only
  repeat' first
    | with_reducible assumption
    | with_reducible exact Kept.refl _
    | with_reducible apply failRequest_kept
    | with_reducible apply complete_kept
    | with_reducible apply setJob_kept
    | (with_reducible refine Kept.foldl (fun _ _ => ?_) ?_ _)
    | split
    | (with_reducible refine Kept.put ?_ ?_ ?_ ?_ ?_ ?_ ?_ ?_ ?_ ?_ ?_; (with_reducible refine Kept.foldl (fun _ _ => ?_) ?_ _))
    | with_reducible exact id
    | solve | (with_reducible apply MemOk.keep <;> simp +contextual)
    | solve | (with_reducible apply SvcOk.keep <;> simp +contextual)
    | solve | (with_reducible apply ShankOk.keep <;> simp +contextual)

theorem execPowerStop_kept (s : State) {t : State} (e : execPowerStop s = .next t) : Kept s t := by
  unfold execPowerStop at e
  injection e with e; subst e
  try dsimp only
  repeat' first
    | with_reducible exact Kept.refl _
    | with_reducible apply abortDescs_kept
    | with_reducible apply holdTiles_kept
    | with_reducible apply stopJob_kept
    | (with_reducible refine Kept.ite (fun _ => ?_) (fun _ => ?_))
    | split
    | (with_reducible refine Kept.put ?_ ?_ ?_ ?_ ?_ ?_ ?_ ?_ ?_ ?_ ?_; with_reducible exact Kept.refl _)
    | with_reducible exact id

theorem execPowerStopTimeout_kept (s : State) {t : State} (e : execPowerStopTimeout s = .next t) : Kept s t := by
  unfold execPowerStopTimeout at e
  injection e with e; subst e
  repeat' first
    | with_reducible exact Kept.refl _
    | with_reducible apply stopJob_kept
    | (with_reducible refine Kept.ite (fun _ => ?_) (fun _ => ?_))

theorem writePmcsr_kept {z : State} (s : State) (pmcsr : Nat) (hz : Kept z s) : Kept z (writePmcsr s pmcsr) := by
  unfold writePmcsr
  try dsimp only
  repeat' first
    | (with_reducible refine Kept.put ?_ ?_ ?_ ?_ ?_ ?_ ?_ ?_ ?_ ?_ ?_; with_reducible assumption)
    | with_reducible exact id
    | solve | (with_reducible apply HostOk.keep <;> simp +contextual)

theorem enterD3hot_kept {z : State} (s : State) (hz : Kept z s) : Kept z (enterD3hot s) := by
  unfold enterD3hot
  try dsimp only
  repeat' first
    | with_reducible apply orderPace_kept
    | (with_reducible refine Kept.ite (fun _ => ?_) (fun _ => ?_))
    | (with_reducible refine Kept.put ?_ ?_ ?_ ?_ ?_ ?_ ?_ ?_ ?_ ?_ ?_; with_reducible assumption)
    | with_reducible exact id
    | solve | (with_reducible apply HostOk.keep <;> simp +contextual)

theorem enterD0_kept {z : State} (s : State) (hz : Kept z s) : Kept z (enterD0 s) := by
  unfold enterD0
  try dsimp only
  repeat' first
    | with_reducible exact Kept.refl _
    | with_reducible apply wakeAnswer_kept
    | with_reducible apply orderPace_kept
    | with_reducible apply reopenHost_kept
    | (with_reducible refine Kept.foldl (fun _ _ => ?_) ?_ _)
    | (with_reducible refine Kept.ite (fun _ => ?_) (fun _ => ?_))
    | split
    | (with_reducible refine Kept.put ?_ ?_ ?_ ?_ ?_ ?_ ?_ ?_ ?_ ?_ ?_
       first
         | with_reducible assumption
         | with_reducible apply event_kept
         | (with_reducible refine Kept.foldl (fun _ _ => ?_) ?_ _)
       )
    | with_reducible exact id
    | solve | (with_reducible apply HostOk.keep <;> simp +contextual)
    | dsimp only

theorem execPowerstateD3hot_kept (pmcsr : Nat) (s : State) {t : State} (e : execPowerstateD3hot pmcsr s = .next t) : Kept s t := by
  unfold execPowerstateD3hot at e
  injection e with e; subst e
  repeat' first
    | with_reducible exact Kept.refl _
    | with_reducible apply writePmcsr_kept
    | with_reducible apply enterD3hot_kept
    | (with_reducible refine Kept.ite (fun _ => ?_) (fun _ => ?_))

theorem execPowerstateD0_kept (pmcsr : Nat) (s : State) {t : State} (e : execPowerstateD0 pmcsr s = .next t) : Kept s t := by
  unfold execPowerstateD0 at e
  injection e with e; subst e
  repeat' first
    | with_reducible exact Kept.refl _
    | with_reducible apply enterD0_kept
    | with_reducible apply writePmcsr_kept
    | (with_reducible refine Kept.ite (fun _ => ?_) (fun _ => ?_))

theorem execWakeOrder_kept (_source : Nat) (s : State) {t : State} (e : execWakeOrder _source s = .next t) : Kept s t := by
  unfold execWakeOrder at e
  injection e with e; subst e
  try dsimp only
  repeat' first
    | with_reducible exact Kept.refl _
    | with_reducible apply wakeAnswer_kept
    | with_reducible apply orderPace_kept
    | (with_reducible refine Kept.ite (fun _ => ?_) (fun _ => ?_))
    | (with_reducible refine Kept.put ?_ ?_ ?_ ?_ ?_ ?_ ?_ ?_ ?_ ?_ ?_; with_reducible exact Kept.refl _)
    | with_reducible exact id

theorem execPmeSent_kept (s : State) {t : State} (e : execPmeSent s = .next t) : Kept s t := by
  unfold execPmeSent at e
  injection e with e; subst e
  try dsimp only
  repeat' first
    | with_reducible exact Kept.refl _
    | with_reducible apply wakeAnswer_kept
    | with_reducible apply event_kept
    | (with_reducible refine Kept.foldl (fun _ _ => ?_) ?_ _)
    | (with_reducible refine Kept.ite (fun _ => ?_) (fun _ => ?_))
    | (with_reducible refine Kept.put ?_ ?_ ?_ ?_ ?_ ?_ ?_ ?_ ?_ ?_ ?_; with_reducible exact Kept.refl _)
    | with_reducible exact id
    | solve | (with_reducible apply HostOk.keep <;> simp +contextual)

end Sys2Proof.Laws
end

