-- ==== Sys2Proof/Laws/Sled.lean ====
section
/-! SUPPORT. What the shared operations of the eyelets and of the sled can do: an eyelet changed alone, a sled event
recorded, a request handled. -/
namespace Sys2Proof.Safety
open Sys2Proof.Machine

/-! ### Eyelets -/

theorem setEyelet_only {s : State} {k : Nat} (f : Eyelet → Eyelet) (h : k < s.eyelets.length) :
    OnlyEyelet s (setEyelet s k f) k f :=
  ⟨⟨_, rfl⟩, by simp [setEyelet, mapAt], setEyelet_eyelet _ _ _ h, fun _ hj => setEyelet_eyelet_other _ _ _ _ hj⟩

theorem OnlyEyelet.then {s t u : State} {k : Nat} {f g : Eyelet → Eyelet} (h : OnlyEyelet s t k f)
    (h' : OnlyEyelet t u k g) : OnlyEyelet s u k (fun e => g (f e)) := by
  obtain ⟨⟨es, rfl⟩, hl, hk, ho⟩ := h
  obtain ⟨⟨es', rfl⟩, hl', hk', ho'⟩ := h'
  exact ⟨⟨_, rfl⟩, hl'.trans hl, by rw [hk', hk], fun j hj => by rw [ho' j hj, ho j hj]⟩

theorem setEyelet_setEyelet (s : State) (k : Nat) (f g : Eyelet → Eyelet) :
    setEyelet (setEyelet s k f) k g = setEyelet s k (fun e => g (f e)) := by
  unfold setEyelet mapAt
  simp only [List.modify_modify_eq]
  rfl

theorem sendNow_only {s : State} {k : Nat} (b : List Byte) (h : k < s.eyelets.length) :
    OnlyEyelet s (sendNow s k b) k (fun e => { e with out := e.out ++ [b] }) := setEyelet_only _ h

theorem event_recorded (s : State) (code : Nat) (slots : List Nat) : Recorded s (event s code slots) code slots :=
  event_only s code slots

theorem Recorded.eyelets {s t : State} {code : Nat} {slots : List Nat} (h : Recorded s t code slots) :
    t.eyelets = s.eyelets ∧ t.lasts = s.lasts ∧ t.job = s.job := by
  obtain ⟨_, _, _, rfl⟩ := h
  exact ⟨rfl, rfl, rfl⟩

theorem leaveUp_leftUp {s : State} {k : Nat} (h : k < s.eyelets.length) (cause : Nat) (notice : Bool) (next : LinkState) :
    LeftUp s (leaveUp s k cause notice next) k cause notice next := by
  unfold LeftUp leaveUp
  cases notice with
  | false => exact ⟨_, _, _, setEyelet_only _ h, event_recorded _ _ _, event_recorded _ _ _, rfl⟩
  | true =>
    refine ⟨_, _, _, ?_, event_recorded _ _ _, event_recorded _ _ _, rfl⟩
    exact OnlyEyelet.then (sendNow_only _ h) (setEyelet_only _ (by simpa [sendNow, setEyelet, mapAt] using h))

theorem laceLinkDown_unused {s : State} {k : Nat} (h : lacingUses s k = false) : laceLinkDown s k = s := by
  unfold laceLinkDown
  split
  · rfl
  · rw [if_neg (by simp [h])]

theorem lacingUses_congr {s t : State} (hl : t.lasts = s.lasts) (hj : t.job = s.job) (k : Nat) :
    lacingUses t k = lacingUses s k := by
  unfold lacingUses lacingEyelets jobLast lastWith
  rw [hl, hj]

/-! ### The sled -/

/-- Orders to the chips change only what the Cobbler has sent. -/
theorem orders_only (o : CobOrder) : ∀ (l : List Nat) (s : State), ∃ xs, l.foldl (orderChip o) s = { s with cobOut := xs }
  | [], s => ⟨_, rfl⟩
  | p :: l, s => by
    rw [List.foldl_cons]
    have h : ∃ xs, orderChip o s p = { s with cobOut := xs } := by
      unfold orderChip
      split <;> exact ⟨_, rfl⟩
    obtain ⟨xs, h⟩ := h
    obtain ⟨ys, h'⟩ := orders_only o l { s with cobOut := xs }
    exact ⟨ys, by rw [h, h']⟩

/-- A sled event is recorded and nothing else changes. -/
theorem sledEvent_recorded (s : State) (code : Nat) (slots : List Nat) : SledRecorded s (sledEvent s code slots) code slots := by
  unfold sledEvent
  dsimp only
  obtain ⟨evs, he, h1⟩ : ∃ evs : List SledEvent, (s.cob.events.length < 256 →
      evs = s.cob.events ++ [{ seq := s.cob.nextSeq, entry := sledEntry code s.cob.nextSeq slots, sentAt := s.now }]) ∧
      (if s.cob.events.length < 256 then
        { s with cob := { s.cob with
          nextSeq := (s.cob.nextSeq + 1) % 2 ^ 32
          sledLog := s.cob.sledLog ++ [sledEntry code s.cob.nextSeq slots]
          events := s.cob.events ++ [{ seq := s.cob.nextSeq, entry := sledEntry code s.cob.nextSeq slots, sentAt := s.now }] } }
      else
        { s with cob := { s.cob with
          nextSeq := (s.cob.nextSeq + 1) % 2 ^ 32, sledLog := s.cob.sledLog ++ [sledEntry code s.cob.nextSeq slots] } })
      = { s with cob := { s.cob with
          nextSeq := (s.cob.nextSeq + 1) % 2 ^ 32
          sledLog := s.cob.sledLog ++ [sledEntry code s.cob.nextSeq slots]
          events := evs } } := by
    by_cases h : s.cob.events.length < 256
    · exact ⟨_, fun _ => rfl, by rw [if_pos h]⟩
    · exact ⟨s.cob.events, fun h' => absurd h' h, by rw [if_neg h]⟩
  rw [h1]
  generalize hu : ({ s with cob := { s.cob with
          nextSeq := (s.cob.nextSeq + 1) % 2 ^ 32
          sledLog := s.cob.sledLog ++ [sledEntry code s.cob.nextSeq slots]
          events := evs } } : State) = u
  have h2 : ∃ msgs, (if u.cob.identified && !u.cob.restarting then
      sendApbel u .manager (apbelMsg 0x40 false 0 s.cob.nextSeq (sledEntry code s.cob.nextSeq slots)) else u)
      = { u with apbelOut := msgs } := by
    split <;> exact ⟨_, rfl⟩
  obtain ⟨msgs, h2⟩ := h2
  rw [h2]
  obtain ⟨xs, h3⟩ := orders_only (.event (sledEntry code s.cob.nextSeq slots))
    (positions.filter (fun p => decide (p ≠ u.position))) { u with apbelOut := msgs }
  rw [h3]
  refine ⟨xs, msgs, evs, he, ?_⟩
  subst hu
  dsimp only
  have hc : (chipOn s s.position && barAlive s) = (chipOn { s with
      cob := { s.cob with
        nextSeq := (s.cob.nextSeq + 1) % 2 ^ 32
        sledLog := s.cob.sledLog ++ [sledEntry code s.cob.nextSeq slots]
        events := evs }
      cobOut := xs
      apbelOut := msgs } s.position && barAlive { s with
      cob := { s.cob with
        nextSeq := (s.cob.nextSeq + 1) % 2 ^ 32
        sledLog := s.cob.sledLog ++ [sledEntry code s.cob.nextSeq slots]
        events := evs }
      cobOut := xs
      apbelOut := msgs }) := rfl
  rw [hc]
  split
  · exact event_recorded _ _ _
  · rfl

/-! ### Requests -/

theorem onRequest_asked {s : State} {type : Nat} {msg : List Byte} (h : Asked s type msg) (src : Nat)
    (f : State → List Byte → Nat → Handled) :
    onRequest s src type msg f = match f s (msg.drop 16) (leAt msg 8 4) with
      | (t, some (status, body)) => replied t src type msg status body
      | (t, none) => t := by
  obtain ⟨h1, h2, h3⟩ := h
  unfold onRequest
  dsimp only
  rw [if_neg (by simp [h1]), if_neg (by simp [h2]), h3]
  rfl

end Sys2Proof.Safety
end

