-- ==== Sys2Proof/WellFormed.lean ====
section
/-! DEFINITION. When the operands of a command are ones that the spec can give it: a unit's number names a unit that
exists, a message has its length, and a host command goes with a descriptor of its own OPCODE. A command that fails its
check is still a term of `Instr`, and the machine answers it (log entry 3). -/
namespace Sys2Proof
open Sys2Proof.Machine (Desc leAt)

/-- One of the sixteen eyelets (10). -/
def eyeletNumber (k : Nat) : Bool := decide (k < 16)
/-- A packet's way in: an eyelet, the chip's own injection (16), or the turn buffer (17) (11 R274, R275). -/
def portNumber (k : Nat) : Bool := decide (k < 18)
/-- A virtual channel of the service plane (11 R278). -/
def vcNumber (v : Nat) : Bool := decide (v < 4)
/-- One of the twenty regions (02 R25). -/
def regionNumber (r : Nat) : Bool := decide (r < 20)
/-- A ring (15 R361). -/
def ringNumber (r : Nat) : Bool := decide (r < 64)
/-- A vector (15 R385). -/
def vectorNumber (v : Nat) : Bool := decide (v < 32)
/-- A tack (15 R382). -/
def tackNumber (t : Nat) : Bool := decide (t < 131072)
/-- A position of the sled (17.1). -/
def positionNumber (p : Nat) : Bool := decide (p < 4)
/-- A microphone (18.1). -/
def micNumber (c : Nat) : Bool := decide (c < 4)
/-- A byte's value. -/
def byteValue (n : Nat) : Bool := decide (n < 256)
/-- The length of a mini-unit (10 R237). -/
def miniItem (bs : List Byte) : Bool := decide (bs.length = 32)
/-- The length of a unit (10 R235). -/
def unitItem (bs : List Byte) : Bool := decide (bs.length = 256)
/-- A source and an Apbel message with a whole header (17 R438). -/
def apbelFrom (src : Nat) (msg : List Byte) : Bool := byteValue src && decide (16 ≤ msg.length)
/-- A descriptor of a submission ring with one of the opcodes `ops` (15 R370). -/
def descOf (d : Desc) (ops : List Nat) : Bool :=
  ringNumber d.ring && decide (d.slot < 32768) && decide (d.bytes.length = 64) && ops.contains (leAt d.bytes 0 1)
/-- A descriptor whose KIND or XOP byte is `kind` (Tables 15.18, 15.20). -/
def kindOf (d : Desc) (kind : Nat) : Bool := decide (leAt d.bytes 8 1 = kind)
/-- The status registers that an error is cleared in (20 R492). -/
def statusOffset (o : Nat) : Bool := [0x01F4, 0x02F4, 0x400C, 0x410C].contains o

/-- Whether the operands of a command are ones the spec can give it. -/
def Instr.wf : Instr → Bool
  | .generatorLock => true
  | .coldComplete xlat fw _ => decide (xlat.length = 80) && decide (fw.getD 0 < 2 ^ 32)
  | .functionLevelReset => true
  | .conventionalReset => true
  | .deviceFault cause => decide (cause < 2 ^ 64)
  | .referenceLost => true
  | .referenceRelock => true
  | .stitchBoundary late => late.all regionNumber
  | .paceSlewEnd => true
  | .lateUnitDepart eyelet _ unit => eyeletNumber eyelet && decide (unit < 1024)
  | .handshakeAck region ecc _ => regionNumber region && decide (ecc < 5)
  | .slipPointAlign => true
  | .stepControlLost => true
  | .slipAnnounce => true
  | .resumeRelease => true
  | .marginWindowEnd loops => decide (loops.length = 20)
  | .paceChangeOutsideJob => true
  | .governorPeriodStart temps halfAmps => decide (temps.length = 20) && decide (halfAmps.length = 4)
  | .governorApply status => byteValue status
  | .throttleBegin region => regionNumber region
  | .coolantValuesReceived _ flow => decide (flow < 65536)
  | .coolantStale => true
  | .cobblerHold => true
  | .cobblerHoldRelease => true
  | .capUpdate powerCap paceCap => decide (powerCap < 65536) && byteValue paceCap
  | .powerStop => true
  | .powerStopTimeout => true
  | .wakeOrder source => byteValue source
  | .pmeSent => true
  | .hbmPatrolScrub page => decide (2048 * page < 0x2400000000)
  | .refreshDue bank => decide (bank < 8192)
  | .pageRetireCopyDone => true
  | .congestionWindowEnd => true
  | .healthRecordWrite => true
  | .doorbellPoll => true
  | .doorbellReadComplete words => decide (words.length = 512)
  | .hostDmaFault kind ring index addr _ =>
    decide (1 ≤ kind ∧ kind ≤ 5) && ringNumber ring && decide (index < 65536) && decide (addr < 2 ^ 64)
  | .deferredCompletionWrite ring => ringNumber ring
  | .evtOverrun ring => ringNumber ring
  | .msixModTimeout vector => vectorNumber vector
  | .msixUnmask vector => vectorNumber vector
  | .nop d => descOf d [leAt d.bytes 0 1]
      && !([0x02, 0x10, 0x11, 0x12, 0x20, 0x21, 0x22, 0x23, 0x24, 0x25, 0x30, 0x31, 0x40, 0x41, 0x42, 0x50, 0x60, 0x70, 0x80,
        0x90].contains (leAt d.bytes 0 1))
  | .query d => descOf d [0x02]
  | .loadLast d _ _ _ => descOf d [0x10]
  | .loadWeights d _ _ => descOf d [0x11]
  | .unload d => descOf d [0x12]
  | .jobOpen d => descOf d [0x20]
  | .jobStart d => descOf d [0x21]
  | .barrierReady => true
  | .js0Release => true
  | .barrierTimeout => true
  | .barrierSelfEnd => true
  | .jobDrain d => descOf d [0x22]
  | .jobDrainComplete => true
  | .jobClose d => descOf d [0x23]
  | .jobCheckpoint d => descOf d [0x24]
  | .checkpointImageWrite _ => true
  | .jobRelast d _ _ _ _ => descOf d [0x25]
  | .setBudget d => descOf d [0x30]
  | .setPaceLimit d => descOf d [0x31]
  | .tileRetire d => descOf d [0x40]
  | .linkRetrain d => descOf d [0x41]
  | .pageRetire d => descOf d [0x42]
  | .tableLoadRouting d _ => descOf d [0x60] && !(kindOf d 2 || kindOf d 3 || kindOf d 4)
  | .tableLoadPeer d _ => descOf d [0x60] && kindOf d 2
  | .tableLoadTemplate d _ => descOf d [0x60] && kindOf d 3
  | .templateLoadComplete => true
  | .tableLoadKey d _ => descOf d [0x60] && kindOf d 4
  | .logRead d => descOf d [0x70]
  | .req d _ => descOf d [0x80]
  | .solve d _ => descOf d [0x90]
  | .shankProblemDone => true
  | .xferWrite d _ _ => descOf d [0x50] && !(kindOf d 2 || kindOf d 3)
  | .xferRead d => descOf d [0x50] && kindOf d 2
  | .xferTackAdd d _ => descOf d [0x50] && kindOf d 3
  | .interruptModerationApply _ => true
  | .doorbellApply _ => true
  | .doorbellApplyEffect => true
  | .ringApply _ => true
  | .ringApplyEffect ring => ringNumber ring
  | .paceApply _ => true
  | .marginApply _ => true
  | .marginApplyEffect => true
  | .applyErrClear offset => statusOffset offset
  | .ringApplyErrClear _ => true
  | .debugLock => true
  | .policyLock => true
  | .sigPolicyWrite _ => true
  | .graceMsWrite eyelet ms => eyeletNumber eyelet && decide (ms < 2 ^ 32)
  | .complTimeoutWrite ms => decide (ms < 2 ^ 32)
  | .registerWrite offset size value =>
    decide (offset < 0x10000) && decide (1 ≤ size ∧ size ≤ 512) && decide (value < 2 ^ (8 * size))
  | .lowWordReadLatch offset => decide (offset < 0x10000)
  | .congestionSnapshotRead => true
  | .recentSnapshotRead entry => decide (entry < 32)
  | .busMasterEnable _ => true
  | .powerstateD3hot pmcsr => decide (pmcsr < 65536)
  | .powerstateD0 pmcsr => decide (pmcsr < 65536)
  | .trainingSequence eyelet lanes _ ownOk =>
    eyeletNumber eyelet && decide (lanes.length ≤ 8) && byteValue ownOk
  | .trainingStateTimeout eyelet => eyeletNumber eyelet
  | .codewordLock eyelet => eyeletNumber eyelet
  | .backoffExpiry eyelet => eyeletNumber eyelet
  | .codewordReceived eyelet _ _ _ => eyeletNumber eyelet
  | .markerLoss eyelet lane => eyeletNumber eyelet && decide (lane < 8)
  | .exchange eyelet item => eyeletNumber eyelet && miniItem item
  | .exchangeResend eyelet => eyeletNumber eyelet
  | .latProbeSend eyelet => eyeletNumber eyelet
  | .latProbe eyelet item turn => eyeletNumber eyelet && miniItem item && decide (turn < 65536)
  | .latEcho eyelet item _ => eyeletNumber eyelet && miniItem item
  | .creditInit eyelet item => eyeletNumber eyelet && miniItem item
  | .weltUnitReceived eyelet item => eyeletNumber eyelet && unitItem item
  | .ack eyelet item => eyeletNumber eyelet && miniItem item
  | .nak eyelet item => eyeletNumber eyelet && miniItem item
  | .ackDue eyelet => eyeletNumber eyelet
  | .resendTimeout eyelet => eyeletNumber eyelet
  | .tongueResendTimeout eyelet => eyeletNumber eyelet
  | .creditReportSend eyelet => eyeletNumber eyelet
  | .creditReport eyelet item => eyeletNumber eyelet && miniItem item
  | .downNotice eyelet item => eyeletNumber eyelet && miniItem item
  | .idle eyelet item => eyeletNumber eyelet && miniItem item
  | .graceExpiry eyelet => eyeletNumber eyelet
  | .offer eyelet item => eyeletNumber eyelet && miniItem item
  | .offerPart eyelet item => eyeletNumber eyelet && miniItem item
  | .ready eyelet item => eyeletNumber eyelet && miniItem item
  | .start eyelet item => eyeletNumber eyelet && miniItem item
  | .abort eyelet item => eyeletNumber eyelet && miniItem item
  | .slip eyelet item => eyeletNumber eyelet && miniItem item
  | .slipReady eyelet item => eyeletNumber eyelet && miniItem item
  | .resume eyelet item => eyeletNumber eyelet && miniItem item
  | .stop eyelet item => eyeletNumber eyelet && miniItem item
  | .pace eyelet item => eyeletNumber eyelet && miniItem item
  | .serviceHeaderRoute eyelet vc => portNumber eyelet && vcNumber vc
  | .write eyelet vc => portNumber eyelet && vcNumber vc
  | .read eyelet vc => portNumber eyelet && vcNumber vc
  | .tackAdd eyelet vc => portNumber eyelet && vcNumber vc
  | .writeDone eyelet vc => portNumber eyelet && vcNumber vc
  | .readData eyelet vc => portNumber eyelet && vcNumber vc
  | .tackDone eyelet vc => portNumber eyelet && vcNumber vc
  | .completionTimeout _ => true
  | .fetchTimeout tack => tackNumber tack
  | .sledInsertion => true
  | .presenceBreak => true
  | .mainLost centivolts => decide (centivolts < 65536)
  | .cellSample centivolts _ => decide (centivolts < 65536)
  | .powerRemoval position _ => positionNumber position
  | .sledRestart => true
  | .railGood position => positionNumber position
  | .railFault position rail => positionNumber position && decide (1 ≤ rail ∧ rail ≤ 7)
  | .cellReady => true
  | .cellFull => true
  | .cellInserted centivolts => decide (centivolts < 65536)
  | .cellCapacitanceCheck millifarads => decide (millifarads < 65536)
  | .coolantCondition condition => decide (1 ≤ condition ∧ condition ≤ 5)
  | .coolantConditionClear condition => decide (1 ≤ condition ∧ condition ≤ 5)
  | .coolantUpdate _ _ flow wet => decide (flow < 65536) && decide (wet < 4)
  | .leak zone => decide (1 ≤ zone ∧ zone < 4)
  | .fwRollback => true
  | .eventResend seq => decide (seq < 2 ^ 32)
  | .sledPresent => true
  | .identify src msg => apbelFrom src msg
  | .setAddress src msg => apbelFrom src msg
  | .setCoord src msg => apbelFrom src msg
  | .eyeletCtrl src msg => apbelFrom src msg
  | .setCaps src msg => apbelFrom src msg
  | .apbelHold src msg => apbelFrom src msg
  | .apbelRelease src msg => apbelFrom src msg
  | .wake src msg => apbelFrom src msg
  | .sensors src msg => apbelFrom src msg
  | .chipPowerOn src msg => apbelFrom src msg
  | .chipPowerOff src msg => apbelFrom src msg
  | .sledPowerOn src msg => apbelFrom src msg
  | .sledPowerOff src msg => apbelFrom src msg
  | .swapPrepare src msg => apbelFrom src msg
  | .cellPrepare src msg => apbelFrom src msg
  | .clearLeak src msg => apbelFrom src msg
  | .fwWrite src msg => apbelFrom src msg
  | .fwActivate src msg => apbelFrom src msg
  | .apbelLogRead src msg => apbelFrom src msg
  | .eventAck src msg => apbelFrom src msg
  | .configure src msg => apbelFrom src msg
  | .calWrite src msg => apbelFrom src msg
  | .streamStart src msg => apbelFrom src msg
  | .streamStop src msg => apbelFrom src msg
  | .templateData src msg => apbelFrom src msg
  | .templateCommit src msg => apbelFrom src msg
  | .templateClear src msg => apbelFrom src msg
  | .acousticStatus src msg => apbelFrom src msg
  | .monitorStart => true
  | .monitorSettled => true
  | .acousticFrameBoundary samples => decide (samples.length = 64) && samples.all (fun p => decide (p.length ≤ 4))
  | .energyBlock channel samples => micNumber channel && !samples.isEmpty
  | .featureVector vector _ => decide (vector.length = 40) && vector.all byteValue
  | .micFault channel => micNumber channel
  | .micRecovery channel => micNumber channel
  | .autoActiveTimeout => true
  | .energyRearmTimeout channel => micNumber channel
  | .valveQuietEnd => true
  | .unitOpportunity eyelet => eyeletNumber eyelet
  | .cobblerBoot => true
  | .flowLeakCheckEnd _ => true
  | .cobblerRestartComplete _ => true
  | .vaux33Lost => true

end Sys2Proof
end

