-- ==== Sys2Proof/Tests/Slice0.lean ====
section
/-! SUPPORT. Tests: the checks of well-formedness at the ends of their ranges, worked examples of the spec, and for every
statement with hypotheses states and operands that meet them. -/
open Host Sys2Proof Sys2Proof.Machine Sys2Proof.Safety
namespace Sys2Proof.Tests

set_option Elab.async false

/-! ### Small states, descriptors, messages and link items to try the statements on -/

/-- A descriptor in slot 0 of a ring: opcode, fields (offset, bytes, value), flags. -/
def desc (ring op : Nat) (fields : List (Nat × Nat × Nat)) (flags : Nat := 0) : Desc :=
  { ring, slot := 0, bytes := fields.foldl (fun b f => overlay b f.1 (leBytes f.2.1 f.2.2))
      (overlay (zeros 64) 0 [byteOf op, byteOf flags]) }

/-- Rings 0 to 4 of types 1 to 5, eight entries each. -/
def ringTable : List Word :=
  (List.range 64).flatMap (fun r =>
    [0, 0, 0, 0, BitVec.ofNat 32 ((if r < 5 then r + 1 else 0) + 3 * 256 + 3 * 65536), 255, 0, 0])

/-- A device in LOADED whose rings are started and each reading slot 0, in a pod of eight chips. -/
def base : State :=
  { State.reset with
    dev := { Dev.fresh with state := .loaded, under := .loaded, shape := [2, 2, 2], coordValid := true }
    host := { HostIf.fresh with busMaster := true, rings := List.replicate 64 { Ring.fresh with started := true, reading := [0] } }
    regs := { Regs.fresh with ringActive := ringTable, dbActiveCtl := 276 } }

/-- Every eyelet in one state. -/
def eyes (e : Eyelet) (s : State) : State := { s with eyelets := List.replicate 16 e }

/-- An eyelet in a state. -/
def eye (x : LinkState) : Eyelet := { Eyelet.fresh with state := x }

/-- One departure of lace 5 on eyelet 0. -/
def laceRow : LaceRow :=
  { jsOffset := 0, action := 1, eyelet := 0, outA := 0, outB := 15, units := 1, ltile := 0, lace := 5, addr := 0, rsvOk := true }

/-- A last of two chips, here as chip `lchip`; its leader is chip 0 and its lacing uses eyelet 0. -/
def last (lchip : Nat) : LoadedLast :=
  { digest := zeros 32, log2L := 1, retryAllow := 64, vocab := 8, context := 128, lockstepOk := true, relaxedOk := true,
    pinned := zeros 32, xlat := [], span := 0, build := ⟨1, 1, 0, 0, 0, 0⟩,
    variants := [{ id := 0xFF, kind := 2, size := 1, lengthJs := 4096, energyUj := 0, peakW := 0, entry := 0, laceEntry := 192,
                   rsvOk := true }],
    lacing := { expects := [(1, 0)], laceCount := 6, statsOffset := 0, flight := [], rows := [laceRow] }, code := [],
    consts := [], manifest := [[], []], placement := [],
    arr := { span := 0, leader := 0, dateline := ⟨0, 0, 0⟩, hasMaps := false,
             chips := [⟨⟨0, 0, 0⟩, List.range 16, [0]⟩, ⟨⟨1, 0, 0⟩, List.range 16, [0]⟩], digest := zeros 32 },
    lchip, tileMap := [0], insoleBase := 0, hbmBase := 0, tackBase := 0, schedule := ⟨[]⟩, slices := [], siblings := none,
    weightDigest := none, closed := false }

/-- Job 7 of that last, in a state. -/
def job (x : JobState) : Job := { openJob 7 false 0 16 0 (zeros 32) with state := x }

/-- A chip of it with its job. -/
def jobbed (lchip : Nat) (j : Job) (s : State := base) : State := { s with lasts := [last lchip], job := some j }

/-- Tile `t` in a health state. -/
def tile (t state : Nat) : TileHealth := { TileHealth.factory t with state := state }

/-- A tile's record put in. -/
def withTile (t state : Nat) : State := { base with mem := { Mem.fresh with tiles := setAt Mem.fresh.tiles t (tile t state) } }

/-- The retirement map with some entries. -/
def mapped (xs : List RetireEntry) : State := { base with mem := { Mem.fresh with retired := xs } }

/-- A ring's running part changed. -/
def ringed (r : Nat) (f : Ring → Ring) (s : State := base) : State := setRing s r f

/-- A final completion that signals tack 5. -/
def cpl : Cpl :=
  { status := 0, sub := 0, final := true, flags := 0, opcode := 1, index := 0, tag := 0, result := [], irq := false,
    answers := true, signal := some 5 }

/-- An event of the log. -/
def logEvent : Event := { code := 0x5060, seq := 0, ws := 0, payload := zeros 48 }

/-- A state with one event logged. -/
def withEvent : State := { base with host := { base.host with nextSeq := 1, eventLog := [logEvent] } }

/-- A routing table image for bank 1 of the pod of eight chips. -/
def routingImage : List Byte :=
  leBytes 4 0x45545552 ++ leBytes 1 1 ++ leBytes 1 1 ++ [2, 2, 2, 0, 0, 0, 0x10, 0x11, 0x12] ++ zeros 49 ++
    ([0xFF, 0x100, 0x211, 0x100, 0x422, 0x100, 0x211, 0x100].flatMap (leBytes 8))

/-- A table with that dateline. -/
def bank : RouteTable := parseRouting routingImage

/-- A template image of one variable, one constraint and one parameter. -/
def templateImage : List Byte := leBytes 4 0x4B4E4853 ++ [1, 1, 1] ++ zeros 121

/-- What it holds. -/
def template : Template := { n := 1, m := 1, p := 1, data := List.replicate 4 0, binds := [] }

/-- A batch in progress. -/
def batch : Batch :=
  { ring := 3, slot := 0, resultAddr := 0, count := 1, mode := .nan, tol := ⟨0, 0, 0⟩, left := [], next := 0, lost := false }

/-- A training sequence: state byte and lane mask. -/
def ts (code mask : Nat) : List Byte :=
  let b := padTo 28 (leBytes 4 0x0F5AF0A5 ++ [byteOf code, 0, byteOf mask])
  b ++ leBytes 4 (crc32c b)

/-- A scheduled welt unit with a sequence number. -/
def unit (seq : Nat) : List Byte :=
  let b := padTo 252 (leBytes 8 (0x80 + 256 * seq))
  b ++ leBytes 4 (crc32c b)

/-- A tongue message of tag 7. -/
def tong (type origin lchip arg8 jsf : Nat) (tseq : Nat := 0) (arg64 : Nat := 0) : List Byte :=
  miniUnit ([byteOf type, byteOf tseq, 7, 0] ++ leBytes 2 origin ++ leBytes 2 lchip ++ zeros 3 ++ [byteOf arg8] ++ leBytes 8 jsf
    ++ leBytes 8 arg64)

/-- Every eyelet UP. -/
def linked (s : State := base) : State := eyes (eye .up) s

/-- The regions of a state all at one JS. -/
def atJs (js : Nat) (s : State := base) : State :=
  { s with clk := { s.clk with regions := List.replicate 20 { Region.fresh with js := js } } }

/-- Something of the barrier changed. -/
def barred (x : JobState) (b : Barrier) : Job := { job x with barrier := b }

/-- What a header of a service packet is built from. -/
def fields (op dest : Nat) : Hdr :=
  { op, spread := false, valiant := false, fence := false, skive := false, mcast := 0, dest, jobTag := 0xFFFF
    target := if op = 3 then 4 else 3, tile := 0, addr := 0, length := if op = 3 then 0 else 4, arg := 0, mask := 0 }

/-- A header. -/
def hdr (op dest : Nat) (f : Hdr → Hdr := id) : List Byte := hdrBytes 0 0 0 0 0 (f (fields op dest))

/-- A packet of 4 bytes. -/
def pkt (op : Nat) (dest : Nat := 0) : Pkt := ⟨hdr op dest, if op = 1 then zeros 4 else []⟩

/-- The service plane with a packet waiting here. -/
def here (op : Nat) (s : State := base) : State := { s with svc := { s.svc with here := [⟨16, 0, pkt op⟩] } }

/-- A transaction. -/
def txn (mcast read : Bool) (answers : List (Nat × Nat × Nat)) : Txn :=
  { id := 0, owner := .chip, deadline := 0, spread := false, mcast, read, waiting := [0], answers, unsure := [], arg := 0, data := [],
    onDone := .mailbox }

/-- An Apbel request. -/
def apbel (type : Nat) (body : List Byte) : List Byte :=
  leBytes 4 0x4C425041 ++ [1, byteOf type] ++ zeros 2 ++ leBytes 4 9 ++ leBytes 2 body.length ++ zeros 2 ++ body

/-- The Cobbler changed. -/
def cobbed (f : Cobbler → Cobbler) : State := { base with cob := f base.cob }

/-- The chips of the sled, all alike. -/
def chips (rail : Nat) (starting : Bool := false) (stopAt : Option Nat := none) : State :=
  cobbed (fun c => { c with chips := List.replicate 4 { rail, starting, stopAt } })

/-- The monitor changed. -/
def heard' (f : Monitor → Monitor) : State := { base with mon := f base.mon }

/-- Its channels, all alike. -/
def chans (f : MonChan → MonChan) : State := heard' (fun m => { m with chans := List.replicate 4 (f MonChan.fresh) })

/-- The heel changed. -/
def heeled (f : Heel → Heel) : State := { base with heel := f base.heel }

/-- The device changed. -/
def dev (f : Dev → Dev) (s : State := base) : State := { s with dev := f s.dev }

/-- A chip in COLD whose generators are locked. -/
def cold : State := dev (fun d => { d with state := .cold })

/-- A statement about two places. -/
theorem pair {P : Nat → Prop} {a b : Nat} (ha : P a) (hb : P b) : ∀ x, x = a ∨ x = b → P x := by
  rintro x (rfl | rfl)
  · exact ha
  · exact hb

/-- A prefix store of one frame. -/
def store : Store :=
  { base := 0, ptPages := 0, slots := 0, dir := 0, dirSize := 0, frame0 := 0, frames := 1, stride := 2048, size := 2048 }

/-- A chip with a routing table, its eyelets UP. -/
def banked : State := { linked with svc := { base.svc with banks := [some bank, none] } }

/-- The one unit of a packet. -/
def svcUnit (h : List Byte) : SvcUnit :=
  { first := true, last := true, trunc := false, len := 239, payload := h, ingress := 15, kind := 0, hdr := h }

/-- That unit received on every VC of every eyelet. -/
def received (h : List Byte) : State := eyes { eye .up with rxSvc := List.replicate 4 [svcUnit h] } banked

/-- A spread request whose every way on is closed for want of credits. -/
def spread : List Byte := hdr 1 1 (fun h => { h with spread := true })

/-- A sled that is being stopped after a commit. -/
def stopping : State :=
  { base with cob := { base.cob with commitAt := some 0, chips := List.replicate 4 { rail := 8, starting := false, stopAt := some 0 } } }

/-- A template's header for 40 bytes of zeros. -/
def templateHeader : List Byte := [1, 0, 2, 0, 0, 0, 15] ++ zeros 21 ++ leBytes 4 (crc32c (zeros 40))

/-- The monitor with 40 bytes in every slot. -/
def held : State := heard' (fun m => { m with slots := List.replicate 8 { MonSlot.fresh with held := zeros 40 } })

/-- A template of the leak class. -/
def leak : MonTemplate := { n := 1, cls := 2, levelFree := false, threshold := 3, chips := 0, bytes := List.replicate 40 0 }

/-- A pair whose second part is true. -/
theorem answered {p : State × Bool} (h : p.2 = true) : p = (p.1, true) := by
  cases p
  subst h
  rfl

/-! ### Well-formedness: each check takes its last good operand and refuses the first bad one -/

/-- Operands at the ends of their ranges. -/
theorem test_well_formed_1 :
    ([.coldComplete (List.replicate 80 6) (some (2 ^ 32 - 1)) [], .deviceFault (2 ^ 64 - 1), .stitchBoundary [19],
      .lateUnitDepart 15 0 1023, .handshakeAck 19 4 0, .marginWindowEnd (List.replicate 20 [0]),
      .governorPeriodStart (List.replicate 20 0) (List.replicate 4 0), .governorApply 255, .throttleBegin 19,
      .coolantValuesReceived 0 65535, .capUpdate 65535 255, .wakeOrder 255, .hbmPatrolScrub 75497471,
      .refreshDue 8191, .doorbellReadComplete (List.replicate 512 0), .hostDmaFault 5 63 65535 (2 ^ 64 - 1) [],
      .deferredCompletionWrite 63, .evtOverrun 63, .msixModTimeout 31, .msixUnmask 31, .nop (desc 63 0xFF []),
      .query (desc 63 0x02 []), .loadLast (desc 63 0x10 []) [] [] ⟨[]⟩, .loadWeights (desc 63 0x11 []) [] [],
      .unload (desc 63 0x12 []), .jobOpen (desc 63 0x20 []), .jobStart (desc 63 0x21 []),
      .jobDrain (desc 63 0x22 []), .jobClose (desc 63 0x23 []), .jobCheckpoint (desc 63 0x24 []),
      .jobRelast (desc 63 0x25 []) [] [] [] ⟨[]⟩, .setBudget (desc 63 0x30 []), .setPaceLimit (desc 63 0x31 []),
      .tileRetire (desc 63 0x40 []), .linkRetrain (desc 63 0x41 []), .pageRetire (desc 63 0x42 []),
      .tableLoadRouting (desc 63 0x60 []) [], .tableLoadPeer (desc 63 0x60 [(8, 1, 2)]) [],
      .tableLoadTemplate (desc 63 0x60 [(8, 1, 3)]) [], .tableLoadKey (desc 63 0x60 [(8, 1, 4)]) [],
      .logRead (desc 63 0x70 []), .req (desc 63 0x80 []) [], .solve (desc 63 0x90 []) [],
      .xferWrite (desc 63 0x50 []) [] [], .xferRead (desc 63 0x50 [(8, 1, 2)]),
      .xferTackAdd (desc 63 0x50 [(8, 1, 3)]) [], .ringApplyEffect 63, .applyErrClear 0x410C,
      .graceMsWrite 15 (2 ^ 32 - 1), .complTimeoutWrite (2 ^ 32 - 1), .registerWrite (0x10000 - 1) 512 1,
      .lowWordReadLatch (0x10000 - 1), .recentSnapshotRead 31, .powerstateD3hot 65535, .powerstateD0 65535,
      .trainingSequence 15 (List.replicate 8 []) true 255, .trainingStateTimeout 15, .codewordLock 15,
      .backoffExpiry 15, .codewordReceived 15 0 0 0] : List Instr).all (fun i => i.wf) = true := by
  decide +kernel

/-- Operands at the ends of their ranges. -/
theorem test_well_formed_2 :
    ([.markerLoss 15 7, .exchange 15 (zeros 32), .exchangeResend 15, .latProbeSend 15, .latProbe 15 (zeros 32) 65535,
      .latEcho 15 (zeros 32) 0, .creditInit 15 (zeros 32), .weltUnitReceived 15 (zeros 256), .ack 15 (zeros 32),
      .nak 15 (zeros 32), .ackDue 15, .resendTimeout 15, .tongueResendTimeout 15, .creditReportSend 15,
      .creditReport 15 (zeros 32), .downNotice 15 (zeros 32), .idle 15 (zeros 32), .graceExpiry 15,
      .offer 15 (zeros 32), .offerPart 15 (zeros 32), .ready 15 (zeros 32), .start 15 (zeros 32),
      .abort 15 (zeros 32), .slip 15 (zeros 32), .slipReady 15 (zeros 32), .resume 15 (zeros 32),
      .stop 15 (zeros 32), .pace 15 (zeros 32), .serviceHeaderRoute 17 3, .write 17 3, .read 17 3, .tackAdd 17 3,
      .writeDone 17 3, .readData 17 3, .tackDone 17 3, .fetchTimeout 131071, .mainLost 65535, .cellSample 65535 0,
      .powerRemoval 3 true, .railGood 3, .railFault 3 7, .cellInserted 65535, .cellCapacitanceCheck 65535,
      .coolantCondition 5, .coolantConditionClear 5, .coolantUpdate 0 0 65535 3, .leak 3, .eventResend (2 ^ 32 - 1),
      .identify 255 (zeros 16), .setAddress 255 (zeros 16), .setCoord 255 (zeros 16), .eyeletCtrl 255 (zeros 16),
      .setCaps 255 (zeros 16), .apbelHold 255 (zeros 16), .apbelRelease 255 (zeros 16), .wake 255 (zeros 16),
      .sensors 255 (zeros 16), .chipPowerOn 255 (zeros 16), .chipPowerOff 255 (zeros 16), .sledPowerOn 255 (zeros 16)] : List Instr).all (fun i => i.wf) = true := by
  decide +kernel

/-- Operands at the ends of their ranges. -/
theorem test_well_formed_3 :
    ([.sledPowerOff 255 (zeros 16), .swapPrepare 255 (zeros 16), .cellPrepare 255 (zeros 16),
      .clearLeak 255 (zeros 16), .fwWrite 255 (zeros 16), .fwActivate 255 (zeros 16), .apbelLogRead 255 (zeros 16),
      .eventAck 255 (zeros 16), .configure 255 (zeros 16), .calWrite 255 (zeros 16), .streamStart 255 (zeros 16),
      .streamStop 255 (zeros 16), .templateData 255 (zeros 16), .templateCommit 255 (zeros 16),
      .templateClear 255 (zeros 16), .acousticStatus 255 (zeros 16), .acousticFrameBoundary (List.replicate 64 []),
      .energyBlock 3 [0], .featureVector (List.replicate 40 255) true, .micFault 3, .micRecovery 3,
      .energyRearmTimeout 3, .unitOpportunity 15] : List Instr).all (fun i => i.wf) = true := by
  decide +kernel

/-- One operand of each past the end of its range. -/
theorem test_ill_formed_1 :
    ([.coldComplete (List.replicate 81 6) (some (2 ^ 32 - 1)) [],
      .coldComplete (List.replicate 80 6) (some (2 ^ 32)) [], .deviceFault (2 ^ 64), .stitchBoundary [20],
      .lateUnitDepart 16 0 1023, .lateUnitDepart 15 0 1024, .handshakeAck 20 4 0, .handshakeAck 19 5 0,
      .marginWindowEnd (List.replicate 21 [0]), .governorPeriodStart (List.replicate 21 0) (List.replicate 4 0),
      .governorPeriodStart (List.replicate 20 0) (List.replicate 5 0), .governorApply 256, .throttleBegin 20,
      .coolantValuesReceived 0 65536, .capUpdate 65535 256, .capUpdate 65536 255, .wakeOrder 256,
      .hbmPatrolScrub 75497472, .refreshDue 8192, .doorbellReadComplete (List.replicate 513 0),
      .hostDmaFault 5 64 65535 (2 ^ 64 - 1) [], .hostDmaFault 6 63 65535 (2 ^ 64 - 1) [],
      .hostDmaFault 0 63 65535 (2 ^ 64 - 1) [], .hostDmaFault 5 63 65536 (2 ^ 64 - 1) [],
      .hostDmaFault 5 63 65535 (2 ^ 64) [], .deferredCompletionWrite 64, .evtOverrun 64, .msixModTimeout 32,
      .msixUnmask 32, .nop (desc 0 0x02 []), .query (desc 64 0x02 []), .query (desc 0 0x90 []),
      .query ⟨0, 32768, (desc 0 0x02 []).bytes⟩, .query ⟨0, 0, (desc 0 0x02 []).bytes.tail⟩,
      .loadLast (desc 0 0x01 []) [] [] ⟨[]⟩, .loadWeights (desc 0 0x01 []) [] [], .unload (desc 0 0x01 []),
      .jobOpen (desc 0 0x01 []), .jobStart (desc 0 0x01 []), .jobDrain (desc 0 0x01 []), .jobClose (desc 0 0x01 []),
      .jobCheckpoint (desc 0 0x01 []), .jobRelast (desc 0 0x01 []) [] [] [] ⟨[]⟩, .setBudget (desc 0 0x01 []),
      .setPaceLimit (desc 0 0x01 []), .tileRetire (desc 0 0x01 []), .linkRetrain (desc 0 0x01 []),
      .pageRetire (desc 0 0x01 []), .tableLoadRouting (desc 0 0x60 [(8, 1, 2)]) [],
      .tableLoadRouting (desc 0 0x60 [(8, 1, 3)]) [], .tableLoadPeer (desc 0 0x60 []) [],
      .tableLoadTemplate (desc 0 0x60 []) [], .tableLoadKey (desc 0 0x60 []) [], .logRead (desc 0 0x01 []),
      .req (desc 0 0x01 []) [], .solve (desc 0 0x01 []) [], .xferWrite (desc 0 0x50 [(8, 1, 2)]) [] [],
      .xferWrite (desc 0 0x50 [(8, 1, 3)]) [] [], .xferRead (desc 0 0x50 []), .xferTackAdd (desc 0 0x50 []) []] : List Instr).all (fun i => !i.wf) = true := by
  decide +kernel

/-- One operand of each past the end of its range. -/
theorem test_ill_formed_2 :
    ([.ringApplyEffect 64, .applyErrClear 0x410D, .graceMsWrite 16 (2 ^ 32 - 1), .graceMsWrite 15 (2 ^ 32),
      .complTimeoutWrite (2 ^ 32), .registerWrite (0x10000 - 1) 513 1, .registerWrite (0x10000 - 1) 0 1,
      .registerWrite (0x10000) 512 1, .registerWrite (0x10000 - 1) 512 (2 ^ 4096), .lowWordReadLatch (0x10000),
      .recentSnapshotRead 32, .powerstateD3hot 65536, .powerstateD0 65536,
      .trainingSequence 16 (List.replicate 8 []) true 255, .trainingSequence 15 (List.replicate 8 []) true 256,
      .trainingSequence 15 (List.replicate 9 []) true 255, .trainingStateTimeout 16, .codewordLock 16,
      .backoffExpiry 16, .codewordReceived 16 0 0 0, .markerLoss 16 7, .markerLoss 15 8, .exchange 16 (zeros 32),
      .exchange 15 (zeros 31), .exchangeResend 16, .latProbeSend 16, .latProbe 16 (zeros 32) 65535,
      .latProbe 15 (zeros 31) 65535, .latProbe 15 (zeros 32) 65536, .latEcho 16 (zeros 32) 0,
      .latEcho 15 (zeros 31) 0, .creditInit 16 (zeros 32), .creditInit 15 (zeros 31),
      .weltUnitReceived 16 (zeros 256), .weltUnitReceived 15 (zeros 32), .ack 16 (zeros 32), .ack 15 (zeros 31),
      .nak 16 (zeros 32), .nak 15 (zeros 31), .ackDue 16, .resendTimeout 16, .tongueResendTimeout 16,
      .creditReportSend 16, .creditReport 16 (zeros 32), .creditReport 15 (zeros 31), .downNotice 16 (zeros 32),
      .downNotice 15 (zeros 31), .idle 16 (zeros 32), .idle 15 (zeros 31), .graceExpiry 16, .offer 16 (zeros 32),
      .offer 15 (zeros 31), .offerPart 16 (zeros 32), .offerPart 15 (zeros 31), .ready 16 (zeros 32),
      .ready 15 (zeros 31), .start 16 (zeros 32), .start 15 (zeros 31), .abort 16 (zeros 32), .abort 15 (zeros 31)] : List Instr).all (fun i => !i.wf) = true := by
  decide +kernel

/-- One operand of each past the end of its range. -/
theorem test_ill_formed_3 :
    ([.slip 16 (zeros 32), .slip 15 (zeros 31), .slipReady 16 (zeros 32), .slipReady 15 (zeros 31),
      .resume 16 (zeros 32), .resume 15 (zeros 31), .stop 16 (zeros 32), .stop 15 (zeros 31), .pace 16 (zeros 32),
      .pace 15 (zeros 31), .serviceHeaderRoute 18 3, .serviceHeaderRoute 17 4, .write 18 3, .write 17 4, .read 18 3,
      .read 17 4, .tackAdd 18 3, .tackAdd 17 4, .writeDone 18 3, .writeDone 17 4, .readData 18 3, .readData 17 4,
      .tackDone 18 3, .tackDone 17 4, .fetchTimeout 131072, .mainLost 65536, .cellSample 65536 0,
      .powerRemoval 4 true, .railGood 4, .railFault 4 7, .railFault 3 8, .railFault 3 0, .cellInserted 65536,
      .cellCapacitanceCheck 65536, .coolantCondition 6, .coolantCondition 0, .coolantConditionClear 6,
      .coolantConditionClear 0, .coolantUpdate 0 0 65536 3, .coolantUpdate 0 0 65535 4, .leak 4, .leak 0,
      .eventResend (2 ^ 32), .identify 256 (zeros 16), .identify 255 (zeros 15), .setAddress 256 (zeros 16),
      .setAddress 255 (zeros 15), .setCoord 256 (zeros 16), .setCoord 255 (zeros 15), .eyeletCtrl 256 (zeros 16),
      .eyeletCtrl 255 (zeros 15), .setCaps 256 (zeros 16), .setCaps 255 (zeros 15), .apbelHold 256 (zeros 16),
      .apbelHold 255 (zeros 15), .apbelRelease 256 (zeros 16), .apbelRelease 255 (zeros 15), .wake 256 (zeros 16),
      .wake 255 (zeros 15), .sensors 256 (zeros 16)] : List Instr).all (fun i => !i.wf) = true := by
  decide +kernel

/-- One operand of each past the end of its range. -/
theorem test_ill_formed_4 :
    ([.sensors 255 (zeros 15), .chipPowerOn 256 (zeros 16), .chipPowerOn 255 (zeros 15), .chipPowerOff 256 (zeros 16),
      .chipPowerOff 255 (zeros 15), .sledPowerOn 256 (zeros 16), .sledPowerOn 255 (zeros 15),
      .sledPowerOff 256 (zeros 16), .sledPowerOff 255 (zeros 15), .swapPrepare 256 (zeros 16),
      .swapPrepare 255 (zeros 15), .cellPrepare 256 (zeros 16), .cellPrepare 255 (zeros 15),
      .clearLeak 256 (zeros 16), .clearLeak 255 (zeros 15), .fwWrite 256 (zeros 16), .fwWrite 255 (zeros 15),
      .fwActivate 256 (zeros 16), .fwActivate 255 (zeros 15), .apbelLogRead 256 (zeros 16),
      .apbelLogRead 255 (zeros 15), .eventAck 256 (zeros 16), .eventAck 255 (zeros 15), .configure 256 (zeros 16),
      .configure 255 (zeros 15), .calWrite 256 (zeros 16), .calWrite 255 (zeros 15), .streamStart 256 (zeros 16),
      .streamStart 255 (zeros 15), .streamStop 256 (zeros 16), .streamStop 255 (zeros 15),
      .templateData 256 (zeros 16), .templateData 255 (zeros 15), .templateCommit 256 (zeros 16),
      .templateCommit 255 (zeros 15), .templateClear 256 (zeros 16), .templateClear 255 (zeros 15),
      .acousticStatus 256 (zeros 16), .acousticStatus 255 (zeros 15), .acousticFrameBoundary (List.replicate 65 []),
      .acousticFrameBoundary (List.replicate 64 (List.replicate 5 (0, true))), .energyBlock 4 [0], .energyBlock 3 [],
      .featureVector (List.replicate 41 255) true, .featureVector (List.replicate 40 256) true, .micFault 4,
      .micRecovery 4, .energyRearmTimeout 4, .unitOpportunity 16] : List Instr).all (fun i => !i.wf) = true := by
  decide +kernel

/-! ### Worked examples of the spec -/

/-- 2.2's example: physical tile (4, 7) lies in tile region T6, and R31's edges of it. -/
theorem test_tile_region : tileRegion (12 * 4 + 7) = 6 := by decide

/-- 6.2's example: the crossing from T6 to T7 is XLAT[24]. -/
theorem test_crossing_number : hopLatency ((List.range 120).map (· + 100)) 6 7 = 124 := by decide +kernel

/-- 3.4's example: 1,024 bytes land 4 stitches after a hop inside T6, and 9 across a crossing declared at 6. -/
theorem test_mesh_latency :
    meshLatency (List.replicate 80 6) (12 * 4 + 7) (12 * 4 + 8) 1024 = 4 ∧
    meshLatency (List.replicate 80 6) (12 * 4 + 8) (12 * 4 + 9) 1024 = 9 := by decide +kernel

/-- 3.7's example: +2^30, +1 and −2^30 give 0 in FP32 in that order, and 1 as a long sum. -/
theorem test_long_sum_keeps_one :
    fadd32 (fadd32 0x4E800000#32 0x3F800000#32) 0xCE800000#32 = 0#32 ∧
    roundLongSum ((2#128) ^ 94 + (2#128) ^ 64 - (2#128) ^ 94) = 0x3F800000#32 := by decide +kernel

/-- 5.2's example: elements 31 and −11 of a B6 block give byte 2 = 0x5F and 0xD in the low bits of byte 3. -/
theorem test_b6_packing : packMants 6 [31, -11] % 2 ^ 12 = 0xD5F := by decide +kernel

/-- 5.3's example: amax 3.71 takes s = 1, −0.4402 becomes 0xF2 and 3.71 becomes 0x77. -/
theorem test_b8_block :
    (encB8 ([0x406D70A4#32, 0xBEE161E5#32] ++ List.replicate 30 0#32)).toOption.map (fun b => b.take 3) =
      some [0x01#8, 0x77#8, 0xF2#8] := by decide +kernel

/-- 5.3's example: amax 2.875 gives d = 0x2DF0 in B6 and 1,683 × 2^−12 in B4; −1.0 becomes −11 and −2. -/
theorem test_scaled_blocks :
    scale16 (f32Val 0x40380000#32) 31 = 0x2DF0 ∧ scaledMant 0x2DF0 31 0xBF800000#32 = -11 ∧
    decodeIeee fmt16 (scale16 (f32Val 0x40380000#32) 7) = .num false 1683 (-12) ∧
    scaledMant (scale16 (f32Val 0x40380000#32) 7) 7 0xBF800000#32 = -2 := by decide +kernel

/-- 6.7.2's example: value 0x0822 in WIDTH 14 from bit 3 writes 0b00010 into bits 7:3, 0x41 and a 0 in bit 0, alone. -/
theorem test_patch :
    applyPatchBytes ⟨2, 14, 3, 0, 38, 0, true⟩ 0x0822 [0xFF#8, 0xFF#8, 0xFF#8, 0xFF#8] =
      [0x17#8, 0x41#8, 0xFE#8, 0xFF#8] ∧ (Coord.mk 2 1 2).field = 0x0822 := by decide +kernel

/-- 8.5's example: of the draw's first word 0x9C3A71F5 only the upper 24 bits count, u = 10,238,577 × 2^−24. -/
theorem test_draw_fraction : f32Round false (0x9C3A71F5 >>> 8) (-24) = 0x3F1C3A71#32 := by decide +kernel

/-- 8.6.1: the lockstep and the relaxed mode word. -/
theorem test_mode_word : modeWord false = 0x10001 ∧ modeWord true = 0x10101 := by decide

/-- 10.2's example: a link of 71.5 ns has a flight of 104 stitches. -/
theorem test_flight : flightSt (715 * 16 / 10) = 104 := by decide

/-- 11.9's example: a quarter of the window reads 64, and all of it 255. -/
theorem test_congestion_level : level (2 ^ 18) = 64 ∧ level (2 ^ 20) = 255 := by decide +kernel

/-- 12.1's example: address 0x0A3C814D00 is on stack 1, pseudo-channel 9, bank 32. -/
theorem test_hbm_address :
    hbmChannel 0x0A3C814D00 = 32 * 1 + 9 ∧ hbmBank 0x0A3C814D00 = 32 ∧ 0x0A3C814D00 - hbmPage 0x0A3C814D00 = 1280 := by
  decide +kernel

/-- 12.5's example: a key beginning 4C 1D 0E 93 has its home at 400,716 of 2^19 entries. -/
theorem test_prefix_home :
    (keySlots ⟨0, 0, 0, 0, 2 ^ 19, 0, 0, 0, 0⟩
      [0x4C#8, 0x1D#8, 0x0E#8, 0x93#8]).head? = some 400716 := by decide +kernel

/-- 15.10's example: producer (0, 1) is one ahead of (1,023, 0), and (0, 0) is no position. -/
theorem test_ring_occupancy : occupied 1024 0 1 1023 0 = some 1 ∧ occupied 1024 0 0 1023 0 = none := by decide

/-- 14.3's example: Q = diag(1, 0), rows x0 ≤ 1 and −x0 ≤ 1, whose second pivot is tiny. -/
def tinyPivot : QP :=
  { n := 2, m := 2, Q := [[0x3F800000#32, 0#32], [0#32, 0#32]], c := [0#32, 0#32],
    G := [[0x3F800000#32, 0#32], [0xBF800000#32, 0#32]], h := [0x3F800000#32, 0x3F800000#32] }

/-- 14.3's example: in NaN mode the problem ends at once; in regularise mode it is done in two iterations, x = 0. -/
theorem test_tiny_pivot :
    (let t : Tol := ⟨f32Pow2 (-13), f32Pow2 (-13), f32Pow2 (-13)⟩
     let r := qpSolve tinyPivot .regularise t
     decide ((qpSolve tinyPivot .nan t).1 = .pivot1 ∧ r.1 = .done ∧ r.2.k = 2 ∧ r.2.reg = 2 ∧ r.2.x = [0#32, 0#32])) =
      true := by decide +kernel

/-! ### The statements' hypotheses are met -/

/-- States that meet the hypotheses of each part of `Obligations.StepRunsTheFrontCommand`. -/
theorem witness_step_runs_the_front_command :
    (∃ (s : Machine.State) (c : Instr) (rest : List Instr),
        s.pending = c :: rest) :=
  ⟨{ base with pending := [.backoffExpiry 15] }, .backoffExpiry 15, [], by decide +kernel⟩

/-- States that meet the hypotheses of each part of `Obligations.IdleStep`. -/
theorem witness_idle_step :
    (∃ (s : Machine.State) (i : Instr) (rest : List Instr),
        s.pending = [] ∧ s.ready = i :: rest) ∧
    (∃ (s : Machine.State),
        s.pending = [] ∧ s.ready = []) :=
  ⟨⟨{ base with ready := [.backoffExpiry 15] }, .backoffExpiry 15, [], by decide +kernel⟩,
   ⟨base, by decide +kernel⟩⟩

/-- States that meet the hypotheses of each part of `Obligations.CommandsKeepQueueTimePosition`. -/
theorem witness_commands_keep_queue_time_position :
    (∃ (c : Instr) (s : Machine.State) (t : Machine.State),
        exec c s = Outcome.next t) :=
  ⟨.backoffExpiry 15, base, _, rfl⟩

/-- States that meet the hypotheses of each part of `Obligations.StepKeepsInvariant`. -/
theorem witness_step_keeps_invariant :
    (∃ (s : Machine.State) (t : Machine.State),
        Safety.Inv s ∧ step s = Outcome.next t) :=
  ⟨{ State.reset with now := 7 }, _,
      ⟨by unfold Sys2Proof.Safety.Inv MemOk ClkOk HostOk SvcOk HeelOk ShankOk CobOk MonOk; decide +kernel, rfl⟩⟩

/-- States that meet the hypotheses of each part of `Obligations.ResetValues`. -/
theorem witness_reset_values :
    (∃ (k : ℕ),
        k < 16) :=
  ⟨15, by decide +kernel⟩

/-- States that meet the hypotheses of each part of `Obligations.MemoryReadAfterWrite`. -/
theorem witness_memory_read_after_write :
    (∃ (s : Machine.State),
        MemOk s.mem) ∧
    (∃ (s : Machine.State) (tile : ℕ) (a : ℕ) (bs : List Byte) (k : ℕ),
        MemOk s.mem ∧ (k < insoleKey tile a ∨ insoleKey tile a + bs.length ≤ k)) ∧
    (∃ (s : Machine.State) (a : ℕ) (bs : List Byte) (k : ℕ),
        MemOk s.mem ∧ (k < a ∨ a + bs.length ≤ k)) :=
  ⟨⟨base, by unfold MemOk; decide +kernel⟩,
   ⟨base, 143, 0, [1], 0, by unfold MemOk; decide +kernel⟩,
   ⟨base, 0, [1], 1, by unfold MemOk; decide +kernel⟩⟩

/-- States that meet the hypotheses of each part of `Obligations.TackOperations`. -/
theorem witness_tack_operations :
    (∃ (t : ℕ) (x : ℕ),
        x ≠ t) ∧
    (∃ (s : Machine.State) (t : ℕ) (a : Word) (w : ℕ × ℕ),
        w ∈ List.take (min (tackWaiters s t).length (BitVec.toNat (tackGet s t + a))) (tackWaiters s t) ∧ w.1 ≠ 0) ∧
    (∃ (s : Machine.State) (t : ℕ),
        tackGet s t ≠ 0) ∧
    (∃ (s : Machine.State) (t : ℕ),
        tackGet s t = 0) ∧
    (∃ (c : Cpl) (t : ℕ),
        c.final = true ∧ c.answers = true ∧ c.signal = some t) ∧
    (∃ (s : Machine.State) (xlat : List ℕ),
        s.dev.state = DevState.cold ∧ s.clk.locked = true ∧ xlat.length = 80 ∧ (∀ (n : ℕ), n ∈ xlat → n ≤ 6)) ∧
    (∃ (s : Machine.State),
        barAlive s = true) :=
  ⟨⟨0, 131071, by decide +kernel⟩,
   ⟨{ base with mem := { Mem.fresh with tackWaits := [(5, [(1, 3)])] } }, 5, 1, (1, 3), by decide +kernel⟩,
   ⟨{ base with mem := { Mem.fresh with tacks := [(131071, 1)] } }, 131071, by decide +kernel⟩,
   ⟨base, 131071, by decide +kernel⟩,
   ⟨cpl, 5, by decide +kernel⟩,
   ⟨cold, List.replicate 80 6, by decide +kernel⟩,
   ⟨base, by decide +kernel⟩⟩

/-- States that meet the hypotheses of each part of `Obligations.ReservedBitsRefused`. -/
theorem witness_reserved_bits_refused :
    (∃ (s : Machine.State) (i : Instr) (d : Desc),
        descriptor i = some (d, true) ∧ d.bytes.length = 64 ∧ inTurn (s.ring d.ring) d.slot = true ∧
        (∀ (o : Outst), o ∈ (s.ring d.ring).running → o.slot ≠ d.slot) ∧ reservedClear d.op d.bytes = false) :=
  ⟨base, .nop (desc 0 1 [(63, 1, 128)]), desc 0 1 [(63, 1, 128)], by decide +kernel⟩

/-- States that meet the hypotheses of each part of `Obligations.MalformedRefused`. -/
theorem witness_malformed_refused :
    (∃ (s : Machine.State) (i : Instr) (d : Desc) (sub : ℕ),
        descriptor i = some (d, true) ∧ d.bytes.length = 64 ∧ inTurn (s.ring d.ring) d.slot = true ∧
        (∀ (o : Outst), o ∈ (s.ring d.ring).running → o.slot ≠ d.slot) ∧ descCheck s d = some sub) :=
  ⟨base, .setPaceLimit (desc 0 0x31 [(8, 1, 33)]), desc 0 0x31 [(8, 1, 33)], 0x32, by decide +kernel⟩

/-- States that meet the hypotheses of each part of `Obligations.IllegalStateRefused`. -/
theorem witness_illegal_state_refused :
    (∃ (s : Machine.State) (i : Instr) (d : Desc) (sub : ℕ),
        descriptor i = some (d, true) ∧ Goes s d ∧ legality s d.op = some sub) :=
  ⟨base, .jobDrain (desc 0 0x22 []), desc 0 0x22 [], 0x03, by unfold Goes Read; decide +kernel⟩

/-- States that meet the hypotheses of each part of `Obligations.WaitingDescriptorIsHeld`. -/
theorem witness_waiting_descriptor_is_held :
    (∃ (s : Machine.State) (i : Instr) (d : Desc),
        descriptor i = some (d, true) ∧ Read s d ∧ d.flag 1 = true ∧ tackGet s d.tack = 0) :=
  ⟨base, .nop (desc 0 1 [(4, 4, 131071)] 2), desc 0 1 [(4, 4, 131071)] 2, by unfold Read; decide +kernel⟩

/-- States that meet the hypotheses of each part of `Obligations.TackReleasesDescriptor`. -/
theorem witness_tack_releases_descriptor :
    (∃ (s : Machine.State) (tack : ℕ) (ring : ℕ) (slot : ℕ) (a : Word) (i : Instr),
        tackGet s tack = 0 ∧ a ≠ 0 ∧ slot < 65536 ∧ tackWaiters s tack = [(0, 65536 * ring + slot)] ∧
        s.held = [(65536 * ring + slot, i)] ∧ s.ready = [] ∧ s.pending = []) ∧
    (∃ (s : Machine.State) (tack : ℕ) (ring : ℕ) (slot : ℕ) (a : Word) (i : Instr) (o : Outst),
        tackGet s tack = 0 ∧ a ≠ 0 ∧ slot < 65536 ∧ tackWaiters s tack = [(0, 65536 * ring + slot)] ∧
        s.held = [(65536 * ring + slot, i)] ∧ s.ready = [] ∧ s.pending = [] ∧
        o ∈ ((tackAdd s tack a).ring ring).running ∧ o.slot = slot) :=
  ⟨⟨{ base with mem := { Mem.fresh with tackWaits := [(5, [(0, 65535)])] }, held := [(65535, .nop (desc 0 1 []))] }, 5,
      0, 65535, 1, .nop (desc 0 1 []), by decide +kernel⟩,
   ⟨{ ringed 0 (fun x => { x with running := [outstanding (desc 0 1 []) 0] }) with mem := { Mem.fresh with tackWaits := [(5, [(0, 0)])] }, held := [(0, .nop (desc 0 1 []))] },
      5, 0, 0, 1, .nop (desc 0 1 []), outstanding (desc 0 1 []) 1, by decide +kernel⟩⟩

/-- States that meet the hypotheses of each part of `Obligations.NopQueryLogRead`. -/
theorem witness_nop_query_log_read :
    (∃ (s : Machine.State) (d : Desc),
        Starts s d 1) ∧
    (∃ (s : Machine.State) (d : Desc),
        Starts s d 2) ∧
    (∃ (s : Machine.State) (d : Desc),
        Starts s d 112 ∧ logSlice s (d.at 8 1) (d.at 12 4) (d.at 16 4) = none) ∧
    (∃ (s : Machine.State) (d : Desc) (first : ℕ) (es : List (List Byte)),
        Starts s d 112 ∧ logSlice s (d.at 8 1) (d.at 12 4) (d.at 16 4) = some (first, es) ∧
        (if d.flag 4 = true then skiveStream es.flatten else es.flatten).length ≤ d.at 32 4) ∧
    (∃ (s : Machine.State) (d : Desc) (first : ℕ) (es : List (List Byte)),
        Starts s d 112 ∧ logSlice s (d.at 8 1) (d.at 12 4) (d.at 16 4) = some (first, es) ∧
        d.at 32 4 < (if d.flag 4 = true then skiveStream es.flatten else es.flatten).length) :=
  ⟨⟨base, desc 0 1 [], by unfold Starts Goes Read; decide +kernel⟩,
   ⟨base, desc 0 2 [], by unfold Starts Goes Read; decide +kernel⟩,
   ⟨base, desc 0 0x70 [(16, 4, 1)], by unfold Starts Goes Read; decide +kernel⟩,
   ⟨withEvent, desc 0 0x70 [(16, 4, 1), (32, 4, 64)], 0, eventEntries logEvent,
      by unfold Starts Goes Read; decide +kernel⟩,
   ⟨withEvent, desc 0 0x70 [(16, 4, 1), (32, 4, 63)], 0, eventEntries logEvent,
      by unfold Starts Goes Read; decide +kernel⟩⟩

/-- States that meet the hypotheses of each part of `Obligations.BudgetOrders`. -/
theorem witness_budget_orders :
    (∃ (s : Machine.State) (d : Desc),
        Starts s d 48) ∧
    (∃ (s : Machine.State) (d : Desc),
        Starts s d 49) :=
  ⟨⟨base, desc 0 0x30 [(8, 2, 150), (12, 1, 1)], by unfold Starts Goes Read; decide +kernel⟩,
   ⟨base, desc 0 0x31 [(8, 1, 32)], by unfold Starts Goes Read; decide +kernel⟩⟩

/-- States that meet the hypotheses of each part of `Obligations.RetirementsAndRetraining`. -/
theorem witness_retirements_and_retraining :
    (∃ (s : Machine.State) (d : Desc) (h : TileHealth),
        Starts s d 64 ∧ s.mem.tiles[d.at 8 1]? = some h ∧ 2 ≤ h.state) ∧
    (∃ (s : Machine.State) (d : Desc) (h : TileHealth),
        Starts s d 64 ∧ s.mem.tiles[d.at 8 1]? = some h ∧ h.state = 1) ∧
    (∃ (s : Machine.State) (d : Desc) (h : TileHealth),
        Starts s d 64 ∧ s.mem.tiles[d.at 8 1]? = some h ∧ h.state = 0 ∧ s.job ≠ none) ∧
    (∃ (s : Machine.State) (d : Desc) (h : TileHealth),
        Starts s d 64 ∧ s.mem.tiles[d.at 8 1]? = some h ∧ h.state = 0 ∧ s.job = none) ∧
    (∃ (s : Machine.State) (d : Desc),
        Starts s d 65 ∧ d.at 8 1 < s.eyelets.length ∧ (s.eyelet (d.at 8 1)).state = LinkState.held) ∧
    (∃ (s : Machine.State) (d : Desc),
        Starts s d 65 ∧ d.at 8 1 < s.eyelets.length ∧ bitOf (d.at 12 1) 0 = true ∧ lacingUses s (d.at 8 1) = true ∧
        (s.eyelet (d.at 8 1)).state ≠ LinkState.held ∧ (s.eyelet (d.at 13 1)).state ≠ LinkState.held) ∧
    (∃ (s : Machine.State) (d : Desc),
        Starts s d 65 ∧ d.at 8 1 < s.eyelets.length ∧ bitOf (d.at 12 1) 0 = false ∧
        (s.eyelet (d.at 8 1)).bridgePeer = none ∧ (s.eyelet (d.at 8 1)).state ≠ LinkState.held ∧
        (s.eyelet (d.at 8 1)).state ≠ LinkState.up ∧ (s.eyelet (d.at 8 1)).state ≠ LinkState.relay) ∧
    (∃ (s : Machine.State) (d : Desc),
        Starts s d 65 ∧ d.at 8 1 < s.eyelets.length ∧ bitOf (d.at 12 1) 0 = true ∧ d.at 13 1 < s.eyelets.length ∧
        d.at 13 1 ≠ d.at 8 1 ∧ (∀ (x : ℕ),
        x = d.at 8 1 ∨ x = d.at 13 1 →
        (s.eyelet x).bridgePeer = none ∧
        (s.eyelet x).state ≠ LinkState.held ∧
        (s.eyelet x).state ≠ LinkState.up ∧ (s.eyelet x).state ≠ LinkState.relay ∧ lacingUses s x = false)) ∧
    (∃ (s : Machine.State) (d : Desc),
        Starts s d 65 ∧ d.at 8 1 < s.eyelets.length ∧ bitOf (d.at 12 1) 0 = false ∧
        (s.eyelet (d.at 8 1)).bridgePeer = none ∧ (s.eyelet (d.at 8 1)).state = LinkState.up ∧
        lacingUses s (d.at 8 1) = false) ∧
    (∃ (s : Machine.State) (d : Desc),
        Starts s d 66 ∧ hbmEnd ≤ d.at 8 8) ∧
    (∃ (s : Machine.State) (d : Desc),
        Starts s d 66 ∧ d.at 8 8 < hbmEnd ∧ sparesTaken s (d.at 8 8) < 2) ∧
    (∃ (s : Machine.State) (d : Desc),
        Starts s d 66 ∧ d.at 8 8 < hbmEnd ∧ 2 ≤ sparesTaken s (d.at 8 8) ∧ hbmBlock (d.at 8 8) = 9215) ∧
    (∃ (s : Machine.State) (d : Desc),
        Starts s d 66 ∧ d.at 8 8 < hbmEnd ∧ 2 ≤ sparesTaken s (d.at 8 8) ∧ hbmBlock (d.at 8 8) ≠ 9215 ∧
        hbmBlock (d.at 8 8) ∈ excludedBlocks s) ∧
    (∃ (s : Machine.State) (d : Desc),
        Starts s d 66 ∧ d.at 8 8 < hbmEnd ∧ 2 ≤ sparesTaken s (d.at 8 8) ∧ hbmBlock (d.at 8 8) ≠ 9215 ∧
        ¬hbmBlock (d.at 8 8) ∈ excludedBlocks s ∧ 256 ≤ (excludedBlocks s).length) ∧
    (∃ (s : Machine.State) (d : Desc),
        Starts s d 66 ∧ d.at 8 8 < hbmEnd ∧ 2 ≤ sparesTaken s (d.at 8 8) ∧ hbmBlock (d.at 8 8) ≠ 9215 ∧
        ¬hbmBlock (d.at 8 8) ∈ excludedBlocks s ∧ (excludedBlocks s).length < 256) :=
  ⟨⟨withTile 143 2, desc 0 0x40 [(8, 1, 143)], tile 143 2, by unfold Starts Goes Read; decide +kernel⟩,
   ⟨base, desc 0 0x40 [(8, 1, 143)], tile 143 1, by unfold Starts Goes Read; decide +kernel⟩,
   ⟨jobbed 0 (job .opened), desc 0 0x40 [(8, 1, 127)], tile 127 0, by unfold Starts Goes Read; decide +kernel⟩,
   ⟨base, desc 0 0x40 [(8, 1, 127)], tile 127 0, by unfold Starts Goes Read; decide +kernel⟩,
   ⟨base, desc 0 0x41 [(8, 1, 15), (9, 1, 8)], by unfold Starts Goes Read; decide +kernel⟩,
   ⟨eyes (eye .down) (jobbed 0 (job .opened)), desc 0 0x41 [(8, 1, 0), (9, 1, 8), (12, 1, 1), (13, 1, 15)],
      by unfold Starts Goes Read; decide +kernel⟩,
   ⟨eyes (eye .credit) base, desc 0 0x41 [(8, 1, 15), (9, 1, 4)], by unfold Starts Goes Read; decide +kernel⟩,
   ⟨eyes (eye .down) base, desc 0 0x41 [(8, 1, 0), (9, 1, 8), (12, 1, 1), (13, 1, 15)],
      ⟨by unfold Starts Goes Read; decide +kernel, by decide +kernel, by decide +kernel, by decide +kernel, by decide +kernel, pair (by decide +kernel) (by decide +kernel)⟩⟩,
   ⟨linked, desc 0 0x41 [(8, 1, 15), (9, 1, 8)], by unfold Starts Goes Read; decide +kernel⟩,
   ⟨base, desc 0 0x42 [(8, 8, hbmEnd)], by unfold Starts Goes Read; decide +kernel⟩,
   ⟨base, desc 0 0x42 [(8, 8, hbmEnd - 1)], by unfold Starts Goes Read; decide +kernel⟩,
   ⟨mapped [⟨9215 * 2 ^ 24, 1, 0, 0⟩, ⟨9215 * 2 ^ 24, 1, 1, 0⟩], desc 0 0x42 [(8, 8, 9215 * 2 ^ 24)],
      by unfold Starts Goes Read; decide +kernel⟩,
   ⟨mapped [⟨0, 1, 0, 0⟩, ⟨0, 1, 1, 0⟩, ⟨0, 2, 0, 0⟩], desc 0 0x42 [], by unfold Starts Goes Read; decide +kernel⟩,
   ⟨mapped (⟨0, 1, 0, 0⟩ :: ⟨0, 1, 1, 0⟩ :: (List.range 256).map (fun i => ⟨(i + 1) * 2 ^ 24, 2, 0, 0⟩)),
      desc 0 0x42 [], by unfold Starts Goes Read; decide +kernel⟩,
   ⟨mapped (⟨0, 1, 0, 0⟩ :: ⟨0, 1, 1, 0⟩ :: (List.range 255).map (fun i => ⟨(i + 1) * 2 ^ 24, 2, 0, 0⟩)),
      desc 0 0x42 [], by unfold Starts Goes Read; decide +kernel⟩⟩

/-- States that meet the hypotheses of each part of `Obligations.TableLoads`. -/
theorem witness_table_loads :
    (∃ (s : Machine.State) (d : Desc) (image : List Byte) (b : List Byte),
        Starts s d 96 ∧ d.at 8 1 = 1 ∧ s.svc.activeBank ≠ d.at 9 1 ∧ (bitOf (d.at 10 1) 0 = true → jobLive s = false) ∧
        bankQuiet s (d.at 9 1) = true ∧ hostData d image = some b ∧ routingHeaderOk s (d.at 9 1) b = true ∧
        (List.range (leAt b 6 1 * leAt b 7 1 * leAt b 8 1)).all (routingEntryOk s b) = true) ∧
    (∃ (s : Machine.State) (d : Desc) (image : List Byte) (b : List Byte) (j : Job) (l : LoadedLast) (ps : List Peer),
        Starts s d 96 ∧ d.at 8 1 = 2 ∧ s.job = some j ∧ jobLast s = some l ∧ j.tag = d.at 12 2 ∧ isLeader s = true ∧
        hostData d image = some b ∧ leAt b 0 4 = 1380271440 ∧ leAt b 4 1 ≤ 4 ∧ zeroRange b 5 11 = true ∧
        parsePeers l.log2L b (leAt b 4 1) 16 = some ps) ∧
    (∃ (s : Machine.State) (d : Desc) (image : List Byte) (b : List Byte) (p : Template),
        Starts s d 96 ∧ d.at 8 1 = 3 ∧ hostData d image = some b ∧ parseTemplate b = some p ∧ s.shank.batch = none) ∧
    (∃ (s : Machine.State) (d : Desc) (image : List Byte) (b : List Byte) (p : Template),
        Starts s d 96 ∧ d.at 8 1 = 3 ∧ hostData d image = some b ∧ parseTemplate b = some p ∧ s.shank.batch ≠ none) ∧
    (∃ (s : Machine.State) (d : Desc),
        Starts s d 96 ∧ d.at 8 1 = 4 ∧ d.at 24 4 = 0) ∧
    (∃ (s : Machine.State) (d : Desc) (image : List Byte) (b : List Byte),
        Starts s d 96 ∧ d.at 8 1 = 4 ∧ d.at 24 4 ≠ 0 ∧ hostData d image = some b ∧ b.length = 104 ∧ leAt b 0 8 ≠ 0 ∧
        onP384 (beNat (slice b 8 48)) (beNat (slice b 56 48)) = true ∧
        (∀ (i : ℕ), i < 4 → i ≠ d.at 9 1 → Option.map (fun (x : LastKey) => x.id) (s.keys.getD i none) ≠ some (leAt b 0 8))) ∧
    (∃ (s : Machine.State) (slot : ℕ) (p : Template) (d : Desc) (rest : List (ℕ × Template × ℕ × ℕ)),
        s.shank.batch = none ∧ s.shank.loading = (slot, p, d.ring, d.slot) :: rest ∧
        outstOf s d.ring d.slot = some (outstanding d 2) ∧ d.op = 96) :=
  ⟨⟨base, desc 0 0x60 [(8, 1, 1), (9, 1, 1), (10, 1, 1), (12, 2, 0xFFFF)], routingImage, routingImage,
      by unfold Starts Goes Read; decide +kernel⟩,
   ⟨jobbed 0 (job .running), desc 0 0x60 [(8, 1, 2), (12, 2, 7)], leBytes 4 0x52454550 ++ zeros 12,
      leBytes 4 0x52454550 ++ zeros 12, job .running, last 0, [], by unfold Starts Goes Read; decide +kernel⟩,
   ⟨base, desc 0 0x60 [(8, 1, 3), (9, 1, 15), (12, 2, 0xFFFF)], templateImage, templateImage, template,
      by unfold Starts Goes Read; decide +kernel⟩,
   ⟨{ base with shank := { base.shank with batch := some batch } },
      desc 0 0x60 [(8, 1, 3), (9, 1, 15), (12, 2, 0xFFFF)], templateImage, templateImage, template,
      by unfold Starts Goes Read; decide +kernel⟩,
   ⟨base, desc 0 0x60 [(8, 1, 4), (9, 1, 3), (12, 2, 0xFFFF)], by unfold Starts Goes Read; decide +kernel⟩,
   ⟨base, desc 0 0x60 [(8, 1, 4), (9, 1, 3), (12, 2, 0xFFFF), (24, 4, 104)],
      leBytes 8 1 ++ (leBytes 48 p384Gx).reverse ++ (leBytes 48 p384Gy).reverse,
      leBytes 8 1 ++ (leBytes 48 p384Gx).reverse ++ (leBytes 48 p384Gy).reverse,
      by unfold Starts Goes Read; decide +kernel⟩,
   ⟨{ ringed 0 (fun x => { x with running := [outstanding (desc 0 0x60 []) 2] }) with shank := { base.shank with loading := [(15, template, 0, 0)] } },
      15, template, desc 0 0x60 [], [], by decide +kernel⟩⟩

/-- States that meet the hypotheses of each part of `Obligations.SharedOperations`. -/
theorem witness_shared_operations :
    (∃ (s : Machine.State) (d : Desc) (p : ℕ) (fl : ℕ),
        outstOf s d.ring d.slot = some (outstanding d p) ∧ d.op ≠ 128 ∧ fl % 2 = 0 ∧ fl < 250) ∧
    (∃ (s : Machine.State) (d : Desc) (p : ℕ),
        outstOf s d.ring d.slot = some (outstanding d p)) ∧
    (∃ (s : Machine.State) (k : ℕ),
        k < s.eyelets.length) ∧
    (∃ (s : Machine.State),
        cobAnswers s = false) ∧
    (∃ (s : Machine.State) (type : ℕ) (msg : List Byte),
        cobAnswers s = true ∧ apbelHeaderOk type msg = false) ∧
    (∃ (s : Machine.State) (type : ℕ) (msg : List Byte) (k : KeptReply),
        cobAnswers s = true ∧ apbelHeaderOk type msg = true ∧ keptReply s (leAt msg 8 4) = some k) ∧
    (∃ (s : Machine.State) (type : ℕ) (msg : List Byte) (f : Machine.State → List Byte → ℕ → Handled) (t : Machine.State) (status : ℕ) (body : List Byte),
        Asked s type msg ∧ f s (List.drop 16 msg) (leAt msg 8 4) = (t, some (status, body))) :=
  ⟨⟨ringed 0 (fun x => { x with running := [outstanding (desc 0 1 []) 2] }), desc 0 1 [], 2, 248, by decide +kernel⟩,
   ⟨ringed 0 (fun x => { x with running := [outstanding (desc 0 1 []) 0] }), desc 0 1 [], 0, by decide +kernel⟩,
   ⟨base, 15, by decide +kernel⟩,
   ⟨cobbed (fun c => { c with booted := false }), by decide +kernel⟩,
   ⟨base, 1, [], by decide +kernel⟩,
   ⟨cobbed (fun c => { c with replies := [⟨9, 0, []⟩] }), 1, apbel 1 [], ⟨9, 0, []⟩, by decide +kernel⟩,
   ⟨base, 1, apbel 1 [], fun s _ _ => (s, some (0, [])), base, 0, [], ⟨by unfold Asked; decide +kernel, rfl⟩⟩⟩

/-- States that meet the hypotheses of each part of `Obligations.LinkTraining`. -/
theorem witness_link_training :
    (∃ (s : Machine.State) (k : ℕ) (lanes : List (List Byte)) (ts : List Byte) (rest : List (List Byte)),
        List.filter tsOk lanes = ts :: rest ∧ (s.eyelet k).state = LinkState.held) ∧
    (∃ (s : Machine.State) (k : ℕ) (lanes : List (List Byte)) (ts : List Byte) (rest : List (List Byte)),
        List.filter tsOk lanes = ts :: rest ∧ (s.eyelet k).state = LinkState.detect ∧ 3 ≤ rest.length ∧
        (leAt ts 4 1 = 1 → (s.eyelet k).partnerLocked = false)) ∧
    (∃ (s : Machine.State) (k : ℕ) (lanes : List (List Byte)) (ok : ℕ) (ts : List Byte) (rest : List (List Byte)),
        List.filter tsOk lanes = ts :: rest ∧ (s.eyelet k).state = LinkState.equalise ∧ leAt ts 4 1 = 3 ∧
        chooseLanes (ok &&& leAt ts 6 1 &&& 255 - (s.eyelet k).laneRetire) (s.eyelet k).widthCap = []) ∧
    (∃ (s : Machine.State) (k : ℕ) (lanes : List (List Byte)) (ok : ℕ) (ts : List Byte) (rest : List (List Byte)),
        List.filter tsOk lanes = ts :: rest ∧ (s.eyelet k).state = LinkState.equalise ∧ leAt ts 4 1 = 3 ∧
        chooseLanes (ok &&& leAt ts 6 1 &&& 255 - (s.eyelet k).laneRetire) (s.eyelet k).widthCap ≠ []) ∧
    (∃ (s : Machine.State) (k : ℕ),
        (s.eyelet k).state = LinkState.detect ∧ (s.eyelet k).trainFailAt = none) ∧
    (∃ (s : Machine.State) (k : ℕ),
        ((s.eyelet k).state = LinkState.equalise ∨
        (s.eyelet k).state = LinkState.lock ∨
        (s.eyelet k).state = LinkState.exchange ∨ (s.eyelet k).state = LinkState.credit)) ∧
    (∃ (s : Machine.State) (k : ℕ),
        k < s.eyelets.length ∧ (s.eyelet k).state = LinkState.lock ∧ (s.eyelet k).bridgePeer = none) ∧
    (∃ (s : Machine.State) (k : ℕ) (p : ℕ),
        k < s.eyelets.length ∧ p ≠ k ∧ (s.eyelet k).state = LinkState.lock ∧ (s.eyelet k).bridgePeer = some p ∧
        (s.eyelet p).state = LinkState.lock ∧ (s.eyelet p).hopLocked = true ∧
        (s.eyelet p).lanes.length = (s.eyelet k).lanes.length ∧ (s.eyelet p).slow = (s.eyelet k).slow) ∧
    (∃ (s : Machine.State) (k : ℕ),
        (s.eyelet k).state = LinkState.down) ∧
    (∃ (s : Machine.State) (k : ℕ) (lane : ℕ),
        (s.eyelet k).lanes.contains lane = true ∧ (s.eyelet k).state = LinkState.up) ∧
    (∃ (s : Machine.State) (k : ℕ),
        (s.eyelet k).state = LinkState.exchange ∧ (s.eyelet k).identityOk = false) ∧
    (∃ (s : Machine.State) (k : ℕ),
        (s.eyelet k).state = LinkState.exchange ∧ (s.eyelet k).probesSent < 64) :=
  ⟨⟨base, 15, [ts 1 255], ts 1 255, [], by decide +kernel⟩,
   ⟨eyes (eye .detect) base, 15, List.replicate 4 (ts 1 255), ts 1 255, List.replicate 3 (ts 1 255), by decide +kernel⟩,
   ⟨eyes (eye .equalise) base, 15, [ts 3 255], 7, ts 3 255, [], by decide +kernel⟩,
   ⟨eyes (eye .equalise) base, 15, [ts 3 255], 15, ts 3 255, [], by decide +kernel⟩,
   ⟨eyes (eye .detect) base, 15, by decide +kernel⟩,
   ⟨eyes (eye .credit) base, 15, by decide +kernel⟩,
   ⟨eyes (eye .lock) base, 15, by decide +kernel⟩,
   ⟨eyes { eye .lock with bridgePeer := some 1, hopLocked := true } base, 0, 1, by decide +kernel⟩,
   ⟨eyes (eye .down) base, 15, by decide +kernel⟩,
   ⟨eyes { eye .up with lanes := List.range 8 } base, 15, 7, by decide +kernel⟩,
   ⟨eyes (eye .exchange) base, 15, by decide +kernel⟩,
   ⟨eyes { eye .exchange with probesSent := 63 } base, 15, by decide +kernel⟩⟩

/-- States that meet the hypotheses of each part of `Obligations.LinkExchange`. -/
theorem witness_link_exchange :
    (∃ (s : Machine.State) (k : ℕ) (item : List Byte),
        k < s.eyelets.length ∧ (s.eyelet k).state = LinkState.exchange ∧ miniOk item = true ∧ leAt item 0 1 = 6 ∧
        leAt item 1 1 = 1 ∧ bitOf (leAt item 4 1) 4 = true ∧ inPod s (leAt item 2 2) = true) ∧
    (∃ (s : Machine.State) (k : ℕ) (item : List Byte),
        k < s.eyelets.length ∧ ((s.eyelet k).state = LinkState.exchange ∨ (s.eyelet k).state = LinkState.credit) ∧
        miniOk item = true ∧ leAt item 0 1 = 4) ∧
    (∃ (s : Machine.State) (k : ℕ) (item : List Byte),
        k < s.eyelets.length ∧ (s.eyelet k).state = LinkState.exchange ∧ miniOk item = true ∧ leAt item 0 1 = 5 ∧
        leAt item 1 1 < (s.eyelet k).probesSent ∧ ¬leAt item 1 1 ∈ (s.eyelet k).probesAnswered) ∧
    (∃ (s : Machine.State) (k : ℕ) (item : List Byte) (a : Advert),
        k < s.eyelets.length ∧ (s.eyelet k).state = LinkState.credit ∧ miniOk item = true ∧ leAt item 0 1 = 7 ∧
        parseAdvert item = some a ∧ (s.eyelet k).graceUntil = none) :=
  ⟨⟨eyes (eye .exchange) base, 15, miniUnit [6, 1, 0, 0, 16], by decide +kernel⟩,
   ⟨eyes (eye .credit) base, 15, miniUnit [4, 255], by decide +kernel⟩,
   ⟨eyes { eye .exchange with probesSent := 64 } base, 15, miniUnit [5, 63], by decide +kernel⟩,
   ⟨eyes (eye .credit) base, 15, creditInitItem, ⟨[16, 16, 16, 16], 448, 16⟩, by decide +kernel⟩⟩

/-- States that meet the hypotheses of each part of `Obligations.LinkReceive`. -/
theorem witness_link_receive :
    (∃ (s : Machine.State) (k : ℕ) (n : ℕ),
        k < s.eyelets.length ∧ (s.eyelet k).state = LinkState.up ∧ n ≤ 15) ∧
    (∃ (s : Machine.State) (k : ℕ) (n : ℕ),
        k < s.eyelets.length ∧ (s.eyelet k).state = LinkState.up ∧ 15 < n ∧ (s.eyelet k).badRun < 7) ∧
    (∃ (s : Machine.State) (k : ℕ) (n : ℕ),
        k < s.eyelets.length ∧ (s.eyelet k).state = LinkState.up ∧ 15 < n ∧ 7 ≤ (s.eyelet k).badRun) ∧
    (∃ (s : Machine.State) (k : ℕ) (p : ℕ) (n : ℕ),
        (s.eyelet k).state = LinkState.relay ∧ (s.eyelet k).bridgePeer = some p ∧ n ≤ 15 ∧ k < s.eyelets.length) ∧
    (∃ (s : Machine.State) (k : ℕ) (item : List Byte),
        k < s.eyelets.length ∧ item.length = 256 ∧ (s.eyelet k).state = LinkState.up ∧ unitCrcOk item = false) ∧
    (∃ (s : Machine.State) (k : ℕ) (item : List Byte),
        k < s.eyelets.length ∧ item.length = 256 ∧ (s.eyelet k).state = LinkState.up ∧ unitCrcOk item = true ∧
        bitOf (leAt item 248 2) 12 = false ∧ 3072 ≤ (unitSeq item + 4096 - (s.eyelet k).expect % 4096) % 4096) ∧
    (∃ (s : Machine.State) (k : ℕ) (item : List Byte),
        k < s.eyelets.length ∧ item.length = 256 ∧ (s.eyelet k).state = LinkState.up ∧ unitCrcOk item = true ∧
        bitOf (leAt item 248 2) 12 = false ∧ 1024 ≤ (unitSeq item + 4096 - (s.eyelet k).expect % 4096) % 4096 ∧
        (unitSeq item + 4096 - (s.eyelet k).expect % 4096) % 4096 < 3072) ∧
    (∃ (s : Machine.State) (k : ℕ) (item : List Byte),
        k < s.eyelets.length ∧ item.length = 256 ∧ (s.eyelet k).state = LinkState.up ∧ unitCrcOk item = true ∧
        bitOf (leAt item 248 2) 12 = false ∧ 0 < (unitSeq item + 4096 - (s.eyelet k).expect % 4096) % 4096 ∧
        (unitSeq item + 4096 - (s.eyelet k).expect % 4096) % 4096 < 64 ∧
        assoc (unitSeq item) (s.eyelet k).reorder = none ∧ overruns (s.eyelet k) item = false ∧ unitBad item = false) ∧
    (∃ (s : Machine.State) (k : ℕ) (item : List Byte) (t : Machine.State),
        k < s.eyelets.length ∧ item.length = 256 ∧ (s.eyelet k).state = LinkState.up ∧ unitCrcOk item = true ∧
        bitOf (leAt item 248 2) 12 = false ∧ (unitSeq item + 4096 - (s.eyelet k).expect % 4096) % 4096 = 0 ∧
        assoc (unitSeq item) (s.eyelet k).reorder = none ∧ overruns (s.eyelet k) item = false ∧ unitBad item = false ∧
        deliverUnit (takeItem s k item) k item = (t, true)) ∧
    (∃ (s : Machine.State) (k : ℕ) (item : List Byte),
        k < s.eyelets.length ∧ (s.eyelet k).state = LinkState.up ∧ miniOk item = true ∧ leAt item 0 1 = 1 ∧
        bitOf (leAt item 5 1) 0 = false ∧ bitOf (leAt item 2 2) 12 = false) ∧
    (∃ (s : Machine.State) (k : ℕ) (item : List Byte) (n : ℕ),
        k < s.eyelets.length ∧ (s.eyelet k).state = LinkState.up ∧ miniOk item = true ∧ leAt item 0 1 = 1 ∧
        bitOf (leAt item 5 1) 0 = false ∧ bitOf (leAt item 2 2) 12 = true ∧
        behind (s.eyelet k).sendSeq 4096 (leAt item 2 2 % 4096) = some n) ∧
    (∃ (s : Machine.State) (k : ℕ) (kind : ℕ) (n : ℕ),
        0 < n ∧ (s.eyelet k).credits.getD kind 0 + n ≤ (s.eyelet k).advert.kinds.getD kind 0) ∧
    (∃ (s : Machine.State) (k : ℕ) (item : List Byte) (r : ReplayUnit),
        k < s.eyelets.length ∧ (s.eyelet k).state = LinkState.up ∧ miniOk item = true ∧ leAt item 0 1 = 2 ∧
        bitOf (leAt item 2 2) 13 = false ∧ bitOf (leAt item 2 2) 12 = false ∧
        List.find? (fun (r : ReplayUnit) => decide (r.seq = leAt item 2 2 % 4096)) (s.eyelet k).replay = some r ∧
        ¬leAt item 2 2 % 4096 ∈ (s.eyelet k).resendQ ∧ (r.sends < 2 ∨ r.sentAt + roundTrip (s.eyelet k) 64 ≤ s.now) ∧
        r.sends < 8) ∧
    (∃ (s : Machine.State) (k : ℕ) (item : List Byte) (r : ReplayUnit),
        k < s.eyelets.length ∧ (s.eyelet k).state = LinkState.up ∧ miniOk item = true ∧ leAt item 0 1 = 2 ∧
        bitOf (leAt item 2 2) 13 = false ∧ bitOf (leAt item 2 2) 12 = false ∧
        List.find? (fun (r : ReplayUnit) => decide (r.seq = leAt item 2 2 % 4096)) (s.eyelet k).replay = some r ∧
        ¬leAt item 2 2 % 4096 ∈ (s.eyelet k).resendQ ∧ (r.sends < 2 ∨ r.sentAt + roundTrip (s.eyelet k) 64 ≤ s.now) ∧
        8 ≤ r.sends) ∧
    (∃ (s : Machine.State) (k : ℕ) (item : List Byte),
        k < s.eyelets.length ∧ (s.eyelet k).state = LinkState.up ∧ miniOk item = true ∧ leAt item 0 1 = 3 ∧ (∀ (i : ℕ),
        i < 6 →
        leAt item (2 + 2 * i) 2 =
        ((Option.map (fun (x : ℕ × List ℕ) => x.2)
        (List.filter (fun (x : ℕ × List ℕ) => decide (x.1 + roundTrip (s.eyelet k) 64 < s.now))
        (s.eyelet k).returned).getLast?).getD
        []).getD
        i 0 %
        65536) ∧ (∀ (i : ℕ), i < 4 → (s.eyelet k).leaks.getD i 0 < 16)) ∧
    (∃ (s : Machine.State) (k : ℕ) (item : List Byte),
        k < s.eyelets.length ∧ miniOk item = true ∧ leAt item 0 1 = 8 ∧ (s.eyelet k).state ≠ LinkState.held ∧
        (s.eyelet k).state = LinkState.up) ∧
    (∃ (s : Machine.State) (k : ℕ) (item : List Byte),
        k < s.eyelets.length ∧ miniOk item = true ∧ leAt item 0 1 = 8 ∧ (s.eyelet k).state ≠ LinkState.held ∧
        (s.eyelet k).state ≠ LinkState.up) ∧
    (∃ (s : Machine.State) (k : ℕ) (item : List Byte),
        k < s.eyelets.length ∧ (s.eyelet k).state = LinkState.up ∧ miniOk item = true) ∧
    (∃ (s : Machine.State) (k : ℕ),
        (s.eyelet k).graceUntil ≠ none ∧ (s.eyelet k).state ≠ LinkState.up) :=
  ⟨⟨linked, 15, 15, by decide +kernel⟩,
   ⟨eyes { eye .up with badRun := 6 } base, 15, 16, by decide +kernel⟩,
   ⟨eyes { eye .up with badRun := 7 } base, 15, 16, by decide +kernel⟩,
   ⟨eyes { eye .relay with bridgePeer := some 1 } base, 0, 1, 15, by decide +kernel⟩,
   ⟨linked, 15, zeros 256, by decide +kernel⟩,
   ⟨linked, 15, unit 3072, by decide +kernel⟩,
   ⟨linked, 15, unit 3071, by decide +kernel⟩,
   ⟨linked, 15, unit 63, by decide +kernel⟩,
   ⟨linked, 15, unit 0, _,
      ⟨by decide +kernel, by decide +kernel, by decide +kernel, by decide +kernel, by decide +kernel, by decide +kernel, by decide +kernel, by decide +kernel, by decide +kernel, answered (by decide +kernel)⟩⟩,
   ⟨linked, 15, miniUnit [1], by decide +kernel⟩,
   ⟨eyes { eye .up with sendSeq := 1 } base, 15, miniUnit [1, 0, 0, 16], 0, by decide +kernel⟩,
   ⟨eyes { eye .up with advert := ⟨[1, 1, 1, 1], 0, 0⟩ } base, 15, 3, 1, by decide +kernel⟩,
   ⟨eyes { eye .up with replay := [⟨5, [], 1, 0, none⟩] } base, 15, miniUnit [2, 0, 5], ⟨5, [], 1, 0, none⟩,
      by decide +kernel⟩,
   ⟨{ eyes { eye .up with replay := [⟨5, [], 8, 0, none⟩] } base with now := 1024 }, 15, miniUnit [2, 0, 5],
      ⟨5, [], 8, 0, none⟩, by decide +kernel⟩,
   ⟨eyes { eye .up with leaks := [15, 15, 15, 15, 0, 0] } base, 15, miniUnit [3], by decide +kernel⟩,
   ⟨linked, 15, miniUnit [8], by decide +kernel⟩,
   ⟨eyes (eye .detect) base, 15, miniUnit [8], by decide +kernel⟩,
   ⟨linked, 15, miniUnit [0], by decide +kernel⟩,
   ⟨eyes { eye .down with graceUntil := some 0 } base, 15, by decide +kernel⟩⟩

/-- States that meet the hypotheses of each part of `Obligations.LinkSend`. -/
theorem witness_link_send :
    (∃ (s : Machine.State) (k : ℕ),
        ((s.eyelet k).state = LinkState.lock ∨ (s.eyelet k).state = LinkState.exchange ∨ (s.eyelet k).state = LinkState.credit)) ∧
    (∃ (s : Machine.State) (k : ℕ),
        (s.eyelet k).state = LinkState.up ∧ (s.eyelet k).replay.length < 1024) ∧
    (∃ (s : Machine.State) (k : ℕ) (m : List Byte) (rest : List (List Byte)),
        (s.eyelet k).state = LinkState.up ∧ (s.eyelet k).replay.length < 1024 ∧ (s.eyelet k).tResendQ = [] ∧
        (s.eyelet k).txTongue = m :: rest ∧ 0 < (s.eyelet k).credits.getD 5 0) ∧
    (∃ (s : Machine.State) (k : ℕ),
        (s.eyelet k).state = LinkState.up ∧ (s.eyelet k).replay = [] ∧ (s.eyelet k).resendQ = [] ∧
        (s.eyelet k).tResendQ = [] ∧ (s.eyelet k).txTongue = [] ∧ (s.eyelet k).txSched = [] ∧ (s.eyelet k).txCtl = [] ∧
        (s.eyelet k).ackDue = true) ∧
    (∃ (s : Machine.State) (k : ℕ),
        (s.eyelet k).state = LinkState.up ∧ (s.eyelet k).replay = [] ∧ (s.eyelet k).resendQ = [] ∧
        (s.eyelet k).tResendQ = [] ∧ (s.eyelet k).txTongue = [] ∧ (s.eyelet k).txSched = [] ∧ (s.eyelet k).txCtl = [] ∧
        (s.eyelet k).ackDue = false ∧ (s.eyelet k).txResume = [] ∧ (∀ (vc : ℕ), (s.eyelet k).txSvc.getD vc [] = [])) ∧
    (∃ (s : Machine.State) (k : ℕ),
        (s.eyelet k).state = LinkState.up ∧ ackWorth (s.eyelet k) = true) ∧
    (∃ (s : Machine.State) (k : ℕ) (r : ReplayUnit) (rest : List ReplayUnit),
        (s.eyelet k).state = LinkState.up ∧ (s.eyelet k).replay = r :: rest ∧ ¬r.seq ∈ (s.eyelet k).resendQ) ∧
    (∃ (s : Machine.State) (k : ℕ),
        (s.eyelet k).state = LinkState.up ∧ (s.eyelet k).tUnacked ≠ []) ∧
    (∃ (s : Machine.State) (k : ℕ),
        (s.eyelet k).state = LinkState.up) :=
  ⟨⟨eyes (eye .lock) base, 15, by decide +kernel⟩,
   ⟨eyes { eye .up with replay := List.replicate 1023 ⟨0, [], 1, 0, none⟩ } base, 15, by decide +kernel⟩,
   ⟨eyes { eye .up with txTongue := [miniUnit [24]], credits := [0, 0, 0, 0, 0, 1] } base, 15, miniUnit [24], [],
      by decide +kernel⟩,
   ⟨eyes { eye .up with ackDue := true } base, 15, by decide +kernel⟩,
   ⟨linked, 15,
      ⟨by decide +kernel, by decide +kernel, by decide +kernel, by decide +kernel, by decide +kernel, by decide +kernel, by decide +kernel, by decide +kernel, by decide +kernel, fun vc => match vc with | 0 | 1 | 2 | 3 => rfl | _ + 4 => rfl⟩⟩,
   ⟨eyes { eye .up with unechoed := 1 } base, 15, by decide +kernel⟩,
   ⟨eyes { eye .up with replay := [⟨5, [], 1, 0, none⟩] } base, 15, ⟨5, [], 1, 0, none⟩, [], by decide +kernel⟩,
   ⟨eyes { eye .up with tUnacked := [⟨0, [], 1, 0⟩] } base, 15, by decide +kernel⟩,
   ⟨linked, 15, by decide +kernel⟩⟩

/-- States that meet the hypotheses of each part of `Obligations.TongueReception`. -/
theorem witness_tongue_reception :
    (∃ (s : Machine.State) (k : ℕ) (item : List Byte) (type : ℕ) (c : Instr),
        (type, c) ∈
        [(18, Instr.ready k item), (19, Instr.start k item), (20, Instr.abort k item), (21, Instr.slip k item),
        (22, Instr.slipReady k item), (23, Instr.resume k item), (24, Instr.stop k item), (25, Instr.pace k item)] ∧
        Hears s k item type ∧ floodDup s (Tongue.parse item) = true) ∧
    (∃ (s : Machine.State) (k : ℕ) (item : List Byte) (type : ℕ) (c : Instr),
        (type, c) ∈
        [(18, Instr.ready k item), (19, Instr.start k item), (20, Instr.abort k item), (21, Instr.slip k item),
        (22, Instr.slipReady k item), (23, Instr.resume k item), (24, Instr.stop k item), (25, Instr.pace k item)] ∧
        Hears s k item type ∧ floodDup s (Tongue.parse item) = false ∧ actsOn s (Tongue.parse item) = false) ∧
    (∃ (s : Machine.State) (k : ℕ) (item : List Byte) (type : ℕ) (c : Instr),
        (type, c) ∈
        [(18, Instr.ready k item), (19, Instr.start k item), (20, Instr.abort k item), (21, Instr.slip k item),
        (22, Instr.slipReady k item), (23, Instr.resume k item), (24, Instr.stop k item), (25, Instr.pace k item)] ∧
        k < s.eyelets.length ∧ (s.eyelet k).state = LinkState.up ∧ miniOk item = true ∧ (Tongue.parse item).type = type ∧
        (s.eyelet k).occupied.getD 5 0 < 16 ∧ 0 < ((s.eyelet k).tExpect % 256 + 256 - leAt item 1 1) % 256 ∧
        ((s.eyelet k).tExpect % 256 + 256 - leAt item 1 1) % 256 ≤ 16) :=
  ⟨⟨{ linked with svc := { base.svc with floodSeen := [((Tongue.parse (tong 0x15 0 0 0 4096)).key, 0)] } }, 15,
      tong 0x15 0 0 0 4096, 0x15, .slip 15 (tong 0x15 0 0 0 4096), by unfold Hears; decide +kernel⟩,
   ⟨linked, 15, tong 0x18 0 0 0x7F 0, 0x18, .stop 15 (tong 0x18 0 0 0x7F 0), by unfold Hears; decide +kernel⟩,
   ⟨linked, 15, tong 0x12 0 0 7 0 240, 0x12, .ready 15 (tong 0x12 0 0 7 0 240), by decide +kernel⟩⟩

/-- States that meet the hypotheses of each part of `Obligations.OfferGroup`. -/
theorem witness_offer_group :
    (∃ (s : Machine.State) (k : ℕ) (item : List Byte),
        Hears s k item 16) ∧
    (∃ (s : Machine.State) (k : ℕ) (item : List Byte) (a : OfferAsm),
        k < s.eyelets.length ∧ (s.eyelet k).state = LinkState.up ∧ miniOk item = true ∧ leAt item 0 1 = 17 ∧
        leAt item 1 1 = (s.eyelet k).tExpect % 256 ∧ (s.eyelet k).occupied.getD 5 0 < 16 ∧
        (s.eyelet k).offerAsm = some a ∧ leAt item 2 1 = a.parts.length ∧ a.parts.length < 2) ∧
    (∃ (s : Machine.State) (k : ℕ) (item : List Byte) (a : OfferAsm) (j : Job),
        k < s.eyelets.length ∧ (s.eyelet k).state = LinkState.up ∧ miniOk item = true ∧ leAt item 0 1 = 17 ∧
        leAt item 1 1 = (s.eyelet k).tExpect % 256 ∧ (s.eyelet k).occupied.getD 5 0 < 16 ∧
        (s.eyelet k).offerAsm = some a ∧ leAt item 2 1 = a.parts.length ∧ 2 ≤ a.parts.length ∧ s.job = some j ∧
        floodDup s (Tongue.parse a.item) = false ∧ actsOn s (Tongue.parse a.item) = true) :=
  ⟨⟨linked, 15, tong 0x10 0 0 3 1, by unfold Hears; decide +kernel⟩,
   ⟨eyes { eye .up with offerAsm := some ⟨tong 0x10 0 0 3 1, [[]]⟩ } base, 15, miniUnit [0x11, 0, 1],
      ⟨tong 0x10 0 0 3 1, [[]]⟩, by decide +kernel⟩,
   ⟨eyes { eye .up with offerAsm := some ⟨tong 0x10 0 0 3 1, [[], []]⟩ } (jobbed 1 (job .starting)), 15,
      miniUnit [0x11, 0, 2], ⟨tong 0x10 0 0 3 1, [[], []]⟩, job .starting, by decide +kernel⟩⟩

/-- States that meet the hypotheses of each part of `Obligations.StartBarrier`. -/
theorem witness_start_barrier :
    (∃ (s : Machine.State) (k : ℕ) (item : List Byte) (j : Job),
        Acts s k item 18 j ∧ isLeader s = true ∧ (Tongue.parse item).jsf = j.barrier.attempt ∧
        j.state = JobState.starting ∧ j.barrier.releaseAt = none ∧ (Tongue.parse item).lchip < jobChips s ∧
        (Tongue.parse item).arg8 = 7 ∧ (∀ (r : ReadyMsg), r ∈ j.barrier.readies → r.lchip ≠ (Tongue.parse item).lchip ∧
        r.flags = 7) ∧ j.barrier.readies.length + 1 < jobChips s) ∧
    (∃ (s : Machine.State) (k : ℕ) (item : List Byte) (j : Job),
        Acts s k item 18 j ∧ isLeader s = true ∧ (Tongue.parse item).jsf = j.barrier.attempt ∧
        j.state = JobState.starting ∧ j.barrier.releaseAt = none ∧ (Tongue.parse item).lchip < jobChips s ∧
        (Tongue.parse item).arg8 = 7 ∧ (∀ (r : ReadyMsg), r ∈ j.barrier.readies → r.lchip ≠ (Tongue.parse item).lchip ∧
        r.flags = 7) ∧ jobChips s ≤ j.barrier.readies.length + 1) ∧
    (∃ (s : Machine.State) (k : ℕ) (item : List Byte) (j : Job),
        Acts s k item 19 j ∧ isLeader s = false ∧ j.state = JobState.starting ∧
        (j.barrier.answered = some (Tongue.parse item).jsf ∨
        j.barrier.answered = none ∧ ∃ (x : List Byte), j.barrier.offer = some ((Tongue.parse item).jsf, x))) ∧
    (∃ (s : Machine.State) (k : ℕ) (item : List Byte) (j : Job),
        Acts s k item 20 j ∧ isLeader s = false ∧ (j.barrier.answered = some (Tongue.parse item).jsf ∨
        j.barrier.answered = none ∧ ∃ (x : List Byte), j.barrier.offer = some ((Tongue.parse item).jsf, x))) ∧
    (∃ (s : Machine.State) (j : Job) (l : LoadedLast) (attempt : ℕ) (digests : List Byte),
        s.job = some j ∧ jobLast s = some l ∧ j.state = JobState.starting ∧ j.barrier.offer = some (attempt, digests) ∧
        j.barrier.answered ≠ some attempt ∧ s.clk.pace = j.barrier.startCode ∧ isLeader s = false) ∧
    (∃ (s : Machine.State) (j : Job),
        s.job = some j ∧ j.state = JobState.starting ∧ isLeader s = true ∧ j.barrier.offerAt ≠ none ∧
        j.barrier.releaseAt = none) ∧
    (∃ (s : Machine.State) (j : Job),
        s.job = some j ∧ j.state = JobState.starting ∧ j.barrier.releaseAt = none) ∧
    (∃ (s : Machine.State) (j : Job),
        s.job = some j ∧ j.state = JobState.starting ∧ j.barrier.startDesc = none) :=
  ⟨⟨linked (jobbed 0 (job .starting)), 15, tong 0x12 1 1 7 0, job .starting, by unfold Acts Hears; decide +kernel⟩,
   ⟨linked (jobbed 0 (barred .starting { Barrier.fresh with readies := [⟨0, 7, 0, 0, 0⟩] })), 15, tong 0x12 1 1 7 0,
      barred .starting { Barrier.fresh with readies := [⟨0, 7, 0, 0, 0⟩] }, by unfold Acts Hears; decide +kernel⟩,
   ⟨linked (jobbed 1 (barred .starting { Barrier.fresh with answered := some 1 })), 15, tong 0x13 0 0 32 1,
      barred .starting { Barrier.fresh with answered := some 1 },
      ⟨by unfold Acts Hears; decide +kernel, by decide +kernel, by decide +kernel, Or.inl (by decide +kernel)⟩⟩,
   ⟨linked (jobbed 1 (barred .starting { Barrier.fresh with answered := some 1 })), 15, tong 0x14 0 0 4 1,
      barred .starting { Barrier.fresh with answered := some 1 },
      ⟨by unfold Acts Hears; decide +kernel, by decide +kernel, Or.inl (by decide +kernel)⟩⟩,
   ⟨jobbed 1 (barred .starting { Barrier.fresh with offer := some (1, zeros 64) }),
      barred .starting { Barrier.fresh with offer := some (1, zeros 64) }, last 1, 1, zeros 64, by decide +kernel⟩,
   ⟨jobbed 0 (barred .starting { Barrier.fresh with offerAt := some 0 }),
      barred .starting { Barrier.fresh with offerAt := some 0 }, by decide +kernel⟩,
   ⟨jobbed 1 (job .starting), job .starting, by decide +kernel⟩,
   ⟨jobbed 1 (job .starting), job .starting, by decide +kernel⟩⟩

/-- States that meet the hypotheses of each part of `Obligations.TongueRunning`. -/
theorem witness_tongue_running :
    (∃ (s : Machine.State) (k : ℕ) (item : List Byte) (j : Job),
        Acts s k item 21 j ∧ jobRuns s = true ∧ (Tongue.parse item).jsf ≤ j.released) ∧
    (∃ (s : Machine.State) (k : ℕ) (item : List Byte) (j : Job),
        Acts s k item 21 j ∧ jobRuns s = true ∧ j.released < (Tongue.parse item).jsf) ∧
    (∃ (s : Machine.State) (k : ℕ) (item : List Byte) (j : Job),
        Acts s k item 22 j ∧ isLeader s = false) ∧
    (∃ (s : Machine.State) (k : ℕ) (item : List Byte) (j : Job),
        Acts s k item 22 j ∧ isLeader s = true ∧ pausedAt s (Tongue.parse item).jsf = false ∧
        j.released < (Tongue.parse item).jsf) ∧
    (∃ (s : Machine.State) (k : ℕ) (item : List Byte) (j : Job),
        Acts s k item 22 j ∧ isLeader s = true ∧ (Tongue.parse item).jsf ≤ j.released ∧
        (∃ (c : ℕ), (c, (Tongue.parse item).jsf) ∈ j.barrier.slipFrom) ∧ (∀ (c : ℕ),
        (c, (Tongue.parse item).jsf) ∈ j.barrier.slipFrom →
        (c, (Tongue.parse item).jsf) ∈
        insertOnce ((Tongue.parse item).lchip, (Tongue.parse item).jsf) j.barrier.slipReady)) ∧
    (∃ (s : Machine.State) (k : ℕ) (item : List Byte) (j : Job),
        Acts s k item 23 j ∧ jobRuns s = true ∧ isLeader s = false ∧ j.released < (Tongue.parse item).jsf ∧
        (Tongue.parse item).jsf ∈ j.barrier.slipHeld) ∧
    (∃ (s : Machine.State) (k : ℕ) (item : List Byte) (j : Job),
        Acts s k item 24 j ∧ j.state = JobState.stopped) ∧
    (∃ (s : Machine.State) (k : ℕ) (item : List Byte) (j : Job),
        Acts s k item 24 j ∧ stoppable j = true) ∧
    (∃ (s : Machine.State) (k : ℕ) (item : List Byte) (j : Job),
        Acts s k item 25 j ∧ jobRuns s = true ∧ (Tongue.parse item).jsf ≤ j.released + 4096) ∧
    (∃ (s : Machine.State) (k : ℕ) (item : List Byte) (j : Job),
        Acts s k item 25 j ∧ jobRuns s = true ∧ j.released + 4096 < (Tongue.parse item).jsf) :=
  ⟨⟨linked (jobbed 1 { job .running with released := 4096 }), 15, tong 0x15 0 0 0 4096,
      { job .running with released := 4096 }, by unfold Acts Hears; decide +kernel⟩,
   ⟨linked (jobbed 1 (job .running)), 15, tong 0x15 0 0 0 4096, job .running, by unfold Acts Hears; decide +kernel⟩,
   ⟨linked (jobbed 1 (job .running)), 15, tong 0x16 0 0 0 4096, job .running, by unfold Acts Hears; decide +kernel⟩,
   ⟨linked (jobbed 0 (job .running)), 15, tong 0x16 1 1 0 4096, job .running, by unfold Acts Hears; decide +kernel⟩,
   ⟨linked (jobbed 0 { barred .running { Barrier.fresh with slipFrom := [(1, 4096)] } with released := 4096 }), 15,
      tong 0x16 1 1 0 4096, { barred .running { Barrier.fresh with slipFrom := [(1, 4096)] } with released := 4096 },
      ⟨by unfold Acts Hears; decide +kernel, by decide +kernel, by decide +kernel, ⟨1, by decide +kernel⟩, fun c h => by cases congrArg Prod.fst (List.mem_singleton.mp h); decide +kernel⟩⟩,
   ⟨linked (jobbed 1 (barred .running { Barrier.fresh with slipHeld := [4096] })), 15, tong 0x17 0 0 0 4096,
      barred .running { Barrier.fresh with slipHeld := [4096] }, by unfold Acts Hears; decide +kernel⟩,
   ⟨linked (jobbed 1 (job .stopped)), 15, tong 0x18 0 0 0x20 4096, job .stopped, by unfold Acts Hears; decide +kernel⟩,
   ⟨linked (jobbed 1 (job .draining)), 15, tong 0x18 0 0 0x20 4096, job .draining, by unfold Acts Hears; decide +kernel⟩,
   ⟨linked (jobbed 1 (job .running)), 15, tong 0x19 0 0 32 4096, job .running, by unfold Acts Hears; decide +kernel⟩,
   ⟨linked (jobbed 1 (job .running)), 15, tong 0x19 0 0 32 4097, job .running, by unfold Acts Hears; decide +kernel⟩⟩

/-- States that meet the hypotheses of each part of `Obligations.GracePeriod`. -/
theorem witness_grace_period :
    (∃ (s : Machine.State) (k : ℕ) (ms : ℕ),
        barAlive s = true ∧ 1 ≤ ms ∧ ms ≤ 1000 ∧ k < s.regs.graceMs.length) ∧
    (∃ (s : Machine.State) (ms : ℕ),
        barAlive s = true ∧ (ms = 0 ∨ 1000 < ms)) ∧
    (∃ (s : Machine.State) (k : ℕ),
        k < s.eyelets.length) :=
  ⟨⟨base, 15, 1000, by decide +kernel⟩,
   ⟨base, 1001, by decide +kernel⟩,
   ⟨base, 15, by decide +kernel⟩⟩

/-- States that meet the hypotheses of each part of `Obligations.LaterCaptureReplaces`. -/
theorem witness_later_capture_replaces :
    (∃ (s : Machine.State) (v : Word),
        barAlive s = true ∧ BitVec.getLsbD v 0 = true ∧ 1 ≤ BitVec.toNat s.regs.dbCtl % 256 ∧
        BitVec.toNat s.regs.dbCtl % 256 ≤ 200 ∧ s.regs.dbBase % 4096 = 0 ∧ BitVec.toNat s.regs.dbCtl < 512) ∧
    (∃ (s : Machine.State) (v : Word),
        barAlive s = true ∧ BitVec.getLsbD v 0 = true ∧ critOf s.regs.marginStaged < warnOf s.regs.marginStaged) ∧
    (∃ (s : Machine.State) (mask : DWord),
        barAlive s = true ∧ s.host.rings.length = 64 ∧
        (∀ (r : ℕ), r < 64 → bitOf (BitVec.toNat mask) r = true → worst (ringFails r (ringEntry s.regs.ringStaged r)) = none)) :=
  ⟨⟨base, 1, by decide +kernel⟩,
   ⟨base, 1, by decide +kernel⟩,
   ⟨base, 1, by decide +kernel⟩⟩

/-- States that meet the hypotheses of each part of `Obligations.StagedBlocks`. -/
theorem witness_staged_blocks :
    (∃ (s : Machine.State) (v : Word) (f : Failure),
        barAlive s = true ∧ BitVec.getLsbD v 0 = true ∧ worst
        (List.map
        (fun (i : ℕ) =>
        Machine.check (decide (bitsOf (BitVec.toNat (s.regs.modStaged.getD i 0)) 8 8 ≤ 250)) 1 (256 + 2 * i))
        (List.range 32)).flatten =
        some f) ∧
    (∃ (s : Machine.State) (v : Word),
        barAlive s = true ∧ BitVec.getLsbD v 0 = true ∧
        (∀ (i : ℕ), i < 32 → bitsOf (BitVec.toNat (s.regs.modStaged.getD i 0)) 8 8 ≤ 250)) ∧
    (∃ (s : Machine.State) (v : Word),
        barAlive s = true ∧ BitVec.getLsbD v 0 = true ∧
        (BitVec.toNat s.regs.dbCtl % 256 = 0 ∨ 200 < BitVec.toNat s.regs.dbCtl % 256)) ∧
    (∃ (s : Machine.State) (v : Word),
        barAlive s = true ∧ BitVec.getLsbD v 0 = true ∧ warnOf s.regs.marginStaged ≤ critOf s.regs.marginStaged) ∧
    (∃ (s : Machine.State) (base : ℕ) (ctl : Word),
        barAlive s = true ∧ s.regs.dbCaptured = some (base, ctl) ∧ s.host.dbOutstanding = false ∧
        bitOf (BitVec.toNat ctl) 8 = false) ∧
    (∃ (s : Machine.State) (base : ℕ) (ctl : Word),
        barAlive s = true ∧ s.regs.dbCaptured = some (base, ctl) ∧ s.host.dbOutstanding = false ∧
        bitOf (BitVec.toNat ctl) 8 = true ∧ bitOf (BitVec.toNat s.regs.dbActiveCtl) 8 = false ∧ s.host.busMaster = true) ∧
    (∃ (s : Machine.State) (r : ℕ) (ws : List Word),
        barAlive s = true ∧ (s.ring r).captured = some ws ∧ (s.ring r).reading = [] ∧ (s.ring r).running = []) ∧
    (∃ (s : Machine.State) (v : Word),
        barAlive s = true ∧ BitVec.getLsbD v 0 = true) ∧
    (∃ (s : Machine.State),
        barAlive s = true) ∧
    (∃ (s : Machine.State),
        barAlive s = true ∧ s.host.rings.length = 64) :=
  ⟨⟨{ base with regs := { base.regs with modStaged := [64256] } }, 1, (1, 256), by decide +kernel⟩,
   ⟨{ base with regs := { base.regs with modStaged := [64000] } }, 1, by decide +kernel⟩,
   ⟨{ base with regs := { base.regs with dbCtl := 201 } }, 1, by decide +kernel⟩,
   ⟨{ base with regs := { base.regs with marginStaged := 0x0808 } }, 1, by decide +kernel⟩,
   ⟨{ base with regs := { base.regs with dbCaptured := some (4096, 20) } }, 4096, 20, by decide +kernel⟩,
   ⟨{ base with regs := { base.regs with dbCaptured := some (4096, 276), dbActiveCtl := 20 } }, 4096, 276,
      by decide +kernel⟩,
   ⟨ringed 63 (fun x => { x with captured := some [], reading := [] }), 63, [], by decide +kernel⟩,
   ⟨base, 1, by decide +kernel⟩,
   ⟨base, by decide +kernel⟩,
   ⟨base, by decide +kernel⟩⟩

/-- States that meet the hypotheses of each part of `Obligations.PlainRegisters`. -/
theorem witness_plain_registers :
    (∃ (s : Machine.State),
        barAlive s = true) ∧
    (∃ (s : Machine.State) (off : ℕ) (size : ℕ),
        barAlive s = true ∧ off < 65536 ∧ size ≠ 4 ∧ size ≠ 8) ∧
    (∃ (s : Machine.State) (off : ℕ) (size : ℕ),
        barAlive s = true ∧ off < 65536 ∧ off % size ≠ 0) ∧
    (∃ (s : Machine.State) (value : ℕ),
        barAlive s = true ∧ value < 2 ^ 32) ∧
    (∃ (s : Machine.State) (value : ℕ) (i : ℕ),
        barAlive s = true ∧ value < 2 ^ 32 ∧ i < 512) ∧
    (∃ (s : Machine.State) (off : ℕ),
        barAlive s = true ∧ off % 4 = 0) ∧
    (∃ (s : Machine.State) (off : ℕ),
        barAlive s = true ∧ off % 4 ≠ 0) ∧
    (∃ (s : Machine.State) (n : ℕ) (e : List Byte),
        barAlive s = true ∧ s.host.recent[n]? = some e) ∧
    (∃ (s : Machine.State),
        barAlive s = true ∧ s.host.busMaster = true) ∧
    (∃ (s : Machine.State),
        barAlive s = true ∧ s.host.busMaster = false ∧ dbEnabled s = false ∧ s.host.d3hot = false) :=
  ⟨⟨base, by decide +kernel⟩,
   ⟨base, 65532, 2, by decide +kernel⟩,
   ⟨base, 65534, 4, by decide +kernel⟩,
   ⟨base, 2 ^ 32 - 1, by decide +kernel⟩,
   ⟨base, 2 ^ 32 - 1, 511, by decide +kernel⟩,
   ⟨base, 65532, by decide +kernel⟩,
   ⟨base, 65535, by decide +kernel⟩,
   ⟨base, 31, zeros 64, by decide +kernel⟩,
   ⟨base, by decide +kernel⟩,
   ⟨{ base with host := { base.host with busMaster := false }, regs := { base.regs with dbActiveCtl := 20 } },
      by decide +kernel⟩⟩

/-- States that meet the hypotheses of each part of `Obligations.RingsAndVectors`. -/
theorem witness_rings_and_vectors :
    (∃ (s : Machine.State),
        polls s = true ∧ s.host.dbOutstanding = true) ∧
    (∃ (s : Machine.State),
        polls s = true ∧ s.host.dbOutstanding = false) ∧
    (∃ (s : Machine.State) (words : List Byte),
        s.host.dbOutstanding = true ∧ words.length = 512) ∧
    (∃ (words : List Byte) (s : Machine.State) (r : ℕ) (n : ℕ),
        (s.attr r).type = 1 ∧ (s.ring r).started = true ∧ (s.ring r).qcause = 0 ∧ (s.ring r).captured = none ∧
        (s.ring r).reading = [] ∧ (s.ring r).running = [] ∧ hostClosed s = false ∧ 0 < freeSpace s r ∧
        judgeSq s r (bellWord words r) = Except.ok (n + 1)) ∧
    (∃ (s : Machine.State) (r : ℕ) (i : ℕ),
        i ∈ (s.ring r).reading) ∧
    (∃ (s : Machine.State) (r : ℕ),
        (s.ring r).started = true ∧ (s.ring r).qcause = 0) ∧
    (∃ (s : Machine.State),
        s.host.dbOutstanding = true) ∧
    (∃ (s : Machine.State) (r : ℕ) (c : Cpl) (rest : List Cpl),
        barAlive s = true ∧ (s.ring r).held = c :: rest ∧ canWrite s r = true) ∧
    (∃ (s : Machine.State) (r : ℕ),
        barAlive s = true ∧ (s.ring r).overrun = true ∧ (s.attr r).type = 5 ∧ evtRoom s r 1 = true) ∧
    (∃ (s : Machine.State) (v : ℕ) (x : Machine.Vector),
        barAlive s = true ∧ s.host.vectors[v]? = some x ∧ vectorDue s v x = true ∧ (x.masked = true ∨ hostClosed s = true)) ∧
    (∃ (s : Machine.State) (v : ℕ) (x : Machine.Vector),
        barAlive s = true ∧ s.host.vectors[v]? = some x ∧ vectorDue s v x = true ∧ x.masked = false ∧ hostClosed s = false) ∧
    (∃ (s : Machine.State),
        barAlive s = true) :=
  ⟨⟨{ base with host := { base.host with dbOutstanding := true } }, by decide +kernel⟩,
   ⟨base, by decide +kernel⟩,
   ⟨{ base with host := { base.host with dbOutstanding := true } }, zeros 512, by decide +kernel⟩,
   ⟨leBytes 8 1 ++ zeros 504, ringed 0 (fun x => { x with reading := [] }), 0, 0,
      ⟨by decide +kernel, by decide +kernel, by decide +kernel, by decide +kernel, by decide +kernel, by decide +kernel, by decide +kernel, by decide +kernel, rfl⟩⟩,
   ⟨base, 63, 0, by decide +kernel⟩,
   ⟨base, 63, by decide +kernel⟩,
   ⟨{ base with host := { base.host with dbOutstanding := true } }, by decide +kernel⟩,
   ⟨ringed 0 (fun x => { x with held := [cpl] }), 0, cpl, [], by decide +kernel⟩,
   ⟨ringed 4 (fun x => { x with overrun := true }), 4, by decide +kernel⟩,
   ⟨{ base with host := { base.host with vectors := List.replicate 32 { Machine.Vector.fresh with count := 1, urgent := true } } },
      31, { Machine.Vector.fresh with count := 1, urgent := true }, by decide +kernel⟩,
   ⟨{ base with host := { base.host with vectors := List.replicate 32 { Machine.Vector.fresh with count := 1, urgent := true, masked := false } } },
      31, { Machine.Vector.fresh with count := 1, urgent := true, masked := false }, by decide +kernel⟩,
   ⟨base, by decide +kernel⟩⟩

/-- States that meet the hypotheses of each part of `Obligations.LoadingCommands`. -/
theorem witness_loading_commands :
    (∃ (s : Machine.State) (d : Desc) (image : List Byte) (arr : List Byte) (img : List Byte) (a : List Byte),
        Starts s d 16 ∧ hostData d image = some img ∧ hostData d arr = some a ∧ 2 ≤ (openLasts s).length) ∧
    (∃ (s : Machine.State) (d : Desc) (image : List Byte) (arr : List Byte) (img : List Byte) (a : List Byte),
        Starts s d 16 ∧ hostData d image = some img ∧ hostData d arr = some a ∧ (openLasts s).length < 2) ∧
    (∃ (s : Machine.State) (d : Desc),
        Starts s d 17 ∧ lastNamed s (d.at 8 8) = none) ∧
    (∃ (s : Machine.State) (d : Desc) (blob : List Byte) (sib : List Byte) (l : LoadedLast) (b : List Byte) (sb : List Byte),
        Starts s d 17 ∧ lastNamed s (d.at 8 8) = some l ∧ hostData d blob = some b ∧ hostData d sib = some sb ∧
        l.lchip * 2 ^ l.span ≤ d.at 16 2 ∧ d.at 16 2 < (l.lchip + 1) * 2 ^ l.span ∧ assoc (d.at 16 2) l.slices ≠ none) ∧
    (∃ (s : Machine.State) (d : Desc) (blob : List Byte) (sib : List Byte) (l : LoadedLast) (b : List Byte) (sb : List Byte),
        Starts s d 17 ∧ lastNamed s (d.at 8 8) = some l ∧ hostData d blob = some b ∧ hostData d sib = some sb ∧
        l.lchip * 2 ^ l.span ≤ d.at 16 2 ∧ d.at 16 2 < (l.lchip + 1) * 2 ^ l.span ∧ assoc (d.at 16 2) l.slices = none ∧
        b.length ≠ blobBytes (l.manifest.getD (d.at 16 2) [])) ∧
    (∃ (s : Machine.State) (d : Desc) (blob : List Byte) (sib : List Byte) (l : LoadedLast) (b : List Byte) (sb : List Byte),
        Starts s d 17 ∧ lastNamed s (d.at 8 8) = some l ∧ hostData d blob = some b ∧ hostData d sib = some sb ∧
        l.lchip * 2 ^ l.span ≤ d.at 16 2 ∧ d.at 16 2 < (l.lchip + 1) * 2 ^ l.span ∧ assoc (d.at 16 2) l.slices = none ∧
        b.length = blobBytes (l.manifest.getD (d.at 16 2) []) ∧ blobScalesOk (l.manifest.getD (d.at 16 2) []) b = true ∧
        l.slices.length + 1 < 2 ^ l.span) ∧
    (∃ (s : Machine.State) (d : Desc) (l : LoadedLast),
        Starts s d 18 ∧ lastNamed s (d.at 8 8) = some l ∧ (∀ (j : Job), s.job = some j → j.last ≠ l.digest)) :=
  ⟨⟨{ base with lasts := [last 0, { last 0 with digest := leBytes 32 1 }] }, desc 1 0x10 [], [], [], [], [],
      by unfold Starts Goes Read; decide +kernel⟩,
   ⟨{ base with lasts := [last 0, { last 0 with digest := leBytes 32 1, closed := true }] }, desc 1 0x10 [], [], [], [],
      [], by unfold Starts Goes Read; decide +kernel⟩,
   ⟨base, desc 1 0x11 [], by unfold Starts Goes Read; decide +kernel⟩,
   ⟨{ base with lasts := [{ last 0 with slices := [(0, [])] }] }, desc 1 0x11 [], [], [],
      { last 0 with slices := [(0, [])] }, [], [], by unfold Starts Goes Read; decide +kernel⟩,
   ⟨{ base with lasts := [{ last 0 with manifest := [[⟨false, 1⟩], []] }] }, desc 1 0x11 [], [], [],
      { last 0 with manifest := [[⟨false, 1⟩], []] }, [], [], by unfold Starts Goes Read; decide +kernel⟩,
   ⟨{ base with lasts := [{ last 0 with span := 1 }] }, desc 1 0x11 [(16, 2, 1)], [], [], { last 0 with span := 1 }, [],
      [], by unfold Starts Goes Read; decide +kernel⟩,
   ⟨{ base with lasts := [last 0] }, desc 0 0x12 [], last 0,
      ⟨by unfold Starts Goes Read; decide +kernel, by decide +kernel, fun j h => by cases h⟩⟩⟩

/-- States that meet the hypotheses of each part of `Obligations.JobCommands`. -/
theorem witness_job_commands :
    (∃ (s : Machine.State) (d : Desc) (l : LoadedLast),
        Starts s d 32 ∧ lastNamed s (d.at 8 8) = some l ∧
        (if bitOf (d.at 18 1) 0 = true then l.relaxedOk else l.lockstepOk) = true ∧
        storeFits s l (storeFor l (d.at 20 4) (d.at 24 4)) = true) ∧
    (∃ (s : Machine.State) (d : Desc) (j : Job) (l : LoadedLast),
        Starts s d 33 ∧ s.job = some j ∧ jobLast s = some l ∧ j.tag = d.at 8 2 ∧ s.dev.stopOrdered = none ∧
        l.weightDigest = none) ∧
    (∃ (s : Machine.State) (d : Desc) (j : Job) (l : LoadedLast),
        Starts s d 33 ∧ s.job = some j ∧ jobLast s = some l ∧ j.tag = d.at 8 2 ∧ s.dev.stopOrdered = none ∧
        l.weightDigest ≠ none ∧ datelineOk s l = false) ∧
    (∃ (s : Machine.State) (d : Desc) (j : Job) (l : LoadedLast),
        Starts s d 33 ∧ s.job = some j ∧ jobLast s = some l ∧ j.tag = d.at 8 2 ∧ s.dev.stopOrdered = none ∧
        l.weightDigest ≠ none ∧ datelineOk s l = true) ∧
    (∃ (s : Machine.State) (j : Job) (l : LoadedLast),
        s.job = some j ∧ jobLast s = some l ∧ j.state = JobState.starting ∧ j.barrier.releaseAt ≠ none ∧
        j.barrier.startPace = s.clk.pace) ∧
    (∃ (s : Machine.State) (j : Job),
        s.job = some j) ∧
    (∃ (s : Machine.State) (d : Desc) (j : Job),
        Starts s d 34 ∧ s.job = some j ∧ j.tag = d.at 8 2 ∧ isLeader s = false) ∧
    (∃ (s : Machine.State) (d : Desc) (j : Job),
        Starts s d 34 ∧ s.job = some j ∧ j.tag = d.at 8 2 ∧ isLeader s = true ∧ pausedFirst j d.ring = true) ∧
    (∃ (s : Machine.State) (d : Desc) (j : Job),
        Starts s d 34 ∧ s.job = some j ∧ j.tag = d.at 8 2 ∧ isLeader s = true ∧ pausedFirst j d.ring = false) ∧
    (∃ (s : Machine.State) (j : Job),
        s.job = some j ∧ j.state = JobState.paused ∧ j.drain = true ∧ admitted j = []) ∧
    (∃ (s : Machine.State) (d : Desc) (j : Job),
        Starts s d 35 ∧ s.job = some j ∧ j.tag = d.at 8 2) ∧
    (∃ (s : Machine.State) (d : Desc) (j : Job),
        Starts s d 36 ∧ s.job = some j ∧ j.tag = d.at 8 2 ∧ s.dev.stopOrdered = none) ∧
    (∃ (s : Machine.State) (d : Desc) (j : Job) (input : List Byte) (bs : List Byte),
        Starts s d 128 ∧ s.job = some j ∧ j.tag = d.at 8 2 ∧ hostData d input = some bs ∧ isLeader s = false) ∧
    (∃ (s : Machine.State) (d : Desc) (j : Job) (input : List Byte) (bs : List Byte),
        Starts s d 128 ∧ s.job = some j ∧ j.tag = d.at 8 2 ∧ hostData d input = some bs ∧ isLeader s = true) :=
  ⟨⟨{ base with lasts := [last 0] }, desc 0 0x20 [(16, 2, 7), (24, 4, 16)], last 0,
      by unfold Starts Goes Read; decide +kernel⟩,
   ⟨jobbed 0 (job .opened), desc 0 0x21 [(8, 2, 7)], job .opened, last 0, by unfold Starts Goes Read; decide +kernel⟩,
   ⟨{ jobbed 0 (job .opened) with lasts := [{ last 0 with weightDigest := some [] }] },
      desc 0 0x21 [(8, 2, 7), (10, 1, 32)], job .opened, { last 0 with weightDigest := some [] },
      by unfold Starts Goes Read; decide +kernel⟩,
   ⟨{ jobbed 0 (job .opened) with lasts := [{ last 0 with weightDigest := some [] }], svc := { base.svc with banks := [some bank, none] } },
      desc 0 0x21 [(8, 2, 7), (10, 1, 32)], job .opened, { last 0 with weightDigest := some [] },
      by unfold Starts Goes Read; decide +kernel⟩,
   ⟨jobbed 1 (barred .starting { Barrier.fresh with releaseAt := some 0 }),
      barred .starting { Barrier.fresh with releaseAt := some 0 }, last 1, by decide +kernel⟩,
   ⟨jobbed 1 (job .opened), job .opened, by decide +kernel⟩,
   ⟨jobbed 1 (job .running), desc 0 0x22 [(8, 2, 7)], job .running, by unfold Starts Goes Read; decide +kernel⟩,
   ⟨jobbed 0 { job .running with pauseOrdered := true, ckptDescs := [⟨0, 1, 0, 0, false⟩] }, desc 0 0x22 [(8, 2, 7)],
      { job .running with pauseOrdered := true, ckptDescs := [⟨0, 1, 0, 0, false⟩] },
      by unfold Starts Goes Read; decide +kernel⟩,
   ⟨jobbed 0 (job .draining), desc 0 0x22 [(8, 2, 7)], job .draining, by unfold Starts Goes Read; decide +kernel⟩,
   ⟨jobbed 0 { job .paused with drain := true }, { job .paused with drain := true }, by decide +kernel⟩,
   ⟨jobbed 0 (job .stopped), desc 0 0x23 [(8, 2, 7)], job .stopped, by unfold Starts Goes Read; decide +kernel⟩,
   ⟨jobbed 0 (job .running), desc 0 0x24 [(8, 2, 7)], job .running, by unfold Starts Goes Read; decide +kernel⟩,
   ⟨jobbed 1 (job .running), desc 2 0x80 [(8, 2, 7)], job .running, [], [], by unfold Starts Goes Read; decide +kernel⟩,
   ⟨jobbed 0 (job .running), desc 2 0x80 [(8, 2, 7)], job .running, [], [], by unfold Starts Goes Read; decide +kernel⟩⟩

/-- States that meet the hypotheses of each part of `Obligations.Checkpoints`. -/
theorem witness_checkpoints :
    (∃ (s : Machine.State) (j : Job) (l : LoadedLast) (t : Store) (c : Ckpt) (rest : List Ckpt) (reqs : List Byte) (qs : List CkptReq) (fs : List CkptFrame),
        s.job = some j ∧ jobLast s = some l ∧ jobStore s = some t ∧ j.ckptDescs = c :: rest ∧ j.state = JobState.paused ∧
        isLeader s = false ∧ parseSection reqs = some (qs, fs)) ∧
    (∃ (s : Machine.State) (j : Job) (l : LoadedLast) (t : Store) (qs : List CkptReq) (fs : List CkptFrame) (w : ℕ),
        (List.filterMap (fun (a : ℕ) => hbmBadIn s a (2 ^ l.span * j.sliceBytes)) (keptPages l t qs fs)).head? = some w) ∧
    (∃ (s : Machine.State) (j : Job) (l : LoadedLast) (t : Store) (reqs : List Byte) (qs : List CkptReq) (fs : List CkptFrame) (c : Ckpt),
        (List.filterMap (fun (a : ℕ) => hbmBadIn s a (2 ^ l.span * j.sliceBytes)) (keptPages l t qs fs)).head? = none ∧
        c.skive = false ∧ c.len <
        (ckptHeader j l (sliceLen (keptPages l t qs fs).length j.sliceBytes) reqs.length ++ reqs ++
        List.flatMap (sliceSection s j l (keptPages l t qs fs)) (List.range (2 ^ l.span))).length) ∧
    (∃ (s : Machine.State) (j : Job) (l : LoadedLast) (t : Store) (reqs : List Byte) (qs : List CkptReq) (fs : List CkptFrame) (c : Ckpt),
        (List.filterMap (fun (a : ℕ) => hbmBadIn s a (2 ^ l.span * j.sliceBytes)) (keptPages l t qs fs)).head? = none ∧
        c.skive = false ∧ (ckptHeader j l (sliceLen (keptPages l t qs fs).length j.sliceBytes) reqs.length ++ reqs ++
        List.flatMap (sliceSection s j l (keptPages l t qs fs)) (List.range (2 ^ l.span))).length ≤
        c.len) ∧
    (∃ (s : Machine.State) (d : Desc) (j : Job),
        Starts s d 37 ∧ s.job = some j ∧ j.tag ≠ d.at 36 2) ∧
    (∃ (s : Machine.State) (d : Desc) (image : List Byte) (arr : List Byte) (ck : List Byte) (img : List Byte) (a : List Byte) (b : List Byte),
        Starts s d 37 ∧ (∀ (j : Job), s.job = some j → j.tag = d.at 36 2) ∧ hostData d image = some img ∧
        hostData d arr = some a ∧ hostData d ck = some b ∧ (List.filter
        (fun (l : LoadedLast) =>
        match
        if s.job.isSome = true then jobLast s
        else List.find? (fun (l : LoadedLast) => decide (l.digest = lastDigest img)) s.lasts with
        | some o => decide (l.digest ≠ o.digest)
        | none => true)
        (openLasts s)).length <
        2) :=
  ⟨⟨jobbed 1 { job .paused with ckptDescs := [⟨0, 0, 0, 0, false⟩] },
      { job .paused with ckptDescs := [⟨0, 0, 0, 0, false⟩] }, last 1, storeFor (last 1) 0 16, ⟨0, 0, 0, 0, false⟩,
      [], zeros 64, [], [], by decide +kernel⟩,
   ⟨{ base with mem := { Mem.fresh with hbmBad := [0] } }, job .paused, last 1, store, [], [⟨0, 0, 0, []⟩], 0,
      by decide +kernel⟩,
   ⟨base, job .paused, last 1, store, zeros 64, [], [], ⟨0, 0, 0, 0, false⟩, by decide +kernel⟩,
   ⟨base, job .paused, last 1, store, zeros 64, [], [], ⟨0, 0, 0, 4096, false⟩, by decide +kernel⟩,
   ⟨jobbed 1 (job .paused), desc 0 0x25 [(36, 2, 8)], job .paused, by unfold Starts Goes Read; decide +kernel⟩,
   ⟨base, desc 0 0x25 [], [], [], [], [], [], [],
      ⟨by unfold Starts Goes Read; decide +kernel, (fun (j : Job) (h : (none : Option Job) = some j) => nomatch h), by decide +kernel⟩⟩⟩

/-- States that meet the hypotheses of each part of `Obligations.TransfersAndSolves`. -/
theorem witness_transfers_and_solves :
    (∃ (s : Machine.State) (d : Desc) (data : List Byte) (bs : List Byte),
        Starts s d 80 ∧ d.at 8 1 = 1 ∧ hostData d data = some bs ∧ bs ≠ [] ∧ xferLocal s d = false) ∧
    (∃ (s : Machine.State) (d : Desc) (data : List Byte) (bs : List Byte),
        Starts s d 80 ∧ d.at 8 1 = 1 ∧ hostData d data = some bs ∧ bs ≠ [] ∧ xferLocal s d = true ∧
        xferWaits s d bs.length = false) ∧
    (∃ (s : Machine.State) (d : Desc) (data : List Byte) (bs : List Byte),
        Starts s d 80 ∧ d.at 8 1 = 1 ∧ hostData d data = some bs ∧ bs ≠ [] ∧ xferLocal s d = true ∧
        xferWaits s d bs.length = true) ∧
    (∃ (s : Machine.State) (d : Desc),
        Starts s d 80 ∧ d.at 8 1 = 2 ∧ xferLocal s d = false) ∧
    (∃ (s : Machine.State) (d : Desc),
        Starts s d 80 ∧ d.at 8 1 = 2 ∧ xferLocal s d = true ∧ xferWaits s d (d.at 32 4) = false) ∧
    (∃ (s : Machine.State) (d : Desc),
        Starts s d 80 ∧ d.at 8 1 = 3 ∧ xferLocal s d = false) ∧
    (∃ (s : Machine.State) (d : Desc),
        Starts s d 80 ∧ d.at 8 1 = 3 ∧ xferLocal s d = true) ∧
    (∃ (s : Machine.State) (d : Desc) (problems : List Byte) (bs : List Byte),
        Starts s d 144 ∧ hostData d problems = some bs) ∧
    (∃ (s : Machine.State) (b : Batch),
        s.shank.batch = some b) :=
  ⟨⟨base, desc 0 0x50 [(8, 1, 1), (10, 2, 1), (12, 1, 1), (14, 2, 0xFFFF), (32, 4, 1)], [1], [1],
      by unfold Starts Goes Read; decide +kernel⟩,
   ⟨base, desc 0 0x50 [(8, 1, 1), (12, 1, 3), (14, 2, 0xFFFF), (32, 4, 1)], [1], [1],
      by unfold Starts Goes Read; decide +kernel⟩,
   ⟨{ base with mem := { Mem.fresh with copying := [(0, 1, 0, 0)] } },
      desc 0 0x50 [(8, 1, 1), (12, 1, 3), (14, 2, 0xFFFF), (16, 8, 2047), (32, 4, 1)], [1], [1],
      by unfold Starts Goes Read; decide +kernel⟩,
   ⟨base, desc 0 0x50 [(8, 1, 2), (10, 2, 1), (12, 1, 1), (14, 2, 0xFFFF), (32, 4, 1)],
      by unfold Starts Goes Read; decide +kernel⟩,
   ⟨base, desc 0 0x50 [(8, 1, 2), (12, 1, 3), (14, 2, 0xFFFF), (32, 4, 1)], by unfold Starts Goes Read; decide +kernel⟩,
   ⟨base, desc 0 0x50 [(8, 1, 3), (10, 2, 1), (12, 1, 4), (14, 2, 0xFFFF), (36, 4, 1)],
      by unfold Starts Goes Read; decide +kernel⟩,
   ⟨base, desc 0 0x50 [(8, 1, 3), (12, 1, 4), (14, 2, 0xFFFF), (36, 4, 1)], by unfold Starts Goes Read; decide +kernel⟩,
   ⟨base, desc 3 0x90 [(24, 2, 1)], [], [], by unfold Starts Goes Read; decide +kernel⟩,
   ⟨{ base with shank := { base.shank with batch := some batch } }, batch, by decide +kernel⟩⟩

/-- States that meet the hypotheses of each part of `Obligations.ColdStartAndReference`. -/
theorem witness_cold_start_and_reference :
    (∃ (s : Machine.State),
        s.dev.state = DevState.cold ∧ s.clk.locked = false ∧ s.clk.holdover = false) ∧
    (∃ (s : Machine.State) (xlat : List ℕ) (i : ℕ),
        s.dev.state = DevState.cold ∧ s.clk.locked = true ∧ xlat.length = 80 ∧
        List.findIdx? (fun (n : ℕ) => decide (6 < n)) xlat = some i) ∧
    (∃ (s : Machine.State) (xlat : List ℕ) (firmware : Option ℕ),
        s.dev.state = DevState.cold ∧ s.clk.locked = true ∧ xlat.length = 80 ∧ (∀ (n : ℕ), n ∈ xlat → n ≤ 6) ∧
        firmware = none) ∧
    (∃ (s : Machine.State) (xlat : List ℕ) (firmware : Option ℕ) (v : ℕ),
        s.dev.state = DevState.cold ∧ s.clk.locked = true ∧ xlat.length = 80 ∧ (∀ (n : ℕ), n ∈ xlat → n ≤ 6) ∧
        firmware = some v) ∧
    (∃ (s : Machine.State),
        s.clk.locked = true) ∧
    (∃ (s : Machine.State),
        s.clk.holdover = true) :=
  ⟨⟨{ cold with clk := { base.clk with locked := false } }, by decide +kernel⟩,
   ⟨cold, List.replicate 79 6 ++ [7], 79, by decide +kernel⟩,
   ⟨cold, List.replicate 80 6, none, by decide +kernel⟩,
   ⟨cold, List.replicate 80 6, some 1, 1, by decide +kernel⟩,
   ⟨base, by decide +kernel⟩,
   ⟨{ base with clk := { base.clk with locked := false, holdover := true } }, by decide +kernel⟩⟩

/-- States that meet the hypotheses of each part of `Obligations.Resets`. -/
theorem witness_resets :
    (∃ (s : Machine.State),
        barAlive s = true) ∧
    (∃ (s : Machine.State),
        s.dev.state ≠ DevState.off) :=
  ⟨⟨base, by decide +kernel⟩,
   ⟨base, by decide +kernel⟩⟩

/-- States that meet the hypotheses of each part of `Obligations.PowerStates`. -/
theorem witness_power_states :
    (∃ (s : Machine.State),
        s.dev.state ≠ DevState.off ∧ s.dev.stopOrdered = none) ∧
    (∃ (s : Machine.State),
        s.dev.stopOrdered ≠ none ∧ jobRuns s = true) ∧
    (∃ (s : Machine.State),
        barAlive s = true ∧ s.host.d3hot = false ∧
        (s.dev.state = DevState.setup ∨ s.dev.state = DevState.ready ∨ s.dev.state = DevState.loaded)) ∧
    (∃ (s : Machine.State),
        barAlive s = true ∧ s.host.d3hot = false ∧ s.dev.state ≠ DevState.setup ∧ s.dev.state ≠ DevState.ready ∧
        s.dev.state ≠ DevState.loaded) ∧
    (∃ (s : Machine.State),
        barAlive s = true ∧ s.host.d3hot = true) ∧
    (∃ (s : Machine.State),
        barAlive s = true ∧ s.host.d3hot = false) ∧
    (∃ (s : Machine.State),
        barAlive s = true ∧ s.host.d3hot = true ∧ s.dev.wakes = 0 ∧ s.dev.state ≠ DevState.idleLp) ∧
    (∃ (s : Machine.State),
        barAlive s = true ∧ s.host.d3hot = true ∧ s.dev.wakes = 0 ∧ s.dev.state = DevState.idleLp ∧ jobLive s = false) ∧
    (∃ (s : Machine.State),
        barAlive s = true ∧ s.host.d3hot = true ∧ 0 < s.dev.wakes ∧ s.dev.state = DevState.idleLp ∧ jobLive s = false) ∧
    (∃ (s : Machine.State),
        s.dev.state ≠ DevState.off ∧ s.dev.state ≠ DevState.idleLp) ∧
    (∃ (s : Machine.State),
        s.dev.state ≠ DevState.off ∧ s.dev.state = DevState.idleLp ∧ s.host.pmeEn = false) ∧
    (∃ (s : Machine.State),
        s.dev.state ≠ DevState.off ∧ s.dev.state = DevState.idleLp ∧ s.host.pmeEn = true) ∧
    (∃ (s : Machine.State),
        0 < s.dev.wakes ∧ s.dev.state = DevState.idleLp) :=
  ⟨⟨base, by decide +kernel⟩,
   ⟨{ jobbed 0 (job .running) with dev := { base.dev with stopOrdered := some 0 } }, by decide +kernel⟩,
   ⟨base, by decide +kernel⟩,
   ⟨dev (fun d => { d with state := .held }), by decide +kernel⟩,
   ⟨{ base with host := { base.host with d3hot := true } }, by decide +kernel⟩,
   ⟨base, by decide +kernel⟩,
   ⟨{ base with host := { base.host with d3hot := true } }, by decide +kernel⟩,
   ⟨dev (fun d => { d with state := .idleLp }) { base with host := { base.host with d3hot := true } }, by decide +kernel⟩,
   ⟨dev (fun d => { d with state := .idleLp, wakes := 1 }) { base with host := { base.host with d3hot := true } },
      by decide +kernel⟩,
   ⟨base, by decide +kernel⟩,
   ⟨dev (fun d => { d with state := .idleLp }), by decide +kernel⟩,
   ⟨dev (fun d => { d with state := .idleLp }) { base with host := { base.host with pmeEn := true } }, by decide +kernel⟩,
   ⟨dev (fun d => { d with state := .idleLp, wakes := 1 }), by decide +kernel⟩⟩

/-- States that meet the hypotheses of each part of `Obligations.StitchBoundary`. -/
theorem witness_stitch_boundary :
    (∃ (s : Machine.State),
        (s.clk.locked = true ∨ s.clk.holdover = true) ∧ (jobRuns s = false ∨ jobLast s = none)) ∧
    (∃ (s : Machine.State) (l : LoadedLast),
        (s.clk.locked = true ∨ s.clk.holdover = true) ∧ jobRuns s = true ∧ jobLast s = some l) ∧
    (∃ (s : Machine.State) (r : ℕ) (j : Job),
        s.job = some j ∧ jobRuns s = true ∧ (s.region r).js = j.released + 4096) ∧
    (∃ (s : Machine.State) (r : ℕ) (j : Job),
        s.job = some j ∧ jobRuns s = true ∧ (s.region r).js ≠ j.released + 4096 ∧
        (s.region r).holds.any (stopsAt s.clk.ws) = true) ∧
    (∃ (s : Machine.State) (r : ℕ) (j : Job),
        s.job = some j ∧ jobRuns s = true ∧ (s.region r).js ≠ j.released + 4096 ∧ (s.region r).holds = [] ∧
        (s.region r).due = false ∧ (s.region r).todo = []) :=
  ⟨⟨base, by decide +kernel⟩,
   ⟨jobbed 0 (job .running), last 0, by decide +kernel⟩,
   ⟨atJs 4096 (jobbed 0 (job .running)), 19, job .running, by decide +kernel⟩,
   ⟨{ jobbed 0 (job .running) with clk := { base.clk with regions := List.replicate 20 { Region.fresh with holds := [.handshake] } } },
      19, job .running, by decide +kernel⟩,
   ⟨jobbed 0 (job .running), 19, job .running, by decide +kernel⟩⟩

/-- States that meet the hypotheses of each part of `Obligations.PacesAndSlips`. -/
theorem witness_paces_and_slips :
    (∃ (s : Machine.State) (code : ℕ) (b : ℕ),
        s.clk.nextOutside = some (code, b) ∧ jobRuns s = false) ∧
    (∃ (s : Machine.State) (l : LoadedLast) (k : ℕ) (lace : ℕ) (unit : ℕ) (u : SchedUnit) (r : LaceRow),
        jobLast s = some l ∧ List.find? (awaits lace unit) (s.eyelet k).txSched = some u ∧ departRow s l lace = some r ∧
        jobRuns s = true ∧ passed s (tileRegion (l.tileMap.getD r.ltile 0)) u.dep = true ∧
        insoleBadIn s (l.tileMap.getD r.ltile 0) (r.addr + 240 * unit) 240 = none) ∧
    (∃ (s : Machine.State) (j : Job) (l : LoadedLast),
        s.job = some j ∧ jobLast s = some l ∧ jobRuns s = true ∧ ceilDiv l.retryAllow 4 ≤ lag s j ∧
        ¬slipTarget (j.anchorJs + (s.clk.ws - j.anchorWs)) ∈ j.barrier.slipMine) ∧
    (∃ (s : Machine.State) (j : Job) (l : LoadedLast),
        s.job = some j ∧ jobLast s = some l ∧ jobRuns s = true ∧
        (∀ (g : Region), g ∈ s.clk.regions → g.js = j.released + 4096) ∧ j.barrier.pauseFrom = none) ∧
    (∃ (s : Machine.State) (j : Job) (l : LoadedLast) (p : ℕ) (a : ℕ),
        s.job = some j ∧ jobLast s = some l ∧ jobRuns s = true ∧ j.barrier.resumeAt = some (p, a) ∧
        pausedAt { s with job := some { j with barrier := { j.barrier with resumeAt := none } } } p = true) ∧
    (∃ (s : Machine.State) (j : Job) (l : LoadedLast) (p : ℕ) (a : ℕ),
        s.job = some j ∧ jobLast s = some l ∧ jobRuns s = true ∧ j.barrier.resumeAt = some (p, a) ∧
        pausedAt { s with job := some { j with barrier := { j.barrier with resumeAt := none } } } p = false) ∧
    (∃ (s : Machine.State) (j : Job),
        s.job = some j ∧ jobRuns s = true ∧ ((∀ (g : Region), g ∈ s.clk.regions → g.js = j.nextBoundary) ∧
        j.barrier.pauseFrom = none ∧ blockHere s j.nextBoundary = none ∧ j.released + 4096 = j.nextBoundary ∨
        isLeader s = true ∧ blockOut s = true)) :=
  ⟨⟨{ base with clk := { base.clk with nextOutside := some (24, 0) } }, 24, 0, by decide +kernel⟩,
   ⟨atJs 1 (eyes { eye .up with txSched := [⟨5, 0, 0, true, none⟩] } (jobbed 0 (job .running))), last 0, 0, 5, 0,
      ⟨5, 0, 0, true, none⟩, laceRow, by decide +kernel⟩,
   ⟨{ jobbed 0 (job .running) with clk := { base.clk with ws := 16 } }, job .running, last 0, by decide +kernel⟩,
   ⟨atJs 4096 (jobbed 0 (job .running)), job .running, last 0, by decide +kernel⟩,
   ⟨atJs 4096 (jobbed 0 (barred .running { Barrier.fresh with resumeAt := some (4096, 0), pauseFrom := some 0 })),
      barred .running { Barrier.fresh with resumeAt := some (4096, 0), pauseFrom := some 0 }, last 0, 4096, 0,
      by decide +kernel⟩,
   ⟨jobbed 0 (barred .running { Barrier.fresh with resumeAt := some (4096, 0) }),
      barred .running { Barrier.fresh with resumeAt := some (4096, 0) }, last 0, 4096, 0, by decide +kernel⟩,
   ⟨atJs 4096 (jobbed 0 { job .running with nextBoundary := 4096 }), { job .running with nextBoundary := 4096 },
      by decide +kernel⟩⟩

/-- States that meet the hypotheses of each part of `Obligations.MarginWindows`. -/
theorem witness_margin_windows :
    (∃ (s : Machine.State) (loops : List (List ℤ)) (r : ℕ) (m : ℤ),
        r < s.clk.regions.length ∧ (List.map (fun (x : ℤ) => max (-128) (min 127 x)) (loops.getD r [])).min? = some m ∧
        critOf s.regs.marginActive < m ∧ warnOf s.regs.marginActive < m) ∧
    (∃ (s : Machine.State) (loops : List (List ℤ)) (r : ℕ) (m : ℤ),
        r < s.clk.regions.length ∧ (List.map (fun (x : ℤ) => max (-128) (min 127 x)) (loops.getD r [])).min? = some m ∧
        critOf s.regs.marginActive < m ∧ m ≤ warnOf s.regs.marginActive ∧ (s.region r).warned = true) ∧
    (∃ (s : Machine.State) (loops : List (List ℤ)) (r : ℕ) (m : ℤ),
        r < s.clk.regions.length ∧ (List.map (fun (x : ℤ) => max (-128) (min 127 x)) (loops.getD r [])).min? = some m ∧
        critOf s.regs.marginActive < m ∧ m ≤ warnOf s.regs.marginActive ∧ (s.region r).warned = false) ∧
    (∃ (s : Machine.State) (loops : List (List ℤ)) (r : ℕ) (m : ℤ),
        r < s.clk.regions.length ∧ (List.map (fun (x : ℤ) => max (-128) (min 127 x)) (loops.getD r [])).min? = some m ∧
        m ≤ critOf s.regs.marginActive ∧ m ≤ warnOf s.regs.marginActive ∧ (s.region r).warned = true ∧
        marginHeld (s.region r) = false) ∧
    (∃ (loops : List (List ℤ)) (r : ℕ),
        loops.getD r [] = []) :=
  ⟨⟨base, List.replicate 20 [9, 127], 19, 9, by decide +kernel⟩,
   ⟨{ base with clk := { base.clk with regions := List.replicate 20 { Region.fresh with warned := true } } },
      List.replicate 20 [8], 19, 8, by decide +kernel⟩,
   ⟨base, List.replicate 20 [8], 19, 8, by decide +kernel⟩,
   ⟨{ base with clk := { base.clk with regions := List.replicate 20 { Region.fresh with warned := true } } },
      List.replicate 20 [2], 19, 2, by decide +kernel⟩,
   ⟨[], 19, by decide +kernel⟩⟩

/-- States that meet the hypotheses of each part of `Obligations.GovernorPeriod`. -/
theorem witness_governor_period :
    (∃ (s : Machine.State),
        barAlive s = true) ∧
    (∃ (s : Machine.State),
        s.heel.throttle = false) ∧
    (∃ (s : Machine.State) (cool : Bool),
        s.heel.throttle = true ∧ cool = false) ∧
    (∃ (s : Machine.State) (cool : Bool),
        s.heel.throttle = true ∧ cool = true ∧ s.heel.coolPeriods + 1 < 10) ∧
    (∃ (s : Machine.State) (cool : Bool),
        s.heel.throttle = true ∧ cool = true ∧ 10 ≤ s.heel.coolPeriods + 1 ∧ s.dev.stopOrdered = none) ∧
    (∃ (s : Machine.State) (status : ℕ),
        barAlive s = true ∧ status ≠ 0) ∧
    (∃ (s : Machine.State),
        (s.job = none ∨ jobRuns s = false)) ∧
    (∃ (s : Machine.State) (j : Job) (l : LoadedLast),
        s.job = some j ∧ jobLast s = some l ∧ jobRuns s = true ∧ isLeader s = true) ∧
    (∃ (s : Machine.State),
        barAlive s = true ∧ s.heel.throttle = false) :=
  ⟨⟨base, by decide +kernel⟩,
   ⟨base, by decide +kernel⟩,
   ⟨heeled (fun h => { h with throttle := true }), false, by decide +kernel⟩,
   ⟨heeled (fun h => { h with throttle := true, coolPeriods := 8 }), true, by decide +kernel⟩,
   ⟨heeled (fun h => { h with throttle := true, coolPeriods := 9 }), true, by decide +kernel⟩,
   ⟨base, 1, by decide +kernel⟩,
   ⟨base, by decide +kernel⟩,
   ⟨jobbed 0 (job .running), job .running, last 0, by decide +kernel⟩,
   ⟨base, by decide +kernel⟩⟩

/-- States that meet the hypotheses of each part of `Obligations.CapsAndHold`. -/
theorem witness_caps_and_hold :
    (∃ (s : Machine.State),
        barAlive s = true) ∧
    (∃ (s : Machine.State),
        barAlive s = true ∧ s.heel.stale = false) ∧
    (∃ (s : Machine.State),
        s.heel.stale = true) ∧
    (∃ (s : Machine.State) (w : ℕ) (p : ℕ),
        s.dev.state ≠ DevState.off ∧ 150 ≤ w ∧ w ≤ 900 ∧ p ≤ 32) ∧
    (∃ (s : Machine.State) (w : ℕ) (p : ℕ),
        s.heel.orders = [(64, Order.powerCap w), (64, Order.paceCap p)]) ∧
    (∃ (s : Machine.State),
        s.dev.held = false ∧ s.dev.state ≠ DevState.off) ∧
    (∃ (s : Machine.State),
        s.dev.held = true) :=
  ⟨⟨base, by decide +kernel⟩,
   ⟨base, by decide +kernel⟩,
   ⟨heeled (fun h => { h with stale := true }), by decide +kernel⟩,
   ⟨base, 900, 32, by decide +kernel⟩,
   ⟨heeled (fun h => { h with orders := [(64, .powerCap 150), (64, .paceCap 0)] }), 150, 0, by decide +kernel⟩,
   ⟨base, by decide +kernel⟩,
   ⟨dev (fun d => { d with held := true }), by decide +kernel⟩⟩

/-- States that meet the hypotheses of each part of `Obligations.MemoryUpkeep`. -/
theorem witness_memory_upkeep :
    (∃ (s : Machine.State) (page : ℕ),
        barAlive s = true ∧ 2048 * page < 154618822656) ∧
    (∃ (s : Machine.State) (bank : ℕ),
        (∀ (j : Job), s.job = some j → jobRuns s = false ∨ j.relaxed = false ∨ List.find? (meetsBank bank) j.later = none)) ∧
    (∃ (s : Machine.State) (bank : ℕ) (j : Job) (x : ℕ × ℕ × Later),
        s.job = some j ∧ jobRuns s = true ∧ j.relaxed = true ∧ List.find? (meetsBank bank) j.later = some x) ∧
    (∃ (s : Machine.State) (r : ℕ) (slot : ℕ) (page : ℕ) (spare : ℕ) (rest : List (ℕ × ℕ × ℕ × ℕ)),
        s.mem.copying = (r, slot, page, spare) :: rest) ∧
    (∃ (s : Machine.State),
        s.dev.state ≠ DevState.off ∧ s.cob.vaux = true) ∧
    (∃ (s : Machine.State),
        s.cob.vaux = false) :=
  ⟨⟨base, 75497471, by decide +kernel⟩,
   ⟨base, 63, fun j h => by cases h⟩,
   ⟨jobbed 0 { job .running with relaxed := true, later := [(0, 0, .hbmRead 0 0 32 0 0)] }, 0,
      { job .running with relaxed := true, later := [(0, 0, .hbmRead 0 0 32 0 0)] }, (0, 0, .hbmRead 0 0 32 0 0),
      by decide +kernel⟩,
   ⟨{ base with mem := { Mem.fresh with copying := [(0, 0, 0, 0)] } }, 0, 0, 0, 0, [], by decide +kernel⟩,
   ⟨base, by decide +kernel⟩,
   ⟨cobbed (fun c => { c with vaux := false }), by decide +kernel⟩⟩

/-- States that meet the hypotheses of each part of `Obligations.CongestionMaps`. -/
theorem witness_congestion_maps :
    (∃ (s : Machine.State),
        barAlive s = true) ∧
    (∃ (s : Machine.State) (t : Machine.State),
        barAlive s = true ∧ s.svc.blocked.length = 34 ∧ exec Instr.congestionWindowEnd s = Outcome.next t) ∧
    (∃ (s : Machine.State) (t : Machine.State) (i : ℕ),
        barAlive s = true ∧ s.svc.blocked.length = 34 ∧ exec Instr.congestionWindowEnd s = Outcome.next t ∧ i < 34) ∧
    (∃ (s : Machine.State) (off : ℕ),
        barAlive s = true ∧ 17412 ≤ off ∧ off < 17536 ∧ off % 4 = 0) :=
  ⟨⟨base, by decide +kernel⟩,
   ⟨base, _, ⟨by decide +kernel, by decide +kernel, rfl⟩⟩,
   ⟨base, _, 33, ⟨by decide +kernel, by decide +kernel, rfl, by decide +kernel⟩⟩,
   ⟨base, 17532, by decide +kernel⟩⟩

/-- States that meet the hypotheses of each part of `Obligations.ServiceRouting`. -/
theorem witness_service_routing :
    (∃ (s : Machine.State) (vc : ℕ) (x : Inject),
        nextInject s vc [] s.svc.inject = some x) ∧
    (∃ (s : Machine.State) (vc : ℕ),
        nextInject s vc [] s.svc.inject = none) ∧
    (∃ (s : Machine.State) (p : Pkt) (rest : List Pkt),
        s.svc.turn = p :: rest) ∧
    (∃ (p : Pkt),
        hdrBad p.hdr = true) ∧
    (∃ (s : Machine.State) (p : Pkt),
        hdrBad p.hdr = false ∧ hReply p.hdr = true ∧ hDest p.hdr = s.dev.coord) ∧
    (∃ (s : Machine.State) (p : Pkt),
        hdrBad p.hdr = false ∧ hReply p.hdr = false ∧ bankOf s p.hdr = none) ∧
    (∃ (s : Machine.State) (p : Pkt) (b : RouteTable),
        hdrBad p.hdr = false ∧ hReply p.hdr = false ∧ bankOf s p.hdr = some b ∧ hMcast p.hdr = 0 ∧
        hSpread p.hdr = false ∧ hValiant p.hdr = false ∧ inPod s (hDest p.hdr) = false) ∧
    (∃ (s : Machine.State) (p : Pkt) (b : RouteTable),
        hdrBad p.hdr = false ∧ hReply p.hdr = false ∧ bankOf s p.hdr = some b ∧ hMcast p.hdr = 0 ∧
        hSpread p.hdr = false ∧ hValiant p.hdr = false ∧ inPod s (hDest p.hdr) = true ∧ hDest p.hdr = s.dev.coord) ∧
    (∃ (s : Machine.State) (p : Pkt) (b : RouteTable),
        hdrBad p.hdr = false ∧ hReply p.hdr = false ∧ bankOf s p.hdr = some b ∧ hMcast p.hdr = 0 ∧
        hSpread p.hdr = false ∧ hValiant p.hdr = false ∧ inPod s (hDest p.hdr) = true ∧ hDest p.hdr ≠ s.dev.coord) ∧
    (∃ (k : ℕ),
        k < 16) ∧
    (∃ (s : Machine.State) (k : ℕ) (vc : ℕ) (u : SvcUnit) (rest : List SvcUnit) (e : ℕ),
        (s.eyelet k).routes.getD vc none = none ∧ (s.eyelet k).rxSvc.getD vc [] = u :: rest ∧ u.first = true ∧
        judgeHeader { s with svc := { s.svc with handledAt := setAt s.svc.handledAt (hEpoch u.payload) (some s.now) } } u.payload k vc = Judged.keep e) ∧
    (∃ (s : Machine.State) (k : ℕ) (vc : ℕ) (u : SvcUnit) (rest : List SvcUnit) (e : ℕ) (v : ℕ) (h : List Byte),
        (s.eyelet k).routes.getD vc none = none ∧ (s.eyelet k).rxSvc.getD vc [] = u :: rest ∧ u.first = true ∧
        judgeHeader { s with svc := { s.svc with handledAt := setAt s.svc.handledAt (hEpoch u.payload) (some s.now) } } u.payload k vc = Judged.out e v h ∧ egressDead { s with svc := { s.svc with handledAt := setAt s.svc.handledAt (hEpoch u.payload) (some s.now) } } e = false) ∧
    (∃ (s : Machine.State) (k : ℕ) (vc : ℕ) (u : SvcUnit) (rest : List SvcUnit),
        (s.eyelet k).routes.getD vc none = none ∧ (s.eyelet k).rxSvc.getD vc [] = u :: rest ∧ u.first = true ∧
        judgeHeader { s with svc := { s.svc with handledAt := setAt s.svc.handledAt (hEpoch u.payload) (some s.now) } } u.payload k vc = Judged.wait) :=
  ⟨⟨{ base with svc := { base.svc with inject := [⟨.chip, pkt 1⟩] } }, 0, ⟨.chip, pkt 1⟩, by decide +kernel⟩,
   ⟨base, 3, by decide +kernel⟩,
   ⟨{ base with svc := { base.svc with turn := [pkt 1] } }, pkt 1, [], by decide +kernel⟩,
   ⟨⟨zeros 240, []⟩, by decide +kernel⟩,
   ⟨base, pkt 0x81, by decide +kernel⟩,
   ⟨base, pkt 1, by decide +kernel⟩,
   ⟨banked, pkt 1 2, bank, by decide +kernel⟩,
   ⟨banked, pkt 1 0, bank, by decide +kernel⟩,
   ⟨banked, pkt 1 1, bank, by decide +kernel⟩,
   ⟨15, by decide +kernel⟩,
   ⟨received (pkt 0x81 0).hdr, 15, 0, svcUnit (pkt 0x81 0).hdr, [], 16, by decide +kernel⟩,
   ⟨received (pkt 1 1).hdr, 15, 0, svcUnit (pkt 1 1).hdr, [], 0, 0, (pkt 1 1).hdr, by decide +kernel⟩,
   ⟨received spread, 15, 1, svcUnit spread, [], by decide +kernel⟩⟩

/-- States that meet the hypotheses of each part of `Obligations.RequestsPerformed`. -/
theorem witness_requests_performed :
    (∃ (s : Machine.State) (k : ℕ) (vc : ℕ) (x : LocalPkt),
        List.find? (fun (p : LocalPkt) => decide (p.ingress = k ∧ p.vc = vc)) s.svc.here = some x ∧ hOp x.pkt.hdr = 1 ∧
        hSkive x.pkt.hdr = false ∧ x.pkt.data.length = hLength x.pkt.hdr ∧
        requestWaits s x.pkt.hdr (hLength x.pkt.hdr) = true) ∧
    (∃ (s : Machine.State) (k : ℕ) (vc : ℕ) (x : LocalPkt),
        List.find? (fun (p : LocalPkt) => decide (p.ingress = k ∧ p.vc = vc)) s.svc.here = some x ∧ hOp x.pkt.hdr = 1 ∧
        hSkive x.pkt.hdr = false ∧ x.pkt.data.length = hLength x.pkt.hdr ∧
        requestWaits s x.pkt.hdr (hLength x.pkt.hdr) = false) ∧
    (∃ (s : Machine.State) (k : ℕ) (vc : ℕ) (x : LocalPkt),
        List.find? (fun (p : LocalPkt) => decide (p.ingress = k ∧ p.vc = vc)) s.svc.here = some x ∧ hOp x.pkt.hdr = 2 ∧
        hSkive x.pkt.hdr = false ∧ requestWaits s x.pkt.hdr (hLength x.pkt.hdr) = true) ∧
    (∃ (s : Machine.State) (k : ℕ) (vc : ℕ) (x : LocalPkt),
        List.find? (fun (p : LocalPkt) => decide (p.ingress = k ∧ p.vc = vc)) s.svc.here = some x ∧ hOp x.pkt.hdr = 2 ∧
        hSkive x.pkt.hdr = false ∧ requestWaits s x.pkt.hdr (hLength x.pkt.hdr) = false) ∧
    (∃ (s : Machine.State) (k : ℕ) (vc : ℕ) (x : LocalPkt),
        List.find? (fun (p : LocalPkt) => decide (p.ingress = k ∧ p.vc = vc)) s.svc.here = some x ∧ hOp x.pkt.hdr = 3 ∧
        hLength x.pkt.hdr = 0) ∧
    (∃ (s : Machine.State) (tile : ℕ) (a : ℕ) (data : List Byte),
        s.job = none ∧ tileEnabled s tile = true ∧ a + data.length ≤ 2 ^ 24 ∧ a < 2 ^ 24) ∧
    (∃ (a : ℕ) (data : List Byte),
        a + data.length ≤ 154618822656) ∧
    (∃ (a : ℕ) (data : List Byte),
        154618822656 < a + data.length) ∧
    (∃ (s : Machine.State) (a : ℕ) (n : ℕ),
        a + n ≤ 154618822656 ∧ hbmBadIn s a n = none) ∧
    (∃ (s : Machine.State) (a : ℕ) (n : ℕ) (w : ℕ),
        a + n ≤ 154618822656 ∧ hbmBadIn s a n = some w) ∧
    (∃ (t : ℕ),
        t < 131072) ∧
    (∃ (t : ℕ),
        131072 ≤ t) :=
  ⟨⟨here 1 { base with mem := { Mem.fresh with copying := [(0, 1, 0, 0)] } }, 16, 0, ⟨16, 0, pkt 1⟩, by decide +kernel⟩,
   ⟨here 1, 16, 0, ⟨16, 0, pkt 1⟩, by decide +kernel⟩,
   ⟨here 2 { base with mem := { Mem.fresh with copying := [(0, 1, 0, 0)] } }, 16, 0, ⟨16, 0, pkt 2⟩, by decide +kernel⟩,
   ⟨here 2, 16, 0, ⟨16, 0, pkt 2⟩, by decide +kernel⟩,
   ⟨here 3, 16, 0, ⟨16, 0, pkt 3⟩, by decide +kernel⟩,
   ⟨base, 127, 2 ^ 24 - 1, [1], by decide +kernel⟩,
   ⟨hbmEnd - 1, [1], by decide +kernel⟩,
   ⟨hbmEnd, [1], by decide +kernel⟩,
   ⟨base, hbmEnd - 32, 32, by decide +kernel⟩,
   ⟨{ base with mem := { Mem.fresh with hbmBad := [0] } }, 31, 1, 0, by decide +kernel⟩,
   ⟨131071, by decide +kernel⟩,
   ⟨131072, by decide +kernel⟩⟩

/-- States that meet the hypotheses of each part of `Obligations.RepliesAndTimeouts`. -/
theorem witness_replies_and_timeouts :
    (∃ (s : Machine.State) (k : ℕ) (vc : ℕ) (x : LocalPkt) (op : ℕ),
        (op = 129 ∨ op = 130 ∨ op = 131) ∧ List.find? (fun (p : LocalPkt) => decide (p.ingress = k ∧
        p.vc = vc)) s.svc.here = some x ∧ hOp x.pkt.hdr = op ∧
        List.find? (fun (y : Txn) => decide (y.id = hTxn x.pkt.hdr)) s.svc.txns = none) ∧
    (∃ (s : Machine.State) (k : ℕ) (vc : ℕ) (x : LocalPkt) (op : ℕ) (y : Txn),
        (op = 129 ∨ op = 130 ∨ op = 131) ∧ List.find? (fun (p : LocalPkt) => decide (p.ingress = k ∧
        p.vc = vc)) s.svc.here = some x ∧ hOp x.pkt.hdr = op ∧
        List.find? (fun (y : Txn) => decide (y.id = hTxn x.pkt.hdr)) s.svc.txns = some y ∧ (op = 130 ↔ y.read = true) ∧
        y.mcast = false ∧ hSkive x.pkt.hdr = false) ∧
    (∃ (s : Machine.State) (y : Txn),
        List.find? (fun (t : Txn) => decide (t.id = y.id)) s.svc.txns = some y) ∧
    (∃ (s : Machine.State) (id : ℕ),
        List.find? (fun (t : Txn) => decide (t.id = id)) s.svc.txns = none) ∧
    (∃ (t : Txn) (l : ℕ) (st : ℕ) (sub : ℕ),
        t.mcast = false ∧ t.answers = [(l, st, sub)] ∧ st = 0) ∧
    (∃ (t : Txn) (l : ℕ) (st : ℕ) (sub : ℕ),
        t.mcast = false ∧ t.answers = [(l, st, sub)] ∧ st ≠ 0) ∧
    (∃ (t : Txn),
        t.mcast = true ∧ (∃ (a : ℕ × ℕ × ℕ), a ∈ t.answers ∧ a.2.1 ≠ 0)) :=
  ⟨⟨here 0x81, 16, 0, ⟨16, 0, pkt 0x81⟩, 0x81, by decide +kernel⟩,
   ⟨{ here 0x82 with svc := { (here 0x82).svc with txns := [txn false true []] } }, 16, 0, ⟨16, 0, pkt 0x82⟩, 0x82,
      txn false true [], by decide +kernel⟩,
   ⟨{ base with svc := { base.svc with txns := [txn false false []] } }, txn false false [], by decide +kernel⟩,
   ⟨base, 65535, by decide +kernel⟩,
   ⟨txn false false [(0, 0, 0)], 0, 0, 0, by decide +kernel⟩,
   ⟨txn false false [(0, 1, 0)], 0, 1, 0, by decide +kernel⟩,
   ⟨txn true false [(0, 0, 0), (1, 1, 0)], by decide +kernel⟩⟩

/-- States that meet the hypotheses of each part of `Obligations.SledPower`. -/
theorem witness_sled_power :
    (∃ (s : Machine.State),
        s.cob.seated = false) ∧
    (∃ (s : Machine.State),
        s.cob.seated = true) ∧
    (∃ (s : Machine.State),
        s.cob.seated = true ∧ s.cob.precharged = true ∧ s.cob.vaux = true ∧ s.cob.booted = false ∧ s.cob.leakLatched = true) ∧
    (∃ (s : Machine.State),
        s.cob.seated = true ∧ s.cob.precharged = true ∧ s.cob.vaux = true ∧ s.cob.booted = false ∧
        s.cob.leakLatched = false ∧ s.cob.valvesOpen = false) ∧
    (∃ (s : Machine.State),
        s.cob.checking = true ∧ s.cob.valvesOpen = true) ∧
    (∃ (s : Machine.State),
        s.cob.checking = true ∧ s.cob.latched = true) ∧
    (∃ (s : Machine.State),
        s.cob.checking = true ∧ s.cob.latched = false ∧ s.cob.cell.ready = true) ∧
    (∃ (s : Machine.State),
        s.cob.checking = true ∧ s.cob.latched = false ∧ s.cob.cell.ready = false) ∧
    (∃ (s : Machine.State) (p : ℕ),
        (chipAt s p).starting = true ∧ (chipAt s p).rail < 6) ∧
    (∃ (s : Machine.State) (p : ℕ),
        (chipAt s p).starting = true ∧ 6 ≤ (chipAt s p).rail) ∧
    (∃ (s : Machine.State) (p : ℕ) (rail : ℕ),
        ((chipAt s p).starting = true ∨ (chipAt s p).rail = 8) ∧ 2 ≤ rail ∧ rail ≤ 7) ∧
    (∃ (s : Machine.State) (p : ℕ) (t0 : ℕ) (reported : Bool),
        (chipAt s p).stopAt = some t0 ∧ reported = false ∧ s.now < t0 + 240 * msTicks) ∧
    (∃ (s : Machine.State) (p : ℕ) (t0 : ℕ) (reported : Bool),
        (chipAt s p).stopAt = some t0 ∧ (reported = true ∨ t0 + 240 * msTicks ≤ s.now) ∧ s.cob.commitAt = none) ∧
    (∃ (s : Machine.State) (p : ℕ) (t0 : ℕ) (reported : Bool) (t1 : ℕ),
        (chipAt s p).stopAt = some t0 ∧ (reported = true ∨ t0 + 240 * msTicks ≤ s.now) ∧ s.cob.commitAt = some t1 ∧
        poweredMask (powerOff (if reported = true ∧ p = s.position then flushChip s else s) p) ≠ 0) ∧
    (∃ (s : Machine.State) (p : ℕ) (t0 : ℕ) (reported : Bool) (t1 : ℕ),
        (chipAt s p).stopAt = some t0 ∧ (reported = true ∨ t0 + 240 * msTicks ≤ s.now) ∧ s.cob.commitAt = some t1 ∧
        poweredMask (powerOff (if reported = true ∧ p = s.position then flushChip s else s) p) = 0) ∧
    (∃ (s : Machine.State),
        s.cob.latched = true ∧ poweredMask s = 0 ∧ s.cob.seated = true ∧ s.cob.cell.present = true ∧ 4800 ≤ s.cob.cell.volts) ∧
    (∃ (s : Machine.State) (p : ℕ),
        chipOn s p = false) ∧
    (∃ (s : Machine.State) (p : ℕ),
        (chipAt s p).rail = 8) :=
  ⟨⟨cobbed (fun c => { c with seated := false }), by decide +kernel⟩,
   ⟨base, by decide +kernel⟩,
   ⟨cobbed (fun c => { c with booted := false, leakLatched := true }), by decide +kernel⟩,
   ⟨cobbed (fun c => { c with booted := false, valvesOpen := false }), by decide +kernel⟩,
   ⟨cobbed (fun c => { c with checking := true }), by decide +kernel⟩,
   ⟨cobbed (fun c => { c with checking := true, latched := true }), by decide +kernel⟩,
   ⟨cobbed (fun c => { c with checking := true }), by decide +kernel⟩,
   ⟨cobbed (fun c => { c with checking := true, cell := { c.cell with ready := false } }), by decide +kernel⟩,
   ⟨chips 5 true, 3, by decide +kernel⟩,
   ⟨chips 6 true, 3, by decide +kernel⟩,
   ⟨chips 8, 3, 7, by decide +kernel⟩,
   ⟨chips 8 false (some 0), 3, 0, false, by decide +kernel⟩,
   ⟨{ chips 8 false (some 0) with now := 240 * msTicks }, 3, 0, false, by decide +kernel⟩,
   ⟨stopping, 3, 0, true, 0, by decide +kernel⟩,
   ⟨{ stopping with cob := { stopping.cob with chips := [⟨1, false, none⟩, ⟨1, false, none⟩, ⟨1, false, none⟩, ⟨8, false, some 0⟩] } },
      3, 0, true, 0, by decide +kernel⟩,
   ⟨cobbed (fun c => { c with latched := true, chips := List.replicate 4 ⟨1, false, none⟩, cell := { c.cell with volts := 4800 } }),
      by decide +kernel⟩,
   ⟨chips 1, 3, by decide +kernel⟩,
   ⟨chips 8, 3, by decide +kernel⟩⟩

/-- States that meet the hypotheses of each part of `Obligations.HoldUpCell`. -/
theorem witness_hold_up_cell :
    (∃ (s : Machine.State),
        s.cob.mainPresent = true ∧ s.cob.cell.present = true ∧ s.cob.cell.isolated = false ∧ 4550 ≤ s.cob.cell.volts) ∧
    (∃ (s : Machine.State),
        s.cob.mainPresent = true ∧ s.cob.cell.present = false) ∧
    (∃ (s : Machine.State),
        s.cob.mainPresent = true ∧ s.cob.cell.present = true ∧ s.cob.cell.volts < 4550) ∧
    (∃ (s : Machine.State) (v : ℕ),
        s.cob.cell.present = true ∧ s.cob.cell.isolated = false ∧ (s.cob.cell.ready = false ∨ 4800 ≤ v) ∧
        (s.cob.onCell = false ∨ s.cob.latched = true)) ∧
    (∃ (s : Machine.State) (v : ℕ),
        s.cob.cell.present = true ∧ s.cob.cell.isolated = false ∧ (s.cob.cell.ready = false ∨ 4800 ≤ v) ∧
        s.cob.onCell = true ∧ s.cob.latched = false ∧ v ≤ 4550) ∧
    (∃ (s : Machine.State) (v : ℕ) (us : ℕ),
        s.cob.cell.present = true ∧ s.cob.cell.isolated = false ∧ (s.cob.cell.ready = false ∨ 4800 ≤ v) ∧
        s.cob.onCell = true ∧ s.cob.latched = false ∧ 4550 < v ∧ us < 5000) ∧
    (∃ (s : Machine.State) (v : ℕ) (us : ℕ),
        s.cob.cell.present = true ∧ s.cob.cell.isolated = false ∧ (s.cob.cell.ready = false ∨ 4800 ≤ v) ∧
        s.cob.onCell = true ∧ s.cob.latched = false ∧ 4550 < v ∧ 5000 ≤ us) ∧
    (∃ (s : Machine.State),
        s.cob.cell.present = true ∧ s.cob.cell.isolated = false ∧ s.cob.cell.ready = false) ∧
    (∃ (s : Machine.State),
        s.cob.cell.charging = true) ∧
    (∃ (s : Machine.State),
        (s.cob.cell.present = false ∨ s.cob.cell.isolated = true)) ∧
    (∃ (s : Machine.State) (f : ℕ),
        s.cob.cell.present = true ∧ s.cob.cell.isolated = false ∧ 320 ≤ f) ∧
    (∃ (s : Machine.State) (f : ℕ),
        s.cob.cell.present = true ∧ s.cob.cell.isolated = false ∧ f < 320) :=
  ⟨⟨cobbed (fun c => { c with cell := { c.cell with volts := 4550 } }), by decide +kernel⟩,
   ⟨cobbed (fun c => { c with cell := { c.cell with present := false } }), by decide +kernel⟩,
   ⟨cobbed (fun c => { c with cell := { c.cell with volts := 4549 } }), by decide +kernel⟩,
   ⟨base, 4800, by decide +kernel⟩,
   ⟨cobbed (fun c => { c with onCell := true, cell := { c.cell with ready := false } }), 4550, by decide +kernel⟩,
   ⟨cobbed (fun c => { c with onCell := true, cell := { c.cell with ready := false } }), 4551, 4999, by decide +kernel⟩,
   ⟨cobbed (fun c => { c with onCell := true, cell := { c.cell with ready := false } }), 4551, 5000, by decide +kernel⟩,
   ⟨cobbed (fun c => { c with cell := { c.cell with ready := false } }), by decide +kernel⟩,
   ⟨cobbed (fun c => { c with cell := { c.cell with charging := true } }), by decide +kernel⟩,
   ⟨cobbed (fun c => { c with cell := { c.cell with isolated := true } }), by decide +kernel⟩,
   ⟨base, 320, by decide +kernel⟩,
   ⟨base, 319, by decide +kernel⟩⟩

/-- States that meet the hypotheses of each part of `Obligations.CoolantAndLeaks`. -/
theorem witness_coolant_and_leaks :
    (∃ (s : Machine.State) (c : ℕ),
        1 ≤ c ∧ c ≤ 4 ∧ conditionHolds s c = true ∧ s.cob.conditions.contains c = false) ∧
    (∃ (s : Machine.State),
        conditionHolds s 5 = true ∧ s.cob.conditions.contains 5 = false) ∧
    (∃ (s : Machine.State) (c : ℕ),
        conditionHolds s c = false) ∧
    (∃ (s : Machine.State) (c : ℕ),
        s.cob.conditions.contains c = true ∧ conditionHolds s c = false) ∧
    (∃ (z : ℕ),
        z % 4 ≠ 0) :=
  ⟨⟨cobbed (fun c => { c with flow := 399 }), 4, by decide +kernel⟩,
   ⟨cobbed (fun c => { c with flow := 399, conditions := [4] }), by decide +kernel⟩,
   ⟨base, 1, by decide +kernel⟩,
   ⟨cobbed (fun c => { c with conditions := [1] }), 1, by decide +kernel⟩,
   ⟨1, by decide +kernel⟩⟩

/-- States that meet the hypotheses of each part of `Obligations.CobblerMessages`. -/
theorem witness_cobbler_messages :
    (∃ (s : Machine.State) (t0 : ℕ),
        s.cob.newFrom = some t0) ∧
    (∃ (s : Machine.State),
        s.cob.restarting = true ∧ s.cob.identified = false) ∧
    (∃ (s : Machine.State),
        s.cob.restarting = true ∧ s.cob.identified = true) ∧
    (∃ (s : Machine.State) (seq : ℕ) (e : SledEvent),
        List.find? (fun (e : SledEvent) => decide (e.seq = seq)) s.cob.events = some e ∧ cobAnswers s = true ∧
        s.cob.identified = true ∧ e.sentAt + 1000 * msTicks ≤ s.now) ∧
    (∃ (s : Machine.State),
        cobAnswers s = true ∧ s.cob.identified = false) ∧
    (∃ (s : Machine.State) (msg : List Byte),
        cobAnswers s = true ∧ apbelHeaderOk 65 msg = true ∧ msg.length = 20) :=
  ⟨⟨cobbed (fun c => { c with newFrom := some 0 }), 0, by decide +kernel⟩,
   ⟨cobbed (fun c => { c with restarting := true }), by decide +kernel⟩,
   ⟨cobbed (fun c => { c with restarting := true, identified := true }), by decide +kernel⟩,
   ⟨{ cobbed (fun c => { c with identified := true, events := [⟨3, [], 0⟩] }) with now := 1000 * msTicks }, 3,
      ⟨3, [], 0⟩, by decide +kernel⟩,
   ⟨base, by decide +kernel⟩,
   ⟨base, apbel 0x41 (zeros 4), by decide +kernel⟩⟩

/-- States that meet the hypotheses of each part of `Obligations.ApbelAddressing`. -/
theorem witness_apbel_addressing :
    (∃ (s : Machine.State) (msg : List Byte),
        Asked s 1 msg ∧ List.drop 16 msg = []) ∧
    (∃ (s : Machine.State) (msg : List Byte),
        Asked s 2 msg ∧ (List.drop 16 msg).length = 16) ∧
    (∃ (s : Machine.State) (msg : List Byte),
        Asked s 2 msg ∧ (List.drop 16 msg).length ≠ 16) ∧
    (∃ (s : Machine.State) (msg : List Byte),
        Asked s 3 msg ∧ (List.drop 16 msg).length = 11 ∧
        shapeOk { x := leAt (List.drop 16 msg) 8 1, y := leAt (List.drop 16 msg) 9 1, z := leAt (List.drop 16 msg) 10 1 } =
        true ∧ (∀ (p : ℕ),
        p < 4 →
        inShape
        { x := leAt (List.drop 16 msg) 8 1, y := leAt (List.drop 16 msg) 9 1, z := leAt (List.drop 16 msg) 10 1 }
        (Coord.ofField (leAt (List.drop 16 msg) (2 * p) 2)) =
        true) ∧ poweredMask s ≠ 15) ∧
    (∃ (s : Machine.State) (msg : List Byte),
        Asked s 3 msg ∧ (List.drop 16 msg).length = 11 ∧
        shapeOk { x := leAt (List.drop 16 msg) 8 1, y := leAt (List.drop 16 msg) 9 1, z := leAt (List.drop 16 msg) 10 1 } =
        true ∧ (∀ (p : ℕ),
        p < 4 →
        inShape
        { x := leAt (List.drop 16 msg) 8 1, y := leAt (List.drop 16 msg) 9 1, z := leAt (List.drop 16 msg) 10 1 }
        (Coord.ofField (leAt (List.drop 16 msg) (2 * p) 2)) =
        true) ∧ poweredMask s = 15) ∧
    (∃ (s : Machine.State) (msg : List Byte),
        Asked s 4 msg ∧ (List.drop 16 msg).length = 5 ∧ leAt (List.drop 16 msg) 0 1 ≤ 15 ∧
        leAt (List.drop 16 msg) 1 2 &&& leAt (List.drop 16 msg) 3 2 = 0 ∧ namesOff s (leAt (List.drop 16 msg) 0 1) = true) ∧
    (∃ (s : Machine.State) (msg : List Byte),
        Asked s 4 msg ∧ (List.drop 16 msg).length = 5 ∧ leAt (List.drop 16 msg) 0 1 ≤ 15 ∧
        leAt (List.drop 16 msg) 1 2 &&& leAt (List.drop 16 msg) 3 2 = 0 ∧ namesOff s (leAt (List.drop 16 msg) 0 1) = false) ∧
    (∃ (s : Machine.State) (msg : List Byte),
        Asked s 8 msg ∧ List.drop 16 msg = []) ∧
    (∃ (s : Machine.State) (msg : List Byte),
        Asked s 16 msg ∧ (List.drop 16 msg).length = 5 ∧ 1 ≤ leAt (List.drop 16 msg) 4 1 ∧ leAt (List.drop 16 msg) 4 1 ≤ 16) :=
  ⟨⟨base, apbel 1 [], by unfold Asked; decide +kernel⟩,
   ⟨base, apbel 2 (zeros 16), by unfold Asked; decide +kernel⟩,
   ⟨base, apbel 2 [], by unfold Asked; decide +kernel⟩,
   ⟨cobbed (fun c => { c with chips := [⟨8, false, none⟩, ⟨8, false, none⟩, ⟨8, false, none⟩, ⟨1, false, none⟩] }),
      apbel 3 (zeros 8 ++ [2, 2, 2]), by unfold Asked; decide +kernel⟩,
   ⟨base, apbel 3 (leBytes 2 0x421 ++ zeros 6 ++ [16, 16, 4]), by unfold Asked; decide +kernel⟩,
   ⟨chips 1, apbel 4 [15, 1, 0, 2, 0], by unfold Asked; decide +kernel⟩,
   ⟨base, apbel 4 [15, 0xFF, 0xFF, 0, 0], by unfold Asked; decide +kernel⟩,
   ⟨base, apbel 8 [], by unfold Asked; decide +kernel⟩,
   ⟨base, apbel 16 [0, 0, 0, 0, 16], by unfold Asked; decide +kernel⟩⟩

/-- States that meet the hypotheses of each part of `Obligations.ApbelPower`. -/
theorem witness_apbel_power :
    (∃ (s : Machine.State) (msg : List Byte),
        Asked s 5 msg ∧ (List.drop 16 msg).length = 4 ∧ leAt (List.drop 16 msg) 0 1 < 16 ∧
        150 ≤ leAt (List.drop 16 msg) 1 2 ∧ leAt (List.drop 16 msg) 1 2 ≤ 900 ∧ leAt (List.drop 16 msg) 3 1 ≤ 32) ∧
    (∃ (s : Machine.State) (msg : List Byte),
        Asked s 5 msg ∧ (List.drop 16 msg).length = 4 ∧
        (leAt (List.drop 16 msg) 1 2 < 150 ∨ 900 < leAt (List.drop 16 msg) 1 2 ∨ 32 < leAt (List.drop 16 msg) 3 1)) ∧
    (∃ (s : Machine.State) (msg : List Byte),
        Asked s 6 msg ∧ (List.drop 16 msg).length = 2 ∧ leAt (List.drop 16 msg) 0 1 < 16 ∧
        leAt (List.drop 16 msg) 1 1 = 1 ∧ namesOff s (leAt (List.drop 16 msg) 0 1) = false) ∧
    (∃ (s : Machine.State) (msg : List Byte),
        Asked s 6 msg ∧ (List.drop 16 msg).length = 2 ∧ leAt (List.drop 16 msg) 0 1 < 16 ∧
        leAt (List.drop 16 msg) 1 1 = 0 ∧ coolantHold s = true) ∧
    (∃ (s : Machine.State) (msg : List Byte),
        Asked s 6 msg ∧ (List.drop 16 msg).length = 2 ∧ leAt (List.drop 16 msg) 0 1 < 16 ∧
        leAt (List.drop 16 msg) 1 1 = 0 ∧ coolantHold s = false ∧ namesOff s (leAt (List.drop 16 msg) 0 1) = false) ∧
    (∃ (s : Machine.State) (msg : List Byte),
        Asked s 7 msg ∧ (List.drop 16 msg).length = 1 ∧ leAt (List.drop 16 msg) 0 1 < 16) ∧
    (∃ (s : Machine.State) (msg : List Byte),
        Asked s 9 msg ∧ (List.drop 16 msg).length = 2 ∧ leAt (List.drop 16 msg) 0 1 < 16 ∧
        leAt (List.drop 16 msg) 1 1 = 1 ∧ (s.cob.leakLatched || s.cob.latched || !s.cob.seated) = true) ∧
    (∃ (s : Machine.State) (msg : List Byte),
        Asked s 9 msg ∧ (List.drop 16 msg).length = 2 ∧ leAt (List.drop 16 msg) 0 1 < 16 ∧
        leAt (List.drop 16 msg) 1 1 = 1 ∧ (s.cob.leakLatched || s.cob.latched || !s.cob.seated) = false) ∧
    (∃ (s : Machine.State) (msg : List Byte),
        Asked s 9 msg ∧ (List.drop 16 msg).length = 2 ∧ leAt (List.drop 16 msg) 0 1 < 16 ∧ leAt (List.drop 16 msg) 1 1 = 0) ∧
    (∃ (s : Machine.State) (msg : List Byte),
        Asked s 10 msg ∧ (List.drop 16 msg).length = 1 ∧ leAt (List.drop 16 msg) 0 1 = 1 ∧
        (s.cob.leakLatched || s.cob.latched || !s.cob.seated) = true) ∧
    (∃ (s : Machine.State) (msg : List Byte),
        Asked s 10 msg ∧ (List.drop 16 msg).length = 1 ∧ leAt (List.drop 16 msg) 0 1 = 1 ∧
        (s.cob.leakLatched || s.cob.latched || !s.cob.seated) = false) ∧
    (∃ (s : Machine.State) (msg : List Byte),
        Asked s 10 msg ∧ (List.drop 16 msg).length = 1 ∧ leAt (List.drop 16 msg) 0 1 = 0) ∧
    (∃ (s : Machine.State) (msg : List Byte),
        Asked s 11 msg ∧ List.drop 16 msg = []) ∧
    (∃ (s : Machine.State) (msg : List Byte),
        Asked s 12 msg ∧ List.drop 16 msg = [] ∧ s.cob.onCell = true) ∧
    (∃ (s : Machine.State) (msg : List Byte),
        Asked s 12 msg ∧ List.drop 16 msg = [] ∧ s.cob.onCell = false) ∧
    (∃ (s : Machine.State) (msg : List Byte),
        Asked s 13 msg ∧ List.drop 16 msg = [] ∧ s.cob.wet ≠ 0) ∧
    (∃ (s : Machine.State) (msg : List Byte),
        Asked s 13 msg ∧ List.drop 16 msg = [] ∧ s.cob.wet = 0 ∧ s.cob.leakLatched = true ∧ s.cob.valvesOpen = false) ∧
    (∃ (s : Machine.State) (msg : List Byte),
        Asked s 14 msg ∧ 5 ≤ (List.drop 16 msg).length ∧ (List.drop 16 msg).length ≤ 1028) ∧
    (∃ (s : Machine.State) (msg : List Byte),
        Asked s 15 msg ∧ (List.drop 16 msg).length = 48 ∧
        (sha384 (s.cob.images.getD (1 - s.cob.running) []) ≠ List.drop 16 msg ∨
        Config.imageSigned (s.cob.images.getD (1 - s.cob.running) []) = false)) ∧
    (Config.imageSigned [] = true → ∃ (s : Machine.State) (msg : List Byte),
        Asked s 15 msg ∧ (List.drop 16 msg).length = 48 ∧
        sha384 (s.cob.images.getD (1 - s.cob.running) []) = List.drop 16 msg ∧
        Config.imageSigned (s.cob.images.getD (1 - s.cob.running) []) = true ∧ s.cob.running < 2) :=
  ⟨⟨base, apbel 5 ([15] ++ leBytes 2 900 ++ [32]), by unfold Asked; decide +kernel⟩,
   ⟨base, apbel 5 ([15] ++ leBytes 2 149 ++ [32]), by unfold Asked; decide +kernel⟩,
   ⟨base, apbel 6 [15, 1], by unfold Asked; decide +kernel⟩,
   ⟨cobbed (fun c => { c with conditions := [4] }), apbel 6 [15, 0], by unfold Asked; decide +kernel⟩,
   ⟨base, apbel 6 [15, 0], by unfold Asked; decide +kernel⟩,
   ⟨base, apbel 7 [15], by unfold Asked; decide +kernel⟩,
   ⟨cobbed (fun c => { c with leakLatched := true }), apbel 9 [15, 1], by unfold Asked; decide +kernel⟩,
   ⟨base, apbel 9 [15, 1], by unfold Asked; decide +kernel⟩,
   ⟨base, apbel 9 [15, 0], by unfold Asked; decide +kernel⟩,
   ⟨cobbed (fun c => { c with latched := true }), apbel 10 [1], by unfold Asked; decide +kernel⟩,
   ⟨base, apbel 10 [1], by unfold Asked; decide +kernel⟩,
   ⟨base, apbel 10 [0], by unfold Asked; decide +kernel⟩,
   ⟨base, apbel 11 [], by unfold Asked; decide +kernel⟩,
   ⟨cobbed (fun c => { c with onCell := true }), apbel 12 [], by unfold Asked; decide +kernel⟩,
   ⟨base, apbel 12 [], by unfold Asked; decide +kernel⟩,
   ⟨cobbed (fun c => { c with wet := 1, leakLatched := true }), apbel 13 [], by unfold Asked; decide +kernel⟩,
   ⟨cobbed (fun c => { c with leakLatched := true, valvesOpen := false }), apbel 13 [], by unfold Asked; decide +kernel⟩,
   ⟨base, apbel 14 (zeros 1028), by unfold Asked; decide +kernel⟩,
   ⟨base, apbel 15 (zeros 48), by unfold Asked; decide +kernel⟩,
   fun h => ⟨base, apbel 15 (sha384 []), by unfold Asked; decide +kernel, by decide +kernel, by decide +kernel, h, by decide +kernel⟩⟩

/-- States that meet the hypotheses of each part of `Obligations.AcousticRequests`. -/
theorem witness_acoustic_requests :
    (∃ (s : Machine.State) (msg : List Byte) (c : MonCfg),
        AskedAcoustic s 1 msg ∧ parseCfg (List.drop 16 msg) = some c) ∧
    (∃ (s : Machine.State) (msg : List Byte),
        AskedAcoustic s 1 msg ∧ parseCfg (List.drop 16 msg) = none) ∧
    (∃ (s : Machine.State) (msg : List Byte),
        AskedAcoustic s 2 msg ∧ (List.drop 16 msg).length = 5 ∧ leAt (List.drop 16 msg) 1 1 < 4) ∧
    (∃ (s : Machine.State) (msg : List Byte),
        AskedAcoustic s 2 msg ∧ (List.drop 16 msg).length = 5 ∧ 4 ≤ leAt (List.drop 16 msg) 1 1) ∧
    (∃ (s : Machine.State) (msg : List Byte),
        (List.drop 16 msg).length = 1 ∧ AskedAcoustic s 3 msg) ∧
    (∃ (s : Machine.State) (msg : List Byte),
        (List.drop 16 msg).length = 1 ∧ AskedAcoustic s 4 msg) ∧
    (∃ (s : Machine.State) (msg : List Byte),
        (List.drop 16 msg).length = 1 ∧ AskedAcoustic s 8 msg) ∧
    (∃ (s : Machine.State) (msg : List Byte),
        AskedAcoustic s 5 msg ∧ leAt (List.drop 16 msg) 1 1 ≤ 7 ∧ 1 ≤ leAt (List.drop 16 msg) 4 2 ∧
        leAt (List.drop 16 msg) 4 2 ≤ 1024 ∧ (List.drop 16 msg).length = 6 + leAt (List.drop 16 msg) 4 2 ∧
        leAt (List.drop 16 msg) 2 2 + leAt (List.drop 16 msg) 4 2 ≤ 6000) ∧
    (∃ (s : Machine.State) (msg : List Byte) (k : MonSlot) (t : MonTemplate),
        AskedAcoustic s 6 msg ∧ (List.drop 16 msg).length = 34 ∧ s.mon.slots[leAt (List.drop 16 msg) 33 1]? = some k ∧
        parseTemplateHeader (slice (List.drop 16 msg) 1 32) k.held = some t) ∧
    (∃ (s : Machine.State) (msg : List Byte) (k : MonSlot),
        AskedAcoustic s 6 msg ∧ (List.drop 16 msg).length = 34 ∧ s.mon.slots[leAt (List.drop 16 msg) 33 1]? = some k ∧
        parseTemplateHeader (slice (List.drop 16 msg) 1 32) k.held = none) ∧
    (∃ (s : Machine.State) (msg : List Byte),
        AskedAcoustic s 7 msg ∧ (List.drop 16 msg).length = 2 ∧ leAt (List.drop 16 msg) 1 1 ≤ 7) :=
  ⟨⟨base, apbel 0x11 [1, 3, 0xC, 0x1F, 0, 16, 0xC0, 0, 1, 1, 15],
      { MonCfg.fresh with holdBlocks := 16, threshold := 192, attack := 1, decay := 1 , channels := 15, featureCh := 1 },
      by unfold AskedAcoustic Asked; decide +kernel⟩,
   ⟨base, apbel 0x11 [1], by unfold AskedAcoustic Asked; decide +kernel⟩,
   ⟨base, apbel 0x11 [2, 3, 0, 0, 0], by unfold AskedAcoustic Asked; decide +kernel⟩,
   ⟨base, apbel 0x11 [2, 4, 0, 0, 0], by unfold AskedAcoustic Asked; decide +kernel⟩,
   ⟨base, apbel 0x11 [3], by unfold AskedAcoustic Asked; decide +kernel⟩,
   ⟨base, apbel 0x11 [4], by unfold AskedAcoustic Asked; decide +kernel⟩,
   ⟨base, apbel 0x11 [8], by unfold AskedAcoustic Asked; decide +kernel⟩,
   ⟨base, apbel 0x11 ([5, 7] ++ leBytes 2 5999 ++ leBytes 2 1 ++ [0]), by unfold AskedAcoustic Asked; decide +kernel⟩,
   ⟨held, apbel 0x11 ([6] ++ templateHeader ++ [7]), { MonSlot.fresh with held := zeros 40 },
      { n := 1, cls := 2, levelFree := false, threshold := 0, chips := 15, bytes := List.replicate 40 0 },
      by unfold AskedAcoustic Asked; decide +kernel⟩,
   ⟨base, apbel 0x11 ([6] ++ templateHeader ++ [7]), MonSlot.fresh, by unfold AskedAcoustic Asked; decide +kernel⟩,
   ⟨base, apbel 0x11 [7, 7], by unfold AskedAcoustic Asked; decide +kernel⟩⟩

/-- States that meet the hypotheses of each part of `Obligations.MonitorStates`. -/
theorem witness_monitor_states :
    (∃ (s : Machine.State),
        s.mon.state = MonState.off ∧ (∀ (i : ℕ), i < 4 → (s.mon.chans.getD i MonChan.fresh).calValid = true) ∧
        s.mon.chans.length = 4) ∧
    (∃ (s : Machine.State),
        s.mon.state = MonState.settling) ∧
    (∃ (s : Machine.State),
        s.mon.state = MonState.active ∧ s.mon.auto = true ∧ s.mon.autoSince + 60000 * msTicks ≤ s.now) ∧
    (∃ (s : Machine.State) (ch : ℕ) (c : MonChan),
        s.mon.chans[ch]? = some c ∧ c.fault = false ∧ s.mon.state ≠ MonState.off) ∧
    (∃ (s : Machine.State) (ch : ℕ) (c : MonChan),
        s.mon.chans[ch]? = some c ∧ c.fault = true) ∧
    (∃ (n : ℕ),
        n ≠ 0) ∧
    (∃ (s : Machine.State) (code : ℕ) (key : ℕ),
        (∃ (t : ℕ), (code, key, t) ∈ s.mon.rates ∧ s.now < t + 1000 * msTicks)) ∧
    (∃ (s : Machine.State) (code : ℕ) (key : ℕ),
        (∀ (t : ℕ), (code, key, t) ∈ s.mon.rates → t + 1000 * msTicks ≤ s.now)) ∧
    (∃ (s : Machine.State) (samples : List (List (ℤ × Bool))),
        s.mon.state ≠ MonState.off ∧ s.mon.stream = none ∧
        (∀ (p : List (ℤ × Bool)), p ∈ samples → ∀ (x : ℤ × Bool), x ∈ p → x.2 = false)) ∧
    (∃ (s : Machine.State) (samples : List (List (ℤ × Bool))) (src : ℕ),
        s.mon.state ≠ MonState.off ∧ s.mon.stream = some src ∧ cobAnswers s = true ∧
        (∀ (p : List (ℤ × Bool)), p ∈ samples → ∀ (x : ℤ × Bool), x ∈ p → x.2 = false)) :=
  ⟨⟨heard' (fun m => { m with state := .off }), by decide +kernel⟩,
   ⟨heard' (fun m => { m with state := .settling }), by decide +kernel⟩,
   ⟨{ heard' (fun m => { m with state := .active, auto := true }) with now := 60000 * msTicks }, by decide +kernel⟩,
   ⟨base, 3, MonChan.fresh, by decide +kernel⟩,
   ⟨chans (fun c => { c with fault := true }), 3, { MonChan.fresh with fault := true }, by decide +kernel⟩,
   ⟨1, by decide +kernel⟩,
   ⟨heard' (fun m => { m with rates := [(0x7001, 3, 0)] }), 0x7001, 3, ⟨0, by decide +kernel⟩⟩,
   ⟨base, 0x7001, 3, fun t h => by cases h⟩,
   ⟨base, [[(1, false)]], by decide +kernel⟩,
   ⟨heard' (fun m => { m with stream := some 1 }), [[(1, false)]], 1, by decide +kernel⟩⟩

/-- States that meet the hypotheses of each part of `Obligations.EnergyTriggers`. -/
theorem witness_energy_triggers :
    (∃ (s : Machine.State) (ch : ℕ) (xs : List ℤ) (c : MonChan),
        s.mon.chans[ch]? = some c ∧ deciding s.mon = true ∧ s.mon.cfg.energyEn = true ∧
        bitOf s.mon.cfg.channels ch = true ∧ c.fault = false ∧ c.invalid = 0 ∧ c.armed = true ∧
        levelOf xs < c.floor.getD (levelOf xs) + s.mon.cfg.threshold) ∧
    (∃ (s : Machine.State) (ch : ℕ) (xs : List ℤ) (c : MonChan),
        s.mon.chans[ch]? = some c ∧ deciding s.mon = true ∧ s.mon.cfg.energyEn = true ∧
        bitOf s.mon.cfg.channels ch = true ∧ c.fault = false ∧ c.invalid = 0 ∧ c.armed = true ∧
        c.floor.getD (levelOf xs) + s.mon.cfg.threshold ≤ levelOf xs ∧ c.loudRun + 1 < s.mon.cfg.holdBlocks) ∧
    (∃ (s : Machine.State) (ch : ℕ) (xs : List ℤ) (c : MonChan),
        s.mon.chans[ch]? = some c ∧ deciding s.mon = true ∧ s.mon.cfg.energyEn = true ∧
        bitOf s.mon.cfg.channels ch = true ∧ c.fault = false ∧ c.invalid = 0 ∧ c.armed = true ∧
        c.floor.getD (levelOf xs) + s.mon.cfg.threshold ≤ levelOf xs ∧ s.mon.cfg.holdBlocks ≤ c.loudRun + 1) ∧
    (∃ (s : Machine.State) (ch : ℕ) (c : MonChan),
        s.mon.chans[ch]? = some c ∧ deciding s.mon = true ∧ s.mon.cfg.energyEn = true ∧
        bitOf s.mon.cfg.channels ch = true ∧ c.fault = false ∧ c.invalid = 0 ∧ c.armed = false) ∧
    (∃ (s : Machine.State) (ch : ℕ) (c : MonChan),
        s.mon.chans[ch]? = some c ∧ settled s.mon = true ∧ s.mon.quiet = true ∧ s.mon.cfg.energyEn = true ∧
        bitOf s.mon.cfg.channels ch = true ∧ c.fault = false ∧ c.invalid = 0) ∧
    (∃ (g : MonCfg) (f : ℤ) (l : ℤ),
        0 ≤ g.attack ∧ 0 ≤ g.decay ∧ f ≤ l) ∧
    (∃ (g : MonCfg) (f : ℤ) (l : ℤ),
        0 ≤ g.attack ∧ 0 ≤ g.decay ∧ l < f) ∧
    (∃ (s : Machine.State) (ch : ℕ) (c : MonChan),
        s.mon.chans[ch]? = some c ∧ c.armed = false ∧ s.mon.quiet = false ∧ c.disarmedAt + 60000 * msTicks ≤ s.now) ∧
    (∃ (s : Machine.State) (ch : ℕ) (l : ℤ) (f : ℤ),
        let a := monEvent s 0x7010 ch [ch, slotOf l, slotOf f]
        let t := if a.mon.cfg.energyWake = true then orderWake a none 0 a.mon.cfg.wakeChips else a
        t.mon.state = MonState.listening ∧ t.mon.cfg.autoActive = true) ∧
    (∃ (s : Machine.State) (ch : ℕ) (l : ℤ) (f : ℤ),
        let a := monEvent s 0x7010 ch [ch, slotOf l, slotOf f]
        let t := if a.mon.cfg.energyWake = true then orderWake a none 0 a.mon.cfg.wakeChips else a
        ¬(t.mon.state = MonState.listening ∧ t.mon.cfg.autoActive = true) ∧ t.mon.auto = true) ∧
    (∃ (s : Machine.State) (ch : ℕ) (l : ℤ) (f : ℤ),
        let a := monEvent s 0x7010 ch [ch, slotOf l, slotOf f]
        let t := if a.mon.cfg.energyWake = true then orderWake a none 0 a.mon.cfg.wakeChips else a
        ¬(t.mon.state = MonState.listening ∧ t.mon.cfg.autoActive = true) ∧ t.mon.auto = false) :=
  ⟨⟨chans (fun c => { c with floor := some (-8128) }), 3, [0], { MonChan.fresh with floor := some (-8128) },
      by decide +kernel⟩,
   ⟨chans (fun c => { c with floor := some (-8896), loudRun := 1 }), 3, [0],
      { MonChan.fresh with floor := some (-8896), loudRun := 1 }, by decide +kernel⟩,
   ⟨chans (fun c => { c with floor := some (-8896), loudRun := 2 }), 3, [0],
      { MonChan.fresh with floor := some (-8896), loudRun := 2 }, by decide +kernel⟩,
   ⟨chans (fun c => { c with armed := false }), 3, { MonChan.fresh with armed := false }, by decide +kernel⟩,
   ⟨heard' (fun m => { m with quiet := true }), 3, MonChan.fresh, by decide +kernel⟩,
   ⟨MonCfg.fresh, 0, 0, by decide +kernel⟩,
   ⟨MonCfg.fresh, 0, -1, by decide +kernel⟩,
   ⟨{ chans (fun c => { c with armed := false }) with now := 60000 * msTicks }, 3,
      { MonChan.fresh with armed := false }, by decide +kernel⟩,
   ⟨heard' (fun m => { m with cfg := { m.cfg with autoActive := true } }), 3, 0, 0, by decide +kernel⟩,
   ⟨heard' (fun m => { m with auto := true }), 3, 0, 0, by decide +kernel⟩,
   ⟨base, 3, 0, 0, by decide +kernel⟩⟩

/-- States that meet the hypotheses of each part of `Obligations.Signatures`. -/
theorem witness_signatures :
    (∃ (s : Machine.State),
        (settled s.mon = false ∨ s.mon.cfg.sigEn = false)) ∧
    (∃ (s : Machine.State) (usable : Bool),
        settled s.mon = true ∧ s.mon.cfg.sigEn = true ∧ usable = false) ∧
    (∃ (s : Machine.State) (usable : Bool),
        settled s.mon = true ∧ s.mon.quiet = true ∧ s.mon.cfg.sigEn = true ∧ usable = true ∧ s.mon.featInvalid = 0 ∧
        (s.mon.chans.getD s.mon.cfg.featureCh MonChan.fresh).fault = false) ∧
    (∃ (s : Machine.State) (usable : Bool),
        deciding s.mon = true ∧ s.mon.cfg.sigEn = true ∧ usable = true ∧ s.mon.featInvalid = 0 ∧
        (s.mon.chans.getD s.mon.cfg.featureCh MonChan.fresh).fault = false) ∧
    (∃ (ms : List (ℕ × MonSlot)),
        (ms.any fun (p : ℕ × MonSlot) => decide ((Option.map (fun (x : MonTemplate) => x.cls) p.2.tmpl).getD 0 = 2)) = true) ∧
    (∃ (t : MonTemplate),
        t.levelFree = false ∧ t.bytes.length = 40) ∧
    (∃ (k : MonSlot) (t : MonTemplate) (d : ℕ),
        k.tmpl = some t ∧ k.lastDist = some d) :=
  ⟨⟨heard' (fun m => { m with state := .off }), by decide +kernel⟩,
   ⟨base, false, by decide +kernel⟩,
   ⟨heard' (fun m => { m with quiet := true }), true, by decide +kernel⟩,
   ⟨base, true, by decide +kernel⟩,
   ⟨[(7, { MonSlot.fresh with tmpl := some leak })], by decide +kernel⟩,
   ⟨{ leak with bytes := List.replicate 40 5 }, by decide +kernel⟩,
   ⟨{ MonSlot.fresh with tmpl := some leak, lastDist := some 3 }, leak, 3, by decide +kernel⟩⟩

/-- States that meet the hypotheses of each part of `Obligations.SkiveLRoundTrip`. -/
theorem witness_skive_l_round_trip :
    (∃ (width : ℕ) (bs : List Byte) (limit : ℕ),
        width ≤ 2 ∧ bs ≠ [] ∧ bs.length % 2 ^ width = 0 ∧ bs.length < 2 ^ 32 ∧ bs.length ≤ limit) :=
  ⟨2, [1, 2, 3, 4], 4, by decide +kernel⟩

end Sys2Proof.Tests
end

/-! A descriptor that is read in its turn and fails a check is refused with BAD_DESCRIPTOR (00 R7, 15 R372). -/
namespace Sys2Proof.Proofs
open Sys2Proof.Machine Sys2Proof.Safety

/-! ### The checks of a descriptor -/

/-- A list with a failing check has a first one. -/
theorem firstFail_of_mem {l : List (Bool × Nat)} {sub : Nat} (h : (false, sub) ∈ l) :
    ∃ sub', firstFail l = some sub' := by
  induction l with
  | nil => exact absurd h List.not_mem_nil
  | cons check rest ih =>
    obtain ⟨ok, sub'⟩ := check
    cases ok with
    | false => exact ⟨sub', rfl⟩
    | true => exact ih ((List.mem_cons.1 h).resolve_left (by simp))

/-- A set reserved bit fails a check, its own or one before it. -/
theorem descCheck_of_reserved {d : Desc} (s : State) (h : reservedClear d.op d.bytes = false) :
    ∃ sub, descCheck s d = some sub := by
  unfold descCheck
  exact firstFail_of_mem (sub := 0x31) (by simp [h])

/-! ### A descriptor whose turn has come -/

/-- Only a ring of the chip has read anything. -/
theorem ring_lt_of_inTurn {s : State} {r slot : Nat} (h : inTurn (s.ring r) slot = true) : r < s.host.rings.length := by
  by_contra hl
  have hfresh : s.ring r = Ring.fresh := List.getD_eq_default _ _ (Nat.le_of_not_lt hl)
  have hmem := inTurn_mem h
  rw [hfresh] at hmem
  exact List.not_mem_nil hmem

/-- Once read, a descriptor stands in its slot, well formed or not. -/
theorem outstOf_taken_of_inTurn {s : State} {d : Desc} (ht : inTurn (s.ring d.ring) d.slot = true)
    (hn : ∀ o ∈ (s.ring d.ring).running, o.slot ≠ d.slot) :
    outstOf (taken s d) d.ring d.slot = some (outstanding d 0) := by
  have hfree : (s.ring d.ring).running.find? (fun o => decide (o.slot = d.slot)) = none :=
    List.find?_eq_none.2 (fun o ho => by simpa using hn o ho)
  unfold outstOf taken
  rw [setRing_ring _ _ _ (ring_lt_of_inTurn ht), List.find?_append, hfree]
  simp [outstanding]

/-- A descriptor command whose turn has come is read. -/
theorem onDesc_of_inTurn {s : State} {d : Desc} (hlen : d.bytes.length = 64)
    (ht : inTurn (s.ring d.ring) d.slot = true) (i : Instr) (run : State → Desc → State) :
    onDesc s d i true run = readDesc s d i run := by
  have hr := inTurn_mem ht
  unfold onDesc
  rw [if_neg (by simp [hlen]), if_pos (by simpa using hr), if_pos ht]

/-- A descriptor that fails a check is refused as soon as it is read, whatever its command would do. -/
theorem readDesc_malformed {s : State} {d : Desc} {sub : Nat} (hc : descCheck s d = some sub) (i : Instr)
    (run : State → Desc → State) : readDesc s d i run = badDesc (taken s d) d sub := by
  unfold readDesc
  dsimp only
  rw [descCheck_setRing, hc]
  rfl

/-- Malformed and read in its turn, a descriptor gets BAD_DESCRIPTOR, and nothing else happens but DESCRIPTOR_REFUSED. -/
theorem onDesc_malformed {s : State} {d : Desc} {sub : Nat} (hlen : d.bytes.length = 64)
    (ht : inTurn (s.ring d.ring) d.slot = true) (hn : ∀ o ∈ (s.ring d.ring).running, o.slot ≠ d.slot)
    (hc : descCheck s d = some sub) (i : Instr) (run : State → Desc → State) :
    Refused (taken s d) (onDesc s d i true run) d stBadDescriptor sub := by
  rw [onDesc_of_inTurn hlen ht, readDesc_malformed hc]
  exact refuseDesc_refused _ d 0 _ sub (outstOf_taken_of_inTurn ht hn)

/-! ### Reserved bits -/

/-- Settles O9: a set reserved bit fails a check of `descCheck`, so the descriptor is malformed. -/
theorem reservedBitsRefused : Obligations.ReservedBitsRefused := by
  intro s i d hi hlen ht hn hres
  obtain ⟨run, hexec⟩ := exec_descriptor hi
  obtain ⟨sub, hc⟩ := descCheck_of_reserved s hres
  exact ⟨_, sub, hexec s, onDesc_malformed hlen ht hn hc i run⟩

end Sys2Proof.Proofs

/-! The tacks: what a read returns after each of their operations, and where every one of them is 0 (15 R382). -/
namespace Sys2Proof.Proofs
open Sys2Proof.Machine Sys2Proof.Safety

/-! ### Association lists -/

theorem assoc_assocSet_same {α β : Type} [DecidableEq α] (k : α) (v : β) (xs : List (α × β)) :
    assoc k (assocSet k v xs) = some v := by
  induction xs with
  | nil => simp [assocSet, assoc]
  | cons p rest ih =>
    by_cases h : p.1 = k
    · simp [assocSet, assoc, h]
    · simp [assocSet, assoc, h, ih]

theorem assoc_assocSet_other {α β : Type} [DecidableEq α] {k x : α} (h : x ≠ k) (v : β) (xs : List (α × β)) :
    assoc x (assocSet k v xs) = assoc x xs := by
  induction xs with
  | nil => simp [assocSet, assoc, h.symm]
  | cons p rest ih =>
    by_cases hp : p.1 = k
    · simp [assocSet, assoc, hp, h.symm]
    · simp [assocSet, assoc, hp, ih]

theorem assoc_assocErase_same {α β : Type} [DecidableEq α] (k : α) (xs : List (α × β)) :
    assoc k (assocErase k xs) = none := by
  induction xs with
  | nil => rfl
  | cons p rest ih =>
    by_cases h : p.1 = k
    · simpa [assocErase, h] using ih
    · simpa [assocErase, assoc, h] using ih

theorem assoc_assocErase_other {α β : Type} [DecidableEq α] {k x : α} (h : x ≠ k) (xs : List (α × β)) :
    assoc x (assocErase k xs) = assoc x xs := by
  induction xs with
  | nil => rfl
  | cons p rest ih =>
    by_cases hp : p.1 = k
    · simpa [assocErase, assoc, hp, h.symm] using ih
    · have hkeep : assocErase k (p :: rest) = p :: assocErase k rest := by simp [assocErase, hp]
      simp only [hkeep, assoc, ih]

/-! ### Reading a tack after a write

A tack at 0 and an empty wait list are not listed, so each write is either a removal or an entry put in place. -/

@[simp] theorem tackGet_tackSet_same (s : State) (t : Nat) (v : Word) : tackGet (tackSet s t v) t = v := by
  unfold tackGet tackSet
  dsimp only
  split
  · next h => rw [assoc_assocErase_same, h]; rfl
  · rw [assoc_assocSet_same]; rfl

theorem tackGet_tackSet_other {t x : Nat} (h : x ≠ t) (s : State) (v : Word) :
    tackGet (tackSet s t v) x = tackGet s x := by
  unfold tackGet tackSet
  dsimp only
  split
  · rw [assoc_assocErase_other h]
  · rw [assoc_assocSet_other h]

@[simp] theorem tackWaiters_tackSet (s : State) (t : Nat) (v : Word) (x : Nat) :
    tackWaiters (tackSet s t v) x = tackWaiters s x := rfl

@[simp] theorem tackWaiters_setWaiters_same (s : State) (t : Nat) (ws : List (Nat × Nat)) :
    tackWaiters (setWaiters s t ws) t = ws := by
  unfold tackWaiters setWaiters
  cases ws with
  | nil => simp [assoc_assocErase_same]
  | cons w rest => simp [assoc_assocSet_same]

theorem tackWaiters_setWaiters_other {t x : Nat} (h : x ≠ t) (s : State) (ws : List (Nat × Nat)) :
    tackWaiters (setWaiters s t ws) x = tackWaiters s x := by
  unfold tackWaiters setWaiters
  cases ws with
  | nil => simp [assoc_assocErase_other h]
  | cons w rest => simp [assoc_assocSet_other h]

@[simp] theorem tackGet_setWaiters (s : State) (t : Nat) (ws : List (Nat × Nat)) (x : Nat) :
    tackGet (setWaiters s t ws) x = tackGet s x := rfl

@[simp] theorem releaseWait_mem (s : State) (t : Nat) (w : Nat × Nat) : (releaseWait s t w).mem = s.mem := by
  unfold releaseWait
  split <;> rfl

@[simp] theorem tackGet_releaseWait (s : State) (t : Nat) (w : Nat × Nat) (x : Nat) :
    tackGet (releaseWait s t w) x = tackGet s x := by
  simp [tackGet]

@[simp] theorem tackWaiters_releaseWait (s : State) (t : Nat) (w : Nat × Nat) (x : Nat) :
    tackWaiters (releaseWait s t w) x = tackWaiters s x := by
  simp [tackWaiters]

/-! ### Releasing the first wait -/

/-- The state in which `w`, the head of the wait list of tack `t`, has been released and `ws` still waits. -/
def headReleased (s : State) (t : Nat) (w : Nat × Nat) (ws : List (Nat × Nat)) : State :=
  releaseWait (setWaiters (tackSet s t (tackGet s t - 1)) t ws) t w

section
variable (s : State) (t : Nat) (w : Nat × Nat) (ws : List (Nat × Nat))

@[simp] theorem tackGet_headReleased_same : tackGet (headReleased s t w ws) t = tackGet s t - 1 := by
  simp [headReleased]

@[simp] theorem tackWaiters_headReleased_same : tackWaiters (headReleased s t w ws) t = ws := by
  simp [headReleased]

theorem tackGet_headReleased_other {x : Nat} (h : x ≠ t) : tackGet (headReleased s t w ws) x = tackGet s x := by
  simp [headReleased, tackGet_tackSet_other h]

theorem tackWaiters_headReleased_other {x : Nat} (h : x ≠ t) :
    tackWaiters (headReleased s t w ws) x = tackWaiters s x := by
  simp [headReleased, tackWaiters_setWaiters_other h]

end

/-! ### Which releases happen -/

theorem releaseWaits_of_zero {s : State} {t : Nat} (h : tackGet s t = 0) (fuel : Nat) : releaseWaits t fuel s = s := by
  cases fuel with
  | zero => rfl
  | succ fuel =>
    unfold releaseWaits
    split
    · rfl
    · exact if_pos h

theorem releaseWaits_of_pos {s : State} {t : Nat} {w : Nat × Nat} {ws : List (Nat × Nat)}
    (hw : tackWaiters s t = w :: ws) (hv : tackGet s t ≠ 0) (fuel : Nat) :
    releaseWaits t (fuel + 1) s = releaseWaits t fuel (headReleased s t w ws) := by
  rw [releaseWaits, hw]
  exact if_neg hv

/-- What every release of a wait of `t` keeps, releasing all that can be released keeps. -/
theorem releaseWaits_induct {P : State → Prop} {t : Nat} (hstep : ∀ u w ws, P u → P (headReleased u t w ws)) :
    ∀ (fuel : Nat) (s : State), P s → P (releaseWaits t fuel s)
  | 0, _, hs => hs
  | fuel + 1, s, hs => by
    unfold releaseWaits
    split
    · exact hs
    · next w ws _ =>
      split
      · exact hs
      · exact releaseWaits_induct hstep fuel _ (hstep s w ws hs)

/-- How many of the waits on a tack its value releases. -/
def releasable (s : State) (t : Nat) : Nat := min (tackWaiters s t).length (tackGet s t).toNat

theorem releasable_of_zero {s : State} {t : Nat} (h : tackGet s t = 0) : releasable s t = 0 := by
  simp [releasable, h]

theorem toNat_sub_one_of_ne_zero {v : Word} (h : v ≠ 0) : (v - 1).toNat = v.toNat - 1 := by
  bv_omega

/-- Each release uses up one wait and one unit of the value. -/
theorem releasable_of_pos {s : State} {t : Nat} {w : Nat × Nat} {ws : List (Nat × Nat)}
    (hw : tackWaiters s t = w :: ws) (hv : tackGet s t ≠ 0) :
    releasable s t = releasable (headReleased s t w ws) t + 1 := by
  have hpos : (tackGet s t).toNat ≠ 0 := fun h => hv (BitVec.eq_of_toNat_eq h)
  simp only [releasable, tackWaiters_headReleased_same, tackGet_headReleased_same, toNat_sub_one_of_ne_zero hv, hw,
    List.length_cons]
  omega

/-- The value and the wait list that are left, with fuel for every wait. -/
theorem releaseWaits_tack {t : Nat} : ∀ (ws : List (Nat × Nat)) (s : State), tackWaiters s t = ws →
    (tackGet (releaseWaits t ws.length s) t).toNat = (tackGet s t).toNat - releasable s t ∧
      tackWaiters (releaseWaits t ws.length s) t = ws.drop (releasable s t)
  | [], s, hw => by simp [releaseWaits, releasable, hw]
  | w :: ws, s, hw => by
    by_cases hv : tackGet s t = 0
    · simp [releaseWaits_of_zero hv, releasable_of_zero hv, hw]
    · obtain ⟨hval, hlist⟩ := releaseWaits_tack ws (headReleased s t w ws) (tackWaiters_headReleased_same s t w ws)
      rw [List.length_cons, releaseWaits_of_pos hw hv, releasable_of_pos hw hv]
      refine ⟨?_, hlist⟩
      rw [hval, tackGet_headReleased_same, toNat_sub_one_of_ne_zero hv]
      omega

theorem releaseWaits_otherTack {t x : Nat} (h : x ≠ t) (fuel : Nat) (s : State) :
    tackGet (releaseWaits t fuel s) x = tackGet s x ∧ tackWaiters (releaseWaits t fuel s) x = tackWaiters s x :=
  releaseWaits_induct (P := fun u => tackGet u x = tackGet s x ∧ tackWaiters u x = tackWaiters s x)
    (fun u w ws hu => by
      rwa [tackGet_headReleased_other u t w ws h, tackWaiters_headReleased_other u t w ws h])
    fuel s ⟨rfl, rfl⟩

/-! ### The holds of a released region -/

/-- Region `r` is not held for tack `t`. -/
def FreeOf (t r : Nat) (s : State) : Prop := Hold.tackWait t ∉ (s.region r).holds

/-- The wait of tile code ends with the hold of its region. -/
theorem releaseWait_tile (s : State) (t : Nat) {w : Nat × Nat} (h : w.1 ≠ 0) :
    releaseWait s t w = setRegion s w.2 (fun g => { g with holds := without (.tackWait t) g.holds }) := by
  unfold releaseWait
  rw [if_neg h]
  rfl

theorem releaseWait_freesRegion (s : State) (t : Nat) {w : Nat × Nat} (h : w.1 ≠ 0) :
    FreeOf t w.2 (releaseWait s t w) := by
  rw [releaseWait_tile s t h, FreeOf]
  by_cases hl : w.2 < s.clk.regions.length
  · simp [setRegion_region _ _ _ hl, without]
  · have hfresh : ((setRegion s w.2 (fun g => { g with holds := without (.tackWait t) g.holds })).region w.2)
        = Region.fresh := mapAt_getD_out _ _ _ _ (Nat.le_of_not_lt hl)
    rw [hfresh]
    exact List.not_mem_nil

/-- No release holds a region. -/
theorem releaseWait_keepsFree {s : State} {t r : Nat} (hf : FreeOf t r s) (w : Nat × Nat) :
    FreeOf t r (releaseWait s t w) := by
  by_cases hk : w.1 = 0
  · have hsame : (releaseWait s t w).region r = s.region r := by
      unfold releaseWait
      rw [if_pos hk]
      rfl
    rwa [FreeOf, hsame]
  · by_cases hr : r = w.2
    · exact hr ▸ releaseWait_freesRegion s t hk
    · rwa [FreeOf, releaseWait_tile s t hk, setRegion_region_other _ _ _ _ hr]

theorem headReleased_keepsFree {t r : Nat} (u : State) (w : Nat × Nat) (ws : List (Nat × Nat)) (h : FreeOf t r u) :
    FreeOf t r (headReleased u t w ws) :=
  releaseWait_keepsFree (s := setWaiters (tackSet u t (tackGet u t - 1)) t ws) h w

theorem releaseWaits_freesRegions {t : Nat} : ∀ (ws : List (Nat × Nat)) (s : State), tackWaiters s t = ws →
    ∀ w ∈ ws.take (releasable s t), w.1 ≠ 0 → FreeOf t w.2 (releaseWaits t ws.length s)
  | [], _, _ => by simp
  | w :: ws, s, hw => by
    by_cases hv : tackGet s t = 0
    · simp [releasable_of_zero hv]
    · rw [releasable_of_pos hw hv, List.take_succ_cons, List.length_cons, releaseWaits_of_pos hw hv]
      intro x hx hk
      rcases List.mem_cons.1 hx with rfl | hx
      · exact releaseWaits_induct headReleased_keepsFree _ _ (releaseWait_freesRegion _ t hk)
      · exact releaseWaits_freesRegions ws _ (tackWaiters_headReleased_same s t w ws) x hx hk

/-! ### The three operations -/

/-- The waits that an add releases are those that the value after it can release. -/
theorem releasable_tackSet (s : State) (t : Nat) (v : Word) :
    releasable (tackSet s t v) t = min (tackWaiters s t).length v.toNat := by
  simp [releasable]

theorem tackAdd_tack (s : State) (t : Nat) (a : Word) :
    (tackGet (tackAdd s t a) t).toNat =
        (tackGet s t + a).toNat - min (tackWaiters s t).length (tackGet s t + a).toNat ∧
      tackWaiters (tackAdd s t a) t =
        (tackWaiters s t).drop (min (tackWaiters s t).length (tackGet s t + a).toNat) := by
  have h := releaseWaits_tack (t := t) _ (tackSet s t (tackGet s t + a)) rfl
  rwa [releasable_tackSet, tackGet_tackSet_same] at h

theorem tackAdd_otherTack {t x : Nat} (h : x ≠ t) (s : State) (a : Word) :
    tackGet (tackAdd s t a) x = tackGet s x ∧ tackWaiters (tackAdd s t a) x = tackWaiters s x := by
  obtain ⟨hval, hlist⟩ := releaseWaits_otherTack h
    (tackWaiters (tackSet s t (tackGet s t + a)) t).length (tackSet s t (tackGet s t + a))
  exact ⟨hval.trans (tackGet_tackSet_other h _ _), hlist⟩

theorem tackAdd_freesRegions (s : State) (t : Nat) (a : Word) :
    ∀ w ∈ (tackWaiters s t).take (min (tackWaiters s t).length (tackGet s t + a).toNat), w.1 ≠ 0 →
      FreeOf t w.2 (tackAdd s t a) := by
  rw [← releasable_tackSet]
  exact releaseWaits_freesRegions _ _ rfl

theorem tackWait_zero {s : State} {t : Nat} (h : tackGet s t = 0) (w : Nat × Nat) :
    tackWait s t w = (setWaiters s t (tackWaiters s t ++ [w]), false) := by
  unfold tackWait
  rw [if_neg (by simp [h])]

/-- The SIGNAL of a final completion is add(1), once the descriptor has left its slot (R366, R382). -/
theorem endOutst_signal (s : State) (r : Nat) {c : Cpl} {t : Nat} (hf : c.final = true) (ha : c.answers = true)
    (hs : c.signal = some t) :
    endOutst s r c = tackAdd (setRing s r (fun x =>
      { x with running := x.running.filter (fun o => decide (o.slot ≠ c.index)) })) t 1 := by
  unfold endOutst
  rw [hf, ha, hs]
  rfl

/-! ### Where every tack is 0 -/

theorem tackGet_of_noTacks {s : State} (h : s.mem.tacks = []) (x : Nat) : tackGet s x = 0 := by
  rw [tackGet, h]
  rfl

theorem applyReleases_mem (s : State) : (applyReleases s).mem = s.mem := by
  unfold applyReleases
  split
  · rfl
  · refine List.foldlRecOn (motive := fun u : State => u.mem = s.mem) _ _ rfl (fun u hu k _ => ?_)
    split <;> exact hu

theorem sledEvent_mem (s : State) (code : Nat) (slots : List Nat) : (sledEvent s code slots).mem = s.mem := by
  obtain ⟨_, _, _, _, h⟩ := sledEvent_recorded s code slots
  split at h
  · obtain ⟨_, _, _, h⟩ := h
    rw [h]
    rfl
  · rw [h]

theorem releaseAgain_mem (s : State) : (releaseAgain s).mem = s.mem := by
  unfold releaseAgain
  dsimp only
  split
  · rw [sledEvent_mem, applyReleases_mem]
  · exact applyReleases_mem s

/-- COLD_COMPLETE clears the tacks with the memories (R42, R512); what follows leaves them alone. -/
theorem coldComplete_noTacks {s : State} {xlat : List Nat} (hc : s.dev.state = .cold) (hl : s.clk.locked = true)
    (hn : xlat.length = 80) (hx : ∀ n ∈ xlat, n ≤ 6) (v : Nat) (damaged : List Nat) :
    ∃ t, exec (.coldComplete xlat (some v) damaged) s = .next t ∧ t.mem.tacks = [] := by
  have hcal : xlat.findIdx? (fun n => decide (6 < n)) = none := by
    simpa [List.findIdx?_eq_none_iff] using hx
  have hexec : exec (.coldComplete xlat (some v) damaged) s = execColdComplete xlat (some v) damaged s := rfl
  rw [hexec, execColdComplete, if_neg (by simp [hc, hl, hn]), hcal]
  refine ⟨_, rfl, ?_⟩
  dsimp only
  rw [releaseAgain_mem]
  rfl

theorem functionLevelReset_noTacks {s : State} (h : barAlive s = true) :
    ∃ t, exec .functionLevelReset s = .next t ∧ t.mem.tacks = [] := by
  have hexec : exec .functionLevelReset s = execFunctionLevelReset s := rfl
  rw [hexec, execFunctionLevelReset, if_neg (by simp [h])]
  refine ⟨_, rfl, ?_⟩
  dsimp only
  split <;> rfl

/-- Settles O8: an add releases waits from the head of the list, by induction on the list; each release takes one wait and one
unit of the value. That a wait joins a list of any length is the model's choice (log entry 50). -/
theorem tackOperations : Obligations.TackOperations := by
  refine ⟨fun s t a => ?_, fun s t w => ⟨fun hv => ?_, fun hv => ?_⟩,
    fun s r c t hf ha hs => endOutst_signal s r hf ha hs, fun t => tackGet_of_noTacks rfl t,
    fun s xlat v damaged hc hl hn hx => ?_, fun s hs => ?_, rfl⟩
  · obtain ⟨hval, hlist⟩ := tackAdd_tack s t a
    exact ⟨hval, hlist, fun x hx => tackAdd_otherTack hx s a, tackAdd_freesRegions s t a⟩
  · simp [tackWait_pos hv]
  · simp [tackWait_zero hv, hv]
  · obtain ⟨u, hu, htacks⟩ := coldComplete_noTacks hc hl hn hx v damaged
    exact ⟨u, hu, tackGet_of_noTacks htacks⟩
  · obtain ⟨u, hu, htacks⟩ := functionLevelReset_noTacks hs
    exact ⟨u, hu, tackGet_of_noTacks htacks⟩

end Sys2Proof.Proofs

/-! The set-up registers: what a command to them does while BAR0 answers (20). -/
namespace Sys2Proof.Proofs
open Sys2Proof.Machine

/-- What a register command does while BAR0 answers (R486). -/
theorem onBar_of_alive {s : State} (h : barAlive s = true) (f : State → State) : onBar s f = .next (f s) := by
  rw [onBar, if_pos h]

end Sys2Proof.Proofs

/-! The captures of staged blocks: each APPLY that passes its checks sets the capture anew, whatever stood there (20 R496). -/
namespace Sys2Proof.Proofs
open Sys2Proof.Machine Sys2Proof.Safety

/-! ### The doorbell block -/

/-- A condition that holds is no failure. -/
theorem check_of_true {ok : Bool} (h : ok = true) (cause off : Nat) : check ok cause off = [] := if_pos h

/-- The doorbell block with its staged values captured. -/
def doorbellCaptured (s : State) : State :=
  { s with regs := { s.regs with dbCaptured := some (s.regs.dbBase, s.regs.dbCtl) } }

theorem doorbellApply_passes {s : State} (hlo : 1 ≤ s.regs.dbCtl.toNat % 256) (hhi : s.regs.dbCtl.toNat % 256 ≤ 200)
    (hbase : s.regs.dbBase % 4096 = 0) (hctl : s.regs.dbCtl.toNat < 512) : doorbellApply s = doorbellCaptured s := by
  unfold doorbellApply
  dsimp only
  rw [check_of_true (by simp [hlo, hhi]), check_of_true (by simp [hbase]),
    check_of_true (by simp [Nat.div_eq_of_lt hctl])]
  rfl

theorem leaveSetup_regs (s : State) : (leaveSetup s).regs = s.regs := by
  unfold leaveSetup
  split
  · split <;> rfl
  · rfl

theorem issuePoll_regs (s : State) : (issuePoll s).regs = s.regs := by
  unfold issuePoll
  split <;> rfl

theorem doorbellApply_exec {s : State} {v : Word} (h : barAlive s = true) (hv : v.getLsbD 0 = true) :
    exec (.doorbellApply v) s = .next (doorbellApply s) := by
  have hexec : exec (.doorbellApply v) s = execDoorbellApply v s := rfl
  rw [hexec, execDoorbellApply, onBar_of_alive h, if_pos hv]

/-- With no doorbell read outstanding, the pending capture becomes the active block and none is pending. -/
theorem doorbellApplyEffect_activates {s : State} {base : Nat} {ctl : Word} (h : barAlive s = true)
    (hc : s.regs.dbCaptured = some (base, ctl)) (ho : s.host.dbOutstanding = false) :
    ∃ u, exec .doorbellApplyEffect s = .next u ∧
      u.regs = { s.regs with dbActiveBase := base, dbActiveCtl := ctl, dbCaptured := none } := by
  have hexec : exec .doorbellApplyEffect s = execDoorbellApplyEffect s := rfl
  rw [hexec, execDoorbellApplyEffect, onBar_of_alive h, hc]
  refine ⟨_, rfl, ?_⟩
  dsimp only
  rw [if_neg (by simp [ho])]
  split
  · split
    · rw [issuePoll_regs, leaveSetup_regs]
    · rw [leaveSetup_regs]
  · exact leaveSetup_regs _

/-! ### The margin block -/

/-- The margin block with its staged thresholds captured. -/
def marginCaptured (s : State) : State :=
  { s with regs := { s.regs with marginCaptured := some s.regs.marginStaged } }

theorem marginApply_passes {s : State} (h : critOf s.regs.marginStaged < warnOf s.regs.marginStaged) :
    marginApply s = marginCaptured s := by
  unfold marginApply
  dsimp only
  rw [check_of_true (by simpa using h)]
  rfl

theorem marginApply_exec {s : State} {v : Word} (h : barAlive s = true) (hv : v.getLsbD 0 = true) :
    exec (.marginApply v) s = .next (marginApply s) := by
  have hexec : exec (.marginApply v) s = execMarginApply v s := rfl
  rw [hexec, execMarginApply, onBar_of_alive h, if_pos hv]

theorem marginApplyEffect_activates {s : State} {w : Word} (h : barAlive s = true)
    (hc : s.regs.marginCaptured = some w) :
    exec .marginApplyEffect s =
      .next { s with regs := { s.regs with marginActive := w, marginCaptured := none } } := by
  have hexec : exec .marginApplyEffect s = execMarginApplyEffect s := rfl
  rw [hexec, execMarginApplyEffect, onBar_of_alive h, hc]

/-! ### The ring table -/

/-- Ring `r` has its staged entry captured. -/
def ringCaptured (s : State) (r : Nat) : State :=
  setRing s r (fun x => { x with captured := some (ringEntry s.regs.ringStaged r) })

theorem ringApplyOne_passes {s : State} {r : Nat} (h : worst (ringFails r (ringEntry s.regs.ringStaged r)) = none) :
    ringApplyOne s r = ringCaptured s r := by
  unfold ringApplyOne
  dsimp only
  rw [h]
  rfl

/-- The rings of `named` have their staged entries captured; nothing else differs. -/
def RingsCaptured (s t : State) (named : List Nat) : Prop :=
  (∃ rs, t = { s with host := { s.host with rings := rs } }) ∧ t.host.rings.length = s.host.rings.length ∧
    ∀ r, r < s.host.rings.length → t.ring r =
      if r ∈ named then { s.ring r with captured := some (ringEntry s.regs.ringStaged r) } else s.ring r

theorem ringCaptured_ringsCaptured (s : State) (r : Nat) : RingsCaptured s (ringCaptured s r) [r] := by
  refine ⟨⟨_, rfl⟩, Laws.mapAt_length _ _ _, fun x hx => ?_⟩
  by_cases hr : x = r
  · subst hr
    rw [ringCaptured, setRing_ring _ _ _ hx, if_pos (List.mem_singleton_self x)]
  · rw [ringCaptured, setRing_ring_other _ _ _ _ hr, if_neg (mt List.mem_singleton.1 hr)]

/-- A ring named once more has the same entry captured, whatever capture stood there. -/
theorem RingsCaptured.cons {s t u : State} {r : Nat} {named : List Nat} (h : RingsCaptured s t [r])
    (h' : RingsCaptured t u named) : RingsCaptured s u (r :: named) := by
  obtain ⟨⟨rs, rfl⟩, hlen, hring⟩ := h
  obtain ⟨⟨rs', rfl⟩, hlen', hring'⟩ := h'
  refine ⟨⟨_, rfl⟩, hlen'.trans hlen, fun x hx => ?_⟩
  rw [hring' x (hlen.symm ▸ hx), hring x hx]
  by_cases hn : x ∈ named
  · rw [if_pos hn, if_pos (List.mem_cons_of_mem r hn)]
    split <;> rfl
  · simp [hn]

theorem foldl_ringApplyOne {named : List Nat} : ∀ {s : State},
    (∀ r ∈ named, worst (ringFails r (ringEntry s.regs.ringStaged r)) = none) →
    RingsCaptured s (named.foldl ringApplyOne s) named := by
  induction named with
  | nil => exact fun _ => ⟨⟨_, rfl⟩, rfl, fun _ _ => rfl⟩
  | cons r named ih =>
    intro s h
    obtain ⟨hr, hnamed⟩ := List.forall_mem_cons.1 h
    rw [List.foldl_cons, ringApplyOne_passes hr]
    exact (ringCaptured_ringsCaptured s r).cons (ih hnamed)

theorem mem_maskedRings {mask r : Nat} : r ∈ (List.range 64).filter (bitOf mask) ↔ r < 64 ∧ bitOf mask r = true := by
  simp

theorem ringApply_passes {s : State} {mask : Nat}
    (h : ∀ r, r < 64 → bitOf mask r = true → worst (ringFails r (ringEntry s.regs.ringStaged r)) = none) :
    RingsCaptured s (ringApply s mask) ((List.range 64).filter (bitOf mask)) := by
  refine foldl_ringApplyOne fun r hr => ?_
  obtain ⟨hlt, hbit⟩ := mem_maskedRings.1 hr
  exact h r hlt hbit

theorem ringApply_exec {s : State} (h : barAlive s = true) (mask : DWord) :
    exec (.ringApply mask) s = .next (ringApply s mask.toNat) := by
  have hexec : exec (.ringApply mask) s = execRingApply mask s := rfl
  rw [hexec, execRingApply, onBar_of_alive h]

/-- Settles O28: a capture that passes its checks is written over what stood there, so the effect finds the later one. -/
theorem laterCaptureReplaces : Obligations.LaterCaptureReplaces := by
  refine ⟨fun s v hs hv hlo hhi hbase hctl => ?_, fun s v hs hv hmargin => ?_, fun s mask hs hlen hpass => ?_⟩
  · rw [doorbellApply_exec hs hv, doorbellApply_passes hlo hhi hbase hctl]
    refine ⟨_, rfl, rfl, fun ho => ?_⟩
    obtain ⟨u, hu, hregs⟩ := doorbellApplyEffect_activates (s := doorbellCaptured s) hs rfl ho
    exact ⟨u, hu, by simp [hregs, doorbellCaptured]⟩
  · rw [marginApply_exec hs hv, marginApply_passes hmargin]
    exact ⟨_, rfl, rfl, marginApplyEffect_activates (s := marginCaptured s) hs rfl⟩
  · obtain ⟨⟨rs, ht⟩, -, hring⟩ := ringApply_passes hpass
    refine ⟨_, rs, ringApply_exec hs mask, ht, fun r hr => ?_⟩
    rw [hring r (hlen.symm ▸ hr)]
    exact if_congr (mem_maskedRings.trans (and_iff_right hr)) rfl rfl

end Sys2Proof.Proofs

/-! The grace period of an eyelet: who sets it, and the hold that begins with it (10 R254, 20 R504). -/
namespace Sys2Proof.Proofs
open Sys2Proof.Machine Sys2Proof.Safety

/-! ### The register -/

theorem setAt_getD_same {α : Type} {xs : List α} {i : Nat} (h : i < xs.length) (x d : α) :
    (setAt xs i x).getD i d = x := by
  simp [setAt, List.getD_eq_getElem?_getD, h]

theorem setAt_getD_other {α : Type} {i j : Nat} (h : j ≠ i) (xs : List α) (x d : α) :
    (setAt xs i x).getD j d = xs.getD j d := by
  simp [setAt, List.getD_eq_getElem?_getD, List.getElem?_set_ne h.symm]

theorem graceMsWrite_exec {s : State} (h : barAlive s = true) (k ms : Nat) :
    exec (.graceMsWrite k ms) s = .next (graceWrite s k ms) := by
  have hexec : exec (.graceMsWrite k ms) s = execGraceMsWrite k ms s := rfl
  rw [hexec, execGraceMsWrite, onBar_of_alive h]

theorem graceWrite_taken {ms : Nat} (hlo : 1 ≤ ms) (hhi : ms ≤ 1000) (s : State) (k : Nat) :
    graceWrite s k ms = { s with regs := { s.regs with graceMs := setAt s.regs.graceMs k ms } } := if_pos ⟨hlo, hhi⟩

theorem graceWrite_ignored {ms : Nat} (h : ms = 0 ∨ 1000 < ms) (s : State) (k : Nat) :
    graceWrite s k ms = event s 0x1080 [0x3010 + 256 * k] := if_neg (by omega)

/-! ### The hold -/

/-- Eyelet `k` has left UP and its hold has begun; no event is recorded yet. -/
def holdBegun (s : State) (k : Nat) (next : LinkState) : State :=
  setEyelet s k (fun e =>
    { dropLink (settleBackoff s.now e) next with graceUntil := some (s.now + s.regs.graceMs.getD k 50 * msTicks) })

/-- Whatever happened to the one eyelet, it now is what it is. -/
theorem OnlyEyelet.fixed {s t : State} {k : Nat} {f : Eyelet → Eyelet} (h : OnlyEyelet s t k f) :
    OnlyEyelet s t k (fun _ => t.eyelet k) := by
  obtain ⟨hes, hlen, -, hother⟩ := h
  exact ⟨hes, hlen, rfl, hother⟩

theorem holdBegun_graceUntil {s : State} {k : Nat} (h : k < s.eyelets.length) (next : LinkState) :
    ((holdBegun s k next).eyelet k).graceUntil = some (s.now + s.regs.graceMs.getD k 50 * msTicks) := by
  rw [holdBegun, setEyelet_eyelet _ _ _ h]

theorem holdBegun_only {s : State} {k : Nat} (h : k < s.eyelets.length) (next : LinkState) :
    OnlyEyelet s (holdBegun s k next) k (fun _ => (holdBegun s k next).eyelet k) :=
  OnlyEyelet.fixed (setEyelet_only _ h)

/-- An eyelet that leaves UP begins its hold, with the period in force at that moment, before anything is recorded. -/
theorem leaveUp_begins_hold {s : State} {k : Nat} (h : k < s.eyelets.length) (cause : Nat) (notice : Bool)
    (next : LinkState) : ∃ w, OnlyEyelet s w k (fun _ => w.eyelet k) ∧
      (w.eyelet k).graceUntil = some (s.now + s.regs.graceMs.getD k 50 * msTicks) ∧
      leaveUp s k cause notice next = laceLinkDown (event (event w 0x2202 [k, cause]) 0x2208 [k]) k := by
  cases notice with
  | false => exact ⟨holdBegun s k next, holdBegun_only h next, holdBegun_graceUntil h next, rfl⟩
  | true =>
    have hsent := sendNow_only (miniUnit [0x08, byteOf cause]) h
    have hk : k < (sendNow s k (miniUnit [0x08, byteOf cause])).eyelets.length := by
      rwa [sendNow, setEyelet_eyelets, Laws.mapAt_length]
    exact ⟨holdBegun (sendNow s k (miniUnit [0x08, byteOf cause])) k next,
      OnlyEyelet.fixed (hsent.then (holdBegun_only hk next)), holdBegun_graceUntil hk next, rfl⟩

/-- Settles O27: a write sets a register and no eyelet (R488, R504), and the hold reads that register once, as it begins
(R253, R254). That the events carry the eyelet first is the model's choice (log entry 21). -/
theorem gracePeriod : Obligations.GracePeriod := by
  refine ⟨fun s k ms hs hlo hhi hk => ?_, fun s k ms hs hms => ?_,
    fun s k cause notice next hk => leaveUp_begins_hold hk cause notice next⟩
  · rw [graceMsWrite_exec hs, graceWrite_taken hlo hhi]
    exact ⟨_, rfl, rfl, fun _ => rfl, setAt_getD_same hk ms 50, fun x hx => setAt_getD_other hx _ ms 50⟩
  · rw [graceMsWrite_exec hs, graceWrite_ignored hms]

end Sys2Proof.Proofs

/-! The congestion maps: the bytes of a map, and the registers that show the two of them (11 R286, R287, 20 R509). -/
namespace Sys2Proof.Proofs
open Sys2Proof.Machine Sys2Proof.Safety

/-! ### Little-endian bytes -/

@[simp] theorem leBytes_length (k n : Nat) : (leBytes k n).length = k := by
  induction k generalizing n with
  | zero => rfl
  | succ k ih => simp [leBytes, ih]

@[simp] theorem byteOf_toNat (n : Nat) : (byteOf n).toNat = n % 256 := by
  simp [byteOf]

theorem leNat_leBytes (k n : Nat) : leNat (leBytes k n) = n % 256 ^ k := by
  induction k generalizing n with
  | zero => simp [leBytes, leNat, Nat.mod_one]
  | succ k ih => rw [leBytes, leNat, ih, byteOf_toNat, pow_succ', Nat.mod_mul]

/-- The number at the head of a list, where its bytes are known. -/
theorem leAt_leBytes_append (k n : Nat) (bs : List Byte) : leAt (leBytes k n ++ bs) 0 k = n % 256 ^ k := by
  have hslice : slice (leBytes k n ++ bs) 0 k = leBytes k n := List.take_left' (leBytes_length k n)
  rw [leAt, hslice, leNat_leBytes]

/-- A number of one byte is that byte. -/
theorem leAt_one (bs : List Byte) (o : Nat) : leAt bs o 1 = (byteAt bs o).toNat := by
  unfold leAt slice byteAt
  rw [List.getD_eq_getElem?_getD, ← List.head?_drop]
  cases bs.drop o with
  | nil => rfl
  | cons b rest => simp [leNat]

/-! ### The map of a window -/

/-- The congestion map of window `window`, in which the units counted in `blocked` were blocked (Table 11.8). -/
def windowMap (window : Nat) (blocked : List Nat) : List Byte :=
  leBytes 8 window ++ blocked.map (fun n => byteOf (level n)) ++ zeros 22

theorem windowMap_length (window : Nat) (blocked : List Nat) :
    (windowMap window blocked).length = blocked.length + 30 := by
  simp [windowMap, zeros]
  omega

theorem windowMap_number (window : Nat) (blocked : List Nat) : leAt (windowMap window blocked) 0 8 = window % 2 ^ 64 := by
  rw [windowMap, List.append_assoc, leAt_leBytes_append]
  norm_num

/-- A level fits its byte. -/
theorem byteOf_level_toNat (n : Nat) : (byteOf (level n)).toNat = level n := by
  rw [byteOf_toNat]
  exact Nat.mod_eq_of_lt (Nat.lt_succ_of_le (Nat.min_le_left _ _))

theorem windowMap_level (window : Nat) {blocked : List Nat} {i : Nat} (h : i < blocked.length) :
    leAt (windowMap window blocked) (8 + i) 1 = level (blocked.getD i 0) := by
  have hbyte : byteAt (windowMap window blocked) (8 + i) = byteOf (level (blocked.getD i 0)) := by
    unfold byteAt windowMap
    rw [List.getD_append _ _ _ _ (by simpa using h), List.getD_append_right _ _ _ _ (by simp)]
    simp [h]
  rw [leAt_one, hbyte, byteOf_level_toNat]

theorem congestionWindowEnd_exec {s : State} (h : barAlive s = true) :
    exec .congestionWindowEnd s = .next { s with svc := { s.svc with
      previousMap := s.svc.recentMap
      recentMap := windowMap (s.clk.ws / 2 ^ 20 - 1) s.svc.blocked
      blocked := List.replicate 34 0 } } := by
  have hexec : exec .congestionWindowEnd s = execCongestionWindowEnd s := rfl
  rw [hexec, execCongestionWindowEnd, if_neg (by simp [h])]
  rfl

/-! ### The registers -/

theorem congestionSnapshotRead_exec {s : State} (h : barAlive s = true) :
    exec .congestionSnapshotRead s = .next { s with
      regs := { s.regs with congSnap := some (liveMaps s) }
      host := { s.host with out := s.host.out ++ [.readData 0x4400 ((liveMaps s).take 4)] } } := by
  have hexec : exec .congestionSnapshotRead s = execCongestionSnapshotRead s := rfl
  rw [hexec, execCongestionSnapshotRead, onBar_of_alive h]
  rfl

/-- The words from 0x4400 are those of the maps. -/
theorem bar0Word_congestion (s : State) {off : Nat} (hlo : 0x4400 ≤ off) (hhi : off < 0x4480) :
    bar0Word s off =
      leAt (if off = 0x4400 then liveMaps s else s.regs.congSnap.getD (liveMaps s)) (off - 0x4400) 4 := by
  unfold bar0Word
  repeat rw [if_neg (by omega)]
  rw [if_pos ⟨hlo, hhi⟩, wordIn]

/-- Settles O45: the window that ends gives the bytes of the map, and only words from 0x4404 on come from the snapshot. -/
theorem congestionMaps : Obligations.CongestionMaps := by
  refine ⟨fun s hs => congestionWindowEnd_exec hs, fun s hs hlen t ht => ?_, fun s hs => ⟨?_, ?_, fun off hlo hhi _ => ?_⟩⟩
  · rw [congestionWindowEnd_exec hs] at ht
    obtain rfl := Host.Outcome.next.inj ht
    exact ⟨by rw [windowMap_length, hlen], windowMap_number _ _, fun i hi => windowMap_level _ (by rwa [hlen])⟩
  · exact congestionSnapshotRead_exec hs
  · exact bar0Word_congestion s (by decide) (by decide)
  · rw [bar0Word_congestion s (by omega) hhi, if_neg (by omega)]
    cases s.regs.congSnap <;> rfl

end Sys2Proof.Proofs
/-! What every command keeps, whatever it is, and so what every step keeps (95, log entries 2 and 3). -/
namespace Sys2Proof.Proofs
open Sys2Proof.Machine Sys2Proof.Safety Sys2Proof.Laws

/-- Whatever a command does, it touches neither the queue, the time nor the sled position, and keeps the invariant. -/
theorem exec_kept {s t : State} : ∀ c : Instr, exec c s = .next t → Kept s t
  | .generatorLock, h => execGeneratorLock_kept s h
  | .coldComplete xlat firmware damaged, h => execColdComplete_kept xlat firmware damaged s h
  | .functionLevelReset, h => execFunctionLevelReset_kept s h
  | .conventionalReset, h => execConventionalReset_kept s h
  | .deviceFault cause, h => execDeviceFault_kept cause s h
  | .referenceLost, h => execReferenceLost_kept s h
  | .referenceRelock, h => execReferenceRelock_kept s h
  | .stitchBoundary late, h => execStitchBoundary_kept late s h
  | .paceSlewEnd, h => execPaceSlewEnd_kept s h
  | .lateUnitDepart eyelet lace unit, h => execLateUnitDepart_kept eyelet lace unit s h
  | .handshakeAck region ecc addr, h => execHandshakeAck_kept region ecc addr s h
  | .slipPointAlign, h => execSlipPointAlign_kept s h
  | .stepControlLost, h => execStepControlLost_kept s h
  | .slipAnnounce, h => execSlipAnnounce_kept s h
  | .resumeRelease, h => execResumeRelease_kept s h
  | .marginWindowEnd loops, h => execMarginWindowEnd_kept loops s h
  | .paceChangeOutsideJob, h => execPaceChangeOutsideJob_kept s h
  | .governorPeriodStart temps halfAmps, h => execGovernorPeriodStart_kept temps halfAmps s h
  | .governorApply status, h => execGovernorApply_kept status s h
  | .throttleBegin region, h => execThrottleBegin_kept region s h
  | .coolantValuesReceived inlet flow, h => execCoolantValuesReceived_kept inlet flow s h
  | .coolantStale, h => execCoolantStale_kept s h
  | .cobblerHold, h => execCobblerHold_kept s h
  | .cobblerHoldRelease, h => execCobblerHoldRelease_kept s h
  | .capUpdate powerCap paceCap, h => execCapUpdate_kept powerCap paceCap s h
  | .powerStop, h => execPowerStop_kept s h
  | .powerStopTimeout, h => execPowerStopTimeout_kept s h
  | .wakeOrder source, h => execWakeOrder_kept source s h
  | .pmeSent, h => execPmeSent_kept s h
  | .hbmPatrolScrub page, h => execHbmPatrolScrub_kept page s h
  | .refreshDue bank, h => execRefreshDue_kept bank s h
  | .pageRetireCopyDone, h => execPageRetireCopyDone_kept s h
  | .congestionWindowEnd, h => execCongestionWindowEnd_kept s h
  | .healthRecordWrite, h => execHealthRecordWrite_kept s h
  | .doorbellPoll, h => execDoorbellPoll_kept s h
  | .doorbellReadComplete words, h => execDoorbellReadComplete_kept words s h
  | .hostDmaFault kind ring index addr desc, h => execHostDmaFault_kept kind ring index addr desc s h
  | .deferredCompletionWrite ring, h => execDeferredCompletionWrite_kept ring s h
  | .evtOverrun ring, h => execEvtOverrun_kept ring s h
  | .msixModTimeout vector, h => execMsixModTimeout_kept vector s h
  | .msixUnmask vector, h => execMsixUnmask_kept vector s h
  | .nop d, h => execNop_kept d s h
  | .query d, h => execQuery_kept d s h
  | .loadLast d image arr sched, h => execLoadLast_kept d image arr sched s h
  | .loadWeights d blob siblings, h => execLoadWeights_kept d blob siblings s h
  | .unload d, h => execUnload_kept d s h
  | .jobOpen d, h => execJobOpen_kept d s h
  | .jobStart d, h => execJobStart_kept d s h
  | .barrierReady, h => execBarrierReady_kept s h
  | .js0Release, h => execJs0Release_kept s h
  | .barrierTimeout, h => execBarrierTimeout_kept s h
  | .barrierSelfEnd, h => execBarrierSelfEnd_kept s h
  | .jobDrain d, h => execJobDrain_kept d s h
  | .jobDrainComplete, h => execJobDrainComplete_kept s h
  | .jobClose d, h => execJobClose_kept d s h
  | .jobCheckpoint d, h => execJobCheckpoint_kept d s h
  | .checkpointImageWrite reqs, h => execCheckpointImageWrite_kept reqs s h
  | .jobRelast d image arr ckpt sched, h => execJobRelast_kept d image arr ckpt sched s h
  | .setBudget d, h => execSetBudget_kept d s h
  | .setPaceLimit d, h => execSetPaceLimit_kept d s h
  | .tileRetire d, h => execTileRetire_kept d s h
  | .linkRetrain d, h => execLinkRetrain_kept d s h
  | .pageRetire d, h => execPageRetire_kept d s h
  | .tableLoadRouting d image, h => execTableLoadRouting_kept d image s h
  | .tableLoadPeer d image, h => execTableLoadPeer_kept d image s h
  | .tableLoadTemplate d image, h => execTableLoadTemplate_kept d image s h
  | .templateLoadComplete, h => execTemplateLoadComplete_kept s h
  | .tableLoadKey d image, h => execTableLoadKey_kept d image s h
  | .logRead d, h => execLogRead_kept d s h
  | .req d input, h => execReq_kept d input s h
  | .solve d problems, h => execSolve_kept d problems s h
  | .shankProblemDone, h => execShankProblemDone_kept s h
  | .xferWrite d data mask, h => execXferWrite_kept d data mask s h
  | .xferRead d, h => execXferRead_kept d s h
  | .xferTackAdd d mask, h => execXferTackAdd_kept d mask s h
  | .interruptModerationApply value, h => execInterruptModerationApply_kept value s h
  | .doorbellApply value, h => execDoorbellApply_kept value s h
  | .doorbellApplyEffect, h => execDoorbellApplyEffect_kept s h
  | .ringApply mask, h => execRingApply_kept mask s h
  | .ringApplyEffect ring, h => execRingApplyEffect_kept ring s h
  | .paceApply value, h => execPaceApply_kept value s h
  | .marginApply value, h => execMarginApply_kept value s h
  | .marginApplyEffect, h => execMarginApplyEffect_kept s h
  | .applyErrClear offset, h => execApplyErrClear_kept offset s h
  | .ringApplyErrClear mask, h => execRingApplyErrClear_kept mask s h
  | .debugLock, h => execDebugLock_kept s h
  | .policyLock, h => execPolicyLock_kept s h
  | .sigPolicyWrite value, h => execSigPolicyWrite_kept value s h
  | .graceMsWrite eyelet ms, h => execGraceMsWrite_kept eyelet ms s h
  | .complTimeoutWrite ms, h => execComplTimeoutWrite_kept ms s h
  | .registerWrite offset size value, h => execRegisterWrite_kept offset size value s h
  | .lowWordReadLatch offset, h => execLowWordReadLatch_kept offset s h
  | .congestionSnapshotRead, h => execCongestionSnapshotRead_kept s h
  | .recentSnapshotRead entry, h => execRecentSnapshotRead_kept entry s h
  | .busMasterEnable on, h => execBusMasterEnable_kept on s h
  | .powerstateD3hot pmcsr, h => execPowerstateD3hot_kept pmcsr s h
  | .powerstateD0 pmcsr, h => execPowerstateD0_kept pmcsr s h
  | .trainingSequence eyelet lanes sustained ownOk, h => execTrainingSequence_kept eyelet lanes sustained ownOk s h
  | .trainingStateTimeout eyelet, h => execTrainingStateTimeout_kept eyelet s h
  | .codewordLock eyelet, h => execCodewordLock_kept eyelet s h
  | .backoffExpiry eyelet, h => execBackoffExpiry_kept eyelet s h
  | .codewordReceived eyelet marker data symbolErrors, h => execCodewordReceived_kept eyelet marker data symbolErrors s h
  | .markerLoss eyelet lane, h => execMarkerLoss_kept eyelet lane s h
  | .exchange eyelet item, h => execExchange_kept eyelet item s h
  | .exchangeResend eyelet, h => execExchangeResend_kept eyelet s h
  | .latProbeSend eyelet, h => execLatProbeSend_kept eyelet s h
  | .latProbe eyelet item turn, h => execLatProbe_kept eyelet item turn s h
  | .latEcho eyelet item round, h => execLatEcho_kept eyelet item round s h
  | .creditInit eyelet item, h => execCreditInit_kept eyelet item s h
  | .weltUnitReceived eyelet item, h => execWeltUnitReceived_kept eyelet item s h
  | .ack eyelet item, h => execAck_kept eyelet item s h
  | .nak eyelet item, h => execNak_kept eyelet item s h
  | .ackDue eyelet, h => execAckDue_kept eyelet s h
  | .resendTimeout eyelet, h => execResendTimeout_kept eyelet s h
  | .tongueResendTimeout eyelet, h => execTongueResendTimeout_kept eyelet s h
  | .creditReportSend eyelet, h => execCreditReportSend_kept eyelet s h
  | .creditReport eyelet item, h => execCreditReport_kept eyelet item s h
  | .downNotice eyelet item, h => execDownNotice_kept eyelet item s h
  | .idle eyelet item, h => execIdle_kept eyelet item s h
  | .graceExpiry eyelet, h => execGraceExpiry_kept eyelet s h
  | .offer eyelet item, h => execOffer_kept eyelet item s h
  | .offerPart eyelet item, h => execOfferPart_kept eyelet item s h
  | .ready eyelet item, h => execReady_kept eyelet item s h
  | .start eyelet item, h => execStart_kept eyelet item s h
  | .abort eyelet item, h => execAbort_kept eyelet item s h
  | .slip eyelet item, h => execSlip_kept eyelet item s h
  | .slipReady eyelet item, h => execSlipReady_kept eyelet item s h
  | .resume eyelet item, h => execResume_kept eyelet item s h
  | .stop eyelet item, h => execStop_kept eyelet item s h
  | .pace eyelet item, h => execPace_kept eyelet item s h
  | .serviceHeaderRoute eyelet vc, h => execServiceHeaderRoute_kept eyelet vc s h
  | .write eyelet vc, h => execWrite_kept eyelet vc s h
  | .read eyelet vc, h => execRead_kept eyelet vc s h
  | .tackAdd eyelet vc, h => execTackAdd_kept eyelet vc s h
  | .writeDone eyelet vc, h => execWriteDone_kept eyelet vc s h
  | .readData eyelet vc, h => execReadData_kept eyelet vc s h
  | .tackDone eyelet vc, h => execTackDone_kept eyelet vc s h
  | .completionTimeout txn, h => execCompletionTimeout_kept txn s h
  | .fetchTimeout tack, h => execFetchTimeout_kept tack s h
  | .sledInsertion, h => execSledInsertion_kept s h
  | .presenceBreak, h => execPresenceBreak_kept s h
  | .mainLost centivolts, h => execMainLost_kept centivolts s h
  | .cellSample centivolts mainUs, h => execCellSample_kept centivolts mainUs s h
  | .powerRemoval position reported, h => execPowerRemoval_kept position reported s h
  | .sledRestart, h => execSledRestart_kept s h
  | .railGood position, h => execRailGood_kept position s h
  | .railFault position rail, h => execRailFault_kept position rail s h
  | .cellReady, h => execCellReady_kept s h
  | .cellFull, h => execCellFull_kept s h
  | .cellInserted centivolts, h => execCellInserted_kept centivolts s h
  | .cellCapacitanceCheck millifarads, h => execCellCapacitanceCheck_kept millifarads s h
  | .coolantCondition condition, h => execCoolantCondition_kept condition s h
  | .coolantConditionClear condition, h => execCoolantConditionClear_kept condition s h
  | .coolantUpdate inlet outlet flow wet, h => execCoolantUpdate_kept inlet outlet flow wet s h
  | .leak zone, h => execLeak_kept zone s h
  | .fwRollback, h => execFwRollback_kept s h
  | .eventResend seq, h => execEventResend_kept seq s h
  | .sledPresent, h => execSledPresent_kept s h
  | .identify src msg, h => execIdentify_kept src msg s h
  | .setAddress src msg, h => execSetAddress_kept src msg s h
  | .setCoord src msg, h => execSetCoord_kept src msg s h
  | .eyeletCtrl src msg, h => execEyeletCtrl_kept src msg s h
  | .setCaps src msg, h => execSetCaps_kept src msg s h
  | .apbelHold src msg, h => execApbelHold_kept src msg s h
  | .apbelRelease src msg, h => execApbelRelease_kept src msg s h
  | .wake src msg, h => execWake_kept src msg s h
  | .sensors src msg, h => execSensors_kept src msg s h
  | .chipPowerOn src msg, h => execChipPowerOn_kept src msg s h
  | .chipPowerOff src msg, h => execChipPowerOff_kept src msg s h
  | .sledPowerOn src msg, h => execSledPowerOn_kept src msg s h
  | .sledPowerOff src msg, h => execSledPowerOff_kept src msg s h
  | .swapPrepare src msg, h => execSwapPrepare_kept src msg s h
  | .cellPrepare src msg, h => execCellPrepare_kept src msg s h
  | .clearLeak src msg, h => execClearLeak_kept src msg s h
  | .fwWrite src msg, h => execFwWrite_kept src msg s h
  | .fwActivate src msg, h => execFwActivate_kept src msg s h
  | .apbelLogRead src msg, h => execApbelLogRead_kept src msg s h
  | .eventAck src msg, h => execEventAck_kept src msg s h
  | .configure src msg, h => execConfigure_kept src msg s h
  | .calWrite src msg, h => execCalWrite_kept src msg s h
  | .streamStart src msg, h => execStreamStart_kept src msg s h
  | .streamStop src msg, h => execStreamStop_kept src msg s h
  | .templateData src msg, h => execTemplateData_kept src msg s h
  | .templateCommit src msg, h => execTemplateCommit_kept src msg s h
  | .templateClear src msg, h => execTemplateClear_kept src msg s h
  | .acousticStatus src msg, h => execAcousticStatus_kept src msg s h
  | .monitorStart, h => execMonitorStart_kept s h
  | .monitorSettled, h => execMonitorSettled_kept s h
  | .acousticFrameBoundary samples, h => execAcousticFrameBoundary_kept samples s h
  | .energyBlock channel samples, h => execEnergyBlock_kept channel samples s h
  | .featureVector vector usable, h => execFeatureVector_kept vector usable s h
  | .micFault channel, h => execMicFault_kept channel s h
  | .micRecovery channel, h => execMicRecovery_kept channel s h
  | .autoActiveTimeout, h => execAutoActiveTimeout_kept s h
  | .energyRearmTimeout channel, h => execEnergyRearmTimeout_kept channel s h
  | .valveQuietEnd, h => execValveQuietEnd_kept s h
  | .unitOpportunity eyelet, h => execUnitOpportunity_kept eyelet s h
  | .cobblerBoot, h => execCobblerBoot_kept s h
  | .flowLeakCheckEnd ok, h => execFlowLeakCheckEnd_kept ok s h
  | .cobblerRestartComplete healthy, h => execCobblerRestartComplete_kept healthy s h
  | .vaux33Lost, h => execVaux33Lost_kept s h

/-! ### The two forms of a step -/

theorem step_front {s : State} {c : Instr} {rest : List Instr} (h : s.pending = c :: rest) :
    step s = exec c { s with pending := rest } := by
  rw [step, h]

theorem step_ready {s : State} {i : Instr} {rest : List Instr} (h : s.pending = []) (hr : s.ready = i :: rest) :
    step s = exec i { s with ready := rest } := by
  simp only [step, h, idle, hr]

theorem step_time {s : State} (h : s.pending = []) (hr : s.ready = []) : step s = .next { s with now := s.now + 1 } := by
  simp only [step, h, idle, hr]

/-- Every step keeps the invariant: it is one command, on a state that differs in its queues at most, or time passes. -/
theorem step_inv {s t : State} (hi : Inv s) (h : step s = .next t) : Inv t := by
  cases hp : s.pending with
  | cons c rest => exact (exec_kept c ((step_front hp).symm.trans h)).inv hi
  | nil =>
    cases hr : s.ready with
    | cons i rest => exact (exec_kept i ((step_ready hp hr).symm.trans h)).inv hi
    | nil =>
      rw [step_time hp hr] at h
      obtain rfl := Host.Outcome.next.inj h
      exact hi

/-- Settles O4: a step is one command or the passing of time, and each command keeps the invariant. -/
theorem stepKeepsInvariant : Obligations.StepKeepsInvariant :=
  fun _ _ hi h => step_inv hi h

/-- Settles O3. That no command moves the time is the model's choice (log entry 2). -/
theorem commandsKeepQueueTimePosition : Obligations.CommandsKeepQueueTimePosition := by
  intro c s t h
  have hk := exec_kept c h
  exact ⟨hk.pending, hk.now, hk.position⟩

/-- Settles O1. -/
theorem stepRunsTheFrontCommand : Obligations.StepRunsTheFrontCommand :=
  fun _ _ _ h => step_front h

/-- Settles O2. -/
theorem idleStep : Obligations.IdleStep :=
  fun _ h => ⟨fun _ _ hr => step_ready h hr, fun hr => step_time h hr⟩

/-! ### After reset -/

/-- Settles O5, part by part. -/
theorem resetMeetsInvariant : Obligations.ResetMeetsInvariant :=
  ⟨MemOk.fresh, ClkOk.fresh, HostOk.fresh, SvcOk.fresh, HeelOk.fresh, ShankOk.fresh, CobOk.fresh, MonOk.fresh,
    List.length_replicate, List.length_replicate⟩

end Sys2Proof.Proofs

/-! What can be read right after reset (20 "At reset", 19 R512). -/
namespace Sys2Proof.Proofs
open Sys2Proof.Machine Sys2Proof.Safety

theorem memRead_nil (a n : Nat) : memRead [] a n = zeros n := by
  simp [memRead, memGet, zeros]

theorem reset_eyelet (k : Nat) : State.reset.eyelet k = Eyelet.fresh := List.getElem?_getD_replicate_default_eq _ 16 k

theorem reset_ring (r : Nat) : State.reset.ring r = Ring.fresh := List.getElem?_getD_replicate_default_eq _ 64 r

/-- The words of BAR0 that 20 gives an "At reset" value, each at its offset. -/
theorem reset_words :
    (readWord State.reset 0x208).1 = 20 ∧ (readWord State.reset 0x4000).1 = 24 ∧ (readWord State.reset 0x4004).1 = 24 ∧
      (readWord State.reset 0x4100).1 = 0x0208 ∧ (readWord State.reset 0x4104).1 = 0x0208 ∧
      (readWord State.reset 0x4110).1 = 0x8C8C8C8C ∧ (readWord State.reset 0x411C).1 = 780 + 24 * 65536 ∧
      (readWord State.reset 0x4220).1 = 2000 ∧ (readWord State.reset 0x4300).1 = 0xFFFF0000 ∧
      (readWord State.reset 0x5044).1 = 0 ∧ (readWord State.reset 0xF000).1 = 0 ∧ (readWord State.reset 0xF004).1 = 0 := by
  decide +kernel

theorem reset_graceMs : ∀ k, k < 16 → State.reset.regs.graceMs.getD k 0 = 50 := by decide

/-- Settles O6. That the chip stands in SETUP at WS 0 is the model's choice (log entry 6). -/
theorem resetValues : Obligations.ResetValues := by
  obtain ⟨h1, h2, h3, h4, h5, h6, h7, h8, h9, h10, h11, h12⟩ := reset_words
  exact ⟨h1, h2, h3, h4, h5, h6, h7, h8, h9, h10, h11, h12,
    fun k hk => ⟨congrArg Eyelet.state (reset_eyelet k), reset_graceMs k hk⟩,
    fun _ a n => ⟨memRead_nil _ n, memRead_nil a n⟩, fun _ => rfl, reset_ring, rfl, rfl, rfl, rfl, rfl, rfl⟩

end Sys2Proof.Proofs

/-! The byte memories: what a write puts into them, and what it leaves (03 R56, R61, 12 R289, R291). -/
namespace Sys2Proof.Proofs
open Sys2Proof.Machine Sys2Proof.Safety

/-- What is written is what is read back. -/
theorem memRead_memWrite {m : Memory} (h : m.wf = true) (a : Nat) (bs : List Byte) :
    memRead (memWrite m a bs) a bs.length = bs := by
  apply List.ext_getElem
  · simp [memRead]
  · intro i hi _
    have hlt : i < bs.length := by simpa [memRead] using hi
    simp [memRead, Laws.memGet_memWrite h, hlt]

theorem memGet_memWrite_outside {m : Memory} (h : m.wf = true) {a k : Nat} {bs : List Byte}
    (hk : k < a ∨ a + bs.length ≤ k) : memGet (memWrite m a bs) k = memGet m k := by
  rw [Laws.memGet_memWrite h, if_neg (by omega)]

/-- The marks that stay are those of the words that are not covered. -/
theorem mem_filter_not (P : Nat → Prop) [DecidablePred P] {marks : List Nat} {g : Nat} :
    g ∈ marks.filter (fun g => !decide (P g)) ↔ g ∈ marks ∧ ¬P g := by
  simp [List.mem_filter]

/-- Settles O7: both writes are `memWrite`, and drop the marks of the words that they cover whole. -/
theorem memoryReadAfterWrite : Obligations.MemoryReadAfterWrite := by
  refine ⟨fun s tile a bs h => ?_, fun s a bs h => ?_⟩ <;> obtain ⟨hins, hhbm⟩ := h
  · exact ⟨memRead_memWrite hins _ bs, ⟨Laws.memWrite_wf _ bs hins, hhbm⟩, rfl, rfl,
      fun k hk => memGet_memWrite_outside hins hk, fun _ => mem_filter_not _⟩
  · exact ⟨memRead_memWrite hhbm _ bs, ⟨hins, Laws.memWrite_wf _ bs hhbm⟩, rfl, rfl,
      fun k hk => memGet_memWrite_outside hhbm hk, fun _ => mem_filter_not _⟩

end Sys2Proof.Proofs

/-! Descriptors that do not act: malformed, forbidden by the state, or waiting; and the add that ends a wait (15 R372, R382,
R383, 16 R396). -/
namespace Sys2Proof.Proofs
open Sys2Proof.Machine Sys2Proof.Safety

/-- Settles O10. -/
theorem malformedRefused : Obligations.MalformedRefused := by
  intro s i d sub hi hlen ht hn hc
  obtain ⟨run, hexec⟩ := exec_descriptor hi
  exact ⟨_, hexec s, onDesc_malformed hlen ht hn hc i run⟩

/-- A descriptor that the state forbids is refused where it would act. -/
theorem onDesc_illegal {s : State} {d : Desc} {sub : Nat} (hg : Goes s d) (hl : legality s d.op = some sub) (i : Instr)
    (run : State → Desc → State) : Refused (begun s d) (onDesc s d i true run) d stBadState sub := by
  obtain ⟨hrun, ho⟩ := onDesc_goes hg i run
  rw [hrun, hl]
  exact refuseDesc_refused _ d 2 _ sub ho

/-- Settles O11. -/
theorem illegalStateRefused : Obligations.IllegalStateRefused := by
  intro s i d sub hi hg hl
  obtain ⟨run, hexec⟩ := exec_descriptor hi
  exact ⟨_, hexec s, onDesc_illegal hg hl i run⟩

/-! ### A descriptor that waits -/

/-- The state in which descriptor `d` of command `i` has joined the wait list of its tack. -/
def parked (s : State) (d : Desc) (i : Instr) : State :=
  let u := setWaiters (taken s d) d.tack (tackWaiters s d.tack ++ [(0, 65536 * d.ring + d.slot)])
  { u with held := s.held ++ [(65536 * d.ring + d.slot, i)] }

/-- Well formed, with WAIT on a tack at 0, a descriptor waits. -/
theorem readDesc_waits {s : State} {d : Desc} (hc : descCheck s d = none) (hw : d.flag 1 = true)
    (ht : tackGet s d.tack = 0) (i : Instr) (run : State → Desc → State) : readDesc s d i run = parked s d i := by
  unfold readDesc
  dsimp only
  rw [descCheck_setRing, hc]
  dsimp only
  rw [if_pos hw, tackWait_zero (by rw [tackGet_setRing]; exact ht)]
  rfl

theorem tackWaiters_parked (s : State) (d : Desc) (i : Instr) :
    tackWaiters (parked s d i) d.tack = tackWaiters s d.tack ++ [(0, 65536 * d.ring + d.slot)] :=
  tackWaiters_setWaiters_same (taken s d) d.tack _

/-- Settles O12. That it joins a list of any length is the model's choice (log entry 50). -/
theorem waitingDescriptorIsHeld : Obligations.WaitingDescriptorIsHeld := by
  intro s i d hi hread hw ht
  obtain ⟨run, hexec⟩ := exec_descriptor hi
  have hout := outstOf_taken hread
  obtain ⟨hlen, hturn, -, hc⟩ := hread
  refine ⟨parked s d i, ?_, hout, tackWaiters_parked s d i, _, rfl⟩
  rw [hexec, onDesc_of_inTurn hlen hturn, readDesc_waits hc hw ht]

/-! ### The end of a wait -/

/-- With one waiter, an add that leaves the value above 0 releases it. -/
theorem tackAdd_one {s : State} {t : Nat} {a : Word} {w : Nat × Nat} (h0 : tackGet s t = 0) (ha : a ≠ 0)
    (hw : tackWaiters s t = [w]) : tackAdd s t a = headReleased (tackSet s t a) t w [] := by
  have hset : tackWaiters (tackSet s t a) t = [w] := hw
  have hv : tackGet (tackSet s t a) t ≠ 0 := by rwa [tackGet_tackSet_same]
  unfold tackAdd
  rw [h0, zero_add]
  dsimp only
  rw [hset, List.length_singleton, releaseWaits_of_pos hset hv]
  rfl

/-- The release of a descriptor's wait takes its slot out of phase 0. -/
theorem releaseWait_phase {s : State} {t ring slot : Nat} (hs : slot < 65536) :
    ∀ o ∈ ((releaseWait s t (0, 65536 * ring + slot)).ring ring).running, o.slot = slot → o.phase ≠ 0 := by
  have hdiv : (65536 * ring + slot) / 65536 = ring := by omega
  have hmod : (65536 * ring + slot) % 65536 = slot := by omega
  have hring : (releaseWait s t (0, 65536 * ring + slot)).ring ring = (setRing s ring (fun x =>
      { x with running := x.running.map (fun o => if o.slot = slot ∧ o.phase = 0 then { o with phase := 1 } else o) })).ring
        ring := by
    unfold releaseWait
    rw [if_pos rfl, hdiv, hmod]
    rfl
  rw [hring]
  by_cases hl : ring < s.host.rings.length
  · rw [setRing_ring _ _ _ hl]
    intro o ho hslot
    obtain ⟨p, -, rfl⟩ := List.mem_map.1 ho
    by_cases hp : p.slot = slot ∧ p.phase = 0
    · simp [hp]
    · rw [if_neg hp] at hslot ⊢
      exact fun h0 => hp ⟨hslot, h0⟩
  · have hfresh : ∀ f, (setRing s ring f).ring ring = Ring.fresh := fun f => mapAt_getD_out _ _ _ _ (Nat.le_of_not_lt hl)
    rw [hfresh]
    exact fun _ ho => absurd ho List.not_mem_nil

/-- Of the held commands, the one whose wait ends becomes ready. -/
theorem releaseWait_ready {s : State} {t n : Nat} {i : Instr} (hh : s.held = [(n, i)]) (hr : s.ready = []) :
    (releaseWait s t (0, n)).ready = [i] ∧ (releaseWait s t (0, n)).held = [] := by
  unfold releaseWait
  simp [hh, hr]

/-- Settles O13. That the released descriptor starts at the next step on an empty queue is the model's choice (log entry
3). -/
theorem tackReleasesDescriptor : Obligations.TackReleasesDescriptor := by
  intro s tack ring slot a i h0 ha hslot hw hheld hready hpend
  dsimp only
  obtain ⟨hrdy, hhld⟩ := releaseWait_ready (s := setWaiters (tackSet (tackSet s tack a) tack (a - 1)) tack [])
    (t := tack) hheld hready
  have hpend' : (tackAdd s tack a).pending = [] := ((tackAdd_only s tack a).pending).trans hpend
  rw [tackAdd_one h0 ha hw] at hpend' ⊢
  have hrel : headReleased (tackSet s tack a) tack (0, 65536 * ring + slot) [] =
      releaseWait (setWaiters (tackSet (tackSet s tack a) tack (a - 1)) tack []) tack (0, 65536 * ring + slot) := by
    rw [headReleased, tackGet_tackSet_same]
  refine ⟨hrel ▸ hrdy, hrel ▸ hhld, tackWaiters_headReleased_same _ _ _ _, ?_, releaseWait_phase hslot,
    step_ready hpend' (hrel ▸ hrdy)⟩
  rw [tackGet_headReleased_same, tackGet_tackSet_same]

end Sys2Proof.Proofs

/-! The operations that many commands share (15.6 to 15.11, 10.8, 17.7 to 17.10). -/
namespace Sys2Proof.Proofs
open Sys2Proof.Machine Sys2Proof.Safety

/-! ### What becomes of a request -/

section
variable {s : State} {type : Nat} {msg : List Byte}

theorem onRequest_silent (h : cobAnswers s = false) (src : Nat) (f : State → List Byte → Nat → Handled) :
    onRequest s src type msg f = s := by
  rw [onRequest, if_pos (by simp [h])]

theorem onRequest_broken (ha : cobAnswers s = true) (hh : apbelHeaderOk type msg = false) (src : Nat)
    (f : State → List Byte → Nat → Handled) :
    onRequest s src type msg f = { s with cob := { s.cob with badMessages := s.cob.badMessages + 1 } } := by
  rw [onRequest, if_neg (by simp [ha]), if_pos (by simp [hh])]

theorem onRequest_repeated {k : KeptReply} (ha : cobAnswers s = true) (hh : apbelHeaderOk type msg = true)
    (hk : keptReply s (leAt msg 8 4) = some k) (src : Nat) (f : State → List Byte → Nat → Handled) :
    onRequest s src type msg f = { s with apbelOut := s.apbelOut ++ [(.source src, k.bytes)] } := by
  unfold onRequest
  dsimp only
  rw [if_neg (by simp [ha]), if_neg (by simp [hh]), hk]
  rfl

theorem onRequest_replied {t : State} {status : Nat} {body : List Byte} {f : State → List Byte → Nat → Handled}
    (h : Asked s type msg) (hf : f s (msg.drop 16) (leAt msg 8 4) = (t, some (status, body))) (src : Nat) :
    onRequest s src type msg f = replied t src type msg status body := by
  rw [onRequest_asked h, hf]

end

/-- Settles O18, operation by operation. The eyelet in 0x2202 and 0x2208 is log entry 21, the sled entries' WS 0 log entry
15. -/
theorem sharedOperations : Obligations.SharedOperations :=
  ⟨event_recorded, eventLimited_limited,
    fun s d p status sub res fl ho hq hg hg' => complete_ended s d p status sub res fl ho hq hg hg',
    fun s d p status sub ho => refuseDesc_refused s d p status sub ho,
    fun _ _ f hk => setEyelet_only f hk,
    fun _ _ cause notice next hk => leaveUp_leftUp hk cause notice next,
    sledEvent_recorded,
    fun _ src _ _ f => ⟨fun ha => onRequest_silent ha src f, fun ha hh => onRequest_broken ha hh src f,
      fun _ ha hh hk => onRequest_repeated ha hh hk src f, fun _ _ _ h hf => onRequest_replied h hf src⟩⟩

end Sys2Proof.Proofs

/-! Bytes and groups: numbers as bytes and back, and a list cut into groups of one length (00 R4). -/
namespace Sys2Proof.Proofs
open Sys2Proof.Machine

theorem leNat_lt (bs : List Byte) : leNat bs < 256 ^ bs.length := by
  induction bs with
  | nil => simp [leNat]
  | cons b bs ih =>
    have hb : b.toNat < 256 := b.isLt
    rw [leNat, List.length_cons, pow_succ]
    omega

theorem byteOf_add_mul (b : Byte) (n : Nat) : byteOf (b.toNat + 256 * n) = b := by
  have hb : b.toNat < 256 := b.isLt
  apply BitVec.eq_of_toNat_eq
  rw [byteOf_toNat]
  omega

theorem leBytes_leNat (bs : List Byte) : leBytes bs.length (leNat bs) = bs := by
  induction bs with
  | nil => rfl
  | cons b bs ih =>
    have hb : b.toNat < 256 := b.isLt
    have hdiv : (b.toNat + 256 * leNat bs) / 256 = leNat bs := by omega
    rw [List.length_cons, leBytes, leNat, byteOf_add_mul, hdiv, ih]

theorem leNat_leBytes_of_lt {k n : Nat} (h : n < 256 ^ k) : leNat (leBytes k n) = n := by
  rw [leNat_leBytes, Nat.mod_eq_of_lt h]

/-! ### Groups -/

section
variable {α : Type} {k : Nat}

/-- Fuel for every element is enough, and more changes nothing. -/
theorem chunksAux_fuel (hk : 0 < k) : ∀ (fuel : Nat) (xs : List α), xs.length ≤ fuel → chunksAux k fuel xs = chunks k xs
  | 0, [], _ => rfl
  | _ + 1, [], _ => rfl
  | fuel + 1, x :: xs, h => by
    have hdrop : ((x :: xs).drop k).length ≤ xs.length := by simp; omega
    rw [chunks, List.length_cons, chunksAux, chunksAux, chunksAux_fuel hk fuel _ (hdrop.trans (Nat.le_of_succ_le_succ h)),
      chunksAux_fuel hk xs.length _ hdrop]
termination_by _ xs => xs.length
decreasing_by all_goals simp; omega

theorem chunks_of_ne_nil (hk : 0 < k) {xs : List α} (h : xs ≠ []) : chunks k xs = xs.take k :: chunks k (xs.drop k) := by
  cases xs with
  | nil => exact absurd rfl h
  | cons x xs =>
    rw [chunks, List.length_cons, chunksAux, chunksAux_fuel hk]
    simp; omega

/-- What holds of no group, and of a list when of what follows its first group, holds of every list. -/
theorem chunks_induct (hk : 0 < k) {P : List α → Prop} (nil : P []) (step : ∀ xs, xs ≠ [] → P (xs.drop k) → P xs) :
    ∀ xs, P xs
  | [] => nil
  | x :: xs => step _ (List.cons_ne_nil x xs) (chunks_induct hk nil step _)
termination_by xs => xs.length
decreasing_by simp; omega

theorem flatten_chunks (hk : 0 < k) (xs : List α) : (chunks k xs).flatten = xs := by
  induction xs using chunks_induct hk with
  | nil => rfl
  | step xs hne ih => rw [chunks_of_ne_nil hk hne, List.flatten_cons, ih, List.take_append_drop]

theorem length_of_mem_chunks (hk : 0 < k) {xs c : List α} : c ∈ chunks k xs → 0 < c.length ∧ c.length ≤ k := by
  induction xs using chunks_induct hk with
  | nil => exact fun h => absurd h List.not_mem_nil
  | step xs hne ih =>
    rw [chunks_of_ne_nil hk hne, List.mem_cons]
    rintro (rfl | h)
    · have hpos := List.length_pos_of_ne_nil hne
      simp
      omega
    · exact ih h

theorem length_of_mem_chunks_of_dvd (hk : 0 < k) {xs c : List α} (hd : xs.length % k = 0) :
    c ∈ chunks k xs → c.length = k := by
  induction xs using chunks_induct hk with
  | nil => exact fun h => absurd h List.not_mem_nil
  | step xs hne ih =>
    have hpos := List.length_pos_of_ne_nil hne
    have hle : k ≤ xs.length := Nat.le_of_dvd hpos (Nat.dvd_of_mod_eq_zero hd)
    rw [chunks_of_ne_nil hk hne, List.mem_cons]
    rintro (rfl | h)
    · simpa using hle
    · refine ih ?_ h
      rw [List.length_drop, ← Nat.mod_eq_sub_mod hle, hd]

theorem length_chunks_of_dvd (hk : 0 < k) {xs : List α} (hd : xs.length % k = 0) :
    (chunks k xs).length * k = xs.length := by
  have hsum := congrArg List.length (flatten_chunks hk xs)
  rw [List.length_flatten, List.map_eq_replicate_iff.2 (fun c hc => length_of_mem_chunks_of_dvd hk hd hc),
    List.sum_replicate, smul_eq_mul] at hsum
  exact hsum

/-- Pieces of one length, laid end to end, are the groups of that length. -/
theorem chunks_flatMap {β : Type} (hk : 0 < k) {f : β → List α} (hf : ∀ b, (f b).length = k) (l : List β) :
    chunks k (l.flatMap f) = l.map f := by
  induction l with
  | nil => rfl
  | cons b l ih =>
    have hne : f b ++ l.flatMap f ≠ [] := fun h => by
      have hnil := congrArg List.length (List.append_eq_nil_iff.1 h).1
      rw [hf b, List.length_nil] at hnil
      omega
    rw [List.flatMap_cons, chunks_of_ne_nil hk hne, List.take_left' (hf b), List.drop_left' (hf b), ih, List.map_cons]

end

end Sys2Proof.Proofs

/-! Skive-L: the decoder reads back what the encoder wrote (5.6, R115 to R119). -/
namespace Sys2Proof.Proofs
open Sys2Proof.Machine

/-! ### What a body decodes to -/

/-- The bytes `bs` are a body of the elements `xs` of `w` bytes: with fuel for every byte, the decoder gives them. -/
def IsBody (w : Nat) (bs : List Byte) (xs : List Nat) : Prop :=
  ∀ fuel, bs.length ≤ fuel → skiveBody w fuel xs.length bs = some xs

theorem isBody_nil (w : Nat) : IsBody w [] [] := by
  intro fuel _
  cases fuel <;> rfl

/-- The elements of a literal run, read back. -/
theorem literals_read {w : Nat} (hw : 0 < w) {c : List Nat} (hc : ∀ x ∈ c, x < 256 ^ w) :
    (chunks w (c.flatMap (leBytes w))).map leNat = c := by
  rw [chunks_flatMap hw (leBytes_length w), List.map_map]
  conv_rhs => rw [← List.map_id c]
  exact List.map_congr_left (fun x hx => leNat_leBytes_of_lt (hc x hx))

theorem length_flatMap_leBytes (w : Nat) (c : List Nat) : (c.flatMap (leBytes w)).length = c.length * w := by
  simp [List.length_flatMap]

/-- A literal run in front of a body. -/
theorem isBody_literals {w : Nat} (hw : 0 < w) {c ys : List Nat} {rest : List Byte} (hc : ∀ x ∈ c, x < 256 ^ w)
    (hpos : 0 < c.length) (hlen : c.length ≤ 128) (h : IsBody w rest ys) :
    IsBody w (byteOf (c.length - 1) :: (c.flatMap (leBytes w) ++ rest)) (c ++ ys) := by
  intro fuel hfuel
  obtain ⟨fuel, rfl⟩ : ∃ f, fuel = f + 1 := ⟨fuel - 1, by simp at hfuel; omega⟩
  have hrest : rest.length ≤ fuel := by simp at hfuel; omega
  have hop : (byteOf (c.length - 1)).toNat = c.length - 1 := by rw [byteOf_toNat]; omega
  have hk : c.length - 1 + 1 = c.length := Nat.sub_add_cancel hpos
  have hbytes := length_flatMap_leBytes w c
  rw [skiveBody]
  dsimp only
  rw [hop, hk, if_pos (by omega), if_neg (by simp [hbytes]), List.take_left' hbytes, List.drop_left' hbytes,
    List.length_append, Nat.add_sub_cancel_left, h fuel hrest, literals_read hw hc]

/-- A short zero run in front of a body. -/
theorem isBody_shortZeros {w k : Nat} {ys : List Nat} {rest : List Byte} (hpos : 0 < k) (hk : k ≤ 127)
    (h : IsBody w rest ys) : IsBody w (byteOf (0x7F + k) :: rest) (List.replicate k 0 ++ ys) := by
  intro fuel hfuel
  obtain ⟨fuel, rfl⟩ : ∃ f, fuel = f + 1 := ⟨fuel - 1, by simp at hfuel; omega⟩
  have hrest : rest.length ≤ fuel := by simpa using hfuel
  have hop : (byteOf (0x7F + k)).toNat = 0x7F + k := by rw [byteOf_toNat]; omega
  rw [skiveBody]
  dsimp only
  rw [hop, if_neg (by omega), if_neg (by omega : ¬0x7F + k = 0xFF), if_neg (by omega : ¬0x7F + k = 0xFF),
    Nat.add_sub_cancel_left, if_neg (by simp), List.length_append, List.length_replicate, Nat.add_sub_cancel_left,
    List.drop_zero, h fuel hrest]

/-- A long zero run in front of a body. -/
theorem isBody_longZeros {w k : Nat} {ys : List Nat} {rest : List Byte} (hpos : 0 < k) (hk : k ≤ 65536)
    (h : IsBody w rest ys) : IsBody w (0xFF#8 :: (leBytes 2 (k - 1) ++ rest)) (List.replicate k 0 ++ ys) := by
  intro fuel hfuel
  obtain ⟨fuel, rfl⟩ : ∃ f, fuel = f + 1 := ⟨fuel - 1, by simp at hfuel; omega⟩
  have hrest : rest.length ≤ fuel := by simp at hfuel; omega
  have hop : (0xFF#8).toNat = 0xFF := rfl
  have hroom : ¬((List.replicate k 0 ++ ys).length < k ∨ (leBytes 2 (k - 1) ++ rest).length < 2) := by
    simp only [List.length_append, List.length_replicate, leBytes_length]
    omega
  have hcount : leAt (leBytes 2 (k - 1) ++ rest) 0 2 + 1 = k := by
    rw [leAt_leBytes_append, Nat.mod_eq_of_lt (by omega), Nat.sub_add_cancel hpos]
  rw [skiveBody]
  dsimp only
  rw [hop, if_neg (by omega), if_pos rfl, if_pos rfl, hcount, if_neg hroom, List.length_append,
    List.length_replicate, Nat.add_sub_cancel_left, List.drop_left' (leBytes_length 2 _), h fuel hrest]

/-! ### What the encoder writes -/

/-- A run of zeros as the encoder cuts it. -/
theorem isBody_zeroRuns {w : Nat} {ys : List Nat} {rest : List Byte} (h : IsBody w rest ys) :
    ∀ fuel k : Nat, k < fuel → IsBody w (zeroRuns fuel k ++ rest) (List.replicate k 0 ++ ys)
  | 0, _, hk => absurd hk (Nat.not_lt_zero _)
  | fuel + 1, k, hk => by
    unfold zeroRuns
    by_cases h0 : k = 0
    · rw [if_pos h0, h0]
      exact h
    · rw [if_neg h0]
      by_cases hs : k ≤ 127
      · rw [if_pos hs]
        exact isBody_shortZeros (Nat.pos_of_ne_zero h0) hs h
      · rw [if_neg hs]
        have hsplit : List.replicate k (0 : Nat) = List.replicate (min k 65536) 0 ++ List.replicate (k - min k 65536) 0 := by
          rw [← List.replicate_add]
          congr 1
          omega
        have hih := isBody_zeroRuns h fuel (k - min k 65536) (by omega)
        have hlong := isBody_longZeros (k := min k 65536) (by omega) (by omega) hih
        rw [hsplit]
        simpa only [List.cons_append, List.append_assoc] using hlong

/-- Literal runs, group by group. -/
theorem isBody_literalRuns {w : Nat} (hw : 0 < w) {ys : List Nat} {rest : List Byte} (h : IsBody w rest ys)
    (cs : List (List Nat)) (hcs : ∀ c ∈ cs, (0 < c.length ∧ c.length ≤ 128) ∧ ∀ x ∈ c, x < 256 ^ w) :
    IsBody w (cs.flatMap (fun c => byteOf (c.length - 1) :: c.flatMap (leBytes w)) ++ rest) (cs.flatten ++ ys) := by
  induction cs with
  | nil => exact h
  | cons c cs ih =>
    obtain ⟨⟨hpos, hlen⟩, hc⟩ := hcs c List.mem_cons_self
    have htail := ih (fun d hd => hcs d (List.mem_cons_of_mem c hd))
    simpa using isBody_literals hw hc hpos hlen htail

theorem isBody_litRuns {w : Nat} (hw : 0 < w) {xs ys : List Nat} {rest : List Byte} (hxs : ∀ x ∈ xs, x < 256 ^ w)
    (h : IsBody w rest ys) : IsBody w (litRuns w xs ++ rest) (xs ++ ys) := by
  have hflat := flatten_chunks (k := 128) (by decide) xs
  have hruns := isBody_literalRuns hw h (chunks 128 xs) (fun c hc => ⟨length_of_mem_chunks (by decide) hc,
    fun x hx => hxs x (hflat ▸ List.mem_flatten_of_mem hc hx)⟩)
  rwa [hflat] at hruns

/-- The head of a list up to its first element that is not 0. -/
theorem eq_replicate_zeroHead : ∀ xs : List Nat, xs = List.replicate (zeroHead xs) 0 ++ xs.drop (zeroHead xs)
  | [] => rfl
  | 0 :: xs => by
    rw [zeroHead, List.replicate_succ, List.cons_append, List.drop_succ_cons, ← eq_replicate_zeroHead xs]
  | (_ + 1) :: _ => rfl

/-- The encoder's body of a list decodes to the list. -/
theorem isBody_skiveOps {w : Nat} (hw : 0 < w) : ∀ (fuel : Nat) (xs : List Nat), xs.length ≤ fuel →
    (∀ x ∈ xs, x < 256 ^ w) → IsBody w (skiveOps w fuel xs) xs
  | 0, [], _, _ => isBody_nil w
  | _ + 1, [], _, _ => isBody_nil w
  | fuel + 1, x :: xs, hlen, hlt => by
    have hrest : ∀ n, 0 < n → IsBody w (skiveOps w fuel ((x :: xs).drop n)) ((x :: xs).drop n) := fun n hn =>
      isBody_skiveOps hw fuel _ (by simp at hlen ⊢; omega) (fun y hy => hlt y (List.mem_of_mem_drop hy))
    rw [skiveOps]
    dsimp only
    by_cases hz : 2 ≤ zeroHead (x :: xs)
    · rw [if_pos hz]
      have hbody := isBody_zeroRuns (hrest (zeroHead (x :: xs)) (by omega)) (zeroHead (x :: xs) + 1) _ (Nat.lt_succ_self _)
      rwa [← eq_replicate_zeroHead] at hbody
    · rw [if_neg hz]
      have hbody := isBody_litRuns hw (xs := (x :: xs).take (max 1 (litHead (x :: xs))))
        (fun y hy => hlt y (List.mem_of_mem_take hy)) (hrest (max 1 (litHead (x :: xs))) (by omega))
      rwa [List.take_append_drop] at hbody

/-! ### Differences -/

theorem toDelta_lt {w : Nat} : ∀ (xs : List Nat) (prev : Nat), ∀ d ∈ toDelta w prev xs, d < 256 ^ w
  | [], _ => fun _ h => absurd h List.not_mem_nil
  | x :: xs, prev => by
    have hpow : 2 ^ (8 * w) = 256 ^ w := by rw [pow_mul]; norm_num
    intro d hd
    rcases List.mem_cons.1 hd with rfl | h
    · rw [← hpow]
      exact Nat.mod_lt _ (Nat.two_pow_pos _)
    · exact toDelta_lt xs x d h

theorem length_toDelta (w : Nat) : ∀ (xs : List Nat) (prev : Nat), (toDelta w prev xs).length = xs.length
  | [], _ => rfl
  | x :: xs, _ => congrArg (· + 1) (length_toDelta w xs x)

/-- Adding the differences up gives the elements. -/
theorem undoDelta_toDelta {w : Nat} : ∀ (xs : List Nat) (prev : Nat), prev < 2 ^ (8 * w) → (∀ x ∈ xs, x < 2 ^ (8 * w)) →
    undoDelta w prev (toDelta w prev xs) = xs
  | [], _, _, _ => rfl
  | x :: xs, prev, hp, hx => by
    have hxlt := hx x List.mem_cons_self
    have hback : (prev + (x + 2 ^ (8 * w) - prev) % 2 ^ (8 * w)) % 2 ^ (8 * w) = x := by
      rw [Nat.add_mod_mod, Nat.add_sub_cancel' (by omega), Nat.add_mod_right, Nat.mod_eq_of_lt hxlt]
    rw [toDelta, undoDelta, hback, undoDelta_toDelta xs x hxlt (fun y hy => hx y (List.mem_cons_of_mem x hy))]

/-! ### The check -/

theorem crcBits_lt : ∀ (k c : Nat), c < 2 ^ 32 → crcBits k c < 2 ^ 32
  | 0, _, h => h
  | k + 1, c, h => by
    rw [crcBits]
    refine crcBits_lt k _ ?_
    split
    · exact Nat.xor_lt_two_pow (by omega) (by decide)
    · omega

theorem crc32c_lt (bs : List Byte) : crc32c bs < 2 ^ 32 := by
  have hfold : ∀ (l : List Byte) (c : Nat), c < 2 ^ 32 →
      l.foldl (fun c b => crcBits 8 (c ^^^ b.toNat)) c < 2 ^ 32 := by
    intro l
    induction l with
    | nil => exact fun _ h => h
    | cons b l ih =>
      exact fun c h => ih _ (crcBits_lt 8 _ (Nat.xor_lt_two_pow h (b.isLt.trans (by decide))))
  exact Nat.xor_lt_two_pow (hfold bs _ (by decide)) (by decide)

/-! ### A frame -/

/-- The frame of a body: the header of `n` bytes with format byte `b4`, the body, and the check `crc` (R115). -/
def frame (n b4 : Nat) (body : List Byte) (crc : Nat) : List Byte :=
  leBytes 4 n ++ [byteOf b4, 1#8, 0#8, 0#8] ++ body ++ leBytes 4 crc

section
variable (n b4 : Nat) (body : List Byte) (crc : Nat)

theorem frame_length : (frame n b4 body crc).length = body.length + 12 := by
  simp [frame]
  omega

theorem frame_size : leAt (frame n b4 body crc) 0 4 = n % 2 ^ 32 := by
  rw [frame, List.append_assoc, List.append_assoc, leAt_leBytes_append]
  norm_num

theorem frame_format : byteAt (frame n b4 body crc) 4 = byteOf b4 := rfl

theorem frame_version : byteAt (frame n b4 body crc) 5 = 1#8 := rfl

theorem frame_reserved : leAt (frame n b4 body crc) 6 2 = 0 := rfl

theorem frame_body : slice (frame n b4 body crc) 8 ((frame n b4 body crc).length - 12) = body := by
  rw [frame_length, Nat.add_sub_cancel, slice, frame, List.append_assoc, List.drop_left' (by simp), List.take_left' rfl]

theorem frame_check : leAt (frame n b4 body crc) ((frame n b4 body crc).length - 4) 4 = crc % 2 ^ 32 := by
  have hdrop : (frame n b4 body crc).drop ((frame n b4 body crc).length - 4) = leBytes 4 crc :=
    List.drop_left' (by rw [frame_length]; simp; omega)
  rw [leAt, slice, hdrop, List.take_of_length_le (by simp), leNat_leBytes]
  norm_num

end

/-- The elements that a frame's body stands for, its transform undone. -/
def untransformed (w : Nat) (delta : Bool) (ds : List Nat) : List Nat := if delta then undoDelta w 0 ds else ds

/-- A frame whose header fits its body decodes to the bytes of its elements, where its check is theirs. -/
theorem skiveDecode_frame {width n limit crc : Nat} {delta : Bool} {body : List Byte} {ds : List Nat} (hw : width ≤ 2)
    (h0 : n ≠ 0) (hmod : n % 2 ^ width = 0) (hn : n < 2 ^ 32) (hlimit : n ≤ limit) (hbody : IsBody (2 ^ width) body ds)
    (hlen : ds.length = n / 2 ^ width)
    (hcrc : crc32c ((untransformed (2 ^ width) delta ds).flatMap (leBytes (2 ^ width))) = crc) (hlt : crc < 2 ^ 32) :
    skiveDecode limit (frame n (width + 4 * bit01 delta) body crc) =
      some ((untransformed (2 ^ width) delta ds).flatMap (leBytes (2 ^ width))) := by
  have hbit : bit01 delta ≤ 1 := by cases delta <;> decide
  have hcode : (byteOf (width + 4 * bit01 delta)).toNat = width + 4 * bit01 delta := by rw [byteOf_toNat]; omega
  have hwidth : (width + 4 * bit01 delta) % 4 = width := by omega
  have hdelta : bitOf (width + 4 * bit01 delta) 2 = delta := by interval_cases width <;> cases delta <;> rfl
  have hread : skiveBody (2 ^ width) body.length (n / 2 ^ width) body = some ds := hlen ▸ hbody _ le_rfl
  have hout : (if delta = true then undoDelta (2 ^ width) 0 ds else ds) = untransformed (2 ^ width) delta ds := rfl
  unfold skiveDecode
  dsimp only
  rw [frame_body, frame_check, frame_length, frame_size, frame_format, frame_version, frame_reserved, hcode, hwidth,
    Nat.mod_eq_of_lt hn, Nat.mod_eq_of_lt hlt, if_neg (by simp [hmod]; omega), hread]
  dsimp only
  rw [hdelta, hout, if_pos hcrc]

/-! ### The round trip -/

/-- The elements of `w` bytes that a buffer holds (R117). -/
def elements (w : Nat) (bs : List Byte) : List Nat := (chunks w bs).map leNat

section
variable {w : Nat} {bs : List Byte} (hw : 0 < w) (hmod : bs.length % w = 0)
include hw hmod

theorem elements_lt : ∀ x ∈ elements w bs, x < 256 ^ w := by
  intro x hx
  obtain ⟨c, hc, rfl⟩ := List.mem_map.1 hx
  exact length_of_mem_chunks_of_dvd hw hmod hc ▸ leNat_lt c

theorem flatMap_leBytes_elements : (elements w bs).flatMap (leBytes w) = bs := by
  have hid : ∀ c ∈ chunks w bs, leBytes w (leNat c) = id c := fun c hc => by
    conv_lhs => rw [← length_of_mem_chunks_of_dvd hw hmod hc]
    exact leBytes_leNat c
  rw [elements, List.flatMap_map, List.flatMap_def, List.map_congr_left hid, List.map_id,
    flatten_chunks hw]

theorem length_elements : (elements w bs).length = bs.length / w := by
  rw [elements, List.length_map]
  exact (Nat.div_eq_of_eq_mul_left hw (length_chunks_of_dvd hw hmod).symm).symm

end

/-- The elements as the encoder writes them, its transform applied. -/
def transformed (w : Nat) (delta : Bool) (xs : List Nat) : List Nat := if delta then toDelta w 0 xs else xs

theorem transformed_lt {w : Nat} {xs : List Nat} (h : ∀ x ∈ xs, x < 256 ^ w) (delta : Bool) :
    ∀ d ∈ transformed w delta xs, d < 256 ^ w := by
  cases delta with
  | false => exact h
  | true => exact toDelta_lt xs 0

theorem length_transformed (w : Nat) (delta : Bool) (xs : List Nat) : (transformed w delta xs).length = xs.length := by
  cases delta with
  | false => rfl
  | true => exact length_toDelta w xs 0

theorem untransformed_transformed {w : Nat} {xs : List Nat} (h : ∀ x ∈ xs, x < 256 ^ w) (delta : Bool) :
    untransformed w delta (transformed w delta xs) = xs := by
  cases delta with
  | false => rfl
  | true =>
    have hpow : 256 ^ w = 2 ^ (8 * w) := by rw [pow_mul]; norm_num
    exact undoDelta_toDelta xs 0 (Nat.two_pow_pos _) (hpow ▸ h)

/-- Settles O59: the body decodes to the elements, the differences add up to them, and the check is that of the bytes. -/
theorem skiveLRoundTrip : Obligations.SkiveLRoundTrip := by
  intro width delta bs limit hw hne hmod hlt hlimit
  have hpos : 0 < 2 ^ width := Nat.two_pow_pos width
  have hbound := elements_lt hpos hmod
  have hback : (untransformed (2 ^ width) delta (transformed (2 ^ width) delta (elements (2 ^ width) bs))).flatMap
      (leBytes (2 ^ width)) = bs := by
    rw [untransformed_transformed hbound, flatMap_leBytes_elements hpos hmod]
  have hframe := skiveDecode_frame (crc := crc32c bs) hw (by simpa using hne) hmod hlt hlimit
    (isBody_skiveOps hpos _ _ le_rfl (transformed_lt hbound delta))
    ((length_transformed _ delta _).trans (length_elements hpos hmod)) (congrArg crc32c hback) (crc32c_lt bs)
  rwa [hback] at hframe

end Sys2Proof.Proofs

/-! How a descriptor that starts acts: the state `begun`, and the answers that end it (15.6 to 15.8). -/
namespace Sys2Proof.Proofs
open Sys2Proof.Machine Sys2Proof.Safety

/-! ### The state in which it acts -/

/-- A descriptor that begins changes its ring and, where it waited, the tacks. -/
theorem begun_only (s : State) (d : Desc) : ∃ rings tacks, begun s d = { s with
    host := { s.host with rings := rings }, mem := { s.mem with tacks := tacks } } := by
  unfold begun
  split
  · split <;> exact ⟨_, _, rfl⟩
  · exact ⟨_, _, rfl⟩

/-- The rings and tacks of `begun` in place of those of `s`, and nothing else. -/
theorem begun_eq (s : State) (d : Desc) : begun s d = { s with
    host := { s.host with rings := (begun s d).host.rings }, mem := { s.mem with tacks := (begun s d).mem.tacks } } := by
  obtain ⟨rings, tacks, h⟩ := begun_only s d
  rw [h]

section
variable (s : State) (d : Desc)

@[simp] theorem begun_now : (begun s d).now = s.now := by rw [begun_eq]
@[simp] theorem begun_position : (begun s d).position = s.position := by rw [begun_eq]
@[simp] theorem begun_dev : (begun s d).dev = s.dev := by rw [begun_eq]
@[simp] theorem begun_clk : (begun s d).clk = s.clk := by rw [begun_eq]
@[simp] theorem begun_regs : (begun s d).regs = s.regs := by rw [begun_eq]
@[simp] theorem begun_eyelets : (begun s d).eyelets = s.eyelets := by rw [begun_eq]
@[simp] theorem begun_svc : (begun s d).svc = s.svc := by rw [begun_eq]
@[simp] theorem begun_lasts : (begun s d).lasts = s.lasts := by rw [begun_eq]
@[simp] theorem begun_keys : (begun s d).keys = s.keys := by rw [begun_eq]
@[simp] theorem begun_job : (begun s d).job = s.job := by rw [begun_eq]
@[simp] theorem begun_heel : (begun s d).heel = s.heel := by rw [begun_eq]
@[simp] theorem begun_shank : (begun s d).shank = s.shank := by rw [begun_eq]
@[simp] theorem begun_mem_tiles : (begun s d).mem.tiles = s.mem.tiles := by rw [begun_eq]
@[simp] theorem begun_mem_retired : (begun s d).mem.retired = s.mem.retired := by rw [begun_eq]
@[simp] theorem begun_mem_copying : (begun s d).mem.copying = s.mem.copying := by rw [begun_eq]
@[simp] theorem begun_mem_hbm : (begun s d).mem.hbm = s.mem.hbm := by rw [begun_eq]
@[simp] theorem jobState_begun : jobState (begun s d) = jobState s := by rw [begun_eq]; rfl
@[simp] theorem enabledTiles_begun : enabledTiles (begun s d) = enabledTiles s := by rw [begun_eq]; rfl
@[simp] theorem lowJs_begun : lowJs (begun s d) = lowJs s := by rw [begun_eq]; rfl

end

/-- A command of `onDesc` whose descriptor starts. -/
theorem starts_next {s : State} {d : Desc} {op : Nat} (h : Starts s d op) {i : Instr} {mine : Bool}
    {run : State → Desc → State} (hm : mine = true) :
    (.next (onDesc s d i mine run) : Host.Outcome State Fault Refusal) = .next (run (begun s d) d) := by
  subst hm
  rw [(onDesc_starts h i run).1]

/-- Where it acts, it stands in its slot. -/
theorem starts_outst {s : State} {d : Desc} {op : Nat} (h : Starts s d op) :
    outstOf (begun s d) d.ring d.slot = some (outstanding d 2) :=
  (onDesc_starts h (.nop d) (fun s _ => s)).2

/-! ### Its answers -/

/-- DONE ends an outstanding descriptor. -/
theorem doneDesc_ended {u : State} {d : Desc} {p op : Nat} (ho : outstOf u d.ring d.slot = some (outstanding d p))
    (hop : d.op = op) (hq : op ≠ 0x80) (res : List Byte) {fl : Nat} (hfl : fl % 2 = 0) (hfl' : fl < 250) :
    Ended u (doneDesc u d res fl) d (finalCpl d 0x00 0 res fl) :=
  complete_ended u d p _ _ res fl ho (hop ▸ hq) hfl hfl'

theorem badDesc_refused {u : State} {d : Desc} {p : Nat} (sub : Nat)
    (ho : outstOf u d.ring d.slot = some (outstanding d p)) : Refused u (badDesc u d sub) d 0x10 sub :=
  refuseDesc_refused u d p _ sub ho

theorem badState_refused {u : State} {d : Desc} {p : Nat} (sub : Nat)
    (ho : outstOf u d.ring d.slot = some (outstanding d p)) : Refused u (badState u d sub) d 0x11 sub :=
  refuseDesc_refused u d p _ sub ho

theorem outstOf_event (s : State) (code : Nat) (slots : List Nat) (r slot : Nat) :
    outstOf (event s code slots) r slot = outstOf s r slot := (event_sameRunning s code slots).outstOf r slot

theorem outstOf_hostWrite (s : State) (a : Nat) (bs : List Byte) (r slot : Nat) :
    outstOf (hostWrite s a bs) r slot = outstOf s r slot := by
  unfold hostWrite hostPut
  split <;> rfl

/-! ### Fields of a record of bytes -/

theorem leAt_leBytes (k n : Nat) : leAt (leBytes k n) 0 k = n % 256 ^ k := by
  simpa using leAt_leBytes_append k n []

/-- What follows `n` bytes, read from its own start. -/
theorem leAt_append_of_length {xs : List Byte} {n : Nat} (h : xs.length = n) (ys : List Byte) (o k : Nat) :
    leAt (xs ++ ys) (n + o) k = leAt ys o k := by
  rw [leAt, slice, ← h, List.drop_length_add_append]
  rfl

end Sys2Proof.Proofs

/-! NOP, QUERY and LOG_READ (15 Tables 15.5 and 15.7, 19 R480). -/
namespace Sys2Proof.Proofs
open Sys2Proof.Machine Sys2Proof.Safety

theorem nop_exec {s : State} {d : Desc} (h : Starts s d 0x01) : exec (.nop d) s = .next (doneDesc (begun s d) d) :=
  starts_next h (i := .nop d) (by simp [h.1])

theorem query_exec {s : State} {d : Desc} (h : Starts s d 0x02) :
    exec (.query d) s = .next (doneDesc (begun s d) d (queryResult (begun s d) d)) :=
  starts_next h (i := .query d) (by simp [h.1])

theorem logRead_exec {s : State} {d : Desc} (h : Starts s d 0x70) :
    exec (.logRead d) s = .next (runLogRead (begun s d) d) :=
  starts_next h (i := .logRead d) (by simp [h.1])

/-- The tag of the chip's job; 0xFFFF where it has none. -/
def jobTag (s : State) : Nat := match s.job with | some j => j.tag | none => 0xFFFF

theorem jobTag_mod (s : State) :
    jobTag s % 65536 = (match s.job with | some j => j.tag % 65536 | none => 0xFFFF) := by
  unfold jobTag
  cases s.job <;> rfl

/-- QUERY of a tack reports its value. -/
theorem queryResult_tack {u : State} {d : Desc} (hk : d.at 8 1 = 1) :
    leAt (queryResult u d) 0 4 = (tackGet u (d.at 12 4 % 2 ^ 17)).toNat := by
  rw [queryResult, if_pos hk, leAt_leBytes]
  exact Nat.mod_eq_of_lt (BitVec.isLt _)

theorem queryResult_device {u : State} {d : Desc} (hk : d.at 8 1 = 0) :
    queryResult u d = [byteOf u.dev.state.code, byteOf u.clk.pace] ++ (leBytes 2 (jobTag u) ++
      ([byteOf (jobState u).code, byteOf (enabledTiles u).length, 0, 0] ++ (leBytes 8 u.clk.ws ++ leBytes 8 (lowJs u)))) := by
  rw [queryResult, if_neg (by omega), jobTag]
  simp only [List.append_assoc] <;> rfl

theorem leAt_byteOf_cons (n : Nat) (bs : List Byte) : leAt (byteOf n :: bs) 0 1 = n % 256 := by
  rw [leAt_one]
  exact byteOf_toNat n

theorem devState_code_lt (x : DevState) : x.code < 256 := by cases x <;> decide

theorem jobState_code_lt (x : JobState) : x.code < 256 := by cases x <;> decide

/-- The fields of the device's report, each at its offset (Table 15.7). -/
theorem queryResult_fields {u : State} {d : Desc} (hk : d.at 8 1 = 0) :
    leAt (queryResult u d) 0 1 = u.dev.state.code ∧ leAt (queryResult u d) 1 1 = u.clk.pace % 256 ∧
      leAt (queryResult u d) 2 2 = jobTag u % 65536 ∧ leAt (queryResult u d) 4 1 = (jobState u).code ∧
      leAt (queryResult u d) 5 1 = (enabledTiles u).length % 256 ∧ leAt (queryResult u d) 8 8 = u.clk.ws % 2 ^ 64 ∧
      leAt (queryResult u d) 16 8 = lowJs u % 2 ^ 64 := by
  rw [queryResult_device hk]
  refine ⟨?_, leAt_byteOf_cons _ _, leAt_leBytes_append 2 _ _, ?_, leAt_byteOf_cons _ _, leAt_leBytes_append 8 _ _,
    leAt_leBytes 8 _⟩
  · exact (leAt_byteOf_cons _ _).trans (Nat.mod_eq_of_lt (devState_code_lt _))
  · exact (leAt_byteOf_cons _ _).trans (Nat.mod_eq_of_lt (jobState_code_lt _))

/-- The part of the log that LOG_READ gives does not depend on the descriptor's own start. -/
theorem logSlice_begun (s : State) (d : Desc) (log start count : Nat) :
    logSlice (begun s d) log start count = logSlice s log start count := by
  rw [begun_eq]
  rfl

/-- What LOG_READ writes to the host buffer. -/
def logOut (d : Desc) (es : List (List Byte)) : List Byte := if d.flag 4 then skiveStream es.flatten else es.flatten

section
variable {u : State} {d : Desc} {first : Nat} {es : List (List Byte)}

theorem runLogRead_none (h : logSlice u (d.at 8 1) (d.at 12 4) (d.at 16 4) = none) :
    runLogRead u d = doneDesc u d (leBytes 4 0 ++ leBytes 4 (d.at 12 4) ++ leBytes 8 0) := by
  unfold runLogRead
  dsimp only
  rw [h]

theorem runLogRead_short (h : logSlice u (d.at 8 1) (d.at 12 4) (d.at 16 4) = some (first, es))
    (hs : d.at 32 4 < (logOut d es).length) : runLogRead u d = badDesc u d 0x35 := by
  unfold runLogRead
  dsimp only
  rw [h]
  exact if_pos hs

theorem runLogRead_fits (h : logSlice u (d.at 8 1) (d.at 12 4) (d.at 16 4) = some (first, es))
    (hf : (logOut d es).length ≤ d.at 32 4) :
    runLogRead u d = doneDesc (hostWrite u (d.at 24 8) (logOut d es)) d
      (leBytes 4 es.length ++ leBytes 4 (first + es.length) ++ leBytes 8 (logOut d es).length) := by
  unfold runLogRead
  dsimp only
  rw [h]
  exact if_neg (Nat.not_lt.2 hf)

end

/-- Settles O14. -/
theorem nopQueryLogRead : Obligations.NopQueryLogRead := by
  refine ⟨fun s d h => ⟨_, nop_exec h, doneDesc_ended (starts_outst h) h.1 (by decide) _ rfl (by decide)⟩,
    fun s d h => ⟨_, _, query_exec h, doneDesc_ended (starts_outst h) h.1 (by decide) _ rfl (by decide),
      queryResult_tack, fun hk => ?_⟩, fun s d h => ⟨fun hn => ?_, fun first es he => ⟨fun hf => ?_, fun hs => ?_⟩⟩⟩
  · obtain ⟨hdev, hpace, htag, hjob, htiles, hws, hjs⟩ := queryResult_fields (u := begun s d) hk
    rw [begun_dev] at hdev
    rw [begun_clk] at hpace hws
    rw [jobTag_mod, begun_job] at htag
    rw [jobState_begun] at hjob
    rw [enabledTiles_begun] at htiles
    rw [lowJs_begun] at hjs
    exact ⟨hdev, hpace, htag, hjob, htiles, hws, hjs⟩
  · rw [← logSlice_begun s d] at hn
    exact ⟨_, (logRead_exec h).trans (congrArg _ (runLogRead_none hn)),
      doneDesc_ended (starts_outst h) h.1 (by decide) _ rfl (by decide)⟩
  · rw [← logSlice_begun s d] at he
    exact ⟨_, (logRead_exec h).trans (congrArg _ (runLogRead_fits he hf)),
      doneDesc_ended ((outstOf_hostWrite _ _ _ _ _).trans (starts_outst h)) h.1 (by decide) _ rfl (by decide)⟩
  · rw [← logSlice_begun s d] at he
    exact ⟨_, (logRead_exec h).trans (congrArg _ (runLogRead_short he hs)), badDesc_refused _ (starts_outst h)⟩

end Sys2Proof.Proofs

/-! Budgets: the orders of SET_BUDGET and SET_PACE_LIMIT, and the values that their completions report (13 R326 to R328). -/
namespace Sys2Proof.Proofs
open Sys2Proof.Machine Sys2Proof.Safety

/-! ### The list of orders -/

/-- An order put behind those of rings no higher than its own. -/
def insertOrder (os : List (Nat × Order)) (ring : Nat) (o : Order) : List (Nat × Order) :=
  let before := os.takeWhile (fun x => decide (x.1 ≤ ring))
  before ++ [(ring, o)] ++ os.drop before.length

theorem takeWhile_drop_length {α : Type} (p : α → Bool) (l : List α) :
    l.drop (l.takeWhile p).length = l.dropWhile p := by
  induction l with
  | nil => rfl
  | cons x l ih =>
    by_cases hx : p x
    · rw [List.takeWhile_cons_of_pos hx, List.dropWhile_cons_of_pos hx]
      exact ih
    · rw [List.takeWhile_cons_of_neg hx, List.dropWhile_cons_of_neg hx]
      rfl

theorem insertOrder_eq (os : List (Nat × Order)) (ring : Nat) (o : Order) : insertOrder os ring o =
    os.takeWhile (fun x => decide (x.1 ≤ ring)) ++ (ring, o) :: os.dropWhile (fun x => decide (x.1 ≤ ring)) := by
  rw [insertOrder, takeWhile_drop_length, List.append_assoc, List.singleton_append]

theorem insertOrder_perm (os : List (Nat × Order)) (ring : Nat) (o : Order) :
    (insertOrder os ring o).Perm (os ++ [(ring, o)]) := by
  rw [insertOrder_eq]
  refine List.perm_middle.trans ?_
  rw [List.takeWhile_append_dropWhile]
  exact (List.perm_append_singleton _ _).symm

/-- The orders stand by ring. -/
def RingSorted (os : List (Nat × Order)) : Prop := os.Pairwise (fun a b => a.1 ≤ b.1)

theorem insertOrder_sorted {os : List (Nat × Order)} (h : RingSorted os) (ring : Nat) (o : Order) :
    RingSorted (insertOrder os ring o) := by
  rw [insertOrder_eq]
  induction os with
  | nil => exact List.pairwise_singleton _ _
  | cons x os ih =>
    obtain ⟨hx, hos⟩ := List.pairwise_cons.1 h
    by_cases hle : x.1 ≤ ring
    · rw [List.takeWhile_cons_of_pos (by simpa using hle), List.dropWhile_cons_of_pos (by simpa using hle)]
      refine List.pairwise_cons.2 ⟨fun y hy => ?_, ih hos⟩
      rcases List.mem_append.1 hy with hy | hy
      · exact hx y ((List.takeWhile_sublist _).mem hy)
      · rcases List.mem_cons.1 hy with rfl | hy
        · exact hle
        · exact hx y ((List.dropWhile_sublist _).mem hy)
    · rw [List.takeWhile_cons_of_neg (by simpa using hle), List.dropWhile_cons_of_neg (by simpa using hle)]
      refine List.pairwise_cons.2 ⟨fun y hy => ?_, h⟩
      have hlt : ring ≤ x.1 := Nat.le_of_not_le hle
      rcases List.mem_cons.1 hy with rfl | hy
      · exact hlt
      · exact hlt.trans (hx y hy)

/-- An order put in where the mask names it. -/
def insertIf (c : Bool) (os : List (Nat × Order)) (ring : Nat) (o : Order) : List (Nat × Order) :=
  if c then insertOrder os ring o else os

theorem insertIf_perm (c : Bool) {os l : List (Nat × Order)} (h : os.Perm l) (ring : Nat) (o : Order) :
    (insertIf c os ring o).Perm (l ++ if c then [(ring, o)] else []) := by
  cases c with
  | false => simpa [insertIf] using h
  | true => exact (insertOrder_perm os ring o).trans (h.append_right _)

theorem insertIf_sorted (c : Bool) {os : List (Nat × Order)} (h : RingSorted os) (ring : Nat) (o : Order) :
    RingSorted (insertIf c os ring o) := by
  cases c with
  | false => exact h
  | true => exact insertOrder_sorted h ring o

/-! ### The commands -/

/-- `s` with these orders waiting for the next governor period. -/
def withOrders (s : State) (os : List (Nat × Order)) : State := { s with heel := { s.heel with orders := os } }

@[simp] theorem withOrders_heel (s : State) (os : List (Nat × Order)) :
    (withOrders s os).heel = { s.heel with orders := os } := rfl

@[simp] theorem withOrders_withOrders (s : State) (os os' : List (Nat × Order)) :
    withOrders (withOrders s os) os' = withOrders s os' := rfl

theorem addOrder_if (c : Bool) (s : State) (ring : Nat) (o : Order) :
    (if c then addOrder s ring o else s) = withOrders s (insertIf c s.heel.orders ring o) := by
  cases c <;> rfl

/-- The orders that a SET_BUDGET leaves. -/
def ordersOfBudget (os : List (Nat × Order)) (d : Desc) : List (Nat × Order) :=
  let m := d.at 12 1
  insertIf (bitOf m 2) (insertIf (bitOf m 1) (insertIf (bitOf m 0) os d.ring (.powerW (d.at 8 2))) d.ring
    (.thermal (d.at 10 1))) d.ring (.prefillRun (d.at 11 1))

/-- 0x5060 recorded where a value is capped. -/
def notedCap (capped : Bool) (s : State) : State := if capped then event s 0x5060 [] else s

theorem notedCap_recorded (capped : Bool) (s : State) :
    if capped then Recorded s (notedCap capped s) 0x5060 [] else notedCap capped s = s := by
  cases capped with
  | false => rfl
  | true => exact event_recorded s _ _

theorem notedCap_outst (capped : Bool) (s : State) (r slot : Nat) :
    outstOf (notedCap capped s) r slot = outstOf s r slot := by
  unfold notedCap
  split
  · exact outstOf_event s _ _ r slot
  · rfl

theorem notedCap_heel (capped : Bool) (s : State) : (notedCap capped s).heel = s.heel := by
  unfold notedCap
  split
  · exact event_heel s _ _
  · rfl

theorem capped_ended {u : State} {d : Desc} {p op : Nat} (capped : Bool)
    (ho : outstOf u d.ring d.slot = some (outstanding d p)) (hop : d.op = op) (hq : op ≠ 0x80) (res : List Byte) :
    Ended u (doneDesc u d res (if capped then 4 else 0)) d (finalCpl d 0x00 0 res (if capped then 4 else 0)) :=
  doneDesc_ended ho hop hq res (by cases capped <;> rfl) (by cases capped <;> decide)

/-- Whether a power that SET_BUDGET asks for exceeds the Cobbler's cap. -/
def budgetCapped (s : State) (d : Desc) : Bool :=
  bitOf (d.at 12 1) 0 && decide (s.heel.powerCap < if bitOf (d.at 12 1) 0 then d.at 8 2 else s.heel.powerW)

/-- The effective values that SET_BUDGET reports. -/
def budgetResult (s : State) (d : Desc) : List Byte :=
  leBytes 2 (min (if bitOf (d.at 12 1) 0 then d.at 8 2 else s.heel.powerW) s.heel.powerCap) ++
    [byteOf (if bitOf (d.at 12 1) 1 then d.at 10 1 else s.heel.thermal),
      byteOf (if bitOf (d.at 12 1) 2 then d.at 11 1 else s.heel.prefillRun)]

theorem runSetBudget_eq (u : State) (d : Desc) : runSetBudget u d =
    doneDesc (notedCap (budgetCapped u d) (withOrders u (ordersOfBudget u.heel.orders d))) d (budgetResult u d)
      (if budgetCapped u d then 4 else 0) := by
  unfold runSetBudget
  simp only [addOrder_if, withOrders_heel, withOrders_withOrders]
  rw [← notedCap, notedCap_heel]
  simp only [withOrders_heel]
  rfl

theorem runSetPaceLimit_eq (u : State) (d : Desc) : runSetPaceLimit u d =
    doneDesc (notedCap (decide (u.heel.paceCap < d.at 8 1))
      (withOrders u (insertOrder u.heel.orders d.ring (.paceMax (d.at 8 1))))) d
      [byteOf (min (d.at 8 1) u.heel.paceCap)] (if decide (u.heel.paceCap < d.at 8 1) then 4 else 0) := by
  unfold runSetPaceLimit
  dsimp only
  rw [← notedCap, notedCap_heel]
  rfl

theorem withOrders_begun (s : State) (d : Desc) (os : List (Nat × Order)) :
    withOrders (begun s d) os = { begun s d with heel := { s.heel with orders := os } } := by
  rw [withOrders, begun_heel]

/-- The descriptor still stands in its slot once its orders are recorded. -/
theorem outstOf_ordered {s : State} {d : Desc} {op : Nat} (h : Starts s d op) (capped : Bool) (os : List (Nat × Order)) :
    outstOf (notedCap capped (withOrders (begun s d) os)) d.ring d.slot = some (outstanding d 2) :=
  (notedCap_outst _ _ _ _).trans (starts_outst h)

theorem setBudget_exec {s : State} {d : Desc} (h : Starts s d 0x30) : exec (.setBudget d) s =
    .next (doneDesc (notedCap (budgetCapped s d) (withOrders (begun s d) (ordersOfBudget s.heel.orders d))) d
      (budgetResult s d) (if budgetCapped s d then 4 else 0)) := by
  have hrun : exec (.setBudget d) s = .next (runSetBudget (begun s d) d) :=
    starts_next h (i := .setBudget d) (by simp [h.1])
  rw [hrun, runSetBudget_eq, budgetCapped, budgetResult, begun_heel]
  rfl

theorem setPaceLimit_exec {s : State} {d : Desc} (h : Starts s d 0x31) : exec (.setPaceLimit d) s =
    .next (doneDesc (notedCap (decide (s.heel.paceCap < d.at 8 1))
      (withOrders (begun s d) (insertOrder s.heel.orders d.ring (.paceMax (d.at 8 1))))) d
      [byteOf (min (d.at 8 1) s.heel.paceCap)] (if decide (s.heel.paceCap < d.at 8 1) then 4 else 0)) := by
  have hrun : exec (.setPaceLimit d) s = .next (runSetPaceLimit (begun s d) d) :=
    starts_next h (i := .setPaceLimit d) (by simp [h.1])
  rw [hrun, runSetPaceLimit_eq, begun_heel]

/-- Settles O15. That the completion comes at once is the model's reading (log entry 36). -/
theorem budgetOrders : Obligations.BudgetOrders := by
  refine ⟨fun s d h => ⟨_, notedCap (budgetCapped s d) (withOrders (begun s d) (ordersOfBudget s.heel.orders d)),
      ordersOfBudget s.heel.orders d, setBudget_exec h, ?_, ?_, ?_, ?_⟩,
    fun s d h => ⟨_, notedCap (decide (s.heel.paceCap < d.at 8 1))
      (withOrders (begun s d) (insertOrder s.heel.orders d.ring (.paceMax (d.at 8 1)))),
      insertOrder s.heel.orders d.ring (.paceMax (d.at 8 1)), setPaceLimit_exec h, insertOrder_perm _ _ _,
      fun hs => insertOrder_sorted hs _ _, ?_, capped_ended _ (outstOf_ordered h _ _) h.1 (by decide) _⟩⟩
  · exact insertIf_perm _ (insertIf_perm _ (insertIf_perm _ (List.Perm.refl _) _ _) _ _) _ _
  · exact fun hs => insertIf_sorted _ (insertIf_sorted _ (insertIf_sorted _ hs _ _) _ _) _ _
  · rw [← withOrders_begun]
    exact notedCap_recorded (budgetCapped s d) _
  · exact capped_ended (budgetCapped s d) (outstOf_ordered h _ _) h.1 (by decide) _
  · rw [← withOrders_begun]
    exact notedCap_recorded _ _

end Sys2Proof.Proofs

/-! Tiles, pages and links that a command retires or retrains (03 R69, 10 R231, 12 R295, 19 R471, R473). -/
namespace Sys2Proof.Proofs
open Sys2Proof.Machine Sys2Proof.Safety

/-! ### Health records -/

theorem mapAt_getElem?_same {α : Type} (xs : List α) (i : Nat) (f : α → α) : (mapAt xs i f)[i]? = xs[i]?.map f := by
  simp [mapAt]

theorem mapAt_getElem?_other {α : Type} {i j : Nat} (h : j ≠ i) (xs : List α) (f : α → α) :
    (mapAt xs i f)[j]? = xs[j]? := by
  simp [mapAt, Ne.symm h]

/-- Only what is done to the element there matters. -/
theorem mapAt_congr {α : Type} {xs : List α} {i : Nat} {d : α} {f g : α → α} (h : f (xs.getD i d) = g (xs.getD i d)) :
    mapAt xs i f = mapAt xs i g := by
  refine List.ext_getElem? fun j => ?_
  by_cases hj : j = i
  · subst hj
    rw [mapAt_getElem?_same, mapAt_getElem?_same]
    rw [List.getD_eq_getElem?_getD] at h
    cases hx : xs[j]? with
    | none => rfl
    | some x => rw [hx] at h; exact congrArg some h
  · rw [mapAt_getElem?_other hj, mapAt_getElem?_other hj]

theorem setEyelet_congr {s : State} {k : Nat} {f g : Eyelet → Eyelet} (h : f (s.eyelet k) = g (s.eyelet k)) :
    setEyelet s k f = setEyelet s k g := by
  unfold setEyelet
  rw [mapAt_congr h]

theorem setEyelet_comm {j k : Nat} (h : j ≠ k) (s : State) (f g : Eyelet → Eyelet) :
    setEyelet (setEyelet s j f) k g = setEyelet (setEyelet s k g) j f := by
  have hlist : mapAt (mapAt s.eyelets j f) k g = mapAt (mapAt s.eyelets k g) j f :=
    List.modify_modify_ne f g s.eyelets h
  unfold setEyelet
  rw [hlist]

theorem setEyelet_id (s : State) (k : Nat) : setEyelet s k id = s := by
  unfold setEyelet mapAt
  rw [List.modify_id]

/-- A health record after `f`, with the WS of the change where its standing changes. -/
def recorded (ws : Nat) (f : TileHealth → TileHealth) (h : TileHealth) : TileHealth :=
  if (f h).state = h.state ∧ (f h).candidate = h.candidate ∧ (f h).pending = h.pending then f h
  else { f h with wsChange := ws }

@[simp] theorem recorded_state (ws : Nat) (f : TileHealth → TileHealth) (h : TileHealth) :
    (recorded ws f h).state = (f h).state := by
  unfold recorded
  split <;> rfl

@[simp] theorem recorded_pending (ws : Nat) (f : TileHealth → TileHealth) (h : TileHealth) :
    (recorded ws f h).pending = (f h).pending := by
  unfold recorded
  split <;> rfl

theorem setTile_eq (s : State) (t : Nat) (f : TileHealth → TileHealth) : setTile s t f =
    { s with mem := { s.mem with tiles := mapAt s.mem.tiles t (recorded s.clk.ws f) } } := rfl

/-- Only the health records differ. -/
def OnlyTiles (s u : State) : Prop := ∃ ts, u = { s with mem := { s.mem with tiles := ts } }

theorem setTile_only (s : State) (t : Nat) (f : TileHealth → TileHealth) : OnlyTiles s (setTile s t f) := ⟨_, rfl⟩

theorem OnlyTiles.trans {s t u : State} (h : OnlyTiles s t) (k : OnlyTiles t u) : OnlyTiles s u := by
  obtain ⟨_, rfl⟩ := h
  obtain ⟨_, rfl⟩ := k
  exact ⟨_, rfl⟩

/-- As `OnlyTiles`, in the words of the statements. -/
theorem OnlyTiles.begun {s u : State} {d : Desc} (h : OnlyTiles (Safety.begun s d) u) :
    ∃ ts, u = { Safety.begun s d with mem := { s.mem with tacks := (Safety.begun s d).mem.tacks, tiles := ts } } := by
  obtain ⟨ts, rfl⟩ := h
  refine ⟨ts, ?_⟩
  rw [begun_eq]

section
variable {s : State} {t : Nat} {h : TileHealth} (hl : s.mem.tiles[t]? = some h) (f : TileHealth → TileHealth)

theorem setTile_same (hl : s.mem.tiles[t]? = some h) : (setTile s t f).mem.tiles[t]? = some (recorded s.clk.ws f h) := by
  rw [setTile_eq]
  exact (mapAt_getElem?_same _ _ _).trans (by rw [hl]; rfl)

theorem setTile_other {x : Nat} (hx : x ≠ t) : (setTile s t f).mem.tiles[x]? = s.mem.tiles[x]? :=
  mapAt_getElem?_other hx _ _

end

/-- The spares are the same where no tile changes into or out of a spare. -/
theorem spareTiles_congr {s u : State}
    (h : ∀ x, (u.mem.tiles.getD x (TileHealth.factory 0)).state = 1 ↔
      (s.mem.tiles.getD x (TileHealth.factory 0)).state = 1) : spareTiles u = spareTiles s :=
  List.filter_congr fun x _ => decide_eq_decide.2 (h x)

/-- A tile in use that is retired leaves the spares as they were. -/
theorem spareTiles_setTile {s : State} {t : Nat} {h : TileHealth} (hl : s.mem.tiles[t]? = some h) (h0 : h.state ≠ 1)
    {f : TileHealth → TileHealth} (hf : (f h).state ≠ 1) : spareTiles (setTile s t f) = spareTiles s := by
  refine spareTiles_congr fun x => ?_
  simp only [List.getD_eq_getElem?_getD]
  by_cases hx : x = t
  · subst hx
    rw [setTile_same f hl, hl]
    simp [h0, hf]
  · rw [setTile_other f hx]

/-- A spare has a record that says so. -/
theorem spare_record {s : State} {p : Nat} (h : (spareTiles s).head? = some p) :
    ∃ g, s.mem.tiles[p]? = some g ∧ g.state = 1 := by
  have hp := (List.mem_filter.1 (List.mem_of_mem_head? h)).2
  rw [decide_eq_true_iff, List.getD_eq_getElem?_getD] at hp
  cases hg : s.mem.tiles[p]? with
  | none => rw [hg] at hp; exact absurd hp (by decide)
  | some g => rw [hg] at hp; exact ⟨g, rfl, hp⟩

theorem getD_of_getElem? {α : Type} {xs : List α} {i : Nat} {x : α} (h : xs[i]? = some x) (e : α) : xs.getD i e = x := by
  rw [List.getD_eq_getElem?_getD, h]
  rfl

/-! ### TILE_RETIRE -/

theorem tileRetire_exec {s : State} {d : Desc} (h : Starts s d 0x40) :
    exec (.tileRetire d) s = .next (runTileRetire (begun s d) d) :=
  starts_next h (i := .tileRetire d) (by simp [h.1])

/-- A tile that is retired, and no longer a candidate. -/
def retiredTile (h : TileHealth) : TileHealth := { h with state := 2, candidate := false, pending := false, causes := [] }

section
variable {u : State} {d : Desc} {h : TileHealth} (hl : u.mem.tiles[d.at 8 1]? = some h)
include hl

theorem runTileRetire_refused (h2 : 2 ≤ h.state) : runTileRetire u d = badDesc u d 0x32 := by
  unfold runTileRetire
  dsimp only
  rw [hl]
  exact if_pos h2

theorem runTileRetire_spare (h1 : h.state = 1) : runTileRetire u d =
    doneDesc (event (setTile u (d.at 8 1) retiredTile) 0x4013
      [d.at 8 1, 0xFF, (enabledTiles (setTile u (d.at 8 1) retiredTile)).length]) d := by
  unfold runTileRetire
  dsimp only
  rw [hl]
  dsimp only
  rw [if_neg (by omega), if_pos h1]
  rfl

theorem runTileRetire_noJob (h0 : h.state = 0) (hj : u.job = none) :
    runTileRetire u d = doneDesc (retireTile u (d.at 8 1)) d := by
  unfold runTileRetire
  dsimp only
  rw [hl]
  dsimp only
  rw [if_neg (by omega), if_neg (by omega), if_pos (by simp [hj])]

theorem runTileRetire_later (h0 : h.state = 0) (hj : u.job ≠ none) : runTileRetire u d =
    doneDesc (setTile u (d.at 8 1) (fun h => { h with pending := true })) d := by
  unfold runTileRetire
  dsimp only
  rw [hl]
  dsimp only
  rw [if_neg (by omega), if_neg (by omega), if_neg (by simpa using hj)]

end

/-- The state once a tile has been retired and `spare`, if there is one, has taken its place. -/
def replaced (u : State) (t : Nat) (spare : Option Nat) : State :=
  spare.elim (setTile u t retiredTile) (fun p => setTile (setTile u t retiredTile) p (fun h => { h with state := 0 }))

theorem replaced_only (u : State) (t : Nat) (spare : Option Nat) : OnlyTiles u (replaced u t spare) := by
  cases spare with
  | none => exact setTile_only _ _ _
  | some p => exact (setTile_only _ _ _).trans (setTile_only _ _ _)

theorem retireTile_eq {u : State} {t : Nat} {h : TileHealth} (hl : u.mem.tiles[t]? = some h) (h0 : h.state = 0) :
    retireTile u t = event (replaced u t (spareTiles u).head?) 0x4013
      [t, ((spareTiles u).head?).getD 0xFF, (enabledTiles (replaced u t (spareTiles u).head?)).length] := by
  have hspare : spareTiles (setTile u t retiredTile) = spareTiles u :=
    spareTiles_setTile hl (by omega) (by simp [retiredTile])
  have hfun : (fun h : TileHealth => { h with state := 2, candidate := false, pending := false, causes := [] }) =
      retiredTile := rfl
  unfold retireTile
  rw [hfun]
  dsimp only
  rw [hspare]
  cases (spareTiles u).head? <;> rfl

theorem replaced_retired {u : State} {t : Nat} {h : TileHealth} (hl : u.mem.tiles[t]? = some h) (h0 : h.state = 0)
    (e : TileHealth) : ((replaced u t (spareTiles u).head?).mem.tiles.getD t e).state = 2 := by
  have hsame := setTile_same retiredTile hl
  cases hp : (spareTiles u).head? with
  | none => exact (congrArg TileHealth.state (getD_of_getElem? hsame e)).trans (recorded_state _ _ _)
  | some p =>
    obtain ⟨g, hg, hg1⟩ := spare_record hp
    have hne : t ≠ p := fun heq => by
      rw [← heq, hl] at hg
      obtain rfl := Option.some.inj hg
      omega
    have hkeep := (setTile_other (s := setTile u t retiredTile) (fun h => { h with state := 0 }) hne).trans hsame
    exact (congrArg TileHealth.state (getD_of_getElem? hkeep e)).trans (recorded_state _ _ _)

/-- What the tiles of a replacement are besides the retired one. -/
theorem replaced_others {u : State} {t : Nat} {h : TileHealth} (hl : u.mem.tiles[t]? = some h) (h0 : h.state = 0)
    (e : TileHealth) :
    match (spareTiles u).head? with
    | some p => ((replaced u t (some p)).mem.tiles.getD p e).state = 0 ∧
        ∀ x, x ≠ t → x ≠ p → (replaced u t (some p)).mem.tiles[x]? = u.mem.tiles[x]?
    | none => ∀ x, x ≠ t → (replaced u t none).mem.tiles[x]? = u.mem.tiles[x]? := by
  cases hp : (spareTiles u).head? with
  | none => exact fun x hx => setTile_other _ hx
  | some p =>
    obtain ⟨g, hg, hg1⟩ := spare_record hp
    have hne : p ≠ t := fun heq => by
      rw [heq, hl] at hg
      obtain rfl := Option.some.inj hg
      omega
    have hspare := setTile_same (fun h => { h with state := 0 }) ((setTile_other retiredTile hne).trans hg)
    exact ⟨(congrArg TileHealth.state (getD_of_getElem? hspare e)).trans (recorded_state _ _ _),
      fun x hx hxp => (setTile_other _ hxp).trans (setTile_other _ hx)⟩

theorem spareTiles_begun (s : State) (d : Desc) : spareTiles (begun s d) = spareTiles s := by
  rw [begun_eq]
  rfl

theorem OnlyTiles.outst {s u : State} (h : OnlyTiles s u) (r slot : Nat) : outstOf u r slot = outstOf s r slot := by
  obtain ⟨_, rfl⟩ := h
  rfl

/-! ### LINK_RETRAIN -/

theorem linkRetrain_exec {s : State} {d : Desc} (h : Starts s d 0x41) :
    exec (.linkRetrain d) s = .next (runLinkRetrain (begun s d) d) :=
  starts_next h (i := .linkRetrain d) (by simp [h.1])

/-- An eyelet that is neither UP nor in a bridge gives up its training. -/
def lowered (e : Eyelet) : Eyelet := if e.state = .down then e else dropLink e .down

/-- The settings that LINK_RETRAIN gives an eyelet. -/
def retrained (d : Desc) (e : Eyelet) : Eyelet :=
  { e with widthCap := d.at 9 1, speedPin := bitOf (d.at 10 1) 0, laneRetire := d.at 11 1 }

@[simp] theorem lowered_bridgePeer (e : Eyelet) : (lowered e).bridgePeer = e.bridgePeer := by
  unfold lowered
  split <;> rfl

theorem retrain_lowered {u : State} {k : Nat} (hu : (u.eyelet k).state ≠ .up) (hr : (u.eyelet k).state ≠ .relay) :
    retrain u k = setEyelet u k lowered := by
  unfold retrain
  by_cases hd : (u.eyelet k).state = .down
  · have hsame : lowered (u.eyelet k) = id (u.eyelet k) := if_pos hd
    rw [if_pos hd, setEyelet_congr hsame, setEyelet_id]
  · have hlow : lowered (u.eyelet k) = (dropLink · .down) (u.eyelet k) := if_neg hd
    rw [if_neg hd, setEyelet_congr (g := (dropLink · .down)) hlow, takeDown]
    cases he : (u.eyelet k).state with
    | up => exact absurd he hu
    | relay => exact absurd he hr
    | _ => rfl

theorem unbridge_none {u : State} {k : Nat} (h : (u.eyelet k).bridgePeer = none) : unbridge u k = u := by
  unfold unbridge
  rw [h]

section
variable {u : State} {d : Desc}

theorem runLinkRetrain_held (h : (u.eyelet (d.at 8 1)).state = .held) : runLinkRetrain u d = badState u d 0x12 :=
  if_pos (Or.inl h)

theorem runLinkRetrain_laced (hk : (u.eyelet (d.at 8 1)).state ≠ .held) (hp : (u.eyelet (d.at 13 1)).state ≠ .held)
    (hb : bitOf (d.at 12 1) 0 = true) (hl : lacingUses u (d.at 8 1) = true) : runLinkRetrain u d = badState u d 0x0F := by
  unfold runLinkRetrain
  dsimp only
  rw [if_neg (by simp [hk, hp]), if_pos ⟨hb, Or.inl hl⟩]

/-- The eyelet named, with its new settings. -/
def resettled (u : State) (d : Desc) : State := setEyelet (unbridge (retrain u (d.at 8 1)) (d.at 8 1)) (d.at 8 1) (retrained d)

theorem runLinkRetrain_alone (hk : (u.eyelet (d.at 8 1)).state ≠ .held) (hb : bitOf (d.at 12 1) 0 = false) :
    runLinkRetrain u d = doneDesc (resettled u d) d := by
  unfold runLinkRetrain
  dsimp only
  rw [if_neg (by simp [hk, hb]), if_neg (by simp [hb]), if_neg (by simp [hb])]
  rfl

/-- Eyelets `k` and `p` in one bridge. -/
def bridged (v : State) (k p : Nat) : State :=
  setEyelet (setEyelet (retrain (unbridge v p) p) k (fun e => { e with bridgePeer := some p })) p
    (fun e => { e with bridgePeer := some k })

theorem runLinkRetrain_bridge (hk : (u.eyelet (d.at 8 1)).state ≠ .held) (hp : (u.eyelet (d.at 13 1)).state ≠ .held)
    (hb : bitOf (d.at 12 1) 0 = true) (hl : lacingUses u (d.at 8 1) = false) (hl' : lacingUses u (d.at 13 1) = false) :
    runLinkRetrain u d = doneDesc (bridged (resettled u d) (d.at 8 1) (d.at 13 1)) d := by
  unfold runLinkRetrain
  dsimp only
  rw [if_neg (by simp [hk, hp]), if_neg (by simp [hl, hl']), if_pos hb]
  rfl

end

theorem outstOf_setEyelet (s : State) (k : Nat) (f : Eyelet → Eyelet) (r slot : Nat) :
    outstOf (setEyelet s k f) r slot = outstOf s r slot := rfl

theorem setEyelet_length (s : State) (k : Nat) (f : Eyelet → Eyelet) :
    (setEyelet s k f).eyelets.length = s.eyelets.length := Laws.mapAt_length _ _ _

/-- Nothing in a bridge and neither UP nor RELAY: the eyelet stands in DOWN with its new settings. -/
theorem resettled_eq {u : State} {d : Desc} (hk : d.at 8 1 < u.eyelets.length)
    (hb : (u.eyelet (d.at 8 1)).bridgePeer = none) (hu : (u.eyelet (d.at 8 1)).state ≠ .up)
    (hr : (u.eyelet (d.at 8 1)).state ≠ .relay) :
    resettled u d = setEyelet u (d.at 8 1) (fun e => retrained d (lowered e)) := by
  have hpeer : ((setEyelet u (d.at 8 1) lowered).eyelet (d.at 8 1)).bridgePeer = none := by
    rw [setEyelet_eyelet _ _ _ hk, lowered_bridgePeer, hb]
  rw [resettled, retrain_lowered hu hr, unbridge_none hpeer, setEyelet_setEyelet]

/-- The second eyelet of a bridge, where it too was in none and neither UP nor RELAY. -/
theorem bridged_eq {v : State} {k p : Nat} (hb : (v.eyelet p).bridgePeer = none) (hu : (v.eyelet p).state ≠ .up)
    (hr : (v.eyelet p).state ≠ .relay) (hne : p ≠ k) : bridged v k p =
    setEyelet (setEyelet v k (fun e => { e with bridgePeer := some p })) p
      (fun e => { lowered e with bridgePeer := some k }) := by
  rw [bridged, unbridge_none hb, retrain_lowered hu hr, setEyelet_comm hne, setEyelet_setEyelet]

/-! ### PAGE_RETIRE -/

theorem pageRetire_exec {s : State} {d : Desc} (h : Starts s d 0x42) :
    exec (.pageRetire d) s = .next (runPageRetire (begun s d) d) :=
  starts_next h (i := .pageRetire d) (by simp [h.1])

theorem sparesTaken_begun (s : State) (d : Desc) (a : Nat) : sparesTaken (begun s d) a = sparesTaken s a := by
  rw [begun_eq]
  rfl

theorem excludedBlocks_begun (s : State) (d : Desc) : excludedBlocks (begun s d) = excludedBlocks s := by
  rw [begun_eq]
  rfl

section
variable {u : State} {d : Desc}

theorem runPageRetire_outside (h : hbmEnd ≤ d.at 8 8) : runPageRetire u d = complete u d.ring d.slot stBadAddress 0 :=
  if_pos h

theorem runPageRetire_copies (h : d.at 8 8 < hbmEnd) (hs : sparesTaken u (d.at 8 8) < 2) : runPageRetire u d =
    { u with mem := { u.mem with
      copying := u.mem.copying ++ [(d.ring, d.slot, hbmPage (d.at 8 8), sparesTaken u (d.at 8 8))] } } := by
  unfold runPageRetire
  dsimp only
  rw [if_neg (Nat.not_le.2 h), if_pos hs]

variable (h : d.at 8 8 < hbmEnd) (hs : 2 ≤ sparesTaken u (d.at 8 8))
include h hs

theorem runPageRetire_last (hb : hbmBlock (d.at 8 8) = 9215) : runPageRetire u d = badState u d 0x11 := by
  unfold runPageRetire
  dsimp only
  rw [if_neg (Nat.not_le.2 h), if_neg (Nat.not_lt.2 hs), if_pos hb]

variable (hb : hbmBlock (d.at 8 8) ≠ 9215)
include hb

theorem runPageRetire_again (hx : hbmBlock (d.at 8 8) ∈ excludedBlocks u) : runPageRetire u d = doneDesc u d [] 8 := by
  unfold runPageRetire
  dsimp only
  rw [if_neg (Nat.not_le.2 h), if_neg (Nat.not_lt.2 hs), if_neg hb, if_pos (List.contains_iff_mem.2 hx), excludedFlag]

variable (hx : hbmBlock (d.at 8 8) ∉ excludedBlocks u)
include hx

theorem runPageRetire_full (hf : 256 ≤ (excludedBlocks u).length) : runPageRetire u d = badState u d 0x10 := by
  unfold runPageRetire
  dsimp only
  rw [if_neg (Nat.not_le.2 h), if_neg (Nat.not_lt.2 hs), if_neg hb, if_neg (mt List.contains_iff_mem.1 hx), if_pos hf]

theorem runPageRetire_excludes (hf : (excludedBlocks u).length < 256) : runPageRetire u d =
    doneDesc (event { u with mem := { u.mem with
      retired := u.mem.retired ++ [{ addr := hbmBlock (d.at 8 8) * 2 ^ 24, kind := 2, spare := 0, corrected := 0 }] } }
        0x4024 []) d [] 8 := by
  unfold runPageRetire
  dsimp only
  rw [if_neg (Nat.not_le.2 h), if_neg (Nat.not_lt.2 hs), if_neg hb, if_neg (mt List.contains_iff_mem.1 hx),
    if_neg (Nat.not_le.2 hf), excludedFlag]

end

/-! ### The three commands -/

theorem lacingUses_begun (s : State) (d : Desc) (k : Nat) : lacingUses (begun s d) k = lacingUses s k :=
  lacingUses_congr (begun_lasts s d) (begun_job s d) k

theorem eyelet_begun (s : State) (d : Desc) (k : Nat) : (begun s d).eyelet k = s.eyelet k := by
  rw [begun_eq]
  rfl

/-- The state in which an eyelet has left UP and nothing is recorded yet. -/
def departed (s : State) (k cause : Nat) (notice : Bool) (next : LinkState) : State :=
  holdBegun (if notice then sendNow s k (miniUnit [0x08, byteOf cause]) else s) k next

theorem leaveUp_eq (s : State) (k cause : Nat) (notice : Bool) (next : LinkState) : leaveUp s k cause notice next =
    laceLinkDown (event (event (departed s k cause notice next) 0x2202 [k, cause]) 0x2208 [k]) k := by
  cases notice <;> rfl

/-- The loss of an eyelet that no lacing uses is recorded, and no more. -/
theorem leaveUp_unused {s : State} {k : Nat} (h : lacingUses s k = false) (cause : Nat) (notice : Bool)
    (next : LinkState) : leaveUp s k cause notice next =
      event (event (departed s k cause notice next) 0x2202 [k, cause]) 0x2208 [k] := by
  rw [leaveUp_eq, laceLinkDown_unused]
  rw [← h]
  refine lacingUses_congr ?_ ?_ k
  · rw [event_lasts, event_lasts]
    cases notice <;> rfl
  · rw [event_job, event_job]
    cases notice <;> rfl

theorem outstOf_departed (s : State) (k cause : Nat) (notice : Bool) (next : LinkState) (r slot : Nat) :
    outstOf (departed s k cause notice next) r slot = outstOf s r slot := by
  cases notice <;> rfl

theorem settleBackoff_bridgePeer (now : Nat) (e : Eyelet) : (settleBackoff now e).bridgePeer = e.bridgePeer := by
  unfold settleBackoff
  split <;> rfl

theorem departed_bridgePeer {s : State} {k : Nat} (hk : k < s.eyelets.length) (cause : Nat) (notice : Bool)
    (next : LinkState) : ((departed s k cause notice next).eyelet k).bridgePeer = (s.eyelet k).bridgePeer := by
  unfold departed holdBegun
  cases notice with
  | false =>
    rw [if_neg Bool.false_ne_true, setEyelet_eyelet _ _ _ hk]
    exact settleBackoff_bridgePeer _ _
  | true =>
    rw [if_pos rfl, setEyelet_eyelet _ _ _ ((setEyelet_length _ _ _).symm ▸ hk)]
    refine (settleBackoff_bridgePeer _ _).trans ?_
    rw [sendNow, setEyelet_eyelet _ _ _ hk]

theorem eyelet_event (s : State) (code : Nat) (slots : List Nat) (k : Nat) :
    (event s code slots).eyelet k = s.eyelet k := congrArg (·.getD k Eyelet.fresh) (event_eyelets s code slots)

/-- An eyelet that is UP, in no bridge and in no lacing, leaves UP and takes its new settings. -/
theorem resettled_up {u : State} {d : Desc} (hk : d.at 8 1 < u.eyelets.length)
    (hb : (u.eyelet (d.at 8 1)).bridgePeer = none) (hu : (u.eyelet (d.at 8 1)).state = .up)
    (hl : lacingUses u (d.at 8 1) = false) :
    resettled u d = setEyelet (leaveUp u (d.at 8 1) 0x02 true .down) (d.at 8 1) (retrained d) := by
  have hre : retrain u (d.at 8 1) = leaveUp u (d.at 8 1) 0x02 true .down := by
    rw [retrain, if_neg (by rw [hu]; decide), takeDown, hu]
  have hpeer : ((leaveUp u (d.at 8 1) 0x02 true .down).eyelet (d.at 8 1)).bridgePeer = none := by
    rw [leaveUp_unused hl, eyelet_event, eyelet_event, departed_bridgePeer hk, hb]
  rw [resettled, hre, unbridge_none hpeer]

theorem leaveUp_length {s : State} {k : Nat} (hl : lacingUses s k = false) (cause : Nat) (notice : Bool)
    (next : LinkState) : (leaveUp s k cause notice next).eyelets.length = s.eyelets.length := by
  rw [leaveUp_unused hl, event_eyelets, event_eyelets]
  cases notice <;> simp [departed, holdBegun, sendNow]

theorem tileRetire_next {s : State} {d : Desc} (hs : Starts s d 0x40) {t : State} (h : runTileRetire (begun s d) d = t) :
    exec (.tileRetire d) s = .next t := (tileRetire_exec hs).trans (congrArg _ h)

theorem linkRetrain_next {s : State} {d : Desc} (hs : Starts s d 0x41) {t : State}
    (h : runLinkRetrain (begun s d) d = t) : exec (.linkRetrain d) s = .next t :=
  (linkRetrain_exec hs).trans (congrArg _ h)

theorem pageRetire_next {s : State} {d : Desc} (hs : Starts s d 0x42) {t : State} (h : runPageRetire (begun s d) d = t) :
    exec (.pageRetire d) s = .next t := (pageRetire_exec hs).trans (congrArg _ h)

/-- Settles O16. -/
theorem retirementsAndRetraining : Obligations.RetirementsAndRetraining := by
  refine ⟨fun s d h hs hl => ?_, fun s d hs hk => ?_, fun s d hs => ?_⟩
  · have ht : ∀ x : Nat, (begun s d).mem.tiles[x]? = s.mem.tiles[x]? := fun x => congrArg (·[x]?) (begun_mem_tiles s d)
    have hlb : (begun s d).mem.tiles[d.at 8 1]? = some h := (ht _).trans hl
    have ho := starts_outst hs
    refine ⟨fun h2 => ⟨_, tileRetire_next hs (runTileRetire_refused hlb h2), badDesc_refused _ ho⟩, fun h1 => ?_,
      fun h0 hj => ?_, fun h0 hj => ?_⟩
    · have honly := setTile_only (begun s d) (d.at 8 1) retiredTile
      exact ⟨_, _, _, tileRetire_next hs (runTileRetire_spare hlb h1), honly.begun,
        (congrArg TileHealth.state (getD_of_getElem? (setTile_same retiredTile hlb) h)).trans (recorded_state _ _ _),
        fun x hx => (setTile_other _ hx).trans (ht x), event_recorded _ _ _,
        doneDesc_ended (by rw [outstOf_event, honly.outst, ho]) hs.1 (by decide) _ rfl (by decide)⟩
    · have honly := setTile_only (begun s d) (d.at 8 1) (fun h => { h with pending := true })
      have hsame := getD_of_getElem? (setTile_same (fun h => { h with pending := true }) hlb) h
      exact ⟨_, _, tileRetire_next hs (runTileRetire_later hlb h0 (by rwa [begun_job])), honly.begun,
        (congrArg TileHealth.pending hsame).trans (recorded_pending _ _ _),
        ((congrArg TileHealth.state hsame).trans (recorded_state _ _ _)).trans h0,
        fun x hx => (setTile_other _ hx).trans (ht x),
        doneDesc_ended ((honly.outst _ _).trans ho) hs.1 (by decide) _ rfl (by decide)⟩
    · have honly := replaced_only (begun s d) (d.at 8 1) (spareTiles s).head?
      have hrun := runTileRetire_noJob hlb h0 ((begun_job s d).trans hj)
      have hret := replaced_retired hlb h0 h
      have hoth := replaced_others hlb h0 h
      rw [retireTile_eq hlb h0, spareTiles_begun] at hrun
      rw [spareTiles_begun] at hret hoth
      refine ⟨_, _, _, tileRetire_next hs hrun, honly.begun, hret, ?_, event_recorded _ _ _,
        doneDesc_ended (by rw [outstOf_event, honly.outst, ho]) hs.1 (by decide) _ rfl (by decide)⟩
      cases hp : (spareTiles s).head? with
      | none => rw [hp] at hoth; exact fun x hx => (hoth x hx).trans (ht x)
      | some p => rw [hp] at hoth; exact ⟨hoth.1, fun x hx hxp => (hoth.2 x hx hxp).trans (ht x)⟩
  · have ho := starts_outst hs
    have hkb : d.at 8 1 < (begun s d).eyelets.length := (congrArg List.length (begun_eyelets s d)) ▸ hk
    intro k set low
    rw [← eyelet_begun s d, ← eyelet_begun s d (d.at 13 1), ← lacingUses_begun s d]
    refine ⟨fun hh => ⟨_, linkRetrain_next hs (runLinkRetrain_held hh), badState_refused _ ho⟩,
      fun hb hlace hh hp => ⟨_, linkRetrain_next hs (runLinkRetrain_laced hh hp hb hlace), badState_refused _ ho⟩,
      fun hb hpeer hh hu hr => ?_, fun hb hp hne hx => ?_, fun hb hpeer hu hlace => ?_⟩
    · have hrun := runLinkRetrain_alone hh hb
      rw [resettled_eq hkb hpeer hu hr] at hrun
      exact ⟨_, setEyelet (begun s d) k (fun e => set (low e)), linkRetrain_next hs hrun, setEyelet_only _ hkb,
        doneDesc_ended (u := setEyelet (begun s d) k (fun e => set (low e))) ho hs.1 (by decide) _ rfl (by decide)⟩
    · obtain ⟨hkpeer, hkh, hku, hkr, hkl⟩ := hx k (Or.inl rfl)
      obtain ⟨hppeer, hph, hpu, hpr, hpl⟩ := hx (d.at 13 1) (Or.inr rfl)
      rw [← eyelet_begun s d] at hkpeer hkh hku hkr hppeer hph hpu hpr
      rw [← lacingUses_begun s d] at hkl hpl
      have hother : (setEyelet (begun s d) k (fun e => retrained d (lowered e))).eyelet (d.at 13 1) =
          (begun s d).eyelet (d.at 13 1) := setEyelet_eyelet_other _ _ _ _ hne
      have hrun := runLinkRetrain_bridge hkh hph hb hkl hpl
      rw [resettled_eq hkb hkpeer hku hkr, bridged_eq (by rw [hother, hppeer]) (by rwa [hother]) (by rwa [hother]) hne,
        setEyelet_setEyelet] at hrun
      exact ⟨_, setEyelet (begun s d) k (fun e => { set (low e) with bridgePeer := some (d.at 13 1) }),
        setEyelet (setEyelet (begun s d) k (fun e => { set (low e) with bridgePeer := some (d.at 13 1) })) (d.at 13 1)
          (fun e => { low e with bridgePeer := some k }), linkRetrain_next hs hrun, setEyelet_only _ hkb,
        setEyelet_only _ (by rw [setEyelet_length, begun_eyelets]; exact hp),
        doneDesc_ended (u := setEyelet (setEyelet (begun s d) k _) (d.at 13 1) _) ho hs.1 (by decide) _ rfl (by decide)⟩
    · have hrun := runLinkRetrain_alone (by rw [hu]; decide) hb
      rw [resettled_up hkb hpeer hu hlace] at hrun
      have hout : outstOf (setEyelet (leaveUp (begun s d) k 0x02 true .down) k set) d.ring d.slot =
          some (outstanding d 2) := by
        rw [outstOf_setEyelet, leaveUp_unused hlace, outstOf_event, outstOf_event, outstOf_departed, ho]
      exact ⟨_, leaveUp (begun s d) k 0x02 true .down, setEyelet (leaveUp (begun s d) k 0x02 true .down) k set,
        linkRetrain_next hs hrun, leaveUp_leftUp hkb _ _ _, setEyelet_only _ (by rw [leaveUp_length hlace]; exact hkb),
        doneDesc_ended hout hs.1 (by decide) _ rfl (by decide)⟩
  · have ho := starts_outst hs
    dsimp only
    rw [← sparesTaken_begun s d, ← excludedBlocks_begun s d, ← begun_mem_copying s d, ← begun_mem_retired s d]
    refine ⟨fun h => ⟨_, pageRetire_next hs (runPageRetire_outside h), complete_ended _ _ _ _ _ _ _ ho ?_ rfl (by decide)⟩,
      fun h hsp => pageRetire_next hs (runPageRetire_copies h hsp), fun h hsp => ⟨fun hb => ?_, fun hb hx => ?_,
      fun hb hx hf => ?_, fun hb hx hf => ?_⟩⟩
    · rw [hs.1]
      decide
    · exact ⟨_, pageRetire_next hs (runPageRetire_last h hsp hb), badState_refused _ ho⟩
    · exact ⟨_, pageRetire_next hs (runPageRetire_again h hsp hb hx), doneDesc_ended ho hs.1 (by decide) _ rfl (by decide)⟩
    · exact ⟨_, pageRetire_next hs (runPageRetire_full h hsp hb hx hf), badState_refused _ ho⟩
    · exact ⟨_, _, pageRetire_next hs (runPageRetire_excludes h hsp hb hx hf), event_recorded _ _ _,
        doneDesc_ended (by rw [outstOf_event]; exact ho) hs.1 (by decide) _ rfl (by decide)⟩

end Sys2Proof.Proofs

/-! TABLE_LOAD of each kind, and the template load that waited for a batch (11 R273, R282, 12 R312, 14 R345, 15 R373). -/
namespace Sys2Proof.Proofs
open Sys2Proof.Machine Sys2Proof.Safety

/-- DONE ends a descriptor that started, once its command has changed what is not a ring. -/
theorem starts_done {s u : State} {d : Desc} {op : Nat} {res : List Byte} (h : Starts s d op) (hq : op ≠ 0x80)
    (hr : u.host.rings = (begun s d).host.rings) : Ended u (doneDesc u d res) d (finalCpl d 0x00 0 res) :=
  doneDesc_ended ((outstOf_congr hr _ _).trans (starts_outst h)) h.1 hq res rfl (by decide)

/-! ### Images that pass -/

section
variable {u : State} {d : Desc} {image b : List Byte} (hd : hostData d image = some b)
include hd

theorem runTableRouting_loads (ha : u.svc.activeBank ≠ d.at 9 1) (hj : bitOf (d.at 10 1) 0 = true → jobLive u = false)
    (hq : bankQuiet u (d.at 9 1) = true) (hh : routingHeaderOk u (d.at 9 1) b = true)
    (he : (List.range (leAt b 6 1 * leAt b 7 1 * leAt b 8 1)).all (routingEntryOk u b) = true) :
    runTableRouting image u d = doneDesc { u with svc := { u.svc with
      banks := setAt u.svc.banks (d.at 9 1) (some (parseRouting b))
      activeBank := if bitOf (d.at 10 1) 0 then d.at 9 1 else u.svc.activeBank } } d := by
  have hfree : ¬(u.svc.activeBank = d.at 9 1 ∨ bitOf (d.at 10 1) 0 = true ∧ jobLive u = true) := by
    rintro (h | ⟨hact, hlive⟩)
    · exact ha h
    · rw [hj hact] at hlive
      exact Bool.false_ne_true hlive
  unfold runTableRouting
  dsimp only
  rw [if_neg hfree, if_neg (by simp [hq]), hd]
  dsimp only
  rw [if_neg (by simp [hh]), if_neg (by simp [he])]

theorem runTablePeer_loads {j : Job} {l : LoadedLast} {ps : List Peer} (hj : u.job = some j) (hl : jobLast u = some l)
    (ht : j.tag = d.at 12 2) (hlead : isLeader u = true)
    (hh : leAt b 0 4 = 0x52454550 ∧ leAt b 4 1 ≤ 4 ∧ zeroRange b 5 11 = true)
    (hp : parsePeers l.log2L b (leAt b 4 1) 16 = some ps) :
    runTablePeer image u d = doneDesc { u with job := some { j with nextPeers := some ps } } d := by
  have hname : namesJob u (d.at 12 2) = true := by
    unfold namesJob
    rw [hj]
    exact decide_eq_true ht
  have hset : setJob u (fun j => { j with nextPeers := some ps }) = { u with job := some { j with nextPeers := some ps } } := by
    unfold setJob
    rw [hj]
    rfl
  unfold runTablePeer
  rw [hl]
  dsimp only
  rw [if_neg (by simp [hname]), if_neg (by simp [hlead]), hd]
  dsimp only
  rw [if_pos hh, hp, ← hset]

theorem runTableTemplate_loads {p : Template} (hp : parseTemplate b = some p) (hb : u.shank.batch = none) :
    runTableTemplate image u d =
      doneDesc { u with shank := { u.shank with slots := setAt u.shank.slots (d.at 9 1) (some p) } } d := by
  unfold runTableTemplate
  rw [hd]
  dsimp only
  rw [hp]
  dsimp only
  rw [if_neg (by simp [hb])]

theorem runTableTemplate_waits {p : Template} (hp : parseTemplate b = some p) (hb : u.shank.batch ≠ none) :
    runTableTemplate image u d = { u with shank := { u.shank with
      loading := u.shank.loading ++ [(d.at 9 1, p, d.ring, d.slot)] } } := by
  unfold runTableTemplate
  rw [hd]
  dsimp only
  rw [hp]
  dsimp only
  rw [if_pos (Option.isSome_iff_ne_none.2 hb)]

/-- The key that an image holds. -/
def keyOf (b : List Byte) : LastKey := ⟨leAt b 0 8, beNat (slice b 8 48), beNat (slice b 56 48)⟩

theorem runTableKey_loads (h0 : d.at 24 4 ≠ 0) (hlen : b.length = 104) (hid : leAt b 0 8 ≠ 0)
    (hp : onP384 (beNat (slice b 8 48)) (beNat (slice b 56 48)) = true)
    (hfree : ∀ i, i < 4 → i ≠ d.at 9 1 → ((u.keys.getD i none).map (·.id)) ≠ some (leAt b 0 8)) :
    runTableKey image u d = doneDesc { u with keys := setAt u.keys (d.at 9 1) (some (keyOf b)) } d := by
  have htaken : (List.range 4).any (fun i => decide (i ≠ d.at 9 1) &&
      decide (((u.keys.getD i none).map (·.id)) = some (leAt b 0 8))) = false := by
    rw [List.any_eq_false]
    intro i hi
    have hlt := List.mem_range.1 hi
    simp only [Bool.and_eq_true, decide_eq_true_eq]
    exact fun h => hfree i hlt h.1 h.2
  unfold runTableKey
  dsimp only
  rw [if_neg h0, hd]
  dsimp only
  rw [if_neg (by rw [htaken]; simp [hlen, hid, hp])]
  rfl

end

/-! ### The commands -/

/-- The kind of a TABLE_LOAD, and so its command. -/
theorem tableLoad_exec {s : State} {d : Desc} (h : Starts s d 0x60) (image : List Byte) :
    (d.at 8 1 = 1 → exec (.tableLoadRouting d image) s = .next (runTableRouting image (begun s d) d)) ∧
      (d.at 8 1 = 2 → exec (.tableLoadPeer d image) s = .next (runTablePeer image (begun s d) d)) ∧
      (d.at 8 1 = 3 → exec (.tableLoadTemplate d image) s = .next (runTableTemplate image (begun s d) d)) ∧
      (d.at 8 1 = 4 → exec (.tableLoadKey d image) s = .next (runTableKey image (begun s d) d)) :=
  ⟨fun hk => starts_next h (i := .tableLoadRouting d image) (by simp [h.1, hk]),
    fun hk => starts_next h (i := .tableLoadPeer d image) (by simp [h.1, hk]),
    fun hk => starts_next h (i := .tableLoadTemplate d image) (by simp [h.1, hk]),
    fun hk => starts_next h (i := .tableLoadKey d image) (by simp [h.1, hk])⟩

section
variable (s : State) (d : Desc)

theorem jobLive_begun : jobLive (begun s d) = jobLive s := by rw [begun_eq]; rfl
theorem bankQuiet_begun (b : Nat) : bankQuiet (begun s d) b = bankQuiet s b := by rw [begun_eq]; rfl
theorem routingHeaderOk_begun (k : Nat) (b : List Byte) : routingHeaderOk (begun s d) k b = routingHeaderOk s k b := by
  rw [begun_eq]; rfl
theorem routingEntryOk_begun (b : List Byte) : routingEntryOk (begun s d) b = routingEntryOk s b := by rw [begun_eq]; rfl
theorem jobLast_begun : jobLast (begun s d) = jobLast s := by rw [begun_eq]; rfl
theorem isLeader_begun : isLeader (begun s d) = isLeader s := by rw [begun_eq]; rfl

end

theorem templateLoadComplete_exec {s : State} {slot r i : Nat} {p : Template} {rest : List (Nat × Template × Nat × Nat)}
    (hb : s.shank.batch = none) (hl : s.shank.loading = (slot, p, r, i) :: rest) :
    exec .templateLoadComplete s = .next (complete { s with shank := { s.shank with
      slots := setAt s.shank.slots slot (some p), loading := rest } } r i stDone 0) := by
  have hexec : exec .templateLoadComplete s = execTemplateLoadComplete s := rfl
  rw [hexec, execTemplateLoadComplete, hb, hl]

/-- Settles O17. -/
theorem tableLoads : Obligations.TableLoads := by
  refine ⟨fun s d image b hs hk ha hj hq hd hh he => ?_, fun s d image b j l ps hs hk hj hl ht hlead hd h1 h2 h3 hp => ?_,
    fun s d image b p hs hk hd hp => ⟨fun hb => ?_, fun hb => ?_⟩,
    fun s d image hs hk => ⟨fun h0 => ?_, fun b h0 hd hlen hid hp hfree => ?_⟩, fun s slot p d rest hb hl ho hop => ?_⟩
  · have hrun := runTableRouting_loads (u := begun s d) hd (by rwa [begun_svc]) (by rwa [jobLive_begun])
      (by rwa [bankQuiet_begun]) (by rwa [routingHeaderOk_begun]) (by rwa [routingEntryOk_begun])
    rw [begun_svc] at hrun
    exact ⟨_, ((tableLoad_exec hs image).1 hk).trans (congrArg _ hrun), starts_done hs (by decide) rfl⟩
  · have hrun := runTablePeer_loads (u := begun s d) hd ((begun_job s d).trans hj) ((jobLast_begun s d).trans hl) ht
      ((isLeader_begun s d).trans hlead) ⟨h1, h2, h3⟩ hp
    exact ⟨_, ((tableLoad_exec hs image).2.1 hk).trans (congrArg _ hrun), starts_done hs (by decide) rfl⟩
  · have hrun := runTableTemplate_loads (u := begun s d) hd hp (by rwa [begun_shank])
    rw [begun_shank] at hrun
    exact ⟨_, ((tableLoad_exec hs image).2.2.1 hk).trans (congrArg _ hrun), starts_done hs (by decide) rfl⟩
  · have hrun := runTableTemplate_waits (u := begun s d) hd hp (by rwa [begun_shank])
    rw [begun_shank] at hrun
    exact ((tableLoad_exec hs image).2.2.1 hk).trans (congrArg _ hrun)
  · have hrun : runTableKey image (begun s d) d = doneDesc { begun s d with keys := setAt s.keys (d.at 9 1) none } d := by
      unfold runTableKey
      dsimp only
      rw [if_pos h0, begun_keys]
    exact ⟨_, ((tableLoad_exec hs image).2.2.2 hk).trans (congrArg _ hrun), starts_done hs (by decide) rfl⟩
  · have hrun := runTableKey_loads (u := begun s d) hd h0 hlen hid hp (by rwa [begun_keys])
    rw [begun_keys] at hrun
    exact ⟨_, ((tableLoad_exec hs image).2.2.2 hk).trans (congrArg _ hrun), starts_done hs (by decide) rfl⟩
  · exact ⟨_, templateLoadComplete_exec hb hl, complete_ended _ d 2 _ _ _ _ ho (by rw [hop]; decide) rfl (by decide)⟩

end Sys2Proof.Proofs

/-! Training of an eyelet, from DETECT to CREDIT (10 R226 to R234, Table 10.4). -/
namespace Sys2Proof.Proofs
open Sys2Proof.Machine Sys2Proof.Safety

/-! ### Training sequences -/

section
variable {s : State} {k ok : Nat} {lanes rest : List (List Byte)} {ts : List Byte} {sustained : Bool}
variable (hts : lanes.filter tsOk = ts :: rest)
include hts

theorem trainingSequence_held (hst : (s.eyelet k).state = .held) : exec (.trainingSequence k lanes sustained ok) s =
    .next (setEyelet s k (fun e => { e with partnerActive := true })) := by
  change execTrainingSequence k lanes sustained ok s = _
  unfold execTrainingSequence
  dsimp only
  rw [hts]
  dsimp only
  rw [hst]

/-- Four lanes of valid sequences, and no restart, take the eyelet to EQUALISE. -/
theorem trainingSequence_detect (hst : (s.eyelet k).state = .detect) (hrest : 3 ≤ rest.length)
    (hlocked : leAt ts 4 1 = 1 → (s.eyelet k).partnerLocked = false) : exec (.trainingSequence k lanes true ok) s =
    .next (setEyelet s k (fun e => { e with state := .equalise })) := by
  have hnote : (if leAt ts 4 1 = 1 then noteRestart s k else s) = s := by
    split
    · next h1 => rw [noteRestart, if_neg (by simp [hlocked h1])]
    · rfl
  change execTrainingSequence k lanes true ok s = _
  unfold execTrainingSequence
  dsimp only
  rw [hts]
  dsimp only
  rw [hst]
  dsimp only
  rw [hnote, if_pos ⟨by rw [List.length_cons]; omega, rfl⟩]

theorem trainingSequence_equalise (hst : (s.eyelet k).state = .equalise) (hdone : leAt ts 4 1 = 3) :
    exec (.trainingSequence k lanes sustained ok) s = .next (equaliseDone s k ts ok) := by
  change execTrainingSequence k lanes sustained ok s = _
  unfold execTrainingSequence
  dsimp only
  rw [hts]
  dsimp only
  rw [hst]
  dsimp only
  rw [if_pos hdone, if_neg (by omega)]

end

/-! ### Timeouts and locks -/

/-- A timeout of DETECT is recorded where none was in the last 10 s. -/
theorem trainingStateTimeout_detect {s : State} {k : Nat} (hst : (s.eyelet k).state = .detect)
    (hfail : (s.eyelet k).trainFailAt = none) : exec (.trainingStateTimeout k) s =
    .next (event (setEyelet s k (fun e => { e with trainFailAt := some s.now })) 0x2203 [k]) := by
  change execTrainingStateTimeout k s = _
  unfold execTrainingStateTimeout
  dsimp only
  rw [hst, hfail]
  rfl

theorem trainingStateTimeout_later {s : State} {k : Nat} (hst : (s.eyelet k).state = .equalise ∨
    (s.eyelet k).state = .lock ∨ (s.eyelet k).state = .exchange ∨ (s.eyelet k).state = .credit) :
    exec (.trainingStateTimeout k) s = .next (event (setEyelet s k (dropLink · .down)) 0x2203 [k]) := by
  change execTrainingStateTimeout k s = _
  unfold execTrainingStateTimeout
  dsimp only
  rcases hst with h | h | h | h <;> rw [h] <;> rfl

/-- The lock of an eyelet in no bridge sends the first EXCHANGE. -/
theorem codewordLock_alone {s : State} {k : Nat} (hst : (s.eyelet k).state = .lock)
    (hb : (s.eyelet k).bridgePeer = none) : exec (.codewordLock k) s =
      .next (enterExchange (setEyelet s k (fun e => { e with partnerLocked := true, hopLocked := true })) k) := by
  change execCodewordLock k s = _
  unfold execCodewordLock
  dsimp only
  rw [if_neg (not_not.2 hst), hb]

/-- The lock of the second hop of a bridge, where both are alike, makes both RELAY. -/
theorem codewordLock_bridge {s : State} {k p : Nat} (hne : p ≠ k) (hst : (s.eyelet k).state = .lock)
    (hb : (s.eyelet k).bridgePeer = some p) (hp : (s.eyelet p).state = .lock) (hlocked : (s.eyelet p).hopLocked = true)
    (hw : (s.eyelet p).lanes.length = (s.eyelet k).lanes.length) (hs : (s.eyelet p).slow = (s.eyelet k).slow) :
    exec (.codewordLock k) s = .next (setEyelet (setEyelet s k (fun e =>
      { e with partnerLocked := true, hopLocked := true, state := .relay })) p (fun e => { e with state := .relay })) := by
  change execCodewordLock k s = _
  unfold execCodewordLock
  dsimp only
  rw [if_neg (not_not.2 hst), hb]
  dsimp only
  rw [setEyelet_eyelet_other _ _ _ _ hne, if_pos ⟨hp, hlocked⟩, if_pos ⟨hw, hs⟩, setEyelet_setEyelet]

theorem backoffExpiry_down {s : State} {k : Nat} (hst : (s.eyelet k).state = .down) :
    exec (.backoffExpiry k) s = .next (enterDetect s k) := by
  change execBackoffExpiry k s = _
  rw [execBackoffExpiry, if_pos hst]

theorem markerLoss_up {s : State} {k lane : Nat} (hl : (s.eyelet k).lanes.contains lane = true)
    (hst : (s.eyelet k).state = .up) : exec (.markerLoss k lane) s = .next (leaveUp s k 0x02 true .down) := by
  change execMarkerLoss k lane s = _
  unfold execMarkerLoss
  dsimp only
  rw [if_neg (by simpa using hl), hst]

/-! ### What goes out in EXCHANGE -/

theorem exchangeResend_sends {s : State} {k : Nat} (hst : (s.eyelet k).state = .exchange)
    (hid : (s.eyelet k).identityOk = false) : exec (.exchangeResend k) s = .next (setEyelet s k (fun e =>
      { e with identitySent := s.dev.coordValid, out := e.out ++ [exchangeItem s k] })) := by
  change execExchangeResend k s = _
  unfold execExchangeResend
  dsimp only
  rw [if_pos ⟨hst, by simp [hid]⟩, sendNow, setEyelet_setEyelet]

theorem latProbeSend_sends {s : State} {k : Nat} (hst : (s.eyelet k).state = .exchange)
    (hn : (s.eyelet k).probesSent < 64) : exec (.latProbeSend k) s = .next (setEyelet s k (fun e =>
      { e with probesSent := e.probesSent + 1,
               out := e.out ++ [miniUnit [0x04, byteOf (s.eyelet k).probesSent]] })) := by
  change execLatProbeSend k s = _
  unfold execLatProbeSend
  dsimp only
  rw [if_pos ⟨hst, hn⟩, sendNow, setEyelet_setEyelet]

/-- Settles O19. The eyelet in 0x2203 and 0x2204 is log entry 21, the cause 0x02 of a lost marker log entry 76. -/
theorem linkTraining : Obligations.LinkTraining := by
  refine ⟨fun s k lanes ok ts rest hts => ⟨fun b hst => trainingSequence_held hts hst,
      fun hst hrest hl => trainingSequence_detect hts hst hrest hl, fun b hst hdone => ?_⟩,
    fun s k hst hf => trainingStateTimeout_detect hst hf, fun s k hst => trainingStateTimeout_later hst,
    fun s k hk hst hb => ?_, fun s k p hk hne hst hb hp hl hw hs => codewordLock_bridge hne hst hb hp hl hw hs,
    fun s k hst => backoffExpiry_down hst, fun s k lane hl hst => markerLoss_up hl hst,
    fun s k hst hid => exchangeResend_sends hst hid, fun s k hst hn => latProbeSend_sends hst hn⟩
  · rw [trainingSequence_equalise hts hst hdone]
    unfold equaliseDone
    refine ⟨fun hnone => ?_, fun hsome => ?_⟩
    · dsimp only
      rw [if_pos (List.isEmpty_iff.2 hnone)]
      rfl
    · dsimp only
      rw [if_neg (mt List.isEmpty_iff.1 hsome)]
  · rw [codewordLock_alone hst hb, enterExchange]
    dsimp only
    rw [setEyelet_setEyelet]
    rfl

end Sys2Proof.Proofs

/-! EXCHANGE and CREDIT: the training mini-units that an eyelet receives (10 R232, R233, R246, R252). -/
namespace Sys2Proof.Proofs
open Sys2Proof.Machine Sys2Proof.Safety

/-! ### Taking an item -/

theorem takeItem_only {s : State} {k : Nat} (hk : k < s.eyelets.length) (item : List Byte) :
    OnlyEyelet s (takeItem s k item) k (fun _ => (takeItem s k item).eyelet k) := OnlyEyelet.fixed (setEyelet_only _ hk)

theorem takeItem_length (s : State) (k : Nat) (item : List Byte) :
    (takeItem s k item).eyelets.length = s.eyelets.length := setEyelet_length _ _ _

/-- An item that is taken leaves the received stream, and the eyelet is otherwise as it was. -/
theorem takeItem_eyelet {s : State} {k : Nat} (hk : k < s.eyelets.length) (item : List Byte) :
    ∃ xs, (takeItem s k item).eyelet k = { s.eyelet k with rxItems := xs } := by
  rw [takeItem, setEyelet_eyelet _ _ _ hk]
  split
  · split
    · exact ⟨_, rfl⟩
    · exact ⟨(s.eyelet k).rxItems, rfl⟩
  · exact ⟨(s.eyelet k).rxItems, rfl⟩

/-! ### The end of EXCHANGE -/

/-- EXCHANGE is over: the latency is frozen and CREDIT_INIT goes out. -/
def toCredit (position k : Nat) (e : Eyelet) : Eyelet :=
  { e with state := .credit, hopLat := e.latMax, overClass := decide (classLimit position k < e.latMax),
           out := e.out ++ [creditInitItem] }

theorem exchangeDone_eq {u : State} {k : Nat} (hst : (u.eyelet k).state = .exchange) {c : Prop} [Decidable c]
    (hc : ((u.eyelet k).identityOk = true ∧ (u.eyelet k).identitySent = true ∧ 64 ≤ (u.eyelet k).probesAnswered.length) ↔ c) :
    exchangeDone u k = if c then setEyelet u k (toCredit u.position k) else u := by
  unfold exchangeDone
  dsimp only
  simp only [hst, true_and, hc]
  rw [sendNow, setEyelet_setEyelet]
  rfl

theorem exchange_exec {s : State} {k : Nat} {item : List Byte} (hst : ((takeItem s k item).eyelet k).state = .exchange)
    (hm : miniOk item = true) (ht : leAt item 0 1 = 0x06)
    (hid : leAt item 1 1 = 1 ∧ bitOf (leAt item 4 1) 4 = true ∧ inPod (takeItem s k item) (leAt item 2 2) = true) :
    exec (.exchange k item) s = .next (exchangeDone (setEyelet (takeItem s k item) k (fun e =>
      { e with identityOk := true, partnerCoord := leAt item 2 2, partnerEyelet := leAt item 4 1 % 16, partnerValid := true,
               partnerRxNext := if bitOf (leAt item 6 2) 15 then some (leAt item 6 2 % 4096) else none })) k) := by
  change execExchange k item s = _
  unfold execExchange
  dsimp only
  rw [if_neg (by simp [hst, hm, ht]), if_pos hid]

theorem latProbe_exec {s : State} {k turn : Nat} {item : List Byte}
    (hst : ((takeItem s k item).eyelet k).state = .exchange ∨ ((takeItem s k item).eyelet k).state = .credit)
    (hm : miniOk item = true) (ht : leAt item 0 1 = 0x04) : exec (.latProbe k item turn) s =
      .next (sendNow (takeItem s k item) k (miniUnit ([0x05, byteAt item 1] ++ leBytes 2 turn))) := by
  change execLatProbe k item turn s = _
  unfold execLatProbe
  dsimp only
  rw [if_pos ⟨hst, hm, ht⟩]

theorem latEcho_exec {s : State} {k round : Nat} {item : List Byte}
    (hst : ((takeItem s k item).eyelet k).state = .exchange) (hm : miniOk item = true) (ht : leAt item 0 1 = 0x05)
    (hsent : leAt item 1 1 < ((takeItem s k item).eyelet k).probesSent)
    (hnew : leAt item 1 1 ∉ ((takeItem s k item).eyelet k).probesAnswered) : exec (.latEcho k item round) s =
      .next (exchangeDone (setEyelet (takeItem s k item) k (fun e =>
        { e with probesAnswered := e.probesAnswered ++ [leAt item 1 1],
                 latMax := max e.latMax ((round - leAt item 2 2) / 2) })) k) := by
  change execLatEcho k item round s = _
  unfold execLatEcho
  dsimp only
  rw [if_pos ⟨hst, hm, ht, hsent, hnew⟩]

theorem creditInit_exec {s : State} {k : Nat} {item : List Byte} {a : Advert}
    (hst : ((takeItem s k item).eyelet k).state = .credit) (hm : miniOk item = true) (ht : leAt item 0 1 = 0x07)
    (ha : parseAdvert item = some a) : exec (.creditInit k item) s = .next (enterUp (takeItem s k item) k a) := by
  change execCreditInit k item s = _
  unfold execCreditInit
  dsimp only
  rw [if_neg (by simp [hst, hm, ht]), ha]

/-- Settles O20. The eyelet in 0x2201 is log entry 21, the LANDING byte of CREDIT_INIT log entry 23. -/
theorem linkExchange : Obligations.LinkExchange := by
  refine ⟨fun s k item hk hst hm ht h1 hb hp => ?_, fun s k item turn hk hst hm ht => ?_,
    fun s k item round hk hst hm ht hsent hnew => ?_, fun s k item a hk hst hm ht ha hg => ?_⟩ <;>
    obtain ⟨xs, he⟩ := takeItem_eyelet hk item <;>
    have hlen : k < (takeItem s k item).eyelets.length := (takeItem_length s k item).symm ▸ hk
  · intro u
    have hu : u.eyelet k = _ := setEyelet_eyelet _ _ _ hlen
    rw [exchange_exec (by rw [he]; exact hst) hm ht ⟨h1, hb, hp⟩]
    refine congrArg Host.Outcome.next (exchangeDone_eq (u := u) (by rw [hu, he]; exact hst) ?_)
    rw [hu, he]
    exact ⟨fun ⟨_, h⟩ => h, fun h => ⟨rfl, h⟩⟩
  · rw [latProbe_exec (by rw [he]; exact hst) hm ht]
    rfl
  · intro u
    have hu : u.eyelet k = _ := setEyelet_eyelet _ _ _ hlen
    rw [latEcho_exec (by rw [he]; exact hst) hm ht (by rw [he]; exact hsent) (by rw [he]; exact hnew)]
    refine congrArg Host.Outcome.next (exchangeDone_eq (u := u) (by rw [hu, he]; exact hst) ?_)
    rw [hu, he]
    simp
  · rw [creditInit_exec (by rw [he]; exact hst) hm ht ha]
    have hgrace : ((takeItem s k item).eyelet k).graceUntil = none := by rw [he]; exact hg
    unfold enterUp
    dsimp only
    rw [hgrace]
    dsimp only
    refine ⟨_, _, rfl, OnlyEyelet.fixed ((takeItem_only hk item).then (setEyelet_only _ hlen)), event_recorded _ _ _, ?_⟩
    rw [setEyelet_eyelet _ _ _ hlen, he]
    exact ⟨rfl, rfl, rfl, rfl, rfl, rfl, rfl, rfl, rfl, rfl, rfl⟩

end Sys2Proof.Proofs

/-! What an eyelet that is UP receives (10 R223, R240 to R248, R253, R255, R256). -/
namespace Sys2Proof.Proofs
open Sys2Proof.Machine Sys2Proof.Safety

/-! ### Codewords -/

theorem codeword_good {s : State} {k n : Nat} (hk : k < s.eyelets.length) (hst : (s.eyelet k).state = .up) (hn : n ≤ 15)
    (marker data : Nat) : exec (.codewordReceived k marker data n) s =
      .next (if marker = 0 then (codewordBlocks data).foldl (takeBlock k) (setEyelet s k (fun e => { e with badRun := 0 }))
        else setEyelet s k (fun e => { e with badRun := 0 })) := by
  change execCodewordReceived k marker data n s = _
  unfold execCodewordReceived
  dsimp only
  rw [hst, if_neg (by decide)]
  simp only [Nat.not_lt.mpr hn, decide_false, Bool.false_eq_true, if_false]
  rw [if_neg (by rw [setEyelet_eyelet _ _ _ hk]; exact Nat.not_succ_le_zero 7)]
  by_cases hm : marker = 0 <;> simp [hm]

theorem codeword_relayed {s : State} {k p n : Nat} (hk : k < s.eyelets.length) (hst : (s.eyelet k).state = .relay)
    (hp : (s.eyelet k).bridgePeer = some p) (hn : n ≤ 15) (data : Nat) : exec (.codewordReceived k 0 data n) s =
      .next (setEyelet (setEyelet s k (fun e => { e with badRun := 0 })) p
        (fun f => { f with out := f.out ++ (codewordBlocks data).map (·.2) })) := by
  change execCodewordReceived k 0 data n s = _
  unfold execCodewordReceived
  dsimp only
  rw [hst, hp, if_neg (by decide)]
  simp only [Nat.not_lt.mpr hn, decide_false, Bool.false_eq_true, if_false]
  rw [if_neg (by rw [setEyelet_eyelet _ _ _ hk]; exact Nat.not_succ_le_zero 7)]
  simp

/-- An uncorrectable codeword counts; the eighth in a row takes the eyelet down. -/
theorem codeword_bad {s : State} {k n : Nat} (hk : k < s.eyelets.length) (hst : (s.eyelet k).state = .up) (hn : 15 < n)
    (marker data : Nat) :
    let v := setEyelet s k (fun e => { e with uncorrected := satUp e.uncorrected, badRun := e.badRun + 1 })
    exec (.codewordReceived k marker data n) s = .next (if 7 ≤ (s.eyelet k).badRun then leaveUp v k 0x02 true .down
      else if marker = 0 then (codewordBlocks data).foldl (takeBlock k) v else v) := by
  intro v
  change execCodewordReceived k marker data n s = _
  unfold execCodewordReceived
  dsimp only
  rw [hst, if_neg (by decide)]
  have hb : (v.eyelet k).badRun = (s.eyelet k).badRun + 1 := by rw [setEyelet_eyelet _ _ _ hk]
  simp only [hn, decide_true, if_true]
  change Host.Outcome.next (if 8 ≤ (v.eyelet k).badRun then _ else _) = _
  rw [hb]
  by_cases h7 : 7 ≤ (s.eyelet k).badRun
  · rw [if_pos (by omega), if_pos h7]
  · rw [if_neg (by omega), if_neg h7]
    by_cases hm : marker = 0 <;> simp [hm, v]

/-! ### Welt units -/

/-- How far a unit lies past the number expected. -/
def ahead (e : Eyelet) (item : List Byte) : Nat := (unitSeq item + 4096 - e.expect % 4096) % 4096

theorem ahead_eq (e : Eyelet) (item : List Byte) : (unitSeq item + 4096 - seq12 e.expect) % 4096 = ahead e item := rfl

theorem window_old {s : State} {k : Nat} {item : List Byte} (hd : 3072 ≤ ahead (s.eyelet k) item) :
    windowUnit s k item = s := by
  unfold windowUnit
  dsimp only
  rw [ahead_eq, if_neg (by omega), if_neg (by omega), if_neg (by omega)]

theorem window_far {s : State} {k : Nat} {item : List Byte} (hd : 1024 ≤ ahead (s.eyelet k) item)
    (hd' : ahead (s.eyelet k) item < 3072) : windowUnit s k item = violation s k 0x2211 (unitSeq item) := by
  unfold windowUnit
  dsimp only
  rw [ahead_eq, if_neg (by omega), if_neg (by omega), if_pos hd']

theorem window_early {s : State} {k : Nat} {item : List Byte} (hd : 0 < ahead (s.eyelet k) item)
    (hd' : ahead (s.eyelet k) item < 64) (hnew : assoc (unitSeq item) (s.eyelet k).reorder = none)
    (ho : overruns (s.eyelet k) item = false) (hb : unitBad item = false) :
    windowUnit s k item = nakMissing (occupy (setEyelet s k (fun e =>
      { e with reorder := e.reorder ++ [(unitSeq item, item)] })) k item) k (ahead (s.eyelet k) item) := by
  unfold windowUnit
  dsimp only
  rw [ahead_eq, if_pos hd', hnew, ho, hb, if_neg Bool.false_ne_true, if_neg Bool.false_ne_true,
    if_neg (Nat.ne_of_gt hd)]
  rfl

theorem window_next {s t : State} {k : Nat} {item : List Byte} (hd : ahead (s.eyelet k) item = 0)
    (hnew : assoc (unitSeq item) (s.eyelet k).reorder = none) (ho : overruns (s.eyelet k) item = false)
    (hb : unitBad item = false) (ht : deliverUnit s k item = (t, true)) :
    windowUnit s k item = deliverHeld k 64 (occupy (setEyelet t k (fun e =>
      { e with expect := e.expect + 1, unechoed := e.unechoed + 1,
               ackDue := e.ackDue || decide (16 ≤ e.unechoed + 1) })) k item) := by
  unfold windowUnit
  dsimp only
  rw [ahead_eq, hd, if_pos (by decide), hnew, ho, hb, if_neg Bool.false_ne_true, if_neg Bool.false_ne_true, if_pos rfl]
  rw [if_neg (show ¬ (none : Option (List Byte)).isSome = true from Bool.false_ne_true)]
  unfold deliverCounted
  rw [ht]

/-- A unit of good CRC with no ECHO meets the receive window. -/
theorem unit_exec {s : State} {k : Nat} {item : List Byte} (hl : item.length = 256)
    (hst : ((takeItem s k item).eyelet k).state = .up) : exec (.weltUnitReceived k item) s =
      .next (if unitCrcOk item = false then nakExpected (takeItem s k item) k
        else let u := if bitOf (leAt item 248 2) 12 then takeEcho (takeItem s k item) k (leAt item 248 2 % 4096) (unitSeq item)
            else takeItem s k item
          if (u.eyelet k).state = .up then windowUnit u k item else u) := by
  change execWeltUnitReceived k item s = _
  unfold execWeltUnitReceived
  dsimp only
  rw [if_neg (not_not.mpr hl), hst]
  cases unitCrcOk item <;> rfl

theorem unit_plain {s : State} {k : Nat} {item : List Byte} (hl : item.length = 256)
    (hst : ((takeItem s k item).eyelet k).state = .up) (hc : unitCrcOk item = true)
    (he : bitOf (leAt item 248 2) 12 = false) :
    exec (.weltUnitReceived k item) s = .next (windowUnit (takeItem s k item) k item) := by
  rw [unit_exec hl hst, hc, he]
  simp [hst]

/-! ### Link-control mini-units -/

theorem ack_exec {s : State} {k : Nat} {item : List Byte} (hst : ((takeItem s k item).eyelet k).state = .up)
    (hm : miniOk item = true) (ht : leAt item 0 1 = 0x01) (htng : bitOf (leAt item 5 1) 0 = false) :
    exec (.ack k item) s = .next ((List.range 6).foldl (fun u i => takeReturn u k i
        (if i < 4 then leAt item (8 + i) 1 else if i = 4 then leAt item 12 2 else leAt item 14 1))
      (if bitOf (leAt item 2 2) 12 then takeEcho (takeItem s k item) k (leAt item 2 2 % 4096) 0x01
        else takeItem s k item)) := by
  change execAck k item s = _
  unfold execAck
  dsimp only
  rw [if_neg (by simp [hst, hm, ht]), htng]
  rfl

theorem takeEcho_known {s : State} {k echo n : Nat} (h : behind (s.eyelet k).sendSeq 4096 echo = some n) (what : Nat) :
    let left := (s.eyelet k).replay.filter (fun r => decide (1023 < (echo + 4096 - r.seq) % 4096))
    takeEcho s k echo what = setEyelet s k (fun e =>
      { e with replay := left, resendQ := e.resendQ.filter (fun q => left.any (fun r => decide (r.seq = q))),
               ackAdvanceAt := if left.length < e.replay.length then s.now else e.ackAdvanceAt }) := by
  unfold takeEcho
  dsimp only
  rw [h]

theorem takeReturn_fits {s : State} {k kind n : Nat} (hn : 0 < n)
    (h : (s.eyelet k).credits.getD kind 0 + n ≤ (s.eyelet k).advert.kinds.getD kind 0) : takeReturn s k kind n =
      setEyelet s k (fun e => { e with credits := mapAt e.credits kind (· + n),
                                       gotBack := mapAt e.gotBack kind (fun x => (x + n) % 65536) }) := by
  unfold takeReturn
  dsimp only
  rw [if_neg (Nat.ne_of_gt hn), if_neg (Nat.not_lt.mpr h)]

/-- A NAK of one number that the replay buffer holds asks for it once more. -/
theorem nak_exec {s : State} {k : Nat} {item : List Byte} {r : ReplayUnit}
    (hst : ((takeItem s k item).eyelet k).state = .up) (hm : miniOk item = true) (ht : leAt item 0 1 = 0x02)
    (h13 : bitOf (leAt item 2 2) 13 = false) (h12 : bitOf (leAt item 2 2) 12 = false)
    (hr : ((takeItem s k item).eyelet k).replay.find? (fun r => decide (r.seq = leAt item 2 2 % 4096)) = some r) :
    exec (.nak k item) s = .next (askResend (takeItem s k item) k (leAt item 2 2 % 4096) true) := by
  have hany : ((takeItem s k item).eyelet k).replay.any (fun r => decide (r.seq = leAt item 2 2 % 4096)) = true :=
    List.any_eq_true.mpr ⟨r, List.mem_of_find?_eq_some hr,
      List.find?_some (p := fun r : ReplayUnit => decide (r.seq = leAt item 2 2 % 4096)) hr⟩
  change execNak k item s = _
  unfold execNak
  dsimp only
  rw [if_neg (by simp [hst, hm, ht]), h13, if_neg (by decide), if_pos hany, h12, if_neg (by decide)]

theorem askResend_due {s : State} {k q : Nat} {r : ReplayUnit} {fresh : Bool} (hst : (s.eyelet k).state = .up)
    (hr : (s.eyelet k).replay.find? (fun r => decide (r.seq = q)) = some r) (hq : q ∉ (s.eyelet k).resendQ)
    (hf : fresh = true → r.sends < 2 ∨ r.sentAt + roundTrip (s.eyelet k) 64 ≤ s.now) :
    askResend s k q fresh = if r.sends < 8 then setEyelet s k (fun e => { e with resendQ := e.resendQ ++ [q] })
      else leaveUp (event s 0x2205 [k]) k 0x05 true .down := by
  unfold askResend
  dsimp only
  rw [hr]
  dsimp only
  rw [if_neg (by
    rintro (h | h | ⟨hfr, h2, hlt⟩)
    · exact h hst
    · exact hq h
    · have := hf hfr
      omega)]
  by_cases h8 : r.sends < 8
  · rw [if_neg (by omega), if_pos h8]
  · rw [if_pos (by omega), if_neg h8]
    rfl

/-- A reported total that agrees with what was returned shows no leak. -/
theorem judgeLeak_agrees {k kind : Nat} {reported due : List Nat} (h : reported.getD kind 0 = due.getD kind 0 % 65536)
    (s : State) : judgeLeak k reported due s kind = s := by
  unfold judgeLeak
  dsimp only
  rw [h, if_neg (by omega)]

theorem foldl_fixed {α β : Type} {f : α → β → α} {a : α} : ∀ {l : List β}, (∀ x ∈ l, f a x = a) → l.foldl f a = a
  | [], _ => rfl
  | x :: xs, h => by
    rw [List.foldl_cons, h x (List.mem_cons_self ..)]
    exact foldl_fixed (fun y hy => h y (List.mem_cons_of_mem _ hy))

theorem creditReport_agrees {s : State} {k : Nat} {item : List Byte} (hk : k < s.eyelets.length)
    (hst : (s.eyelet k).state = .up) (hm : miniOk item = true) (ht : leAt item 0 1 = 0x03)
    (hsame : ∀ i, i < 6 → leAt item (2 + 2 * i) 2 = (((((s.eyelet k).returned.filter (fun x =>
      decide (x.1 + roundTrip (s.eyelet k) 64 < s.now))).getLast?.map (·.2)).getD []).getD i 0) % 65536)
    (hleak : ∀ i, i < 4 → (s.eyelet k).leaks.getD i 0 < 16) :
    let early := (s.eyelet k).returned.filter (fun x => decide (x.1 + roundTrip (s.eyelet k) 64 < s.now))
    exec (.creditReport k item) s = .next (setEyelet (takeItem s k item) k (fun e =>
      { e with returned := early.drop (early.length - 1) ++ e.returned.drop early.length })) := by
  obtain ⟨xs, he⟩ := takeItem_eyelet hk item
  have hlen : k < (takeItem s k item).eyelets.length := (takeItem_length s k item).symm ▸ hk
  change execCreditReport k item s = _
  unfold execCreditReport
  dsimp only
  rw [if_neg (by simp [he, hst, hm, ht]), foldl_fixed]
  · rw [if_neg]
    · rw [he]
      rfl
    · rw [setEyelet_eyelet _ _ _ hlen, he]
      have hnot : (List.range 4).any (fun i => decide (16 ≤ (s.eyelet k).leaks.getD i 0)) = false := by
        simp only [List.any_eq_false, List.mem_range, decide_eq_true_eq, Nat.not_le]
        exact hleak
      simp only [hnot, Bool.false_and, Bool.false_eq_true, not_false_eq_true]
  · intro i hi
    refine judgeLeak_agrees ?_ _
    have hget : ((List.range 6).map (fun i => leAt item (2 + 2 * i) 2)).getD i 0 = leAt item (2 + 2 * i) 2 := by
      simp [List.getD_eq_getElem?_getD, List.mem_range.mp hi]
    rw [hget, he]
    exact hsame i (List.mem_range.mp hi)

/-- Settles O21. The retry limit at the ninth request is log entry 22, the eyelet first in 0x2205 and 0x2209 log entry 21,
the blocks of an uncorrectable codeword taken as they are log entry 82. -/
theorem linkReceive : Obligations.LinkReceive := by
  refine ⟨fun s k marker data n hk hst => ⟨fun hn => codeword_good hk hst hn marker data, fun hn h7 => ?_, fun hn h7 => ?_⟩,
    fun s k p data n hst hp hn hk => codeword_relayed hk hst hp hn data,
    fun s k item hk hl hst => ?_, fun s k item hk hst hm ht htng => ?_,
    fun s k kind n hn h => takeReturn_fits hn h, fun s k item r hk hst hm ht h13 h12 hr hq hfr => ?_,
    fun s k item hk hst hm ht => creditReport_agrees hk hst hm ht, fun s k item hk hm ht hst => ?_,
    fun s k item hk hst hm => ?_, fun s k hg hst => ?_⟩
  · exact (codeword_bad hk hst hn marker data).trans (by rw [if_neg (Nat.not_le.mpr h7)])
  · exact (codeword_bad hk hst hn marker data).trans (by rw [if_pos h7])
  · obtain ⟨xs, he⟩ := takeItem_eyelet hk item
    have hst' : ((takeItem s k item).eyelet k).state = .up := by rw [he]; exact hst
    refine ⟨fun hc => ?_, fun hc he12 => ?_⟩
    · rw [unit_exec hl hst', if_pos hc]
      unfold nakExpected
      rw [he]
      rfl
    · have hah : ahead ((takeItem s k item).eyelet k) item = ahead (s.eyelet k) item := by rw [he]; rfl
      have hov : overruns ((takeItem s k item).eyelet k) item = overruns (s.eyelet k) item := by rw [he]; rfl
      have hre : ((takeItem s k item).eyelet k).reorder = (s.eyelet k).reorder := by rw [he]
      rw [unit_plain hl hst' hc he12]
      refine ⟨fun hd => ?_, fun hd hd' => ?_, fun hd hd' hnew ho hb => ?_, fun t hd hnew ho hb ht => ?_⟩
      · rw [window_old (by rw [hah]; exact hd)]
      · rw [window_far (by rw [hah]; exact hd) (by rw [hah]; exact hd')]
      · rw [window_early (by rw [hah]; exact hd) (by rw [hah]; exact hd') (by rw [hre]; exact hnew) (by rw [hov]; exact ho) hb,
          hah]
        rfl
      · rw [window_next (by rw [hah]; exact hd) (by rw [hre]; exact hnew) (by rw [hov]; exact ho) hb ht]
  · obtain ⟨xs, he⟩ := takeItem_eyelet hk item
    intro f
    rw [ack_exec (by rw [he]; exact hst) hm ht htng]
    refine ⟨fun h12 => by rw [h12]; rfl, fun n h12 hb => ?_⟩
    rw [h12, if_pos rfl, takeEcho_known (n := n) (by rw [he]; exact hb), he]
    rfl
  · obtain ⟨xs, he⟩ := takeItem_eyelet hk item
    rw [nak_exec (by rw [he]; exact hst) hm ht h13 h12 (by rw [he]; exact hr),
      askResend_due (r := r) (by rw [he]; exact hst) (by rw [he]; exact hr) (by rw [he]; exact hq) (fun _ => by rw [he]; exact hfr)]
    exact ⟨fun h8 => by rw [if_pos h8], fun h8 => by rw [if_neg (Nat.not_lt.mpr h8)]⟩
  · obtain ⟨xs, he⟩ := takeItem_eyelet hk item
    have hlen : k < (takeItem s k item).eyelets.length := (takeItem_length s k item).symm ▸ hk
    intro u
    have hu : setEyelet (takeItem s k item) k (fun e => if e.state = .held then e else { e with partnerLocked := true }) = u :=
      setEyelet_congr (by rw [he]; exact if_neg hst)
    have hus : (u.eyelet k).state = (s.eyelet k).state := by rw [setEyelet_eyelet _ _ _ hlen, he]
    have hx : exec (.downNotice k item) s =
        .next (if (u.eyelet k).state = .up then leaveUp u k (leAt item 1 1) false .down else u) := by
      change execDownNotice k item s = _
      unfold execDownNotice
      dsimp only
      rw [if_neg (by simp [hm, ht]), hu]
    rw [hx, hus]
    exact ⟨fun h => by rw [if_pos h], fun h => by rw [if_neg h]⟩
  · obtain ⟨xs, he⟩ := takeItem_eyelet hk item
    change execIdle k item s = _
    unfold execIdle
    dsimp only
    simp only [he, hst, hm, true_and]
  · change execGraceExpiry k s = _
    unfold execGraceExpiry
    dsimp only
    rw [if_pos ⟨Option.isSome_iff_ne_none.mpr hg, hst⟩]

end Sys2Proof.Proofs

/-! What an eyelet sends, and its timers (10 R187, R188, R239, R241, R243, R245, R247, R249). -/
namespace Sys2Proof.Proofs
open Sys2Proof.Machine Sys2Proof.Safety

/-- The classes of R188, in their order. -/
def sendClasses (s : State) (k : Nat) : List (Option State) :=
  [oppTongue s k, oppResend s k false, oppSched s k false, oppSched s k true, oppCtl s k, oppResend s k true, oppSvc s k]

theorem opportunity_idle {s : State} {k : Nat}
    (h : (s.eyelet k).state = .lock ∨ (s.eyelet k).state = .exchange ∨ (s.eyelet k).state = .credit) :
    exec (.unitOpportunity k) s = .next (sendNow s k (miniUnit [0x00])) := by
  change execUnitOpportunity k s = _
  unfold execUnitOpportunity
  dsimp only
  rcases h with h | h | h <;> rw [h]

theorem findSome?_id_cons {α : Type} (x : Option α) (xs : List (Option α)) :
    (x :: xs).findSome? id = x.or (xs.findSome? id) := by
  cases x <;> rfl

/-- With room in the replay buffer the first class that has something to send is served. -/
theorem opportunity_up {s : State} {k : Nat} (hst : (s.eyelet k).state = .up) (hr : (s.eyelet k).replay.length < 1024) :
    exec (.unitOpportunity k) s = .next (((sendClasses s k).findSome? id).getD (sendNow s k (miniUnit [0x00]))) := by
  have hb : replayBlocks (s.eyelet k) = false := by
    unfold replayBlocks
    rw [decide_eq_false (Nat.not_le.mpr hr), Bool.false_and]
  change execUnitOpportunity k s = _
  unfold execUnitOpportunity
  dsimp only
  rw [hst, hb]
  simp only [Bool.false_eq_true, if_false, sendClasses, findSome?_id_cons, List.findSome?_nil, Option.orElse_eq_or,
    Option.or_assoc, Option.or_none]

theorem oppTongue_new {s : State} {k : Nat} {m : List Byte} {rest : List (List Byte)} (hq : (s.eyelet k).tResendQ = [])
    (hm : (s.eyelet k).txTongue = m :: rest) (hc : 0 < (s.eyelet k).credits.getD 5 0) :
    let q := (s.eyelet k).tSend % 256
    let item := miniUnit ((overlay m 1 [byteOf q]).take 28)
    oppTongue s k = some (setEyelet s k (fun e =>
      { e with txTongue := rest, tSend := e.tSend + 1, credits := mapAt e.credits 5 (· - 1),
               tUnacked := e.tUnacked ++ [⟨q, item, 1, s.now⟩], out := e.out ++ [item] })) := by
  unfold oppTongue
  dsimp only
  rw [hq, hm]
  dsimp only
  rw [if_neg (Nat.ne_of_gt hc)]

theorem oppTongue_none {s : State} {k : Nat} (hq : (s.eyelet k).tResendQ = []) (hm : (s.eyelet k).txTongue = []) :
    oppTongue s k = none := by
  unfold oppTongue
  dsimp only
  rw [hq, hm]

theorem oppResend_none {s : State} {k : Nat} (h : (s.eyelet k).resendQ = []) (service : Bool) :
    oppResend s k service = none := by
  unfold oppResend
  dsimp only
  rw [h]
  rfl

theorem oppSched_none {s : State} {k : Nat} (h : (s.eyelet k).txSched = []) (late : Bool) : oppSched s k late = none := by
  unfold oppSched
  dsimp only
  rw [h]
  rfl

theorem oppCtl_plain {s : State} {k : Nat} (h : (s.eyelet k).txCtl = []) : oppCtl s k =
    if (s.eyelet k).ackDue then some (setEyelet s k (fun e => { ackSent s.now e with out := e.out ++ [ackItem e] }))
    else none := by
  unfold oppCtl
  dsimp only
  rw [h]
  rfl

theorem oppSvc_none {s : State} {k : Nat} (h : (s.eyelet k).txResume = []) (hv : ∀ vc, (s.eyelet k).txSvc.getD vc [] = []) :
    oppSvc s k = none := by
  have hn : nextSvc (s.eyelet k) = none := by
    unfold nextSvc
    rw [h]
    simp only [hv]
    rfl
  unfold oppSvc
  dsimp only
  rw [hn]

theorem askTongue_all {s : State} {k : Nat} {u : TongueUnit} {us : List TongueUnit} (hst : (s.eyelet k).state = .up)
    (hu : (s.eyelet k).tUnacked = u :: us) : askTongue s k u.tseq =
      if (s.eyelet k).tUnacked.any (fun u => decide (8 ≤ u.sends)) then leaveUp (event s 0x2205 [k]) k 0x05 true .down
      else setEyelet s k (fun e => { e with tResendQ := (s.eyelet k).tUnacked.map (·.tseq) }) := by
  have hall : (u :: us).dropWhile (fun v => decide (v.tseq ≠ u.tseq)) = u :: us := by simp
  unfold askTongue
  dsimp only
  rw [if_neg (not_not.mpr hst), hu, hall]
  rfl

/-- Settles O22. The ninth sending as the retry limit is log entry 22, the eyelet in 0x2205 log entry 21. -/
theorem linkSend : Obligations.LinkSend := by
  refine ⟨fun s k h => opportunity_idle h, fun s k hst hr => opportunity_up hst hr,
    fun s k m rest hst hr hq hm hc => ?_, fun s k hst hr hrq hq hm hs hctl => ?_, fun s k hst hw => ?_,
    fun s k r rest hst hr hq => ?_, fun s k hst hu => ?_, fun s k hst => ?_⟩
  · rw [opportunity_up hst hr, sendClasses, oppTongue_new hq hm hc]
    rfl
  · rw [opportunity_up hst (by rw [hr]; decide), sendClasses, oppTongue_none hq hm, oppResend_none hrq, oppResend_none hrq,
      oppSched_none hs, oppSched_none hs, oppCtl_plain hctl]
    refine ⟨fun hd => by rw [hd]; rfl, fun hd hres hv => ?_⟩
    rw [hd, oppSvc_none hres hv]
    rfl
  · change execAckDue k s = _
    unfold execAckDue
    dsimp only
    rw [if_pos ⟨hst, hw⟩]
  · change execResendTimeout k s = _
    unfold execResendTimeout
    dsimp only
    rw [hst, hr]
    exact congrArg Host.Outcome.next (askResend_due hst (by rw [hr]; simp) hq (fun h => nomatch h))
  · obtain ⟨u, us, hus⟩ := List.exists_cons_of_ne_nil hu
    change execTongueResendTimeout k s = _
    unfold execTongueResendTimeout
    dsimp only
    rw [hst]
    rw [← askTongue_all hst hus, hus]
  · change execCreditReportSend k s = _
    unfold execCreditReportSend
    dsimp only
    rw [if_pos hst]

end Sys2Proof.Proofs

/-! Tongue messages: accepted, forwarded once, handed to what acts on the job (09 R203, R204, R206, 10 R249, R251). -/
namespace Sys2Proof.Proofs
open Sys2Proof.Machine Sys2Proof.Safety

/-! ### Flooding touches eyelets and the keys seen, nothing else -/

theorem floodOut_eq (s : State) (m : Tongue) (parts : List (List Byte)) (skip : Option Nat) :
    ∃ es seen, floodOut s m parts skip = { s with eyelets := es, svc.floodSeen := seen } := by
  have hfold : ∀ (ks : List Nat) (u : State),
      ∃ es, ks.foldl (fun u k => sendTongue u k (m.bytes :: parts)) u = { u with eyelets := es } := by
    intro ks
    induction ks with
    | nil => exact fun u => ⟨u.eyelets, rfl⟩
    | cons k ks ih =>
      intro u
      obtain ⟨es, hes⟩ := ih (sendTongue u k (m.bytes :: parts))
      exact ⟨es, hes⟩
  obtain ⟨es, hes⟩ := hfold ((upEyelets s).filter (fun k => decide (some k ≠ skip))) (noteFlood s m)
  exact ⟨es, _, hes⟩

section
variable (s : State) (m : Tongue) (parts : List (List Byte)) (skip : Option Nat)

@[simp] theorem floodOut_job : (floodOut s m parts skip).job = s.job := by
  obtain ⟨es, seen, h⟩ := floodOut_eq s m parts skip
  rw [h]
@[simp] theorem floodOut_now : (floodOut s m parts skip).now = s.now := by
  obtain ⟨es, seen, h⟩ := floodOut_eq s m parts skip
  rw [h]
@[simp] theorem floodOut_clk : (floodOut s m parts skip).clk = s.clk := by
  obtain ⟨es, seen, h⟩ := floodOut_eq s m parts skip
  rw [h]
@[simp] theorem isLeader_floodOut : isLeader (floodOut s m parts skip) = isLeader s := by
  obtain ⟨es, seen, h⟩ := floodOut_eq s m parts skip
  rw [h]
  rfl
@[simp] theorem jobChips_floodOut : jobChips (floodOut s m parts skip) = jobChips s := by
  obtain ⟨es, seen, h⟩ := floodOut_eq s m parts skip
  rw [h]
  rfl
@[simp] theorem jobRuns_floodOut : jobRuns (floodOut s m parts skip) = jobRuns s := by
  unfold jobRuns
  rw [floodOut_job]
@[simp] theorem actsOn_floodOut (x : Tongue) : actsOn (floodOut s m parts skip) x = actsOn s x := by
  obtain ⟨es, seen, h⟩ := floodOut_eq s m parts skip
  rw [h]
  rfl
end

/-! ### Acceptance -/

/-- The mini-unit that is expected next is taken. -/
theorem acceptTongue_next {s : State} {k : Nat} {item : List Byte} (hk : k < s.eyelets.length)
    (hst : (s.eyelet k).state = .up) (hm : miniOk item = true) (ht : leAt item 1 1 = (s.eyelet k).tExpect % 256)
    (ho : (s.eyelet k).occupied.getD 5 0 < 16) : acceptTongue s k item = (tongueTaken s k item, true) := by
  obtain ⟨xs, he⟩ := takeItem_eyelet hk item
  unfold acceptTongue
  dsimp only
  rw [hm, if_neg (by decide), he]
  dsimp only
  rw [hst]
  dsimp only
  rw [if_neg (Nat.not_le.mpr ho), if_pos ht]
  rfl

/-- One of the sixteen numbers before it is NAKed. -/
theorem acceptTongue_behind {s : State} {k : Nat} {item : List Byte} (hk : k < s.eyelets.length)
    (hst : (s.eyelet k).state = .up) (hm : miniOk item = true) (ho : (s.eyelet k).occupied.getD 5 0 < 16)
    (h0 : 0 < ((s.eyelet k).tExpect % 256 + 256 - leAt item 1 1) % 256)
    (h16 : ((s.eyelet k).tExpect % 256 + 256 - leAt item 1 1) % 256 ≤ 16) :
    acceptTongue s k item = (queueNak (takeItem s k item) k ((s.eyelet k).tExpect % 256) false true, false) := by
  obtain ⟨xs, he⟩ := takeItem_eyelet hk item
  unfold acceptTongue
  dsimp only
  rw [hm, if_neg (by decide), he]
  dsimp only
  rw [hst]
  dsimp only
  rw [if_neg (Nat.not_le.mpr ho), if_neg (by intro h; rw [h] at h0; omega), if_pos h16]

/-- What tongueTaken leaves of the eyelet. -/
theorem tongueTaken_eyelet {s : State} {k : Nat} (hk : k < s.eyelets.length) (item : List Byte) :
    ∃ xs occ ret un n, (tongueTaken s k item).eyelet k =
      { s.eyelet k with rxItems := xs, tExpect := n, occupied := occ, returnable := ret, unechoed := un } := by
  obtain ⟨xs, he⟩ := takeItem_eyelet hk item
  unfold tongueTaken
  rw [setEyelet_eyelet _ _ _ ((takeItem_length s k item).symm ▸ hk), he]
  exact ⟨_, _, _, _, _, rfl⟩

theorem breakOffer_none {s : State} {k : Nat} (h : (s.eyelet k).offerAsm = none) : breakOffer s k = s := by
  unfold breakOffer
  rw [h]
  exact if_neg Bool.false_ne_true

/-! ### Reception of the messages of one mini-unit -/

theorem hears_taken {s : State} {k type : Nat} {item : List Byte} (h : Hears s k item type) (ht : type ∈ tongueTypes) :
    acceptTongue s k item = (tongueTaken s k item, true) ∧ breakOffer (tongueTaken s k item) k = tongueTaken s k item ∧
      tongueBad (tongueTaken s k item) (Tongue.parse item) = false ∧
      ((tongueTaken s k item).eyelet k).hopLat = (s.eyelet k).hopLat := by
  obtain ⟨hk, hst, hm, htype, hseq, hocc, harg, hpod, hoff⟩ := h
  obtain ⟨xs, occ, ret, un, n, he⟩ := tongueTaken_eyelet hk item
  refine ⟨acceptTongue_next hk hst hm hseq hocc, breakOffer_none (by rw [he]; exact hoff), ?_, by rw [he]⟩
  have hin : inPod (tongueTaken s k item) (Tongue.parse item).origin = true := hpod
  have hc : tongueTypes.contains (Tongue.parse item).type = true := List.contains_iff_mem.mpr (htype ▸ ht)
  rw [tongueBad, hc, harg, hin]
  rfl

theorem tongueIn_hears {s : State} {k type : Nat} {item : List Byte} (h : Hears s k item type) (ht : type ∈ tongueTypes)
    (act : State → Tongue → Nat → State) : tongueIn s k item type act =
      if floodDup s (Tongue.parse item) then tongueTaken s k item
      else if actsOn s (Tongue.parse item) then act (heard s k item) (Tongue.parse item) (heardLat s k item)
      else foreign (heard s k item) (Tongue.parse item) := by
  obtain ⟨hacc, hbrk, hbad, hlat⟩ := hears_taken h ht
  obtain ⟨_, _, _, htype, _⟩ := h
  unfold tongueIn
  dsimp only
  rw [if_neg (fun hc => hc.2 htype), hacc]
  dsimp only
  rw [hbrk, hbad, if_neg Bool.false_ne_true, hlat]
  unfold forward
  rw [hlat]
  have hdup : floodDup (tongueTaken s k item) (Tongue.parse item) = floodDup s (Tongue.parse item) := rfl
  rw [hdup]
  cases floodDup s (Tongue.parse item)
  · rw [if_neg Bool.false_ne_true, if_neg Bool.false_ne_true]
    dsimp only
    rw [actsOn_floodOut]
    rfl
  · rw [if_pos rfl, if_pos rfl]

/-- A message that acts on the job is handed to what acts. -/
theorem tongueIn_acts {s : State} {k type : Nat} {item : List Byte} {j : Job} (h : Acts s k item type j)
    (ht : type ∈ tongueTypes) (act : State → Tongue → Nat → State) :
    tongueIn s k item type act = act (heard s k item) (Tongue.parse item) (heardLat s k item) := by
  obtain ⟨hh, hdup, hacts, _⟩ := h
  rw [tongueIn_hears hh ht, hdup, hacts]
  rfl

theorem tongueIn_behind {s : State} {k type : Nat} {item : List Byte} (htype : (Tongue.parse item).type = type)
    {u : State} (hacc : acceptTongue s k item = (u, false)) (act : State → Tongue → Nat → State) :
    tongueIn s k item type act = u := by
  unfold tongueIn
  dsimp only
  rw [if_neg (fun hc => hc.2 htype), hacc]

/-- What O23 says of one message kind, for whatever it does where it acts. -/
theorem tongueIn_received {s : State} {k type : Nat} {item : List Byte} {c : Instr} (ht : type ∈ tongueTypes)
    (act : State → Tongue → Nat → State) (hc : exec c s = .next (tongueIn s k item type act)) :
    (Hears s k item type → floodDup s (Tongue.parse item) = true → exec c s = .next (tongueTaken s k item)) ∧
    (Hears s k item type → floodDup s (Tongue.parse item) = false → actsOn s (Tongue.parse item) = false →
      exec c s = .next (foreign (heard s k item) (Tongue.parse item))) ∧
    (k < s.eyelets.length → (s.eyelet k).state = .up → miniOk item = true → (Tongue.parse item).type = type →
      (s.eyelet k).occupied.getD 5 0 < 16 → 0 < ((s.eyelet k).tExpect % 256 + 256 - leAt item 1 1) % 256 →
      ((s.eyelet k).tExpect % 256 + 256 - leAt item 1 1) % 256 ≤ 16 →
      exec c s = .next (setEyelet (takeItem s k item) k (fun e =>
        { e with txCtl := e.txCtl ++ [miniUnit ([0x02, 0] ++ leBytes 2 ((s.eyelet k).tExpect % 256 + 8192))] }))) := by
  rw [hc]
  refine ⟨fun h hdup => by rw [tongueIn_hears h ht, hdup]; rfl,
    fun h hdup hact => by rw [tongueIn_hears h ht, hdup, hact]; rfl, fun hk hst hm htype ho h0 h16 => ?_⟩
  rw [tongueIn_behind htype (acceptTongue_behind hk hst hm ho h0 h16)]
  rfl

/-- Settles O23. The NAK of a T_SEQ 1 to 16 behind the one expected is log entry 77. -/
theorem tongueReception : Obligations.TongueReception := by
  intro s k item type c hc
  simp only [List.mem_cons, List.not_mem_nil, or_false, Prod.mk.injEq] at hc
  rcases hc with ⟨rfl, rfl⟩ | ⟨rfl, rfl⟩ | ⟨rfl, rfl⟩ | ⟨rfl, rfl⟩ | ⟨rfl, rfl⟩ | ⟨rfl, rfl⟩ | ⟨rfl, rfl⟩ | ⟨rfl, rfl⟩ <;>
    exact tongueIn_received (by decide) _ rfl

/-! ### OFFER -/

/-- A whole group that acts on the job becomes its offer. -/
theorem offerWhole_acts {s : State} {k : Nat} {m : Tongue} {parts : List (List Byte)} {j : Job}
    (hj : s.job = some j) (hdup : floodDup s m = false) (hact : actsOn s m = true) :
    let v := floodOut s { m with lat := m.lat + (s.eyelet k).hopLat + 24 * nsTicks } parts (some k)
    offerWhole s k m parts = { v with job := some { j with barrier := { j.barrier with
      offer := some (m.jsf, (parts.flatMap (fun p => slice p 4 24)).take 64) } } } := by
  intro v
  unfold offerWhole forward
  rw [hdup, if_neg Bool.false_ne_true]
  dsimp only
  rw [actsOn_floodOut, hact, if_pos rfl, setBarrier, setJob, floodOut_job, hj]
  rfl

theorem offerPart_exec {s : State} {k : Nat} {item : List Byte} {a : OfferAsm} (ht : leAt item 0 1 = 0x11)
    (hacc : acceptTongue s k item = (tongueTaken s k item, true))
    (ha : ((tongueTaken s k item).eyelet k).offerAsm = some a) (hn : leAt item 2 1 = a.parts.length) :
    exec (.offerPart k item) s = .next (if a.parts.length < 2 then
        setEyelet (tongueTaken s k item) k (fun e => { e with offerAsm := some ⟨a.item, a.parts ++ [item]⟩ })
      else offerWhole (setEyelet (tongueTaken s k item) k (fun e => { e with offerAsm := none })) k (Tongue.parse a.item)
        (a.parts ++ [item])) := by
  change execOfferPart k item s = _
  unfold execOfferPart
  rw [if_neg (not_not.mpr ht), hacc]
  dsimp only
  rw [ha]
  dsimp only
  rw [if_neg (not_not.mpr hn)]

/-- Settles O24. -/
theorem offerGroup : Obligations.OfferGroup := by
  refine ⟨fun s k item h => ?_, fun s k item a hk hst hm ht hseq hocc ha hn => ?_⟩
  · obtain ⟨hacc, hbrk, hbad, hlat⟩ := hears_taken h (by decide)
    obtain ⟨_, _, _, htype, _⟩ := h
    change execOffer k item s = _
    unfold execOffer
    dsimp only
    rw [if_neg (fun hc => hc.2 htype), hacc]
    dsimp only
    rw [hbrk, hbad, if_neg Bool.false_ne_true]
  · obtain ⟨xs, occ, ret, un, n, he⟩ := tongueTaken_eyelet hk item
    have hlen : k < (tongueTaken s k item).eyelets.length := by
      rw [tongueTaken, setEyelet_length, takeItem_length]
      exact hk
    rw [offerPart_exec ht (acceptTongue_next hk hst hm hseq hocc) (by rw [he]; exact ha) hn]
    refine ⟨fun h2 => by rw [if_pos h2], fun j h2 hj hdup hact => ?_⟩
    intro u v
    rw [if_neg (Nat.not_lt.mpr h2)]
    have hlat : (u.eyelet k).hopLat = (s.eyelet k).hopLat := by rw [setEyelet_eyelet _ _ _ hlen, he]
    have hw := offerWhole_acts (s := u) (k := k) (parts := a.parts ++ [item]) hj hdup hact
    rw [hlat] at hw
    exact congrArg Host.Outcome.next hw

end Sys2Proof.Proofs

/-! The start barrier by message and by its timers (09 R206 to R211). -/
namespace Sys2Proof.Proofs
open Sys2Proof.Machine Sys2Proof.Safety

theorem setBarrier_eq {s : State} {j : Job} (hj : s.job = some j) (f : Barrier → Barrier) :
    setBarrier s f = { s with job := some { j with barrier := f j.barrier } } := by
  rw [setBarrier, setJob, hj]
  rfl

theorem setJobState_eq {s : State} {j : Job} (hj : s.job = some j) (x : JobState) :
    setJobState s x = syncDev { s with job := some { j with state := x } } := by
  rw [setJobState, setJob, hj]
  rfl

@[simp] theorem heard_job (s : State) (k : Nat) (item : List Byte) : (heard s k item).job = s.job :=
  floodOut_job (tongueTaken s k item) _ _ _
@[simp] theorem heard_now (s : State) (k : Nat) (item : List Byte) : (heard s k item).now = s.now :=
  floodOut_now (tongueTaken s k item) _ _ _
@[simp] theorem heard_clk (s : State) (k : Nat) (item : List Byte) : (heard s k item).clk = s.clk :=
  floodOut_clk (tongueTaken s k item) _ _ _
@[simp] theorem isLeader_heard (s : State) (k : Nat) (item : List Byte) : isLeader (heard s k item) = isLeader s :=
  isLeader_floodOut (tongueTaken s k item) _ _ _
@[simp] theorem jobChips_heard (s : State) (k : Nat) (item : List Byte) : jobChips (heard s k item) = jobChips s :=
  jobChips_floodOut (tongueTaken s k item) _ _ _
@[simp] theorem jobRuns_heard (s : State) (k : Nat) (item : List Byte) : jobRuns (heard s k item) = jobRuns s :=
  jobRuns_floodOut (tongueTaken s k item) _ _ _

/-- Which chip leads depends on the job's last alone. -/
theorem isLeader_congr {s t : State} (h : jobLast t = jobLast s) : isLeader t = isLeader s := by
  unfold isLeader
  rw [h]

theorem jobChips_congr {s t : State} (h : jobLast t = jobLast s) : jobChips t = jobChips s := by
  unfold jobChips
  rw [h]

/-- A change of the job's barrier keeps its last. -/
theorem jobLast_barrier {s : State} {j : Job} (hj : s.job = some j) (b : Barrier) :
    jobLast { s with job := some { j with barrier := b } } = jobLast s := by
  unfold jobLast
  rw [hj]
  rfl

/-! ### READY -/

/-- No READY with all three flags set refuses. -/
theorem lowestWithout_none {rs : List ReadyMsg} (h : ∀ r ∈ rs, r.flags = 7) {bit : Nat} (hb : bitOf 7 bit = true) :
    lowestWithout rs bit = none := by
  have hnil : rs.filter (fun r => !bitOf r.flags bit) = [] := by
    refine List.filter_eq_nil_iff.mpr fun r hr => ?_
    rw [h r hr, hb]
    decide
  rw [lowestWithout, hnil]
  rfl

/-- What the leader makes of READY messages of which none refuses. -/
def startOrWait (u : State) (j : Job) (rs : List ReadyMsg) : State :=
  if rs.length < jobChips u then u
  else
    let d := ceilDiv (rs.foldl (fun x r => max x r.lat) 0) (4 * nsTicks) * 4 + 24
    let code := rs.foldl (fun x r => min x r.code) 32
    setBarrier (originate u (jobMsg u 0x13 code j.barrier.attempt d)) (fun b =>
      { b with delay := d, startPace := code, releaseAt := some (u.now + d * nsTicks) })

theorem judgeReady_willing {u : State} {j : Job} (hj : u.job = some j) (h : ∀ r ∈ j.barrier.readies, r.flags = 7) :
    judgeReady u = startOrWait u j j.barrier.readies := by
  unfold judgeReady
  rw [hj]
  dsimp only
  rw [lowestWithout_none h (bit := 0) (by decide), lowestWithout_none h (bit := 1) (by decide),
    lowestWithout_none h (bit := 2) (by decide)]
  dsimp only
  unfold startOrWait originate
  rw [floodOut_now]

theorem countReady_new {s : State} {j : Job} {r : ReadyMsg} (hj : s.job = some j) (hst : j.state = .starting)
    (hrel : j.barrier.releaseAt = none) (hchip : r.lchip < jobChips s)
    (hnew : ∀ x ∈ j.barrier.readies, x.lchip ≠ r.lchip) :
    countReady s r = judgeReady (setBarrier s (fun b => { b with readies := b.readies ++ [r] })) := by
  have hany : j.barrier.readies.any (fun x => decide (x.lchip = r.lchip)) = false := by
    simpa using hnew
  unfold countReady
  rw [hj]
  dsimp only
  rw [if_neg]
  rw [hst, hrel, hany]
  rintro (h | h | h | h)
  · exact h rfl
  · exact Bool.false_ne_true h
  · omega
  · exact Bool.false_ne_true h

theorem ready_exec {s : State} {k : Nat} {item : List Byte} {j : Job} (h : Acts s k item 0x12 j) (hl : isLeader s = true)
    (ha : (Tongue.parse item).jsf = j.barrier.attempt) (hst : j.state = .starting) (hrel : j.barrier.releaseAt = none)
    (hchip : (Tongue.parse item).lchip < jobChips s) (hf : (Tongue.parse item).arg8 = 7)
    (hrs : ∀ r ∈ j.barrier.readies, r.lchip ≠ (Tongue.parse item).lchip ∧ r.flags = 7) :
    let m := Tongue.parse item
    let rs := j.barrier.readies ++ [⟨m.lchip, m.arg8, bitsOf m.arg64 0 4, bitsOf m.arg64 8 6, heardLat s k item⟩]
    exec (.ready k item) s = .next (startOrWait { heard s k item with job := some { j with barrier := { j.barrier with
      readies := rs } } } j rs) := by
  intro m rs
  have hj : (heard s k item).job = some j := (heard_job s k item).trans h.2.2.2
  change Host.Outcome.next (tongueIn s k item 0x12 _) = _
  rw [tongueIn_acts h (by decide), hj]
  dsimp only
  rw [if_pos ⟨(isLeader_heard s k item).trans hl, ha⟩,
    countReady_new hj hst hrel (by rw [jobChips_heard]; exact hchip) (fun r hr => (hrs r hr).1), setBarrier_eq hj,
    judgeReady_willing (j := { j with barrier := { j.barrier with readies := rs } }) rfl]
  · rfl
  · intro r hr
    rcases List.mem_append.mp hr with hr | hr
    · exact (hrs r hr).2
    · rw [List.mem_singleton.mp hr]
      exact hf

/-! ### START, ABORT and the ends of the barrier -/

theorem actsOnAttempt_of {j : Job} {n : Nat}
    (h : j.barrier.answered = some n ∨ j.barrier.answered = none ∧ ∃ x, j.barrier.offer = some (n, x)) :
    actsOnAttempt j = some n := by
  unfold actsOnAttempt
  rcases h with h | ⟨h, x, hx⟩
  · rw [h]
  · rw [h, hx]
    rfl

theorem start_exec {s : State} {k : Nat} {item : List Byte} {j : Job} (h : Acts s k item 0x13 j)
    (hl : isLeader s = false) (hst : j.state = .starting) (ha : actsOnAttempt j = some (Tongue.parse item).jsf) :
    let d := bitsOf (Tongue.parse item).arg64 0 32
    let u := if d * nsTicks < heardLat s k item then event (heard s k item) 0x2111 [] else heard s k item
    exec (.start k item) s = .next { u with job := some { j with barrier := { j.barrier with
      delay := d, startPace := (Tongue.parse item).arg8,
      releaseAt := some (s.now + (d * nsTicks - heardLat s k item)) } } } := by
  intro d u
  have hj : (heard s k item).job = some j := (heard_job s k item).trans h.2.2.2
  have hu : u.job = some j := by
    dsimp only [u]
    split
    · rw [event_job]
      exact hj
    · exact hj
  have hnow : u.now = s.now := by
    dsimp only [u]
    split
    · rw [event_now, heard_now]
    · exact heard_now s k item
  change Host.Outcome.next (tongueIn s k item 0x13 _) = _
  rw [tongueIn_acts h (by decide), hj]
  dsimp only
  rw [if_pos ⟨hst, ha, by rw [isLeader_heard, hl]; rfl⟩]
  change Host.Outcome.next (setBarrier u (fun b => { b with
    delay := d, startPace := (Tongue.parse item).arg8, releaseAt := some (u.now + (d * nsTicks - heardLat s k item)) })) = _
  rw [setBarrier_eq hu, hnow]

theorem abort_exec {s : State} {k : Nat} {item : List Byte} {j : Job} (h : Acts s k item 0x14 j)
    (hl : isLeader s = false) (ha : actsOnAttempt j = some (Tongue.parse item).jsf) :
    exec (.abort k item) s = .next (refuseBarrier (heard s k item) (Tongue.parse item).arg8) := by
  have hj : (heard s k item).job = some j := (heard_job s k item).trans h.2.2.2
  change Host.Outcome.next (tongueIn s k item 0x14 _) = _
  rw [tongueIn_acts h (by decide), hj]
  dsimp only
  rw [if_pos ⟨ha, by rw [isLeader_heard, hl]; rfl⟩]

theorem barrierReady_exec {s : State} {j : Job} {l : LoadedLast} {attempt : Nat} {digests : List Byte}
    (hj : s.job = some j) (hlast : jobLast s = some l) (hst : j.state = .starting)
    (ho : j.barrier.offer = some (attempt, digests)) (ha : j.barrier.answered ≠ some attempt)
    (hp : s.clk.pace = j.barrier.startCode) (hl : isLeader s = false) :
    let flags := maskOf [decide (l.arr.digest = digests.take 32), decide (l.weightDigest = some (slice digests 32 32)),
      (failingEyelet s l).isNone]
    let u := { s with job := some { j with barrier := { j.barrier with answered := some attempt } } }
    exec .barrierReady s = .next (originate u (jobMsg u 0x12 flags attempt
      ((failingEyelet s l).getD 0xF + 256 * s.clk.pace))) := by
  intro flags u
  have hu : setBarrier s (fun b => { b with answered := some attempt }) = u := setBarrier_eq hj _
  have hlu : isLeader u = false := (isLeader_congr (jobLast_barrier hj _)).trans hl
  change execBarrierReady s = _
  unfold execBarrierReady
  rw [hj, hlast]
  dsimp only
  rw [ho]
  dsimp only
  rw [if_pos ⟨hst, ha, hp⟩, hu, ← hp]
  unfold originate
  rw [isLeader_floodOut, hlu]
  rfl

theorem barrierTimeout_exec {s : State} {j : Job} (hj : s.job = some j) (hst : j.state = .starting)
    (hl : isLeader s = true) (ho : j.barrier.offerAt ≠ none) (hr : j.barrier.releaseAt = none) :
    exec .barrierTimeout s = .next (refuseBarrier (originate s (jobMsg s 0x14 4 j.barrier.attempt
      (((List.range (jobChips s)).find? (fun c => !j.barrier.readies.any (fun r => decide (r.lchip = c)))).getD 0xFFFF))) 4) := by
  change execBarrierTimeout s = _
  unfold execBarrierTimeout
  rw [hj]
  dsimp only
  rw [if_pos ⟨hl, hst, Option.isSome_iff_ne_none.mpr ho, by rw [hr]; rfl⟩]
  unfold abortBarrier
  rw [hj]
  rfl

theorem barrierSelfEnd_exec {s : State} {j : Job} (hj : s.job = some j) (hst : j.state = .starting)
    (hr : j.barrier.releaseAt = none) : exec .barrierSelfEnd s = .next (refuseBarrier s 4) := by
  change execBarrierSelfEnd s = _
  unfold execBarrierSelfEnd
  rw [hj]
  dsimp only
  rw [if_pos ⟨hst, by rw [hr]; rfl⟩]

theorem syncDev_regs (s : State) : (syncDev s).regs = s.regs := by
  unfold syncDev
  split
  · split <;> rfl
  · split <;> rfl

theorem syncDev_heel (s : State) : (syncDev s).heel = s.heel := by
  unfold syncDev
  split
  · split <;> rfl
  · split <;> rfl

/-- A barrier that no JOB_START waits on is refused with its event, the former state and the pace of R334. -/
theorem refuseBarrier_eq {s : State} {j : Job} (hj : s.job = some j) (hst : j.state = .starting)
    (hd : j.barrier.startDesc = none) (reason : Nat) :
    refuseBarrier s reason = orderPace (syncDev { event s 0x2110 [reason] with
      job := some { j with state := j.before, barrier := Barrier.clear j.barrier } })
        (outsidePace (event s 0x2110 [reason])) := by
  unfold refuseBarrier
  rw [hj]
  dsimp only
  rw [if_pos hst, hd]
  dsimp only
  have hje : (event s 0x2110 [reason]).job = some j := by rw [event_job]; exact hj
  have hjob : setJobState (setBarrier (event s 0x2110 [reason]) Barrier.clear) j.before =
      syncDev { event s 0x2110 [reason] with job := some { j with state := j.before, barrier := Barrier.clear j.barrier } } := by
    rw [setBarrier_eq hje, setJobState_eq rfl]
  rw [hjob]
  unfold outsidePace
  rw [syncDev_regs, syncDev_heel]

/-- Settles O25. The latency of the arriving hop is part of the latency heard by log entry 25. -/
theorem startBarrier : Obligations.StartBarrier := by
  refine ⟨fun s k item j h hl ha hst hrel hchip hf hrs => ?_, fun s k item j h hl hst ha => start_exec h hl hst (actsOnAttempt_of ha),
    fun s k item j h hl ha => abort_exec h hl (actsOnAttempt_of ha),
    fun s j l attempt digests hj hlast hst ho ha hp hl => barrierReady_exec hj hlast hst ho ha hp hl,
    fun s j hj hst hl ho hr => barrierTimeout_exec hj hst hl ho hr, fun s j hj hst hr => barrierSelfEnd_exec hj hst hr,
    fun s j reason hj hst hd => ⟨event s 0x2110 [reason], refuseBarrier s reason, event_recorded s _ _, rfl,
      refuseBarrier_eq hj hst hd reason⟩⟩
  intro m rs u
  have hx : exec (.ready k item) s = .next (startOrWait u j rs) := ready_exec h hl ha hst hrel hchip hf hrs
  have hchips : jobChips u = jobChips s :=
    (jobChips_congr (jobLast_barrier ((heard_job s k item).trans h.2.2.2) _)).trans (jobChips_heard s k item)
  have hnow : u.now = s.now := heard_now s k item
  rw [hx]
  unfold startOrWait
  rw [hchips, hnow]
  exact ⟨fun hlt => by rw [if_pos hlt], fun hle => by rw [if_neg (Nat.not_lt.mpr hle)]⟩

end Sys2Proof.Proofs

/-! Slips, stops and pace changes by message (02 R36, 09 R212 to R217). -/
namespace Sys2Proof.Proofs
open Sys2Proof.Machine Sys2Proof.Safety

/-! ### SLIP -/

theorem noteAnnouncer_eq {s : State} {j : Job} (hj : s.job = some j) (lchip slip : Nat) : noteAnnouncer s lchip slip =
    if isLeader s then { s with job := some { j with barrier := { j.barrier with
      slipFrom := insertOnce (lchip, slip) j.barrier.slipFrom } } } else s := by
  rw [noteAnnouncer, setBarrier_eq hj]

theorem slip_exec {s : State} {k : Nat} {item : List Byte} {j : Job} (h : Acts s k item 0x15 j)
    (hr : jobRuns s = true) : exec (.slip k item) s =
      .next (if (Tongue.parse item).jsf ≤ j.released then
          noteAnnouncer (event (heard s k item) 0x2104 []) (Tongue.parse item).lchip (Tongue.parse item).jsf
        else noteAnnouncer (setBarrier (heard s k item) (fun b =>
          { b with slipHeld := insertOnce (Tongue.parse item).jsf b.slipHeld })) (Tongue.parse item).lchip
          (Tongue.parse item).jsf) := by
  have hj : (heard s k item).job = some j := (heard_job s k item).trans h.2.2.2
  change Host.Outcome.next (tongueIn s k item 0x15 _) = _
  rw [tongueIn_acts h (by decide), hj]
  dsimp only
  rw [jobRuns_heard, hr, if_neg (by decide)]

/-- A slip point that the chip has not released is held, and noted with its announcer at the leader. -/
theorem slip_held {s : State} {k : Nat} {item : List Byte} {j : Job} (h : Acts s k item 0x15 j)
    (hr : jobRuns s = true) (hp : j.released < (Tongue.parse item).jsf) : exec (.slip k item) s =
      .next { heard s k item with job := some { j with barrier := { j.barrier with
        slipHeld := insertOnce (Tongue.parse item).jsf j.barrier.slipHeld
        slipFrom := if isLeader s then insertOnce ((Tongue.parse item).lchip, (Tongue.parse item).jsf) j.barrier.slipFrom
          else j.barrier.slipFrom } } } := by
  have hj : (heard s k item).job = some j := (heard_job s k item).trans h.2.2.2
  rw [slip_exec h hr, if_neg (Nat.not_le.mpr hp), setBarrier_eq hj, noteAnnouncer_eq rfl,
    isLeader_congr (jobLast_barrier hj _), isLeader_heard]
  cases isLeader s <;> rfl

/-! ### SLIP_READY -/

theorem slipReady_exec {s : State} {k : Nat} {item : List Byte} {j : Job} (h : Acts s k item 0x16 j) :
    let u := { heard s k item with job := some { j with barrier := { j.barrier with
      slipReady := insertOnce ((Tongue.parse item).lchip, (Tongue.parse item).jsf) j.barrier.slipReady } } }
    exec (.slipReady k item) s = .next (if isLeader s then judgeSlip u (Tongue.parse item).jsf else heard s k item) := by
  intro u
  have hj : (heard s k item).job = some j := (heard_job s k item).trans h.2.2.2
  change Host.Outcome.next (tongueIn s k item 0x16 _) = _
  rw [tongueIn_acts h (by decide), isLeader_heard, setBarrier_eq hj]

/-- A slip point ahead at which the chip does not stand waits. -/
theorem judgeSlip_ahead {u : State} {j : Job} {p : Nat} (hj : u.job = some j) (hpause : pausedAt u p = false)
    (hp : j.released < p) : judgeSlip u p = u := by
  unfold judgeSlip
  rw [hj]
  dsimp only
  rw [hpause, if_neg (fun h => Bool.false_ne_true h.2.1), if_neg (fun h => absurd h.2.1 (Nat.not_le.mpr hp))]

/-- A slip point that the leader has passed is resumed once every announcer is ready. -/
theorem judgeSlip_passed {u : State} {j : Job} {p : Nat} (hj : u.job = some j) (hl : isLeader u = true)
    (hp : p ≤ j.released) (hfrom : ∃ c, (c, p) ∈ j.barrier.slipFrom)
    (hall : ∀ c, (c, p) ∈ j.barrier.slipFrom → (c, p) ∈ j.barrier.slipReady) :
    judgeSlip u p = setBarrier (originate u (jobMsg u 0x17 0 p j.barrier.delay)) (fun b =>
      { b with slipFrom := b.slipFrom.filter (fun x => decide (x.2 ≠ p)),
               slipReady := b.slipReady.filter (fun x => decide (x.2 ≠ p)) }) := by
  have hpause : pausedAt u p = false := by
    unfold pausedAt
    rw [hj]
    exact decide_eq_false (fun h => by omega)
  have hne : (j.barrier.slipFrom.filter (fun x => decide (x.2 = p))).map (·.1) ≠ [] := by
    obtain ⟨c, hc⟩ := hfrom
    have hmem : c ∈ (j.barrier.slipFrom.filter (fun x => decide (x.2 = p))).map (·.1) :=
      List.mem_map.mpr ⟨(c, p), List.mem_filter.mpr ⟨hc, decide_eq_true rfl⟩, rfl⟩
    exact List.ne_nil_of_mem hmem
  have hready : ((j.barrier.slipFrom.filter (fun x => decide (x.2 = p))).map (·.1)).all (fun c =>
      ((j.barrier.slipReady.filter (fun x => decide (x.2 = p))).map (·.1)).contains c) = true := by
    refine List.all_eq_true.mpr fun c hc => ?_
    obtain ⟨⟨c', q⟩, hx, rfl⟩ := List.mem_map.mp hc
    obtain ⟨hmem, hq⟩ := List.mem_filter.mp hx
    obtain rfl : q = p := of_decide_eq_true hq
    exact List.contains_iff_mem.mpr
      (List.mem_map.mpr ⟨(c', q), List.mem_filter.mpr ⟨hall c' hmem, decide_eq_true rfl⟩, rfl⟩)
  unfold judgeSlip
  rw [hj]
  dsimp only
  rw [hpause, if_neg (fun h => Bool.false_ne_true h.2.1), if_pos ⟨hl, hp, hne, hready⟩]

/-! ### RESUME, STOP and PACE -/

theorem resume_exec {s : State} {k : Nat} {item : List Byte} {j : Job} (h : Acts s k item 0x17 j)
    (hr : jobRuns s = true) (hl : isLeader s = false) (hp : j.released < (Tongue.parse item).jsf)
    (hheld : (Tongue.parse item).jsf ∈ j.barrier.slipHeld) : exec (.resume k item) s =
      .next { heard s k item with job := some { j with barrier := { j.barrier with
        resumeAt := some ((Tongue.parse item).jsf,
          s.now + (bitsOf (Tongue.parse item).arg64 0 32 * nsTicks - heardLat s k item)) } } } := by
  have hj : (heard s k item).job = some j := (heard_job s k item).trans h.2.2.2
  change Host.Outcome.next (tongueIn s k item 0x17 _) = _
  rw [tongueIn_acts h (by decide), hj]
  dsimp only
  rw [if_pos ⟨(jobRuns_heard s k item).trans hr, hp, hheld, by rw [isLeader_heard, hl]; rfl⟩, setBarrier_eq hj, heard_now]

theorem stop_exec {s : State} {k : Nat} {item : List Byte} {j : Job} (h : Acts s k item 0x18 j)
    (hst : stoppable j = true ∨ j.state = .stopped) :
    let stops := j.barrier.stops ++ [((Tongue.parse item).jsf, (Tongue.parse item).lchip, (Tongue.parse item).arg8)]
    let u := event { heard s k item with job := some { j with barrier := { j.barrier with stops } } } 0x2112 []
    exec (.stop k item) s = .next (if stoppable j then
      enterStopped u (governingStatus { j with barrier := { j.barrier with stops } } (Tongue.parse item).arg8) else u) := by
  intro stops u
  have hj : (heard s k item).job = some j := (heard_job s k item).trans h.2.2.2
  change Host.Outcome.next (tongueIn s k item 0x18 _) = _
  rw [tongueIn_acts h (by decide), hj]
  dsimp only
  rw [if_pos hst, setBarrier_eq hj, event_job]

theorem pace_exec {s : State} {k : Nat} {item : List Byte} {j : Job} (h : Acts s k item 0x19 j)
    (hr : jobRuns s = true) : exec (.pace k item) s =
      .next (if (Tongue.parse item).jsf ≤ j.released + 4096 then
          event { heard s k item with clk := { s.clk with
            nextInside := some ((Tongue.parse item).arg8, ceilDiv (lowJs s + 4096) 65536 * 65536) } } 0x5011 []
        else { heard s k item with clk := { s.clk with
          nextInside := some ((Tongue.parse item).arg8, (Tongue.parse item).jsf) } }) := by
  have hj : (heard s k item).job = some j := (heard_job s k item).trans h.2.2.2
  have hlow : lowJs (heard s k item) = lowJs s := by
    unfold lowJs
    rw [heard_clk]
  change Host.Outcome.next (tongueIn s k item 0x19 _) = _
  rw [tongueIn_acts h (by decide), hj]
  dsimp only
  rw [jobRuns_heard, hr, if_neg (by decide), hlow, heard_clk, ← hj]

/-- Settles O26. A leader past the point that still floods RESUME is log entry 90, the latency heard log entry 25. -/
theorem tongueRunning : Obligations.TongueRunning := by
  refine ⟨fun s k item j h hr => ⟨fun hp => by rw [slip_exec h hr, if_pos hp], fun hp => slip_held h hr hp⟩,
    fun s k item j h => ⟨fun hl => by rw [slipReady_exec h, hl]; rfl, ?_⟩,
    fun s k item j h hr hl hp hheld => resume_exec h hr hl hp hheld, fun s k item j h => ?_, fun s k item j h hr => ?_⟩
  · intro ready u
    have hlast : jobLast u = jobLast (heard s k item) := jobLast_barrier ((heard_job s k item).trans h.2.2.2) _
    have hpause : pausedAt u (Tongue.parse item).jsf = pausedAt s (Tongue.parse item).jsf := by
      unfold pausedAt
      rw [h.2.2.2]
    refine ⟨fun hl hpa hp => ?_, fun hl hp hfrom hall => ?_⟩
    · rw [slipReady_exec h, hl, if_pos rfl]
      exact congrArg Host.Outcome.next (judgeSlip_ahead (u := u) rfl (hpause.trans hpa) hp)
    · rw [slipReady_exec h, hl, if_pos rfl]
      exact congrArg Host.Outcome.next (judgeSlip_passed (u := u)
        (j := { j with barrier := { j.barrier with slipReady := ready } }) rfl
        ((isLeader_congr hlast).trans ((isLeader_heard s k item).trans hl)) hp hfrom hall)
  · refine ⟨fun hst => ?_, fun hst => ?_⟩
    · have hno : stoppable j = false := by rw [stoppable, hst]; rfl
      rw [stop_exec h (.inr hst), hno]
      rfl
    · rw [stop_exec h (.inl hst), hst, if_pos rfl]
  · exact ⟨fun hp => by rw [pace_exec h hr, if_pos hp], fun hp => by rw [pace_exec h hr, if_neg (Nat.not_le.mpr hp)]⟩

end Sys2Proof.Proofs

/-! The staged blocks: captures refused, effects, and what clears an error (20 R493 to R495, R501, R502, R505). -/
namespace Sys2Proof.Proofs
open Sys2Proof.Machine Sys2Proof.Safety

/-! ### Moderation -/

theorem moderation_exec {s : State} {v : Word} (h : barAlive s = true) (hv : v.getLsbD 0 = true) :
    exec (.interruptModerationApply v) s = .next (moderationApply s) := by
  change onBar s _ = _
  rw [onBar_of_alive h, if_pos hv]

theorem moderationApply_passes {s : State} (h : ∀ i, i < 32 → bitsOf (s.regs.modStaged.getD i 0).toNat 8 8 ≤ 250) :
    moderationApply s = (List.range 32).foldl vectorCheck { s with regs := { s.regs with modActive := s.regs.modStaged } } := by
  have hnone : ((List.range 32).map (fun i =>
      check (decide (bitsOf (s.regs.modStaged.getD i 0).toNat 8 8 ≤ 250)) 1 (0x0100 + 2 * i))).flatten = [] := by
    refine List.flatten_eq_nil_iff.mpr fun l hl => ?_
    obtain ⟨i, hi, rfl⟩ := List.mem_map.mp hl
    exact check_of_true (decide_eq_true (h i (List.mem_range.mp hi))) _ _
  unfold moderationApply
  dsimp only
  rw [hnone]
  rfl

/-! ### Doorbell -/

theorem check_of_false {ok : Bool} (h : ok = false) (cause off : Nat) : check ok cause off = [(cause, off)] := by
  rw [h]
  rfl

/-- An interval outside 1 to 200 is the lowest cause, whatever else fails. -/
theorem doorbellApply_interval {s : State} (h : s.regs.dbCtl.toNat % 256 = 0 ∨ 200 < s.regs.dbCtl.toNat % 256) :
    doorbellApply s = event { s with regs := { s.regs with dbStatus := ⟨true, 1⟩ } } 0x1081 [0x02F0, 1, 0x0208] := by
  have hworst : ∀ b c : Bool, worst ([(1, 0x0208)] ++ check b 2 0x0200 ++ check c 3 0x0208) = some (1, 0x0208) := by decide
  unfold doorbellApply
  dsimp only
  rw [check_of_false (decide_eq_false (by omega)) 1 0x0208, hworst]
  rfl

theorem leaveSetup_disabled {s : State} (h : dbEnabled s = false) : leaveSetup s = s := by
  unfold leaveSetup
  rw [h]
  rfl

theorem leaveSetup_enabled {s : State} (h : dbEnabled s = true) (hb : s.host.busMaster = true) :
    leaveSetup s = { s with dev := { s.dev with state := if s.dev.state = .setup then .ready else s.dev.state } } := by
  unfold leaveSetup
  rw [h, hb, Bool.and_self, if_pos rfl]
  split
  · rename_i hs
    rw [hs]
    rfl
  · rename_i hs
    rw [if_neg hs]

/-- With no doorbell read outstanding the capture becomes active. -/
theorem doorbellApplyEffect_exec {s : State} {base : Nat} {ctl : Word} (h : barAlive s = true)
    (hc : s.regs.dbCaptured = some (base, ctl)) (ho : s.host.dbOutstanding = false) :
    let u := { s with regs := { s.regs with dbActiveBase := base, dbActiveCtl := ctl, dbCaptured := none } }
    let w := leaveSetup u
    exec .doorbellApplyEffect s = .next (if dbEnabled w then (if !dbEnabled s && w.host.busMaster then issuePoll w else w)
      else { w with host := { w.host with dbDue := false } }) := by
  intro u w
  change execDoorbellApplyEffect s = _
  rw [execDoorbellApplyEffect, onBar_of_alive h, hc]
  dsimp only
  rw [if_neg (by rw [ho]; exact Bool.false_ne_true)]

/-! ### Rings -/

theorem ringApplyEffect_exec {s : State} {r : Nat} {ws : List Word} (h : barAlive s = true)
    (hc : (s.ring r).captured = some ws) (hread : (s.ring r).reading = []) (hrun : (s.ring r).running = []) :
    exec (.ringApplyEffect r) s = .next (setRing { s with regs := { s.regs with
      ringActive := s.regs.ringActive.take (8 * r) ++ ws ++ s.regs.ringActive.drop (8 * r + 8) } } r (fun x =>
        { Ring.fresh with applyErr := x.applyErr, applyCause := x.applyCause })) := by
  change execRingApplyEffect r s = _
  rw [execRingApplyEffect, onBar_of_alive h]
  dsimp only
  rw [hc, hread, hrun]
  rfl

/-- The same change of each ring named, made once or more often. -/
theorem foldl_setRing {f : Ring → Ring} (hf : ∀ x, f (f x) = f x) : ∀ (named : List Nat) (s : State),
    ∃ rs, named.foldl (fun s r => setRing s r f) s = { s with host := { s.host with rings := rs } } ∧
      rs.length = s.host.rings.length ∧ ∀ r, r < s.host.rings.length →
        rs.getD r Ring.fresh = if r ∈ named then f (s.ring r) else s.ring r := by
  intro named
  induction named with
  | nil => exact fun s => ⟨s.host.rings, rfl, rfl, fun r _ => rfl⟩
  | cons n named ih =>
    intro s
    obtain ⟨rs, hrs, hlen, hget⟩ := ih (setRing s n f)
    have hlen' : (setRing s n f).host.rings.length = s.host.rings.length := Laws.mapAt_length _ _ _
    refine ⟨rs, hrs, hlen.trans hlen', fun r hr => ?_⟩
    rw [hget r (hlen'.symm ▸ hr)]
    by_cases hn : r = n
    · subst hn
      rw [setRing_ring _ _ _ hr, hf, ite_self, if_pos (List.mem_cons_self ..)]
    · rw [setRing_ring_other _ _ _ _ hn]
      simp [hn]

theorem clearRingErr_exec {s : State} (h : barAlive s = true) (hlen : s.host.rings.length = 64) (mask : DWord) :
    ∃ rs, exec (.ringApplyErrClear mask) s = .next { s with host := { s.host with rings := rs } } ∧ rs.length = 64 ∧
      ∀ r, r < 64 → rs.getD r Ring.fresh =
        if bitOf mask.toNat r then { s.ring r with applyErr := false } else s.ring r := by
  obtain ⟨rs, hrs, hl, hget⟩ := foldl_setRing (f := fun x => { x with applyErr := false }) (fun _ => rfl)
    ((List.range 64).filter (bitOf mask.toNat)) s
  refine ⟨rs, ?_, hl.trans hlen, fun r hr => ?_⟩
  · change execRingApplyErrClear mask s = _
    rw [execRingApplyErrClear, onBar_of_alive h]
    exact congrArg Host.Outcome.next hrs
  · rw [hget r (hlen.symm ▸ hr)]
    exact if_congr (mem_maskedRings.trans (and_iff_right hr)) rfl rfl

theorem applyErrClear_exec {s : State} (h : barAlive s = true) (off : Nat) :
    exec (.applyErrClear off) s = .next (clearApplyErr s off) := onBar_of_alive h (clearApplyErr · off)

/-! ### Pace -/

theorem paceApply_exec {s : State} {v : Word} (h : barAlive s = true) (hv : v.getLsbD 0 = true) :
    exec (.paceApply v) s = .next (paceApply s) := by
  change onBar s _ = _
  rw [onBar_of_alive h, if_pos hv]

theorem paceApply_eq (s : State) :
    let u := { s with regs := { s.regs with paceActive := min s.regs.paceStaged 32 } }
    let w := if 32 < s.regs.paceStaged then event u 0x5003 [s.regs.paceStaged] else u
    paceApply s = if jobLive s then w else orderPace w
      (if s.dev.state = .idleLp ∧ s.dev.wakes = 0 then 0 else min (min s.regs.paceStaged 32) s.heel.proposal) := by
  intro u w
  have hw : w.job = s.job ∧ w.dev = s.dev ∧ w.regs = u.regs ∧ w.heel = s.heel := by
    dsimp only [w]
    split
    · exact ⟨event_job .., event_dev .., event_regs .., event_heel ..⟩
    · exact ⟨rfl, rfl, rfl, rfl⟩
  obtain ⟨hjob, hdev, hregs, hheel⟩ := hw
  have hlive : jobLive w = jobLive s := by
    unfold jobLive
    rw [hjob]
  have hrest : restPace w =
      if s.dev.state = .idleLp ∧ s.dev.wakes = 0 then 0 else min (min s.regs.paceStaged 32) s.heel.proposal := by
    unfold restPace outsidePace
    rw [hdev, hregs, hheel]
  rw [← hlive, ← hrest]
  rfl

/-- Settles O29. -/
theorem stagedBlocks : Obligations.StagedBlocks := by
  refine ⟨fun s v f h hv hf => ?_, fun s v h hv hpass => ?_, fun s v h hv hi => ?_, fun s v h hv hm => ?_,
    fun s base ctl h hc ho => ?_, fun s r ws h hc hread hrun => ringApplyEffect_exec h hc hread hrun, fun s v h hv => ?_,
    fun s h => ?_, fun s mask h hlen => clearRingErr_exec h hlen mask⟩
  · rw [moderation_exec h hv]
    unfold moderationApply
    dsimp only
    rw [hf]
    rfl
  · rw [moderation_exec h hv, moderationApply_passes hpass]
  · rw [doorbellApply_exec h hv, doorbellApply_interval hi]
  · rw [marginApply_exec h hv]
    unfold marginApply
    dsimp only
    rw [check_of_false (decide_eq_false (not_lt.mpr hm))]
    rfl
  · intro u
    refine ⟨fun h8 => ?_, fun h8 hwas hbus => ?_⟩
    · have hoff : dbEnabled u = false := h8
      rw [doorbellApplyEffect_exec h hc ho, leaveSetup_disabled hoff, if_neg (by rw [hoff]; exact Bool.false_ne_true)]
    · have hon : dbEnabled u = true := h8
      have hold : dbEnabled s = false := hwas
      rw [doorbellApplyEffect_exec h hc ho, leaveSetup_enabled hon hbus, hold]
      refine congrArg Host.Outcome.next ((if_pos h8).trans ((if_pos (by rw [hbus]; rfl)).trans ?_))
      exact if_neg (by rw [ho]; exact Bool.false_ne_true)
  · intro u w
    rw [paceApply_exec h hv, paceApply_eq]
  · exact ⟨applyErrClear_exec h _, applyErrClear_exec h _, applyErrClear_exec h _, applyErrClear_exec h _⟩

end Sys2Proof.Proofs

/-! Plain registers: locks, ranges, writes by offset, reads that latch, Bus Master Enable (15 R358, 20 R488 to R511). -/
namespace Sys2Proof.Proofs
open Sys2Proof.Machine Sys2Proof.Safety

theorem registerWrite_exec {s : State} (h : barAlive s = true) (off size value : Nat) :
    exec (.registerWrite off size value) s = .next (barWrite s off size value) := onBar_of_alive h (barWrite · off size value)

/-- A 4-byte write of a word, naturally aligned. -/
theorem barWrite_word {off value : Nat} (ho : off < 0x10000) (ha : off % 4 = 0) (hv : value < 2 ^ 32) (s : State) :
    barWrite s off 4 value = writeWord s off value := by
  unfold barWrite
  rw [if_neg (Nat.not_le.mpr ho), if_pos ⟨rfl, ha⟩, Nat.mod_eq_of_lt hv]

/-- A write that is not of 4 or 8 bytes, or not aligned, is ignored. -/
theorem barWrite_ignored {off size : Nat} (ho : off < 0x10000) (h : size ≠ 4 ∧ size ≠ 8 ∨ off % size ≠ 0) (s : State)
    (value : Nat) : barWrite s off size value = event s 0x1080 [off] := by
  have hno : ∀ n, n = 4 ∨ n = 8 → ¬(size = n ∧ off % n = 0) := by
    rintro n hn ⟨rfl, ha⟩
    rcases h with ⟨h4, h8⟩ | h
    · exact hn.elim h4 h8
    · exact h ha
  unfold barWrite
  rw [if_neg (Nat.not_le.mpr ho), if_neg (hno 4 (.inl rfl)), if_neg (hno 8 (.inr rfl))]
  rfl

/-- The ring table's words follow one another from 0x400 on. -/
theorem writeWord_ring {i : Nat} (hi : i < 512) (s : State) (w : Nat) : writeWord s (0x400 + 4 * i) w =
    { s with regs := { s.regs with ringStaged := setAt s.regs.ringStaged i (BitVec.ofNat 32 w) } } := by
  have hidx : (0x400 + 4 * i - 0x400) / 4 = i := by omega
  unfold writeWord
  rw [if_neg (by omega), if_neg (by omega), if_neg (by omega), if_neg (by omega), if_neg (by omega), if_neg (by omega),
    if_pos (by omega), hidx]

theorem busMaster_off {s : State} (h : barAlive s = true) :
    exec (.busMasterEnable false) s = .next { s with host := { s.host with busMaster := false } } := by
  change execBusMasterEnable false s = _
  rw [execBusMasterEnable, onBar_of_alive h]
  rfl

theorem busMaster_already {s : State} (h : barAlive s = true) (hb : s.host.busMaster = true) :
    exec (.busMasterEnable true) s = .next s := by
  have hsame : ({ s with host := { s.host with busMaster := true } } : State) = s := by rw [← hb]
  change execBusMasterEnable true s = _
  rw [execBusMasterEnable, onBar_of_alive h, hb]
  exact congrArg Host.Outcome.next hsame

theorem busMaster_on {s : State} (h : barAlive s = true) (hb : s.host.busMaster = false) (hd : dbEnabled s = false) :
    exec (.busMasterEnable true) s = .next (reopenHost { s with host := { s.host with busMaster := true } }) := by
  have hd' : dbEnabled { s with host := { s.host with busMaster := true } } = false := hd
  change execBusMasterEnable true s = _
  rw [execBusMasterEnable, onBar_of_alive h, hb]
  dsimp only
  rw [leaveSetup_disabled hd', hd']
  rfl

theorem lockWrite_debug (s : State) : lockWrite s 1 = { s with regs := { s.regs with debugLock := true } } := by
  have h0 : bitOf 1 0 = true := by decide
  have h1 : bitOf 1 1 = false := by decide
  simp [lockWrite, h0, h1]

theorem lockWrite_policy (s : State) : lockWrite s 2 = { s with regs := { s.regs with policyLock := true } } := by
  have h0 : bitOf 2 0 = false := by decide
  have h1 : bitOf 2 1 = true := by decide
  simp [lockWrite, h0, h1]

theorem lowWord_exec {s : State} (h : barAlive s = true) (off : Nat) : exec (.lowWordReadLatch off) s =
    .next (if off % 4 = 0 then answerRead (readWord s off).2 off (leBytes 4 (readWord s off).1)
      else answerRead s off (zeros 4)) := by
  change execLowWordReadLatch off s = _
  rw [execLowWordReadLatch, onBar_of_alive h]

theorem congestionSnapshot_exec {s : State} (h : barAlive s = true) : exec .congestionSnapshotRead s =
    .next (answerRead { s with regs := { s.regs with congSnap := some (liveMaps s) } } 0x4400 ((liveMaps s).take 4)) := by
  change execCongestionSnapshotRead s = _
  rw [execCongestionSnapshotRead, onBar_of_alive h]

theorem recentSnapshot_exec {s : State} {n : Nat} {e : List Byte} (h : barAlive s = true) (he : s.host.recent[n]? = some e) :
    exec (.recentSnapshotRead n) s = .next (answerRead { s with
      regs := { s.regs with recentSnap := assocSet n e s.regs.recentSnap } } (0x5100 + 64 * n) (e.take 4)) := by
  change execRecentSnapshotRead n s = _
  rw [execRecentSnapshotRead, onBar_of_alive h, he]

/-- Settles O30. -/
theorem plainRegisters : Obligations.PlainRegisters := by
  refine ⟨fun s h => ⟨?_, ?_⟩, fun s v h => onBar_of_alive h (policyWrite · v.toNat),
    fun s ms h => onBar_of_alive h (timeoutWrite · ms),
    fun s off size value h ho => ⟨fun h4 h8 => ?_, fun ha => ?_⟩, fun s value h hv => ⟨?_, ?_, ?_, fun i hi => ?_⟩,
    fun s off h ha => ?_, fun s off h ha => ?_, fun s h => congestionSnapshot_exec h,
    fun s n e h he => recentSnapshot_exec h he,
    fun s h => ⟨busMaster_off h, fun hb => busMaster_already h hb, fun hb hd _ => busMaster_on h hb hd⟩⟩
  · exact (onBar_of_alive h (lockWrite · 1)).trans (congrArg Host.Outcome.next (lockWrite_debug s))
  · exact (onBar_of_alive h (lockWrite · 2)).trans (congrArg Host.Outcome.next (lockWrite_policy s))
  · rw [registerWrite_exec h, barWrite_ignored ho (.inl ⟨h4, h8⟩)]
  · rw [registerWrite_exec h, barWrite_ignored ho (.inr ha)]
  · rw [registerWrite_exec h, barWrite_word (by decide) (by decide) hv]
    rfl
  · rw [registerWrite_exec h, barWrite_word (by decide) (by decide) hv]
    rfl
  · rw [registerWrite_exec h, barWrite_word (by decide) (by decide) hv]
    rfl
  · rw [registerWrite_exec h, barWrite_word (by omega) (by omega) hv, writeWord_ring hi]
  · rw [lowWord_exec h, if_pos ha]
    rfl
  · rw [lowWord_exec h, if_neg ha]
    rfl

end Sys2Proof.Proofs

/-! The doorbell page, the rings, host DMA faults and the vectors (15.3, 15.4, 15.6, 15.7, 15.9, 15.11). -/
namespace Sys2Proof.Proofs
open Sys2Proof.Machine Sys2Proof.Safety

/-! ### Polls -/

theorem doorbellPoll_exec {s : State} (h : polls s = true) : exec .doorbellPoll s = .next (issuePoll s) := by
  change execDoorbellPoll s = _
  rw [execDoorbellPoll, if_pos h]

theorem doorbellRead_exec {s : State} {words : List Byte} (ho : s.host.dbOutstanding = true) (hw : words.length = 512) :
    let u := (List.range 64).foldl (judgeRing words) { s with host := { s.host with dbOutstanding := false } }
    let v := serveSolve words ((List.range 64).foldl (serveRing words) u)
    exec (.doorbellReadComplete words) s =
      .next (if v.host.dbDue ∧ polls v then issuePoll v else { v with host := { v.host with dbDue := false } }) := by
  intro u v
  change execDoorbellReadComplete words s = _
  rw [execDoorbellReadComplete, if_neg (by simp [ho, hw])]

/-! ### Reading a CMD ring -/

theorem readable_open {page : List Byte} {s : State} {r n : Nat} (hs : (s.ring r).started = true)
    (hq : (s.ring r).qcause = 0) (hc : (s.ring r).captured = none) (hf : 0 < freeSpace s r) (ho : hostClosed s = false)
    (hj : judgeSq s r (bellWord page r) = .ok n) : readable page s r = n := by
  unfold readable
  dsimp only
  rw [if_pos ⟨hs, hq, by rw [hc]; rfl, hf, by rw [ho]; rfl⟩, hj]

/-- An idle CMD ring with descriptors posted reads one. -/
theorem serveRing_cmd {page : List Byte} {s : State} {r n : Nat} (ht : (s.attr r).type = 1)
    (hread : (s.ring r).reading = []) (hrun : (s.ring r).running = []) (hn : readable page s r = n + 1) :
    serveRing page s r = readSlotsOf r 1 s := by
  have hidle : ringIdle (s.ring r) = true := by
    unfold ringIdle
    rw [hread, hrun]
    rfl
  unfold serveRing
  rw [ht, hn]
  have hone : min (n + 1) 1 = 1 := Nat.min_eq_right (Nat.succ_le_succ (Nat.zero_le n))
  exact (if_pos hidle).trans (congrArg (readSlotsOf r · s) hone)

/-! ### Host DMA faults -/

theorem hostDmaFault_known {s : State} {r i : Nat} (a : Nat) (desc : List Byte) (hi : i ∈ (s.ring r).reading) :
    let u := eventLimited s 0x1030 r msTicks (fun n => [r, i, a, n])
    exec (.hostDmaFault 1 r i a desc) s = .next (unreadable u r i) ∧
    exec (.hostDmaFault 2 r i a desc) s = .next (dataFault u r i 0x02 desc) ∧
    exec (.hostDmaFault 3 r i a desc) s = .next (dataFault u r i 0x03 desc) := by
  have hc : (s.ring r).reading.contains i = true := List.contains_iff_mem.mpr hi
  have hknown : ((s.ring r).reading.contains i || (outstOf s r i).isSome) = true := by rw [hc, Bool.true_or]
  exact ⟨congrArg Host.Outcome.next (if_pos hc), congrArg Host.Outcome.next (if_pos hknown),
    congrArg Host.Outcome.next (if_pos hknown)⟩

theorem hostDmaFault_entry {s : State} {r : Nat} (i a : Nat) (desc : List Byte) (hs : (s.ring r).started = true)
    (hq : (s.ring r).qcause = 0) : exec (.hostDmaFault 4 r i a desc) s =
      .next (quarantine (eventLimited s 0x1030 r msTicks (fun n => [r, i, a, n])) r 5 (s.ring r).w 0) :=
  congrArg Host.Outcome.next (if_pos ⟨hs, hq⟩)

theorem hostDmaFault_page {s : State} (r i a : Nat) (desc : List Byte) (ho : s.host.dbOutstanding = true) :
    exec (.hostDmaFault 5 r i a desc) s =
      .next (eventLimited { s with host := { s.host with dbOutstanding := false } } 0x1031 0 msTicks (fun n => [n])) :=
  congrArg Host.Outcome.next (if_pos ho)

/-! ### What waits for space or for its time -/

theorem deferredCompletion_exec {s : State} {r : Nat} {c : Cpl} {rest : List Cpl} (h : barAlive s = true)
    (hh : (s.ring r).held = c :: rest) (hw : canWrite s r = true) : exec (.deferredCompletionWrite r) s =
      .next (writeCpl (setRing s r (fun x => { x with held := rest })) r c) := by
  change execDeferredCompletionWrite r s = _
  rw [execDeferredCompletionWrite, onBar_of_alive h, drainRing, hh]
  dsimp only
  rw [hw]
  rfl

theorem evtOverrun_exec {s : State} {r : Nat} (h : barAlive s = true) (ho : (s.ring r).overrun = true)
    (ht : (s.attr r).type = 5) (hr : evtRoom s r 1 = true) : exec (.evtOverrun r) s =
      .next (setRing (putRecord s r (eventEntries (overrunEvent s (s.ring r))) false) r (fun x =>
        { x with overrun := false, drops := 0, firstDrop := 0 })) := by
  change execEvtOverrun r s = _
  rw [execEvtOverrun, onBar_of_alive h]
  dsimp only
  rw [ho, ht, hr]
  rfl

theorem vectorCheck_due {s : State} {v : Nat} {x : Vector} (hx : s.host.vectors[v]? = some x)
    (hd : vectorDue s v x = true) : vectorCheck s v =
      if x.masked || hostClosed s then { s with host := { s.host with vectors := setAt s.host.vectors v { x with pba := true } } }
      else { s with host := { s.host with
        vectors := setAt s.host.vectors v { x with pba := false, count := 0, urgent := false }
        out := s.host.out ++ [.msix v] } } := by
  unfold vectorCheck
  rw [hx]
  dsimp only
  rw [hd]
  rfl

theorem msixModTimeout_exec {s : State} (h : barAlive s = true) (v : Nat) :
    exec (.msixModTimeout v) s = .next (vectorCheck s v) := onBar_of_alive h (vectorCheck · v)

/-- Settles O31. -/
theorem ringsAndVectors : Obligations.RingsAndVectors := by
  refine ⟨fun s h => ⟨fun ho => ?_, fun ho => ?_⟩, fun s words ho hw => doorbellRead_exec ho hw,
    fun words s r n ht hs hq hc hread hrun ho hf hj => ?_, fun s r i a desc hi => hostDmaFault_known a desc hi,
    fun s r i a desc hs hq => hostDmaFault_entry i a desc hs hq, fun s r i a desc ho => hostDmaFault_page r i a desc ho,
    fun s r c rest h hh hw => deferredCompletion_exec h hh hw, fun s r h ho ht hr => evtOverrun_exec h ho ht hr,
    fun s v x h hx hd => ⟨fun hm => ?_, fun hm hc => ?_⟩, fun s v h => onBar_of_alive h (maskVector · v false)⟩
  · rw [doorbellPoll_exec h, issuePoll, if_pos ho]
  · rw [doorbellPoll_exec h, issuePoll, if_neg (by rw [ho]; exact Bool.false_ne_true)]
  · rw [serveRing_cmd ht hread hrun (readable_open hs hq hc hf ho hj)]
    rfl
  · rw [msixModTimeout_exec h, vectorCheck_due hx hd, if_pos (by rw [Bool.or_eq_true]; exact hm)]
  · rw [msixModTimeout_exec h, vectorCheck_due hx hd, hm, hc]
    rfl

end Sys2Proof.Proofs

/-! LOAD_LAST, LOAD_WEIGHTS and UNLOAD (06 R131, R139 to R141, 15 Table 15.5, 16 Table 16.2). -/
namespace Sys2Proof.Proofs
open Sys2Proof.Machine Sys2Proof.Safety

theorem lastNamed_begun (s : State) (d : Desc) (pre : Nat) : lastNamed (begun s d) pre = lastNamed s pre := by
  unfold lastNamed
  rw [begun_lasts]

theorem openLasts_begun (s : State) (d : Desc) : openLasts (begun s d) = openLasts s := by
  unfold openLasts
  rw [begun_lasts]

theorem storeUsed_begun (s : State) (d : Desc) : storeUsed (begun s d) = storeUsed s := by
  rw [begun_eq]
  rfl

theorem loadLast_exec {s : State} {d : Desc} (h : Starts s d 0x10) (image arr : List Byte) (sched : Schedule) :
    exec (.loadLast d image arr sched) s = .next (runLoadLast image arr sched (begun s d) d) :=
  starts_next h (i := .loadLast d image arr sched) (by simp [h.1])

theorem loadWeights_exec {s : State} {d : Desc} (h : Starts s d 0x11) (blob sib : List Byte) :
    exec (.loadWeights d blob sib) s = .next (runLoadWeights blob sib (begun s d) d) :=
  starts_next h (i := .loadWeights d blob sib) (by simp [h.1])

theorem unload_exec {s : State} {d : Desc} (h : Starts s d 0x12) : exec (.unload d) s = .next (runUnload (begun s d) d) :=
  starts_next h (i := .unload d) (by simp [h.1])

/-- The loader's answer to a last for which a bank is free. -/
theorem runLoadLast_judged {u : State} {d : Desc} {image arr img a : List Byte} (sched : Schedule)
    (hi : hostData d image = some img) (ha : hostData d arr = some a) (hfree : (openLasts u).length < 2) :
    runLoadLast image arr sched u d = (match loadLast (loadEnv u (openLasts u) (storeUsed u)) img a sched with
      | .ok l => doneDesc (lastLoaded (placeConsts { u with lasts := openLasts u ++ [l] } l)) d l.digest
      | .error r => refuseLast u d r) := by
  unfold runLoadLast
  rw [if_neg (Nat.not_le.mpr hfree), hi, ha]
  dsimp only
  cases loadLast (loadEnv u (openLasts u) (storeUsed u)) img a sched <;> rfl

/-! ### LOAD_WEIGHTS -/

section
variable {u : State} {d : Desc} {blob sib b sb : List Byte} {l : LoadedLast}

/-- A slice of the chip that the last has already. -/
theorem runLoadWeights_twice (hl : lastNamed u (d.at 8 8) = some l) (hlo : l.lchip * 2 ^ l.span ≤ d.at 16 2)
    (hhi : d.at 16 2 < (l.lchip + 1) * 2 ^ l.span) (hs : assoc (d.at 16 2) l.slices ≠ none) :
    runLoadWeights blob sib u d = badState u d 0x15 := by
  unfold runLoadWeights
  rw [hl]
  dsimp only
  rw [if_neg (by rw [Nat.succ_mul] at hhi; omega), if_pos (Option.isSome_iff_ne_none.mpr hs)]

/-- A slice of the chip that is new: its blob is judged. -/
theorem runLoadWeights_new (hl : lastNamed u (d.at 8 8) = some l) (hlo : l.lchip * 2 ^ l.span ≤ d.at 16 2)
    (hhi : d.at 16 2 < (l.lchip + 1) * 2 ^ l.span) (hs : assoc (d.at 16 2) l.slices = none)
    (hb : hostData d blob = some b) (hsb : hostData d sib = some sb) : runLoadWeights blob sib u d =
      if b.length ≠ blobBytes (l.manifest.getD (d.at 16 2) []) then badDesc u d 0x16
      else if !blobScalesOk (l.manifest.getD (d.at 16 2) []) b then complete u d.ring d.slot stLongSum 0
      else addSlice u d l b
        (if bitOf (d.at 18 1) 0 then some ((chunks 32 sb).take (l.log2L - l.span)) else l.siblings) := by
  unfold runLoadWeights
  rw [hl]
  dsimp only
  rw [if_neg (by rw [Nat.succ_mul] at hhi; omega), hs, hb, hsb]
  rfl

/-- A slice that is not the last one of its chip leaves the digest open. -/
theorem addSlice_partial (hn : l.slices.length + 1 < 2 ^ l.span) (siblings : Option (List (List Byte))) :
    addSlice u d l b siblings = doneDesc (placeBlob (setLast u l.digest (fun x =>
      { x with slices := l.slices ++ [(d.at 16 2, weightLeaf b)], siblings := siblings, weightDigest := none })) l
        (d.at 16 2 - l.lchip * 2 ^ l.span) b) d (zeros 32 ++ leBytes 2 (l.slices.length + 1)) := by
  have hlen : (l.slices ++ [(d.at 16 2, weightLeaf b)]).length = l.slices.length + 1 := List.length_append
  unfold addSlice
  dsimp only
  rw [hlen, decide_eq_false (Nat.ne_of_lt hn)]
  rfl

end

/-! ### UNLOAD -/

theorem runUnload_done {u : State} {d : Desc} {l : LoadedLast} (hl : lastNamed u (d.at 8 8) = some l)
    (hj : ∀ j, u.job = some j → j.last ≠ l.digest) :
    let left := u.lasts.filter (fun x => decide (x.digest ≠ l.digest))
    runUnload u d = doneDesc { u with
      lasts := left
      dev := { u.dev with state := if left.isEmpty ∧ u.dev.state = .loaded then .ready else u.dev.state } } d := by
  intro left
  unfold runUnload
  rw [hl]
  dsimp only
  rw [if_neg]
  · by_cases hc : left.isEmpty ∧ u.dev.state = .loaded
    · rw [if_pos hc, if_pos hc]
    · rw [if_neg hc, if_neg hc]
  · cases h : u.job with
    | none => exact Bool.false_ne_true
    | some j => exact fun hd => hj j h (of_decide_eq_true hd)

/-- Settles O32. -/
theorem loadingCommands : Obligations.LoadingCommands := by
  refine ⟨fun s d image arr sched img a h hi ha => ⟨fun h2 => ?_, fun h2 => ?_⟩, fun s d blob sib h hl => ?_,
    fun s d blob sib l b sb h hl hb hsb hlo hhi => ⟨fun hs => ?_, fun hs hlen => ?_, fun hs hlen hok hn => ?_⟩,
    fun s d l h hl hj => ?_⟩
  · rw [← openLasts_begun s d] at h2
    have hrun : runLoadLast image arr sched (begun s d) d = badState (begun s d) d 0x02 := if_pos h2
    exact ⟨_, (loadLast_exec h image arr sched).trans (congrArg _ hrun), badState_refused _ (starts_outst h)⟩
  · rw [← openLasts_begun s d] at h2
    have hrun := runLoadLast_judged sched hi ha h2
    rw [openLasts_begun, storeUsed_begun] at hrun
    refine (loadLast_exec h image arr sched).trans (congrArg Host.Outcome.next (hrun.trans ?_))
    cases loadLast (loadEnv (begun s d) (openLasts s) (storeUsed s)) img a sched <;> rfl
  · rw [← lastNamed_begun s d] at hl
    have hrun : runLoadWeights blob sib (begun s d) d = badState (begun s d) d 0x01 := by
      unfold runLoadWeights
      rw [hl]
    exact ⟨_, (loadWeights_exec h blob sib).trans (congrArg _ hrun), badState_refused _ (starts_outst h)⟩
  · rw [← lastNamed_begun s d] at hl
    exact ⟨_, (loadWeights_exec h blob sib).trans (congrArg _ (runLoadWeights_twice hl hlo hhi hs)),
      badState_refused _ (starts_outst h)⟩
  · rw [← lastNamed_begun s d] at hl
    exact ⟨_, (loadWeights_exec h blob sib).trans
      (congrArg _ ((runLoadWeights_new hl hlo hhi hs hb hsb).trans (if_pos hlen))), badDesc_refused _ (starts_outst h)⟩
  · rw [← lastNamed_begun s d] at hl
    rw [loadWeights_exec h, runLoadWeights_new hl hlo hhi hs hb hsb, if_neg (not_not.mpr hlen), hok,
      if_neg (by decide), addSlice_partial hn]
  · rw [← lastNamed_begun s d] at hl
    have hrun := runUnload_done hl (by rwa [begun_job])
    rw [begun_lasts, begun_dev] at hrun
    exact ⟨_, (unload_exec h).trans (congrArg _ hrun), starts_done h (by decide) rfl⟩

end Sys2Proof.Proofs

/-! The life of a job: opened, started, drained, checkpointed, fed and closed (09 R206, 15 R384, 16 R397 to R400). -/
namespace Sys2Proof.Proofs
open Sys2Proof.Machine Sys2Proof.Safety

theorem setJob_eq {s : State} {j : Job} (hj : s.job = some j) (f : Job → Job) : setJob s f = { s with job := some (f j) } := by
  rw [setJob, hj]
  rfl

theorem namesJob_of {s : State} {j : Job} {tag : Nat} (hj : s.job = some j) (ht : j.tag = tag) : namesJob s tag = true := by
  unfold namesJob
  rw [hj]
  exact decide_eq_true ht

/-- A change of the job that keeps its last's digest keeps its last. -/
theorem jobLast_setJob {s : State} {j x : Job} (hj : s.job = some j) (hx : x.last = j.last) :
    jobLast { s with job := some x } = jobLast s := by
  unfold jobLast
  rw [hj]
  exact congrArg (lastWith s) hx

theorem syncDev_eq (s : State) : ∃ dev, syncDev s = { s with dev := dev } := by
  unfold syncDev
  split
  · split
    · exact ⟨_, rfl⟩
    · exact ⟨s.dev, rfl⟩
  · split
    · exact ⟨_, rfl⟩
    · exact ⟨s.dev, rfl⟩

theorem syncDev_job (s : State) : (syncDev s).job = s.job := by
  obtain ⟨dev, h⟩ := syncDev_eq s
  rw [h]

theorem syncDev_clk (s : State) : (syncDev s).clk = s.clk := by
  obtain ⟨dev, h⟩ := syncDev_eq s
  rw [h]

theorem jobLast_syncDev (s : State) : jobLast (syncDev s) = jobLast s := by
  obtain ⟨dev, h⟩ := syncDev_eq s
  rw [h]
  rfl

theorem jobLast_orderPace (s : State) (code : Nat) : jobLast (orderPace s code) = jobLast s := by
  unfold orderPace
  split
  · rfl
  · split <;> rfl

section
variable (s : State) (d : Desc)

theorem storeFits_begun (l : LoadedLast) (t : Store) : storeFits (begun s d) l t = storeFits s l t := by
  rw [begun_eq]; rfl
theorem datelineOk_begun (l : LoadedLast) : datelineOk (begun s d) l = datelineOk s l := by rw [begun_eq]; rfl
theorem effPace_begun : effPace (begun s d) = effPace s := by rw [begun_eq]; rfl
theorem namesJob_begun (tag : Nat) : namesJob (begun s d) tag = namesJob s tag := by rw [begun_eq]; rfl

end

/-! ### JOB_OPEN -/

theorem jobOpen_exec {s : State} {d : Desc} (h : Starts s d 0x20) : exec (.jobOpen d) s = .next (runJobOpen (begun s d) d) :=
  starts_next h (i := .jobOpen d) (by simp [h.1])

theorem runJobOpen_opens {u : State} {d : Desc} {l : LoadedLast} (hl : lastNamed u (d.at 8 8) = some l)
    (hok : (if bitOf (d.at 18 1) 0 then l.relaxedOk else l.lockstepOk) = true)
    (hfits : storeFits u l (storeFor l (d.at 20 4) (d.at 24 4)) = true) :
    let v := setLast u l.digest (fun l => { l with closed := false })
    let w := { v with
      job := some (openJob (d.at 16 2) (bitOf (d.at 18 1) 0) (d.at 20 4) (d.at 24 4) (d.at 28 1) l.digest)
      clk := { u.clk with regions := u.clk.regions.map (fun g => { g with js := 0 }) }
      mem := { v.mem with tacks := v.mem.tacks.filter (fun x =>
        !decide (l.tackBase ≤ x.1 ∧ x.1 < l.tackBase + l.build.tacks)) } }
    runJobOpen u d = doneDesc (hbmClear (freshStore w (storeFor l (d.at 20 4) (d.at 24 4)))
      (l.hbmBase + l.lacing.statsOffset) (4 * l.lacing.laceCount)) d := by
  unfold runJobOpen
  rw [hl]
  dsimp only
  rw [hok, if_neg (by decide), hfits, if_neg (by decide)]
  rfl

/-! ### JOB_START and JS 0 -/

theorem jobStart_exec {s : State} {d : Desc} (h : Starts s d 0x21) :
    exec (.jobStart d) s = .next (runJobStart (begun s d) d) := starts_next h (i := .jobStart d) (by simp [h.1])

/-- The barrier with which JOB_START begins. -/
def startBarrierOf (j : Job) (d : Desc) (now code : Nat) : Barrier :=
  { j.barrier.clear with offer := j.barrier.offer, startDesc := some (d.ring, d.slot), startAt := now, startCode := code, stops := [] }

section
variable {u : State} {d : Desc} {j : Job} {l : LoadedLast} (hj : u.job = some j) (hl : jobLast u = some l)
  (ht : j.tag = d.at 8 2) (hstop : u.dev.stopOrdered = none)
include hj hl ht hstop

theorem runJobStart_unloaded (hw : l.weightDigest = none) : runJobStart u d = badState u d 0x07 := by
  unfold runJobStart
  rw [hj, hl]
  dsimp only
  rw [namesJob_of hj ht, if_neg (by decide), hstop, if_neg (by decide), hw, if_pos (by decide)]

theorem runJobStart_dateline (hw : l.weightDigest ≠ none) (hd : datelineOk u l = false) :
    runJobStart u d = badState u d 0x0C := by
  unfold runJobStart
  rw [hj, hl]
  dsimp only
  rw [namesJob_of hj ht, if_neg (by decide), hstop, if_neg (by decide), if_neg (by simpa using hw), hd, if_pos (by decide)]

theorem runJobStart_begins (hw : l.weightDigest ≠ none) (hd : datelineOk u l = true) {now : Nat} (hnow : u.now = now) :
    let code := min (d.at 10 1) (effPace u)
    let w := orderPace (syncDev { u with job := some { j with
      state := .starting, before := j.state, awl := Awl.fresh, barrier := startBarrierOf j d now code } }) code
    runJobStart u d = if isLeader u then leaderStart w l else w := by
  subst hnow
  intro code w
  have hw' : orderPace (setJobState (setJob u (fun j =>
      { j with before := j.state, awl := Awl.fresh, barrier := startBarrierOf j d u.now code })) .starting) code = w := by
    rw [setJob_eq hj, setJobState_eq rfl]
  have hlead : isLeader w = isLeader u :=
    isLeader_congr ((jobLast_orderPace _ _).trans ((jobLast_syncDev _).trans (jobLast_setJob hj rfl)))
  unfold runJobStart
  rw [hj, hl]
  dsimp only
  rw [namesJob_of hj ht, if_neg (by decide), hstop, if_neg (by decide), if_neg (by simpa using hw), hd, if_neg (by decide)]
  rw [← hlead, ← hw']
  rfl

end

/-- JS 0 is released: JOB_START completes, the job starts, and the leader decides the second step. -/
theorem js0Release_exec {s : State} {j : Job} {l : LoadedLast} (hj : s.job = some j) (hl : jobLast s = some l)
    (hst : j.state = .starting) (hr : j.barrier.releaseAt ≠ none) (hp : j.barrier.startPace = s.clk.pace) :
    let u := match j.barrier.startDesc with | some x => complete s x.1 x.2 0x00 0 | none => s
    let v := startRegions l (startJob u)
    exec .js0Release s = .next (if isLeader v ∧ jobRuns v then decideStep v l else v) := by
  change execJs0Release s = _
  unfold execJs0Release
  rw [hj, hl]
  dsimp only
  rw [if_pos ⟨hst, Option.isSome_iff_ne_none.mpr hr⟩, if_pos hp.symm]
  cases j.barrier.startDesc <;> rfl

/-- The job as it starts at its boundary. -/
def startedJob (j : Job) (ws : Nat) : Job :=
  { j with state := if j.drain then .draining else .running
           released := j.boundary, nextBoundary := j.boundary + 65536, variant := 0xFF, decisions := 0, running := [],
           decided := [], anchorWs := ws, anchorJs := j.boundary, slipSeen := j.slipTotal, awl := Awl.fresh
           barrier := { j.barrier with stops := [], releaseAt := none, offerAt := none, startDesc := none } }

theorem startJob_started {s : State} {j : Job} (hj : s.job = some j) :
    (startJob s).job = some (startedJob j s.clk.ws) ∧ (startJob s).clk.regions =
      s.clk.regions.map (fun g => { g with js := j.boundary, due := true, todo := [], counted := false }) := by
  unfold startJob
  rw [hj]
  dsimp only
  rw [setJob_eq hj, setJobState_eq rfl, syncDev_job, syncDev_clk]
  exact ⟨rfl, rfl⟩

/-! ### JOB_DRAIN -/

theorem jobDrain_exec {s : State} {d : Desc} (h : Starts s d 0x22) :
    exec (.jobDrain d) s = .next (runJobDrain (begun s d) d) := starts_next h (i := .jobDrain d) (by simp [h.1])

theorem runJobDrain_first {u : State} {d : Desc} {j : Job} (hj : u.job = some j) (ht : j.tag = d.at 8 2)
    (hl : isLeader u = true) (hp : pausedFirst j d.ring = true) : runJobDrain u d = badState u d 0x14 := by
  unfold runJobDrain
  rw [hj]
  dsimp only
  rw [namesJob_of hj ht, if_neg (by decide), hl, hp, if_pos (by decide)]

theorem runJobDrain_waits {u : State} {d : Desc} {j : Job} (hj : u.job = some j) (ht : j.tag = d.at 8 2)
    (hp : isLeader u = true → pausedFirst j d.ring = false) :
    let w := { u with job := some { j with drainDescs := j.drainDescs ++ [(d.ring, d.slot)] } }
    let v := setJob (j.requests.foldl endWaiting w) (fun j => { j with drain := true })
    runJobDrain u d = if isLeader u then (if j.state = .running then setJobState v .draining else v) else w := by
  intro w v
  have hw : isLeader w = isLeader u := isLeader_congr (jobLast_setJob hj rfl)
  have hno : ¬(isLeader u && pausedFirst j d.ring) = true := by
    cases hl : isLeader u with
    | false => exact Bool.false_ne_true
    | true =>
      rw [hp hl]
      decide
  unfold runJobDrain
  rw [hj]
  dsimp only
  rw [namesJob_of hj ht, if_neg (by decide), if_neg hno, setJob_eq hj]
  change (if isLeader w then _ else _) = _
  rw [hw]

theorem jobDrainComplete_exec {s : State} {j : Job} (hj : s.job = some j) (hst : j.state = .paused) (hd : j.drain = true)
    (ha : admitted j = []) : exec .jobDrainComplete s =
      .next (j.drainDescs.foldl (fun s d => complete s d.1 d.2 0x00 0)
        { s with job := some { j with drain := false, drainDescs := [] } }) := by
  change execJobDrainComplete s = _
  unfold execJobDrainComplete
  rw [hj]
  dsimp only
  rw [if_pos ⟨hst, hd, by rw [ha]; rfl⟩, setJob_eq hj]
  rfl

/-! ### JOB_CLOSE, JOB_CHECKPOINT, REQ -/

theorem jobClose_exec {s : State} {d : Desc} {j : Job} (h : Starts s d 0x23) (hj : s.job = some j) (ht : j.tag = d.at 8 2) :
    let js := standingJs j
    let u := closeJob (begun s d)
    exec (.jobClose d) s = .next (doneDesc (if d.at 16 8 = 0 then u else hostWrite u (d.at 16 8) (closeReport j js)) d
      (leBytes 8 js ++ leBytes 6 j.choice ++ zeros 2 ++ leBytes 8 j.slipTotal)) := by
  have hjb : (begun s d).job = some j := (begun_job s d).trans hj
  refine (starts_next h (i := .jobClose d) (by simp [h.1])).trans ?_
  unfold runJobClose
  rw [hjb]
  dsimp only
  rw [namesJob_of hjb ht, if_neg (by decide)]

theorem jobCheckpoint_exec {s : State} {d : Desc} {j : Job} (h : Starts s d 0x24) (hj : s.job = some j)
    (ht : j.tag = d.at 8 2) (hstop : s.dev.stopOrdered = none) : exec (.jobCheckpoint d) s =
      .next { begun s d with job := some { j with
        ckptDescs := j.ckptDescs ++ [{ ring := d.ring, slot := d.slot, addr := d.at 16 8, len := d.at 24 8, skive := d.flag 4 }]
        pauseOrdered := j.pauseOrdered || (isLeader s && decide (j.state ≠ .paused)) } } := by
  have hjb : (begun s d).job = some j := (begun_job s d).trans hj
  refine (starts_next h (i := .jobCheckpoint d) (by simp [h.1])).trans ?_
  unfold runJobCheckpoint
  rw [namesJob_of hjb ht, if_neg (by decide), begun_dev, hstop, if_neg (by decide)]
  dsimp only
  rw [setJob_eq hjb, isLeader_begun]

theorem req_exec {s : State} {d : Desc} (h : Starts s d 0x80) (input : List Byte) :
    exec (.req d input) s = .next (runReq input (begun s d) d) := starts_next h (i := .req d input) (by simp [h.1])

/-- The request that a REQ enters. -/
def requestOf (j : Job) (d : Desc) (bs : List Byte) : Request :=
  { rid := j.nextRid, ring := d.ring, slot := d.slot, tag := d.tag, irq := d.flag 0, input := bs,
    outAddr := d.at 32 8, outLen := d.at 40 4, phase := 1, bslot := 0, planPos := 0, donePos := 0, tokens := [],
    reported := 0, hit := 0, stamp := [], keys := [], fetch := none, planned := false }

theorem runReq_elsewhere {u : State} {d : Desc} {j : Job} (hj : u.job = some j) (ht : j.tag = d.at 8 2)
    (hl : isLeader u = false) (input : List Byte) : runReq input u d = badState u d 0x06 := by
  unfold runReq
  rw [namesJob_of hj ht, if_neg (by decide), hl, if_pos (by decide)]

theorem runReq_joins {u : State} {d : Desc} {j : Job} {input bs : List Byte} (hj : u.job = some j) (ht : j.tag = d.at 8 2)
    (hl : isLeader u = true) (hb : hostData d input = some bs) : runReq input u d =
      { u with job := some { j with requests := j.requests ++ [requestOf j d bs], nextRid := j.nextRid + 1 } } := by
  unfold runReq
  rw [namesJob_of hj ht, if_neg (by decide), hl, if_neg (by decide), hb]
  dsimp only
  rw [setJob_eq hj]
  rfl

/-- Settles O33. That a checkpoint ordered first pauses the job before a drain is log entry 17. -/
theorem jobCommands : Obligations.JobCommands := by
  refine ⟨fun s d l h hl hok hfits => ?_, fun s d j l h hj hl ht hstop => ⟨fun hw => ?_, fun hw hd => ?_, fun hw hd => ?_⟩,
    fun s j l hj hl hst hr hp => js0Release_exec hj hl hst hr hp, fun s j hj => ?_, fun s d j h hj ht => ?_,
    fun s j hj hst hd ha => jobDrainComplete_exec hj hst hd ha, fun s d j h hj ht => jobClose_exec h hj ht,
    fun s d j h hj ht hstop => jobCheckpoint_exec h hj ht hstop,
    fun s d j input bs h hj ht hb => ⟨fun hl => ?_, fun hl => ?_⟩⟩
  · rw [← lastNamed_begun s d] at hl
    rw [← storeFits_begun s d] at hfits
    have hrun := runJobOpen_opens hl hok hfits
    rw [begun_clk] at hrun
    exact (jobOpen_exec h).trans (congrArg _ hrun)
  · exact ⟨_, (jobStart_exec h).trans (congrArg _ (runJobStart_unloaded ((begun_job s d).trans hj)
      ((jobLast_begun s d).trans hl) ht (by rwa [begun_dev]) hw)), badState_refused _ (starts_outst h)⟩
  · exact ⟨_, (jobStart_exec h).trans (congrArg _ (runJobStart_dateline ((begun_job s d).trans hj)
      ((jobLast_begun s d).trans hl) ht (by rwa [begun_dev]) hw ((datelineOk_begun s d l).trans hd))),
      badState_refused _ (starts_outst h)⟩
  · have hrun := runJobStart_begins ((begun_job s d).trans hj) ((jobLast_begun s d).trans hl) ht (by rwa [begun_dev]) hw
      ((datelineOk_begun s d l).trans hd) (begun_now s d)
    rw [effPace_begun, isLeader_begun] at hrun
    exact (jobStart_exec h).trans (congrArg _ hrun)
  · obtain ⟨hjob, hregions⟩ := startJob_started hj
    refine ⟨_, hjob, rfl, rfl, rfl, rfl, rfl, rfl, fun g hg => ?_⟩
    rw [hregions] at hg
    obtain ⟨g', _, rfl⟩ := List.mem_map.mp hg
    exact ⟨rfl, rfl⟩
  · have hjb : (begun s d).job = some j := (begun_job s d).trans hj
    intro u
    refine ⟨fun hl => ?_, fun hl hp => ?_, fun hl hp => ?_⟩
    · rw [← isLeader_begun s d] at hl
      rw [jobDrain_exec h, runJobDrain_waits hjb ht (fun hl' => by rw [hl] at hl'; cases hl'), hl]
      rfl
    · rw [← isLeader_begun s d] at hl
      exact ⟨_, (jobDrain_exec h).trans (congrArg _ (runJobDrain_first hjb ht hl hp)), badState_refused _ (starts_outst h)⟩
    · rw [← isLeader_begun s d] at hl
      rw [jobDrain_exec h, runJobDrain_waits hjb ht (fun _ => hp), hl, if_pos rfl]
  · rw [← isLeader_begun s d] at hl
    exact ⟨_, (req_exec h input).trans (congrArg _ (runReq_elsewhere ((begun_job s d).trans hj) ht hl input)),
      badState_refused _ (starts_outst h)⟩
  · rw [← isLeader_begun s d] at hl
    exact (req_exec h input).trans (congrArg _ (runReq_joins ((begun_job s d).trans hj) ht hl hb))

end Sys2Proof.Proofs

/-! Checkpoint images and JOB_RELAST (16 R403 to R406). -/
namespace Sys2Proof.Proofs
open Sys2Proof.Machine Sys2Proof.Safety

/-- On a chip that does not lead the job, the image carries the request section given. -/
theorem checkpointImage_exec {s : State} {j : Job} {l : LoadedLast} {t : Store} {c : Ckpt} {rest : List Ckpt}
    {reqs : List Byte} {qs : List CkptReq} {fs : List CkptFrame} (hj : s.job = some j) (hl : jobLast s = some l)
    (ht : jobStore s = some t) (hc : j.ckptDescs = c :: rest) (hst : j.state = .paused) (hlead : isLeader s = false)
    (hp : parseSection reqs = some (qs, fs)) : exec (.checkpointImageWrite reqs) s =
      .next (writeImage { s with job := some { j with ckptDescs := rest, imaged := j.nextRid } } j l t reqs qs fs c) := by
  change execCheckpointImageWrite reqs s = _
  unfold execCheckpointImageWrite
  rw [hj, hl, ht]
  dsimp only
  rw [hc]
  dsimp only
  rw [if_neg (not_not.mpr hst), hlead, if_neg Bool.false_ne_true, hp]
  dsimp only
  rw [setJob_eq hj]

/-- The first word of the kept pages that is uncorrectable, if any. -/
def firstBad (s : State) (j : Job) (l : LoadedLast) (t : Store) (qs : List CkptReq) (fs : List CkptFrame) : Option Nat :=
  ((keptPages l t qs fs).filterMap (fun a => hbmBadIn s a (2 ^ l.span * j.sliceBytes))).head?

section
variable {s : State} {j : Job} {l : LoadedLast} {t : Store} {reqs : List Byte} {qs : List CkptReq} {fs : List CkptFrame}
  {c : Ckpt}

theorem writeImage_bad {w : Nat} (h : firstBad s j l t qs fs = some w) :
    writeImage s j l t reqs qs fs c = complete (hbmUncorrected s (32 * w)) c.ring c.slot 0x60 0x06 := by
  unfold firstBad at h
  unfold writeImage
  dsimp only
  rw [h]
  rfl

theorem writeImage_plain (h : firstBad s j l t qs fs = none) (hs : c.skive = false) :
    let image := ckptHeader j l (sliceLen (keptPages l t qs fs).length j.sliceBytes) reqs.length ++ reqs
      ++ (List.range (2 ^ l.span)).flatMap (sliceSection s j l (keptPages l t qs fs))
    writeImage s j l t reqs qs fs c = if c.len < image.length then refuseSlot s c.ring c.slot 0x10 0x35
      else complete (hostWrite s c.addr image) c.ring c.slot 0x00 0
        (leBytes 8 j.boundary ++ leBytes 6 j.choice ++ zeros 2 ++ leBytes 8 image.length) := by
  unfold firstBad at h
  unfold writeImage
  dsimp only
  rw [h, hs]
  rfl

end

/-! ### JOB_RELAST -/

theorem jobRelast_exec {s : State} {d : Desc} (h : Starts s d 0x25) (image arr ck : List Byte) (sched : Schedule) :
    exec (.jobRelast d image arr ck sched) s = .next (runJobRelast image arr ck sched (begun s d) d) :=
  starts_next h (i := .jobRelast d image arr ck sched) (by simp [h.1])

theorem runJobRelast_foreign {u : State} {d : Desc} {j : Job} (hj : u.job = some j) (ht : j.tag ≠ d.at 36 2)
    (image arr ck : List Byte) (sched : Schedule) : runJobRelast image arr ck sched u d = badState u d 0x03 := by
  have hn : namesJob u (d.at 36 2) = false := by
    unfold namesJob
    rw [hj]
    exact decide_eq_false ht
  unfold runJobRelast
  rw [hj, hn, if_pos ⟨rfl, rfl⟩]

/-- The last that a re-last takes the place of: the job's, or the one of the image where there is no job. -/
def relastOld (s : State) (img : List Byte) : Option LoadedLast :=
  if s.job.isSome then jobLast s else s.lasts.find? (fun l => decide (l.digest = lastDigest img))

/-- The other lasts that hold a bank. -/
def relastOthers (s : State) (img : List Byte) : List LoadedLast :=
  (openLasts s).filter (fun l => match relastOld s img with | some o => decide (l.digest ≠ o.digest) | none => true)

/-- What JOB_RELAST answers once its state checks have passed, in the order of its checks. -/
theorem runJobRelast_judged {u : State} {d : Desc} {image arr ck img a b : List Byte} (sched : Schedule)
    (hj : ∀ j, u.job = some j → j.tag = d.at 36 2) (hi : hostData d image = some img) (ha : hostData d arr = some a)
    (hb : hostData d ck = some b) (hfree : (relastOthers u img).length < 2) :
    runJobRelast image arr ck sched u d =
      (match loadLast (loadEnv (applyPendingTiles u) (relastOthers u img) []) img a sched with
        | .error r => refuseLast u d r
        | .ok l =>
          if b.length < 128 ∨ leAt b 0 4 ≠ 0x54504B43 ∨ leAt b 4 2 ≠ 1 then badDesc u d 0x1B
          else if slice b 8 32 ≠ l.digest then badDesc u d 0x19
          else
            match parseCkpt l (d.at 36 2) b with
            | none => badDesc u d 0x1B
            | some (qs, fs) =>
              if maxBatch l < (qs.filter (fun q => decide (q.state ≠ 1))).length then badState u d 0x16
              else if !storeFits u l (storeFor l (leAt b 88 4) (leAt b 92 4)) then badDesc u d 0x10
              else doRelast (applyPendingTiles u) d (relastOld u img) (relastOthers u img) l b qs fs) := by
  have hnot : ¬(u.job.isSome = true ∧ (!namesJob u (d.at 36 2)) = true) := by
    rintro ⟨hsome, hno⟩
    obtain ⟨j, hj'⟩ := Option.isSome_iff_exists.mp hsome
    rw [namesJob_of hj' (hj j hj')] at hno
    exact absurd hno (by decide)
  have hfree' := hfree
  unfold relastOthers relastOld at hfree'
  unfold runJobRelast relastOthers relastOld
  rw [if_neg hnot, hi, ha, hb]
  cases hjob : u.job with
  | none =>
    rw [hjob] at hfree'
    dsimp only
    exact if_neg (Nat.not_le.mpr hfree')
  | some j =>
    rw [hjob] at hfree'
    dsimp only
    exact if_neg (Nat.not_le.mpr hfree')

theorem relastOld_begun (s : State) (d : Desc) (img : List Byte) : relastOld (begun s d) img = relastOld s img := by
  rw [begun_eq]
  rfl

theorem relastOthers_begun (s : State) (d : Desc) (img : List Byte) : relastOthers (begun s d) img = relastOthers s img := by
  unfold relastOthers
  rw [relastOld_begun, openLasts_begun]

/-- Settles O34. That the section given stands for a chip other than the leader is log entry 30. -/
theorem checkpoints : Obligations.Checkpoints := by
  refine ⟨fun s j l t c rest reqs qs fs hj hl ht hc hst hlead hp => checkpointImage_exec hj hl ht hc hst hlead hp,
    fun s j l t reqs qs fs c => ⟨fun w hw => writeImage_bad hw, fun hn hs => ?_⟩,
    fun s d image arr ck sched j h hj ht => ?_, fun s d image arr ck sched img a b h hj hi ha hb => ?_⟩
  · intro image
    rw [writeImage_plain hn hs]
    exact ⟨fun hlt => if_pos hlt, fun hle => if_neg (Nat.not_lt.mpr hle)⟩
  · exact ⟨_, (jobRelast_exec h image arr ck sched).trans
      (congrArg _ (runJobRelast_foreign ((begun_job s d).trans hj) ht image arr ck sched)), badState_refused _ (starts_outst h)⟩
  · intro u old others hfree
    have hothers : relastOthers (begun s d) img = others := relastOthers_begun s d img
    have hold : relastOld (begun s d) img = old := relastOld_begun s d img
    have hrun := runJobRelast_judged (u := begun s d) sched (by rwa [begun_job]) hi ha hb (by rw [hothers]; exact hfree)
    rw [hothers, hold] at hrun
    rw [jobRelast_exec h, hrun]
    simp only [storeFits_begun] <;> rfl

end Sys2Proof.Proofs

/-! XFER and SOLVE (14 R350 to R353, 15 R375 to R377). -/
namespace Sys2Proof.Proofs
open Sys2Proof.Machine Sys2Proof.Safety

/-! ### XFER -/

theorem xferLocal_begun (s : State) (d : Desc) : xferLocal (begun s d) d = xferLocal s d := by
  unfold xferLocal
  rw [begun_dev]

theorem xferWaits_begun (s : State) (d : Desc) (n : Nat) : xferWaits (begun s d) d n = xferWaits s d n := by
  rw [begun_eq]
  rfl

theorem xferWrite_exec {s : State} {d : Desc} (h : Starts s d 0x50) (hx : d.at 8 1 = 1) (data mask : List Byte) :
    exec (.xferWrite d data mask) s = .next (runXferWrite data mask (begun s d) d) :=
  starts_next h (i := .xferWrite d data mask) (by simp [h.1, hx])

theorem xferRead_exec {s : State} {d : Desc} (h : Starts s d 0x50) (hx : d.at 8 1 = 2) :
    exec (.xferRead d) s = .next (runXferRead (begun s d) d) := starts_next h (i := .xferRead d) (by simp [h.1, hx])

theorem xferTackAdd_exec {s : State} {d : Desc} (h : Starts s d 0x50) (hx : d.at 8 1 = 3) (mask : List Byte) :
    exec (.xferTackAdd d mask) s = .next (runXferTackAdd mask (begun s d) d) :=
  starts_next h (i := .xferTackAdd d mask) (by simp [h.1, hx])

/-- A WRITE of some bytes waits, is performed here, or is sent. -/
theorem runXferWrite_bytes {u : State} {d : Desc} {data mask bs : List Byte} (hd : hostData d data = some bs) (hne : bs ≠ []) :
    let m := leNat (mask.take 128)
    let v := addXfer u (xferOf u d bs.length (chunks 3840 bs).length m)
    runXferWrite data mask u d = if xferLocal u d && xferWaits u d bs.length then deferDesc u d (.xferWrite d data mask)
      else if xferLocal v d then localWrites d v (chunks 3840 bs) else sendWrites d m v (chunks 3840 bs) := by
  unfold runXferWrite
  rw [hd]
  dsimp only
  rw [if_neg (by rw [List.isEmpty_iff]; exact hne)]

theorem runXferRead_eq (u : State) (d : Desc) :
    let v := addXfer u (xferOf u d (d.at 32 4) (ceilDiv (d.at 32 4) 3840) 0)
    runXferRead u d = if xferLocal u d && xferWaits u d (d.at 32 4) then deferDesc u d (.xferRead d)
      else if xferLocal v d then localReads d v else sendReads d v := rfl

theorem xferLocal_addXfer (u : State) (d : Desc) (x : Xfer) : xferLocal (addXfer u x) d = xferLocal u d := rfl

/-! ### SOLVE -/

/-- Each record moves the batch to its next problem. -/
theorem nextRecord_next (s : State) (b : Batch) : (nextRecord s b).2.next = b.next + 1 := by
  unfold nextRecord
  dsimp only
  split
  · rfl
  · split
    · rfl
    · split <;> rfl

theorem solve_exec {s : State} {d : Desc} (h : Starts s d 0x90) (problems : List Byte) :
    exec (.solve d problems) s = .next (runSolve problems (begun s d) d) :=
  starts_next h (i := .solve d problems) (by simp [h.1])

theorem shankProblemDone_exec {s : State} {b : Batch} (hb : s.shank.batch = some b) :
    let r := nextRecord s b
    let u := hostWrite s (b.resultAddr + 512 * b.next) r.1
    exec .shankProblemDone s = .next (if b.next + 1 < b.count then { u with shank := { u.shank with batch := some r.2 } }
      else complete { u with shank := { u.shank with batch := none } } b.ring b.slot 0x00 0 (leBytes 2 b.count)) := by
  change execShankProblemDone s = _
  unfold execShankProblemDone
  rw [hb]
  dsimp only
  rw [nextRecord_next]
  rfl

/-- Settles O35. -/
theorem transfersAndSolves : Obligations.TransfersAndSolves := by
  refine ⟨fun s d data mask bs h hx hd hne => ?_, fun s d h hx => ?_, fun s d mask h hx => ?_,
    fun s d problems bs h hd => ?_, fun s b hb => shankProblemDone_exec hb⟩
  · intro u m v
    rw [xferWrite_exec h hx, runXferWrite_bytes hd hne]
    rw [xferLocal_addXfer, xferLocal_begun, xferWaits_begun]
    exact ⟨fun hl => by rw [hl]; rfl, fun hl hw => by rw [hl, hw]; rfl, fun hl hw => by rw [hl, hw]; rfl⟩
  · intro u v
    rw [xferRead_exec h hx, runXferRead_eq]
    rw [xferLocal_addXfer, xferLocal_begun, xferWaits_begun]
    exact ⟨fun hl => by rw [hl]; rfl, fun hl hw => by rw [hl, hw]; rfl⟩
  · intro u m v
    rw [xferTackAdd_exec h hx]
    unfold runXferTackAdd
    dsimp only
    rw [xferLocal_addXfer, xferLocal_begun]
    exact ⟨fun hl => by rw [hl]; rfl, fun hl => by rw [hl]; rfl⟩
  · intro b
    rw [solve_exec h]
    unfold runSolve
    rw [hd]
    dsimp only
    rw [begun_shank]

end Sys2Proof.Proofs

/-! Cold start, the loss of the reference and its return (02 R26, R28, R42, R43, 19 R486, R512). -/
namespace Sys2Proof.Proofs
open Sys2Proof.Machine Sys2Proof.Safety

/-! ### COLD -/

theorem generatorLock_exec {s : State} (hc : s.dev.state = .cold) (hl : s.clk.locked = false)
    (hh : s.clk.holdover = false) : exec .generatorLock s =
      .next { s with clk := { s.clk with ws := 0, locked := true, pace := 0, oldPace := 0, slewLeft := 0 } } := by
  change execGeneratorLock s = _
  rw [execGeneratorLock, if_pos (by simp [hc, hl, hh])]

section
variable {s : State} {xlat : List Nat} (hc : s.dev.state = .cold) (hl : s.clk.locked = true) (hn : xlat.length = 80)
include hc hl hn

/-- A latency above 6 is a calibration failure, whatever the firmware. -/
theorem coldComplete_calibration {i : Nat} (hi : xlat.findIdx? (fun n => decide (6 < n)) = some i)
    (firmware : Option Nat) (damaged : List Nat) : exec (.coldComplete xlat firmware damaged) s =
      .next (event { s with clk := { s.clk with xlat := xlat }, dev := { s.dev with state := .faulted, calFault := true } }
        0x5004 [i]) := by
  change execColdComplete xlat firmware damaged s = _
  rw [execColdComplete, if_neg (by simp [hc, hl, hn]), hi]

theorem coldComplete_noFirmware (hx : xlat.findIdx? (fun n => decide (6 < n)) = none) (damaged : List Nat) :
    exec (.coldComplete xlat none damaged) s =
      .next (event { s with clk := { s.clk with xlat := xlat }, dev := { s.dev with state := .faulted, calFault := false } }
        0x1070) := by
  change execColdComplete xlat none damaged s = _
  rw [execColdComplete, if_neg (by simp [hc, hl, hn]), hx]

/-- The chip as COLD leaves it: memories of valid zeros, SETUP, the firmware that verifies. -/
def coldSetup (a : State) (v : Nat) : State :=
  { a with
    mem := { a.mem with insole := [], hbm := [], insoleBad := [], hbmBad := [], tacks := [], tackWaits := [] }
    dev := { a.dev with state := .setup, under := .setup, calFault := false, fwVersion := v } }

theorem coldComplete_setup (hx : xlat.findIdx? (fun n => decide (6 < n)) = none) (v : Nat) (damaged : List Nat) :
    let u := { s with clk := { s.clk with xlat := xlat } }
    let w := releaseAgain (coldSetup (if s.dev.warm then u else restoreRecords u damaged) v)
    exec (.coldComplete xlat (some v) damaged) s = .next { w with dev := { w.dev with warm := false } } := by
  change execColdComplete xlat (some v) damaged s = _
  rw [execColdComplete, if_neg (by simp [hc, hl, hn]), hx]
  rfl

end

theorem findIdx?_small {xlat : List Nat} (h : ∀ n ∈ xlat, n ≤ 6) : xlat.findIdx? (fun n => decide (6 < n)) = none := by
  simpa [List.findIdx?_eq_none_iff] using h

/-! ### The reference -/

/-- On a chip with no job, eyelet `k` of `t` stands as in `s`, or is DOWN. -/
def Lowered (s t : State) (k : Nat) : Prop :=
  t.job = none ∧ k < t.eyelets.length ∧ ((t.eyelet k).state = (s.eyelet k).state ∨ (t.eyelet k).state = .down)

section
variable {s : State} {k : Nat} (hj : s.job = none) (hk : k < s.eyelets.length)
include hj hk

theorem lowered_refl : Lowered s s k := ⟨hj, hk, .inl rfl⟩

theorem lowered_set (j : Nat) {f : Eyelet → Eyelet} (hf : ∀ e, (f e).state = e.state ∨ (f e).state = .down) :
    Lowered s (setEyelet s j f) k := by
  refine ⟨hj, (setEyelet_length s j f).symm ▸ hk, ?_⟩
  by_cases h : k = j
  · subst h
    rw [setEyelet_eyelet _ _ _ hk]
    exact hf _
  · rw [setEyelet_eyelet_other _ _ _ _ h]
    exact .inl rfl

end

theorem Lowered.trans {s t u : State} {k : Nat} (h : Lowered s t k) (h' : Lowered t u k) : Lowered s u k := by
  obtain ⟨_, _, hst⟩ := h
  obtain ⟨hj, hk, hst'⟩ := h'
  exact ⟨hj, hk, hst'.elim (fun e => hst.elim (fun e' => .inl (e.trans e')) (fun e' => .inr (e.trans e'))) .inr⟩

theorem Lowered.event {s t : State} {k : Nat} (h : Lowered s t k) (code : Nat) (slots : List Nat) :
    Lowered s (event t code slots) k := by
  obtain ⟨hj, hk, hst⟩ := h
  exact ⟨(event_job t code slots).trans hj, by rw [event_eyelets]; exact hk, by rw [eyelet_event]; exact hst⟩

theorem Lowered.set {s t : State} {k : Nat} (h : Lowered s t k) (j : Nat) {f : Eyelet → Eyelet}
    (hf : ∀ e, (f e).state = e.state ∨ (f e).state = .down) : Lowered s (setEyelet t j f) k :=
  h.trans (lowered_set h.1 h.2.1 j hf)

theorem lacingUses_noJob {s : State} (hj : s.job = none) (k : Nat) : lacingUses s k = false := by
  unfold lacingUses lacingEyelets jobLast
  rw [hj]
  rfl

/-- Taking an eyelet DOWN lowers it and its bridge partner, and no other. -/
theorem takeDown_lowered {s : State} {k : Nat} (hj : s.job = none) (hk : k < s.eyelets.length) (j cause : Nat) :
    Lowered s (takeDown s j cause false .down) k := by
  unfold takeDown
  split
  · rw [leaveUp_unused (lacingUses_noJob hj j)]
    exact ((lowered_set hj hk j (fun e => .inr rfl)).event _ _).event _ _
  · refine Lowered.set ?_ j (fun e => .inr rfl)
    unfold bridgeDown
    split
    · exact lowered_refl hj hk
    · exact ((lowered_set hj hk j (fun e => .inr rfl)).set _ (fun e => .inr rfl)).event _ _
  · exact lowered_set hj hk j (fun e => .inr rfl)

theorem takeDown_down {s : State} {k : Nat} (hj : s.job = none) (hk : k < s.eyelets.length) (cause : Nat) :
    ((takeDown s k cause false .down).eyelet k).state = .down := by
  have hset : ∀ (t : State) (f : Eyelet → Eyelet), k < t.eyelets.length → (∀ e, (f e).state = .down) →
      ((setEyelet t k f).eyelet k).state = .down := by
    intro t f ht hf
    rw [setEyelet_eyelet _ _ _ ht]
    exact hf _
  unfold takeDown
  split
  · rw [leaveUp_unused (lacingUses_noJob hj k), eyelet_event, eyelet_event]
    exact hset s _ hk (fun e => rfl)
  · refine hset _ _ ?_ (fun e => rfl)
    unfold bridgeDown
    split
    · exact hk
    · rw [event_eyelets, setEyelet_length, setEyelet_length]
      exact hk
  · exact hset s _ hk (fun e => rfl)

/-- One eyelet at the loss of the reference. -/
def lowerOne (s : State) (k : Nat) : State := if (s.eyelet k).state = .held then s else takeDown s k 0x02 false .down

theorem lowerOne_lowered {s : State} {k : Nat} (hj : s.job = none) (hk : k < s.eyelets.length) (j : Nat) :
    Lowered s (lowerOne s j) k := by
  unfold lowerOne
  split
  · exact lowered_refl hj hk
  · exact takeDown_lowered hj hk j 0x02

theorem foldl_lowerOne {k : Nat} (js : List Nat) : ∀ {s : State}, s.job = none → k < s.eyelets.length →
    Lowered s (js.foldl lowerOne s) k := by
  induction js with
  | nil => exact fun hj hk => lowered_refl hj hk
  | cons j js ih =>
    intro s hj hk
    have h := lowerOne_lowered hj hk j
    exact h.trans (ih h.1 h.2.1)

/-- An eyelet that is UP goes DOWN in its turn, if its bridge partner has not taken it there before. -/
theorem foldl_lowerOne_down {k : Nat} (js : List Nat) (hmem : k ∈ js) : ∀ {s : State}, s.job = none → k < s.eyelets.length →
    (s.eyelet k).state ≠ .held → ((js.foldl lowerOne s).eyelet k).state = .down := by
  induction js with
  | nil => exact absurd hmem List.not_mem_nil
  | cons j js ih =>
    intro s hj hk hst
    obtain ⟨hj', hk', hst'⟩ := lowerOne_lowered hj hk j
    rw [List.foldl_cons]
    rcases List.mem_cons.mp hmem with rfl | hmem
    · have hdown : ((lowerOne s k).eyelet k).state = .down := by
        rw [lowerOne, if_neg hst]
        exact takeDown_down hj hk 0x02
      obtain ⟨_, _, h⟩ := foldl_lowerOne js hj' hk'
      exact h.elim (fun e => e.trans hdown) id
    · refine ih hmem hj' hk' ?_
      rcases hst' with e | e
      · rw [e]
        exact hst
      · rw [e]
        decide

theorem referenceLost_exec {s : State} (hl : s.clk.locked = true) : exec .referenceLost s =
    .next ((List.range 16).foldl lowerOne (event { s with clk := { s.clk with locked := false, holdover := true } } 0x5001)) := by
  change execReferenceLost s = _
  rw [execReferenceLost, if_neg (by rw [hl]; decide)]
  rfl

/-- Settles O36. Records restored after a power-up only are log entry 56, the event 0x6040 after a conventional reset only log
entry 58, the firmware as an operand log entry 59, cause 0x02 log entry 61. -/
theorem coldStartAndReference : Obligations.ColdStartAndReference := by
  refine ⟨fun s hc hl hh => generatorLock_exec hc hl hh, fun s xlat firmware damaged hc hl hn => ?_, fun s hl => ?_,
    fun s hh => ⟨_, congrArg Host.Outcome.next (if_pos hh), event_recorded _ _ _⟩⟩
  · intro u
    refine ⟨fun i hi => ⟨_, coldComplete_calibration hc hl hn hi firmware damaged, event_recorded _ _ _⟩,
      fun hx hf => ?_, fun v hx hf => ?_⟩
    · subst hf
      exact ⟨_, coldComplete_noFirmware hc hl hn (findIdx?_small hx) damaged, event_recorded _ _ _⟩
    · subst hf
      intro a b c
      refine ⟨_, releaseAgain b, coldComplete_setup hc hl hn (findIdx?_small hx) v damaged, rfl, ?_⟩
      unfold releaseAgain
      dsimp only
      split
      · exact sledEvent_recorded _ _ _
      · rfl
  · refine ⟨_, _, referenceLost_exec hl, event_recorded _ _ _, rfl, fun k hk hst hlen hj => ?_⟩
    refine foldl_lowerOne_down (List.range 16) (List.mem_range.mpr hk) ((event_job _ _ _).trans hj)
      (by rw [event_eyelets]; exact hlen) ?_
    rw [eyelet_event]
    intro h
    exact absurd (hst.symm.trans h) (by decide)

end Sys2Proof.Proofs

/-! Sled events and answers to wakes stay on the Cobbler's side and in the logs (17 R433, R440, 16 R408). -/
namespace Sys2Proof.Proofs
open Sys2Proof.Machine Sys2Proof.Safety

/-- An event changes the host side alone. -/
theorem event_eq (s : State) (code : Nat) (slots : List Nat) : ∃ host, event s code slots = { s with host := host } := by
  obtain ⟨rings, vectors, out, h⟩ := event_only s code slots
  rw [h]
  exact ⟨_, rfl⟩

/-- A sled event changes what the Cobbler keeps of its events, what it sends, and the host side. -/
theorem sledEvent_eq (s : State) (code : Nat) (slots : List Nat) : ∃ seq log evs orders msgs host,
    sledEvent s code slots = { s with
      cob := { s.cob with nextSeq := seq, sledLog := log, events := evs }, cobOut := orders, apbelOut := msgs, host := host } := by
  obtain ⟨orders, msgs, evs, _, h⟩ := sledEvent_recorded s code slots
  split at h
  · obtain ⟨rings, vectors, out, h⟩ := h
    rw [h]
    exact ⟨_, _, _, _, _, _, rfl⟩
  · rw [h]
    exact ⟨_, _, _, _, _, s.host, rfl⟩

section
variable (s : State) (code : Nat) (slots : List Nat)

@[simp] theorem sledEvent_now : (sledEvent s code slots).now = s.now := by
  obtain ⟨_, _, _, _, _, _, h⟩ := sledEvent_eq s code slots
  rw [h]
@[simp] theorem sledEvent_position : (sledEvent s code slots).position = s.position := by
  obtain ⟨_, _, _, _, _, _, h⟩ := sledEvent_eq s code slots
  rw [h]
@[simp] theorem sledEvent_dev : (sledEvent s code slots).dev = s.dev := by
  obtain ⟨_, _, _, _, _, _, h⟩ := sledEvent_eq s code slots
  rw [h]
@[simp] theorem sledEvent_mon : (sledEvent s code slots).mon = s.mon := by
  obtain ⟨_, _, _, _, _, _, h⟩ := sledEvent_eq s code slots
  rw [h]
@[simp] theorem sledEvent_chips : (sledEvent s code slots).cob.chips = s.cob.chips := by
  obtain ⟨_, _, _, _, _, _, h⟩ := sledEvent_eq s code slots
  rw [h]

end

/-- The answer to a wake stays on the Cobbler's side and in the logs. -/
theorem wakeAnswer_eq (s : State) (a : Nat) : ∃ cob orders msgs host,
    wakeAnswer s a = { s with cob := cob, cobOut := orders, apbelOut := msgs, host := host } := by
  unfold wakeAnswer
  split
  · exact ⟨s.cob, s.cobOut, s.apbelOut, s.host, rfl⟩
  · unfold finishWake
    split
    · dsimp only
      split
      · exact ⟨_, s.cobOut, s.apbelOut, s.host, rfl⟩
      · exact ⟨_, s.cobOut, _, s.host, rfl⟩
    · obtain ⟨_, _, _, _, _, _, h⟩ := sledEvent_eq { s with cob := { s.cob with wakes := _ } } 0x7021 [_, _]
      rw [h]
      exact ⟨_, _, _, _, rfl⟩

theorem wakeAnswers_eq (a : Nat) (ns : List Nat) : ∀ s : State, ∃ cob orders msgs host,
    ns.foldl (fun s _ => wakeAnswer s a) s = { s with cob := cob, cobOut := orders, apbelOut := msgs, host := host } := by
  induction ns with
  | nil => exact fun s => ⟨s.cob, s.cobOut, s.apbelOut, s.host, rfl⟩
  | cons n ns ih =>
    intro s
    obtain ⟨c, o, m, h, he⟩ := wakeAnswer_eq s a
    obtain ⟨c', o', m', h', he'⟩ := ih (wakeAnswer s a)
    refine ⟨c', o', m', h', ?_⟩
    rw [List.foldl_cons, he', he]

end Sys2Proof.Proofs

/-! Power stop, D3hot, D0, wake and PME (16 R391, R407 to R410, 17 R424). -/
namespace Sys2Proof.Proofs
open Sys2Proof.Machine Sys2Proof.Safety

/-! ### Power stop -/

/-- What a power stop leaves of descriptors: none held, none ready, no transfer, no batch. -/
theorem abortDescs_empty (s : State) : (abortDescs s).held = [] ∧ (abortDescs s).ready = [] ∧
    (abortDescs s).svc.xfers = [] ∧ (abortDescs s).shank.batch = none := ⟨rfl, rfl, rfl, rfl⟩

/-! ### D3hot and D0 -/

theorem d3hot_exec {s : State} {p : Nat} (h : barAlive s = true) : exec (.powerstateD3hot p) s =
    .next (if s.host.d3hot then writePmcsr s p else enterD3hot (writePmcsr s p)) := by
  change execPowerstateD3hot p s = _
  rw [execPowerstateD3hot, if_neg (by rw [h]; decide)]

theorem d0_exec {s : State} {p : Nat} (h : barAlive s = true) : exec (.powerstateD0 p) s =
    .next (if s.host.d3hot then enterD0 (writePmcsr s p) else writePmcsr s p) := by
  change execPowerstateD0 p s = _
  rw [execPowerstateD0, if_neg (by rw [h]; decide)]

theorem enterD3hot_idles {s : State} (h : s.dev.state = .setup ∨ s.dev.state = .ready ∨ s.dev.state = .loaded) :
    enterD3hot s = orderPace { s with
      host := { s.host with d3hot := true }, dev := { s.dev with under := s.dev.state, state := .idleLp } } 0 := by
  have hc : [DevState.setup, .ready, .loaded].contains s.dev.state = true := by
    rw [List.contains_iff_mem]
    simpa using h
  exact if_pos hc

theorem enterD3hot_stays {s : State} (h1 : s.dev.state ≠ .setup) (h2 : s.dev.state ≠ .ready) (h3 : s.dev.state ≠ .loaded) :
    enterD3hot s = { s with host := { s.host with d3hot := true } } := by
  have hc : ¬[DevState.setup, .ready, .loaded].contains s.dev.state = true := by
    rw [List.contains_iff_mem]
    simp [h1, h2, h3]
  exact if_neg hc

/-- The state under IDLE_LP returns, with the pace of R334. -/
def leftIdle (s : State) : State := orderPace { s with dev := { s.dev with state := s.dev.under } } (outsidePace s)

/-- What D0 does once a pending wake has been superseded. -/
def returned (s : State) : State :=
  reopenHost (if s.dev.state = .idleLp then (if jobLive s then { s with dev := { s.dev with state := s.dev.under } } else leftIdle s)
    else s)

theorem enterD0_plain {s : State} (h : s.dev.wakes = 0) :
    enterD0 s = returned { s with host := { s.host with d3hot := false } } := by
  unfold enterD0
  dsimp only
  rw [if_pos h]
  rfl

theorem enterD0_waking {s u : State} (h : 0 < s.dev.wakes) (hu : { s with host := { s.host with d3hot := false } } = u) :
    let v := event u 0x1061
    enterD0 s = returned ((List.range s.dev.wakes).foldl (fun s _ => wakeAnswer s 3) { v with dev := { v.dev with wakes := 0 } }) := by
  subst hu
  unfold enterD0
  dsimp only
  rw [if_neg (Nat.ne_of_gt h)]
  rfl

theorem returned_active {s : State} (h : s.dev.state ≠ .idleLp) : returned s = reopenHost s := by
  rw [returned, if_neg h]

theorem returned_idle {s : State} (h : s.dev.state = .idleLp) (hj : jobLive s = false) :
    returned s = reopenHost (leftIdle s) := by
  rw [returned, if_pos h, hj, if_neg Bool.false_ne_true]

/-- The answers to wakes do not touch what the return from IDLE_LP reads. -/
theorem returned_woken {v : State} (a : Nat) (ns : List Nat) (h : v.dev.state = .idleLp) (hj : jobLive v = false) :
    let w := ns.foldl (fun s _ => wakeAnswer s a) { v with dev := { v.dev with wakes := 0 } }
    returned w = reopenHost (orderPace { w with dev := { w.dev with state := w.dev.under } } (outsidePace v)) := by
  intro w
  obtain ⟨cob, orders, msgs, host, hw⟩ := wakeAnswers_eq a ns { v with dev := { v.dev with wakes := 0 } }
  have hw' : w = { v with dev := { v.dev with wakes := 0 }, cob := cob, cobOut := orders, apbelOut := msgs, host := host } := hw
  have hidle : w.dev.state = .idleLp := by rw [hw']; exact h
  have hlive : jobLive w = false := by rw [hw']; exact hj
  have hpace : outsidePace w = outsidePace v := by rw [hw']; rfl
  rw [returned_idle hidle hlive, leftIdle, hpace]

/-- D0 while a wake is pending: the wake is superseded with event 0x1061. -/
theorem d0_superseding {s v : State} {p : Nat} (h : barAlive s = true) (h3 : s.host.d3hot = true) (hw : 0 < s.dev.wakes)
    (hi : s.dev.state = .idleLp) (hj : jobLive s = false) (hv : event { s with host := { s.host with
      pmeEn := bitOf p 8, pmeStatus := s.host.pmeStatus && !bitOf p 15, d3hot := false } } 0x1061 = v) :
    let w := (List.range s.dev.wakes).foldl (fun s _ => wakeAnswer s 3) { v with dev := { v.dev with wakes := 0 } }
    exec (.powerstateD0 p) s = .next (reopenHost
      (orderPace { w with dev := { w.dev with state := w.dev.under } } (min s.regs.paceActive s.heel.proposal))) := by
  have hidle : v.dev.state = .idleLp := by rw [← hv, event_dev]; exact hi
  have hlive : jobLive v = false := by
    unfold jobLive at hj ⊢
    rw [← hv, event_job]
    exact hj
  have hpace : outsidePace v = min s.regs.paceActive s.heel.proposal := by
    unfold outsidePace
    rw [← hv, event_regs, event_heel]
  rw [d0_exec h, h3, if_pos rfl, enterD0_waking (s := writePmcsr s p) hw rfl]
  unfold writePmcsr
  rw [hv, ← hpace]
  exact congrArg Host.Outcome.next (returned_woken 3 (List.range s.dev.wakes) hidle hlive)

/-! ### Wake and PME -/

theorem wakeOrder_exec {s : State} (h : s.dev.state ≠ .off) (src : Nat) : exec (.wakeOrder src) s =
    .next (if s.dev.state ≠ .idleLp then wakeAnswer s 1 else if !s.host.pmeEn then wakeAnswer s 2
      else orderPace { s with dev := { s.dev with wakes := s.dev.wakes + 1 } } (outsidePace s)) := by
  change execWakeOrder src s = _
  rw [execWakeOrder, if_neg h]

theorem pmeSent_exec {s : State} (hw : 0 < s.dev.wakes) (hi : s.dev.state = .idleLp) : exec .pmeSent s =
    .next ((List.range s.dev.wakes).foldl (fun s _ => wakeAnswer s 0) (event { s with
      dev := { s.dev with wakes := 0 }
      host := { s.host with pmeStatus := true, out := s.host.out ++ [.pme] } } 0x1060)) := by
  change execPmeSent s = _
  rw [execPmeSent, if_neg (by rintro (h | h); exacts [absurd h (Nat.ne_of_gt hw), h hi])]

/-- Settles O38. A STARTING job stopped at once is log entry 47, the descriptors a power stop aborts or spares log entry
48. -/
theorem powerStates : Obligations.PowerStates := by
  refine ⟨fun s hoff hstop => ?_, fun s hstop hr => ?_, fun s p h h3 => ?_, fun s p h h3 => ?_, fun s p h h3 => ?_,
    fun s p h h3 => ?_, fun s src hoff => ⟨fun hi => ?_, fun hi hp => ?_, fun hi hp => ?_⟩, fun s hw hi => ?_⟩
  · intro u
    refine ⟨?_, abortDescs_empty u⟩
    change execPowerStop s = _
    have hu : holdTiles { s with dev := { s.dev with stopOrdered := some s.now } } .throttle = u := rfl
    rw [execPowerStop, if_neg (by rintro (h | h); exacts [hoff h, by rw [hstop] at h; exact Bool.false_ne_true h]), hu]
    dsimp only
    cases (abortDescs u).job <;> rfl
  · change execPowerStopTimeout s = _
    rw [execPowerStopTimeout, if_pos ⟨Option.isSome_iff_ne_none.mpr hstop, hr⟩]
    rfl
  · intro u
    rw [d3hot_exec h, h3, if_neg Bool.false_ne_true]
    exact ⟨fun hs => congrArg Host.Outcome.next (enterD3hot_idles (s := writePmcsr s p) hs),
      fun h1 h2 h3 => congrArg Host.Outcome.next (enterD3hot_stays (s := writePmcsr s p) h1 h2 h3)⟩
  · rw [d3hot_exec h, h3]
    rfl
  · rw [d0_exec h, h3]
    rfl
  · intro u
    refine ⟨fun hw hi => ?_, fun hw hi hj => ?_, fun hw hi hj => d0_superseding h h3 hw hi hj rfl⟩
    · rw [d0_exec h, h3, if_pos rfl, enterD0_plain (s := writePmcsr s p) hw]
      exact congrArg Host.Outcome.next (returned_active (s := u) hi)
    · rw [d0_exec h, h3, if_pos rfl, enterD0_plain (s := writePmcsr s p) hw]
      exact congrArg Host.Outcome.next (returned_idle (s := u) hi hj)
  · rw [wakeOrder_exec hoff, if_pos hi]
  · rw [wakeOrder_exec hoff, if_neg (not_not.mpr hi), hp]
    rfl
  · rw [wakeOrder_exec hoff, if_neg (not_not.mpr hi), hp]
    rfl
  · exact ⟨_, pmeSent_exec hw hi, event_recorded _ _ _⟩

end Sys2Proof.Proofs

/-! ## Stitch boundaries -/
namespace Sys2Proof.Proofs
open Sys2Proof.Machine Sys2Proof.Safety

/-! ### The wall stitch and the blocked counts -/

/-- The state after the count of blocked outputs and the advance of the wall stitch. -/
def stitched (s : State) : State :=
  let u := countBlocked s
  { u with clk := { u.clk with ws := u.clk.ws + 1, slewLeft := u.clk.slewLeft - 1 } }

theorem stitched_eq (s : State) : stitched s = { s with
    clk := { s.clk with ws := s.clk.ws + 1, slewLeft := s.clk.slewLeft - 1 }
    svc := { s.svc with
      blocked := s.svc.blocked.mapIdx (fun i n =>
        if queuedFor s (i / 2) (i % 2) ∧ s.svc.movedNow.contains i = false then n + 1 else n)
      movedNow := [] } } := by
  simp [stitched, countBlocked]

theorem stitchBoundary_exec {s : State} (late : List Nat) (h : s.clk.locked = true ∨ s.clk.holdover = true) :
    exec (.stitchBoundary late) s = .next (match jobLast s with
      | none => stitched s
      | some l => if jobRuns s then
          awlFaults ((List.range 20).foldl (stitchRegion l late) (landArrivals l (stitched s, []))).1
            ((List.range 20).foldl (stitchRegion l late) (landArrivals l (stitched s, []))).2
        else stitched s) := by
  change execStitchBoundary late s = _
  rw [execStitchBoundary, if_neg (by rintro ⟨h1, h2⟩; rcases h with h | h <;> simp [h] at h1 h2)]
  rfl

/-! ### One region -/

/-- A region at the slip point stays. -/
theorem stitchRegion_slip {l : LoadedLast} {late : List Nat} {s : State} {fs : List Finding} {r : Nat} {j : Job}
    (hj : s.job = some j) (h : (s.region r).js = j.released + 4096) : stitchRegion l late (s, fs) r = (s, fs) := by
  unfold stitchRegion
  dsimp only
  rw [hj]
  exact if_pos (Or.inr h)

theorem stitchRegion_held {l : LoadedLast} {late : List Nat} {s : State} {fs : List Finding} {r : Nat} {j : Job}
    (hj : s.job = some j) (hr : jobRuns s = true) (h : (s.region r).js ≠ j.released + 4096)
    (hh : (s.region r).holds.any (stopsAt s.clk.ws) = true) : stitchRegion l late (s, fs) r =
      (setRegion s r (fun g => { g with holds := g.holds.filterMap tickHold }), fs) := by
  unfold stitchRegion
  dsimp only
  rw [hj]
  exact (if_neg (by simp [hr, h])).trans (if_pos hh)

theorem stitchRegion_free {l : LoadedLast} {late : List Nat} {s : State} {fs : List Finding} {r : Nat} {j : Job}
    (hj : s.job = some j) (hr : jobRuns s = true) (h : (s.region r).js ≠ j.released + 4096) (hh : (s.region r).holds = [])
    (hd : (s.region r).due = false) (ht : (s.region r).todo = []) :
    stitchRegion l late (s, fs) r = advance l r (late.contains r) (s, fs) := by
  have hgo : freeToGo s r = true := by simp [freeToGo, hh, hd, ht]
  unfold stitchRegion
  dsimp only
  rw [hj]
  refine (if_neg (by simp [hr, h])).trans ((if_neg (by simp [hh])).trans ?_)
  simp [hd, ht, hr, hgo]

/-- Settles O39. -/
theorem stitchBoundary : Obligations.StitchBoundary := by
  refine ⟨fun s late h => ?_, fun l late s fs r j hj hr => ⟨stitchRegion_slip hj, stitchRegion_held hj hr,
    stitchRegion_free hj hr⟩⟩
  rw [stitchBoundary_exec late h, stitched_eq]
  refine ⟨fun hn => ?_, fun l hr hl => ?_⟩
  · rcases hn with hn | hn
    · cases jobLast s with
      | none => rfl
      | some l => rw [hn]; rfl
    · rw [hn]
  · rw [hl, hr]
    rfl

end Sys2Proof.Proofs

/-! ## Coolant values, the Cobbler's caps and HOLD -/
namespace Sys2Proof.Proofs
open Sys2Proof.Machine Sys2Proof.Safety

/-! ### Coolant and caps -/

theorem coolantValues_exec {s : State} (inlet : Int) (flow : Nat) (h : barAlive s = true) :
    exec (.coolantValuesReceived inlet flow) s =
      .next { s with heel := { s.heel with inlet := inlet, flow := flow, stale := false } } := by
  change execCoolantValuesReceived inlet flow s = _
  rw [execCoolantValuesReceived, governs, if_pos h]

theorem coolantStale_exec {s : State} (h : barAlive s = true) (hs : s.heel.stale = false) :
    exec .coolantStale s = .next (event { s with heel := { s.heel with stale := true } } 0x5033) := by
  change execCoolantStale s = _
  rw [execCoolantStale, governs, if_neg (by simp [h, hs])]

theorem coolantStale_again {s : State} (hs : s.heel.stale = true) : exec .coolantStale s = .next s := by
  change execCoolantStale s = _
  rw [execCoolantStale, if_pos (Or.inl hs)]

theorem capUpdate_exec {s : State} {w p : Nat} (h : s.dev.state ≠ .off) (h1 : 150 ≤ w) (h2 : w ≤ 900) (h3 : p ≤ 32) :
    exec (.capUpdate w p) s =
      .next { s with heel := { s.heel with orders := s.heel.orders ++ [(64, .powerCap w), (64, .paceCap p)] } } := by
  change execCapUpdate w p s = _
  rw [execCapUpdate, if_neg (by simp only [h, false_or]; omega)]

/-- No order names a rail. -/
theorem applyOrder_rails (h : Heel) (o : Order) : (applyOrder h o).rails = h.rails := by
  cases o <;> rfl

theorem foldl_applyOrder_rails (xs : List (Nat × Order)) (h : Heel) :
    (xs.foldl (fun h x => applyOrder h x.2) h).rails = h.rails := by
  induction xs generalizing h with
  | nil => rfl
  | cons x xs ih => rw [List.foldl_cons, ih, applyOrder_rails]

/-! ### HOLD -/

theorem cobblerHold_exec {s : State} (hh : s.dev.held = false) (h : s.dev.state ≠ .off) : exec .cobblerHold s =
    .next (let t := event (holdTiles { s with dev := { s.dev with held := true } } .cobbler) 0x5050
      if holdable t.dev.state then { t with dev := { t.dev with under := t.dev.state, state := .held } } else t) := by
  change execCobblerHold s = _
  rw [execCobblerHold, if_neg (by simp [hh, h])]

theorem cobblerHoldRelease_exec {s t : State} (hh : s.dev.held = true)
    (ht : event (freeTiles { s with dev := { s.dev with held := false } } .cobbler) 0x5051 = t) :
    exec .cobblerHoldRelease s = .next (resumeDeferred
      (if s.dev.state = .held then { t with dev := { t.dev with state := s.dev.under } } else t)) := by
  have hdev : t.dev = { s.dev with held := false } := by rw [← ht, event_dev]; rfl
  change execCobblerHoldRelease s = _
  rw [execCobblerHoldRelease, if_neg (by simp [hh]), ht]
  dsimp only
  rw [hdev]

theorem holdable_iff (d : DevState) : holdable d = true ↔ d ∈ [DevState.ready, .loaded, .running, .draining] := by
  rw [holdable, List.contains_iff_mem]

/-- Settles O43. HOLD in a state outside Table 16.2's row sets only its flag: log entry 62. -/
theorem capsAndHold : Obligations.CapsAndHold := by
  refine ⟨fun s inlet flow h => coolantValues_exec inlet flow h,
    fun s h hs => ⟨_, coolantStale_exec h hs, event_recorded _ _ _⟩, fun s hs => coolantStale_again hs,
    fun s w p h h1 h2 h3 => capUpdate_exec h h1 h2 h3,
    fun s => ⟨rfl, foldl_applyOrder_rails _ _, fun w p ho => ?_⟩, fun s hh h => ?_, fun s hh => ?_⟩
  · unfold applyOrders
    rw [ho]
    exact ⟨rfl, rfl⟩
  · refine ⟨_, event_recorded _ _ _, ?_⟩
    rw [cobblerHold_exec hh h]
    dsimp only
    simp only [holdable_iff, event_dev]
    rfl
  · exact ⟨_, event_recorded _ _ _, cobblerHoldRelease_exec hh rfl⟩

end Sys2Proof.Proofs

/-! ## Patrol scrub, refresh, page copies and health records -/
namespace Sys2Proof.Proofs
open Sys2Proof.Machine Sys2Proof.Safety

theorem hbmPatrolScrub_exec {s : State} {page : Nat} (h : barAlive s = true) (hp : 2048 * page < 0x2400000000) :
    exec (.hbmPatrolScrub page) s = .next ((s.mem.hbmBad.filter (fun w => decide (w / 64 = page))).foldl
      (fun s w => hbmUncorrected s (32 * w)) s) := by
  change execHbmPatrolScrub page s = _
  rw [execHbmPatrolScrub, if_neg]
  rintro (hn | hn)
  · rw [h] at hn
    exact absurd hn (by decide)
  · exact absurd hp (Nat.not_lt.mpr hn)

/-! ### Refresh -/

/-- The finding of check 0x0B: a scheduled request of region `r` meets the refresh of a bank. -/
def refreshFinding (s : State) (bank r : Nat) : Finding :=
  { check := 0x0B
    tile := none
    site := some (siteOf 0xA (bank / 64 / 32 * 2 ^ 24 + bank / 64 % 32 * 2 ^ 16 + bank % 64))
    task := none
    js := (s.region r).js
    declared := 0
    observed := (s.region r).js }

theorem refreshDue_idle {s : State} {bank : Nat}
    (h : ∀ j, s.job = some j → jobRuns s = false ∨ j.relaxed = false ∨ j.later.find? (meetsBank bank) = none) :
    exec (.refreshDue bank) s = .next s := by
  change execRefreshDue bank s = _
  unfold execRefreshDue
  cases hj : s.job with
  | none => rfl
  | some j =>
    dsimp only
    rcases h j hj with h | h | h
    · rw [h]; rfl
    · rw [h, Bool.and_false]; rfl
    · rw [h, ite_self]

theorem refreshDue_meets {s : State} {bank : Nat} {j : Job} {x : Nat × Nat × Later} (hj : s.job = some j)
    (hr : jobRuns s = true) (hx : j.relaxed = true) (hf : j.later.find? (meetsBank bank) = some x) :
    exec (.refreshDue bank) s = .next (bumpFree
      (holdFor (interlock s (refreshFinding s bank x.1)) x.1 0x0B (1 + freshFree s 0 % 128))) := by
  change execRefreshDue bank s = _
  unfold execRefreshDue
  rw [hj]
  dsimp only
  rw [hr, hx, hf]
  rfl

/-! ### Page copies and health records -/

/-- The state once the page of the oldest copy is remapped. -/
def remapped (s : State) (page spare : Nat) (rest : List (Nat × Nat × Nat × Nat)) : State :=
  { s with mem := { s.mem with
      copying := rest
      pageCorrected := assocErase page s.mem.pageCorrected
      retired := s.mem.retired.filter (fun x => decide (x.addr ≠ page ∨ x.kind ≠ 3))
        ++ [{ addr := page, kind := 1, spare := spare, corrected := pageTotal s page }] } }

theorem pageRetireCopyDone_exec {s : State} {r slot page spare : Nat} {rest : List (Nat × Nat × Nat × Nat)}
    (h : s.mem.copying = (r, slot, page, spare) :: rest) : exec .pageRetireCopyDone s =
      .next (resumeDeferred (complete (event (remapped s page spare rest) 0x4023 []) r slot stDone 0)) := by
  change execPageRetireCopyDone s = _
  unfold execPageRetireCopyDone
  rw [h]
  rfl

theorem healthRecordWrite_exec {s : State} : exec .healthRecordWrite s =
    .next (if s.dev.state = .off ∨ s.cob.vaux = false then s else [0, 1, 2, 3].foldl writeRecord s) := by
  change execHealthRecordWrite s = _
  simp only [execHealthRecordWrite, Bool.not_eq_true']
  rfl

/-- Settles O44. -/
theorem memoryUpkeep : Obligations.MemoryUpkeep := by
  refine ⟨fun s page h hp => hbmPatrolScrub_exec h hp, fun s bank h => refreshDue_idle h, fun s bank j x hj hr hx hf => ?_,
    fun s r slot page spare rest h => ⟨_, event_recorded _ _ _, pageRetireCopyDone_exec h⟩, fun s hoff hv => ?_,
    fun s hv => ?_⟩
  · exact ⟨1 + freshFree s 0 % 128, _, by omega, by omega, refreshDue_meets hj hr hx hf, rfl⟩
  · rw [healthRecordWrite_exec, hv, if_neg (by simp [hoff])]
  · rw [healthRecordWrite_exec, if_pos (Or.inr hv)]

end Sys2Proof.Proofs

/-! ## The routing of service packets -/
namespace Sys2Proof.Proofs
open Sys2Proof.Machine Sys2Proof.Safety

/-! ### The judgement of a header -/

theorem judgeHeader_malformed {s : State} {h : List Byte} (k vc : Nat) (hb : hdrBad h = true) :
    judgeHeader s h k vc = .malformed := by
  rw [judgeHeader, if_pos hb]

theorem judgeHeader_replyHere {s : State} {h : List Byte} (k vc : Nat) (hb : hdrBad h = false) (hr : hReply h = true)
    (hd : hDest h = s.dev.coord) : judgeHeader s h k vc = .keep 16 := by
  rw [judgeHeader, hb, if_neg Bool.false_ne_true, if_pos ⟨hr, hd⟩]

/-- A request with no bank of its epoch. -/
theorem judgeHeader_unloaded {s : State} {h : List Byte} (k vc : Nat) (hb : hdrBad h = false) (hr : hReply h = false)
    (hn : bankOf s h = none) : judgeHeader s h k vc = .unroutable 0x05 := by
  rw [judgeHeader, hb, hr, hn, if_neg Bool.false_ne_true, if_neg (by simp)]

/-- What the way of a packet in the pod makes of its header. -/
def wayJudged (s : State) (h : List Byte) : Way → Judged
  | .out k vc => .out k vc h
  | .local => .keep 16
  | .turn => if turnUnits s + 1 + payloadUnits h ≤ 64 then .keep 17 else .wait
  | .wait => .wait
  | .discard => .drop

/-- A unicast request on the ordered channel, without an intermediate, whose bank is loaded. -/
structure OrderedRequest (s : State) (b : RouteTable) (h : List Byte) : Prop where
  sound : hdrBad h = false
  request : hReply h = false
  bank : bankOf s h = some b
  unicast : hMcast h = 0
  ordered : hSpread h = false
  direct : hValiant h = false

section
variable {s : State} {b : RouteTable} {h : List Byte} (o : OrderedRequest s b h)
include o

theorem OrderedRequest.judged {k vc : Nat} {w : Way} (hw : wayOf s b h k vc = w) :
    judgeHeader s h k vc = if inPod s (hDest h) then wayJudged s h w else .unroutable 0x04 := by
  subst hw
  unfold judgeHeader wayJudged
  rw [o.sound, o.request, o.bank, o.direct]
  refine (if_neg Bool.false_ne_true).trans ((if_neg (by simp)).trans ((if_neg (not_not.mpr o.unicast)).trans ?_))
  cases inPod s (hDest h) <;> rfl

theorem OrderedRequest.outside (k vc : Nat) (hp : inPod s (hDest h) = false) :
    judgeHeader s h k vc = .unroutable 0x04 := by
  rw [o.judged rfl, hp, if_neg Bool.false_ne_true]

theorem OrderedRequest.here (k vc : Nat) (hp : inPod s (hDest h) = true) (hd : hDest h = s.dev.coord) :
    judgeHeader s h k vc = .keep 16 := by
  have hway : wayOf s b h k vc = .local := by simp [wayOf, o.direct, hd]
  rw [o.judged hway, if_pos hp, wayJudged]

/-- A packet injected here takes the ordered egress of its entry; it crosses the dateline there or nowhere yet. -/
theorem OrderedRequest.leaves (hp : inPod s (hDest h) = true) (hd : hDest h ≠ s.dev.coord) :
    let k := (b.entries.getD (linear s (hDest h)) (0xF, 0xF, 0)).1
    judgeHeader s h 16 1 = .out k (if bitOf (b.eyelets.getD k 3) 3 then 1 else 0) h := by
  intro k
  have hvc : orderedVc b h 16 1 k = if bitOf (b.eyelets.getD k 3) 3 then 1 else 0 := by
    simp [orderedVc, vcBase, o.request, eyeCross]
  have hway : wayOf s b h 16 1 = .out k (orderedVc b h 16 1 k) := by simp [wayOf, o.direct, hd, o.ordered, k]
  rw [o.judged hway, if_pos hp, wayJudged, ← hvc]

end

/-! ### A whole packet and the packet of an eyelet -/

theorem routeWhole_malformed {s u : State} {p : Pkt} (k cls : Nat) (h : judgeHeader s p.hdr k 1 = .malformed) :
    routeWhole s u k cls p = malformed (touchBank u (hEpoch p.hdr)) p.hdr := by
  unfold routeWhole
  dsimp only
  rw [h]

theorem routeWhole_unroutable {s u : State} {p : Pkt} {sub : Nat} (k cls : Nat)
    (h : judgeHeader s p.hdr k 1 = .unroutable sub) :
    routeWhole s u k cls p = unroutable (touchBank u (hEpoch p.hdr)) p.hdr sub := by
  unfold routeWhole
  dsimp only
  rw [h]

theorem routeWhole_keep {s u : State} {p : Pkt} {e : Nat} (k cls : Nat) (h : judgeHeader s p.hdr k 1 = .keep e) :
    let t := touchBank u (hEpoch p.hdr)
    routeWhole s u k cls p = { t with svc := { t.svc with here := t.svc.here ++ [⟨16, cls, p⟩] } } := by
  unfold routeWhole
  dsimp only
  rw [h]

theorem routeWhole_out {s u : State} {p : Pkt} {e v : Nat} {h' : List Byte} (k cls : Nat)
    (h : judgeHeader s p.hdr k 1 = .out e v h') :
    let t := touchBank u (hEpoch p.hdr)
    routeWhole s u k cls p = if egressDead s e then refusePkt t h' 0x22 0
      else (pktUnits 16 ⟨h', p.data⟩).foldl (fun s u => queueUnit s e v u) (countSpread t p.hdr) := by
  unfold routeWhole
  dsimp only
  rw [h]
  rfl

section
variable {s : State} {k vc : Nat} {u : SvcUnit} {rest : List SvcUnit} (hr : (s.eyelet k).routes.getD vc none = none)
  (hq : (s.eyelet k).rxSvc.getD vc [] = u :: rest) (hu : u.first = true)
include hr hq hu

theorem routeEyelet_keep {e : Nat} (h : judgeHeader (touchBank s (hEpoch u.payload)) u.payload k vc = .keep e) :
    routeEyelet s k vc = startRoute (touchBank s (hEpoch u.payload)) k vc ⟨e, 0, u.payload⟩ := by
  unfold routeEyelet
  rw [hr, hq]
  dsimp only
  rw [hu, h]
  rfl

theorem routeEyelet_out {e v : Nat} {h' : List Byte}
    (h : judgeHeader (touchBank s (hEpoch u.payload)) u.payload k vc = .out e v h')
    (hd : egressDead (touchBank s (hEpoch u.payload)) e = false) : routeEyelet s k vc =
      startRoute (countSpread (touchBank s (hEpoch u.payload)) u.payload) k vc ⟨e, v, h'⟩ := by
  unfold routeEyelet
  rw [hr, hq]
  dsimp only
  rw [hu, h]
  dsimp only
  rw [hd]
  rfl

theorem routeEyelet_wait (h : judgeHeader (touchBank s (hEpoch u.payload)) u.payload k vc = .wait) :
    routeEyelet s k vc = touchBank s (hEpoch u.payload) := by
  unfold routeEyelet
  rw [hr, hq]
  dsimp only
  rw [hu, h]
  rfl

end

/-- Settles O46. An empty bank is judged before an outside coordinate: log entry 18; SUB 0 of a flush at routing: log
entries 20 and 26; a reply for this chip is delivered whatever its bank holds: log entry 78. -/
theorem serviceRouting : Obligations.ServiceRouting := by
  refine ⟨fun s vc x h => ?_, fun s vc h => ?_, fun s vc p rest h => ?_, fun s u cls p => ?_, fun s k vc hk => ?_,
    fun s k vc u rest hr hq hu => ⟨fun e h => routeEyelet_keep hr hq hu h, fun e v h hj hd =>
      routeEyelet_out hr hq hu hj hd, fun h => routeEyelet_wait hr hq hu h⟩⟩
  · change execServiceHeaderRoute 16 vc s = _
    unfold execServiceHeaderRoute
    rw [h]
    rfl
  · change execServiceHeaderRoute 16 vc s = _
    unfold execServiceHeaderRoute
    rw [h]
    rfl
  · change execServiceHeaderRoute 17 vc s = _
    unfold execServiceHeaderRoute
    rw [h]
    rfl
  · refine ⟨fun hb => ⟨_, event_recorded _ _ _, routeWhole_malformed 16 cls (judgeHeader_malformed 16 1 hb)⟩,
      fun hb hr hd => routeWhole_keep 16 cls (judgeHeader_replyHere 16 1 hb hr hd),
      fun hb hr hn => ⟨_, event_recorded _ _ _, routeWhole_unroutable 16 cls (judgeHeader_unloaded 16 1 hb hr hn)⟩,
      fun b hb hr hk hm hs hv => ?_⟩
    have o : OrderedRequest s b p.hdr := ⟨hb, hr, hk, hm, hs, hv⟩
    exact ⟨fun hp => ⟨_, event_recorded _ _ _, routeWhole_unroutable 16 cls (o.outside 16 1 hp)⟩,
      fun hp hd => routeWhole_keep 16 cls (o.here 16 1 hp hd), fun hp hd => routeWhole_out 16 cls (o.leaves hp hd)⟩
  · change execServiceHeaderRoute k vc s = _
    rw [execServiceHeaderRoute, if_pos hk]

end Sys2Proof.Proofs

/-! ## Requests performed here, replies and timeouts -/
namespace Sys2Proof.Proofs
open Sys2Proof.Machine Sys2Proof.Safety

/-- The state without packet `x`, which stood first in its queue here. -/
def tookHere (s : State) (x : LocalPkt) : State :=
  moved { s with svc := { s.svc with here := s.svc.here.erase x } } 16 (bit01 (hSpread x.pkt.hdr))

theorem takeHere_first {s : State} {k vc : Nat} {x : LocalPkt}
    (h : s.svc.here.find? (fun p => decide (p.ingress = k ∧ p.vc = vc)) = some x) :
    takeHere s k vc (hOp x.pkt.hdr) = some (x.pkt, tookHere s x) := by
  unfold takeHere
  rw [h]
  exact if_pos rfl

/-! ### WRITE, READ and TACK_ADD -/

theorem write_exec {s t : State} {k vc : Nat} {p : Pkt} (h : takeHere s k vc 0x01 = some (p, t)) (hs : hSkive p.hdr = false)
    (hl : p.data.length = hLength p.hdr) : exec (.write k vc) s = .next (if requestWaits s p.hdr p.data.length then s else
      let r := performWrite t (hSrc p.hdr) (hTarget p.hdr) (hTile p.hdr) (hJobTag p.hdr) (hAddr p.hdr) p.data
      sendReply r.1 p.hdr r.2.1 r.2.2 0 (ownMask s p.hdr) false []) := by
  change execWrite k vc s = _
  unfold execWrite
  rw [h]
  dsimp only
  rw [hs, if_neg (not_not.mpr hl)]
  rfl

theorem read_exec {s t : State} {k vc : Nat} {p : Pkt} (h : takeHere s k vc 0x02 = some (p, t)) (hs : hSkive p.hdr = false) :
    exec (.read k vc) s = .next (if requestWaits s p.hdr (hLength p.hdr) then s else
      let r := performRead t (hTarget p.hdr) (hTile p.hdr) (hJobTag p.hdr) (hAddr p.hdr) (hLength p.hdr)
      sendReply r.1 p.hdr r.2.1 r.2.2.1 0 0 false r.2.2.2) := by
  change execRead k vc s = _
  unfold execRead
  rw [h]
  dsimp only
  rw [hs]
  rfl

theorem tackAdd_exec {s t : State} {k vc : Nat} {p : Pkt} (h : takeHere s k vc 0x03 = some (p, t)) (hl : hLength p.hdr = 0) :
    exec (.tackAdd k vc) s = .next (let r := performTack t (hTarget p.hdr) (hAddr p.hdr) (leAt p.hdr 28 4)
      sendReply r.1 p.hdr r.2.1 r.2.2.1 r.2.2.2 (ownMask s p.hdr) false []) := by
  change execTackAdd k vc s = _
  unfold execTackAdd
  rw [h]
  dsimp only
  rw [if_neg (not_not.mpr hl)]

/-! ### What each place makes of a request -/

theorem resolve_insole {s : State} {tile a n : Nat} (tag : Nat) (ht : tileEnabled s tile = true) (ha : a < 2 ^ 24)
    (hn : a + n ≤ 2 ^ 24) : resolve s 1 tile tag a n = some (.insole tile a) :=
  if_pos ⟨ht, ha, hn⟩

theorem resolve_hbm {s : State} {a n : Nat} (tile tag : Nat) (h : a + n ≤ 0x2400000000) :
    resolve s 3 tile tag a n = some (.hbm a) :=
  if_pos h

theorem resolve_noHbm {s : State} {a n : Nat} (tile tag : Nat) (h : 0x2400000000 < a + n) :
    resolve s 3 tile tag a n = none :=
  if_neg (Nat.not_le.mpr h)

theorem performWrite_insole {s : State} {tile a : Nat} {data : List Byte} (src : Nat) (hj : s.job = none)
    (ht : tileEnabled s tile = true) (ha : a < 2 ^ 24) (hn : a + data.length ≤ 2 ^ 24) :
    performWrite s src 1 tile 0 a data = (insoleWrite s tile a data, 0x00, 0) := by
  have hit : weightHit s tile a data.length = none := by
    unfold weightHit
    rw [hj]
  unfold performWrite
  rw [resolve_insole 0 ht ha hn]
  dsimp only
  rw [hit]
  rfl

theorem performWrite_hbm {s : State} {a : Nat} {data : List Byte} (src tag tile : Nat) (h : a + data.length ≤ 0x2400000000) :
    performWrite s src 3 tile tag a data = (hbmWrite s a data, 0x00, 0) := by
  unfold performWrite
  rw [resolve_hbm tile tag h]
  rfl

theorem performWrite_noHbm {s : State} {a : Nat} {data : List Byte} (src tag tile : Nat)
    (h : 0x2400000000 < a + data.length) : performWrite s src 3 tile tag a data = (s, 0x12, 0) := by
  unfold performWrite
  rw [resolve_noHbm tile tag h]
  rfl

theorem performRead_hbm {s : State} {a n : Nat} (tag tile : Nat) (h : a + n ≤ 0x2400000000) (hb : hbmBadIn s a n = none) :
    performRead s 3 tile tag a n = (s, 0x00, 0, hbmRead s a n) := by
  unfold performRead
  rw [resolve_hbm tile tag h]
  dsimp only
  rw [hb]
  rfl

theorem performRead_badHbm {s : State} {a n w : Nat} (tag tile : Nat) (h : a + n ≤ 0x2400000000)
    (hb : hbmBadIn s a n = some w) : performRead s 3 tile tag a n = (hbmUncorrected s (32 * w), 0x7F, 0x06, []) := by
  unfold performRead
  rw [resolve_hbm tile tag h]
  dsimp only
  rw [hb]
  rfl

theorem performTack_known {s : State} {t : Nat} (addend : Nat) (h : t < 131072) : performTack s 4 t addend =
    (tackAdd s t (BitVec.ofNat 32 addend), 0x00, 0, (tackGet s t).toNat) := by
  have hr : resolve s 4 0 0 t 0 = some (.tack t) := if_pos ⟨h, rfl⟩
  unfold performTack
  rw [hr]
  rfl

theorem performTack_unknown {s : State} {t : Nat} (addend : Nat) (h : 131072 ≤ t) :
    performTack s 4 t addend = (s, 0x12, 0, 0) := by
  have hr : resolve s 4 0 0 t 0 = none := if_neg fun hn => Nat.not_lt.mpr h hn.1
  unfold performTack
  rw [hr]
  rfl

/-- Settles O47. Sub-code 0 of BAD_ADDRESS under R261 is log entry 78. -/
theorem requestsPerformed : Obligations.RequestsPerformed := by
  refine ⟨fun s k vc x h => ?_, fun s src tile a data hj ht hn ha => performWrite_insole src hj ht ha hn,
    fun s src tag tile a data h => performWrite_hbm src tag tile h,
    fun s src tag tile a data h => performWrite_noHbm src tag tile h,
    fun s tag tile a n h => ⟨performRead_hbm tag tile h, fun w => performRead_badHbm tag tile h⟩,
    fun s t addend h => performTack_known addend h, fun s t addend h => performTack_unknown addend h⟩
  have htake := takeHere_first h
  refine ⟨fun hop hs hl => ?_, fun hop hs => ?_, fun hop hl => ?_⟩
  · rw [hop] at htake
    rw [write_exec htake hs hl, hl]
    exact ⟨fun hw => congrArg _ (if_pos hw), fun hw => congrArg _ (if_neg (Bool.not_eq_true _ ▸ hw))⟩
  · rw [hop] at htake
    rw [read_exec htake hs]
    exact ⟨fun hw => congrArg _ (if_pos hw), fun hw => congrArg _ (if_neg (Bool.not_eq_true _ ▸ hw))⟩
  · rw [hop] at htake
    exact tackAdd_exec htake hl

/-! ### Replies -/

/-- The reply command of an opcode. -/
def replyOf (k vc op : Nat) : Instr :=
  if op = 0x81 then Instr.writeDone k vc else if op = 0x82 then .readData k vc else .tackDone k vc

theorem reply_exec {s t : State} {k vc op : Nat} {p : Pkt} (hop : op = 0x81 ∨ op = 0x82 ∨ op = 0x83)
    (h : takeHere s k vc op = some (p, t)) : exec (replyOf k vc op) s = .next (takeReply t op p) := by
  rcases hop with rfl | rfl | rfl
  · change execWriteDone k vc s = _
    rw [execWriteDone, h]
  · change execReadData k vc s = _
    rw [execReadData, h]
  · change execTackDone k vc s = _
    rw [execTackDone, h]

theorem takeReply_unknown {t : State} {op : Nat} {p : Pkt}
    (h : t.svc.txns.find? (fun y => decide (y.id = hTxn p.hdr)) = none) : takeReply t op p = event t 0x2340 [] := by
  unfold takeReply
  dsimp only
  rw [h]

/-- The reply to a unicast transaction answers all that waits and ends it. -/
theorem takeReply_ends {t : State} {op : Nat} {p : Pkt} {y : Txn}
    (h : t.svc.txns.find? (fun y => decide (y.id = hTxn p.hdr)) = some y) (hop : op = 0x82 ↔ y.read = true)
    (hm : y.mcast = false) (hs : hSkive p.hdr = false) : takeReply t op p = endTxn t { y with
      waiting := []
      answers := y.answers ++ y.waiting.map (fun l => (l, leAt p.hdr 24 1, leAt p.hdr 25 1))
      unsure := if leAt p.hdr 24 1 = 0x22 ∧ leAt p.hdr 25 1 = 1 then y.unsure ++ y.waiting else y.unsure
      arg := leAt p.hdr 28 4
      data := p.data } := by
  have hdata : replyData p = some p.data := by rw [replyData, hs, if_neg Bool.false_ne_true]
  have hans : answersTxn y op = true := decide_eq_true (propext hop)
  have hwait : y.waiting.filter (fun l => !y.waiting.contains l) = [] := by simp
  unfold takeReply
  dsimp only
  rw [h]
  dsimp only
  rw [hans, hdata, hm, if_neg (by simp), if_neg Bool.false_ne_true, hwait]
  rfl

/-! ### Timeouts -/

theorem completionTimeout_exec {s : State} {y : Txn} (h : s.svc.txns.find? (fun t => decide (t.id = y.id)) = some y) :
    let z := { y with waiting := [], answers := y.answers ++ y.waiting.map (fun l => (l, 0x22, 0x03)) }
    exec (.completionTimeout y.id) s = .next (endTxnAs { s with svc := { s.svc with
      timedOut := s.svc.timedOut.filter (fun x => decide (s.now < x.2 + 2 * s.regs.complTimeout * msTicks))
        ++ [(y.id, s.now)] } } z { txnEnd z with status := 0x22, sub := 0x03 }) := by
  intro z
  change execCompletionTimeout y.id s = _
  unfold execCompletionTimeout
  rw [h]
  rfl

theorem completionTimeout_unknown {s : State} {id : Nat} (h : s.svc.txns.find? (fun t => decide (t.id = id)) = none) :
    exec (.completionTimeout id) s = .next s := by
  change execCompletionTimeout id s = _
  rw [execCompletionTimeout, h]

/-! ### What a transaction comes to -/

theorem mem_insertAnswer (a b : Nat × Nat × Nat) (xs : List (Nat × Nat × Nat)) :
    b ∈ insertAnswer a xs ↔ b = a ∨ b ∈ xs := by
  induction xs with
  | nil => simp [insertAnswer]
  | cons x xs ih =>
    rw [insertAnswer]
    split
    · rw [List.mem_cons]
    · rw [List.mem_cons, ih, List.mem_cons]
      exact or_left_comm

theorem mem_foldr_insertAnswer (b : Nat × Nat × Nat) (xs : List (Nat × Nat × Nat)) :
    b ∈ xs.foldr insertAnswer [] ↔ b ∈ xs := by
  induction xs with
  | nil => rfl
  | cons x xs ih => rw [List.foldr_cons, mem_insertAnswer, ih, List.mem_cons]

theorem mem_notDone (t : Txn) (a : Nat × Nat × Nat) : a ∈ notDone t ↔ a ∈ t.answers ∧ a.2.1 ≠ 0x00 := by
  rw [notDone, mem_foldr_insertAnswer, List.mem_filter, decide_eq_true_iff]
  rfl

theorem txnEnd_done {t : Txn} (h : notDone t = []) :
    txnEnd t = { status := 0x00, sub := 0, arg := t.arg, data := t.data, undelivered := [], unsure := [] } := by
  rw [txnEnd, h]
  rfl

theorem txnEnd_failed {t : Txn} {a : Nat × Nat × Nat} {rest : List (Nat × Nat × Nat)} (h : notDone t = a :: rest) :
    txnEnd t = {
      status := if t.mcast then 0x21 else a.2.1
      sub := a.2.2
      arg := t.arg
      data := t.data
      undelivered := (a :: rest).map (·.1)
      unsure := t.unsure } := by
  rw [txnEnd, h]
  rfl

/-- A multicast with an answer that is not DONE: PARTIAL_MULTICAST, and exactly the destinations of such answers. -/
theorem txnEnd_partial {t : Txn} (hm : t.mcast = true) (h : ∃ a ∈ t.answers, a.2.1 ≠ 0x00) :
    (txnEnd t).status = 0x21 ∧ ∀ l, l ∈ (txnEnd t).undelivered ↔ ∃ st sub, (l, st, sub) ∈ t.answers ∧ st ≠ 0x00 := by
  cases hn : notDone t with
  | nil =>
    obtain ⟨a, ha⟩ := h
    exact absurd ((mem_notDone t a).mpr ha) (by simp [hn])
  | cons a rest =>
    rw [txnEnd_failed hn]
    refine ⟨by rw [hm, if_pos rfl], fun l => ?_⟩
    rw [← hn]
    simp [mem_notDone]

/-- Settles O48. A multicast that times out ends with SERVICE_FLUSHED: log entry 74. -/
theorem repliesAndTimeouts : Obligations.RepliesAndTimeouts := by
  refine ⟨fun s k vc x op hop h hx => ?_, fun s y h => completionTimeout_exec h, fun s id h => completionTimeout_unknown h,
    fun s tack => rfl, fun t l st sub hm ha => ⟨fun hst => ?_, fun hst => ?_⟩, fun t hm h => txnEnd_partial hm h⟩
  · have htake := takeHere_first h
    rw [hx] at htake
    exact ⟨fun hn => ⟨_, (reply_exec hop htake).trans (congrArg _ (takeReply_unknown hn)), event_recorded _ _ _⟩,
      fun y hy hread hm hs => (reply_exec hop htake).trans (congrArg _ (takeReply_ends hy hread hm hs))⟩
  · have hn : notDone t = [] := by simp [notDone, ha, hst, stDone]
    rw [txnEnd_done hn]
    exact ⟨rfl, rfl⟩
  · have hn : notDone t = [(l, st, sub)] := by simp [notDone, ha, hst, stDone, insertAnswer]
    rw [txnEnd_failed hn, hm]
    exact ⟨rfl, rfl⟩

end Sys2Proof.Proofs

/-! ## Insertion, boot and the power of the chips -/
namespace Sys2Proof.Proofs
open Sys2Proof.Machine Sys2Proof.Safety

/-! ### A power stop's commit outlives the flush and the removal of a chip -/

theorem sledEvent_commitAt (s : State) (code : Nat) (slots : List Nat) :
    (sledEvent s code slots).cob.commitAt = s.cob.commitAt := by
  obtain ⟨_, _, _, _, _, _, h⟩ := sledEvent_eq s code slots
  rw [h]

theorem countFlash_commitAt (s : State) (n : Nat) : (countFlash s n).cob.commitAt = s.cob.commitAt := by
  unfold countFlash
  dsimp only
  split
  · rw [sledEvent_commitAt]
  · rfl

theorem writeRecord_commitAt (s : State) (kind : Nat) : (writeRecord s kind).cob.commitAt = s.cob.commitAt := by
  unfold writeRecord
  dsimp only
  split
  · rfl
  · rw [countFlash_commitAt]

theorem foldl_writeRecord_commitAt (kinds : List Nat) (s : State) :
    (kinds.foldl writeRecord s).cob.commitAt = s.cob.commitAt := by
  induction kinds generalizing s with
  | nil => rfl
  | cons k ks ih => rw [List.foldl_cons, ih, writeRecord_commitAt]

theorem writeRecords_commitAt (s : State) : (writeRecords s).cob.commitAt = s.cob.commitAt := by
  rw [writeRecords, foldl_writeRecord_commitAt]

theorem flushChip_commitAt (s : State) : (flushChip s).cob.commitAt = s.cob.commitAt := by
  unfold flushChip
  rw [← writeRecords_commitAt s]
  generalize writeRecords s = v
  dsimp only
  split
  · rw [sledEvent_commitAt, countFlash_commitAt]
  · rw [countFlash_commitAt]

theorem powerOff_commitAt (s : State) (p : Nat) : (powerOff s p).cob.commitAt = s.cob.commitAt := by
  unfold powerOff
  split
  · rfl
  · dsimp only
    split <;> rfl

/-! ### Insertion and boot -/

theorem moveValves_moves {s : State} {b : Bool} (h : s.cob.valvesOpen ≠ b) :
    moveValves s b = { s with cob := { s.cob with valvesOpen := b }, mon := { s.mon with quiet := true } } := by
  rw [moveValves, if_neg h]

/-- The state once the Cobbler has booted and announced itself. -/
def cobblerBooted (s : State) : State := { s with
  cob := { s.cob with booted := true, restarting := false }
  apbelOut := s.apbelOut ++ [(.allNodes, apbelMsg 0x42 false 0 0 (padTo 16 s.cob.serial))] }

theorem cobblerBoot_exec {s : State} (h1 : s.cob.seated = true) (h2 : s.cob.precharged = true) (h3 : s.cob.vaux = true)
    (h4 : s.cob.booted = false) : exec .cobblerBoot s = .next (if s.cob.leakLatched then cobblerBooted s
      else { moveValves (cobblerBooted s) true with
        cob := { (moveValves (cobblerBooted s) true).cob with checking := true } }) := by
  change execCobblerBoot s = _
  rw [execCobblerBoot, if_pos (by simp [h1, h2, h3, h4])]
  rfl

/-- The state once the flow and leak check has ended. -/
def checked (s : State) : State := { s with cob := { s.cob with checking := false } }

theorem flowLeakCheckEnd_exec {s : State} (ok : Bool) (h : s.cob.checking = true) : exec (.flowLeakCheckEnd ok) s =
    .next (if !ok then moveValves (checked s) false else if s.cob.latched then checked s
      else if s.cob.cell.ready then positions.foldl powerOn (checked s)
      else { checked s with cob := { (checked s).cob with powerWhenReady := true } }) := by
  change execFlowLeakCheckEnd ok s = _
  rw [execFlowLeakCheckEnd, if_pos h]
  rfl

/-! ### Rails and the removal of power -/

theorem railGood_next {s : State} {p : Nat} (h : (chipAt s p).starting = true) (hr : (chipAt s p).rail < 6) :
    exec (.railGood p) s = .next { s with cob := { s.cob with
      chips := setAt s.cob.chips p { chipAt s p with rail := (chipAt s p).rail + 1 } } } := by
  change execRailGood p s = _
  unfold execRailGood
  dsimp only
  rw [h, if_neg (by decide), if_pos (by omega)]

/-- The state once the last rail and the reference of position `p` are up. -/
def railsUp (s : State) (p : Nat) : State := { s with
  cob := { s.cob with chips := setAt s.cob.chips p { rail := 8, starting := false, stopAt := none } }
  dev := { s.dev with state := if p = s.position then .cold else s.dev.state } }

theorem railGood_last {s : State} {p : Nat} (h : (chipAt s p).starting = true) (hr : 6 ≤ (chipAt s p).rail) :
    exec (.railGood p) s = .next (sendInForce (railsUp s p) p) := by
  change execRailGood p s = _
  unfold execRailGood railsUp
  dsimp only
  rw [h, if_neg (by decide), if_neg (by omega)]
  by_cases hp : p = s.position
  · rw [if_pos hp, if_pos hp]
  · rw [if_neg hp, if_neg hp]

theorem railFault_exec {s : State} {p rail : Nat} (h : (chipAt s p).starting = true ∨ (chipAt s p).rail = 8) (h2 : 2 ≤ rail)
    (h7 : rail ≤ 7) : exec (.railFault p rail) s = .next (sledEvent (powerOff s p) 0x6010 [p, rail]) := by
  change execRailFault p rail s = _
  unfold execRailFault
  dsimp only
  rw [if_pos]
  simpa [chipOn, h2, h7] using h

/-- The state without the power of position `p`, its logs flushed where the modelled chip reported. -/
def removed (s : State) (p : Nat) (reported : Bool) : State :=
  powerOff (if reported = true ∧ p = s.position then flushChip s else s) p

theorem removed_commitAt (s : State) (p : Nat) (reported : Bool) : (removed s p reported).cob.commitAt = s.cob.commitAt := by
  rw [removed, powerOff_commitAt]
  split
  · exact flushChip_commitAt s
  · rfl

theorem powerRemoval_early {s : State} {p t0 : Nat} (h : (chipAt s p).stopAt = some t0) (hn : s.now < t0 + 240 * msTicks) :
    exec (.powerRemoval p false) s = .next s := by
  change execPowerRemoval p false s = _
  unfold execPowerRemoval
  rw [h]
  exact congrArg Host.Outcome.next (if_neg (by simpa using hn))

theorem powerRemoval_due {s : State} {p t0 : Nat} {reported : Bool} (h : (chipAt s p).stopAt = some t0)
    (hn : reported = true ∨ t0 + 240 * msTicks ≤ s.now) (hc : s.cob.commitAt = none) :
    exec (.powerRemoval p reported) s = .next (removed s p reported) := by
  change execPowerRemoval p reported s = _
  unfold execPowerRemoval
  rw [h]
  dsimp only
  rw [if_pos (by simpa using hn)]
  rw [← removed_commitAt s p reported, removed] at hc
  rw [hc, removed]

/-- During a commit it is noted whether the chip of position `p` reported. -/
def noteStopped (u : State) (p : Nat) (reported : Bool) : State :=
  { u with cob := { u.cob with stopped := u.cob.stopped + bit01 reported * 2 ^ p } }

theorem powerRemoval_commit {s u : State} {p t0 t1 : Nat} {reported : Bool} (hu : removed s p reported = u)
    (h : (chipAt s p).stopAt = some t0) (hn : reported = true ∨ t0 + 240 * msTicks ≤ s.now)
    (hc : s.cob.commitAt = some t1) :
    let v := noteStopped u p reported
    exec (.powerRemoval p reported) s = .next (if poweredMask v = 0 then
      sledEvent { v with cob := { v.cob with commitAt := none } } 0x6004 [(v.now - t1) / 16000, v.cob.stopped] else v) := by
  rw [← removed_commitAt s p reported, hu] at hc
  unfold removed at hu
  change execPowerRemoval p reported s = _
  unfold execPowerRemoval
  rw [h]
  dsimp only
  rw [if_pos (by simpa using hn), hu]
  split
  · next hnone => exact absurd (hnone.symm.trans hc) nofun
  · next t hsome =>
    obtain rfl := Option.some.inj (hsome.symm.trans hc)
    rfl

/-! ### Restart, power on and power off -/

theorem sledRestart_exec {s : State} (h1 : s.cob.latched = true) (h2 : poweredMask s = 0) (h3 : s.cob.seated = true)
    (h4 : s.cob.cell.present = true) (h5 : 4800 ≤ s.cob.cell.volts) :
    let u := { s with cob := { s.cob with
      latched := false, onCell := false, mainPresent := true, commitAt := none, powerWhenReady := false
      cell := { s.cob.cell with charging := toCharge s.cob.cell } } }
    exec .sledRestart s = .next (if s.cob.leakLatched || s.cob.checking then u else positions.foldl powerOn u) := by
  intro u
  change execSledRestart s = _
  rw [execSledRestart, if_pos (by simp [h1, h2, h3, h4, h5])]

theorem toCharge_present {c : Cell} (h : c.present = true) : toCharge c = (!c.isolated && decide (c.volts < 5000)) := by
  rw [toCharge, h, Bool.true_and]

theorem powerOn_starts {s : State} {p : Nat} (h : chipOn s p = false) : powerOn s p = { s with cob := { s.cob with
    chips := mapAt s.cob.chips p (fun c => { c with starting := true }) } } := by
  rw [powerOn, h, if_neg Bool.false_ne_true]

theorem powerOff_powered {s : State} {p : Nat} (h : (chipAt s p).rail = 8) :
    let u := { s with cob := { s.cob with
      chips := setAt s.cob.chips p { rail := 1, starting := false, stopAt := none }
      released := setAt s.cob.released p 0
      coords := setAt s.cob.coords p none
      sentCaps := setAt s.cob.sentCaps p (900, 32) } }
    powerOff s p = if p = s.position then chipOff u else u := by
  intro u
  rw [powerOff, if_neg (by rw [h]; omega)]

/-- Settles O49. The caps and HOLD sent with the last rail are log entry 87; starts that end or wait on a check or a broken
contact are log entry 88. -/
theorem sledPower : Obligations.SledPower := by
  refine ⟨fun s h => ?_, fun s h => ?_, fun s h1 h2 h3 h4 => ⟨fun hl => ?_, fun hl hv => ?_⟩,
    fun s h => ⟨fun hv => ?_, fun hl => ?_, fun hl hr => ?_, fun hl hr => ?_⟩,
    fun s p h => ⟨railGood_next h, fun hr => ⟨railsUp s p, railGood_last h hr, rfl, rfl⟩⟩,
    fun s p rail h h2 h7 => ⟨_, railFault_exec h h2 h7, sledEvent_recorded _ _ _⟩,
    fun s p t0 reported h => ⟨fun hr hn => ?_, powerRemoval_due h, fun t1 hn hc => ⟨fun hv => ?_, fun hv => ?_⟩⟩,
    fun s h1 h2 h3 h4 h5 => ?_, fun s p => powerOn_starts, fun s p => powerOff_powered,
    fun s => ⟨rfl, rfl, rfl, rfl, rfl, rfl, rfl, rfl, rfl⟩⟩
  · change execSledInsertion s = _
    rw [execSledInsertion, h]
    rfl
  · change execPresenceBreak s = _
    rw [execPresenceBreak, if_pos h]
  · exact (cobblerBoot_exec h1 h2 h3 h4).trans (congrArg _ (if_pos hl))
  · rw [cobblerBoot_exec h1 h2 h3 h4, hl, if_neg Bool.false_ne_true, moveValves_moves (s := cobblerBooted s) (hv.trans_ne (by decide))]
    rfl
  · exact (flowLeakCheckEnd_exec false h).trans (congrArg _ (moveValves_moves (s := checked s) (hv.trans_ne (by decide))))
  · exact (flowLeakCheckEnd_exec true h).trans (congrArg _ (if_pos hl))
  · rw [flowLeakCheckEnd_exec true h, hl, hr]
    rfl
  · rw [flowLeakCheckEnd_exec true h, hl, hr]
    rfl
  · rw [hr]
    exact powerRemoval_early h hn
  · exact (powerRemoval_commit rfl h hn hc).trans (congrArg _ (if_neg hv))
  · exact ⟨_, (powerRemoval_commit rfl h hn hc).trans (congrArg _ (if_pos hv)), sledEvent_recorded _ _ _⟩
  · rw [sledRestart_exec h1 h2 h3 h4 h5, toCharge_present h4]

end Sys2Proof.Proofs

/-! ## The hold-up cell -/
namespace Sys2Proof.Proofs
open Sys2Proof.Machine Sys2Proof.Safety

/-! ### Main power -/

/-- The state once main power is lost at `v`. -/
def unpowered (s : State) (v : Nat) : State := { s with cob := { s.cob with mainPresent := false, mainVolts := v } }

theorem mainLost_exec {s : State} (v : Nat) (h : s.cob.mainPresent = true) : exec (.mainLost v) s =
    .next (if s.cob.cell.present && !s.cob.cell.isolated && decide (4550 ≤ s.cob.cell.volts) then
      sledEvent { unpowered s v with cob := { (unpowered s v).cob with onCell := true, rideFrom := s.now } } 0x6001 [v]
    else positions.foldl powerOff (sledEvent { unpowered s v with cob := { (unpowered s v).cob with latched := true } } 0x6003
      [if s.cob.cell.present then s.cob.cell.volts else 0, 1])) := by
  change execMainLost v s = _
  rw [execMainLost, if_neg (by simp [h])]
  rfl

/-! ### Samples of the cell -/

/-- The state once the cell reads `v`. -/
def sampled (s : State) (v : Nat) : State := { s with cob := { s.cob with cell := { s.cob.cell with volts := v } } }

/-- A cell that is not ready, or still at V_start, allows the ride-through as before. -/
theorem noRide_same {s : State} {v : Nat} (h : s.cob.cell.ready = false ∨ 4800 ≤ v) : noRide (sampled s v) = sampled s v := by
  rw [noRide, if_neg]
  rw [Bool.and_eq_true, decide_eq_true_iff]
  rintro ⟨hr, hv⟩
  rcases h with h | h
  · exact Bool.false_ne_true (h.symm.trans hr)
  · exact absurd hv (Nat.not_lt.mpr h)

theorem cellSample_exec {s : State} {v : Nat} (us : Nat) (hp : s.cob.cell.present = true) (hi : s.cob.cell.isolated = false)
    (hr : s.cob.cell.ready = false ∨ 4800 ≤ v) : let u := sampled s v
    exec (.cellSample v us) s = .next (if !u.cob.onCell || u.cob.latched then u
      else if v ≤ 4550 then powerStopAll (sledEvent { u with cob := { u.cob with
        latched := true, commitAt := some u.now, stopped := 0 } } 0x6003 [v, 0])
      else if 5000 ≤ us then sendCaps (sledEvent { u with cob := { u.cob with
        onCell := false, mainPresent := true, cell := { u.cob.cell with charging := toCharge u.cob.cell } } } 0x6002
          [(u.now - u.cob.rideFrom) / 16000, v])
      else u) := by
  intro u
  change execCellSample v us s = _
  have hu : noRide { s with cob := { s.cob with cell := { s.cob.cell with volts := v } } } = u := noRide_same hr
  rw [execCellSample, if_neg (by simp [hp, hi])]
  dsimp only
  rw [hu]

theorem toCharge_inPlace {c : Cell} (hp : c.present = true) (hi : c.isolated = false) :
    toCharge c = decide (c.volts < 5000) := by
  rw [toCharge_present hp, hi]
  rfl

/-! ### The cell's readiness, charge, insertion and capacitance -/

theorem cellReady_exec {s : State} (hp : s.cob.cell.present = true) (hi : s.cob.cell.isolated = false)
    (hr : s.cob.cell.ready = false) : let t := sledEvent { s with cob := { s.cob with
      cell := { s.cob.cell with ready := true, volts := max s.cob.cell.volts 4800 } } } 0x6008 [max s.cob.cell.volts 4800]
    exec .cellReady s = .next (if t.cob.powerWhenReady && !keptOff t then
      positions.foldl powerOn { t with cob := { t.cob with powerWhenReady := false } } else t) := by
  intro t
  change execCellReady s = _
  rw [execCellReady]
  exact congrArg Host.Outcome.next (if_pos (by simp [hp, hi, hr]))

theorem cellInserted_exec {s : State} (v : Nat) (h : s.cob.cell.present = false ∨ s.cob.cell.isolated = true) :
    exec (.cellInserted v) s = .next (sendCaps (sledEvent { s with cob := { s.cob with cell :=
      { present := true, isolated := false, volts := v, farads := s.cob.cell.farads, ready := false, charging := true } } }
        0x6006 [v])) := by
  change execCellInserted v s = _
  rw [execCellInserted, if_neg (by rcases h with h | h <;> simp [h])]

theorem cellCapacitanceCheck_exec {s : State} (f : Nat) (hp : s.cob.cell.present = true) (hi : s.cob.cell.isolated = false) :
    let u := { s with cob := { s.cob with cell := { s.cob.cell with farads := f } } }
    exec (.cellCapacitanceCheck f) s = .next (if f < 320 then sledEvent u 0x6007 [f] else u) := by
  intro u
  change execCellCapacitanceCheck f s = _
  rw [execCellCapacitanceCheck, if_pos (by simp [hp, hi])]

/-- Settles O50. What MAIN_LOST leaves of the charging and what keeps CELL_READY from powering the chips: log entry 88. -/
theorem holdUpCell : Obligations.HoldUpCell := by
  refine ⟨fun s v h => ⟨fun hp hi hv => ?_, fun hp => ?_, fun hp hv => ?_⟩,
    fun s v us hp hi hr => ⟨fun hn => ?_, fun hc hl hv => ?_, fun hc hl hv hus => ?_, fun hc hl hv hus => ?_⟩,
    fun s hp hi hr => ⟨_, sledEvent_recorded _ _ _, cellReady_exec hp hi hr⟩, fun s h => ?_,
    fun s v h => ⟨_, cellInserted_exec v h, sledEvent_recorded _ _ _⟩, fun s f hp hi => ⟨fun hf => ?_, fun hf => ?_⟩,
    fun s => rfl⟩
  · exact ⟨_, (mainLost_exec v h).trans (congrArg _ (if_pos (by simp [hp, hi, hv]))), sledEvent_recorded _ _ _⟩
  · refine ⟨_, (mainLost_exec v h).trans (congrArg _ (if_neg (by simp [hp]))), ?_⟩
    rw [hp]
    exact sledEvent_recorded _ _ _
  · refine ⟨_, (mainLost_exec v h).trans (congrArg _ (if_neg (by simp [hp, hv]))), ?_⟩
    rw [hp]
    exact sledEvent_recorded _ _ _
  · exact (cellSample_exec us hp hi hr).trans (congrArg _ (if_pos (by simpa [sampled] using hn)))
  · refine ⟨_, (cellSample_exec us hp hi hr).trans (congrArg _ ((if_neg ?_).trans (if_pos hv))), sledEvent_recorded _ _ _⟩
    simp [sampled, hc, hl]
  · refine (cellSample_exec us hp hi hr).trans (congrArg _ ((if_neg ?_).trans ((if_neg (Nat.not_le.mpr hv)).trans
      (if_neg (Nat.not_le.mpr hus)))))
    simp [sampled, hc, hl]
  · refine ⟨_, (cellSample_exec us hp hi hr).trans (congrArg _ ((if_neg ?_).trans ((if_neg (Nat.not_le.mpr hv)).trans
      (if_pos hus)))), ?_⟩
    · simp [sampled, hc, hl]
    · rw [toCharge_inPlace (c := (sampled s v).cob.cell) hp hi]
      exact sledEvent_recorded _ _ _
  · change execCellFull s = _
    rw [execCellFull, if_pos h]
  · exact (cellCapacitanceCheck_exec f hp hi).trans (congrArg _ (if_neg (Nat.not_lt.mpr hf)))
  · exact ⟨_, (cellCapacitanceCheck_exec f hp hi).trans (congrArg _ (if_pos hf)), sledEvent_recorded _ _ _⟩

end Sys2Proof.Proofs

/-! ## Coolant, leaks and the Cobbler's own messages -/
namespace Sys2Proof.Proofs
open Sys2Proof.Machine Sys2Proof.Safety

/-! ### Coolant conditions -/

theorem coolantCondition_exec {s : State} {c : Nat} (hh : conditionHolds s c = true) (hf : s.cob.conditions.contains c = false) :
    let t := { s with cob := { s.cob with conditions := s.cob.conditions ++ [c] } }
    exec (.coolantCondition c) s = .next (
      let t' := if c ≤ 2 then sledEvent t 0x6020 [slotOf s.cob.inlet, slotOf s.cob.outlet]
        else if c ≤ 4 then sledEvent t 0x6021 [s.cob.flow] else t
      if c = 5 then powerStopAll t' else sendHolds s (sendCaps t')) := by
  intro t
  change execCoolantCondition c s = _
  rw [execCoolantCondition, inForce, hh, hf]
  rfl

theorem coolantCondition_event {s : State} {c : Nat} (h4 : c ≤ 4) (hh : conditionHolds s c = true)
    (hf : s.cob.conditions.contains c = false) : exec (.coolantCondition c) s = .next (sendHolds s (sendCaps
      (sledEvent { s with cob := { s.cob with conditions := s.cob.conditions ++ [c] } } (if c ≤ 2 then 0x6020 else 0x6021)
        (if c ≤ 2 then [slotOf s.cob.inlet, slotOf s.cob.outlet] else [s.cob.flow])))) := by
  rw [coolantCondition_exec hh hf]
  dsimp only
  rw [if_neg (by omega : ¬c = 5)]
  by_cases h2 : c ≤ 2
  · rw [if_pos h2, if_pos h2, if_pos h2]
  · rw [if_neg h2, if_neg h2, if_neg h2, if_pos h4]

theorem coolantCondition_absent {s : State} {c : Nat} (hh : conditionHolds s c = false) :
    exec (.coolantCondition c) s = .next s := by
  change execCoolantCondition c s = _
  rw [execCoolantCondition, hh]
  rfl

theorem coolantConditionClear_exec {s : State} {c : Nat} (hf : s.cob.conditions.contains c = true)
    (hh : conditionHolds s c = false) : exec (.coolantConditionClear c) s = .next (sendHolds s (sendCaps
      { s with cob := { s.cob with conditions := s.cob.conditions.filter (fun x => decide (x ≠ c)) } })) := by
  change execCoolantConditionClear c s = _
  rw [execCoolantConditionClear, inForce, hh, hf]
  rfl

theorem leak_exec {s : State} {z : Nat} (h : z % 4 ≠ 0) : exec (.leak z) s = .next (positions.foldl powerStopChip
    (sledEvent { s with
      cob := { s.cob with
        wet := z % 4, valvesOpen := false, leakLatched := true, checking := false, powerWhenReady := false }
      mon := { s.mon with quiet := true } } 0x6023 [z % 4, 0])) := by
  change execLeak z s = _
  rw [execLeak, if_neg h]
  rfl

/-- Settles O51. That a leak also ends a check and a start that waits for the cell is log entry 88. -/
theorem coolantAndLeaks : Obligations.CoolantAndLeaks := by
  refine ⟨fun s i o f w => rfl,
    fun s c _ h4 hh hf => ⟨_, sledEvent_recorded _ _ _, coolantCondition_event h4 hh hf⟩,
    fun s hh hf => coolantCondition_exec hh hf, fun s c hh => coolantCondition_absent hh,
    fun s c hf hh => coolantConditionClear_exec hf hh,
    fun s => ⟨decide_eq_true_iff, decide_eq_true_iff, decide_eq_true_iff, decide_eq_true_iff⟩,
    fun s z h => ⟨_, leak_exec h, sledEvent_recorded _ _ _⟩, fun s p => rfl⟩

/-! ### The Cobbler's own messages -/

/-- The message of a held event. -/
def eventMsg (e : SledEvent) : ApbelDest × List Byte := (.manager, apbelMsg 0x40 false 0 e.seq e.entry)

theorem foldl_sendApbel (es : List SledEvent) (s : State) :
    es.foldl (fun s e => sendApbel s .manager (apbelMsg 0x40 false 0 e.seq e.entry)) s =
      { s with apbelOut := s.apbelOut ++ es.map eventMsg } := by
  induction es generalizing s with
  | nil => rw [List.foldl_nil, List.map_nil, List.append_nil]
  | cons e es ih => rw [List.foldl_cons, ih, List.map_cons, List.append_cons]; rfl

theorem fwRollback_exec {s : State} {t0 : Nat} (h : s.cob.newFrom = some t0) : exec .fwRollback s =
    .next (sledEvent { s with cob := { s.cob with running := 1 - s.cob.running, newFrom := none, restarting := true } } 0x6031
      [1 - s.cob.running, s.cob.versions.getD (1 - s.cob.running) 0]) := by
  change execFwRollback s = _
  rw [execFwRollback, h]
  rfl

theorem cobblerRestartComplete_exec {s : State} (ok : Bool) (h : s.cob.restarting = true) :
    let u := { s with cob := { s.cob with restarting := false, newFrom := if ok then none else s.cob.newFrom } }
    exec (.cobblerRestartComplete ok) s = .next (if s.cob.identified then { u with
        cob := { u.cob with events := s.cob.events.map (fun e => { e with sentAt := s.now }) }
        apbelOut := s.apbelOut ++ s.cob.events.map eventMsg } else u) := by
  intro u
  change execCobblerRestartComplete ok s = _
  rw [execCobblerRestartComplete, if_pos h]
  dsimp only
  rw [foldl_sendApbel]

theorem eventResend_exec {s : State} {seq : Nat} {e : SledEvent}
    (h : s.cob.events.find? (fun e => decide (e.seq = seq)) = some e) (ha : cobAnswers s = true)
    (hi : s.cob.identified = true) (ht : e.sentAt + 1000 * msTicks ≤ s.now) : exec (.eventResend seq) s = .next { s with
      cob := { s.cob with events := s.cob.events.map (fun x => if x.seq = seq then { x with sentAt := s.now } else x) }
      apbelOut := s.apbelOut ++ [(.manager, apbelMsg 0x40 false 0 seq e.entry)] } := by
  change execEventResend seq s = _
  unfold execEventResend
  rw [h]
  exact congrArg Host.Outcome.next (if_pos (by simp [ha, hi, ht]))

/-- Settles O52. -/
theorem cobblerMessages : Obligations.CobblerMessages := by
  refine ⟨fun s t0 h => ⟨_, fwRollback_exec h, sledEvent_recorded _ _ _⟩, fun s ok h => ⟨fun hi => ?_, fun hi => ?_⟩,
    fun s seq e h ha hi ht => eventResend_exec h ha hi ht, fun s ha hi => ?_, fun s src msg ha hm hl => ?_⟩
  · rw [cobblerRestartComplete_exec ok h, hi]
    rfl
  · rw [cobblerRestartComplete_exec ok h, hi]
    rfl
  · change execSledPresent s = _
    rw [execSledPresent, ha, hi]
    rfl
  · change execEventAck src msg s = _
    rw [execEventAck, ha, hm, hl]
    rfl

end Sys2Proof.Proofs

/-! ## Apbel requests: addresses, coordinates, eyelets and reports -/
namespace Sys2Proof.Proofs
open Sys2Proof.Machine Sys2Proof.Safety

section
variable {s t : State} {type : Nat} {msg : List Byte} {f : State → List Byte → Nat → Handled} (src : Nat)

theorem onRequest_answered {status : Nat} {body : List Byte} (h : Asked s type msg)
    (hf : f s (msg.drop 16) (leAt msg 8 4) = (t, some (status, body))) :
    (Host.Outcome.next (onRequest s src type msg f) : Host.Outcome State Fault Refusal) =
      .next (replied t src type msg status body) :=
  congrArg _ (onRequest_replied h hf src)

theorem onRequest_later (h : Asked s type msg) (hf : f s (msg.drop 16) (leAt msg 8 4) = (t, none)) :
    (Host.Outcome.next (onRequest s src type msg f) : Host.Outcome State Fault Refusal) = .next t := by
  rw [onRequest_asked h, hf]

end

/-! ### IDENTIFY and SENSORS -/

theorem padTo_length (n : Nat) (xs : List Byte) : (padTo n xs).length = n := by
  simp only [padTo, zeros, List.length_take, List.length_append, List.length_replicate]
  omega

/-- The body of the reply to IDENTIFY (Table 17.10). -/
def identity (s : State) : List Byte :=
  padTo 16 s.cob.serial ++ [byteOf s.cob.running] ++ s.cob.versions.flatMap (leBytes 4)
    ++ [byteOf (poweredMask s)] ++ positions.map (fun p => byteOf (reportedState s p))
    ++ [byteOf (bit01 s.cob.cell.present)] ++ leBytes 2 s.cob.cell.volts ++ [byteOf (bit01 (rideThrough s))]

theorem identity_take (s : State) : (identity s).take 17 = padTo 16 s.cob.serial ++ [byteOf s.cob.running] := by
  have hlen : (padTo 16 s.cob.serial ++ [byteOf s.cob.running]).length = 17 := by
    rw [List.length_append, padTo_length, List.length_singleton]
  have hpre : padTo 16 s.cob.serial ++ [byteOf s.cob.running] <+: identity s := by
    simp only [identity, List.append_assoc, List.prefix_append_right_inj]
    exact List.prefix_append _ _
  rw [← hlen]
  exact (List.prefix_iff_eq_take.mp hpre).symm

/-- The body of the reply to SENSORS (Table 17.10). -/
def sensed (s : State) : List Byte :=
  leBytes 2 (freshFree s 0) ++ leBytes 2 (freshFree s 1) ++ leBytes 2 s.cob.cell.volts
    ++ leBytes 2 (fieldOf 16 s.cob.inlet) ++ leBytes 2 (fieldOf 16 s.cob.outlet) ++ leBytes 2 s.cob.flow
    ++ [byteOf s.cob.wet] ++ positions.map (fun p => byteOf (chipAt s p).rail)

theorem sensed_middle (s : State) : ((sensed s).drop 4).take 8 = leBytes 2 s.cob.cell.volts
    ++ leBytes 2 (fieldOf 16 s.cob.inlet) ++ leBytes 2 (fieldOf 16 s.cob.outlet) ++ leBytes 2 s.cob.flow := by
  have hfree : (leBytes 2 (freshFree s 0) ++ leBytes 2 (freshFree s 1)).length = 4 := by simp [leBytes_length]
  have hlen : (leBytes 2 s.cob.cell.volts ++ leBytes 2 (fieldOf 16 s.cob.inlet) ++ leBytes 2 (fieldOf 16 s.cob.outlet)
    ++ leBytes 2 s.cob.flow).length = 8 := by simp [leBytes_length]
  have hsplit : sensed s = (leBytes 2 (freshFree s 0) ++ leBytes 2 (freshFree s 1)) ++ ((leBytes 2 s.cob.cell.volts
      ++ leBytes 2 (fieldOf 16 s.cob.inlet) ++ leBytes 2 (fieldOf 16 s.cob.outlet) ++ leBytes 2 s.cob.flow)
      ++ ([byteOf s.cob.wet] ++ positions.map (fun p => byteOf (chipAt s p).rail))) := by
    simp only [sensed, List.append_assoc]
  rw [hsplit, List.drop_left' hfree, List.take_left' hlen]

theorem lt_of_mem_positions {p : Nat} (h : p ∈ positions) : p < 4 := by
  revert p
  decide

/-- Settles O53. A release before the coordinate is kept and acts at SET_COORD: log entry 80. -/
theorem apbelAddressing : Obligations.ApbelAddressing := by
  refine ⟨fun s src msg h hb => ⟨identity s, onRequest_answered src h ?_, identity_take s⟩,
    fun s src msg h => ⟨fun hl => onRequest_answered src h (if_neg (not_not.mpr hl)),
      fun hl => onRequest_answered src h (if_pos hl)⟩,
    fun s src msg h hl => ?_, fun s src msg h hl => ?_,
    fun s src msg h hb => ⟨sensed s, onRequest_answered src h ?_, sensed_middle s⟩,
    fun s src msg h hl h1 h16 => onRequest_answered src h (if_neg (by simp [hl, h1, h16]))⟩
  · rw [hb]
    rfl
  · intro b shape hs hp
    have hrange : ¬(b.length ≠ 11 || !shapeOk shape
        || positions.any (fun p => !inShape shape (Coord.ofField (leAt b (2 * p) 2)))) = true := by
      have hin : positions.any (fun p => !inShape shape (Coord.ofField (leAt b (2 * p) 2))) = false :=
        List.any_eq_false.mpr fun p hmem => by rw [hp p (lt_of_mem_positions hmem)]; exact Bool.false_ne_true
      rw [hin, hs]
      simp [b, hl]
    exact ⟨fun hm => onRequest_answered src h ((if_neg hrange).trans (if_pos hm)),
      fun hm => onRequest_answered src h ((if_neg hrange).trans (if_neg (not_not.mpr hm)))⟩
  · intro b hm hd
    have hrange : ¬(b.length ≠ 5 || decide (15 < leAt b 0 1) || decide (leAt b 1 2 &&& leAt b 3 2 ≠ 0)) = true := by
      simp [b, hl, hm, hd]
    refine ⟨fun hn => onRequest_answered src h ((if_neg hrange).trans (if_pos hn)), fun hn => ?_⟩
    intro u v
    exact onRequest_answered src h ((if_neg hrange).trans (if_neg (ne_true_of_eq_false hn)))
  · rw [hb]
    rfl

end Sys2Proof.Proofs

/-! ## Apbel requests: caps, holds, wakes and power -/
namespace Sys2Proof.Proofs
open Sys2Proof.Machine Sys2Proof.Safety

section
variable {s : State} {src : Nat} {msg : List Byte}

/-! ### Caps, HOLD and power orders -/

/-- A request for power whose body is a CHIPS mask and a value `v`. -/
def ChipsBody (msg : List Byte) (v : Nat) : Prop :=
  (msg.drop 16).length = 2 ∧ leAt (msg.drop 16) 0 1 < 16 ∧ leAt (msg.drop 16) 1 1 = v

theorem ChipsBody.inRange {v : Nat} (h : ChipsBody msg v) : ¬((msg.drop 16).length ≠ 2 || !chipsOk (leAt (msg.drop 16) 0 1)
    || !decide (leAt (msg.drop 16) 1 1 = v)) = true := by
  obtain ⟨hl, hm, hv⟩ := h
  rw [chipsOk, decide_eq_true hm, decide_eq_true hv, decide_eq_false (not_not.mpr hl)]
  exact Bool.false_ne_true

theorem setCaps_accepted (h : Asked s 0x05 msg) (hl : (msg.drop 16).length = 4) (hm : leAt (msg.drop 16) 0 1 < 16)
    (hc : 150 ≤ leAt (msg.drop 16) 1 2 ∧ leAt (msg.drop 16) 1 2 ≤ 900 ∧ leAt (msg.drop 16) 3 1 ≤ 32) :
    let t := sendCaps { s with cob := { s.cob with setCaps := positions.map (fun p => if bitOf (leAt (msg.drop 16) 0 1) p
      then (leAt (msg.drop 16) 1 2, leAt (msg.drop 16) 3 1) else s.cob.setCaps.getD p (900, 32)) } }
    exec (.setCaps src msg) s = .next (replied t src 0x05 msg 0
      (positions.flatMap (fun p => leBytes 2 (effCaps t p).1 ++ [byteOf (effCaps t p).2]))) := by
  refine onRequest_answered src h (if_neg ?_)
  rw [chipsOk, decide_eq_true hm, decide_eq_true hc, decide_eq_false (not_not.mpr hl)]
  exact Bool.false_ne_true

theorem setCaps_outOfRange (h : Asked s 0x05 msg)
    (hc : leAt (msg.drop 16) 1 2 < 150 ∨ 900 < leAt (msg.drop 16) 1 2 ∨ 32 < leAt (msg.drop 16) 3 1) :
    exec (.setCaps src msg) s = .next (replied s src 0x05 msg 1 []) := by
  refine onRequest_answered src h (if_pos ?_)
  have hout : ¬(150 ≤ leAt (msg.drop 16) 1 2 ∧ leAt (msg.drop 16) 1 2 ≤ 900 ∧ leAt (msg.drop 16) 3 1 ≤ 32) := by omega
  rw [decide_eq_false hout, Bool.not_false, Bool.or_true]

theorem wake_accepted (h : Asked s 0x07 msg) (hl : (msg.drop 16).length = 1) (hm : leAt (msg.drop 16) 0 1 < 16) :
    exec (.wake src msg) s = .next (orderWake s (some (src, leAt msg 8 4)) 0 (leAt (msg.drop 16) 0 1)) := by
  refine onRequest_later src h (if_neg ?_)
  rw [chipsOk, decide_eq_true hm, decide_eq_false (not_not.mpr hl)]
  exact Bool.false_ne_true

/-- A request for power of the whole sled, of value `v`. -/
theorem sledBody_inRange {v : Nat} (hl : (msg.drop 16).length = 1) (hv : leAt (msg.drop 16) 0 1 = v) :
    ¬((msg.drop 16).length ≠ 1 || !decide (leAt (msg.drop 16) 0 1 = v)) = true := by
  rw [decide_eq_true hv, decide_eq_false (not_not.mpr hl)]
  exact Bool.false_ne_true

/-! ### The cell, the leak latch and the firmware -/

theorem noBody (hb : msg.drop 16 = []) : ¬(!(msg.drop 16).isEmpty) = true := by
  rw [hb]
  exact Bool.false_ne_true

/-- The state once the sled is ready for its exchange: the valves are closed and the indicator lit. -/
def swapReady (u : State) : State :=
  let v := moveValves u false
  { v with cob := { v.cob with swapLamp := true, checking := false, powerWhenReady := false } }

theorem swapPrepare_accepted (h : Asked s 0x0B msg) (hb : msg.drop 16 = []) : exec (.swapPrepare src msg) s =
    .next (replied (swapReady (positions.foldl powerOff (holdEyelets s 0xFFFF))) src 0x0B msg 0 [1]) := by
  change execSwapPrepare src msg s = _
  unfold execSwapPrepare swapReady
  exact onRequest_answered src h (if_neg (not_not.mpr (List.length_eq_zero_iff.mpr hb)))

theorem clearLeak_dry (h : Asked s 0x0D msg) (hb : msg.drop 16 = []) (hw : s.cob.wet = 0) (hl : s.cob.leakLatched = true)
    (hv : s.cob.valvesOpen = false) : exec (.clearLeak src msg) s = .next (replied { s with
      cob := { s.cob with leakLatched := false, valvesOpen := true, checking := true }
      mon := { s.mon with quiet := true } } src 0x0D msg 0 []) := by
  refine onRequest_answered src h ((if_neg (noBody hb)).trans ((if_neg (not_not.mpr hw)).trans ((if_neg ?_).trans ?_)))
  · rw [hl]
    exact Bool.false_ne_true
  · rw [moveValves_moves (s := { s with cob := { s.cob with leakLatched := false } }) (hv.trans_ne (by decide))]
    rfl

theorem sledEvent_running (s : State) (code : Nat) (slots : List Nat) :
    (sledEvent s code slots).cob.running = s.cob.running := by
  obtain ⟨_, _, _, _, _, _, h⟩ := sledEvent_eq s code slots
  rw [h]

/-- What FW_ACTIVATE makes of its body (R436). -/
def activation (s : State) (b : List Byte) : Handled :=
  let img := 1 - s.cob.running
  if b.length ≠ 48 then refusedWith s apBadMessage
  else if decide (sha384 (s.cob.images.getD img []) = b) && Config.imageSigned (s.cob.images.getD img []) then
    accepted (sledEvent { s with cob := { s.cob with running := img, newFrom := some s.now } } 0x6030
      [img, s.cob.versions.getD img 0])
  else refusedWith s apBadState

/-- After the reply the Cobbler restarts where the running image has changed. -/
theorem fwActivate_exec {t : State} {status : Nat} {body : List Byte} (h : Asked s 0x0F msg)
    (ha : activation s (msg.drop 16) = (t, some (status, body))) : exec (.fwActivate src msg) s = .next (
      let u := replied t src 0x0F msg status body
      if u.cob.running = s.cob.running then u else { u with cob := { u.cob with restarting := true } }) := by
  have hr : onRequest s src 0x0F msg (fun s b _ => activation s b) = replied t src 0x0F msg status body :=
    onRequest_replied h ha src
  rw [← hr]
  rfl

theorem fwActivate_refused (h : Asked s 0x0F msg) (hl : (msg.drop 16).length = 48)
    (hn : sha384 (s.cob.images.getD (1 - s.cob.running) []) ≠ msg.drop 16 ∨
      Config.imageSigned (s.cob.images.getD (1 - s.cob.running) []) = false) :
    exec (.fwActivate src msg) s = .next (replied s src 0x0F msg 2 []) := by
  refine (fwActivate_exec (t := s) (status := 2) (body := []) h ((if_neg (not_not.mpr hl)).trans (if_neg ?_))).trans
    (congrArg _ (if_pos rfl))
  rw [Bool.and_eq_true, decide_eq_true_iff]
  rintro ⟨hd, hs⟩
  exact hn.elim (· hd) fun hf => Bool.false_ne_true (hf.symm.trans hs)

theorem fwActivate_activates {t : State} (h : Asked s 0x0F msg) (hl : (msg.drop 16).length = 48)
    (hd : sha384 (s.cob.images.getD (1 - s.cob.running) []) = msg.drop 16)
    (hs : Config.imageSigned (s.cob.images.getD (1 - s.cob.running) []) = true) (hr : s.cob.running < 2)
    (ht : sledEvent { s with cob := { s.cob with running := 1 - s.cob.running, newFrom := some s.now } } 0x6030
      [1 - s.cob.running, s.cob.versions.getD (1 - s.cob.running) 0] = t) :
    exec (.fwActivate src msg) s = .next (let u := replied t src 0x0F msg 0 []
      { u with cob := { u.cob with restarting := true } }) := by
  have hrun : t.cob.running = 1 - s.cob.running := by rw [← ht, sledEvent_running]
  have ha : activation s (msg.drop 16) = (t, some (0, [])) := by
    rw [activation, if_neg (not_not.mpr hl), hd, hs, decide_eq_true rfl, ht]
    rfl
  refine (fwActivate_exec h ha).trans (congrArg _ (if_neg ?_))
  change ¬t.cob.running = s.cob.running
  omega

end

/-- Settles O54. What a power-on request refuses is log entry 88. -/
theorem apbelPower : Obligations.ApbelPower := by
  refine ⟨fun s src msg h hl => fun hm h1 h2 h3 => setCaps_accepted h hl hm ⟨h1, h2, h3⟩,
    fun s src msg h _ hc => setCaps_outOfRange h hc,
    fun s src msg h hl hm hv hn => onRequest_answered src h ((if_neg (ChipsBody.inRange ⟨hl, hm, hv⟩)).trans
      (if_neg (ne_true_of_eq_false hn))),
    fun s src msg h hl hm hv => ⟨fun hc => ?_, fun hc hn => ?_⟩, fun s src msg h hl hm => wake_accepted h hl hm,
    fun s src msg h hl hm => ⟨fun hv hk => ?_, fun hv hk => ?_, fun hv => ?_⟩,
    fun s src msg h hl => ⟨fun hv hk => ?_, fun hv hk => ?_, fun hv => ?_⟩,
    fun s src msg h hb => ?_, fun s src msg h hb hc => ?_, fun s src msg h hb hc => ⟨_, sledEvent_recorded _ _ _, ?_⟩,
    fun s src msg h hb => ⟨fun hw => ?_, clearLeak_dry h hb⟩, fun s src msg h h5 hl => ?_,
    fun s src msg h hl => ⟨fwActivate_refused h hl,
      fun hd hs hr => ⟨_, sledEvent_recorded _ _ _, fwActivate_activates h hl hd hs hr rfl⟩⟩⟩
  · exact onRequest_answered src h ((if_neg (ChipsBody.inRange ⟨hl, hm, hv⟩)).trans (if_pos hc))
  · exact onRequest_answered src h ((if_neg (ChipsBody.inRange ⟨hl, hm, hv⟩)).trans
      ((if_neg (ne_true_of_eq_false hc)).trans (if_neg (ne_true_of_eq_false hn))))
  · exact onRequest_answered src h ((if_neg (ChipsBody.inRange ⟨hl, hm, hv⟩)).trans (if_pos hk))
  · exact onRequest_answered src h ((if_neg (ChipsBody.inRange ⟨hl, hm, hv⟩)).trans (if_neg (ne_true_of_eq_false hk)))
  · exact onRequest_answered src h (if_neg (ChipsBody.inRange ⟨hl, hm, hv⟩))
  · exact onRequest_answered src h ((if_neg (sledBody_inRange hl hv)).trans (if_pos hk))
  · exact onRequest_answered src h ((if_neg (sledBody_inRange hl hv)).trans (if_neg (ne_true_of_eq_false hk)))
  · exact onRequest_answered src h (if_neg (sledBody_inRange hl hv))
  · exact swapPrepare_accepted h hb
  · exact onRequest_answered src h ((if_neg (noBody hb)).trans (if_pos hc))
  · exact onRequest_answered src h ((if_neg (noBody hb)).trans (if_neg (ne_true_of_eq_false hc)))
  · exact onRequest_answered src h ((if_neg (noBody hb)).trans (if_pos hw))
  · exact ⟨freshFree s (1 - s.cob.running) % 2 ^ 32, Nat.mod_lt _ (by decide),
      onRequest_answered src h (if_neg (by omega))⟩

end Sys2Proof.Proofs

/-! ## The acoustic requests -/
namespace Sys2Proof.Proofs
open Sys2Proof.Machine Sys2Proof.Safety

section
variable {s t : State} {src op : Nat} {msg : List Byte}

theorem onAcoustic_answered {status : Nat} {body : List Byte} {f : State → List Byte → Handled} (h : AskedAcoustic s op msg)
    (hf : f s (msg.drop 16) = (t, some (status, body))) :
    (Host.Outcome.next (onAcoustic s src op msg f) : Host.Outcome State Fault Refusal) =
      .next (replied t src 0x11 msg status body) := by
  obtain ⟨ha, hb, hop⟩ := h
  exact onRequest_answered src ha ((if_pos ⟨hop, hb⟩).trans hf)

theorem configure_accepted {c : MonCfg} (h : AskedAcoustic s 0x01 msg) (hc : parseCfg (msg.drop 16) = some c) :
    exec (.configure src msg) s = .next (replied { s with mon := { s.mon with pendingCfg := some c } } src 0x11 msg 0
      (leBytes 4 ((s.mon.gen + 1) % 2 ^ 32))) := by
  refine onAcoustic_answered h ?_
  dsimp only
  rw [hc]
  rfl

theorem configure_refused (h : AskedAcoustic s 0x01 msg) (hc : parseCfg (msg.drop 16) = none) :
    exec (.configure src msg) s = .next (replied s src 0x11 msg 1 []) := by
  refine onAcoustic_answered h ?_
  dsimp only
  rw [hc]
  rfl

theorem calWrite_accepted (h : AskedAcoustic s 0x02 msg) (hl : (msg.drop 16).length = 5) (hm : leAt (msg.drop 16) 1 1 < 4) :
    exec (.calWrite src msg) s = .next (replied { s with mon := { s.mon with
      pendingCal := s.mon.pendingCal.filter (fun c => decide (c.1 ≠ leAt (msg.drop 16) 1 1))
        ++ [(leAt (msg.drop 16) 1 1, leAt (msg.drop 16) 2 2, signedOf 8 (leAt (msg.drop 16) 4 1))] } } src 0x11 msg 0 []) := by
  refine onAcoustic_answered h (if_neg ?_)
  rw [decide_eq_true hm, decide_eq_false (not_not.mpr hl)]
  exact Bool.false_ne_true

theorem calWrite_refused (h : AskedAcoustic s 0x02 msg) (hm : 4 ≤ leAt (msg.drop 16) 1 1) :
    exec (.calWrite src msg) s = .next (replied s src 0x11 msg 1 []) := by
  refine onAcoustic_answered h (if_pos ?_)
  rw [decide_eq_false (Nat.not_lt.mpr hm), Bool.not_false, Bool.or_true]

theorem templateCommit_accepted {k : MonSlot} {t : MonTemplate} (h : AskedAcoustic s 0x06 msg)
    (hl : (msg.drop 16).length = 34) (hk : s.mon.slots[leAt (msg.drop 16) 33 1]? = some k)
    (hp : parseTemplateHeader (slice (msg.drop 16) 1 32) k.held = some t) : exec (.templateCommit src msg) s =
      .next (replied { s with mon := { s.mon with
        slots := setAt s.mon.slots (leAt (msg.drop 16) 33 1) { k with next := some t } } } src 0x11 msg 0 []) := by
  refine onAcoustic_answered h ?_
  dsimp only
  rw [hk]
  dsimp only
  rw [if_pos hl, hp]
  rfl

theorem templateCommit_refused {k : MonSlot} (h : AskedAcoustic s 0x06 msg) (hl : (msg.drop 16).length = 34)
    (hk : s.mon.slots[leAt (msg.drop 16) 33 1]? = some k)
    (hp : parseTemplateHeader (slice (msg.drop 16) 1 32) k.held = none) :
    exec (.templateCommit src msg) s = .next (replied s src 0x11 msg 1 []) := by
  refine onAcoustic_answered h ?_
  dsimp only
  rw [hk]
  dsimp only
  rw [if_pos hl, hp]
  rfl

end

/-- What follows the third part of a body, as one rest. -/
theorem append_rest (a b c d e f : List Byte) : a ++ b ++ c ++ d ++ e ++ f = a ++ b ++ c ++ (d ++ (e ++ f)) := by
  simp only [List.append_assoc]

/-- Settles O55. The generation that CONFIGURE's reply names is log entry 89, the order of the STATUS bytes log entry 16. -/
theorem acousticRequests : Obligations.AcousticRequests := by
  refine ⟨fun s src msg h => ⟨fun c => configure_accepted h, configure_refused h⟩,
    fun s src msg h hl => ⟨calWrite_accepted h hl, calWrite_refused h⟩,
    fun s src msg hl => ⟨fun h => onAcoustic_answered h (if_neg (not_not.mpr hl)),
      fun h => onAcoustic_answered h (if_neg (not_not.mpr hl)),
      fun h => ⟨_, onAcoustic_answered h (if_neg (not_not.mpr hl)), _, append_rest _ _ _ _ _ _⟩⟩,
    fun s src msg h => fun h1 h2 h3 h4 h5 => onAcoustic_answered h (if_pos ⟨h1, h2, h3, h4, h5⟩),
    fun s src msg k h hl hk => ⟨fun t => templateCommit_accepted h hl hk,
      templateCommit_refused h hl hk⟩,
    fun s src msg h hl hs => onAcoustic_answered h (if_pos ⟨hl, hs⟩)⟩

end Sys2Proof.Proofs

/-! ## The states of the monitor, its microphones and its frames -/
namespace Sys2Proof.Proofs
open Sys2Proof.Machine Sys2Proof.Safety

/-! ### Limited events and clips -/

section
variable {s : State} {code key : Nat}

theorem monEvent_limited (slots : List Nat) (h : ∃ t, (code, key, t) ∈ s.mon.rates ∧ s.now < t + 1000 * msTicks) :
    monEvent s code key slots = s := by
  obtain ⟨t, hmem, ht⟩ := h
  rw [monEvent, if_pos (List.any_eq_true.mpr ⟨_, hmem, decide_eq_true ⟨rfl, rfl, ht⟩⟩)]

theorem monEvent_due (slots : List Nat) (h : ∀ t, (code, key, t) ∈ s.mon.rates → t + 1000 * msTicks ≤ s.now) :
    monEvent s code key slots = sledEvent { s with mon := { s.mon with
      rates := s.mon.rates.filter (fun r => !decide (r.1 = code ∧ r.2.1 = key)) ++ [(code, key, s.now)] } } code slots := by
  rw [monEvent, if_neg]
  rw [List.any_eq_true]
  rintro ⟨⟨c, k, t⟩, hmem, hr⟩
  obtain ⟨rfl, rfl, ht⟩ := of_decide_eq_true hr
  exact absurd ht (Nat.not_lt.mpr (h t hmem))

end

theorem noteClips_none (s : State) (i : Nat) : noteClips s i 0 = s := by
  rw [noteClips, if_pos rfl]

theorem clipsIn_none {samples : List (List (Int × Bool))} (h : ∀ p ∈ samples, ∀ x ∈ p, x.2 = false) (j : Nat) :
    clipsIn samples j = 0 := by
  rw [clipsIn, List.length_eq_zero_iff, List.filter_eq_nil_iff]
  intro p hp
  rw [List.getD_eq_getElem?_getD]
  cases hx : p[j]? with
  | none => exact Bool.false_ne_true
  | some x => exact ne_true_of_eq_false (h p hp x (List.mem_of_getElem? hx))

/-- Frames without a clipped sample note nothing. -/
theorem foldl_noteClips_none {samples : List (List (Int × Bool))} (h : ∀ p ∈ samples, ∀ x ∈ p, x.2 = false)
    (mics : List (Nat × Nat)) (s : State) :
    mics.foldl (fun s (p : Nat × Nat) => noteClips s p.1 (clipsIn samples p.2)) s = s :=
  foldl_fixed fun p _ => by rw [clipsIn_none h, noteClips_none]

/-! ### Frame boundaries -/

/-- The state after the samples of a frame have counted and what is pending has been applied. -/
def frameEnded (s : State) : State := { s with
  mon := applyPending { s.mon with chans := s.mon.chans.map (fun c => { c with invalid := c.invalid - 64 }) } s.now }

theorem frameBoundary_silent {s : State} {samples : List (List (Int × Bool))} (h : s.mon.state ≠ .off)
    (hn : s.mon.stream = none) (hc : ∀ p ∈ samples, ∀ x ∈ p, x.2 = false) :
    exec (.acousticFrameBoundary samples) s = .next (frameEnded s) := by
  change execAcousticFrameBoundary samples s = _
  rw [execAcousticFrameBoundary, if_neg h]
  dsimp only
  rw [hn]
  dsimp only
  rw [foldl_noteClips_none hc]
  rfl

/-- The state after the frame has been sent to its stream. -/
def streamed (s : State) (src : Nat) (samples : List (List (Int × Bool))) : State := { s with
  apbelOut := s.apbelOut ++ [(.source src, apbelMsg 0x11 false 0 0 (streamBody s.mon samples))]
  mon := { s.mon with
    frameSeq := (s.mon.frameSeq + 1) % 2 ^ 32
    sampleIndex := (s.mon.sampleIndex + 64) % 2 ^ 64 } }

theorem frameBoundary_streams {s : State} {samples : List (List (Int × Bool))} {src : Nat} (h : s.mon.state ≠ .off)
    (hs : s.mon.stream = some src) (ha : cobAnswers s = true) (hc : ∀ p ∈ samples, ∀ x ∈ p, x.2 = false) :
    exec (.acousticFrameBoundary samples) s = .next (frameEnded (streamed s src samples)) := by
  change execAcousticFrameBoundary samples s = _
  rw [execAcousticFrameBoundary, if_neg h]
  dsimp only
  rw [hs]
  dsimp only
  rw [if_pos ha, foldl_noteClips_none hc]
  rfl

/-! ### States and microphones -/

/-- The monitor as it starts, with the stored configuration. -/
def monStarted (m : Monitor) (now : Nat) : Monitor := { m with
  state := .settling
  auto := false
  cfg := m.stored
  clockActive := m.stored.active
  wantActive := none
  pendingCfg := none
  pendingCal := []
  featInvalid := max m.featInvalid 200
  frameAt := now
  chans := m.chans.map (fun c => raiseInvalid (startCount m.stored.rate m.stored.active)
    { c with floor := none, level := none, armed := true, loudRun := 0 }) }

theorem monStarted_calValid {m : Monitor} {now i : Nat} (hi : i < m.chans.length)
    (h : (m.chans.getD i MonChan.fresh).calValid = true) :
    ((monStarted m now).chans.getD i MonChan.fresh).calValid = true := by
  rw [List.getD_eq_getElem _ _ hi] at h
  rw [List.getD_eq_getElem _ _ (by rw [monStarted, List.length_map]; exact hi)]
  simpa [monStarted, raiseInvalid] using h

theorem monitorStart_exec {s : State} (h : s.mon.state = .off)
    (hc : ∀ i, i < 4 → (s.mon.chans.getD i MonChan.fresh).calValid = true) (hl : s.mon.chans.length = 4) :
    exec .monitorStart s =
      .next { s with cob := { s.cob with vaux := true }, mon := monStarted s.mon s.now } := by
  have hfix : positions.foldl (fun s i => if (s.mon.chans.getD i MonChan.fresh).calValid then s else monEvent s 0x7001 i [i])
      { s with cob := { s.cob with vaux := true }, mon := monStarted s.mon s.now } =
      { s with cob := { s.cob with vaux := true }, mon := monStarted s.mon s.now } :=
    foldl_fixed fun i hi => if_pos (monStarted_calValid (by have := lt_of_mem_positions hi; omega)
      (hc i (lt_of_mem_positions hi)))
  change execMonitorStart s = _
  rw [execMonitorStart, if_pos h]
  exact congrArg Host.Outcome.next hfix

section
variable {s : State} {ch : Nat} {c : MonChan} (hc : s.mon.chans[ch]? = some c)
include hc

theorem micFault_exec (hf : c.fault = false) (h : s.mon.state ≠ .off) : exec (.micFault ch) s =
    .next (monEvent { s with mon := { s.mon with
      chans := setAt s.mon.chans ch { c with fault := true, loudRun := 0 } } } 0x7002 ch [ch]) := by
  change execMicFault ch s = _
  unfold execMicFault
  rw [hc]
  exact congrArg Host.Outcome.next (if_neg (by simp [hf, h]))

theorem micRecovery_exec (hf : c.fault = true) : exec (.micRecovery ch) s = .next { s with mon := { s.mon with
    chans := setAt s.mon.chans ch { c with fault := false, invalid := max c.invalid 40 }
    featInvalid := if ch = s.mon.cfg.featureCh then max s.mon.featInvalid 40 else s.mon.featInvalid } } := by
  change execMicRecovery ch s = _
  unfold execMicRecovery
  rw [hc]
  exact congrArg Host.Outcome.next (if_pos hf)

end

/-- Settles O56. VAUX_33 at the start, the return that leaves CONFIG_GEN and the recovery's count on the feature chain are
log entry 89. -/
theorem monitorStates : Obligations.MonitorStates := by
  refine ⟨fun s h hc hl => monitorStart_exec h hc hl, fun s h => ?_, fun s h ha ht => ?_, fun s => rfl,
    fun s ch c hc hf h => micFault_exec hc hf h, fun s ch c hc hf => micRecovery_exec hc hf, fun s i n hn => ?_,
    fun s code key slots => ⟨monEvent_limited slots, fun h => ?_⟩, fun s samples h hn hc => frameBoundary_silent h hn hc,
    fun s samples src h hs ha hc => frameBoundary_streams h hs ha hc⟩
  · change execMonitorSettled s = _
    rw [execMonitorSettled, if_pos h]
  · change execAutoActiveTimeout s = _
    rw [execAutoActiveTimeout, if_pos ⟨h, ha, ht⟩]
  · intro c k
    rw [noteClips, if_neg hn]
  · rw [monEvent_due slots h]
    exact sledEvent_recorded _ _ _

end Sys2Proof.Proofs

/-! ## Energy triggers -/
namespace Sys2Proof.Proofs
open Sys2Proof.Machine Sys2Proof.Safety

/-- The state with channel `ch` as `x`, at level `l`. -/
def putLevel (s : State) (ch : Nat) (l : Int) (x : MonChan) : State :=
  { s with mon := { s.mon with chans := setAt s.mon.chans ch { x with level := some l } } }

/-- What a block of level `l` makes of channel `c`, with floor `f`, while the monitor decides (R461). -/
def energyDecided (s : State) (ch : Nat) (c : MonChan) (l f : Int) : State :=
  if c.armed then
    if f + s.mon.cfg.threshold ≤ l then
      if s.mon.cfg.holdBlocks ≤ c.loudRun + 1 then
        energyTrigger (putLevel s ch l { c with floor := some f, armed := false, loudRun := 0, disarmedAt := s.now }) ch l f
      else putLevel s ch l { c with floor := some (floorAfter s.mon.cfg f l), loudRun := c.loudRun + 1 }
    else putLevel s ch l { c with floor := some (floorAfter s.mon.cfg f l), loudRun := 0 }
  else putLevel s ch l { c with armed := decide (l < f + s.mon.cfg.threshold - 192), loudRun := 0 }

section
variable {s : State} {ch : Nat} {c : MonChan} (hc : s.mon.chans[ch]? = some c)
include hc

theorem energyBlock_exec (xs : List Int) (hs : settled s.mon = true) (he : s.mon.cfg.energyEn = true)
    (hb : bitOf s.mon.cfg.channels ch = true) (hf : c.fault = false) (hi : c.invalid = 0) : exec (.energyBlock ch xs) s =
      .next (if s.mon.quiet then putLevel s ch (levelOf xs) c
        else energyDecided s ch c (levelOf xs) (c.floor.getD (levelOf xs))) := by
  change execEnergyBlock ch xs s = _
  unfold execEnergyBlock
  rw [hc]
  exact congrArg Host.Outcome.next (if_neg (by simp [hs, he, hb, hf, hi]))

theorem energyBlock_decides (xs : List Int) (hd : deciding s.mon = true) (he : s.mon.cfg.energyEn = true)
    (hb : bitOf s.mon.cfg.channels ch = true) (hf : c.fault = false) (hi : c.invalid = 0) :
    exec (.energyBlock ch xs) s = .next (energyDecided s ch c (levelOf xs) (c.floor.getD (levelOf xs))) := by
  obtain ⟨hs, hq⟩ := (Bool.and_eq_true _ _).mp hd
  rw [energyBlock_exec hc xs hs he hb hf hi, if_neg (ne_true_of_eq_false ((Bool.not_eq_true' _).mp hq))]

theorem energyRearmTimeout_exec (ha : c.armed = false) (hq : s.mon.quiet = false)
    (ht : c.disarmedAt + 60000 * msTicks ≤ s.now) : exec (.energyRearmTimeout ch) s = .next { s with mon := { s.mon with
      chans := setAt s.mon.chans ch { c with armed := true, floor := c.level, loudRun := 0 } } } := by
  change execEnergyRearmTimeout ch s = _
  unfold execEnergyRearmTimeout
  rw [hc]
  exact congrArg Host.Outcome.next (if_pos (by simp [ha, hq, ht]))

end

/-- A floor never passes the level, and moves by at most ATTACK up and DECAY down. -/
theorem floorAfter_moves {g : MonCfg} (f l : Int) (ha : 0 ≤ g.attack) (hd : 0 ≤ g.decay) :
    (f ≤ l → f ≤ floorAfter g f l ∧ floorAfter g f l ≤ l ∧ floorAfter g f l ≤ f + g.attack) ∧
    (l < f → l ≤ floorAfter g f l ∧ floorAfter g f l ≤ f ∧ f - g.decay ≤ floorAfter g f l) := by
  refine ⟨fun h => ?_, fun h => ?_⟩
  · rw [floorAfter, if_pos h]
    omega
  · rw [floorAfter, if_neg (not_le.mpr h)]
    omega

/-- Settles O57. While a valve moves the level alone is taken, and the block that triggers leaves the floor: log entry
89. -/
theorem energyTriggers : Obligations.EnergyTriggers := by
  refine ⟨fun s ch xs c hc hd he hb hf hi => ?_, fun s ch xs c hc hs hq he hb hf hi => ?_,
    fun g f l ha hd => floorAfter_moves f l ha hd, fun s ch c hc ha hq ht => energyRearmTimeout_exec hc ha hq ht,
    fun s ch l f => ?_⟩
  · intro l f put
    rw [energyBlock_decides hc xs hd he hb hf hi, energyDecided]
    refine ⟨fun ha hl => ?_, fun ha hl hr => ?_, fun ha hl hr => ?_, fun ha => ?_⟩
    · exact congrArg _ ((if_pos ha).trans (if_neg (not_le.mpr hl)))
    · exact congrArg _ ((if_pos ha).trans ((if_pos hl).trans (if_neg (not_le.mpr hr))))
    · exact congrArg _ ((if_pos ha).trans ((if_pos hl).trans (if_pos hr)))
    · exact congrArg _ (if_neg (ne_true_of_eq_false ha))
  · exact (energyBlock_exec hc xs hs he hb hf hi).trans (congrArg _ (if_pos hq))
  · intro u v
    exact ⟨fun hs ha => if_pos ⟨hs, ha⟩, fun hn ha => (if_neg hn).trans (if_pos ha),
      fun hn ha => (if_neg hn).trans (if_neg (ne_true_of_eq_false ha))⟩

end Sys2Proof.Proofs

/-! ## Signatures -/
namespace Sys2Proof.Proofs
open Sys2Proof.Machine Sys2Proof.Safety

/-! ### Feature vectors -/

/-- The state after a vector has spent 80 of the invalid count and put committed templates in force. -/
def vectorTaken (s : State) : State :=
  { s with mon := { s.mon with featInvalid := s.mon.featInvalid - 80, slots := s.mon.slots.map promote } }

/-- The slots `slots` that match, each with its number. -/
def matchesIn (now : Nat) (slots : List MonSlot) : List (Nat × MonSlot) :=
  (slots.zipIdx.filter (fun p => slotMatches now p.1)).map (fun p => (p.2, p.1))

/-- The state with the slots `slots`, after the actions of those that match. -/
def vectorMatched (s : State) (slots : List MonSlot) : State :=
  matchActions ((matchesIn s.now slots).foldl (fun s p => noteMatch s p.1 p.2)
    { s with mon := { s.mon with slots := slots } }) (matchesIn s.now slots)

theorem featureVector_exec (s : State) (x : List Nat) (usable : Bool) : exec (.featureVector x usable) s = .next (
    let u := vectorTaken s
    if !settled s.mon || !s.mon.cfg.sigEn then u
    else if !(usable && decide (s.mon.featInvalid = 0) && !(s.mon.chans.getD s.mon.cfg.featureCh MonChan.fresh).fault) then
      { u with mon := { u.mon with slots := u.mon.slots.map slotReset } }
    else if s.mon.quiet then { u with mon := { u.mon with slots := u.mon.slots.map (slotStep x) } }
    else vectorMatched u (u.mon.slots.map (slotStep x))) := rfl

section
variable {s : State} (x : List Nat)

theorem featureVector_unsettled (usable : Bool) (h : settled s.mon = false ∨ s.mon.cfg.sigEn = false) :
    exec (.featureVector x usable) s = .next (vectorTaken s) := by
  rw [featureVector_exec]
  exact congrArg _ (if_pos (by rcases h with h | h <;> simp [h]))

theorem featureVector_unusable (hs : settled s.mon = true) (he : s.mon.cfg.sigEn = true) :
    exec (.featureVector x false) s =
      .next { vectorTaken s with mon := { (vectorTaken s).mon with slots := (s.mon.slots.map promote).map slotReset } } := by
  rw [featureVector_exec]
  exact congrArg _ ((if_neg (by simp [hs, he])).trans (if_pos rfl))

theorem featureVector_usable (hs : settled s.mon = true) (he : s.mon.cfg.sigEn = true) (hi : s.mon.featInvalid = 0)
    (hf : (s.mon.chans.getD s.mon.cfg.featureCh MonChan.fresh).fault = false) : exec (.featureVector x true) s = .next (
      let u := vectorTaken s
      if s.mon.quiet then { u with mon := { u.mon with slots := u.mon.slots.map (slotStep x) } }
      else vectorMatched u (u.mon.slots.map (slotStep x))) := by
  rw [featureVector_exec]
  exact congrArg _ ((if_neg (by simp [hs, he])).trans (if_neg (by rw [hf, hi]; decide)))

end

/-! ### Running costs and matches -/

theorem costRow_length (t : MonTemplate) (x : List Nat) (prev : List (Option Nat)) (n j : Nat) (left : Option Nat) :
    (costRow t x prev n j left).length = n := by
  induction n generalizing j left with
  | zero => rfl
  | succ n ih =>
    rw [costRow]
    exact congrArg Nat.succ (ih _ _)

/-- A template costs nothing against itself. -/
theorem bandCost_self (x : List Nat) : bandCost false x x = 0 := by
  simp [bandCost]

theorem slotMatches_iff {k : MonSlot} {t : MonTemplate} {d : Nat} (now : Nat) (ht : k.tmpl = some t)
    (hd : k.lastDist = some d) : slotMatches now k = true ↔ d ≤ 100 * t.n * t.threshold ∧ k.quietUntil ≤ now := by
  unfold slotMatches
  rw [ht, hd]
  exact (Bool.and_eq_true_iff ..).trans (and_congr decide_eq_true_iff decide_eq_true_iff)

/-- Settles O58. That the costs go on while a valve moves, with nothing matching, is log entry 89. -/
theorem signatures : Obligations.Signatures := by
  refine ⟨fun s x usable => ?_, fun s ms h => if_pos h, fun s => rfl, fun t x prev => ?_, fun t _ _ => bandCost_self _,
    fun now k t d ht hd => slotMatches_iff now ht hd⟩
  · intro u
    refine ⟨featureVector_unsettled x usable, fun hs he hu => ?_, fun hs hq he hu hi hf => ?_, fun hd he hu hi hf => ?_⟩
    · rw [hu]
      exact featureVector_unusable x hs he
    · rw [hu]
      exact (featureVector_usable x hs he hi hf).trans (congrArg _ (if_pos hq))
    · obtain ⟨hs, hq⟩ := (Bool.and_eq_true _ _).mp hd
      rw [hu]
      exact (featureVector_usable x hs he hi hf).trans
        (congrArg _ (if_neg (ne_true_of_eq_false ((Bool.not_eq_true' _).mp hq))))
  · rw [updateCosts, List.length_cons, costRow_length]

end Sys2Proof.Proofs
